-- ==== Sys2Proof/Word.lean ====
section
/-! DEFINITION. The words of the Xanaris instruction set and their plainest arithmetic (R6, R12, R28). -/

namespace Sys2Proof

/-- One byte of memory. -/
abbrev Byte := BitVec 8

/-- A 64-bit scalar register, address or captured operand (R12). -/
abbrev Word := BitVec 64

/-- A 32-bit instruction word (R28). -/
abbrev IWord := BitVec 32

/-- A register number, as the five-bit fields d, a and b hold it (R28). -/
abbrev Reg := BitVec 5

/-- The contents of a vector register: 2,048 bytes, byte 0 in the low bits (R13, R135). -/
abbrev VReg := BitVec 16384

/-- The contents of a tile accumulator: 4 KiB, byte 0 in the low bits (R201). -/
abbrev TileReg := BitVec 32768

/-- One bit for each element index 0 .. 2,047 (`vm`, `vsg`, R22). -/
abbrev MaskReg := BitVec 2048

/-- The bytes of a number, least significant first (R6: multi-byte fields are little-endian). -/
def bytesOf : Nat → Nat → List Byte
  | 0, _ => []
  | n + 1, x => BitVec.ofNat 8 x :: bytesOf n (x / 256)

/-- The number that bytes spell, least significant first (R6). -/
def ofBytes : List Byte → Nat
  | [] => 0
  | b :: bs => b.toNat + 256 * ofBytes bs

@[simp] theorem bytesOf_length (n x : Nat) : (bytesOf n x).length = n := by
  induction n generalizing x with
  | zero => rfl
  | succ n ih => simp [bytesOf, ih]

theorem ofBytes_bytesOf (n x : Nat) : ofBytes (bytesOf n x) = x % 256 ^ n := by
  induction n generalizing x with
  | zero => simp [bytesOf, ofBytes, Nat.mod_one]
  | succ n ih =>
    rw [bytesOf, ofBytes, ih, BitVec.toNat_ofNat, show (256 : Nat) ^ (n + 1) = 256 * 256 ^ n by ring,
      Nat.mod_mul]

end Sys2Proof
end

