-- ==== Sys2Proof/Syntax.lean ====
section
/-! DEFINITION. The abstract syntax: one constructor of `Instr` per row of the table of operations and events, the
instruction words (R31, R32) first and the device's own steps after them. -/

namespace Sys2Proof

/-- Operands of the scalar instructions with two source registers: xd, xa, xb and the policy bits of xa and xb (R15,
R28). -/
structure XOps where
  d : Reg
  a : Reg
  b : Reg
  fa : Bool
  fb : Bool
  deriving DecidableEq, Repr

/-- Operands of an instruction with a register or number in d, xa and the policy bit of xa. -/
structure XUn where
  d : Reg
  a : Reg
  fa : Bool
  deriving DecidableEq, Repr

/-- Operands of a one-source instruction with an element type and no mask. -/
structure TUn where
  d : Reg
  a : Reg
  ty : BitVec 2
  fa : Bool
  deriving DecidableEq, Repr

/-- Operands of format I: xd, xa and imm16 (R28). -/
structure ImmOps where
  d : Reg
  a : Reg
  imm : BitVec 16
  deriving DecidableEq, Repr

/-- Operands of the shifts by an immediate amount (R32). -/
structure ShOps where
  d : Reg
  a : Reg
  amt : BitVec 6
  deriving DecidableEq, Repr

/-- Operands of format J: xd and imm21 (R28). -/
structure ConstOps where
  d : Reg
  imm : BitVec 21
  deriving DecidableEq, Repr

/-- Operands of the comparing branches: xa, xb and off11 (R28). -/
structure BrOps where
  a : Reg
  b : Reg
  off : BitVec 11
  deriving DecidableEq, Repr

/-- Operands of brf and bre: xa and off11. -/
structure BrfOps where
  a : Reg
  off : BitVec 11
  deriving DecidableEq, Repr

/-- Operands of ld and st: the data register, the base xa, the width and disp10 (R28). -/
structure MemOps where
  d : Reg
  a : Reg
  ty : BitVec 2
  disp : BitVec 10
  deriving DecidableEq, Repr

/-- Operands of the scalar atomics: `wide` is ty[0] (64 bits rather than 32), `acq` and `rel` are rep[4] and rep[3]
(R99). -/
structure AtOps where
  d : Reg
  a : Reg
  b : Reg
  wide : Bool
  acq : Bool
  rel : Bool
  fa : Bool
  fb : Bool
  deriving DecidableEq, Repr

/-- Operands of a typed scalar instruction with two sources. -/
structure FOps where
  d : Reg
  a : Reg
  b : Reg
  ty : BitVec 2
  fa : Bool
  fb : Bool
  deriving DecidableEq, Repr

/-- Operands of fcvt: `other` is the second type, b[12:11] (R103). -/
structure FCvtOps where
  d : Reg
  a : Reg
  other : BitVec 2
  ty : BitVec 2
  fa : Bool
  deriving DecidableEq, Repr

/-- Operands of fcvtif and fcvtfi: `uns` is b[13], `other` the integer width (R103). -/
structure FCvtiOps where
  d : Reg
  a : Reg
  uns : Bool
  other : BitVec 2
  ty : BitVec 2
  fa : Bool
  deriving DecidableEq, Repr

/-- Operands of crr: xd and the index (R32). -/
structure CrrOps where
  d : Reg
  idx : BitVec 12
  deriving DecidableEq, Repr

/-- Operands of crw, crs and crc: xd, xa and the index (R32). -/
structure CrOps where
  d : Reg
  a : Reg
  idx : BitVec 12
  deriving DecidableEq, Repr

/-- Operands of setvl (R32). -/
structure SetvlOps where
  d : Reg
  a : Reg
  mv : Bool
  ty : BitVec 2
  gm : BitVec 5
  deriving DecidableEq, Repr

/-- Operands of fencex: scope, class 1 and class 2 (R32). -/
structure FencexOps where
  scope : BitVec 3
  c1 : BitVec 3
  c2 : BitVec 3
  deriving DecidableEq, Repr

/-- Two register fields, d and a. -/
structure DA where
  d : Reg
  a : Reg
  deriving DecidableEq, Repr

/-- Operands of the vector instructions with two sources (R28, R29). -/
structure VOps where
  d : Reg
  a : Reg
  b : Reg
  ty : BitVec 2
  m : Bool
  rep : BitVec 3
  fa : Bool
  fb : Bool
  deriving DecidableEq, Repr

/-- Operands of the vector compares, whose result goes to `vm` (R146). -/
structure VCmpOps where
  a : Reg
  b : Reg
  ty : BitVec 2
  m : Bool
  rep : BitVec 3
  fa : Bool
  fb : Bool
  deriving DecidableEq, Repr

/-- Operands of vsel, which takes no mask bit (R147). -/
structure VSelOps where
  d : Reg
  a : Reg
  b : Reg
  ty : BitVec 2
  rep : BitVec 3
  fa : Bool
  fb : Bool
  deriving DecidableEq, Repr

/-- Operands of the vector instructions with one source. -/
structure VUn where
  d : Reg
  a : Reg
  ty : BitVec 2
  m : Bool
  fa : Bool
  deriving DecidableEq, Repr

/-- Operands of vcvt float to float: `other` is the source float (R150). -/
structure VCvtOps where
  d : Reg
  a : Reg
  other : BitVec 2
  ty : BitVec 2
  m : Bool
  fa : Bool
  deriving DecidableEq, Repr

/-- Operands of vcvtif and vcvtfi: `other` is the integer width (R150). -/
structure VCvtiOps where
  d : Reg
  a : Reg
  uns : Bool
  other : BitVec 2
  ty : BitVec 2
  m : Bool
  fa : Bool
  deriving DecidableEq, Repr

/-- Operands of vnef: vd, va, the residual ve, the block width in `rep` (R154). -/
structure VNefOps where
  d : Reg
  a : Reg
  ve : Reg
  m : Bool
  rep : BitVec 3
  fa : Bool
  deriving DecidableEq, Repr

/-- Operands of vqnt and vwid: the block width in `rep` (R152, R153). -/
structure VQOps where
  d : Reg
  a : Reg
  ty : BitVec 2
  rep : BitVec 3
  fa : Bool
  deriving DecidableEq, Repr

/-- Operands of the reductions: `scan` is b[12] and `xdst` b[11] (R155). -/
structure VRedOps where
  d : Reg
  a : Reg
  scan : Bool
  xdst : Bool
  ty : BitVec 2
  m : Bool
  fa : Bool
  deriving DecidableEq, Repr

/-- Operands of the slides: b is an x register (R157). -/
structure VSlideOps where
  d : Reg
  a : Reg
  b : Reg
  ty : BitVec 2
  m : Bool
  fa : Bool
  fb : Bool
  deriving DecidableEq, Repr

/-- One source register and its policy bit. -/
structure AOps where
  a : Reg
  fa : Bool
  deriving DecidableEq, Repr

/-- Operands of vmsgb: `flt` is b[13] and `ew` b[12:11] (R159). -/
structure VmsgbOps where
  a : Reg
  flt : Bool
  ew : BitVec 2
  fa : Bool
  deriving DecidableEq, Repr

/-- Operands of the vector and multivector loads and stores (R169, R198). -/
structure VMemOps where
  d : Reg
  a : Reg
  ty : BitVec 2
  m : Bool
  disp : BitVec 10
  deriving DecidableEq, Repr

/-- Operands of vldb and vstb (R170). -/
structure VBlkOps where
  d : Reg
  a : Reg
  m : Bool
  disp : BitVec 10
  deriving DecidableEq, Repr

/-- Operands of vldz: `limit` is the x register with the byte limit (R171). -/
structure VldzOps where
  d : Reg
  a : Reg
  ty : BitVec 2
  limit : Reg
  deriving DecidableEq, Repr

/-- Operands of the vector atomics: acquire, release and ordered-index in rep (R174). -/
structure VAtOps where
  d : Reg
  a : Reg
  b : Reg
  wide : Bool
  m : Bool
  acq : Bool
  rel : Bool
  ord : Bool
  fa : Bool
  fb : Bool
  deriving DecidableEq, Repr

/-- Operands of mproj: b is the grade mask (R196). -/
structure MProjOps where
  d : Reg
  a : Reg
  gm : BitVec 5
  ty : BitVec 2
  m : Bool
  fa : Bool
  deriving DecidableEq, Repr

/-- Operands of msetg (R199). -/
structure MSetgOps where
  d : Reg
  gm : BitVec 5
  ty : BitVec 2
  deriving DecidableEq, Repr

/-- Operands of topa: `count` is the number of steps less one (R209). -/
structure TopaOps where
  h : Reg
  a : Reg
  b : Reg
  ty : BitVec 2
  count : BitVec 2
  fa : Bool
  fb : Bool
  deriving DecidableEq, Repr

/-- Operands of tspa: `pat` is d[2], `h` d[1:0], `sel` the metadata selector (R216). -/
structure TspaOps where
  pat : Bool
  h : BitVec 2
  a : Reg
  b : Reg
  ty : BitVec 2
  sel : BitVec 3
  fa : Bool
  fb : Bool
  deriving DecidableEq, Repr

/-- Operands of tmvr and tmvc (R211). -/
structure TmvOps where
  d : Reg
  h : Reg
  b : Reg
  ty : BitVec 2
  m : Bool
  fb : Bool
  deriving DecidableEq, Repr

/-- Operands of tmvw (R212). -/
structure TmvwOps where
  h : Reg
  a : Reg
  b : Reg
  ty : BitVec 2
  m : Bool
  fa : Bool
  fb : Bool
  deriving DecidableEq, Repr

/-- Operands of vspc and vspx: `pat` is b[11] (R214). -/
structure VspOps where
  d : Reg
  a : Reg
  pat : Bool
  ty : BitVec 2
  fa : Bool
  deriving DecidableEq, Repr

/-- Operands of vbox and vtri (R276). -/
structure RayOps where
  d : Reg
  a : Reg
  b : Reg
  m : Bool
  fa : Bool
  fb : Bool
  deriving DecidableEq, Repr

/-- Operands with a two-bit selector in b[12:11]: the slot of pcfg, the level of cancel. -/
structure SelOps where
  d : Reg
  a : Reg
  sel : BitVec 2
  fa : Bool
  deriving DecidableEq, Repr

/-- Operands of pstat: xd and the query (R244). -/
structure PstatOps where
  d : Reg
  q : Reg
  deriving DecidableEq, Repr

/-- Operands of bar (R279). -/
structure BarOps where
  a : Reg
  b : Reg
  fa : Bool
  fb : Bool
  deriving DecidableEq, Repr

/-- Operands of wait: `cond` is d, `wide` is ty[0] (R116). -/
structure WaitOps where
  cond : BitVec 5
  a : Reg
  b : Reg
  wide : Bool
  fa : Bool
  fb : Bool
  deriving DecidableEq, Repr

/-- Operands of vwait: b is the field of the operand register (R182). -/
structure VWaitOps where
  cond : BitVec 5
  a : Reg
  b : Reg
  wide : Bool
  m : Bool
  fa : Bool
  deriving DecidableEq, Repr

/-- A stored unit in which an error that cannot be corrected arises (R342). -/
inductive PoisonUnit where
  /-- a 64-byte line of storage, by its line number -/
  | line (n : Nat)
  /-- an 8-byte word of a vector register, and of a tile, of a strand -/
  | vreg (strand : Nat) (r : Reg) (word : Nat)
  | tile (strand : Nat) (h : Nat) (word : Nat)
  /-- a scalar register of a strand -/
  | xreg (strand : Nat) (r : Reg)
  /-- other state of a strand, and its queue itself: the machine check is asynchronous -/
  | strandState (strand : Nat)
  | queueState (strand : Nat)
  /-- a copy of a line in a cache of a die (R342) -/
  | copy (die : Nat)
  /-- a block of a Pontoon bank, numbered 4 × column + slot -/
  | bank (cluster bank block : Nat)
  /-- the row buffer of a running task, which holds a row of A (R352; log 100) -/
  | rowBuffer (cluster item row : Nat)
  /-- a line of a die's Wharf -/
  | wharf (die line : Nat)
  /-- a line of the core scratch, and of the batch window, of the iteration of a strand -/
  | scratch (strand line : Nat)
  | batch (strand line : Nat)
  /-- a line of the cluster-scratch range of a launch, and of a subtree buffer, of a cluster -/
  | cscratch (cluster launch line : Nat)
  | blob (cluster buffer line : Nat)
  deriving DecidableEq, Repr

/-- The host's answer to a device access to host memory (R362). -/
inductive HostAnswer where
  /-- the line holds these bytes -/
  | data (bytes : List Byte)
  /-- unsupported request or completer abort -/
  | error
  /-- a poisoned completion -/
  | poisoned
  deriving DecidableEq, Repr

/-- What a host access to device memory names: a submission area through BAR 2, or device memory and staging by
physical address (R324, R360). -/
inductive HostTarget where
  /-- byte `off` of the submission BAR of the function -/
  | submission (off : Nat)
  /-- a physical byte address -/
  | phys (addr : Nat)
  /-- byte `off` of the management window of the function: reads only -/
  | window (off : Nat)
  deriving DecidableEq, Repr

/-- One element of a train: its index, the virtual address in the peer and the value (R375), and whether the value was
poisoned at its source (R342). -/
structure TrainElem where
  index : Nat
  addr : Word
  value : Word
  bad : Bool := false
  deriving DecidableEq, Repr

/-- A train as it arrives at a destination package (R374, R375). -/
structure Train where
  /-- fabric domain of the issuing context -/
  domain : BitVec 16
  /-- 0 write, 1 integer add, 2 floating add -/
  op : Nat
  width : BitVec 2
  elems : List TrainElem
  /-- the engine command of this package that issued it, if any -/
  cmd : Option Nat
  deriving DecidableEq, Repr

/-- The operands of a step of the device, one field for each kind of operand. A strand's own steps act on the strand in
focus and read none of them; what a step reads of them its docstring names. -/
structure StepArgs where
  /-- the number of a command, cluster, die, port, function, context or list entry -/
  k : Nat := 0
  /-- a second number -/
  j : Nat := 0
  flag : Bool := false
  reg : Reg := 0
  word : Word := 0
  bytes : List Byte := []
  /-- the units among `bytes` that are poisoned (R342) -/
  bad : List Nat := []
  target : HostTarget := .phys 0
  unit : PoisonUnit := .line 0
  answer : HostAnswer := .error
  train : Train := ⟨0, 0, 0, [], none⟩
  deriving DecidableEq, Repr

/-- One instruction of the table, or one step of the device. The steps of the device take their operands from
`StepArgs`. -/
inductive Instr where
  /-- ADD (R89). -/
  | add (o : XOps)
  /-- SUB (R89). -/
  | sub (o : XOps)
  /-- AND (R89). -/
  | and (o : XOps)
  /-- OR (R89). -/
  | or (o : XOps)
  /-- XOR (R89). -/
  | xor (o : XOps)
  /-- SHL (R89). -/
  | shl (o : XOps)
  /-- SHR (R89). -/
  | shr (o : XOps)
  /-- SAR (R89). -/
  | sar (o : XOps)
  /-- MUL (R89). -/
  | mul (o : XOps)
  /-- MULH (R89). -/
  | mulh (o : XOps)
  /-- MULHN (R89). -/
  | mulhn (o : XOps)
  /-- DIV (R90). -/
  | div (o : XOps)
  /-- DIVN (R90). -/
  | divn (o : XOps)
  /-- REM (R90). -/
  | rem (o : XOps)
  /-- REMN (R90). -/
  | remn (o : XOps)
  /-- MIN (R89). -/
  | min (o : XOps)
  /-- MAX (R89). -/
  | max (o : XOps)
  /-- MINN (R89). -/
  | minn (o : XOps)
  /-- MAXN (R89). -/
  | maxn (o : XOps)
  /-- SLT (R89). -/
  | slt (o : XOps)
  /-- SLTN (R89). -/
  | sltn (o : XOps)
  /-- SEQ (R89). -/
  | seq (o : XOps)
  /-- SNE (R89). -/
  | sne (o : XOps)
  /-- CLZ (R91). -/
  | clz (o : XUn)
  /-- CTZ (R91). -/
  | ctz (o : XUn)
  /-- POPC (R91). -/
  | popc (o : XUn)
  /-- BREV (R91). -/
  | brev (o : XUn)
  /-- SEXT (R91). -/
  | sext (o : TUn)
  /-- ZEXT (R91). -/
  | zext (o : TUn)
  /-- ADDI (R92). -/
  | addi (o : ImmOps)
  /-- ANDI (R92). -/
  | andi (o : ImmOps)
  /-- ORI (R92). -/
  | ori (o : ImmOps)
  /-- XORI (R92). -/
  | xori (o : ImmOps)
  /-- SHLI (R92). -/
  | shli (o : ShOps)
  /-- SHRI (R92). -/
  | shri (o : ShOps)
  /-- SARI (R92). -/
  | sari (o : ShOps)
  /-- RORI (R92). -/
  | rori (o : ShOps)
  /-- SLTI (R92). -/
  | slti (o : ImmOps)
  /-- LIH (R93). -/
  | lih (o : ConstOps)
  /-- PCHI (R93). -/
  | pchi (o : ConstOps)
  /-- BEQ (R94). -/
  | beq (o : BrOps)
  /-- BNE (R94). -/
  | bne (o : BrOps)
  /-- BLT (R94). -/
  | blt (o : BrOps)
  /-- BGE (R94). -/
  | bge (o : BrOps)
  /-- BLTN (R94). -/
  | bltn (o : BrOps)
  /-- BGEN (R94). -/
  | bgen (o : BrOps)
  /-- BRF (R94). -/
  | brf (o : BrfOps)
  /-- BRE (R94). -/
  | bre (o : BrfOps)
  /-- JMP (R95). -/
  | jmp (o : ConstOps)
  /-- JMPR (R95). -/
  | jmpr (o : ImmOps)
  /-- LD_SIGNED (R96). -/
  | ldSigned (o : MemOps)
  /-- LD_UNSIGNED (R96). -/
  | ldUnsigned (o : MemOps)
  /-- ST (R96). -/
  | st (o : MemOps)
  /-- ATADD (R99). -/
  | atadd (o : AtOps)
  /-- ATFADD (R99). -/
  | atfadd (o : AtOps)
  /-- ATAND (R99). -/
  | atand (o : AtOps)
  /-- ATOR (R99). -/
  | ator (o : AtOps)
  /-- ATXOR (R99). -/
  | atxor (o : AtOps)
  /-- ATMIN (R99). -/
  | atmin (o : AtOps)
  /-- ATMAX (R99). -/
  | atmax (o : AtOps)
  /-- ATMINN (R99). -/
  | atminn (o : AtOps)
  /-- ATMAXN (R99). -/
  | atmaxn (o : AtOps)
  /-- ATSWAP (R99). -/
  | atswap (o : AtOps)
  /-- ATCAS (R99). -/
  | atcas (o : AtOps)
  /-- FADD (R101). -/
  | fadd (o : FOps)
  /-- FSUB (R101). -/
  | fsub (o : FOps)
  /-- FMUL (R101). -/
  | fmul (o : FOps)
  /-- FDIV (R101). -/
  | fdiv (o : FOps)
  /-- FMIN (R101). -/
  | fmin (o : FOps)
  /-- FMAX (R101). -/
  | fmax (o : FOps)
  /-- FEQ (R101). -/
  | feq (o : FOps)
  /-- FLT (R101). -/
  | flt (o : FOps)
  /-- FMAC (R102). -/
  | fmac (o : FOps)
  /-- FNMAC (R102). -/
  | fnmac (o : FOps)
  /-- FSQRT (R102). -/
  | fsqrt (o : TUn)
  /-- FLE (R102). -/
  | fle (o : FOps)
  /-- FCVT (R103). -/
  | fcvt (o : FCvtOps)
  /-- FCVTIF (R103). -/
  | fcvtif (o : FCvtiOps)
  /-- FCVTFI (R103). -/
  | fcvtfi (o : FCvtiOps)
  /-- FCLASS (R104). -/
  | fclass (o : TUn)
  /-- CRR (R21). -/
  | crr (o : CrrOps)
  /-- CRW (R21). -/
  | crw (o : CrOps)
  /-- CRS (R21). -/
  | crs (o : CrOps)
  /-- CRC (R21). -/
  | crc (o : CrOps)
  /-- SETVL (R106). -/
  | setvl (o : SetvlOps)
  /-- SETVLF (R108). -/
  | setvlf (o : FOps)
  /-- EVPOP (R109). -/
  | evpop (d : Reg)
  /-- EVN (R110). -/
  | evn (d : Reg)
  /-- DRAIN (R114). -/
  | drain (mask : Reg)
  /-- FENCE_ACQ (R115). -/
  | fenceAcq (scope : BitVec 3)
  /-- FENCE_REL (R115). -/
  | fenceRel (scope : BitVec 3)
  /-- FENCE_FULL (R115). -/
  | fenceFull (scope : BitVec 3)
  /-- FENCEX (R115). -/
  | fencex (o : FencexOps)
  /-- CTXSV (R128). -/
  | ctxsv (a : Reg)
  /-- CTXLD (R128). -/
  | ctxld (a : Reg)
  /-- CHKPT (R350). -/
  | chkpt (d : Reg)
  /-- TLBINV (R294). -/
  | tlbinv (o : DA)
  /-- RDST (R351). -/
  | rdst (o : DA)
  /-- VADD (R145). -/
  | vadd (o : VOps)
  /-- VSUB (R145). -/
  | vsub (o : VOps)
  /-- VAND (R145). -/
  | vand (o : VOps)
  /-- VOR (R145). -/
  | vor (o : VOps)
  /-- VXOR (R145). -/
  | vxor (o : VOps)
  /-- VSHL (R145). -/
  | vshl (o : VOps)
  /-- VSHR (R145). -/
  | vshr (o : VOps)
  /-- VSAR (R145). -/
  | vsar (o : VOps)
  /-- VMUL (R145). -/
  | vmul (o : VOps)
  /-- VMULH (R145). -/
  | vmulh (o : VOps)
  /-- VMULHN (R145). -/
  | vmulhn (o : VOps)
  /-- VMIN (R145). -/
  | vmin (o : VOps)
  /-- VMAX (R145). -/
  | vmax (o : VOps)
  /-- VMINN (R145). -/
  | vminn (o : VOps)
  /-- VMAXN (R145). -/
  | vmaxn (o : VOps)
  /-- VMAC (R145). -/
  | vmac (o : VOps)
  /-- VSEQ (R146). -/
  | vseq (o : VCmpOps)
  /-- VSNE (R146). -/
  | vsne (o : VCmpOps)
  /-- VSLT (R146). -/
  | vslt (o : VCmpOps)
  /-- VSLTN (R146). -/
  | vsltn (o : VCmpOps)
  /-- VSLE (R146). -/
  | vsle (o : VCmpOps)
  /-- VSLEN (R146). -/
  | vslen (o : VCmpOps)
  /-- VSEL (R147). -/
  | vsel (o : VSelOps)
  /-- VMV (R147). -/
  | vmv (o : VUn)
  /-- VFADD (R148). -/
  | vfadd (o : VOps)
  /-- VFSUB (R148). -/
  | vfsub (o : VOps)
  /-- VFMUL (R148). -/
  | vfmul (o : VOps)
  /-- VFDIV (R148). -/
  | vfdiv (o : VOps)
  /-- VFMIN (R148). -/
  | vfmin (o : VOps)
  /-- VFMAX (R148). -/
  | vfmax (o : VOps)
  /-- VFMAC (R148). -/
  | vfmac (o : VOps)
  /-- VFNMAC (R148). -/
  | vfnmac (o : VOps)
  /-- VFSQRT (R149). -/
  | vfsqrt (o : VUn)
  /-- VFABS (R149). -/
  | vfabs (o : VUn)
  /-- VFNEG (R149). -/
  | vfneg (o : VUn)
  /-- VFCLASS (R149). -/
  | vfclass (o : VUn)
  /-- VFRINT (R149). -/
  | vfrint (o : VUn)
  /-- VFEQ (R146). -/
  | vfeq (o : VCmpOps)
  /-- VFNE (R146). -/
  | vfne (o : VCmpOps)
  /-- VFLT (R146). -/
  | vflt (o : VCmpOps)
  /-- VFLE (R146). -/
  | vfle (o : VCmpOps)
  /-- VFUNORD (R146). -/
  | vfunord (o : VCmpOps)
  /-- VCVT (R150). -/
  | vcvt (o : VCvtOps)
  /-- VCVTIF (R150). -/
  | vcvtif (o : VCvtiOps)
  /-- VCVTFI (R150). -/
  | vcvtfi (o : VCvtiOps)
  /-- VNEF (R154). -/
  | vnef (o : VNefOps)
  /-- VQNT (R152). -/
  | vqnt (o : VQOps)
  /-- VWID (R153). -/
  | vwid (o : VQOps)
  /-- VRSUM (R156). -/
  | vrsum (o : VRedOps)
  /-- VRMAX (R156). -/
  | vrmax (o : VRedOps)
  /-- VRMIN (R156). -/
  | vrmin (o : VRedOps)
  /-- VRMAXN (R156). -/
  | vrmaxn (o : VRedOps)
  /-- VRMINN (R156). -/
  | vrminn (o : VRedOps)
  /-- VRFSUM (R156). -/
  | vrfsum (o : VRedOps)
  /-- VRFMAX (R156). -/
  | vrfmax (o : VRedOps)
  /-- VRFMIN (R156). -/
  | vrfmin (o : VRedOps)
  /-- VCOMPRESS (R157). -/
  | vcompress (o : TUn)
  /-- VEXPAND (R157). -/
  | vexpand (o : TUn)
  /-- VSLIDEUP (R157). -/
  | vslideup (o : VSlideOps)
  /-- VSLIDEDN (R157). -/
  | vslidedn (o : VSlideOps)
  /-- VPERM (R157). -/
  | vperm (o : VOps)
  /-- VMPOPC (R158). -/
  | vmpopc (d : Reg)
  /-- VMFIRST (R158). -/
  | vmfirst (d : Reg)
  /-- VMLD (R159). -/
  | vmld (o : AOps)
  /-- VMST (R159). -/
  | vmst (d : Reg)
  /-- VMAND (R159). -/
  | vmand (o : AOps)
  /-- VMOR (R159). -/
  | vmor (o : AOps)
  /-- VMXOR (R159). -/
  | vmxor (o : AOps)
  /-- VMSGB (R159). -/
  | vmsgb (o : VmsgbOps)
  /-- VLD (R169). -/
  | vld (o : VMemOps)
  /-- VLDS (R169). -/
  | vlds (o : VMemOps)
  /-- VLDB (R170). -/
  | vldb (o : VBlkOps)
  /-- VLDZ (R171). -/
  | vldz (o : VldzOps)
  /-- VLR (R169). -/
  | vlr (o : DA)
  /-- VST (R169). -/
  | vst (o : VMemOps)
  /-- VSTS (R169). -/
  | vsts (o : VMemOps)
  /-- VSTB (R170). -/
  | vstb (o : VBlkOps)
  /-- VSR (R169). -/
  | vsr (o : DA)
  /-- VLDX (R173). -/
  | vldx (o : VOps)
  /-- VSTX (R173). -/
  | vstx (o : VOps)
  /-- VATADD (R174). -/
  | vatadd (o : VAtOps)
  /-- VATFADD (R174). -/
  | vatfadd (o : VAtOps)
  /-- VATAND (R174). -/
  | vatand (o : VAtOps)
  /-- VATOR (R174). -/
  | vator (o : VAtOps)
  /-- VATXOR (R174). -/
  | vatxor (o : VAtOps)
  /-- VATMIN (R174). -/
  | vatmin (o : VAtOps)
  /-- VATMAX (R174). -/
  | vatmax (o : VAtOps)
  /-- VATSWAP (R174). -/
  | vatswap (o : VAtOps)
  /-- SBIND (R177). -/
  | sbind (o : XUn)
  /-- SUNBIND (R177). -/
  | sunbind (n : Reg)
  /-- SDRAIN (R177). -/
  | sdrain (n : Reg)
  /-- SSTAT (R177). -/
  | sstat (o : DA)
  /-- VXF (R181). -/
  | vxf (o : VUn)
  /-- CBLOAD (R180). -/
  | cbload (o : XUn)
  /-- MGP (R194). -/
  | mgp (o : VOps)
  /-- MWEDGE (R194). -/
  | mwedge (o : VOps)
  /-- MJOIN (R194). -/
  | mjoin (o : VOps)
  /-- MDOT (R194). -/
  | mdot (o : VOps)
  /-- MSAND (R195). -/
  | msand (o : VOps)
  /-- MSAND_CHK (R195). -/
  | msandChk (o : VOps)
  /-- MADD (R194). -/
  | madd (o : VOps)
  /-- MSUB (R194). -/
  | msub (o : VOps)
  /-- MREV (R196). -/
  | mrev (o : VUn)
  /-- MDUAL (R196). -/
  | mdual (o : VUn)
  /-- MNORM (R196). -/
  | mnorm (o : VUn)
  /-- MUNIT (R196). -/
  | munit (o : VUn)
  /-- MEXP (R197). -/
  | mexp (o : VUn)
  /-- MLOG (R197). -/
  | mlog (o : VUn)
  /-- MPROJ (R196). -/
  | mproj (o : MProjOps)
  /-- MSCALE (R196). -/
  | mscale (o : VOps)
  /-- MLD (R198). -/
  | mld (o : VMemOps)
  /-- MST (R198). -/
  | mst (o : VMemOps)
  /-- MSETG (R199). -/
  | msetg (o : MSetgOps)
  /-- MGETTAG (R199). -/
  | mgettag (o : DA)
  /-- MCVT (R199). -/
  | mcvt (o : VUn)
  /-- TON (R203). -/
  | ton (n : BitVec 2)
  /-- TZERO (R208). -/
  | tzero (d : Reg)
  /-- TOPA (R209). -/
  | topa (o : TopaOps)
  /-- TSPA (R216). -/
  | tspa (o : TspaOps)
  /-- TMVR (R212). -/
  | tmvr (o : TmvOps)
  /-- TMVC (R212). -/
  | tmvc (o : TmvOps)
  /-- TMVW (R212). -/
  | tmvw (o : TmvwOps)
  /-- VSPC (R214). -/
  | vspc (o : VspOps)
  /-- VSPX (R215). -/
  | vspx (o : VspOps)
  /-- VBOX (R277). -/
  | vbox (o : RayOps)
  /-- VTRI (R278). -/
  | vtri (o : RayOps)
  /-- PLOAD (R227). -/
  | pload (o : AOps)
  /-- PENQ (R243). -/
  | penq (o : AOps)
  /-- PCFG (R237). -/
  | pcfg (o : SelOps)
  /-- PSTAT (R244). -/
  | pstat (o : PstatOps)
  /-- XCOPY (R305). -/
  | xcopy (o : AOps)
  /-- XTRAIN (R374). -/
  | xtrain (o : AOps)
  /-- XCOLL (R378). -/
  | xcoll (o : AOps)
  /-- XPIX (R310). -/
  | xpix (o : AOps)
  /-- XWHARF (R307). -/
  | xwharf (o : AOps)
  /-- LAUNCH (R254). -/
  | launch (o : XUn)
  /-- CANCEL (R262). -/
  | cancel (o : SelOps)
  /-- EMIT (R269). -/
  | emit (o : XOps)
  /-- BAR (R279). -/
  | bar (o : BarOps)
  /-- WAIT (R116). -/
  | wait (o : WaitOps)
  /-- VWAIT (R182). -/
  | vwait (o : VWaitOps)
  /-- CRIT (R111). -/
  | crit
  /-- CRITX (R111). -/
  | critx
  /-- YIELD (R112). -/
  | yield
  /-- ENDIT (R113). -/
  | endit
  /-- SCALL (R117). -/
  | scall
  /-- DBRK (R117). -/
  | dbrk
  /-- ERET (R125). -/
  | eret
  /-- ROLLBACK (R350). -/
  | rollback
  /-- VMNOT (R159). -/
  | vmnot
  /-- VMSET (R159). -/
  | vmset
  /-- TOFF (R204). -/
  | toff
  /-- VECTOR_ISSUE. The vector side of core `k` starts the next ready head in the rotation (R161). -/
  | vectorIssue
  /-- VECTOR_ENTRY_RETIRE. The oldest completed entry of the strand in focus retires (R119). -/
  | vectorEntryRetire
  /-- TRAP_ENTRY. The strand in focus takes its pending asynchronous trap (R121 to R123). -/
  | trapEntry
  /-- SCALAR_POISON_REDECODE. A scalar instruction of the strand in focus that consumed poison is decoded again once
  (R344). -/
  | scalarPoisonRedecode
  /-- ITERATION_REHANDOUT. The `k`-th iteration ended by a machine check without side effects is handed out again
  (R352). -/
  | iterationRehandout
  /-- CRIT_OVERRUN. The 4,097th instruction decoded in a critical section of the strand in focus (R111). -/
  | critOverrun
  /-- PREEMPTION. The strand in focus is stopped, its vector head at element `k`, and saved with cause 0x12 (R131). -/
  | preemption
  /-- RESUME. The `k`-th saved iteration is restored into the strand in focus, which is free (R131). -/
  | resume
  /-- PARK. The root in focus, waiting without a time-out, is handed to the wait monitor (R133). -/
  | park
  /-- WAIT_MONITOR_WAKE. A write to a watched line places the `k`-th saved strand, a parked root, in the first free
  slot of its die (R133). -/
  | waitMonitorWake
  /-- WAIT_WAKE. A write to a watched line wakes the sleeping wait or vwait of the strand in focus (R116). -/
  | waitWake
  /-- WTO_EXPIRY. The time-out of a wait, or with `flag` of the vwait, of the strand in focus passes (R116). -/
  | wtoExpiry
  /-- BAR_WAKE. The phase of the barrier that the strand in focus sleeps on has changed (R279). -/
  | barWake
  /-- TON_GRANT. The waiting tile request of the strand in focus is granted (R202). -/
  | tonGrant
  /-- STORE_PERFORM. The oldest store-queue entry of the strand in focus is performed (R97). -/
  | storePerform
  /-- LOAD_DATA_RETURN. The oldest load in flight of the strand in focus fills its destination (R97). -/
  | loadDataReturn
  /-- ATOMIC_APPLY. The scatter-add unit applies the oldest atomic in flight of the strand in focus (R297). -/
  | atomicApply
  /-- STREAM_STRIP_FETCH. A stream unit of the strand in focus fetches a strip ahead for register `reg` (R178). -/
  | streamStripFetch
  /-- STREAM_STRIP_DRAIN. An output stream unit of the strand in focus writes a strip of register `reg` to memory
  (R178). -/
  | streamStripDrain
  /-- PONTOON_DISPATCH. The scheduler of cluster `k` dispatches its oldest ready item (R225). -/
  | pontoonDispatch
  /-- PONTOON_ITEM_COMPLETE. Item `j` of cluster `k`, a Pontoon load or task, completes (R240). -/
  | pontoonItemComplete
  /-- XCOPY_COMPLETE. Copy command `k` completes (R305). -/
  | xcopyComplete
  /-- XWHARF_WRITE_COMPLETE. Wharf write `k` finishes or fails (R308). -/
  | xwharfWriteComplete
  /-- XWHARF_SEAL_COMPLETE. Wharf seal `k` completes (R308). -/
  | xwharfSealComplete
  /-- XPIX_APPLY. Die `j` applies its share of pixel primitive `k` (R311). -/
  | xpixApply
  /-- XPIX_COMPLETE. Pixel primitive `k` completes (R311). -/
  | xpixComplete
  /-- TRAIN_DELIVER. This package performs the elements of `train`, which arrives, or its share of a train command; or
  package `j` acknowledges the command with status `k` and fault address `word` (R375). -/
  | trainDeliver
  /-- XTRAIN_COMPLETE. Train command `k` completes (R375). -/
  | xtrainComplete
  /-- XCOLL_COMPLETE. Collective command `k` completes at this rank; `bytes` holds the ranks' contributions as the
  fabric brings them, and `j` is 0, or 0x0E or 0x0F where the fabric reports a failure (R379, R380). -/
  | xcollComplete
  /-- DIE_WRITE_APPLY. A die applies the `k`-th write in flight to it (R323). -/
  | dieWriteApply
  /-- TIDE_WINDOW_START. The Wharf refresh window of die `k` begins (R299). -/
  | tideWindowStart
  /-- TIDE_WINDOW_END. The Wharf refresh window of die `k` ends (R299). -/
  | tideWindowEnd
  /-- LAUNCH_START. Launch number `k` begins or ends on a fault reading an after record (R255). -/
  | launchStart
  /-- WALKER_HANDOUT. The walker hands the next iteration of launch number `k`, or every iteration of a coresident
  one, to the first free strand that fits (R258). -/
  | walkerHandout
  /-- ITERATION_END. The endit of the strand in focus retires (R113). -/
  | iterationEnd
  /-- RECORD_COMPLETE. The counter of the record at `word` of context `k` has reached zero (R250). -/
  | recordComplete
  /-- CANCEL_FINALIZE. No iteration runs under the cancelled record at `word` of context `k` (R263). -/
  | cancelFinalize
  /-- FERRY_HANDOUT. The ferry scheduler hands a batch of graph number `k` to a strand, or begins a crossing (R271). -/
  | ferryHandout
  /-- BLOB_STREAM_COMPLETE. The blob of the landing on the strand in focus has streamed, or faults (R272). -/
  | blobStreamComplete
  /-- LANDING_PREEMPT_TIMEOUT. The grace of a landing batch passes without endit; the vector head stops at element `k`
  (R275). -/
  | landingPreemptTimeout
  /-- RECHECK_RUN. The recheck copy of the head of the strand in focus runs and is compared (R345). -/
  | recheckRun
  /-- RECHECK_TIMEOUT. A recheck copy found no idle slot and takes its turn (R345). -/
  | recheckTimeout
  /-- CONTEXT_START. A host write of state 2 to context `k` through function `j` (R355). -/
  | contextStart
  /-- CONTEXT_STOP. A host write of state 1 to the running context `k` through function `j` (R355). -/
  | contextStop
  /-- CONTEXT_FREE. A host write of state 0 to context `k` through function `j` (R355). -/
  | contextFree
  /-- ROOT_PLACE. The walker places the root iteration of context `k` on the first free strand that fits (R356). -/
  | rootPlace
  /-- DONE_INTERRUPT. The interrupt after a device write to done of context `k` (R358). -/
  | doneInterrupt
  /-- HOST_WRITE. The IO die accepts a write of `bytes` to `target` by the host for function `k` (R324). -/
  | hostWrite
  /-- HOST_READ. The IO die performs a read of `j` bytes at `target` by the host for function `k` (R324). -/
  | hostRead
  /-- HOST_REQUEST_COMPLETION. A completion for a device access to the host memory line at `k` arrives with `answer`
  (R362). -/
  | hostRequestCompletion
  /-- FUNCTION_LEVEL_RESET. A function-level reset of function `k` begins (R365). -/
  | functionLevelReset
  /-- PACKAGE_BOOT. Power-on or a package reset runs the boot; `flag` says that the firmware verified (R367). -/
  | packageBoot
  /-- THERMAL_TRIP. Junction temperature reaches 110 degrees (R371). -/
  | thermalTrip
  /-- POWER_THROTTLE. The arithmetic clock of die `k` is lowered by one step (R371). -/
  | powerThrottle
  /-- LINK_FLIT_RETRY. A flit of port `k` that fails its CRC is retransmitted (R373). -/
  | linkFlitRetry
  /-- PORT_DOWN. Port `k`, which cannot retrain, clears its up bit (R373). -/
  | portDown
  /-- ATTESTATION_REQUEST. A write of 1 to the mailbox by function `k` (R370). -/
  | attestationRequest
  /-- PKSTAT_WRITE. A write of `word` to pkstat (R364). -/
  | pkstatWrite
  /-- WHARF_ALLOC_WRITE. A write of `word` to the owner of Wharf region `k` (R363). -/
  | wharfAllocWrite
  /-- SSEL_WRITE. A host write of `word` to ssel of function `k` (R360). -/
  | sselWrite
  /-- SDATA_READ. A host read of sdata of function `k` (R360). -/
  | sdataRead
  /-- MGMT_REGISTER_WRITE. A write of `bytes` at offset `j` of the management window of function `k` (R363). -/
  | mgmtRegisterWrite
  /-- ILLEGAL_INSTRUCTION. The strand in focus decodes a word that is no instruction (R34). -/
  | illegalInstruction
  /-- INSTRUCTION_FETCH_FAULT. The fetch of the strand in focus faults (R28). -/
  | instructionFetchFault
  /-- UNCORRECTABLE_ERROR. An error that cannot be corrected arises in `unit` (R342). -/
  | uncorrectableError
  /-- ENGINE_COMMAND_START. An engine takes up the queued command `k` (R300). -/
  | engineCommandStart
  /-- CONTEXT_STOP_COMPLETE. Context `k`, stopping, finishes the steps of R365 (R355). -/
  | contextStopComplete
  /-- FLR_COMPLETE. A function-level reset of function `k` reaches step 7 (R365). -/
  | flrComplete
  /-- ATTESTATION_COMPLETE. Nolay finishes the report (R370). -/
  | attestationComplete
  /-- POWER_THROTTLE_RELEASE. Draw falls back under the power limit on die `k` (R364). -/
  | powerThrottleRelease
  /-- PORT_RETRAINING. Port `k` loses its link and begins retraining (R373). -/
  | portRetraining
  /-- PORT_UP. Port `k` completes training with `j` lanes, 0 standing for all 8 (R373). -/
  | portUp
  deriving DecidableEq, Repr

end Sys2Proof
end

