-- ==== Sys2Proof/WellFormed.lean ====
section
/-! DEFINITION. Which terms of `Instr` are instructions: the values that R29, R31 and R32 leave illegal are refused
here, one check per rule. A word whose fields break one of these takes trap 0x01 (R34). -/

namespace Sys2Proof

/-- The replicate values of `rep` that are assigned: 000 and 100 to 111 (R29). -/
def legalRep (r : BitVec 3) : Bool := r == 0 || r.getLsbD 2

/-- The scopes of `fence`: 110 and 111 are illegal (R32). -/
def legalScope (s : BitVec 3) : Bool := decide (s.toNat < 6)

/-- The indices that the control-register maps assign (R22, R126). -/
def crAssigned (i : Nat) : Bool :=
  i == 0x000 || (decide (0x002 ≤ i) && decide (i ≤ 0x008)) || (decide (0x010 ≤ i) && decide (i ≤ 0x01C)) ||
  (decide (0x020 ≤ i) && decide (i ≤ 0x022)) || (decide (0x040 ≤ i) && decide (i ≤ 0x09F)) ||
  (decide (0x100 ≤ i) && decide (i ≤ 0x105)) || (decide (0x200 ≤ i) && decide (i ≤ 0x20B))

/-- The supervisor indices (R20). -/
def crPrivileged (i : Nat) : Bool := decide (0x200 ≤ i) && decide (i ≤ 0x2FF)

/-- Whether a row of the table is an instruction word, rather than a step of the device. -/
def Instr.isWord (i : Instr) : Bool :=
  match i with
  | .vectorIssue => false
  | .vectorEntryRetire => false
  | .trapEntry => false
  | .scalarPoisonRedecode => false
  | .iterationRehandout => false
  | .critOverrun => false
  | .preemption => false
  | .resume => false
  | .park => false
  | .waitMonitorWake => false
  | .waitWake => false
  | .wtoExpiry => false
  | .barWake => false
  | .tonGrant => false
  | .storePerform => false
  | .loadDataReturn => false
  | .atomicApply => false
  | .streamStripFetch => false
  | .streamStripDrain => false
  | .pontoonDispatch => false
  | .pontoonItemComplete => false
  | .xcopyComplete => false
  | .xwharfWriteComplete => false
  | .xwharfSealComplete => false
  | .xpixApply => false
  | .xpixComplete => false
  | .trainDeliver => false
  | .xtrainComplete => false
  | .xcollComplete => false
  | .dieWriteApply => false
  | .tideWindowStart => false
  | .tideWindowEnd => false
  | .launchStart => false
  | .walkerHandout => false
  | .iterationEnd => false
  | .recordComplete => false
  | .cancelFinalize => false
  | .ferryHandout => false
  | .blobStreamComplete => false
  | .landingPreemptTimeout => false
  | .recheckRun => false
  | .recheckTimeout => false
  | .contextStart => false
  | .contextStop => false
  | .contextFree => false
  | .rootPlace => false
  | .doneInterrupt => false
  | .hostWrite => false
  | .hostRead => false
  | .hostRequestCompletion => false
  | .functionLevelReset => false
  | .packageBoot => false
  | .thermalTrip => false
  | .powerThrottle => false
  | .linkFlitRetry => false
  | .portDown => false
  | .attestationRequest => false
  | .pkstatWrite => false
  | .wharfAllocWrite => false
  | .sselWrite => false
  | .sdataRead => false
  | .mgmtRegisterWrite => false
  | .illegalInstruction => false
  | .instructionFetchFault => false
  | .uncorrectableError => false
  | .engineCommandStart => false
  | .contextStopComplete => false
  | .flrComplete => false
  | .attestationComplete => false
  | .powerThrottleRelease => false
  | .portRetraining => false
  | .portUp => false
  | _ => true

/-- The well-formed instructions: every value that R29, R31 and R32 leave unassigned is refused. -/
def Instr.wf (i : Instr) : Bool :=
  match i with
  | .add _ => true
  | .sub _ => true
  | .and _ => true
  | .or _ => true
  | .xor _ => true
  | .shl _ => true
  | .shr _ => true
  | .sar _ => true
  | .mul _ => true
  | .mulh _ => true
  | .mulhn _ => true
  | .div _ => true
  | .divn _ => true
  | .rem _ => true
  | .remn _ => true
  | .min _ => true
  | .max _ => true
  | .minn _ => true
  | .maxn _ => true
  | .slt _ => true
  | .sltn _ => true
  | .seq _ => true
  | .sne _ => true
  | .clz _ => true
  | .ctz _ => true
  | .popc _ => true
  | .brev _ => true
  | .sext o => o.ty != 3
  | .zext o => o.ty != 3
  | .addi _ => true
  | .andi _ => true
  | .ori _ => true
  | .xori _ => true
  | .shli _ => true
  | .shri _ => true
  | .sari _ => true
  | .rori _ => true
  | .slti _ => true
  | .lih _ => true
  | .pchi _ => true
  | .beq _ => true
  | .bne _ => true
  | .blt _ => true
  | .bge _ => true
  | .bltn _ => true
  | .bgen _ => true
  | .brf _ => true
  | .bre _ => true
  | .jmp _ => true
  | .jmpr _ => true
  | .ldSigned _ => true
  | .ldUnsigned _ => true
  | .st _ => true
  | .atadd _ => true
  | .atfadd _ => true
  | .atand _ => true
  | .ator _ => true
  | .atxor _ => true
  | .atmin _ => true
  | .atmax _ => true
  | .atminn _ => true
  | .atmaxn _ => true
  | .atswap _ => true
  | .atcas _ => true
  | .fadd _ => true
  | .fsub _ => true
  | .fmul _ => true
  | .fdiv _ => true
  | .fmin _ => true
  | .fmax _ => true
  | .feq _ => true
  | .flt _ => true
  | .fmac _ => true
  | .fnmac _ => true
  | .fsqrt _ => true
  | .fle _ => true
  | .fcvt o => o.other != o.ty
  | .fcvtif _ => true
  | .fcvtfi _ => true
  | .fclass _ => true
  | .crr o => crAssigned o.idx.toNat
  | .crw o => crAssigned o.idx.toNat
  | .crs o => crAssigned o.idx.toNat
  | .crc o => crAssigned o.idx.toNat
  | .setvl o => if o.mv then o.gm != 0 && o.ty != 3 else o.gm == 0
  | .setvlf _ => true
  | .evpop _ => true
  | .evn _ => true
  | .crit => true
  | .critx => true
  | .yield => true
  | .endit => true
  | .drain mask => mask != 0
  | .fenceAcq scope => legalScope scope
  | .fenceRel scope => legalScope scope
  | .fenceFull scope => legalScope scope
  | .fencex o => legalScope o.scope
  | .scall => true
  | .dbrk => true
  | .eret => true
  | .ctxsv _ => true
  | .ctxld _ => true
  | .chkpt _ => true
  | .rollback => true
  | .tlbinv _ => true
  | .rdst _ => true
  | .vadd o => legalRep o.rep
  | .vsub o => legalRep o.rep
  | .vand o => legalRep o.rep
  | .vor o => legalRep o.rep
  | .vxor o => legalRep o.rep
  | .vshl o => legalRep o.rep
  | .vshr o => legalRep o.rep
  | .vsar o => legalRep o.rep
  | .vmul o => legalRep o.rep
  | .vmulh o => legalRep o.rep
  | .vmulhn o => legalRep o.rep
  | .vmin o => legalRep o.rep
  | .vmax o => legalRep o.rep
  | .vminn o => legalRep o.rep
  | .vmaxn o => legalRep o.rep
  | .vmac o => legalRep o.rep
  | .vseq o => legalRep o.rep
  | .vsne o => legalRep o.rep
  | .vslt o => legalRep o.rep
  | .vsltn o => legalRep o.rep
  | .vsle o => legalRep o.rep
  | .vslen o => legalRep o.rep
  | .vsel o => legalRep o.rep
  | .vmv _ => true
  | .vfadd o => legalRep o.rep
  | .vfsub o => legalRep o.rep
  | .vfmul o => legalRep o.rep
  | .vfdiv o => legalRep o.rep
  | .vfmin o => legalRep o.rep
  | .vfmax o => legalRep o.rep
  | .vfmac o => legalRep o.rep
  | .vfnmac o => legalRep o.rep
  | .vfsqrt _ => true
  | .vfabs _ => true
  | .vfneg _ => true
  | .vfclass _ => true
  | .vfrint _ => true
  | .vfeq o => legalRep o.rep
  | .vfne o => legalRep o.rep
  | .vflt o => legalRep o.rep
  | .vfle o => legalRep o.rep
  | .vfunord o => legalRep o.rep
  | .vcvt o => o.other != o.ty
  | .vcvtif _ => true
  | .vcvtfi _ => true
  | .vnef o => o.rep == 0 || !o.m
  | .vqnt o => o.rep != 0
  | .vwid o => o.rep != 0
  | .vrsum o => !(o.scan && o.xdst)
  | .vrmax o => !(o.scan && o.xdst)
  | .vrmin o => !(o.scan && o.xdst)
  | .vrmaxn o => !(o.scan && o.xdst)
  | .vrminn o => !(o.scan && o.xdst)
  | .vrfsum o => !(o.scan && o.xdst)
  | .vrfmax o => !(o.scan && o.xdst)
  | .vrfmin o => !(o.scan && o.xdst)
  | .vcompress _ => true
  | .vexpand _ => true
  | .vslideup _ => true
  | .vslidedn _ => true
  | .vperm o => legalRep o.rep
  | .vmpopc _ => true
  | .vmfirst _ => true
  | .vmld _ => true
  | .vmst _ => true
  | .vmand _ => true
  | .vmor _ => true
  | .vmxor _ => true
  | .vmnot => true
  | .vmset => true
  | .vmsgb _ => true
  | .vld _ => true
  | .vlds _ => true
  | .vldb _ => true
  | .vldz _ => true
  | .vlr _ => true
  | .vst _ => true
  | .vsts _ => true
  | .vstb _ => true
  | .vsr _ => true
  | .vldx o => legalRep o.rep
  | .vstx o => legalRep o.rep
  | .vatadd _ => true
  | .vatfadd _ => true
  | .vatand _ => true
  | .vator _ => true
  | .vatxor _ => true
  | .vatmin _ => true
  | .vatmax _ => true
  | .vatswap _ => true
  | .sbind _ => true
  | .sunbind _ => true
  | .sdrain _ => true
  | .sstat _ => true
  | .vxf _ => true
  | .cbload o => decide (o.d.toNat < 4)
  | .mgp o => legalRep o.rep && o.ty != 3
  | .mwedge o => legalRep o.rep && o.ty != 3
  | .mjoin o => legalRep o.rep && o.ty != 3
  | .mdot o => legalRep o.rep && o.ty != 3
  | .msand o => legalRep o.rep && o.ty != 3
  | .msandChk o => legalRep o.rep && o.ty != 3
  | .madd o => legalRep o.rep && o.ty != 3
  | .msub o => legalRep o.rep && o.ty != 3
  | .mrev o => o.ty != 3
  | .mdual o => o.ty != 3
  | .mnorm o => o.ty != 3
  | .munit o => o.ty != 3
  | .mexp o => o.ty != 3
  | .mlog o => o.ty != 3
  | .mproj o => o.gm != 0 && o.ty != 3
  | .mscale o => legalRep o.rep && o.ty != 3
  | .mld o => o.ty != 3
  | .mst o => o.ty != 3
  | .msetg o => o.ty != 3 && (o.gm != 0 || o.ty == 0)
  | .mgettag _ => true
  | .mcvt o => o.ty != 3
  | .ton _ => true
  | .toff => true
  | .tzero _ => true
  | .topa o => o.ty != 3
  | .tspa o => o.ty != 3
  | .tmvr o => o.ty != 3
  | .tmvc o => o.ty != 3
  | .tmvw o => o.ty != 3
  | .vspc _ => true
  | .vspx _ => true
  | .vbox _ => true
  | .vtri _ => true
  | .pload _ => true
  | .penq _ => true
  | .pcfg _ => true
  | .pstat o => decide (o.q.toNat < 10)
  | .xcopy _ => true
  | .xtrain _ => true
  | .xcoll _ => true
  | .xpix _ => true
  | .xwharf _ => true
  | .launch _ => true
  | .cancel _ => true
  | .emit _ => true
  | .bar _ => true
  | .wait o => decide (o.cond.toNat < 6)
  | .vwait o => decide (o.cond.toNat < 6)
  | .vectorIssue => true
  | .vectorEntryRetire => true
  | .trapEntry => true
  | .scalarPoisonRedecode => true
  | .iterationRehandout => true
  | .critOverrun => true
  | .preemption => true
  | .resume => true
  | .park => true
  | .waitMonitorWake => true
  | .waitWake => true
  | .wtoExpiry => true
  | .barWake => true
  | .tonGrant => true
  | .storePerform => true
  | .loadDataReturn => true
  | .atomicApply => true
  | .streamStripFetch => true
  | .streamStripDrain => true
  | .pontoonDispatch => true
  | .pontoonItemComplete => true
  | .xcopyComplete => true
  | .xwharfWriteComplete => true
  | .xwharfSealComplete => true
  | .xpixApply => true
  | .xpixComplete => true
  | .trainDeliver => true
  | .xtrainComplete => true
  | .xcollComplete => true
  | .dieWriteApply => true
  | .tideWindowStart => true
  | .tideWindowEnd => true
  | .launchStart => true
  | .walkerHandout => true
  | .iterationEnd => true
  | .recordComplete => true
  | .cancelFinalize => true
  | .ferryHandout => true
  | .blobStreamComplete => true
  | .landingPreemptTimeout => true
  | .recheckRun => true
  | .recheckTimeout => true
  | .contextStart => true
  | .contextStop => true
  | .contextFree => true
  | .rootPlace => true
  | .doneInterrupt => true
  | .hostWrite => true
  | .hostRead => true
  | .hostRequestCompletion => true
  | .functionLevelReset => true
  | .packageBoot => true
  | .thermalTrip => true
  | .powerThrottle => true
  | .linkFlitRetry => true
  | .portDown => true
  | .attestationRequest => true
  | .pkstatWrite => true
  | .wharfAllocWrite => true
  | .sselWrite => true
  | .sdataRead => true
  | .mgmtRegisterWrite => true
  | .illegalInstruction => true
  | .instructionFetchFault => true
  | .uncorrectableError => true
  | .engineCommandStart => true
  | .contextStopComplete => true
  | .flrComplete => true
  | .attestationComplete => true
  | .powerThrottleRelease => true
  | .portRetraining => true
  | .portUp => true

end Sys2Proof
end

