-- ==== Sys2Proof/Decode.lean ====
section
/-! DEFINITION. From instruction words to `Instr` and back (R28 to R34). The decoder splits a word by its format,
sends it to the decoder of its major opcode, checks there every field that must be zero, and refuses what
`Instr.wf` refuses. The encoder stands after it, written from the same tables. -/

namespace Sys2Proof

/-- Why a byte string is not an instruction. -/
inductive DecodeError where
  /-- fewer than four bytes -/
  | truncated
  /-- a major opcode, function value or zero field that R31 and R32 do not allow -/
  | unassigned (w : IWord)
  /-- a field value that R29, R31 or R32 leaves illegal -/
  | illegalValue (w : IWord)
  deriving DecidableEq, Repr

/-! ## The five formats (R28) -/

/-- Format V. -/
structure VWord where
  op : BitVec 6
  d : Reg
  a : Reg
  b : Reg
  fn : BitVec 3
  ty : BitVec 2
  m : Bool
  rep : BitVec 3
  fa : Bool
  fb : Bool
  deriving DecidableEq, Repr

/-- The major opcode of a word. -/
def opOf (w : IWord) : BitVec 6 := w.extractLsb' 26 6

/-- The fields of a word of format V (R28). -/
def splitV (w : IWord) : VWord :=
  ⟨w.extractLsb' 26 6, w.extractLsb' 21 5, w.extractLsb' 16 5, w.extractLsb' 11 5, w.extractLsb' 8 3,
    w.extractLsb' 6 2, w.getLsbD 5, w.extractLsb' 2 3, w.getLsbD 1, w.getLsbD 0⟩

/-- A two-bit field from its bits, high first. -/
def pair (x y : Bool) : BitVec 2 := BitVec.ofBool x ++ BitVec.ofBool y

/-- A three-bit field from its bits, high first. -/
def trio (x y z : Bool) : BitVec 3 := BitVec.ofBool x ++ BitVec.ofBool y ++ BitVec.ofBool z

/-- A register field that carries a sub-code: two bits, one bit, two bits (R31: b[15:14], b[13], b[12:11]). -/
def second (kind : BitVec 2) (uns : Bool) (ty : BitVec 2) : Reg := kind ++ BitVec.ofBool uns ++ ty

/-- Bits [4:3] of a sub-coded register field. -/
def subKind (b : Reg) : BitVec 2 := b.extractLsb' 3 2

/-- Bit [2] of a sub-coded register field. -/
def subUns (b : Reg) : Bool := b.getLsbD 2

/-- Bits [1:0] of a sub-coded register field. -/
def subType (b : Reg) : BitVec 2 := b.extractLsb' 0 2

/-! ## Shapes of format V: the fields that must be zero, and the operands -/

/-- `m` and `rep` are zero, as in the scalar V families (R29). -/
def VWord.plain (v : VWord) : Bool := !v.m && v.rep == 0

/-- No operands: every field but op and fn is zero. -/
def VWord.none? (v : VWord) (i : Instr) : Option Instr :=
  if v.plain && v.ty == 0 && v.d == 0 && v.a == 0 && v.b == 0 && !v.fa && !v.fb then some i else none

/-- Only d is an operand. -/
def VWord.onlyD? (v : VWord) (k : Reg → Instr) : Option Instr :=
  if v.plain && v.ty == 0 && v.a == 0 && v.b == 0 && !v.fa && !v.fb then some (k v.d) else none

/-- Only b is an operand. -/
def VWord.onlyB? (v : VWord) (k : Reg → Instr) : Option Instr :=
  if v.plain && v.ty == 0 && v.d == 0 && v.a == 0 && !v.fa && !v.fb then some (k v.b) else none

/-- d and a are operands, with no policy bit. -/
def VWord.da? (v : VWord) (k : DA → Instr) : Option Instr :=
  if v.plain && v.ty == 0 && v.b == 0 && !v.fa && !v.fb then some (k ⟨v.d, v.a⟩) else none

/-- The shape of `XOps`. -/
def VWord.xOps? (v : VWord) (ty : BitVec 2) (k : XOps → Instr) : Option Instr :=
  if v.plain && v.ty == ty then some (k ⟨v.d, v.a, v.b, v.fa, v.fb⟩) else none

/-- The shape of `XUn`. -/
def VWord.xUn? (v : VWord) (ty : BitVec 2) (k : XUn → Instr) : Option Instr :=
  if v.plain && v.ty == ty && v.b == 0 && !v.fb then some (k ⟨v.d, v.a, v.fa⟩) else none

/-- The shape of `TUn`. -/
def VWord.tUn? (v : VWord) (k : TUn → Instr) : Option Instr :=
  if v.plain && v.b == 0 && !v.fb then some (k ⟨v.d, v.a, v.ty, v.fa⟩) else none

/-- The shape of `AtOps`. -/
def VWord.atOps? (v : VWord) (alt : Bool) (k : AtOps → Instr) : Option Instr :=
  if !v.m && v.ty.getLsbD 1 && v.rep.getLsbD 0 == alt then some (k ⟨v.d, v.a, v.b, v.ty.getLsbD 0, v.rep.getLsbD 2, v.rep.getLsbD 1, v.fa, v.fb⟩) else none

/-- The shape of `FOps`. -/
def VWord.fOps? (v : VWord) (k : FOps → Instr) : Option Instr :=
  if v.plain then some (k ⟨v.d, v.a, v.b, v.ty, v.fa, v.fb⟩) else none

/-- The shape of `FCvtOps`. -/
def VWord.fCvtOps? (v : VWord) (k : FCvtOps → Instr) : Option Instr :=
  if v.plain && subKind v.b == 0 && !subUns v.b && !v.fb then some (k ⟨v.d, v.a, subType v.b, v.ty, v.fa⟩) else none

/-- The shape of `FCvtiOps`. -/
def VWord.fCvtiOps? (v : VWord) (k : FCvtiOps → Instr) : Option Instr :=
  if v.plain && subKind v.b == 0 && !v.fb then some (k ⟨v.d, v.a, subUns v.b, subType v.b, v.ty, v.fa⟩) else none

/-- The shape of `VOps`. -/
def VWord.vOps? (v : VWord) (k : VOps → Instr) : Option Instr :=
  some (k ⟨v.d, v.a, v.b, v.ty, v.m, v.rep, v.fa, v.fb⟩)

/-- The shape of `VCmpOps`. -/
def VWord.vCmpOps? (v : VWord) (k : VCmpOps → Instr) : Option Instr :=
  if v.d == 0 then some (k ⟨v.a, v.b, v.ty, v.m, v.rep, v.fa, v.fb⟩) else none

/-- The shape of `VSelOps`. -/
def VWord.vSelOps? (v : VWord) (k : VSelOps → Instr) : Option Instr :=
  if !v.m then some (k ⟨v.d, v.a, v.b, v.ty, v.rep, v.fa, v.fb⟩) else none

/-- The shape of `VUn`. -/
def VWord.vUn? (v : VWord) (k : VUn → Instr) : Option Instr :=
  if v.b == 0 && v.rep == 0 && !v.fb then some (k ⟨v.d, v.a, v.ty, v.m, v.fa⟩) else none

/-- The shape of `VCvtOps`. -/
def VWord.vCvtOps? (v : VWord) (k : VCvtOps → Instr) : Option Instr :=
  if subKind v.b == 0 && !subUns v.b && v.rep == 0 && !v.fb then some (k ⟨v.d, v.a, subType v.b, v.ty, v.m, v.fa⟩) else none

/-- The shape of `VCvtiOps`. -/
def VWord.vCvtiOps? (v : VWord) (dir : BitVec 2) (k : VCvtiOps → Instr) : Option Instr :=
  if subKind v.b == dir && v.rep == 0 && !v.fb then some (k ⟨v.d, v.a, subUns v.b, subType v.b, v.ty, v.m, v.fa⟩) else none

/-- The shape of `VNefOps`. -/
def VWord.vNefOps? (v : VWord) (k : VNefOps → Instr) : Option Instr :=
  if v.ty == 2 && !v.fb then some (k ⟨v.d, v.a, v.b, v.m, v.rep, v.fa⟩) else none

/-- The shape of `VQOps`. -/
def VWord.vQOps? (v : VWord) (k : VQOps → Instr) : Option Instr :=
  if v.b == 0 && !v.m && !v.fb then some (k ⟨v.d, v.a, v.ty, v.rep, v.fa⟩) else none

/-- The shape of `VRedOps`. -/
def VWord.vRedOps? (v : VWord) (k : VRedOps → Instr) : Option Instr :=
  if subKind v.b == 0 && !subUns v.b && v.rep == 0 && !v.fb then some (k ⟨v.d, v.a, v.b.getLsbD 1, v.b.getLsbD 0, v.ty, v.m, v.fa⟩) else none

/-- The shape of `VSlideOps`. -/
def VWord.vSlideOps? (v : VWord) (k : VSlideOps → Instr) : Option Instr :=
  if v.rep == 0 then some (k ⟨v.d, v.a, v.b, v.ty, v.m, v.fa, v.fb⟩) else none

/-- The shape of `AOps`. -/
def VWord.aOps? (v : VWord) (k : AOps → Instr) : Option Instr :=
  if v.plain && v.ty == 0 && v.d == 0 && v.b == 0 && !v.fb then some (k ⟨v.a, v.fa⟩) else none

/-- The shape of `VmsgbOps`. -/
def VWord.vmsgbOps? (v : VWord) (k : VmsgbOps → Instr) : Option Instr :=
  if v.plain && v.ty == 0 && v.d == 0 && subKind v.b == 0 && !v.fb then some (k ⟨v.a, subUns v.b, subType v.b, v.fa⟩) else none

/-- The shape of `VAtOps`. -/
def VWord.vAtOps? (v : VWord) (k : VAtOps → Instr) : Option Instr :=
  if v.ty.getLsbD 1 then some (k ⟨v.d, v.a, v.b, v.ty.getLsbD 0, v.m, v.rep.getLsbD 2, v.rep.getLsbD 1, v.rep.getLsbD 0, v.fa, v.fb⟩) else none

/-- The shape of `MProjOps`. -/
def VWord.mProjOps? (v : VWord) (k : MProjOps → Instr) : Option Instr :=
  if v.rep == 0 && !v.fb then some (k ⟨v.d, v.a, v.b, v.ty, v.m, v.fa⟩) else none

/-- The shape of `MSetgOps`. -/
def VWord.mSetgOps? (v : VWord) (k : MSetgOps → Instr) : Option Instr :=
  if v.plain && v.a == 0 && !v.fa && !v.fb then some (k ⟨v.d, v.b, v.ty⟩) else none

/-- The shape of `TopaOps`. -/
def VWord.topaOps? (v : VWord) (k : TopaOps → Instr) : Option Instr :=
  if !v.m && !v.rep.getLsbD 2 then some (k ⟨v.d, v.a, v.b, v.ty, v.rep.extractLsb' 0 2, v.fa, v.fb⟩) else none

/-- The shape of `TspaOps`. -/
def VWord.tspaOps? (v : VWord) (k : TspaOps → Instr) : Option Instr :=
  if !v.m && subKind v.d == 0 then some (k ⟨subUns v.d, subType v.d, v.a, v.b, v.ty, v.rep, v.fa, v.fb⟩) else none

/-- The shape of `TmvOps`. -/
def VWord.tmvOps? (v : VWord) (k : TmvOps → Instr) : Option Instr :=
  if v.rep == 0 && !v.fa then some (k ⟨v.d, v.a, v.b, v.ty, v.m, v.fb⟩) else none

/-- The shape of `TmvwOps`. -/
def VWord.tmvwOps? (v : VWord) (k : TmvwOps → Instr) : Option Instr :=
  if v.rep == 0 then some (k ⟨v.d, v.a, v.b, v.ty, v.m, v.fa, v.fb⟩) else none

/-- The shape of `VspOps`. -/
def VWord.vspOps? (v : VWord) (k : VspOps → Instr) : Option Instr :=
  if v.plain && subKind v.b == 0 && !subUns v.b && !v.b.getLsbD 1 && !v.fb then some (k ⟨v.d, v.a, v.b.getLsbD 0, v.ty, v.fa⟩) else none

/-- The shape of `RayOps`. -/
def VWord.rayOps? (v : VWord) (k : RayOps → Instr) : Option Instr :=
  if v.ty == 2 && v.rep == 0 then some (k ⟨v.d, v.a, v.b, v.m, v.fa, v.fb⟩) else none

/-- The shape of `SelOps`. -/
def VWord.selOps? (v : VWord) (k : SelOps → Instr) : Option Instr :=
  if v.plain && v.ty == 0 && subKind v.b == 0 && !subUns v.b && !v.fb then some (k ⟨v.d, v.a, subType v.b, v.fa⟩) else none

/-- The shape of `PstatOps`. -/
def VWord.pstatOps? (v : VWord) (k : PstatOps → Instr) : Option Instr :=
  if v.plain && v.ty == 0 && v.a == 0 && !v.fa && !v.fb then some (k ⟨v.d, v.b⟩) else none

/-- The shape of `BarOps`. -/
def VWord.barOps? (v : VWord) (k : BarOps → Instr) : Option Instr :=
  if v.plain && v.ty == 0 && v.d == 0 then some (k ⟨v.a, v.b, v.fa, v.fb⟩) else none

/-- The shape of `WaitOps`. -/
def VWord.waitOps? (v : VWord) (k : WaitOps → Instr) : Option Instr :=
  if v.plain && v.ty.getLsbD 1 then some (k ⟨v.d, v.a, v.b, v.ty.getLsbD 0, v.fa, v.fb⟩) else none

/-- The shape of `VWaitOps`. -/
def VWord.vWaitOps? (v : VWord) (k : VWaitOps → Instr) : Option Instr :=
  if v.rep == 0 && v.ty.getLsbD 1 && !v.fb then some (k ⟨v.d, v.a, v.b, v.ty.getLsbD 0, v.m, v.fa⟩) else none

/-! ## The V families (R31) -/

/-- Family int.a (op 0x01). -/
def decodeIntA (v : VWord) : Option Instr :=
  match v.fn.toNat with
  | 0 => v.xOps? 3 .add
  | 1 => v.xOps? 3 .sub
  | 2 => v.xOps? 3 .and
  | 3 => v.xOps? 3 .or
  | 4 => v.xOps? 3 .xor
  | 5 => v.xOps? 3 .shl
  | 6 => v.xOps? 3 .shr
  | 7 => v.xOps? 3 .sar
  | _ => none

/-- Family int.b (op 0x02). -/
def decodeIntB (v : VWord) : Option Instr :=
  match v.fn.toNat with
  | 0 => v.xOps? 3 .mul
  | 1 => v.xOps? 3 .mulh
  | 2 => v.xOps? 3 .mulhn
  | 3 => v.xOps? 3 .div
  | 4 => v.xOps? 3 .divn
  | 5 => v.xOps? 3 .rem
  | 6 => v.xOps? 3 .remn
  | _ => none

/-- Family int.c (op 0x03). -/
def decodeIntC (v : VWord) : Option Instr :=
  match v.fn.toNat with
  | 0 => v.xOps? 3 .min
  | 1 => v.xOps? 3 .max
  | 2 => v.xOps? 3 .minn
  | 3 => v.xOps? 3 .maxn
  | 4 => v.xOps? 3 .slt
  | 5 => v.xOps? 3 .sltn
  | 6 => v.xOps? 3 .seq
  | 7 => v.xOps? 3 .sne
  | _ => none

/-- Family int.d (op 0x04). -/
def decodeIntD (v : VWord) : Option Instr :=
  match v.fn.toNat with
  | 0 => v.xUn? 3 .clz
  | 1 => v.xUn? 3 .ctz
  | 2 => v.xUn? 3 .popc
  | 3 => v.xUn? 3 .brev
  | 4 => v.tUn? .sext
  | 5 => v.tUn? .zext
  | _ => none

/-- Family atom (op 0x16). -/
def decodeAtom (v : VWord) : Option Instr :=
  match v.fn.toNat with
  | 0 => v.atOps? false .atadd
  | 1 => v.atOps? false .atfadd
  | 2 => v.atOps? false .atand
  | 3 => v.atOps? false .ator
  | 4 => v.atOps? false .atxor
  | 5 => if v.rep.getLsbD 0 then v.atOps? true .atminn else v.atOps? false .atmin
  | 6 => if v.rep.getLsbD 0 then v.atOps? true .atmaxn else v.atOps? false .atmax
  | 7 => if v.rep.getLsbD 0 then v.atOps? true .atcas else v.atOps? false .atswap
  | _ => none

/-- Family fp.a (op 0x17). -/
def decodeFpA (v : VWord) : Option Instr :=
  match v.fn.toNat with
  | 0 => v.fOps? .fadd
  | 1 => v.fOps? .fsub
  | 2 => v.fOps? .fmul
  | 3 => v.fOps? .fdiv
  | 4 => v.fOps? .fmin
  | 5 => v.fOps? .fmax
  | 6 => v.fOps? .feq
  | 7 => v.fOps? .flt
  | _ => none

/-- Family fp.b (op 0x18). -/
def decodeFpB (v : VWord) : Option Instr :=
  match v.fn.toNat with
  | 0 => v.fOps? .fmac
  | 1 => v.fOps? .fnmac
  | 2 => v.tUn? .fsqrt
  | 3 => v.fOps? .fle
  | 4 => v.fCvtOps? .fcvt
  | 5 => v.fCvtiOps? .fcvtif
  | 6 => v.fCvtiOps? .fcvtfi
  | 7 => v.tUn? .fclass
  | _ => none

/-- Family setvlf (op 0x1B). -/
def decodeSetvlf (v : VWord) : Option Instr :=
  match v.fn.toNat with
  | 0 => v.fOps? .setvlf
  | _ => none

/-- Family ev (op 0x1C). -/
def decodeEv (v : VWord) : Option Instr :=
  match v.fn.toNat with
  | 0 => v.onlyD? .evpop
  | 1 => v.onlyD? .evn
  | 2 => v.none? .crit
  | 3 => v.none? .critx
  | 4 => v.none? .yield
  | 5 => v.none? .endit
  | 6 => v.onlyB? .drain
  | _ => none

/-- Family vint.a (op 0x20). -/
def decodeVintA (v : VWord) : Option Instr :=
  match v.fn.toNat with
  | 0 => v.vOps? .vadd
  | 1 => v.vOps? .vsub
  | 2 => v.vOps? .vand
  | 3 => v.vOps? .vor
  | 4 => v.vOps? .vxor
  | 5 => v.vOps? .vshl
  | 6 => v.vOps? .vshr
  | 7 => v.vOps? .vsar
  | _ => none

/-- Family vint.b (op 0x21). -/
def decodeVintB (v : VWord) : Option Instr :=
  match v.fn.toNat with
  | 0 => v.vOps? .vmul
  | 1 => v.vOps? .vmulh
  | 2 => v.vOps? .vmulhn
  | 3 => v.vOps? .vmin
  | 4 => v.vOps? .vmax
  | 5 => v.vOps? .vminn
  | 6 => v.vOps? .vmaxn
  | 7 => v.vOps? .vmac
  | _ => none

/-- Family vint.cmp (op 0x22). -/
def decodeVintCmp (v : VWord) : Option Instr :=
  match v.fn.toNat with
  | 0 => v.vCmpOps? .vseq
  | 1 => v.vCmpOps? .vsne
  | 2 => v.vCmpOps? .vslt
  | 3 => v.vCmpOps? .vsltn
  | 4 => v.vCmpOps? .vsle
  | 5 => v.vCmpOps? .vslen
  | 6 => v.vSelOps? .vsel
  | 7 => v.vUn? .vmv
  | _ => none

/-- Family vfp.a (op 0x23). -/
def decodeVfpA (v : VWord) : Option Instr :=
  match v.fn.toNat with
  | 0 => v.vOps? .vfadd
  | 1 => v.vOps? .vfsub
  | 2 => v.vOps? .vfmul
  | 3 => v.vOps? .vfdiv
  | 4 => v.vOps? .vfmin
  | 5 => v.vOps? .vfmax
  | 6 => v.vOps? .vfmac
  | 7 => v.vOps? .vfnmac
  | _ => none

/-- Family vfp.u (op 0x24). -/
def decodeVfpU (v : VWord) : Option Instr :=
  match v.fn.toNat with
  | 0 => v.vUn? .vfsqrt
  | 1 => v.vUn? .vfabs
  | 2 => v.vUn? .vfneg
  | 3 => v.vUn? .vfclass
  | 4 => v.vUn? .vfrint
  | _ => none

/-- Family vfp.cmp (op 0x25). -/
def decodeVfpCmp (v : VWord) : Option Instr :=
  match v.fn.toNat with
  | 0 => v.vCmpOps? .vfeq
  | 1 => v.vCmpOps? .vfne
  | 2 => v.vCmpOps? .vflt
  | 3 => v.vCmpOps? .vfle
  | 4 => v.vCmpOps? .vfunord
  | _ => none

/-- Family vcvt (op 0x26). -/
def decodeVcvt (v : VWord) : Option Instr :=
  match v.fn.toNat with
  | 0 => if subKind v.b == 0 then v.vCvtOps? .vcvt else if subKind v.b == 1 then v.vCvtiOps? 1 .vcvtif
    else v.vCvtiOps? 2 .vcvtfi
  | 1 => v.vNefOps? .vnef
  | 2 => v.vQOps? .vqnt
  | 3 => v.vQOps? .vwid
  | _ => none

/-- Family vred (op 0x27). -/
def decodeVred (v : VWord) : Option Instr :=
  match v.fn.toNat with
  | 0 => v.vRedOps? .vrsum
  | 1 => v.vRedOps? .vrmax
  | 2 => v.vRedOps? .vrmin
  | 3 => v.vRedOps? .vrmaxn
  | 4 => v.vRedOps? .vrminn
  | 5 => v.vRedOps? .vrfsum
  | 6 => v.vRedOps? .vrfmax
  | 7 => v.vRedOps? .vrfmin
  | _ => none

/-- Family vperm (op 0x28). -/
def decodeVperm (v : VWord) : Option Instr :=
  match v.fn.toNat with
  | 0 => v.tUn? .vcompress
  | 1 => v.tUn? .vexpand
  | 2 => v.vSlideOps? .vslideup
  | 3 => v.vSlideOps? .vslidedn
  | 4 => v.vOps? .vperm
  | 5 => v.onlyD? .vmpopc
  | 6 => v.onlyD? .vmfirst
  | _ => none

/-- Family vmask (op 0x29). -/
def decodeVmask (v : VWord) : Option Instr :=
  match v.fn.toNat with
  | 0 => v.aOps? .vmld
  | 1 => v.onlyD? .vmst
  | 2 => v.aOps? .vmand
  | 3 => v.aOps? .vmor
  | 4 => v.aOps? .vmxor
  | 5 => v.none? .vmnot
  | 6 => v.none? .vmset
  | 7 => v.vmsgbOps? .vmsgb
  | _ => none

/-- Family vidx (op 0x2C). -/
def decodeVidx (v : VWord) : Option Instr :=
  match v.fn.toNat with
  | 0 => v.vOps? .vldx
  | 1 => v.vOps? .vstx
  | _ => none

/-- Family vatom (op 0x2D). -/
def decodeVatom (v : VWord) : Option Instr :=
  match v.fn.toNat with
  | 0 => v.vAtOps? .vatadd
  | 1 => v.vAtOps? .vatfadd
  | 2 => v.vAtOps? .vatand
  | 3 => v.vAtOps? .vator
  | 4 => v.vAtOps? .vatxor
  | 5 => v.vAtOps? .vatmin
  | 6 => v.vAtOps? .vatmax
  | 7 => v.vAtOps? .vatswap
  | _ => none

/-- Family strm (op 0x2E). -/
def decodeStrm (v : VWord) : Option Instr :=
  match v.fn.toNat with
  | 0 => v.xUn? 0 .sbind
  | 1 => v.onlyD? .sunbind
  | 2 => v.onlyD? .sdrain
  | 3 => v.da? .sstat
  | _ => none

/-- Family vxf (op 0x2F). -/
def decodeVxf (v : VWord) : Option Instr :=
  match v.fn.toNat with
  | 0 => v.vUn? .vxf
  | 1 => v.xUn? 0 .cbload
  | _ => none

/-- Family mga.b (op 0x30). -/
def decodeMgaB (v : VWord) : Option Instr :=
  match v.fn.toNat with
  | 0 => v.vOps? .mgp
  | 1 => v.vOps? .mwedge
  | 2 => v.vOps? .mjoin
  | 3 => v.vOps? .mdot
  | 4 => v.vOps? .msand
  | 5 => v.vOps? .msandChk
  | 6 => v.vOps? .madd
  | 7 => v.vOps? .msub
  | _ => none

/-- Family mga.u (op 0x31). -/
def decodeMgaU (v : VWord) : Option Instr :=
  match v.fn.toNat with
  | 0 => v.vUn? .mrev
  | 1 => v.vUn? .mdual
  | 2 => v.vUn? .mnorm
  | 3 => v.vUn? .munit
  | 4 => v.vUn? .mexp
  | 5 => v.vUn? .mlog
  | 6 => v.mProjOps? .mproj
  | 7 => v.vOps? .mscale
  | _ => none

/-- Family mga.t (op 0x33). -/
def decodeMgaT (v : VWord) : Option Instr :=
  match v.fn.toNat with
  | 0 => v.mSetgOps? .msetg
  | 1 => v.da? .mgettag
  | 2 => v.vUn? .mcvt
  | _ => none

/-- Family tile (op 0x34). -/
def decodeTile (v : VWord) : Option Instr :=
  match v.fn.toNat with
  | 0 => if subKind v.b == 0 && !subUns v.b then v.onlyB? (fun b => .ton (subType b)) else none
  | 1 => v.none? .toff
  | 2 => v.onlyD? .tzero
  | 3 => v.topaOps? .topa
  | 4 => v.tspaOps? .tspa
  | _ => none

/-- Family tmv (op 0x35). -/
def decodeTmv (v : VWord) : Option Instr :=
  match v.fn.toNat with
  | 0 => v.tmvOps? .tmvr
  | 1 => v.tmvOps? .tmvc
  | 2 => v.tmvwOps? .tmvw
  | _ => none

/-- Family vsp (op 0x36). -/
def decodeVsp (v : VWord) : Option Instr :=
  match v.fn.toNat with
  | 0 => v.vspOps? .vspc
  | 1 => v.vspOps? .vspx
  | _ => none

/-- Family ray (op 0x37). -/
def decodeRay (v : VWord) : Option Instr :=
  match v.fn.toNat with
  | 0 => v.rayOps? .vbox
  | 1 => v.rayOps? .vtri
  | _ => none

/-- Family pont (op 0x38). -/
def decodePont (v : VWord) : Option Instr :=
  match v.fn.toNat with
  | 0 => v.aOps? .pload
  | 1 => v.aOps? .penq
  | 2 => v.selOps? .pcfg
  | 3 => v.pstatOps? .pstat
  | _ => none

/-- Family async (op 0x39). -/
def decodeAsync (v : VWord) : Option Instr :=
  match v.fn.toNat with
  | 0 => v.aOps? .xcopy
  | 1 => v.aOps? .xtrain
  | 2 => v.aOps? .xcoll
  | 3 => v.aOps? .xpix
  | 4 => v.aOps? .xwharf
  | _ => none

/-- Family hier (op 0x3A). -/
def decodeHier (v : VWord) : Option Instr :=
  match v.fn.toNat with
  | 0 => v.xUn? 0 .launch
  | 1 => v.selOps? .cancel
  | 2 => v.xOps? 0 .emit
  | 3 => v.barOps? .bar
  | _ => none

/-- Family wait (op 0x3B). -/
def decodeWait (v : VWord) : Option Instr :=
  match v.fn.toNat with
  | 0 => v.waitOps? .wait
  | 1 => v.vWaitOps? .vwait
  | _ => none

/-- Every word of format V. -/
def decodeV (v : VWord) : Option Instr :=
  match v.op.toNat with
  | 0x01 => decodeIntA v
  | 0x02 => decodeIntB v
  | 0x03 => decodeIntC v
  | 0x04 => decodeIntD v
  | 0x16 => decodeAtom v
  | 0x17 => decodeFpA v
  | 0x18 => decodeFpB v
  | 0x1B => decodeSetvlf v
  | 0x1C => decodeEv v
  | 0x20 => decodeVintA v
  | 0x21 => decodeVintB v
  | 0x22 => decodeVintCmp v
  | 0x23 => decodeVfpA v
  | 0x24 => decodeVfpU v
  | 0x25 => decodeVfpCmp v
  | 0x26 => decodeVcvt v
  | 0x27 => decodeVred v
  | 0x28 => decodeVperm v
  | 0x29 => decodeVmask v
  | 0x2C => decodeVidx v
  | 0x2D => decodeVatom v
  | 0x2E => decodeStrm v
  | 0x2F => decodeVxf v
  | 0x30 => decodeMgaB v
  | 0x31 => decodeMgaU v
  | 0x33 => decodeMgaT v
  | 0x34 => decodeTile v
  | 0x35 => decodeTmv v
  | 0x36 => decodeVsp v
  | 0x37 => decodeRay v
  | 0x38 => decodePont v
  | 0x39 => decodeAsync v
  | 0x3A => decodeHier v
  | 0x3B => decodeWait v
  | _ => none

/-! ## Format I -/

/-- Format I (R28). -/
structure IWordF where
  op : BitVec 6
  d : Reg
  a : Reg
  imm : BitVec 16
  deriving DecidableEq, Repr

/-- The fields of a word of format I (R28). -/
def splitI (w : IWord) : IWordF :=
  ⟨w.extractLsb' 26 6, w.extractLsb' 21 5, w.extractLsb' 16 5, w.extractLsb' 0 16⟩

/-- imm16 of the shifts: kind [15:14], zero, amount [5:0] (R32). -/
def decodeShi (w : IWordF) : Option Instr :=
  if w.imm.extractLsb' 6 8 == 0 then
    let o : ShOps := ⟨w.d, w.a, w.imm.extractLsb' 0 6⟩
    match (w.imm.extractLsb' 14 2).toNat with
    | 0 => some (.shli o)
    | 1 => some (.shri o)
    | 2 => some (.sari o)
    | _ => some (.rori o)
  else none

/-- imm16 of cr: kind [15:14], zero, index [11:0]; crr names no xa (R32). -/
def decodeCr (w : IWordF) : Option Instr :=
  if w.imm.extractLsb' 12 2 == 0 then
    let o : CrOps := ⟨w.d, w.a, w.imm.extractLsb' 0 12⟩
    match (w.imm.extractLsb' 14 2).toNat with
    | 0 => if w.a == 0 then some (.crr ⟨w.d, w.imm.extractLsb' 0 12⟩) else none
    | 1 => some (.crw o)
    | 2 => some (.crs o)
    | _ => some (.crc o)
  else none

/-- imm16 of setvl: mv [15], ty [14:13], gm [12:8], zero (R32). -/
def decodeSetvl (w : IWordF) : Option Instr :=
  if w.imm.extractLsb' 0 8 == 0 then
    some (.setvl ⟨w.d, w.a, w.imm.getLsbD 15, w.imm.extractLsb' 13 2, w.imm.extractLsb' 8 5⟩)
  else none

/-- imm16 of fence: kind [15:14], scope [13:11], the two classes of fencex, zero (R32). -/
def decodeFence (w : IWordF) : Option Instr :=
  if w.d == 0 && w.a == 0 && w.imm.extractLsb' 0 5 == 0 then
    let scope := w.imm.extractLsb' 11 3
    let c1 := w.imm.extractLsb' 8 3
    let c2 := w.imm.extractLsb' 5 3
    match (w.imm.extractLsb' 14 2).toNat with
    | 0 => if c1 == 0 && c2 == 0 then some (.fenceAcq scope) else none
    | 1 => if c1 == 0 && c2 == 0 then some (.fenceRel scope) else none
    | 2 => if c1 == 0 && c2 == 0 then some (.fenceFull scope) else none
    | _ => some (.fencex ⟨scope, c1, c2⟩)
  else none

/-- imm16 of sys: kind [15:12], zero; the fields d and a that a kind does not name are zero (R32, R117). -/
def decodeSys (w : IWordF) : Option Instr :=
  if w.imm.extractLsb' 0 12 == 0 then
    match (w.imm.extractLsb' 12 4).toNat with
    | 0 => if w.d == 0 && w.a == 0 then some .scall else none
    | 1 => if w.d == 0 && w.a == 0 then some .dbrk else none
    | 2 => if w.d == 0 && w.a == 0 then some .eret else none
    | 3 => if w.d == 0 then some (.ctxsv w.a) else none
    | 4 => if w.d == 0 then some (.ctxld w.a) else none
    | 5 => if w.a == 0 then some (.chkpt w.d) else none
    | 6 => if w.d == 0 && w.a == 0 then some .rollback else none
    | 7 => some (.tlbinv ⟨w.d, w.a⟩)
    | 8 => some (.rdst ⟨w.d, w.a⟩)
    | _ => none
  else none

/-- Every word of format I. -/
def decodeI (w : IWordF) : Option Instr :=
  let o : ImmOps := ⟨w.d, w.a, w.imm⟩
  match w.op.toNat with
  | 0x05 => some (.addi o)
  | 0x06 => some (.andi o)
  | 0x07 => some (.ori o)
  | 0x08 => some (.xori o)
  | 0x09 => decodeShi w
  | 0x0A => some (.slti o)
  | 0x12 => some (.jmpr o)
  | 0x19 => decodeCr w
  | 0x1A => decodeSetvl w
  | 0x1D => decodeFence w
  | 0x1E => decodeSys w
  | _ => none

/-! ## Format M -/

/-- Format M (R28). -/
structure MWordF where
  op : BitVec 6
  d : Reg
  a : Reg
  fn : BitVec 3
  ty : BitVec 2
  m : Bool
  disp : BitVec 10
  deriving DecidableEq, Repr

/-- The fields of a word of format M (R28). -/
def splitM (w : IWord) : MWordF :=
  ⟨w.extractLsb' 26 6, w.extractLsb' 21 5, w.extractLsb' 16 5, w.extractLsb' 13 3, w.extractLsb' 11 2, w.getLsbD 10,
    w.extractLsb' 0 10⟩

/-- Family ld (op 0x14): m is zero. -/
def decodeLd (w : MWordF) : Option Instr :=
  if w.m then none else
  match w.fn.toNat with
  | 0 => some (.ldSigned ⟨w.d, w.a, w.ty, w.disp⟩)
  | 1 => some (.ldUnsigned ⟨w.d, w.a, w.ty, w.disp⟩)
  | _ => none

/-- Family st (op 0x15): m is zero. -/
def decodeSt (w : MWordF) : Option Instr :=
  if w.m then none else
  match w.fn.toNat with
  | 0 => some (.st ⟨w.d, w.a, w.ty, w.disp⟩)
  | _ => none

/-- Family vld (op 0x2A). vldz keeps an x register in disp10[9:5]. -/
def decodeVld (w : MWordF) : Option Instr :=
  let o : VMemOps := ⟨w.d, w.a, w.ty, w.m, w.disp⟩
  match w.fn.toNat with
  | 0 => some (.vld o)
  | 1 => some (.vlds o)
  | 2 => if w.ty == 0 then some (.vldb ⟨w.d, w.a, w.m, w.disp⟩) else none
  | 3 => if !w.m && w.disp.extractLsb' 0 5 == 0 then some (.vldz ⟨w.d, w.a, w.ty, w.disp.extractLsb' 5 5⟩) else none
  | 4 => if w.ty == 0 && !w.m && w.disp == 0 then some (.vlr ⟨w.d, w.a⟩) else none
  | _ => none

/-- Family vst (op 0x2B). -/
def decodeVst (w : MWordF) : Option Instr :=
  let o : VMemOps := ⟨w.d, w.a, w.ty, w.m, w.disp⟩
  match w.fn.toNat with
  | 0 => some (.vst o)
  | 1 => some (.vsts o)
  | 2 => if w.ty == 0 then some (.vstb ⟨w.d, w.a, w.m, w.disp⟩) else none
  | 3 => if w.ty == 0 && !w.m && w.disp == 0 then some (.vsr ⟨w.d, w.a⟩) else none
  | _ => none

/-- Family mga.m (op 0x32). -/
def decodeMgaM (w : MWordF) : Option Instr :=
  let o : VMemOps := ⟨w.d, w.a, w.ty, w.m, w.disp⟩
  match w.fn.toNat with
  | 0 => some (.mld o)
  | 1 => some (.mst o)
  | _ => none

/-- Every word of format M. -/
def decodeM (w : MWordF) : Option Instr :=
  match w.op.toNat with
  | 0x14 => decodeLd w
  | 0x15 => decodeSt w
  | 0x2A => decodeVld w
  | 0x2B => decodeVst w
  | 0x32 => decodeMgaM w
  | _ => none

/-! ## Formats B and J -/

/-- Format B (R28). -/
structure BWordF where
  op : BitVec 6
  cc : BitVec 5
  a : Reg
  b : Reg
  off : BitVec 11
  deriving DecidableEq, Repr

/-- The fields of a word of format B (R28). -/
def splitB (w : IWord) : BWordF :=
  ⟨w.extractLsb' 26 6, w.extractLsb' 21 5, w.extractLsb' 16 5, w.extractLsb' 11 5, w.extractLsb' 0 11⟩

/-- Family br (op 0x10): cc 8 to 31 are unassigned, and b of brf and bre is zero. -/
def decodeB (w : BWordF) : Option Instr :=
  let o : BrOps := ⟨w.a, w.b, w.off⟩
  let p : BrfOps := ⟨w.a, w.off⟩
  match w.cc.toNat with
  | 0 => some (.beq o)
  | 1 => some (.bne o)
  | 2 => some (.blt o)
  | 3 => some (.bge o)
  | 4 => some (.bltn o)
  | 5 => some (.bgen o)
  | 6 => if w.b == 0 then some (.brf p) else none
  | 7 => if w.b == 0 then some (.bre p) else none
  | _ => none

/-- Format J (R28). -/
structure JWordF where
  op : BitVec 6
  d : Reg
  imm : BitVec 21
  deriving DecidableEq, Repr

/-- The fields of a word of format J (R28). -/
def splitJ (w : IWord) : JWordF := ⟨w.extractLsb' 26 6, w.extractLsb' 21 5, w.extractLsb' 0 21⟩

/-- Every word of format J. -/
def decodeJ (w : JWordF) : Option Instr :=
  let o : ConstOps := ⟨w.d, w.imm⟩
  match w.op.toNat with
  | 0x0B => some (.lih o)
  | 0x0C => some (.pchi o)
  | 0x11 => some (.jmp o)
  | _ => none

/-! ## The decoder -/

/-- The format of a major opcode (R31). -/
inductive Format where
  | V | I | M | B | J | unassigned
  deriving DecidableEq, Repr

/-- The format column of R31; opcodes it does not list are unassigned (R34). -/
def formatOf (op : BitVec 6) : Format :=
  match op.toNat with
  | 0x05 | 0x06 | 0x07 | 0x08 | 0x09 | 0x0A | 0x12 | 0x19 | 0x1A | 0x1D | 0x1E => .I
  | 0x0B | 0x0C | 0x11 => .J
  | 0x10 => .B
  | 0x14 | 0x15 | 0x2A | 0x2B | 0x32 => .M
  | 0x00 | 0x0D | 0x0E | 0x0F | 0x13 | 0x1F | 0x3C | 0x3D | 0x3E | 0x3F => .unassigned
  | _ => .V

/-- The instruction whose fields a word has, before the checks of `Instr.wf`. -/
def decodeFields (w : IWord) : Option Instr :=
  match formatOf (opOf w) with
  | .V => decodeV (splitV w)
  | .I => decodeI (splitI w)
  | .M => decodeM (splitM w)
  | .B => decodeB (splitB w)
  | .J => decodeJ (splitJ w)
  | .unassigned => none

/-- The instruction of a word, or none where the strand takes trap 0x01 (R34). -/
def decodeWord (w : IWord) : Option Instr :=
  match decodeFields w with
  | some i => if i.wf then some i else none
  | none => none

/-- The word that four bytes spell, little-endian (R28). -/
def wordOfBytes (b0 b1 b2 b3 : Byte) : IWord := b3 ++ b2 ++ b1 ++ b0

/-- The first instruction of a byte string and the bytes after it, or why there is none. -/
def decodeBytes (bs : List Byte) : Except DecodeError (Instr × List Byte) :=
  match bs with
  | b0 :: b1 :: b2 :: b3 :: rest =>
    let w := wordOfBytes b0 b1 b2 b3
    match decodeFields w with
    | none => .error (.unassigned w)
    | some i => if i.wf then .ok (i, rest) else .error (.illegalValue w)
  | _ => .error .truncated

/-- The instruction of a table row whose bits are `w`, the bits above `nbits` zero. -/
def decodeTableWord (nbits w : Nat) : Option Instr := decodeWord (BitVec.ofNat 32 (w % 2 ^ nbits))

/-! ## The encoder -/

/-- A word of format V. -/
def wordV (op : BitVec 6) (d a b : Reg) (fn : BitVec 3) (ty : BitVec 2) (m : Bool) (rep : BitVec 3) (fa fb : Bool) :
    IWord :=
  op ++ d ++ a ++ b ++ fn ++ ty ++ BitVec.ofBool m ++ rep ++ BitVec.ofBool fa ++ BitVec.ofBool fb

/-- A word of format I. -/
def wordI (op : BitVec 6) (d a : Reg) (imm : BitVec 16) : IWord := op ++ d ++ a ++ imm

/-- A word of format M. -/
def wordM (op : BitVec 6) (d a : Reg) (fn : BitVec 3) (ty : BitVec 2) (m : Bool) (disp : BitVec 10) : IWord :=
  op ++ d ++ a ++ fn ++ ty ++ BitVec.ofBool m ++ disp

/-- A word of format B. -/
def wordB (op : BitVec 6) (cc : BitVec 5) (a b : Reg) (off : BitVec 11) : IWord := op ++ cc ++ a ++ b ++ off

/-- A word of format J. -/
def wordJ (op : BitVec 6) (d : Reg) (imm : BitVec 21) : IWord := op ++ d ++ imm

/-- The word of an instruction; none for a step of the device. -/
def encode (i : Instr) : Option IWord :=
  match i with
  | .add o => some (wordV 0x01 o.d o.a o.b 0 3 false 0 o.fa o.fb)
  | .sub o => some (wordV 0x01 o.d o.a o.b 1 3 false 0 o.fa o.fb)
  | .and o => some (wordV 0x01 o.d o.a o.b 2 3 false 0 o.fa o.fb)
  | .or o => some (wordV 0x01 o.d o.a o.b 3 3 false 0 o.fa o.fb)
  | .xor o => some (wordV 0x01 o.d o.a o.b 4 3 false 0 o.fa o.fb)
  | .shl o => some (wordV 0x01 o.d o.a o.b 5 3 false 0 o.fa o.fb)
  | .shr o => some (wordV 0x01 o.d o.a o.b 6 3 false 0 o.fa o.fb)
  | .sar o => some (wordV 0x01 o.d o.a o.b 7 3 false 0 o.fa o.fb)
  | .mul o => some (wordV 0x02 o.d o.a o.b 0 3 false 0 o.fa o.fb)
  | .mulh o => some (wordV 0x02 o.d o.a o.b 1 3 false 0 o.fa o.fb)
  | .mulhn o => some (wordV 0x02 o.d o.a o.b 2 3 false 0 o.fa o.fb)
  | .div o => some (wordV 0x02 o.d o.a o.b 3 3 false 0 o.fa o.fb)
  | .divn o => some (wordV 0x02 o.d o.a o.b 4 3 false 0 o.fa o.fb)
  | .rem o => some (wordV 0x02 o.d o.a o.b 5 3 false 0 o.fa o.fb)
  | .remn o => some (wordV 0x02 o.d o.a o.b 6 3 false 0 o.fa o.fb)
  | .min o => some (wordV 0x03 o.d o.a o.b 0 3 false 0 o.fa o.fb)
  | .max o => some (wordV 0x03 o.d o.a o.b 1 3 false 0 o.fa o.fb)
  | .minn o => some (wordV 0x03 o.d o.a o.b 2 3 false 0 o.fa o.fb)
  | .maxn o => some (wordV 0x03 o.d o.a o.b 3 3 false 0 o.fa o.fb)
  | .slt o => some (wordV 0x03 o.d o.a o.b 4 3 false 0 o.fa o.fb)
  | .sltn o => some (wordV 0x03 o.d o.a o.b 5 3 false 0 o.fa o.fb)
  | .seq o => some (wordV 0x03 o.d o.a o.b 6 3 false 0 o.fa o.fb)
  | .sne o => some (wordV 0x03 o.d o.a o.b 7 3 false 0 o.fa o.fb)
  | .clz o => some (wordV 0x04 o.d o.a 0 0 3 false 0 o.fa false)
  | .ctz o => some (wordV 0x04 o.d o.a 0 1 3 false 0 o.fa false)
  | .popc o => some (wordV 0x04 o.d o.a 0 2 3 false 0 o.fa false)
  | .brev o => some (wordV 0x04 o.d o.a 0 3 3 false 0 o.fa false)
  | .sext o => some (wordV 0x04 o.d o.a 0 4 o.ty false 0 o.fa false)
  | .zext o => some (wordV 0x04 o.d o.a 0 5 o.ty false 0 o.fa false)
  | .addi o => some (wordI 0x05 o.d o.a o.imm)
  | .andi o => some (wordI 0x06 o.d o.a o.imm)
  | .ori o => some (wordI 0x07 o.d o.a o.imm)
  | .xori o => some (wordI 0x08 o.d o.a o.imm)
  | .shli o => some (wordI 0x09 o.d o.a (0#2 ++ 0#8 ++ o.amt))
  | .shri o => some (wordI 0x09 o.d o.a (1#2 ++ 0#8 ++ o.amt))
  | .sari o => some (wordI 0x09 o.d o.a (2#2 ++ 0#8 ++ o.amt))
  | .rori o => some (wordI 0x09 o.d o.a (3#2 ++ 0#8 ++ o.amt))
  | .slti o => some (wordI 0x0A o.d o.a o.imm)
  | .lih o => some (wordJ 0x0B o.d o.imm)
  | .pchi o => some (wordJ 0x0C o.d o.imm)
  | .beq o => some (wordB 0x10 0 o.a o.b o.off)
  | .bne o => some (wordB 0x10 1 o.a o.b o.off)
  | .blt o => some (wordB 0x10 2 o.a o.b o.off)
  | .bge o => some (wordB 0x10 3 o.a o.b o.off)
  | .bltn o => some (wordB 0x10 4 o.a o.b o.off)
  | .bgen o => some (wordB 0x10 5 o.a o.b o.off)
  | .brf o => some (wordB 0x10 6 o.a 0 o.off)
  | .bre o => some (wordB 0x10 7 o.a 0 o.off)
  | .jmp o => some (wordJ 0x11 o.d o.imm)
  | .jmpr o => some (wordI 0x12 o.d o.a o.imm)
  | .ldSigned o => some (wordM 0x14 o.d o.a 0 o.ty false o.disp)
  | .ldUnsigned o => some (wordM 0x14 o.d o.a 1 o.ty false o.disp)
  | .st o => some (wordM 0x15 o.d o.a 0 o.ty false o.disp)
  | .atadd o => some (wordV 0x16 o.d o.a o.b 0 (pair true o.wide) false (trio o.acq o.rel false) o.fa o.fb)
  | .atfadd o => some (wordV 0x16 o.d o.a o.b 1 (pair true o.wide) false (trio o.acq o.rel false) o.fa o.fb)
  | .atand o => some (wordV 0x16 o.d o.a o.b 2 (pair true o.wide) false (trio o.acq o.rel false) o.fa o.fb)
  | .ator o => some (wordV 0x16 o.d o.a o.b 3 (pair true o.wide) false (trio o.acq o.rel false) o.fa o.fb)
  | .atxor o => some (wordV 0x16 o.d o.a o.b 4 (pair true o.wide) false (trio o.acq o.rel false) o.fa o.fb)
  | .atmin o => some (wordV 0x16 o.d o.a o.b 5 (pair true o.wide) false (trio o.acq o.rel false) o.fa o.fb)
  | .atmax o => some (wordV 0x16 o.d o.a o.b 6 (pair true o.wide) false (trio o.acq o.rel false) o.fa o.fb)
  | .atminn o => some (wordV 0x16 o.d o.a o.b 5 (pair true o.wide) false (trio o.acq o.rel true) o.fa o.fb)
  | .atmaxn o => some (wordV 0x16 o.d o.a o.b 6 (pair true o.wide) false (trio o.acq o.rel true) o.fa o.fb)
  | .atswap o => some (wordV 0x16 o.d o.a o.b 7 (pair true o.wide) false (trio o.acq o.rel false) o.fa o.fb)
  | .atcas o => some (wordV 0x16 o.d o.a o.b 7 (pair true o.wide) false (trio o.acq o.rel true) o.fa o.fb)
  | .fadd o => some (wordV 0x17 o.d o.a o.b 0 o.ty false 0 o.fa o.fb)
  | .fsub o => some (wordV 0x17 o.d o.a o.b 1 o.ty false 0 o.fa o.fb)
  | .fmul o => some (wordV 0x17 o.d o.a o.b 2 o.ty false 0 o.fa o.fb)
  | .fdiv o => some (wordV 0x17 o.d o.a o.b 3 o.ty false 0 o.fa o.fb)
  | .fmin o => some (wordV 0x17 o.d o.a o.b 4 o.ty false 0 o.fa o.fb)
  | .fmax o => some (wordV 0x17 o.d o.a o.b 5 o.ty false 0 o.fa o.fb)
  | .feq o => some (wordV 0x17 o.d o.a o.b 6 o.ty false 0 o.fa o.fb)
  | .flt o => some (wordV 0x17 o.d o.a o.b 7 o.ty false 0 o.fa o.fb)
  | .fmac o => some (wordV 0x18 o.d o.a o.b 0 o.ty false 0 o.fa o.fb)
  | .fnmac o => some (wordV 0x18 o.d o.a o.b 1 o.ty false 0 o.fa o.fb)
  | .fsqrt o => some (wordV 0x18 o.d o.a 0 2 o.ty false 0 o.fa false)
  | .fle o => some (wordV 0x18 o.d o.a o.b 3 o.ty false 0 o.fa o.fb)
  | .fcvt o => some (wordV 0x18 o.d o.a (second 0 false o.other) 4 o.ty false 0 o.fa false)
  | .fcvtif o => some (wordV 0x18 o.d o.a (second 0 o.uns o.other) 5 o.ty false 0 o.fa false)
  | .fcvtfi o => some (wordV 0x18 o.d o.a (second 0 o.uns o.other) 6 o.ty false 0 o.fa false)
  | .fclass o => some (wordV 0x18 o.d o.a 0 7 o.ty false 0 o.fa false)
  | .crr o => some (wordI 0x19 o.d 0 (0#4 ++ o.idx))
  | .crw o => some (wordI 0x19 o.d o.a (1#2 ++ 0#2 ++ o.idx))
  | .crs o => some (wordI 0x19 o.d o.a (2#2 ++ 0#2 ++ o.idx))
  | .crc o => some (wordI 0x19 o.d o.a (3#2 ++ 0#2 ++ o.idx))
  | .setvl o => some (wordI 0x1A o.d o.a (BitVec.ofBool o.mv ++ o.ty ++ o.gm ++ 0#8))
  | .setvlf o => some (wordV 0x1B o.d o.a o.b 0 o.ty false 0 o.fa o.fb)
  | .evpop d => some (wordV 0x1C d 0 0 0 0 false 0 false false)
  | .evn d => some (wordV 0x1C d 0 0 1 0 false 0 false false)
  | .crit => some (wordV 0x1C 0 0 0 2 0 false 0 false false)
  | .critx => some (wordV 0x1C 0 0 0 3 0 false 0 false false)
  | .yield => some (wordV 0x1C 0 0 0 4 0 false 0 false false)
  | .endit => some (wordV 0x1C 0 0 0 5 0 false 0 false false)
  | .drain mask => some (wordV 0x1C 0 0 mask 6 0 false 0 false false)
  | .fenceAcq scope => some (wordI 0x1D 0 0 (0#2 ++ scope ++ 0#11))
  | .fenceRel scope => some (wordI 0x1D 0 0 (1#2 ++ scope ++ 0#11))
  | .fenceFull scope => some (wordI 0x1D 0 0 (2#2 ++ scope ++ 0#11))
  | .fencex o => some (wordI 0x1D 0 0 (3#2 ++ o.scope ++ o.c1 ++ o.c2 ++ 0#5))
  | .scall => some (wordI 0x1E 0 0 0x0000)
  | .dbrk => some (wordI 0x1E 0 0 0x1000)
  | .eret => some (wordI 0x1E 0 0 0x2000)
  | .ctxsv a => some (wordI 0x1E 0 a 0x3000)
  | .ctxld a => some (wordI 0x1E 0 a 0x4000)
  | .chkpt d => some (wordI 0x1E d 0 0x5000)
  | .rollback => some (wordI 0x1E 0 0 0x6000)
  | .tlbinv o => some (wordI 0x1E o.d o.a 0x7000)
  | .rdst o => some (wordI 0x1E o.d o.a 0x8000)
  | .vadd o => some (wordV 0x20 o.d o.a o.b 0 o.ty o.m o.rep o.fa o.fb)
  | .vsub o => some (wordV 0x20 o.d o.a o.b 1 o.ty o.m o.rep o.fa o.fb)
  | .vand o => some (wordV 0x20 o.d o.a o.b 2 o.ty o.m o.rep o.fa o.fb)
  | .vor o => some (wordV 0x20 o.d o.a o.b 3 o.ty o.m o.rep o.fa o.fb)
  | .vxor o => some (wordV 0x20 o.d o.a o.b 4 o.ty o.m o.rep o.fa o.fb)
  | .vshl o => some (wordV 0x20 o.d o.a o.b 5 o.ty o.m o.rep o.fa o.fb)
  | .vshr o => some (wordV 0x20 o.d o.a o.b 6 o.ty o.m o.rep o.fa o.fb)
  | .vsar o => some (wordV 0x20 o.d o.a o.b 7 o.ty o.m o.rep o.fa o.fb)
  | .vmul o => some (wordV 0x21 o.d o.a o.b 0 o.ty o.m o.rep o.fa o.fb)
  | .vmulh o => some (wordV 0x21 o.d o.a o.b 1 o.ty o.m o.rep o.fa o.fb)
  | .vmulhn o => some (wordV 0x21 o.d o.a o.b 2 o.ty o.m o.rep o.fa o.fb)
  | .vmin o => some (wordV 0x21 o.d o.a o.b 3 o.ty o.m o.rep o.fa o.fb)
  | .vmax o => some (wordV 0x21 o.d o.a o.b 4 o.ty o.m o.rep o.fa o.fb)
  | .vminn o => some (wordV 0x21 o.d o.a o.b 5 o.ty o.m o.rep o.fa o.fb)
  | .vmaxn o => some (wordV 0x21 o.d o.a o.b 6 o.ty o.m o.rep o.fa o.fb)
  | .vmac o => some (wordV 0x21 o.d o.a o.b 7 o.ty o.m o.rep o.fa o.fb)
  | .vseq o => some (wordV 0x22 0 o.a o.b 0 o.ty o.m o.rep o.fa o.fb)
  | .vsne o => some (wordV 0x22 0 o.a o.b 1 o.ty o.m o.rep o.fa o.fb)
  | .vslt o => some (wordV 0x22 0 o.a o.b 2 o.ty o.m o.rep o.fa o.fb)
  | .vsltn o => some (wordV 0x22 0 o.a o.b 3 o.ty o.m o.rep o.fa o.fb)
  | .vsle o => some (wordV 0x22 0 o.a o.b 4 o.ty o.m o.rep o.fa o.fb)
  | .vslen o => some (wordV 0x22 0 o.a o.b 5 o.ty o.m o.rep o.fa o.fb)
  | .vsel o => some (wordV 0x22 o.d o.a o.b 6 o.ty false o.rep o.fa o.fb)
  | .vmv o => some (wordV 0x22 o.d o.a 0 7 o.ty o.m 0 o.fa false)
  | .vfadd o => some (wordV 0x23 o.d o.a o.b 0 o.ty o.m o.rep o.fa o.fb)
  | .vfsub o => some (wordV 0x23 o.d o.a o.b 1 o.ty o.m o.rep o.fa o.fb)
  | .vfmul o => some (wordV 0x23 o.d o.a o.b 2 o.ty o.m o.rep o.fa o.fb)
  | .vfdiv o => some (wordV 0x23 o.d o.a o.b 3 o.ty o.m o.rep o.fa o.fb)
  | .vfmin o => some (wordV 0x23 o.d o.a o.b 4 o.ty o.m o.rep o.fa o.fb)
  | .vfmax o => some (wordV 0x23 o.d o.a o.b 5 o.ty o.m o.rep o.fa o.fb)
  | .vfmac o => some (wordV 0x23 o.d o.a o.b 6 o.ty o.m o.rep o.fa o.fb)
  | .vfnmac o => some (wordV 0x23 o.d o.a o.b 7 o.ty o.m o.rep o.fa o.fb)
  | .vfsqrt o => some (wordV 0x24 o.d o.a 0 0 o.ty o.m 0 o.fa false)
  | .vfabs o => some (wordV 0x24 o.d o.a 0 1 o.ty o.m 0 o.fa false)
  | .vfneg o => some (wordV 0x24 o.d o.a 0 2 o.ty o.m 0 o.fa false)
  | .vfclass o => some (wordV 0x24 o.d o.a 0 3 o.ty o.m 0 o.fa false)
  | .vfrint o => some (wordV 0x24 o.d o.a 0 4 o.ty o.m 0 o.fa false)
  | .vfeq o => some (wordV 0x25 0 o.a o.b 0 o.ty o.m o.rep o.fa o.fb)
  | .vfne o => some (wordV 0x25 0 o.a o.b 1 o.ty o.m o.rep o.fa o.fb)
  | .vflt o => some (wordV 0x25 0 o.a o.b 2 o.ty o.m o.rep o.fa o.fb)
  | .vfle o => some (wordV 0x25 0 o.a o.b 3 o.ty o.m o.rep o.fa o.fb)
  | .vfunord o => some (wordV 0x25 0 o.a o.b 4 o.ty o.m o.rep o.fa o.fb)
  | .vcvt o => some (wordV 0x26 o.d o.a (second 0 false o.other) 0 o.ty o.m 0 o.fa false)
  | .vcvtif o => some (wordV 0x26 o.d o.a (second 1 o.uns o.other) 0 o.ty o.m 0 o.fa false)
  | .vcvtfi o => some (wordV 0x26 o.d o.a (second 2 o.uns o.other) 0 o.ty o.m 0 o.fa false)
  | .vnef o => some (wordV 0x26 o.d o.a o.ve 1 2 o.m o.rep o.fa false)
  | .vqnt o => some (wordV 0x26 o.d o.a 0 2 o.ty false o.rep o.fa false)
  | .vwid o => some (wordV 0x26 o.d o.a 0 3 o.ty false o.rep o.fa false)
  | .vrsum o => some (wordV 0x27 o.d o.a (second 0 false (pair o.scan o.xdst)) 0 o.ty o.m 0 o.fa false)
  | .vrmax o => some (wordV 0x27 o.d o.a (second 0 false (pair o.scan o.xdst)) 1 o.ty o.m 0 o.fa false)
  | .vrmin o => some (wordV 0x27 o.d o.a (second 0 false (pair o.scan o.xdst)) 2 o.ty o.m 0 o.fa false)
  | .vrmaxn o => some (wordV 0x27 o.d o.a (second 0 false (pair o.scan o.xdst)) 3 o.ty o.m 0 o.fa false)
  | .vrminn o => some (wordV 0x27 o.d o.a (second 0 false (pair o.scan o.xdst)) 4 o.ty o.m 0 o.fa false)
  | .vrfsum o => some (wordV 0x27 o.d o.a (second 0 false (pair o.scan o.xdst)) 5 o.ty o.m 0 o.fa false)
  | .vrfmax o => some (wordV 0x27 o.d o.a (second 0 false (pair o.scan o.xdst)) 6 o.ty o.m 0 o.fa false)
  | .vrfmin o => some (wordV 0x27 o.d o.a (second 0 false (pair o.scan o.xdst)) 7 o.ty o.m 0 o.fa false)
  | .vcompress o => some (wordV 0x28 o.d o.a 0 0 o.ty false 0 o.fa false)
  | .vexpand o => some (wordV 0x28 o.d o.a 0 1 o.ty false 0 o.fa false)
  | .vslideup o => some (wordV 0x28 o.d o.a o.b 2 o.ty o.m 0 o.fa o.fb)
  | .vslidedn o => some (wordV 0x28 o.d o.a o.b 3 o.ty o.m 0 o.fa o.fb)
  | .vperm o => some (wordV 0x28 o.d o.a o.b 4 o.ty o.m o.rep o.fa o.fb)
  | .vmpopc d => some (wordV 0x28 d 0 0 5 0 false 0 false false)
  | .vmfirst d => some (wordV 0x28 d 0 0 6 0 false 0 false false)
  | .vmld o => some (wordV 0x29 0 o.a 0 0 0 false 0 o.fa false)
  | .vmst d => some (wordV 0x29 d 0 0 1 0 false 0 false false)
  | .vmand o => some (wordV 0x29 0 o.a 0 2 0 false 0 o.fa false)
  | .vmor o => some (wordV 0x29 0 o.a 0 3 0 false 0 o.fa false)
  | .vmxor o => some (wordV 0x29 0 o.a 0 4 0 false 0 o.fa false)
  | .vmnot => some (wordV 0x29 0 0 0 5 0 false 0 false false)
  | .vmset => some (wordV 0x29 0 0 0 6 0 false 0 false false)
  | .vmsgb o => some (wordV 0x29 0 o.a (second 0 o.flt o.ew) 7 0 false 0 o.fa false)
  | .vld o => some (wordM 0x2A o.d o.a 0 o.ty o.m o.disp)
  | .vlds o => some (wordM 0x2A o.d o.a 1 o.ty o.m o.disp)
  | .vldb o => some (wordM 0x2A o.d o.a 2 0 o.m o.disp)
  | .vldz o => some (wordM 0x2A o.d o.a 3 o.ty false (o.limit ++ 0#5))
  | .vlr o => some (wordM 0x2A o.d o.a 4 0 false 0)
  | .vst o => some (wordM 0x2B o.d o.a 0 o.ty o.m o.disp)
  | .vsts o => some (wordM 0x2B o.d o.a 1 o.ty o.m o.disp)
  | .vstb o => some (wordM 0x2B o.d o.a 2 0 o.m o.disp)
  | .vsr o => some (wordM 0x2B o.d o.a 3 0 false 0)
  | .vldx o => some (wordV 0x2C o.d o.a o.b 0 o.ty o.m o.rep o.fa o.fb)
  | .vstx o => some (wordV 0x2C o.d o.a o.b 1 o.ty o.m o.rep o.fa o.fb)
  | .vatadd o => some (wordV 0x2D o.d o.a o.b 0 (pair true o.wide) o.m (trio o.acq o.rel o.ord) o.fa o.fb)
  | .vatfadd o => some (wordV 0x2D o.d o.a o.b 1 (pair true o.wide) o.m (trio o.acq o.rel o.ord) o.fa o.fb)
  | .vatand o => some (wordV 0x2D o.d o.a o.b 2 (pair true o.wide) o.m (trio o.acq o.rel o.ord) o.fa o.fb)
  | .vator o => some (wordV 0x2D o.d o.a o.b 3 (pair true o.wide) o.m (trio o.acq o.rel o.ord) o.fa o.fb)
  | .vatxor o => some (wordV 0x2D o.d o.a o.b 4 (pair true o.wide) o.m (trio o.acq o.rel o.ord) o.fa o.fb)
  | .vatmin o => some (wordV 0x2D o.d o.a o.b 5 (pair true o.wide) o.m (trio o.acq o.rel o.ord) o.fa o.fb)
  | .vatmax o => some (wordV 0x2D o.d o.a o.b 6 (pair true o.wide) o.m (trio o.acq o.rel o.ord) o.fa o.fb)
  | .vatswap o => some (wordV 0x2D o.d o.a o.b 7 (pair true o.wide) o.m (trio o.acq o.rel o.ord) o.fa o.fb)
  | .sbind o => some (wordV 0x2E o.d o.a 0 0 0 false 0 o.fa false)
  | .sunbind n => some (wordV 0x2E n 0 0 1 0 false 0 false false)
  | .sdrain n => some (wordV 0x2E n 0 0 2 0 false 0 false false)
  | .sstat o => some (wordV 0x2E o.d o.a 0 3 0 false 0 false false)
  | .vxf o => some (wordV 0x2F o.d o.a 0 0 o.ty o.m 0 o.fa false)
  | .cbload o => some (wordV 0x2F o.d o.a 0 1 0 false 0 o.fa false)
  | .mgp o => some (wordV 0x30 o.d o.a o.b 0 o.ty o.m o.rep o.fa o.fb)
  | .mwedge o => some (wordV 0x30 o.d o.a o.b 1 o.ty o.m o.rep o.fa o.fb)
  | .mjoin o => some (wordV 0x30 o.d o.a o.b 2 o.ty o.m o.rep o.fa o.fb)
  | .mdot o => some (wordV 0x30 o.d o.a o.b 3 o.ty o.m o.rep o.fa o.fb)
  | .msand o => some (wordV 0x30 o.d o.a o.b 4 o.ty o.m o.rep o.fa o.fb)
  | .msandChk o => some (wordV 0x30 o.d o.a o.b 5 o.ty o.m o.rep o.fa o.fb)
  | .madd o => some (wordV 0x30 o.d o.a o.b 6 o.ty o.m o.rep o.fa o.fb)
  | .msub o => some (wordV 0x30 o.d o.a o.b 7 o.ty o.m o.rep o.fa o.fb)
  | .mrev o => some (wordV 0x31 o.d o.a 0 0 o.ty o.m 0 o.fa false)
  | .mdual o => some (wordV 0x31 o.d o.a 0 1 o.ty o.m 0 o.fa false)
  | .mnorm o => some (wordV 0x31 o.d o.a 0 2 o.ty o.m 0 o.fa false)
  | .munit o => some (wordV 0x31 o.d o.a 0 3 o.ty o.m 0 o.fa false)
  | .mexp o => some (wordV 0x31 o.d o.a 0 4 o.ty o.m 0 o.fa false)
  | .mlog o => some (wordV 0x31 o.d o.a 0 5 o.ty o.m 0 o.fa false)
  | .mproj o => some (wordV 0x31 o.d o.a o.gm 6 o.ty o.m 0 o.fa false)
  | .mscale o => some (wordV 0x31 o.d o.a o.b 7 o.ty o.m o.rep o.fa o.fb)
  | .mld o => some (wordM 0x32 o.d o.a 0 o.ty o.m o.disp)
  | .mst o => some (wordM 0x32 o.d o.a 1 o.ty o.m o.disp)
  | .msetg o => some (wordV 0x33 o.d 0 o.gm 0 o.ty false 0 false false)
  | .mgettag o => some (wordV 0x33 o.d o.a 0 1 0 false 0 false false)
  | .mcvt o => some (wordV 0x33 o.d o.a 0 2 o.ty o.m 0 o.fa false)
  | .ton n => some (wordV 0x34 0 0 (second 0 false n) 0 0 false 0 false false)
  | .toff => some (wordV 0x34 0 0 0 1 0 false 0 false false)
  | .tzero d => some (wordV 0x34 d 0 0 2 0 false 0 false false)
  | .topa o => some (wordV 0x34 o.h o.a o.b 3 o.ty false (0#1 ++ o.count) o.fa o.fb)
  | .tspa o => some (wordV 0x34 (second 0 o.pat o.h) o.a o.b 4 o.ty false o.sel o.fa o.fb)
  | .tmvr o => some (wordV 0x35 o.d o.h o.b 0 o.ty o.m 0 false o.fb)
  | .tmvc o => some (wordV 0x35 o.d o.h o.b 1 o.ty o.m 0 false o.fb)
  | .tmvw o => some (wordV 0x35 o.h o.a o.b 2 o.ty o.m 0 o.fa o.fb)
  | .vspc o => some (wordV 0x36 o.d o.a (second 0 false (pair false o.pat)) 0 o.ty false 0 o.fa false)
  | .vspx o => some (wordV 0x36 o.d o.a (second 0 false (pair false o.pat)) 1 o.ty false 0 o.fa false)
  | .vbox o => some (wordV 0x37 o.d o.a o.b 0 2 o.m 0 o.fa o.fb)
  | .vtri o => some (wordV 0x37 o.d o.a o.b 1 2 o.m 0 o.fa o.fb)
  | .pload o => some (wordV 0x38 0 o.a 0 0 0 false 0 o.fa false)
  | .penq o => some (wordV 0x38 0 o.a 0 1 0 false 0 o.fa false)
  | .pcfg o => some (wordV 0x38 o.d o.a (second 0 false o.sel) 2 0 false 0 o.fa false)
  | .pstat o => some (wordV 0x38 o.d 0 o.q 3 0 false 0 false false)
  | .xcopy o => some (wordV 0x39 0 o.a 0 0 0 false 0 o.fa false)
  | .xtrain o => some (wordV 0x39 0 o.a 0 1 0 false 0 o.fa false)
  | .xcoll o => some (wordV 0x39 0 o.a 0 2 0 false 0 o.fa false)
  | .xpix o => some (wordV 0x39 0 o.a 0 3 0 false 0 o.fa false)
  | .xwharf o => some (wordV 0x39 0 o.a 0 4 0 false 0 o.fa false)
  | .launch o => some (wordV 0x3A o.d o.a 0 0 0 false 0 o.fa false)
  | .cancel o => some (wordV 0x3A o.d o.a (second 0 false o.sel) 1 0 false 0 o.fa false)
  | .emit o => some (wordV 0x3A o.d o.a o.b 2 0 false 0 o.fa o.fb)
  | .bar o => some (wordV 0x3A 0 o.a o.b 3 0 false 0 o.fa o.fb)
  | .wait o => some (wordV 0x3B o.cond o.a o.b 0 (pair true o.wide) false 0 o.fa o.fb)
  | .vwait o => some (wordV 0x3B o.cond o.a o.b 1 (pair true o.wide) o.m 0 o.fa false)
  | .vectorIssue => none
  | .vectorEntryRetire => none
  | .trapEntry => none
  | .scalarPoisonRedecode => none
  | .iterationRehandout => none
  | .critOverrun => none
  | .preemption => none
  | .resume => none
  | .park => none
  | .waitMonitorWake => none
  | .waitWake => none
  | .wtoExpiry => none
  | .barWake => none
  | .tonGrant => none
  | .storePerform => none
  | .loadDataReturn => none
  | .atomicApply => none
  | .streamStripFetch => none
  | .streamStripDrain => none
  | .pontoonDispatch => none
  | .pontoonItemComplete => none
  | .xcopyComplete => none
  | .xwharfWriteComplete => none
  | .xwharfSealComplete => none
  | .xpixApply => none
  | .xpixComplete => none
  | .trainDeliver => none
  | .xtrainComplete => none
  | .xcollComplete => none
  | .dieWriteApply => none
  | .tideWindowStart => none
  | .tideWindowEnd => none
  | .launchStart => none
  | .walkerHandout => none
  | .iterationEnd => none
  | .recordComplete => none
  | .cancelFinalize => none
  | .ferryHandout => none
  | .blobStreamComplete => none
  | .landingPreemptTimeout => none
  | .recheckRun => none
  | .recheckTimeout => none
  | .contextStart => none
  | .contextStop => none
  | .contextFree => none
  | .rootPlace => none
  | .doneInterrupt => none
  | .hostWrite => none
  | .hostRead => none
  | .hostRequestCompletion => none
  | .functionLevelReset => none
  | .packageBoot => none
  | .thermalTrip => none
  | .powerThrottle => none
  | .linkFlitRetry => none
  | .portDown => none
  | .attestationRequest => none
  | .pkstatWrite => none
  | .wharfAllocWrite => none
  | .sselWrite => none
  | .sdataRead => none
  | .mgmtRegisterWrite => none
  | .illegalInstruction => none
  | .instructionFetchFault => none
  | .uncorrectableError => none
  | .engineCommandStart => none
  | .contextStopComplete => none
  | .flrComplete => none
  | .attestationComplete => none
  | .powerThrottleRelease => none
  | .portRetraining => none
  | .portUp => none

/-- The bytes of an instruction as memory holds them (R28: little-endian). -/
def encodeBytes (i : Instr) : List Byte :=
  match encode i with
  | some w => bytesOf 4 w.toNat
  | none => []

end Sys2Proof
end

