-- ==== Sys2Proof/Machine/Float.lean ====
section
/-! DEFINITION. The numbers of R61 to R86: the four floating formats read as exact values, one rounding routine, the
operations that round through it, described blocks and quantisation. Encodings are `Nat`s below 2^width; exact values
are dyadic, so every sum and product is formed exactly before it is rounded (R66). -/

namespace Sys2Proof.Machine

/-! ## Flags (R25, R71) -/

/-- A set of raised flags, in the bit order of R25. -/
abbrev FFlags := BitVec 7

/-- The flags by name (R25). -/
def flagNV : FFlags := 0x01
def flagDZ : FFlags := 0x02
def flagOF : FFlags := 0x04
def flagUF : FFlags := 0x08
def flagNX : FFlags := 0x10
def flagSAT : FFlags := 0x20
def flagGL : FFlags := 0x40

/-- A flag, if a condition holds. -/
def flagIf (c : Bool) (f : FFlags) : FFlags := if c then f else 0

/-! ## Formats (R63, R64) -/

/-- A floating format: width, fraction bits and bias. -/
structure Fmt where
  width : Nat
  frac : Nat
  bias : Nat
  deriving DecidableEq, Repr

/-- The format of a type code: 00 bf16, 01 f16, 10 f32, 11 f64 (R29, R63). -/
def fmtOf (ty : BitVec 2) : Fmt :=
  match ty.toNat with
  | 0 => ⟨16, 7, 127⟩
  | 1 => ⟨16, 10, 15⟩
  | 2 => ⟨32, 23, 127⟩
  | _ => ⟨64, 52, 1023⟩

/-- f32, the format of the tiles, the banks and the rays. -/
def f32 : Fmt := ⟨32, 23, 127⟩

/-- bf16. -/
def bf16 : Fmt := ⟨16, 7, 127⟩

/-- f64. -/
def f64 : Fmt := ⟨64, 52, 1023⟩

/-- The exponent field of all ones. -/
def Fmt.expMax (f : Fmt) : Nat := 2 * f.bias + 1

/-- +∞ of a format. -/
def Fmt.infinity (f : Fmt) : Nat := f.expMax * 2 ^ f.frac

/-- The canonical NaN (R64, R65). -/
def Fmt.nan (f : Fmt) : Nat := f.infinity + 2 ^ (f.frac - 1)

/-- The largest finite number. -/
def Fmt.largest (f : Fmt) : Nat := f.infinity - 1

/-- The sign bit. -/
def Fmt.signBit (f : Fmt) : Nat := 2 ^ (f.width - 1)

/-- The exponent of the smallest subnormal: 1 − B − f. -/
def Fmt.minExp (f : Fmt) : Int := 1 - (f.bias : Int) - (f.frac : Int)

/-- An encoding's value: a NaN, an infinity, or (−1)^neg × m × 2^e. -/
inductive FVal where
  | nan (signalling : Bool)
  | inf (neg : Bool)
  | fin (neg : Bool) (m : Nat) (e : Int)
  deriving DecidableEq, Repr

/-- Whether an encoding is negative. -/
def signOf (f : Fmt) (x : Nat) : Bool := x.testBit (f.width - 1)

/-- The value of an encoding (R64), subnormals kept. -/
def unpack (f : Fmt) (x : Nat) : FVal :=
  let s := signOf f x
  let ex := x / 2 ^ f.frac % 2 ^ (f.width - 1 - f.frac)
  let fr := x % 2 ^ f.frac
  if ex == f.expMax then
    if fr == 0 then .inf s else .nan (!fr.testBit (f.frac - 1))
  else if ex == 0 then .fin s fr f.minExp
  else .fin s (2 ^ f.frac + fr) ((ex : Int) - f.bias - f.frac)

/-- An input read under `fz`: a subnormal becomes a zero of its sign (R69). -/
def readF (f : Fmt) (fz : Bool) (x : Nat) : FVal :=
  match unpack f x with
  | .fin s m e => if fz && decide (m < 2 ^ f.frac) then .fin s 0 e else .fin s m e
  | v => v

/-- An encoding with its sign. -/
def withSign (f : Fmt) (neg : Bool) (mag : Nat) : Nat := if neg then f.signBit + mag else mag

/-- ±∞. -/
def packInf (f : Fmt) (neg : Bool) : Nat := withSign f neg f.infinity

/-! ## Rounding (R66 to R69) -/

/-- The rounding modes: `frm` 0 to 3 (R66). -/
abbrev RMode := BitVec 3

/-- Bits of a number. -/
def bitLen (m : Nat) : Nat := if m == 0 then 0 else m.log2 + 1

/-- A magnitude m × 2^e, plus something below 2^e when `sticky`, as a multiple of 2^q: the truncated multiple, and how
the rest compares with half of 2^q (0 none, 1 below, 2 half, 3 above). -/
def truncAt (m : Nat) (e q : Int) (sticky : Bool) : Nat × Nat :=
  if q ≤ e then (m * 2 ^ (e - q).toNat, if sticky then 1 else 0)
  else
    let sh := (q - e).toNat
    let n := m / 2 ^ sh
    let r := m % 2 ^ sh
    let half := 2 ^ (sh - 1)
    (n, if r < half then (if r == 0 && !sticky then 0 else 1) else if half < r || sticky then 3 else 2)

/-- Whether a magnitude is rounded up (R66). -/
def roundsUp (rm : RMode) (neg : Bool) (n rest : Nat) : Bool :=
  match rm.toNat with
  | 0 => rest == 3 || (rest == 2 && n % 2 == 1)
  | 1 => false
  | 2 => neg && rest != 0
  | 3 => !neg && rest != 0
  | _ => false

/-- The rounded multiple of 2^q, and whether it is inexact. -/
def roundAt (rm : RMode) (neg : Bool) (m : Nat) (e q : Int) (sticky : Bool) : Nat × Bool :=
  let (n, rest) := truncAt m e q sticky
  (if roundsUp rm neg n rest then n + 1 else n, rest != 0)

/-- What an overflow delivers (R66). -/
def overflowTo (f : Fmt) (rm : RMode) (neg : Bool) : Nat :=
  let finite := match rm.toNat with
    | 1 => true
    | 2 => !neg
    | 3 => neg
    | _ => false
  withSign f neg (if finite then f.largest else f.infinity)

/-- A nonzero exact magnitude rounded into a format, with the flags of R66, R68 and R69. -/
def roundMag (f : Fmt) (rm : RMode) (fz : Bool) (neg : Bool) (m : Nat) (e : Int) (sticky : Bool) : Nat × FFlags :=
  let top := (bitLen m : Int) - 1 + e
  let free := (roundAt rm neg m e (top - f.frac) sticky).1
  let emin : Int := 1 - (f.bias : Int)
  let tiny := decide ((if free == 2 ^ (f.frac + 1) then top + 1 else top) < emin)
  if fz && tiny then (withSign f neg 0, flagUF ||| flagNX)
  else
    let q := max (top - f.frac) f.minExp
    let (n, inexact) := roundAt rm neg m e q sticky
    let bits := (q - f.minExp).toNat * 2 ^ f.frac + n
    if f.infinity ≤ bits then (overflowTo f rm neg, flagOF ||| flagNX)
    else (withSign f neg bits, flagIf inexact flagNX ||| flagIf (tiny && inexact) flagUF)

/-- A value rounded into a format. -/
def roundF (f : Fmt) (rm : RMode) (fz : Bool) (v : FVal) : Nat × FFlags :=
  match v with
  | .nan _ => (f.nan, 0)
  | .inf s => (packInf f s, 0)
  | .fin s m e => if m == 0 then (withSign f s 0, 0) else roundMag f rm fz s m e false

/-- NV for a signalling NaN (R65). -/
def signals (v : FVal) : FFlags :=
  match v with
  | .nan true => flagNV
  | _ => 0

/-! ## Exact arithmetic -/

/-- The opposite value. -/
def FVal.neg (v : FVal) : FVal :=
  match v with
  | .nan s => .nan s
  | .inf s => .inf (!s)
  | .fin s m e => .fin (!s) m e

/-- Whether a value is a NaN. -/
def FVal.isNan (v : FVal) : Bool :=
  match v with
  | .nan _ => true
  | _ => false

/-- An infinite value. -/
def FVal.isInf (v : FVal) : Bool :=
  match v with
  | .inf _ => true
  | _ => false

/-- A zero. -/
def FVal.isZero (v : FVal) : Bool :=
  match v with
  | .fin _ 0 _ => true
  | _ => false

/-- The signed numerator of a finite value over 2^q, for q ≤ e. -/
def scaled (s : Bool) (m : Nat) (e q : Int) : Int :=
  let k : Int := ((m * 2 ^ (e - q).toNat : Nat) : Int)
  if s then -k else k

/-- A finite value from an integer multiple of 2^q; zero takes the sign given. -/
def finOf (zeroNeg : Bool) (k q : Int) : FVal := if k == 0 then .fin zeroNeg 0 q else .fin (decide (k < 0)) k.natAbs q

/-- The exact sum of two values, and NV where it is ∞ − ∞. An exact zero is +0, or −0 in mode 2; two zeros of one sign
keep it (R66). -/
def addExact (rm : RMode) (a b : FVal) : FVal × FFlags :=
  match a, b with
  | .nan _, _ => (.nan false, 0)
  | _, .nan _ => (.nan false, 0)
  | .inf s, .inf t => if s == t then (.inf s, 0) else (.nan false, flagNV)
  | .inf s, _ => (.inf s, 0)
  | _, .inf t => (.inf t, 0)
  | .fin s m e, .fin t n g =>
    if m == 0 && n == 0 then (.fin (if s == t then s else rm == 2) 0 e, 0)
    else
      let q := min e g
      (finOf (rm == 2) (scaled s m e q + scaled t n g q) q, 0)

/-- The exact product, and NV where it is 0 × ∞. -/
def mulExact (a b : FVal) : FVal × FFlags :=
  match a, b with
  | .nan _, _ => (.nan false, 0)
  | _, .nan _ => (.nan false, 0)
  | .inf s, .inf t => (.inf (s != t), 0)
  | .inf s, .fin t n _ => if n == 0 then (.nan false, flagNV) else (.inf (s != t), 0)
  | .fin s m _, .inf t => if m == 0 then (.nan false, flagNV) else (.inf (s != t), 0)
  | .fin s m e, .fin t n g => (.fin (s != t) (m * n) (e + g), 0)

/-! ## Operations with one rounding (R66) -/

/-- a + b. -/
def addF (f : Fmt) (rm : RMode) (fz : Bool) (a b : FVal) : Nat × FFlags :=
  let (v, fl) := addExact rm a b
  let (r, g) := roundF f rm fz v
  (r, fl ||| g ||| signals a ||| signals b)

/-- a − b. -/
def subF (f : Fmt) (rm : RMode) (fz : Bool) (a b : FVal) : Nat × FFlags := addF f rm fz a b.neg

/-- a × b. -/
def mulF (f : Fmt) (rm : RMode) (fz : Bool) (a b : FVal) : Nat × FFlags :=
  let (v, fl) := mulExact a b
  let (r, g) := roundF f rm fz v
  (r, fl ||| g ||| signals a ||| signals b)

/-- c + a × b, fused (R65, R66): a product 0 × ∞ raises NV whatever c holds. -/
def fmaF (f : Fmt) (rm : RMode) (fz : Bool) (c a b : FVal) : Nat × FFlags :=
  let (p, fl) := mulExact a b
  let (v, fl') := addExact rm c p
  let (r, g) := roundF f rm fz v
  (r, fl ||| fl' ||| g ||| signals a ||| signals b ||| signals c)

/-- c − a × b, fused. -/
def fnmaF (f : Fmt) (rm : RMode) (fz : Bool) (c a b : FVal) : Nat × FFlags := fmaF f rm fz c a.neg b

/-- a / b. -/
def divF (f : Fmt) (rm : RMode) (fz : Bool) (a b : FVal) : Nat × FFlags :=
  let sig := signals a ||| signals b
  match a, b with
  | .nan _, _ => (f.nan, sig)
  | _, .nan _ => (f.nan, sig)
  | .inf _, .inf _ => (f.nan, flagNV)
  | .inf s, .fin t _ _ => (packInf f (s != t), 0)
  | .fin s _ _, .inf t => (withSign f (s != t) 0, 0)
  | .fin s m e, .fin t n g =>
    if n == 0 then
      if m == 0 then (f.nan, flagNV) else (packInf f (s != t), flagDZ)
    else if m == 0 then (withSign f (s != t) 0, 0)
    else
      let sh := f.frac + 4 + bitLen n - bitLen m
      roundMag f rm fz (s != t) (m * 2 ^ sh / n) (e - g - sh) (m * 2 ^ sh % n != 0)

/-- The integer square root of a number below 4^k. -/
def isqrt : Nat → Nat → Nat
  | 0, _ => 0
  | k + 1, n =>
    let r := 2 * isqrt k (n / 4)
    if (r + 1) * (r + 1) ≤ n then r + 1 else r

/-- √a (R102): √(−0) = −0, below −0 gives NaN with NV. -/
def sqrtF (f : Fmt) (rm : RMode) (fz : Bool) (a : FVal) : Nat × FFlags :=
  match a with
  | .nan s => (f.nan, flagIf s flagNV)
  | .inf s => if s then (f.nan, flagNV) else (packInf f false, 0)
  | .fin s m e =>
    if m == 0 then (withSign f s 0, 0)
    else if s then (f.nan, flagNV)
    else
      let sh0 := 2 * (f.frac + 4)
      let sh := if (e - sh0) % 2 == 0 then sh0 else sh0 + 1
      let n := m * 2 ^ sh
      let r := isqrt (bitLen n / 2 + 1) n
      roundMag f rm fz false r ((e - sh) / 2) (r * r != n)

/-! ## Comparison, minimum and maximum (R70) -/

/-- How two numbers compare: −1, 0, 1. NaNs compare equal to everything: the callers exclude them. -/
def cmpF (a b : FVal) : Int :=
  match a, b with
  | .inf s, .inf t => if s == t then 0 else if s then -1 else 1
  | .inf s, .fin _ _ _ => if s then -1 else 1
  | .fin _ _ _, .inf t => if t then 1 else -1
  | .fin s m e, .fin t n g =>
    let q := min e g
    let x := scaled s m e q
    let y := scaled t n g q
    if x < y then -1 else if x == y then 0 else 1
  | _, _ => 0

/-- Whether either value is a NaN. -/
def unordered (a b : FVal) : Bool := a.isNan || b.isNan

/-- A quiet compare: NV only for signalling NaNs. -/
def quietCmp (p : Int → Bool) (a b : FVal) : Bool × FFlags :=
  (!unordered a b && p (cmpF a b), signals a ||| signals b)

/-- A signalling compare: NV for any NaN. -/
def signallingCmp (p : Int → Bool) (a b : FVal) : Bool × FFlags :=
  (!unordered a b && p (cmpF a b), flagIf (unordered a b) flagNV)

/-- The sign of a number or zero. -/
def FVal.sign (v : FVal) : Bool :=
  match v with
  | .nan _ => false
  | .inf s => s
  | .fin s _ _ => s

/-- An encoding as read under `fz`: a flushed subnormal is a zero of its sign (R69, R70). -/
def flushed (f : Fmt) (fz : Bool) (x : Nat) : Nat :=
  match readF f fz x with
  | .fin s 0 _ => withSign f s 0
  | _ => x

/-- minimumNumber and maximumNumber of two encodings (R70): −0 orders below +0, a NaN loses to a number. -/
def minmaxF (f : Fmt) (fz : Bool) (wantMax : Bool) (x y : Nat) : Nat × FFlags :=
  let a := readF f fz x
  let b := readF f fz y
  let fl := signals a ||| signals b
  if a.isNan && b.isNan then (f.nan, fl)
  else if a.isNan then (flushed f fz y, fl)
  else if b.isNan then (flushed f fz x, fl)
  else
    let c := cmpF a b
    let less := decide (c < 0) || (c == 0 && a.sign && !b.sign)
    (flushed f fz (if less == wantMax then y else x), fl)

/-! ## Conversions (R70) -/

/-- A value rounded to an integer, and whether that was inexact. -/
def toInteger (rm : RMode) (neg : Bool) (m : Nat) (e : Int) : Int × Bool :=
  let (n, inexact) := roundAt rm neg m e 0 false
  (if neg then -(n : Int) else (n : Int), inexact)

/-- The bounds of an integer type of `w` bits. -/
def intLow (w : Nat) (uns : Bool) : Int := if uns then 0 else -((2 ^ (w - 1) : Nat) : Int)

/-- The upper bound. -/
def intHigh (w : Nat) (uns : Bool) : Int := if uns then ((2 ^ w : Nat) : Int) - 1 else ((2 ^ (w - 1) : Nat) : Int) - 1

/-- The encoding of an integer in `w` bits. -/
def wrapInt (w : Nat) (k : Int) : Nat := (k % ((2 ^ w : Nat) : Int)).toNat

/-- Float to integer (R70): saturates, and a NaN gives 0, with NV. -/
def toIntF (rm : RMode) (w : Nat) (uns : Bool) (v : FVal) : Int × FFlags :=
  match v with
  | .nan _ => (0, flagNV)
  | .inf s => (if s then intLow w uns else intHigh w uns, flagNV)
  | .fin s m e =>
    let (k, inexact) := toInteger rm s m e
    if k < intLow w uns then (intLow w uns, flagNV)
    else if intHigh w uns < k then (intHigh w uns, flagNV)
    else (k, flagIf inexact flagNX)

/-- The integer that the low `w` bits of a number hold. -/
def readInt (w : Nat) (uns : Bool) (x : Nat) : Int :=
  let n := x % 2 ^ w
  if !uns && n.testBit (w - 1) then (n : Int) - ((2 ^ w : Nat) : Int) else (n : Int)

/-- Integer to float (R70). -/
def fromInt (f : Fmt) (rm : RMode) (fz : Bool) (k : Int) : Nat × FFlags := roundF f rm fz (finOf false k 0)

/-- Float to float (R66, R70): NV for a signalling NaN. -/
def convertF (f : Fmt) (rm : RMode) (fz : Bool) (v : FVal) : Nat × FFlags :=
  let (r, fl) := roundF f rm fz v
  (r, fl ||| signals v)

/-- `vfrint`'s result: the value rounded to an integer, its sign kept where it is zero. -/
def rintF (f : Fmt) (rm : RMode) (fz : Bool) (v : FVal) : Nat × FFlags :=
  match v with
  | .fin s m e =>
    let (k, inexact) := toInteger rm s m e
    ((roundF f 1 false (finOf s k 0)).1, flagIf inexact flagNX)
  | w => convertF f rm fz w

/-- The class bit of an encoding (R104). -/
def classF (f : Fmt) (x : Nat) : Nat :=
  match unpack f x with
  | .nan s => if s then 0x100 else 0x200
  | .inf s => if s then 0x001 else 0x080
  | .fin s m _ =>
    if m == 0 then (if s then 0x008 else 0x010)
    else if m < 2 ^ f.frac then (if s then 0x004 else 0x020)
    else if s then 0x002 else 0x040

/-- Whether a form converts a float exactly whatever its value: widening (R66, R67). -/
def widens (src dst : BitVec 2) : Bool :=
  match src.toNat, dst.toNat with
  | 0, 2 | 0, 3 | 1, 2 | 1, 3 | 2, 3 => true
  | _, _ => false

/-- Whether an integer width is held exactly by a format (R67). -/
def intExact (w dst : BitVec 2) : Bool :=
  match w.toNat, dst.toNat with
  | 0, _ => true
  | 1, 2 | 1, 3 | 2, 3 => true
  | _, _ => false

/-! ## Integer operations on elements of `w` bits (R61, R62) -/

/-- Modulo 2^w. -/
def maskW (w x : Nat) : Nat := x % 2 ^ w

/-- a − b modulo 2^w. -/
def subW (w a b : Nat) : Nat := (a + 2 ^ w - b % 2 ^ w) % 2 ^ w

/-- Right shift with the sign bit. -/
def sarW (w a n : Nat) : Nat := wrapInt w (readInt w false a / ((2 ^ n : Nat) : Int))

/-- High half of the signed product. -/
def mulhW (w a b : Nat) : Nat := wrapInt w (readInt w false a * readInt w false b / ((2 ^ w : Nat) : Int))

/-- Signed minimum and maximum. -/
def sminW (w a b : Nat) : Nat := if readInt w false a ≤ readInt w false b then a else b
def smaxW (w a b : Nat) : Nat := if readInt w false a ≤ readInt w false b then b else a

/-! ## Stochastic rounding (R81, R82) -/

/-- One step of a converter's register (R81). -/
def lfsrStep (s : BitVec 32) : BitVec 32 :=
  let t := s >>> 1
  if s.getLsbD 0 then t ^^^ 0x80200003#32 else t

/-- The discarded fraction of a magnitude at 2^q, as 24 bits (R82). -/
def discarded24 (m : Nat) (e q : Int) : Nat :=
  if q ≤ e then 0
  else
    let sh := (q - e).toNat
    (m % 2 ^ sh) * 2 ^ 24 / 2 ^ sh

/-- A magnitude at 2^q, rounded stochastically; and whether it is inexact. -/
def stochAt (s : BitVec 32) (m : Nat) (e q : Int) : Nat × Bool :=
  let (n, rest) := truncAt m e q false
  (if decide (s.toNat % 2 ^ 24 < discarded24 m e q) then n + 1 else n, rest != 0)

/-- A value converted stochastically (R82): a finite value never rounds to infinity; subnormals are kept. -/
def stochF (f : Fmt) (s : BitVec 32) (v : FVal) : Nat × FFlags :=
  match v with
  | .nan sg => (f.nan, flagIf sg flagNV)
  | .inf neg => (packInf f neg, 0)
  | .fin neg m e =>
    if m == 0 then (withSign f neg 0, 0)
    else
      let top := (bitLen m : Int) - 1 + e
      let q := max (top - f.frac) f.minExp
      let (n, inexact) := stochAt s m e q
      let free := (stochAt s m e (top - f.frac)).1
      let tiny := decide ((if free == 2 ^ (f.frac + 1) then top + 1 else top) < 1 - (f.bias : Int))
      let bits := (q - f.minExp).toNat * 2 ^ f.frac + n
      if f.infinity ≤ bits then (withSign f neg f.largest, flagOF ||| flagNX)
      else (withSign f neg bits, flagIf inexact flagNX ||| flagIf (tiny && inexact) flagUF)

/-! ## Described blocks (R75 to R79) -/

/-- E(b), the elements of a block of width b (R76). -/
def blockElems (b : Nat) : Nat := 496 / b

/-- The format byte of a 64-byte block. -/
def blockFormat (blk : Nat) : Nat := blk % 256

/-- The scale byte. -/
def blockScaleByte (blk : Nat) : Nat := blk / 256 % 256

/-- The payload. -/
def blockPayload (blk : Nat) : Nat := blk / 65536

/-- Whether a format byte is legal (R75). -/
def legalFormat (b : Nat) : Bool := (decide (2 ≤ b) && decide (b ≤ 8)) || b == 0xFF

/-- Whether a block reads as zero: a zero block or a hole (R77). -/
def blockIsZero (blk : Nat) : Bool := blockFormat blk == 0xFF || blockScaleByte blk == 0x80

/-- The scale of an ordinary block. -/
def blockScale (blk : Nat) : Int := readInt 8 false (blockScaleByte blk)

/-- Mantissa i of a block of width b (R76). -/
def blockMant (b blk i : Nat) : Int := readInt b false (blockPayload blk / 2 ^ (i * b))

/-- The value of element i of a block (R77). -/
def blockValue (blk i : Nat) : FVal :=
  if blockIsZero blk then .fin false 0 0 else finOf false (blockMant (blockFormat blk) blk i) (blockScale blk)

/-- A hole as the device writes it (R77). -/
def holeBlock : Nat := 0xFF

/-- A block as the device writes it: zero spare bits, a zero payload for a zero block, a hole as 0xFF (R77). -/
def cleanBlock (blk : Nat) : Nat :=
  if blockFormat blk == 0xFF then holeBlock
  else if blockScaleByte blk == 0x80 then blk % 65536
  else blk % 65536 + 65536 * (blockPayload blk % 2 ^ (blockElems (blockFormat blk) * blockFormat blk))

/-- A block from its scale and mantissas (R75, R76). -/
def packBlock (b : Nat) (e : Int) (ms : List Int) : Nat :=
  if ms.all (· == 0) then b + 256 * 0x80
  else b + 256 * wrapInt 8 e + 65536 * (ms.foldr (fun m acc => wrapInt b m + 2 ^ b * acc) 0)

/-- The smallest e with a magnitude m × 2^g at most M × 2^e. -/
def blockExp (bigM m : Nat) (g : Int) : Int :=
  let e0 := (bitLen m : Int) - (bitLen bigM : Int) + g
  -- bitLen m = bitLen (M * 2^k) + 0 or 1 at the boundary: e0 or e0 + 1
  let le (e : Int) : Bool :=
    let q := min e g
    decide (m * 2 ^ (g - q).toNat ≤ bigM * 2 ^ (e - q).toNat)
  if le e0 then e0 else e0 + 1

/-- Whether a magnitude exceeds M × 2^e. -/
def exceeds (m : Nat) (g : Int) (bigM : Nat) (e : Int) : Bool :=
  let q := min e g
  decide (bigM * 2 ^ (e - q).toNat < m * 2 ^ (g - q).toNat)

/-- The largest finite magnitude of a list, as (m, e). -/
def maxMag : List FVal → Nat × Int
  | [] => (0, 0)
  | v :: vs =>
    let (m, e) := maxMag vs
    match v with
    | .fin _ n g =>
      let q := min e g
      if m * 2 ^ (e - q).toNat < n * 2 ^ (g - q).toNat then (n, g) else (m, e)
    | _ => (m, e)

/-- One element's mantissa and flags in quantisation (R79). `draw` is the converter's state in the copy path. -/
def quantElem (bigM : Nat) (e : Int) (sat : Bool) (draw : Option (BitVec 32)) (v : FVal) : Int × FFlags :=
  match v with
  | .nan _ => (0, flagNV)
  | .inf s => (if s then -(bigM : Int) else (bigM : Int), flagOF)
  | .fin s m g =>
    let (q0, inexact) := match draw with
      | none => roundAt 0 s m g e false
      | some st => stochAt st m g e
    let beyond := sat && exceeds m g bigM 127
    let clamp := decide (bigM < q0)
    let q := if clamp then bigM else q0
    (if s then -(q : Int) else (q : Int),
      flagIf (beyond || clamp) (flagOF ||| flagSAT) ||| flagIf (inexact || clamp) flagNX |||
        flagIf (q == 0 && m != 0) flagUF)

/-- Quantising up to E(b) values into one block (R79): the block, and the flags of each element. `draws` holds the
converter states of the elements in the copy path, and is empty for rounding to nearest even. -/
def quantBlock (b : Nat) (xs : List FVal) (draws : List (BitVec 32)) : Nat × List FFlags :=
  let bigM := 2 ^ (b - 1) - 1
  let (m, g) := maxMag xs
  let anyInf := xs.any fun v => match v with
    | .inf _ => true
    | _ => false
  let e0 : Int := if m == 0 then (if anyInf then 127 else -127) else blockExp bigM m g
  let sat := decide (127 < e0)
  let e := max (-127) (min 127 e0)
  let rs := xs.zipIdx.map fun (v, i) => quantElem bigM e sat draws[i]? v
  (packBlock b e (rs.map Prod.fst), rs.map Prod.snd)

end Sys2Proof.Machine
end

