-- ==== Sys2Proof/Config.lean ====
section
/-! DEFINITION. What an implementation fixes, and the free values: constants without a body, which no proof can see. -/

namespace Sys2Proof.Config

/-- Installed main memory of each compute die in bytes (R288: populated from 0 up to the installed capacity; R1).
DESIGN CHOICE (log 23): the largest capacity, twelve links of 256 GiB a die (R1). -/
def dieCapacity : Nat := 12 * 256 * 2 ^ 30

/-- A byte that the spec leaves undefined: core scratch at iteration start (R163), cluster scratch when reserved (R266),
the batch window beyond its records, keyed by the reservation and the offset (log 20). -/
opaque freeByte : Nat → Nat → Byte

/-- A byte of host memory that nothing in the model has written or answered (R288, R362; log 22). -/
opaque hostByte : Nat → Byte

/-- Whether an access uses the old translation rather than the changed one, before a `tlbinv` (R293; log 12). -/
opaque useStale : Nat → Bool

/-- Which of its old and new values an element holds after a command that failed (R242, R306, R308, R380; log 13). -/
opaque keepOld : Nat → Nat → Bool

/-- The placement constant of a skew within a 1 GiB block: a line of the block is stored at its number XOR this one
(R289: one to one, and not architectural; log 21). -/
opaque skewKey : Nat → Nat → BitVec 24

/-- The arrival order of the elements of a vector atomic without `.ord`: elements are applied in the order of these keys
(R175: mutually unordered; log 9). -/
opaque arrival : Nat → Nat → Nat

/-- The flags in the status word of a command or task that failed after it had begun (R241; log 13). -/
opaque failFlags : Nat → BitVec 7

/-- The state of a converter after a copy that failed: how many elements it had converted is not stated (R81, R306; log
13). -/
opaque converterAfter : Nat → Nat → BitVec 32

/-- Which copy engine of its die runs a copy, by the command's number (R305: not architectural; log 6). -/
opaque copyEngine : Nat → Nat

/-- Which image entry a store of a loaded store image waits on: the save area does not record it (R128; log 34). -/
opaque storeAfter : Nat → Nat → Nat

/-- A component of `mexp` or `mlog`, which the spec bounds but does not state (R197; log 11). -/
opaque mexpValue : Nat → BitVec 32

/-- The address that `tval` receives from a `vxf` whose slot holds no codebook (R181: the slot's codebook address; log
27). -/
opaque noBook : Nat → Word

/-- The sign of a zero that `vbox` or `vtri` delivers (R277, R278: the exact value 0 is rounded, and no sign is given;
log 30). -/
opaque zeroSign : Nat → Bool

/-- Whether `vspc` reads type code 1, 2 or 3 as an integer type: R214 lets ty be any type of R61 or R63, and its word
has no bit that tells the two apart (log 29). -/
opaque vspcInteger : BitVec 2 → Bool

/-- Drawn power of a die in units of 1/8 W (R363 `pwrnow`; log 7). -/
opaque power : Nat → Word

/-- What straps and firmware put into `pkinfo` (R363, R368; log 7). -/
opaque straps : Word

/-- `pkinfo` (R363): four dies in [11:8] (R353) and 256 GiB a link in [31:16], as `dieCapacity` has it (log 23); the
other bits are those of the straps. -/
def pkinfo : Word := (straps &&& 0xFFFFFFFF0000F0FF) ||| 0x01000400

/-- The package number that the straps give, before software writes `pkno` (R372; log 7). -/
opaque strapNumber : BitVec 12

/-- Bytes of the public key, digests and signatures that Nolay writes (R368 to R370; log 7). -/
opaque nolayByte : Nat → Nat → Byte

/-- The values that other ranks contribute are given by the fabric; this is the value of a rank that the delivered
contributions do not list (R379, R380; log 19). -/
opaque rankByte : Nat → Nat → Byte

/-- A byte that an all-gather of blocks delivers where the elements of two ranks meet in one block (R379: the values are
copied bit for bit, and the block's scale is not stated; log 33). -/
opaque gatherByte : Nat → Nat → Byte

/-- Whether the recheck run of an entry differs from its first run (R345: a transient error; log 18). -/
opaque recheckDiffers : Nat → Bool

end Sys2Proof.Config
end

