-- ==== Sys2Proof/Machine/State.lean ====
section
/-! DEFINITION. The state of the package: every piece of state the spec names, as plain data, and its value after
reset. INVENTORY.md lists each field with its rule and its reset value. -/

namespace Sys2Proof.Machine

/-- The reasons a run stops. -/
inductive Fault where
  /-- Raised by `step` after a thermal trip, or with firmware that failed verification, when no outside event is left:
  only a package reset resumes operation (R367, R371). Safe: the spec gives the package no further step. -/
  | packageStopped
  deriving DecidableEq, Repr

/-- Instructions without a meaning in the model. -/
inductive Refusal where
  /-- Raised by `exec` for an instruction of the table that the model gives no meaning. Safe: the run stops. -/
  | notModelled (mnemonic : String)
  deriving DecidableEq, Repr

/-- The privilege levels (R20). -/
inductive Level where
  | user
  | supervisor
  deriving DecidableEq, Repr

/-- How far the scalar side runs ahead (R118 leaves the distance open; the MODEL's own field, log 1). -/
inductive Pace where
  /-- every queued effect takes place before the next instruction is decoded -/
  | lockstep
  /-- queued effects take place when a step of the device says so -/
  | runAhead
  deriving DecidableEq, Repr

/-- Where a checked access goes, fixed when it is translated (R293: each access is translated once). -/
inductive Place where
  /-- device memory or the staging SRAM, at this storage address (R288, R289) -/
  | mem (addr : Nat)
  /-- host memory, at this bus address (R362) -/
  | host (addr : Nat)
  /-- the running iteration's core scratch (R163) -/
  | scratch (off : Nat)
  /-- the launch's range of the cluster-scratch window (R266) -/
  | cscratch (off : Nat)
  /-- the batch window (R265) -/
  | batch (off : Nat)
  /-- the blob window (R265) -/
  | blob (off : Nat)
  deriving DecidableEq, Repr

/-! ## A strand -/

/-- An entry of the vector queue (R18), with the raised set of R74. -/
structure QEntry where
  instr : Instr
  pc : Word
  /-- captured x values of the fields a, b and d, else 0 (R129) -/
  a : Word := 0
  b : Word := 0
  d : Word := 0
  vs : Word := 0
  vl : BitVec 12 := 0
  vgm : BitVec 5 := 0
  frm : BitVec 3 := 0
  fz : Bool := false
  raised : BitVec 7 := 0
  /-- the decode copies of the tags of a and b when it was pushed, and the tags that it writes (R187) -/
  ta : Byte := 0
  tb : Byte := 0
  wtags : List (Reg × Byte) := []
  /-- place in program order: the MODEL's own stamp -/
  seq : Nat := 0
  /-- its unit has started it (R161) -/
  started : Bool := false
  /-- the entry runs again after a trap or a pre-emption (R120) -/
  reissued : Bool := false
  /-- pushed while `rchk` was 1 (R345), and the recheck copy has agreed -/
  recheck : Bool := false
  rechecked : Bool := false
  /-- replayed once for poison (R343), once for a mismatch (R345) -/
  poisonReplay : Bool := false
  mismatchReplay : Bool := false
  /-- flags of the scalar floating instructions that were decoded after it and before the next entry (R73) -/
  scalar : BitVec 7 := 0
  /-- the v registers that it reads, those of them marked trap-if-empty (R15), and those that it writes -/
  srcs : List Reg := []
  marked : List Reg := []
  dsts : List Reg := []
  /-- the x register that it fills, or x0 (R14) -/
  xd : Reg := 0
  /-- it does not read `vl` (R142) -/
  lengthless : Bool := false
  deriving DecidableEq, Repr

/-- An entry of the store queue: a scalar store or a scalar atomic (R98). -/
structure SEntry where
  seq : Nat
  /-- the youngest older queue entry that must retire first (R97) -/
  after : Option Nat
  /-- the instruction word's instruction, kept for the store image (R128) -/
  instr : Instr
  addr : Word
  place : Place
  /-- bytes written -/
  size : Nat
  data : Word
  /-- the compare value of an `atcas` -/
  cmp : Word
  /-- for an atomic: the register that receives the old value -/
  dest : Option Reg
  /-- sent to another die and not yet applied there (R323) -/
  sent : Bool := false
  /-- the address of the instruction (R346) -/
  pc : Word := 0
  /-- an atomic that has met poison once (R344) -/
  again : Bool := false
  /-- bytes of the page that its translation came from, 0 for a window (R293, R294) -/
  page : Nat := 0
  deriving DecidableEq, Repr

/-- A scalar load in flight (R97). -/
structure LoadFlight where
  seq : Nat
  dest : Reg
  addr : Word
  place : Place
  size : Nat
  signed : Bool
  /-- the youngest older queue entry that touches memory, which must retire first (R320, R321) -/
  after : Option Nat := none
  /-- the address of the instruction (R346) -/
  pc : Word := 0
  /-- it has met poison once (R344) -/
  again : Bool := false
  /-- bytes of the page that its translation came from, 0 for a window (R293, R294) -/
  page : Nat := 0
  deriving DecidableEq, Repr

/-- An event record (R301). -/
structure EvRec where
  user : BitVec 32
  tag : BitVec 16
  status : Byte
  source : BitVec 4
  desc : Word
  fault : Word
  deriving DecidableEq, Repr

/-- The event of a completed command or item on its way to its iteration (R109, R240). -/
structure Post where
  id : Nat
  die : Nat
  ctx : BitVec 12
  iter : Nat
  event : EvRec
  deriving DecidableEq, Repr

/-- A strip that a stream unit holds (R178, R179). -/
structure Strip where
  data : VReg
  count : Nat
  /-- the first element whose access faulted, with cause and address -/
  bad : Option (Nat × BitVec 8 × Word) := none
  /-- of an output strip: the address and place of each element, and the bytes of the page that translated it -/
  places : List (Word × Place × Nat) := []
  deriving DecidableEq, Repr

/-- The binding of one of v24 to v31 (R176 to R179). -/
structure Stream where
  desc : Word
  base : Word
  counts : Nat × Nat × Nat × Nat
  strides : Word × Word × Word × Word
  width : BitVec 2
  output : Bool
  codebook : Bool
  slot : BitVec 2
  strip : Nat
  /-- elements popped or written so far -/
  pos : Nat
  /-- strips fetched ahead, or strips still to be written -/
  buf : List Strip
  deriving DecidableEq, Repr

/-- An asynchronous trap that waits for its boundary (R121). -/
structure Pending where
  cause : BitVec 8
  tval : Word
  /-- the structure that the machine-check log names (R351) -/
  unit : Nat := 0
  deriving DecidableEq, Repr

/-- A trap of the instruction at pc that has been raised and waits for the older entries and loads (R122). -/
structure Held where
  cause : BitVec 8
  tval : Word
  tepc : Word
  deriving DecidableEq, Repr

/-- What one instruction changed on the scalar side while a load or an atomic decoded before it was in flight: the MODEL's
own record, by which the strand goes back to that access (R122, R344; log 84). -/
structure Undo where
  /-- the stamp of the instruction, where it took one -/
  stamp : Option Nat
  /-- it was pushed into the vector queue -/
  pushed : Bool
  /-- x registers that it wrote or emptied: value and poison before it -/
  x : List (Reg × Word × Bool)
  /-- control registers that it changed: index and value before it -/
  cr : List (Nat × Word)
  /-- the critical section and the tiles owned before it -/
  crit : Bool
  critCount : Nat
  critDepth : Nat
  tonOwned : BitVec 3
  /-- the event record that an `evpop` took from the queue, now or when its claim was filled -/
  event : Option EvRec
  /-- the register of a claim that it made -/
  claim : Option Reg
  deriving DecidableEq, Repr

/-- A tile request that waits (R202, R203). -/
structure TonReq where
  tiles : Nat
  /-- order in which the requests of a core were made -/
  stamp : Nat
  /-- made by a `ton` at pc, which the grant completes; else by a restore -/
  decode : Bool
  /-- made by the restore of a saved iteration, which goes on once it is granted (R202) -/
  resume : Bool := false
  deriving DecidableEq, Repr

/-- What a strand is doing (R124). -/
inductive Run where
  | idle
  | running
  /-- stopped with a held image; the cause of the trap that could not be taken -/
  | stopped (cause : BitVec 8)
  deriving DecidableEq, Repr

/-- What a strand that takes no issue slots waits for (R116, R183, R279). -/
inductive Sleep where
  | awake
  /-- a `wait` on this address -/
  | word (addr : Word)
  /-- a `bar` on this word, until its phase changes -/
  | barrier (addr : Word) (phase : BitVec 32)
  deriving DecidableEq, Repr

/-- The kinds of iteration (R252, R356). -/
inductive Work where
  | none
  | root
  | launch
  | batch
  deriving DecidableEq, Repr

/-- The iteration of a strand, as the walker retains it (R258, R351). -/
structure Iter where
  work : Work := .none
  /-- stamp of the iteration: order of starts, and issuer identity of commands -/
  id : Nat := 0
  /-- loop-nest or node record -/
  recAddr : Word := 0
  /-- number of the launch in the model's list -/
  launch : Nat := 0
  /-- graph record, for a batch or a launch with a parent -/
  graph : Word := 0
  node : Nat := 0
  /-- step counts t0 .. t3 -/
  steps : Nat × Nat × Nat × Nat := (0, 0, 0, 0)
  number : Nat := 0
  prio : Nat := 0
  /-- records of the batch, and emissions left to deeper nodes and to its own node (R269) -/
  records : Nat := 0
  deeper : Nat := 0
  own : Nat := 0
  /-- emissions of the batch to each deeper node (R270) -/
  sent : List (Nat × Nat) := []
  /-- a store, command or emission has left the iteration (R352) -/
  effects : Bool := false
  rehanded : Bool := false
  /-- slot of the save pool, if one is taken (R296) -/
  slot : Option Nat := none
  /-- subtree buffer shown in the blob window (R272) -/
  buffer : Option Nat := none
  /-- the blob is still streaming -/
  streaming : Bool := false
  /-- stream units and tiles reserved until endit (R258) -/
  streams : Nat := 0
  tiles : Nat := 0
  /-- endit has been decoded and waits to retire (R113) -/
  ending : Bool := false
  /-- records under whose cancellation it runs (R263) -/
  cancelled : Bool := false
  /-- the cause with which it ended without a handler (R264) -/
  cause : BitVec 8 := 0
  deriving DecidableEq, Repr

/-- The state of one strand. -/
structure Strand where
  x : Vector Word 32
  xfull : BitVec 32
  /-- x registers that a load or atomic in flight will fill (R97, R100) -/
  xpend : BitVec 32
  xpoison : BitVec 32
  v : Vector VReg 32
  vfull : BitVec 32
  /-- poisoned 8-byte words: of v registers as 256 * register + word, of tiles as 8192 + 512 * tile + word (R342) -/
  vpoison : List Nat
  gtag : Vector Byte 32
  /-- the decode copy of each tag (R187) -/
  dtag : Vector Byte 32
  pc : Word
  level : Level
  vl : BitVec 12
  vlFull : Bool
  vs : Word
  vgm : BitVec 5
  vstart : BitVec 12
  vdirty : BitVec 36
  vfrem : BitVec 32
  fflags : BitVec 7
  ffirst : Vector (BitVec 16) 7
  frm : BitVec 3
  fz : Bool
  trp : BitVec 32
  tcp : BitVec 32
  tonOwned : BitVec 3
  /-- the request that waits for its grant: `ton`.pend (R27, R203) -/
  tonPend : Option TonReq
  tiles : Vector TileReg 4
  xresume : BitVec 32
  wto : BitVec 32
  cbsel : BitVec 2
  vm : MaskReg
  vsg : MaskReg
  /-- idctx: the context whose work the strand runs (R22, R354) -/
  ctx : BitVec 12
  queue : List QEntry
  /-- the queue image held while a handler runs (R122, R124) -/
  image : List QEntry
  stores : List SEntry
  loads : List LoadFlight
  events : List EvRec
  /-- records that found no place there and are held until an entry is free (R296) -/
  notices : List EvRec
  /-- records written to the spill ring so far (R301) -/
  spills : Nat
  claims : List Reg
  crit : Bool
  critCount : Nat
  /-- handlers entered inside the section that have not returned: while there is one the section is suspended (R111) -/
  critDepth : Nat
  streams : List (Nat × Stream)
  /-- the arrival mark of `bar` (R280) -/
  mark : Option (Word × BitVec 32)
  tvec : Word
  tcause : BitVec 10
  tval : Word
  tepc : BitVec 56
  ppl : Level
  held : Bool
  skip : Bool
  tscratch : Word
  prio : BitVec 2
  rchk : Bool
  svbase : Word
  pending : List Pending
  /-- decoding has stopped for this trap (R122) -/
  hold : Option Held
  run : Run
  sleep : Sleep
  /-- the time-out of the wait in progress has passed (R116) -/
  timedOut : Bool
  /-- a `vwait` at the head of the queue sleeps, and its time-out has passed (R182, R183) -/
  watch : Bool
  watchOut : Bool
  iter : Iter
  scratch : List Host.Cell
  scratchSize : Nat
  /-- identifies the reservation, for its undefined contents -/
  scratchEpoch : Nat
  batch : List Host.Cell
  batchSize : Nat
  /-- poisoned lines of the core scratch and of the batch window (R342) -/
  scratchBad : List Nat
  batchBad : List Nat
  /-- address of a scalar instruction that consumed poison once (R344) -/
  redecode : Option Word
  /-- what the instructions after an access in flight have changed, newest first: the MODEL's own field (log 84) -/
  undo : List Undo
  /-- the next stamp of program order: the MODEL's own field -/
  seq : Nat
  /-- the instruction at pc could not complete: the MODEL's own field -/
  waiting : Bool
  deriving DecidableEq, Repr

/-! ## Cores and clusters -/

/-- A loaded codebook (R180). -/
structure Codebook where
  addr : Word
  iw : Nat
  etype : BitVec 2
  entries : List Nat
  deriving DecidableEq, Repr

/-- The state of a core. -/
structure CoreSt where
  codebooks : Vector (Option Codebook) 4
  /-- the strand that started an instruction last (R161) -/
  lastStart : Nat
  deriving DecidableEq, Repr

/-- A Pontoon bank: blocks by 4 * column + slot; a block that is not listed is a hole (R222, R223). -/
structure Bank where
  owner : Option (BitVec 12)
  blocks : List (Nat × BitVec 512)
  /-- poisoned blocks, numbered likewise -/
  poisoned : List Nat
  /-- the launch it is reserved to -/
  reserved : Option Nat
  deriving DecidableEq, Repr

/-- An item of a cluster's task queue (R225). -/
structure Item where
  id : Nat
  load : Bool
  recAddr : Word
  bytes : List Byte
  strand : Nat
  ctx : BitVec 12
  iter : Nat
  launch : Nat
  running : Bool
  /-- completes with status 0x07 (R245) -/
  cancelled : Bool
  /-- dispatched a second time after poison (R352) -/
  again : Bool
  /-- what the checks at the dispatch of a task found (R229): its status, 0 where it runs -/
  verdict : Nat := 0
  /-- rows of A that the row buffer of the running task holds poisoned (R352; log 100) -/
  badRows : List Nat := []
  deriving DecidableEq, Repr

/-- A curve table (R236). -/
structure Curve where
  x0 : BitVec 32
  wexp : Byte
  segs : List (BitVec 32 × BitVec 32)
  deriving DecidableEq, Repr

/-- An installed dendritic configuration (R237). -/
structure DendCfg where
  ctx : BitVec 12
  branches : Nat
  /-- start, count and branch of each range -/
  ranges : List (Nat × Nat × Nat)
  curves : List Curve
  deriving DecidableEq, Repr

/-- A launch's range of the cluster-scratch window (R266). -/
structure CRange where
  launch : Nat
  size : Nat
  epoch : Nat
  cells : List Host.Cell
  /-- poisoned lines (R342) -/
  bad : List Nat
  deriving DecidableEq, Repr

/-- A subtree buffer (R265, R272). -/
structure SubBuf where
  ctx : BitVec 12
  blob : Word
  data : List Byte
  /-- order of its last use -/
  used : Nat
  /-- poisoned lines (R342) -/
  bad : List Nat
  deriving DecidableEq, Repr

/-- The state of a cluster. -/
structure ClusterSt where
  banks : Vector Bank 8
  items : List Item
  cfgs : Vector (Option DendCfg) 4
  ranges : List CRange
  buffers : Vector (Option SubBuf) 8
  deriving DecidableEq, Repr

/-! ## Dies -/

/-- A translation that a TLB holds: virtual page, its size, and the leaf entry (R293). -/
structure TlbEntry where
  ctx : BitVec 12
  vpage : Nat
  pageSize : Nat
  leaf : Word
  deriving DecidableEq, Repr

/-- A machine-check log entry (R351). -/
structure McEntry where
  cause : BitVec 8
  strand : Nat
  tval : Word
  tepc : Word
  unit : Nat
  deriving DecidableEq, Repr

/-- The state of a compute die. -/
structure DieSt where
  wharf : List Host.Cell
  wharfPoison : List Nat
  /-- seal counts as bindings of a region to a launch (R298) -/
  seals : List (Nat × Nat)
  tlb : List TlbEntry
  tideIn : Bool
  tideNext : Nat
  tideLen : Nat
  corrected : Nat
  poisonUses : Nat
  replays : Nat
  mismatches : Nat
  /-- newest first, at most 16 -/
  mclog : List McEntry
  clock : Vector Nat 5
  clockMHz : Nat
  /-- the member of the ring of R259 that was served last, for each priority -/
  rings : Vector Nat 4
  deriving DecidableEq, Repr

/-! ## Engines -/

/-- The engine of a command (R300, R374). -/
inductive Engine where
  | copy
  | train
  | coll
  | pix
  | wharf
  deriving DecidableEq, Repr

/-- A destination package's acknowledgement of a train (R375, R376): its status, with the index and the address of its
lowest element that faulted. -/
structure Reply where
  package : Nat
  status : Byte
  index : Nat
  addr : Word
  deriving DecidableEq, Repr

/-- An engine command with its snapshots (R300). -/
structure Cmd where
  id : Nat
  engine : Engine
  desc : Word
  bytes : List Byte
  /-- the shape, frame-buffer or group record it names, and what it has read since: fragments, train elements -/
  extra : List Byte
  strand : Nat
  ctx : BitVec 12
  iter : Nat
  die : Nat
  started : Bool
  cancelled : Bool
  /-- dies that have applied a primitive -/
  acks : List Nat
  /-- packages that have acknowledged a train -/
  replies : List Reply := []
  /-- the status and the fault address found so far -/
  status : BitVec 32
  fault : Word
  deriving DecidableEq, Repr

/-- A registered frame buffer (R311). -/
structure Frame where
  ctx : BitVec 12
  recAddr : Word
  seq0 : BitVec 32
  received : List (BitVec 32)
  /-- next sequence number of each die -/
  next : Vector (BitVec 32) 4
  deriving DecidableEq, Repr

/-! ## Launches and graphs -/

/-- An accepted launch (R254 to R260). -/
structure Launch where
  id : Nat
  ctx : BitVec 12
  recAddr : Word
  /-- the 128 bytes of its record -/
  bytes : List Byte
  die : Nat
  prio : Nat
  total : Nat
  next : Nat
  live : Nat
  started : Bool
  cancelled : Bool
  /-- the strand that launched it (R255) -/
  strand : Nat
  /-- clusters in which banks and cluster scratch are reserved -/
  clusters : List Nat
  cause : BitVec 8
  deriving DecidableEq, Repr

/-- A node of an active graph (R267 to R271). -/
structure Node where
  recAddr : Word
  bytes : List Byte
  /-- queued records with their arrival stamps, oldest first -/
  queue : List (Nat × List Byte)
  passes : Nat
  promoted : Option Nat
  deriving DecidableEq, Repr

/-- An active graph (R253, R255, R268). -/
structure Graph where
  id : Nat
  ctx : BitVec 12
  recAddr : Word
  bytes : List Byte
  die : Nat
  prio : Nat
  nodes : List Node
  cancelled : Bool
  cause : BitVec 8
  deriving DecidableEq, Repr

/-- A cancelled record whose final writes are still to come (R263). -/
structure Cancelled where
  ctx : BitVec 12
  recAddr : Word
  /-- 0 launch, 1 graph, 2 phase, 3 job -/
  level : Nat
  /-- the record that the cancel named -/
  handle : Word
  handleLevel : Nat
  deriving DecidableEq, Repr

/-- A decrement of a record's counter that reaches zero and is still to be performed with the final write (R250). -/
structure Finish where
  ctx : BitVec 12
  recAddr : Word
  level : Nat
  amount : Nat
  deriving DecidableEq, Repr

/-- A pre-empted iteration (R131), or a parked root (R133). -/
structure Saved where
  /-- the strand it ran on -/
  home : Nat
  area : Word
  /-- what the save area does not hold -/
  strand : Strand
  parked : Bool
  deriving DecidableEq, Repr

/-- A parked wait (R133): the iteration that the wait monitor holds, what it watches, and whether a write has changed
the line since. -/
structure Monitor where
  iter : Nat
  addr : Word
  place : Place
  cond : BitVec 5
  wide : Bool
  operand : Nat
  woken : Bool
  deriving DecidableEq, Repr

/-- A write on its way to another die (R323). -/
structure DieWrite where
  strand : Nat
  seq : Nat
  source : Nat
  dest : Nat
  clock : Vector Nat 5
  deriving DecidableEq, Repr

/-! ## Contexts and the package -/

/-- A record of the undo log (R347). -/
structure UndoRec where
  index : Nat
  /-- the storage line -/
  line : Nat
  /-- the skew of the page under which it was logged (R289) -/
  skew : Nat
  /-- where its first line and its data were written -/
  place : Nat
  data : Nat
  poisoned : Bool
  deriving DecidableEq, Repr

/-- A context: its record (R354) and the state that its strands share. -/
structure CtxSt where
  /-- the 128 bytes of the record, byte 0 in the low bits -/
  record : BitVec 1024
  ulbase : Word
  ullim : Word
  ulSeq : BitVec 32
  ulBad : Bool
  ulLog : List UndoRec
  /-- an interval has been started by `chkpt` -/
  ulOn : Bool
  /-- the iteration whose chkpt started it -/
  ulOwner : Nat
  rootEnded : Bool
  /-- the submission line has been written since the root ended -/
  subHit : Bool
  /-- vectors of the interrupts still to be raised: one for each write to `done` by the device while notify[0] was 1
  (R358) -/
  doneHits : List Byte
  /-- save-pool slots in use (R296) -/
  slots : List Nat
  /-- LFSR states of the converters (R81, R351): converter j of copy engine c of a die is number 256 × die + 64 c + j; one
  that is not listed holds 1 -/
  converters : List (Nat × BitVec 32)
  deriving DecidableEq, Repr

/-- A fabric port (R363). -/
structure Port where
  up : Bool
  retraining : Bool
  lanes : Byte
  deriving DecidableEq, Repr

/-- `pkstat` (R364) and the registers of the management window that are not plain bytes of it (R363). -/
structure Mgmt where
  ready : Bool
  recovery : Bool
  trip : Bool
  mgerr : Bool
  pkno : BitVec 12
  pwrlim : Nat
  ports : Vector Port 16
  /-- bytes of `vfctx`, `vfmem`, `wharf`, `route` and `mbox`, by window offset -/
  win : List Host.Cell
  /-- selected words of the state windows, by function (R360) -/
  ssel : List (Nat × Word)
  /-- functions being reset (R365) -/
  flr : List Nat
  /-- function of the attestation request in progress (R370) -/
  attest : Option Nat
  /-- interrupts raised: function and vector (R358) -/
  msix : List (Nat × Byte)
  /-- answers given to host reads, newest first (R324) -/
  answers : List (List Byte)
  deriving DecidableEq, Repr

/-- What comes next, ahead of the strand in focus: the MODEL's own queue of the steps of the device and of the outside
world (log 1). -/
inductive Input where
  /-- a step of the device on strand `n`, with its operands -/
  | dev (i : Instr) (n : Nat) (args : StepArgs)
  /-- strand `n` moves next -/
  | focus (n : Nat)
  /-- the TLB of a die takes up the translation of an address for the strand in focus (R293) -/
  | tlbFill (va : Word)
  /-- a code corrects an error on a die (R341) -/
  | corrected (die : Nat)
  | pace (p : Pace)
  deriving DecidableEq, Repr

/-- The state of the package. -/
structure State where
  /-- the strand in focus and its flat number (R22) -/
  st : Strand
  cur : Nat
  /-- the other strands that have run, by flat number -/
  others : List (Nat × Strand)
  inputs : List Input
  /-- operands of the step of the device that is being taken -/
  args : StepArgs
  pace : Pace
  /-- the counter that free values are applied to -/
  freeCount : Nat
  /-- stamps of iterations, launches, commands and items -/
  stamp : Nat
  mem : List Host.Cell
  hostMem : List Host.Cell
  /-- host memory lines with an error answer, and with a poisoned one -/
  hostErr : List Nat
  hostPoison : List Nat
  /-- poisoned lines of device memory, by storage line -/
  poison : List Nat
  cores : List (Nat × CoreSt)
  clusters : List (Nat × ClusterSt)
  dies : List (Nat × DieSt)
  cmds : List Cmd
  /-- events of completed commands and items that have not arrived -/
  posts : List Post
  frames : List Frame
  launches : List Launch
  graphs : List Graph
  finishing : List Finish
  cancelled : List Cancelled
  saved : List Saved
  /-- the parked waits that the wait monitors of the dies hold (R133) -/
  monitors : List Monitor
  /-- iterations that ended by a machine check and are handed out again (R352): what the walker retains of each -/
  rehand : List Strand
  flights : List DieWrite
  ctxs : List (Nat × CtxSt)
  mgmt : Mgmt
  deriving DecidableEq, Repr

/-! ## Reset -/

/-- A strand that runs nothing: R17 and the Reset column of R22 and R126. -/
def Strand.reset : Strand where
  x := Vector.replicate 32 0
  xfull := -1
  xpend := 0
  xpoison := 0
  v := Vector.replicate 32 0
  vfull := -1
  vpoison := []
  gtag := Vector.replicate 32 0
  dtag := Vector.replicate 32 0
  pc := 0
  level := .user
  vl := 0
  vlFull := true
  vs := 0
  vgm := 0
  vstart := 0
  vdirty := 0
  vfrem := 0
  fflags := 0
  ffirst := Vector.replicate 7 0xFFFF
  frm := 0
  fz := false
  trp := -1
  tcp := -1
  tonOwned := 0
  tonPend := none
  tiles := Vector.replicate 4 0
  xresume := 0
  wto := 0
  cbsel := 0
  vm := -1
  vsg := 0
  ctx := 0
  queue := []
  image := []
  stores := []
  loads := []
  events := []
  notices := []
  spills := 0
  claims := []
  crit := false
  critCount := 0
  critDepth := 0
  streams := []
  mark := none
  tvec := 0
  tcause := 0
  tval := 0
  tepc := 0
  ppl := .user
  held := false
  skip := false
  tscratch := 0
  prio := 0
  rchk := false
  svbase := 0
  pending := []
  hold := none
  run := .idle
  sleep := .awake
  timedOut := false
  watch := false
  watchOut := false
  iter := {}
  scratch := []
  scratchSize := 0
  scratchEpoch := 0
  batch := []
  batchSize := 0
  scratchBad := []
  batchBad := []
  redecode := none
  undo := []
  seq := 0
  waiting := false

/-- A core with no codebook loaded; the rotation starts with S0 (R161, R180; log 2). -/
def CoreSt.reset : CoreSt where
  codebooks := Vector.replicate 4 none
  lastStart := 3

/-- A bank of holes (R367 step 5). -/
def Bank.reset : Bank where
  owner := none
  blocks := []
  poisoned := []
  reserved := none

/-- A cluster after initialisation (R367). -/
def ClusterSt.reset : ClusterSt where
  banks := Vector.replicate 8 Bank.reset
  items := []
  cfgs := Vector.replicate 4 none
  ranges := []
  buffers := Vector.replicate 8 none

/-- A die after initialisation (R367): the Wharf reads as zero; the tide length is 512, and the next window is as far
away as after a window (R299 gives `next` no reset value; DESIGN CHOICE, log 62). -/
def DieSt.reset : DieSt where
  wharf := []
  wharfPoison := []
  seals := []
  tlb := []
  tideIn := false
  tideNext := 65024
  tideLen := 512
  corrected := 0
  poisonUses := 0
  replays := 0
  mismatches := 0
  mclog := []
  clock := Vector.replicate 5 0
  clockMHz := 4000
  rings := Vector.replicate 4 0

/-- A free context (R367 step 6). -/
def CtxSt.reset : CtxSt where
  record := 0
  ulbase := 0
  ullim := 0
  ulSeq := 0
  ulBad := false
  ulLog := []
  ulOn := false
  ulOwner := 0
  rootEnded := false
  subHit := false
  doneHits := []
  slots := []
  converters := []

/-- The management window after reset: R363, R364. -/
def Mgmt.reset : Mgmt where
  ready := false
  recovery := false
  trip := false
  mgerr := false
  pkno := Config.strapNumber
  pwrlim := 2400
  ports := Vector.replicate 16 ⟨false, false, 0⟩
  win := []
  ssel := []
  flr := []
  attest := none
  msix := []
  answers := []

/-- The package right after power-on or a package reset, before its boot (R367). -/
def State.reset : State where
  st := Strand.reset
  cur := 0
  others := []
  inputs := []
  args := {}
  pace := .lockstep
  freeCount := 0
  stamp := 0
  mem := []
  hostMem := []
  hostErr := []
  hostPoison := []
  poison := []
  cores := []
  clusters := []
  dies := []
  cmds := []
  posts := []
  frames := []
  launches := []
  graphs := []
  finishing := []
  cancelled := []
  saved := []
  monitors := []
  rehand := []
  flights := []
  ctxs := []
  mgmt := Mgmt.reset

end Sys2Proof.Machine
end

