-- ==== Sys2Proof/Machine/Flags.lean ====
section
/-! DEFINITION. Every flag computation: how the flags that an instruction raises enter `fflags` and `ffirst` (R71 to
R74). Integer instructions raise none (R62). The flags of one floating operation stand in Float.lean beside its
result. -/

namespace Sys2Proof.Machine

/-- Flags with the index at which each set arose (R72). -/
abbrev Raised := List (Nat × FFlags)

/-- All the flags raised. -/
def allRaised : Raised → FFlags
  | [] => 0
  | (_, f) :: t => f ||| allRaised t

/-- The lowest index at which flag `i` arose, if it arose (R72). -/
def lowestIndex (i : Nat) : Raised → Option Nat
  | [] => none
  | (e, f) :: t =>
    if f.getLsbD i then
      match lowestIndex i t with
      | none => some e
      | some k => some (min e k)
    else lowestIndex i t

/-- An `ffirst` register after an instruction (R72, R74): it takes the lowest index of its flag, unless the instruction
did not raise the flag, or raised it before a stop. -/
def ffirstAfter (fs : Raised) (before : FFlags) (i : Nat) (old : BitVec 16) : BitVec 16 :=
  if before.getLsbD i then old
  else
    match lowestIndex i fs with
    | none => old
    | some e => BitVec.ofNat 16 e

/-- The flags of an instruction enter `fflags` and `ffirst` (R71 to R74); `before` is the raised set of its queue entry,
and is empty for a scalar instruction. -/
def Strand.raise (t : Strand) (fs : Raised) (before : FFlags) : Strand :=
  { t with
    fflags := t.fflags ||| allRaised fs
    ffirst := Vector.ofFn fun i : Fin 7 => ffirstAfter fs before i.val t.ffirst[i] }

/-- The flags of a scalar floating instruction enter `fflags` and `ffirst`, with index 0 (R72). -/
def Strand.raise0 (t : Strand) (f : FFlags) : Strand := if f = 0 then t else t.raise [(0, f)] 0

/-- A scalar floating instruction raises flags: they enter at once, or, where older entries of the vector queue have not
retired, behind the youngest of them (R73: in program order). -/
def State.raise0 (s : State) (f : FFlags) : State :=
  if f = 0 then s
  else
    match s.st.queue.reverse with
    | [] => { s with st := s.st.raise0 f }
    | e :: es => { s with st := { s.st with queue := es.reverse ++ [{ e with scalar := e.scalar ||| f }] } }

/-- The flags that wait behind entries enter when the entries leave without retiring (R73, R128). -/
def Strand.mergeScalar (t : Strand) (es : List QEntry) : Strand := es.foldl (fun t e => t.raise0 e.scalar) t

/-- Entries that leave the strand with no flags behind them: what `mergeScalar` has taken joins the raised sets of the
entries before it, so that each keeps the `ffirst` of the younger instruction where it raises the same flag later (R73,
R74). The other part is the flags behind the first entry. -/
def flagsTaken : List QEntry → List QEntry × FFlags
  | [] => ([], 0)
  | e :: es =>
    let r := flagsTaken es
    let fl := e.scalar ||| r.2
    ({ e with raised := e.raised ||| fl, scalar := 0 } :: r.1, fl)

/-- The strand and its entries as a save area shows them (R73, R128). -/
def Strand.takeFlags (t : Strand) (es : List QEntry) : Strand × List QEntry := (t.mergeScalar es, (flagsTaken es).1)

/-- Adds an index's flags, where any arose. -/
def note (e : Nat) (f : FFlags) (fs : Raised) : Raised := if f == 0 then fs else (e, f) :: fs

end Sys2Proof.Machine
end

