-- ==== Sys2Proof/Machine/Ops.lean ====
section
/-! DEFINITION. The named operations over memory, registers, translation, events and traps that every meaning uses. -/

namespace Sys2Proof.Machine

/-- The three outcomes of a step of this machine. -/
abbrev Result := Host.Outcome State Fault Refusal

/-! ## Cells: lists of (address, byte), addresses rising -/

/-- The byte at an address, or `dflt` where none is listed. -/
def cellAt (dflt : Byte) : List Host.Cell → Nat → Byte
  | [], _ => dflt
  | (k, b) :: t, a => if a == k then b else cellAt dflt t a

/-- Writes a byte; a byte equal to what an unlisted address reads as is not listed. -/
def setCell (dflt : Byte) (a : Nat) (b : Byte) : List Host.Cell → List Host.Cell
  | [] => if b = dflt then [] else [(a, b)]
  | (k, c) :: t =>
    if a < k then (if b = dflt then (k, c) :: t else (a, b) :: (k, c) :: t)
    else if a = k then (if b = dflt then t else (a, b) :: t)
    else (k, c) :: setCell dflt a b t

/-- The byte at an address where one is listed. -/
def cell? : List Host.Cell → Nat → Option Byte
  | [], _ => none
  | (k, b) :: t, a => if a == k then some b else cell? t a

/-- Writes a byte into storage whose unlisted bytes are undefined: it is always listed. -/
def keepCell (a : Nat) (b : Byte) : List Host.Cell → List Host.Cell
  | [] => [(a, b)]
  | (k, c) :: t => if a < k then (a, b) :: (k, c) :: t else if a = k then (a, b) :: t else (k, c) :: keepCell a b t

/-- Writes consecutive bytes. -/
def setCells (dflt : Byte) : Nat → List Byte → List Host.Cell → List Host.Cell
  | _, [], m => m
  | a, b :: bs, m => setCells dflt (a + 1) bs (setCell dflt a b m)

/-- Writes consecutive bytes that are always listed. -/
def keepCells : Nat → List Byte → List Host.Cell → List Host.Cell
  | _, [], m => m
  | a, b :: bs, m => keepCells (a + 1) bs (keepCell a b m)

/-- `n` consecutive bytes of a byte-valued function. -/
def bytesAt (f : Nat → Byte) : Nat → Nat → List Byte
  | _, 0 => []
  | a, n + 1 => f a :: bytesAt f (a + 1) n

/-- Addresses rise, and no listed byte equals the default: the canonical form of memory. -/
def cellsWf (dflt : Byte) : List Host.Cell → Bool
  | [] => true
  | (k, b) :: t => b != dflt && (t.all fun c => decide (k < c.1)) && cellsWf dflt t

/-- Device memory is in its canonical form: unlisted bytes read as 0 (R367 step 5). -/
def Memory.wf (m : List Host.Cell) : Bool := cellsWf 0 m

/-- A byte of device memory (R288; R367: everything reads as zero after boot). -/
def memGet (m : List Host.Cell) (a : Nat) : Byte := cellAt 0 m a

/-- A field of `n` bytes at an offset of a record, little-endian (R6). -/
def fieldOf (bs : List Byte) (off n : Nat) : Nat := ofBytes ((bs.drop off).take n)

/-- An 8-byte field of a record. -/
def wordOfField (bs : List Byte) (off : Nat) : Word := BitVec.ofNat 64 (fieldOf bs off 8)

/-! ## Tables keyed by a number -/

/-- The entry of a key, or a default. -/
def tabGet {α : Type} (dflt : α) : List (Nat × α) → Nat → α
  | [], _ => dflt
  | (k, v) :: t, n => if n == k then v else tabGet dflt t n

/-- Replaces or adds the entry of a key. -/
def tabSet {α : Type} (n : Nat) (v : α) : List (Nat × α) → List (Nat × α)
  | [] => [(n, v)]
  | (k, w) :: t => if n = k then (n, v) :: t else (k, w) :: tabSet n v t

/-- Core `k` of the package. -/
def State.core (s : State) (k : Nat) : CoreSt := tabGet CoreSt.reset s.cores k
def State.setCore (s : State) (k : Nat) (c : CoreSt) : State := { s with cores := tabSet k c s.cores }

/-- Cluster `k` of the package. -/
def State.cluster (s : State) (k : Nat) : ClusterSt := tabGet ClusterSt.reset s.clusters k
def State.setCluster (s : State) (k : Nat) (c : ClusterSt) : State := { s with clusters := tabSet k c s.clusters }

/-- Compute die `k`. -/
def State.die (s : State) (k : Nat) : DieSt := tabGet DieSt.reset s.dies k
def State.setDie (s : State) (k : Nat) (d : DieSt) : State := { s with dies := tabSet k d s.dies }

/-- Context `k`. -/
def State.context (s : State) (k : BitVec 12) : CtxSt := tabGet CtxSt.reset s.ctxs k.toNat
def State.setContext (s : State) (k : BitVec 12) (c : CtxSt) : State := { s with ctxs := tabSet k.toNat c s.ctxs }

/-- Another strand; a strand that has never run is as after reset. -/
def State.strand (s : State) (n : Nat) : Strand := if n == s.cur then s.st else tabGet Strand.reset s.others n

/-- Replaces a strand. -/
def State.setStrand (s : State) (n : Nat) (t : Strand) : State :=
  if n == s.cur then { s with st := t } else { s with others := tabSet n t s.others }

/-- Strand `n` comes into focus: it leaves `others`, which never holds the strand in focus. -/
def State.focus (s : State) (n : Nat) : State :=
  if n = s.cur then s
  else
    { s with
      st := tabGet Strand.reset s.others n
      cur := n
      others := tabSet s.cur s.st (s.others.filter fun p => p.1 != n) }

/-- The core, cluster and die of a flat strand number (R22: idflat). -/
def coreOf (n : Nat) : Nat := n / 4
def clusterOf (n : Nat) : Nat := n / 32
def dieOf (n : Nat) : Nat := n / 512

/-- The same strand after a change. -/
def State.upd (s : State) (f : Strand → Strand) : State := { s with st := f s.st }

/-! ## Fields of a context record (R354) -/

/-- A field of the record. -/
def CtxSt.field (c : CtxSt) (off size : Nat) : BitVec (8 * size) := c.record.extractLsb' (8 * off) (8 * size)

/-- Replaces a field of the record. -/
def CtxSt.setField (c : CtxSt) (off size : Nat) (v : Nat) : CtxSt :=
  let mask : BitVec 1024 := BitVec.ofNat 1024 (2 ^ (8 * size) - 1) <<< (8 * off)
  { c with record := (c.record &&& ~~~mask) ||| (BitVec.ofNat 1024 (v % 2 ^ (8 * size)) <<< (8 * off)) }

def CtxSt.state (c : CtxSt) : Nat := (c.field 0x00 1).toNat
def CtxSt.prio (c : CtxSt) : Nat := (c.field 0x01 1).toNat
def CtxSt.function (c : CtxSt) : Nat := (c.field 0x02 1).toNat
def CtxSt.flags (c : CtxSt) : Nat := (c.field 0x03 1).toNat
def CtxSt.dieNo (c : CtxSt) : Nat := (c.field 0x04 1).toNat
def CtxSt.place (c : CtxSt) : Nat := (c.field 0x06 2).toNat
def CtxSt.root (c : CtxSt) : Nat := (c.field 0x08 8).toNat
def CtxSt.tvec (c : CtxSt) : Word := c.field 0x10 8
def CtxSt.ulbase0 (c : CtxSt) : Word := c.field 0x18 8
def CtxSt.ullim0 (c : CtxSt) : Word := c.field 0x20 8
def CtxSt.svbase (c : CtxSt) : Word := c.field 0x28 8
def CtxSt.slotCount (c : CtxSt) : Nat := (c.field 0x30 4).toNat
def CtxSt.domain (c : CtxSt) : BitVec 16 := c.field 0x34 2
def CtxSt.sub (c : CtxSt) : Nat := (c.field 0x38 8).toNat
def CtxSt.entry (c : CtxSt) : Word := c.field 0x40 8
def CtxSt.arg (c : CtxSt) : Word := c.field 0x48 8

/-! ## Physical memory (R288, R289) -/

/-- The placement constants of skews 1 and 2: not 0, and not equal, so that the three placements differ (R289). -/
def placementKey (skew block : Nat) : BitVec 24 :=
  let one := if Config.skewKey 1 block = 0 then 1 else Config.skewKey 1 block
  let two := Config.skewKey 2 block
  if skew == 1 then one else if two = 0 ∨ two = one then (if one = 1 then 2 else 1) else two

/-- The storage address of a physical address under a skew: within its 1 GiB block, skews 1 and 2 place a line by a
constant of the implementation (R289; log 21). -/
def storageOf (skew pa : Nat) : Nat :=
  if skew == 0 || decide (4 ≤ pa / 2 ^ 49) then pa
  else
    let block := pa / 2 ^ 30
    let line := pa / 64 % 2 ^ 24
    block * 2 ^ 30 + (line ^^^ (placementKey skew block).toNat) * 64 + pa % 64

/-- The channel controller of a line, by skew (R289). -/
def channelOf (skew line : Nat) : Nat :=
  match skew with
  | 1 =>
    let f := (line % 64) ^^^ (line / 64 % 64) ^^^ (line / 4096 % 64) ^^^ (line / 262144 % 64)
    (line + f) % 48
  | 2 => line % 47
  | _ => line % 48

/-- Whether a physical address is populated (R288). -/
def populated (pa : Nat) : Bool :=
  let off := pa % 2 ^ 49
  match pa / 2 ^ 49 with
  | 0 | 1 | 2 | 3 => decide (off < Config.dieCapacity)
  | 4 => true
  | 5 => decide (off < 2 ^ 24)
  | _ => false

/-- Where a populated physical address is performed. -/
def placeOfPhys (skew pa : Nat) : Place := if pa / 2 ^ 49 == 4 then .host (pa % 2 ^ 49) else .mem (storageOf skew pa)

/-- A byte of host memory: what was written or answered, else what the host holds (R362; log 22). -/
def hostGet (m : List Host.Cell) (a : Nat) : Byte :=
  match cell? m a with
  | some b => b
  | none => Config.hostByte a

/-! ## Places -/

/-- The place `i` bytes further. -/
def Place.add (p : Place) (i : Nat) : Place :=
  match p with
  | .mem a => .mem (a + i)
  | .host a => .host (a + i)
  | .scratch a => .scratch (a + i)
  | .cscratch a => .cscratch (a + i)
  | .batch a => .batch (a + i)
  | .blob a => .blob (a + i)

/-- The die where a place is performed: a compute die, or 4 for the IO die. -/
def Place.home (die : Nat) (p : Place) : Nat :=
  match p with
  | .mem a => Nat.min 4 (a / 2 ^ 49)
  | .host _ => 4
  | _ => die

/-- The place lies in host memory (R288). -/
def Place.isHost (p : Place) : Bool :=
  match p with
  | .host _ => true
  | _ => false

/-- The place `i` bytes further in a page of a skew, whose lines lie where the skew places them (R289). -/
def Place.along (skew : Nat) (p : Place) (i : Nat) : Place :=
  match p with
  | .mem a => .mem (storageOf skew (storageOf skew a + i))
  | q => q.add i

/-- The distance of `q` above `p` in the same storage. -/
def Place.offsetFrom (p q : Place) : Option Nat :=
  match p, q with
  | .mem a, .mem b | .host a, .host b | .scratch a, .scratch b | .cscratch a, .cscratch b | .batch a, .batch b
  | .blob a, .blob b => if a ≤ b then some (b - a) else none
  | _, _ => none

/-- The subtree buffer that the strand's blob window shows. -/
def State.blobBytes (s : State) : List Byte :=
  match s.st.iter.buffer with
  | none => []
  | some k =>
    match (s.cluster (clusterOf s.cur)).buffers[k]? with
    | some (some b) => b.data
    | _ => []

/-- Poisoned lines of that buffer (R342). -/
def State.blobBad (s : State) : List Nat :=
  match s.st.iter.buffer with
  | none => []
  | some k =>
    match (s.cluster (clusterOf s.cur)).buffers[k]? with
    | some (some b) => b.bad
    | _ => []

/-- The cluster-scratch range of the strand's launch (R266). -/
def State.cRange (s : State) : Option CRange :=
  (s.cluster (clusterOf s.cur)).ranges.find? fun r => r.launch == s.st.iter.launch && s.st.iter.work == .launch

/-- The byte that a place holds. Storage that nothing has written since it was reserved is undefined: a free value. -/
def State.placeByte (s : State) (p : Place) : Byte :=
  match p with
  | .mem a => memGet s.mem a
  | .host a => hostGet s.hostMem a
  | .scratch a => (cell? s.st.scratch a).getD (Config.freeByte s.st.scratchEpoch a)
  | .cscratch a =>
    match s.cRange with
    | some r => (cell? r.cells a).getD (Config.freeByte r.epoch a)
    | none => 0
  | .batch a => (cell? s.st.batch a).getD (Config.freeByte s.st.scratchEpoch a)
  | .blob a => s.blobBytes.getD a 0

/-- The byte that a store-queue entry will write at a place (R97). -/
def SEntry.byteAt (e : SEntry) (q : Place) : Option Byte :=
  if e.dest.isSome then none
  else
    match e.place.offsetFrom q with
    | some i => if i < e.size then some (e.data.extractLsb' (8 * i) 8) else none
    | none => none

/-- What the strand reads at a place: its own youngest store there, else the storage (R97). -/
def State.seenByte (s : State) (p : Place) : Byte :=
  s.st.stores.foldl (fun acc e => (e.byteAt p).getD acc) (s.placeByte p)

/-- `n` bytes from a place on, as the strand reads them. -/
def State.seenBytes (s : State) (p : Place) (n : Nat) : List Byte := bytesAt (fun i => s.seenByte (p.add i)) 0 n

/-- `n` bytes from a place on, as the storage holds them. -/
def State.placeBytes (s : State) (p : Place) (n : Nat) : List Byte := bytesAt (fun i => s.placeByte (p.add i)) 0 n

/-! ## Translation (R290 to R293) -/

/-- What an access does (R292). -/
inductive Acc where
  | read
  | write
  | atomic
  | fetch
  deriving DecidableEq, Repr

/-- A leaf that a walk or a TLB gave. -/
structure Leaf where
  size : Nat
  entry : Nat
  deriving DecidableEq, Repr

/-- The outcome of a walk: a leaf, an entry with V = 0 whose span is given, or a malformed entry. -/
inductive Walk where
  | leaf (l : Leaf)
  | missing (span : Nat)
  | malformed
  deriving DecidableEq, Repr

/-- The levels: shift of the index, bits of the index, alignment of the next table (R290). -/
def tableLevels : List (Nat × Nat × Nat) := [(41, 15, 2 ^ 17), (27, 14, 512), (21, 6, 256), (16, 5, 1)]

/-- The walk below one level (R292). `rd` reads a byte of physical memory at linear skew, and `allowed` says that bytes
from an address on lie within the function's ranges (R361): an entry, and the whole of a leaf frame. A table in a region
that is not assigned or beyond the capacity ends the walk as a malformed entry does: no rule speaks of it (DESIGN CHOICE,
log 110). -/
def walkFrom (rd : Nat → Byte) (allowed : Nat → Nat → Bool) (va : Nat) : Nat → List (Nat × Nat × Nat) → Nat → Walk
  | _, [], _ => .malformed
  | depth, (sh, bits, next) :: rest, table =>
    let at_ := table + 8 * (va / 2 ^ sh % 2 ^ bits)
    if !(populated at_ && allowed at_ 8) then .malformed
    else
      let e := ofBytes (bytesAt rd at_ 8)
      let isLeaf := e.testBit 1
      let addr := e / 256 % 2 ^ 44 * 256
      if !e.testBit 0 then .missing (2 ^ sh)
      else if e / 4 % 64 != 0 || e / 2 ^ 52 % 8 != 0 then .malformed
      else if isLeaf then
        if depth == 0 || e / 2 ^ 60 % 4 == 3 || e / 2 ^ 62 == 3 || addr % 2 ^ sh != 0 then .malformed
        else if !allowed addr (2 ^ sh) then .malformed
        else .leaf ⟨2 ^ sh, e⟩
      else if depth == 3 || e / 2 ^ 55 != 0 || addr % next != 0 then .malformed
      else walkFrom rd allowed va (depth + 1) rest addr

/-- A byte of the management window (R363): unlisted bytes of `route` read as 0xFF (0 in `win` stands for it), the
others as 0; the public key stands in the mailbox (R368). -/
def Mgmt.winByte (m : Mgmt) (off : Nat) : Byte :=
  if 0xA3000 ≤ off ∧ off < 0xA37A0 then Config.nolayByte 4 (off - 0xA3000)
  else if 0xA0000 ≤ off ∧ off < 0xA1000 then cellAt 0 m.win off ^^^ 0xFF
  else cellAt 0 m.win off

/-- The ranges of physical memory of a function: base and limit (R361, R363 `vfmem`). -/
def Mgmt.ranges (m : Mgmt) (fn : Nat) : List (Nat × Nat) :=
  (List.range 8).map fun k =>
    let at_ := 0x1000 + 128 * fn + 16 * k
    (ofBytes (bytesAt m.winByte at_ 8), ofBytes (bytesAt m.winByte (at_ + 8) 8))

/-- The first address from `pa` on that ranges leave out; `n` bounds the ranges passed. -/
def coveredTo (rs : List (Nat × Nat)) : Nat → Nat → Nat
  | 0, pa => pa
  | n + 1, pa =>
    match rs.find? fun r => decide (r.1 ≤ pa) && decide (pa < r.2) with
    | some r => coveredTo rs n r.2
    | none => pa

/-- `n` bytes of physical memory lie within the ranges of a function; the physical function has all of it. -/
def State.inRanges (s : State) (fn pa n : Nat) : Bool :=
  fn == 0 || decide (pa + n ≤ coveredTo (s.mgmt.ranges fn) 8 pa)

/-- A byte of physical memory as a walk reads it: at linear skew, seeing the stores given (R293). -/
def State.physByte (s : State) (stores : List SEntry) (pa : Nat) : Byte :=
  let p := placeOfPhys 0 pa
  stores.foldl (fun acc e => (e.byteAt p).getD acc) (s.placeByte p)

/-- The entry of a TLB that covers an address of a context. -/
def DieSt.tlbFind (d : DieSt) (ctx : BitVec 12) (va : Nat) : Option TlbEntry :=
  d.tlb.find? fun e => e.ctx == ctx && e.vpage == va / e.pageSize && e.pageSize != 0

/-- The translation of an address in a context. Where a TLB holds an entry that memory no longer gives, either may be
used until a `tlbinv` (R293): a free choice, which the page-sorting unit makes once a page (R295). -/
def State.translate (s : State) (stores : List SEntry) (ctx : BitVec 12) (va : Nat) (sorted : Bool := false) : Walk :=
  let c := s.context ctx
  let now := walkFrom (s.physByte stores) (s.inRanges c.function) va 0 tableLevels c.root
  match (s.die (dieOf s.cur)).tlbFind ctx va with
  | none => now
  | some e =>
    let old := Walk.leaf ⟨e.pageSize, e.leaf.toNat⟩
    let key := if sorted then va - va % e.pageSize else va
    if now == old then now else if Config.useStale (s.freeCount * 2 ^ 56 + key) then old else now

/-- The outcome of the checks of R88: where the access is performed and whether its page has the D attribute, or the
cause of the first check that fails (with the span of a missing translation, R166). -/
inductive Chk where
  | ok (p : Place) (d : Bool)
  | bad (cause : BitVec 8) (span : Nat)
  deriving DecidableEq, Repr

/-- Addresses that are canonical: bits [63:55] all equal (R88). -/
def canonical (a : Word) : Bool := a.extractLsb' 55 9 == 0 || a.extractLsb' 55 9 == -1

/-- The addresses that are never translated (R290). -/
def untranslated (a : Nat) : Bool := decide (0x7FFE0000000000 ≤ a) && decide (a ≤ 0x7FFFFFFFFFFFFF)

/-- The permissions of a leaf (R291, R292). -/
def permits (acc : Acc) (user : Bool) (e : Nat) : Bool :=
  (match acc with
    | .read => e.testBit 55
    | .write => e.testBit 56
    | .atomic => e.testBit 55 && e.testBit 56
    | .fetch => e.testBit 57) && (!user || e.testBit 58)

/-- The cause of a missing translation (R292). -/
def missingCause (acc : Acc) : BitVec 8 :=
  match acc with
  | .read | .fetch => 0x05
  | .write | .atomic => 0x06

/-- The windows of a strand (R163, R265, R266): the running iteration's reservations. The blob window ends with the blob:
a read beyond its bsize takes trap 0x07 (DESIGN CHOICE, log 107). -/
def State.windowCheck (s : State) (acc : Acc) (size a : Nat) : Chk :=
  let no := Chk.bad 0x07 0
  if acc == .fetch || acc == .atomic then no
  else if 0x7FFF0000000000 ≤ a then
    let off := a - 0x7FFF0000000000
    if off + size ≤ s.st.scratchSize then .ok (.scratch off) false else no
  else
    let off := a - 0x7FFE0000000000
    if off < 0x80000 then
      match s.cRange with
      | some r => if off + size ≤ r.size then .ok (.cscratch off) false else no
      | none => no
    else if 0x100000 ≤ off ∧ off < 0x140000 then
      if acc == .read && decide (off - 0x100000 + size ≤ s.blobBytes.length) then .ok (.blob (off - 0x100000)) false
      else no
    else if 0x140000 ≤ off ∧ off < 0x148000 then
      if off - 0x140000 + size ≤ s.st.batchSize then .ok (.batch (off - 0x140000)) false else no
    else no

/-- Steps 3 and 4 of R88 for an address that is translated. -/
def pageCheck (w : Walk) (acc : Acc) (user : Bool) (a : Nat) : Chk :=
  match w with
  | .missing span => .bad (missingCause acc) span
  | .malformed => .bad 0x07 0
  | .leaf l =>
    let pa := l.entry / 256 % 2 ^ 44 * 256 + a % l.size
    let d := l.entry.testBit 59
    if !permits acc user l.entry then .bad 0x07 0
    else if !populated pa then .bad 0x07 0
    else if acc == .atomic && (d || pa / 2 ^ 49 == 4) then .bad 0x07 0
    else .ok (placeOfPhys (l.entry / 2 ^ 62) pa) d

/-- A read of host memory whose request the host answered with an error is a fault (R362). -/
def State.hostFault (s : State) (acc : Acc) (c : Chk) : Chk :=
  match c with
  | .ok (.host a) _ => if (acc == .read || acc == .fetch) && s.hostErr.contains (a / 64) then .bad 0x07 0 else c
  | _ => c

/-- The checks of R88 for an access of the strand in focus, in their order: canonical, aligned, translated, permitted.
An atomic to a D page or to host memory takes 0x07 (R100). `sorted`: the page-sorting unit translates it (R295). -/
def State.check (s : State) (acc : Acc) (align size : Nat) (a : Word) (sorted : Bool := false) : Chk :=
  if !canonical a then .bad 0x07 0
  else if a.toNat % align != 0 then .bad 0x08 0
  else
    let va := a.toNat % 2 ^ 56
    if untranslated va then s.windowCheck acc size va
    else s.hostFault acc (pageCheck (s.translate s.st.stores s.st.ctx va sorted) acc (s.st.level == .user) va)

/-- The checks of R88 for an access that the device makes for a context: no window, no store queue. -/
def State.checkFor (s : State) (user : Bool) (ctx : BitVec 12) (acc : Acc) (align : Nat) (a : Word) : Chk :=
  if !canonical a then .bad 0x07 0
  else if a.toNat % align != 0 then .bad 0x08 0
  else
    let va := a.toNat % 2 ^ 56
    if untranslated va then .bad 0x07 0
    else s.hostFault acc (pageCheck (s.translate [] ctx va) acc user va)

/-- An access of an engine (R292): with the permissions of user level (DEDUCED, log 24). -/
def State.checkEngine (s : State) (ctx : BitVec 12) (acc : Acc) (align : Nat) (a : Word) : Chk :=
  s.checkFor true ctx acc align a

/-- An access of the device to the save pool, the fault queue and the undo region, which needs no U (DEDUCED, log 24).
-/
def State.checkDevice (s : State) (ctx : BitVec 12) (acc : Acc) (align : Nat) (a : Word) : Chk :=
  s.checkFor false ctx acc align a

/-- The skew of the page that maps an address of a context, as a walk that sees these stores finds it (R289, R291). -/
def State.skewSeen (s : State) (stores : List SEntry) (ctx : BitVec 12) (a : Word) : Nat :=
  match s.translate stores ctx (a.toNat % 2 ^ 56) with
  | .leaf l => l.entry / 2 ^ 62
  | _ => 0

/-- The skew of the page that maps an address of a context. -/
def State.skewAt (s : State) (ctx : BitVec 12) (a : Word) : Nat := s.skewSeen [] ctx a

/-! ## The undo log (R347 to R349) -/

/-- The canonical address that a field of 56 bits names (R126, R290). -/
def canonOf (v : Word) : Word := (v.truncate 56).signExtend 64

/-- The places of the two lines of the undo region's record `n`, translated by the context's tables when it is written
(R347). -/
def State.undoPlace (s : State) (ctx : BitVec 12) (n : Nat) : Option (Nat × Nat) :=
  let c := s.context ctx
  let off := 128 * n
  if c.ullim.toNat < c.ulbase.toNat + off + 128 then none
  else
    let a := canonOf c.ulbase + BitVec.ofNat 64 off
    match s.checkDevice ctx .write 64 a, s.checkDevice ctx .write 64 (a + 64) with
    | .ok (.mem p) _, .ok (.mem q) _ => some (p, q)
    | _, _ => none

/-- The first 64 bytes of an undo record (R347); the other 64 are the line's data. -/
def undoBytes (line : Word) (seq : BitVec 32) (poisoned : Bool) : List Byte :=
  bytesOf 8 line.toNat ++ bytesOf 4 seq.toNat ++ bytesOf 4 (if poisoned then 1 else 0) ++ bytesOf 48 0

/-! ## Events (R301) -/

/-- The word that `evpop` delivers (R109). -/
def EvRec.word (e : EvRec) : Word := e.user ++ e.tag ++ e.status ++ e.source ++ 0#4

/-- The 32 bytes of a record (R301). -/
def EvRec.bytes (e : EvRec) : List Byte :=
  bytesOf 4 e.user.toNat ++ bytesOf 2 e.tag.toNat ++ [e.status, BitVec.zeroExtend 8 e.source] ++ bytesOf 8 e.desc.toNat ++
    bytesOf 8 e.fault.toNat ++ bytesOf 8 0

/-! ## x registers (R12, R14) -/

/-- The value of an x register; x0 reads as zero (R12). -/
def Strand.xget (t : Strand) (r : Reg) : Word := if r = 0 then 0 else t.x[r.toNat]'(r.isLt)

/-- A bit of a 32-bit set of registers. -/
def hasReg (m : BitVec 32) (r : Reg) : Bool := m.getLsbD r.toNat

/-- Adds or removes a register. -/
def setReg (m : BitVec 32) (r : Reg) (on : Bool) : BitVec 32 :=
  if on then m ||| ((1#32) <<< r.toNat) else m &&& ~~~((1#32) <<< r.toNat)

/-- Whether an x register is full (R14). -/
def Strand.isFull (t : Strand) (r : Reg) : Bool := decide (r = 0) || hasReg t.xfull r

/-- Whether an x register can be read now: full, and no load or atomic in flight will fill it (R14, R97, R100). -/
def Strand.xready (t : Strand) (r : Reg) : Bool := decide (r = 0) || (hasReg t.xfull r && !hasReg t.xpend r)

/-- Writes an x register and leaves it full (R12, R14); a write to x0 is discarded. -/
def Strand.xset (t : Strand) (r : Reg) (v : Word) : Strand :=
  if r = 0 then t
  else
    { t with
      x := t.x.set r.toNat v (r.isLt)
      xfull := setReg t.xfull r true
      xpend := setReg t.xpend r false
      xpoison := setReg t.xpoison r false }

/-- Marks an x register empty (R14); x0 is always full. -/
def Strand.xempty (t : Strand) (r : Reg) : Strand := if r = 0 then t else { t with xfull := setReg t.xfull r false }

/-- Writes an x register of the strand in focus. -/
def State.setX (s : State) (r : Reg) (v : Word) : State := { s with st := s.st.xset r v }

/-! ## v registers and tags -/

/-- A v register. -/
def Strand.vget (t : Strand) (r : Reg) : VReg := t.v[r.toNat]'(r.isLt)

/-- Writes a v register. -/
def Strand.vput (t : Strand) (r : Reg) (v : VReg) : Strand := { t with v := t.v.set r.toNat v (r.isLt) }

/-- A tag. -/
def Strand.tag (t : Strand) (r : Reg) : Byte := t.gtag[r.toNat]'(r.isLt)

/-- Writes a tag, as retirement does. -/
def Strand.setTag (t : Strand) (r : Reg) (g : Byte) : Strand := { t with gtag := t.gtag.set r.toNat g (r.isLt) }

/-- The decode copy of a tag (R187). -/
def Strand.dtagOf (t : Strand) (r : Reg) : Byte := t.dtag[r.toNat]'(r.isLt)

/-- Writes the decode copy of a tag. -/
def Strand.setDtag (t : Strand) (r : Reg) (g : Byte) : Strand := { t with dtag := t.dtag.set r.toNat g (r.isLt) }

/-- Marks registers written in `vdirty` (R119). -/
def Strand.dirty (t : Strand) (bit : Nat) : Strand := { t with vdirty := t.vdirty ||| ((1#36) <<< bit) }

/-- Element e of width w bits of a register of any size. -/
def elemOf {n : Nat} (v : BitVec n) (w e : Nat) : Nat := (v.extractLsb' (w * e) w).toNat

/-- Replaces element e of width w bits. -/
def setElem {n : Nat} (v : BitVec n) (w e x : Nat) : BitVec n :=
  let mask : BitVec n := BitVec.ofNat n (2 ^ w - 1) <<< (w * e)
  (v &&& ~~~mask) ||| (BitVec.ofNat n (x % 2 ^ w) <<< (w * e))

/-- Sets or clears bit e. -/
def setBit {n : Nat} (v : BitVec n) (e : Nat) (on : Bool) : BitVec n :=
  if on then v ||| (BitVec.ofNat n 1 <<< e) else v &&& ~~~(BitVec.ofNat n 1 <<< e)

/-! ## Writing memory -/

/-- Notes a write to the line of a submission word or to `done` of a context (R356 to R358): a write of the device to
`done` raises the vector that `notify` names as the write leaves memory, where notify[0] is 1 (log 95). -/
def noteHit (device : Bool) (mem : List Host.Cell) (addr len : Nat) (c : CtxSt) : CtxSt :=
  let sub := c.sub
  let subHit := c.state == 2 && decide (addr / 64 ≤ sub / 64) && decide (sub / 64 ≤ (addr + len - 1) / 64)
  let doneHit := device && c.state == 2 && decide (addr < sub + 16) && decide (sub + 8 < addr + len)
  { c with
    subHit := c.subHit || subHit
    doneHits := if doneHit && (memGet mem (sub + 0x10)).getLsbD 0 then c.doneHits ++ [memGet mem (sub + 0x11)]
      else c.doneHits }

/-- A write of these bytes changes a byte of a line. -/
def changes (line : Nat) (old : Nat → Byte) : Nat → List Byte → Bool
  | _, [] => false
  | a, b :: bs => (a / 64 == line && old a != b) || changes line old (a + 1) bs

/-- A write to device memory wakes the parked wait whose line it changes (R133). -/
def Monitor.noteMem (old : Nat → Byte) (addr : Nat) (bs : List Byte) (m : Monitor) : Monitor :=
  match m.place with
  | .mem a => { m with woken := m.woken || changes (a / 64) old addr bs }
  | _ => m

/-- The same of a write to host memory. -/
def Monitor.noteHost (old : Nat → Byte) (addr : Nat) (bs : List Byte) (m : Monitor) : Monitor :=
  match m.place with
  | .host a => { m with woken := m.woken || changes (a / 64) old addr bs }
  | _ => m

/-- Removes a poisoned line that a write covers whole (R342: a partial write leaves it poisoned). -/
def healLines (addr len : Nat) (ls : List Nat) : List Nat :=
  ls.filter fun l => !(decide (addr ≤ 64 * l) && decide (64 * l + 64 ≤ addr + len))

/-- Writes bytes to device memory, with no undo record. -/
def State.rawWrite (s : State) (device : Bool) (addr : Nat) (bs : List Byte) : State :=
  { s with
    mem := setCells 0 addr bs s.mem
    poison := healLines addr bs.length s.poison
    monitors := s.monitors.map (Monitor.noteMem (memGet s.mem) addr bs)
    ctxs := s.ctxs.map fun (k, c) => (k, noteHit device (setCells 0 addr bs s.mem) addr bs.length c) }

/-- Writes bytes to host memory. -/
def State.hostWrite (s : State) (addr : Nat) (bs : List Byte) : State :=
  { s with
    hostMem := keepCells addr bs s.hostMem
    hostPoison := healLines addr bs.length s.hostPoison
    monitors := s.monitors.map (Monitor.noteHost (hostGet s.hostMem) addr bs) }

/-- The line address of a physical address. -/
def physLine (addr : Nat) : Word := BitVec.ofNat 64 (addr / 64 * 64)

/-- The claim of a record of the undo log is filled (log 84). -/
def Undo.filled (r : Reg) (e : EvRec) (u : Undo) : Undo :=
  if u.claim = some r then { u with claim := none, event := some e } else u

/-- Posts a record to the strand whose iteration has this stamp: the oldest pending claim is filled, or the record joins
the queue (R109, R301). -/
def Strand.post (t : Strand) (e : EvRec) : Strand :=
  match t.claims with
  | r :: rs => { t.xset r e.word with claims := rs, undo := t.undo.map (Undo.filled r e) }
  | [] => { t with events := t.events ++ [e] }

/-- Applies a change to the strand whose iteration has this stamp, wherever it is held. -/
def State.updIter (s : State) (id : Nat) (f : Strand → Strand) : State :=
  let hit (t : Strand) : Bool := t.iter.work != .none && t.iter.id == id
  { s with
    st := if hit s.st then f s.st else s.st
    others := s.others.map fun (k, t) => (k, if hit t then f t else t)
    saved := s.saved.map fun v => if hit v.strand then { v with strand := f v.strand } else v }

/-- The strand whose iteration has this stamp. -/
def State.findIter (s : State) (id : Nat) : Option Strand :=
  let hit (t : Strand) : Bool := t.iter.work != .none && t.iter.id == id
  ((s.st :: s.others.map Prod.snd) ++ s.saved.map Saved.strand).find? hit

/-- The root strand of a context. -/
def State.rootOf (s : State) (ctx : BitVec 12) : Option Strand :=
  ((s.st :: s.others.map Prod.snd) ++ s.saved.map Saved.strand).find? fun t => t.iter.work == .root && t.ctx == ctx

/-! ## Save-pool slots and event posting (R296, R301) -/

/-- Records held for want of a place join the queue as its entries become free (R296). -/
def Strand.takeNotices (t : Strand) : Strand :=
  let room := 32 - t.events.length
  { t with events := t.events ++ t.notices.take room, notices := t.notices.drop room }

/-- The lowest save-pool slot that is free. -/
def CtxSt.freeSlot (c : CtxSt) : Option Nat := (List.range c.slotCount).find? fun k => !c.slots.contains k

/-- The virtual address of a slot (R296). -/
def slotArea (svbase : Word) (k : Nat) : Word := svbase + BitVec.ofNat 64 (0x20000 * (k + 1))

/-- An iteration that is saved or parked: its records go to the ring (R124, R132). -/
def State.isSaved (s : State) (id : Nat) : Bool := s.saved.any fun v => v.strand.iter.id == id

/-- The place of the next spill record of an iteration, if its slot, its ring of 1,024 records and its page allow one
(R296, R301). -/
def State.spillPlace (s : State) (t : Strand) : Option (Nat × Word × Place) :=
  let c := s.context t.ctx
  let room := if s.isSaved t.iter.id then 1024 else 32 + 1024
  match if t.events.length < room then t.iter.slot.or c.freeSlot else none with
  | none => none
  | some k =>
    let va := slotArea c.svbase k + BitVec.ofNat 64 (0x18000 + 32 * (t.spills % 1024))
    match s.checkDevice t.ctx .write 32 va with
    | .ok p _ => some (k, va, p)
    | .bad _ _ => none

/-- A record can join the strand itself: a claim waits for it, or its queue has room. -/
def State.postsDirect (s : State) (id : Nat) (t : Strand) : Bool :=
  !s.isSaved id && (!t.claims.isEmpty || decide (t.events.length < 32))

/-- Whether an engine can post an event to an iteration now (R296): to a claim, to the queue, or to the spill ring. An
iteration that has ended takes none. -/
def State.canPost (s : State) (id : Nat) : Bool :=
  match s.findIter id with
  | none => true
  | some t => s.postsDirect id t || (s.spillPlace t).isSome

/-- Posts an event record (R301): beyond 32 queued records it also goes to the spill ring of the iteration's slot, which
`wr` writes. A record that finds no place there is held until an entry of the queue is free (R296). -/
def State.postBy (s : State) (wr : State → BitVec 12 → Word → Place → List Byte → State) (id : Nat) (e : EvRec) : State :=
  match s.findIter id with
  | none => s
  | some t =>
    if s.postsDirect id t then s.updIter id fun t => t.post e
    else
      match s.spillPlace t with
      | none => s.updIter id fun t => { t with notices := t.notices ++ [e] }
      | some (k, va, p) =>
        let s := wr s t.ctx va p e.bytes
        let c := s.context t.ctx
        let s := if c.slots.contains k then s else s.setContext t.ctx { c with slots := c.slots ++ [k] }
        s.updIter id fun t => { t.post e with spills := t.spills + 1, iter := { t.iter with slot := some k } }

/-! ## Logging and writing (R323, R347 to R349) -/

/-- How a write that leaves a die comes to its home: the sending die and the place (R323). -/
abbrev Cross := State → Nat → Place → State

/-- The compute die of a line of device memory. -/
def lineDie (line : Nat) : Nat := Nat.min 4 (64 * line / 2 ^ 49)

/-- Writes bytes at a place of device memory or of host memory, with no undo record. -/
def State.putAt (s : State) (p : Place) (bs : List Byte) : State :=
  match p with
  | .mem a => s.rawWrite true a bs
  | .host a => s.hostWrite a bs
  | _ => s

/-- Logging stops for the interval (R349): `ulstat`[32] is set, and a notice goes to the strand that started it, or to
the root. Its own spill is not logged, because logging has stopped. -/
def State.logFull (s : State) (cross : Cross) (ctx : BitVec 12) (line : Nat) : State :=
  let c := s.context ctx
  let s := s.setContext ctx { c with ulBad := true }
  let post (id : Nat) : State :=
    s.postBy (fun s _ _ p bs => (cross s (lineDie line) p).putAt p bs) id ⟨0, 2, 0x18, 7, c.ulbase, 0⟩
  match s.findIter c.ulOwner with
  | some _ => post c.ulOwner
  | none =>
    match s.rootOf ctx with
    | some r => post r.iter.id
    | none => s

/-- A line of main memory that the interval has still to log (R349). -/
def CtxSt.unlogged (c : CtxSt) (line : Nat) : Bool :=
  c.ulOn && !c.ulBad && !(c.ulLog.any fun r => r.line == line) && decide (64 * line < 5 * 2 ^ 49)

/-- Writes a line's record at these places of the undo region. It holds the line's physical address (R347), which the
skew of its page gives; `va` lies in that page. -/
def State.putUndo (s : State) (ctx : BitVec 12) (va : Word) (line p q : Nat) : State :=
  let bad := s.poison.contains line
  let skew := s.skewAt ctx va
  let phys := physLine (storageOf skew (64 * line))
  let data := bytesAt (memGet s.mem) (64 * line) 64
  let s := (s.rawWrite true p (undoBytes phys (s.context ctx).ulSeq bad)).rawWrite true q data
  let c := s.context ctx
  s.setContext ctx { c with ulLog := c.ulLog ++ [⟨c.ulLog.length, line, skew, p, q, bad⟩] }

/-- Logs a line before the first write of the interval to it (R349). The record comes from the line's channel controller;
where it crosses to another die, what is applied there first may have used a record of the region. The write itself is
performed even where the region is full. -/
def State.logLine (s : State) (cross : Cross) (ctx : BitVec 12) (va : Word) (line : Nat) : State :=
  if !(s.context ctx).unlogged line then s
  else
    match s.undoPlace ctx (s.context ctx).ulLog.length with
    | none => s.logFull cross ctx line
    | some (p, q) =>
      let s := cross (cross s (lineDie line) (.mem p)) (lineDie line) (.mem q)
      if !(s.context ctx).unlogged line then s
      else
        match s.undoPlace ctx (s.context ctx).ulLog.length with
        | none => s.logFull cross ctx line
        | some (p, q) => s.putUndo ctx va line p q

/-- Logs every line of a write, lowest first. -/
def State.logLines (s : State) (cross : Cross) (ctx : BitVec 12) (va : Word) : Nat → Nat → State
  | _, 0 => s
  | line, n + 1 => (s.logLine cross ctx va line).logLines cross ctx va (line + 1) n

/-- Whether a write lies in its context's own undo region, which is never logged (R349). -/
def State.inUndoRegion (s : State) (ctx : BitVec 12) (va : Word) : Bool :=
  let c := s.context ctx
  decide (c.ulbase.toNat ≤ va.toNat % 2 ^ 56) && decide (va.toNat % 2 ^ 56 < c.ullim.toNat)

/-- Logs the lines of a write of `n` bytes to device memory by a party of a context (R349). -/
def State.logFor (s : State) (cross : Cross) (ctx : BitVec 12) (va : Word) (addr n : Nat) : State :=
  if s.inUndoRegion ctx va || !(s.context ctx).ulOn then s
  else s.logLines cross ctx va (addr / 64) ((addr + n - 1) / 64 + 1 - addr / 64)

/-- A write to device memory by a party of a context, at its home (R349). -/
def State.writeMem (s : State) (cross : Cross) (ctx : BitVec 12) (va : Word) (addr : Nat) (bs : List Byte) : State :=
  (s.logFor cross ctx va addr bs.length).rawWrite true addr bs

/-- Writes bytes at a place of device memory or of host memory, for a context, at its home. -/
def State.landBy (s : State) (cross : Cross) (ctx : BitVec 12) (va : Word) (p : Place) (bs : List Byte) : State :=
  match p with
  | .mem a => s.writeMem cross ctx va a bs
  | .host a => s.hostWrite a bs
  | _ => s

/-! ## Writes between dies (R323, R353) -/

/-- The later of two clocks, entry by entry. -/
def laterClock (x y : Vector Nat 5) : Vector Nat 5 := Vector.ofFn fun i => Nat.max x[i] y[i]

/-- Every write to the same die that the clock of a flight names has been applied. -/
def State.flightReady (s : State) (f : DieWrite) : Bool :=
  !s.flights.any fun g =>
    g != f && g.dest == f.dest && decide (g.clock.getD g.source 0 ≤ f.clock.getD g.source 0) &&
      !(g.source == f.source && decide (f.clock.getD f.source 0 ≤ g.clock.getD f.source 0))

/-- A die applies a write in flight: the store that its strand has sent is performed. -/
def State.landFlightBy (s : State) (cross : Cross) (f : DieWrite) : State :=
  let d := s.die f.dest
  let s := { s.setDie f.dest { d with clock := laterClock d.clock f.clock } with flights := s.flights.erase f }
  let t := s.strand f.strand
  match t.stores with
  | [] => s
  | e :: rest =>
    if e.seq = f.seq ∧ e.sent then
      (s.setStrand f.strand { t with stores := rest, iter := { t.iter with effects := true } }).landBy cross t.ctx e.addr
        e.place (bytesOf e.size e.data.toNat)
    else s

/-- Die `d` applies the writes in flight to it that the clock of die `k` names. -/
def State.deliverNamed (cross : Cross) (k d : Nat) : Nat → State → State
  | 0, s => s
  | n + 1, s =>
    let named (f : DieWrite) : Bool :=
      f.dest == d && decide (f.clock.getD f.source 0 ≤ (s.die k).clock.getD f.source 0) && s.flightReady f
    match s.flights.find? named with
    | none => s
    | some f => State.deliverNamed cross k d n (s.landFlightBy cross f)

/-- Die `k` counts a write that leaves it. -/
def DieSt.sends (d : DieSt) (k : Nat) : DieSt := { d with clock := d.clock.setIfInBounds k (d.clock.getD k 0 + 1) }

/-- A write from die `k` is about to be applied at its home. Where that is another die, every write that the clock of
die `k` names is applied there first, and the clocks move on. A write that is applied may log a line, whose record then
crosses too; each one applied is one fewer in flight, which bounds the depth. -/
def State.crossBy : Nat → Cross
  | 0 => fun s _ _ => s
  | n + 1 => fun s k p =>
    let d := p.home k
    if d = k then s
    else
      let s := State.deliverNamed (State.crossBy n) k d s.flights.length s
      let s := s.setDie k ((s.die k).sends k)
      s.setDie d { s.die d with clock := laterClock (s.die d).clock (s.die k).clock }

/-- A write from die `k` comes to its home. -/
def State.crossed (s : State) (k : Nat) (p : Place) : State := State.crossBy (s.flights.length + 1) s k p

/-- Writes bytes for a context at their home. -/
def State.land (s : State) (ctx : BitVec 12) (va : Word) (p : Place) (bs : List Byte) : State :=
  s.landBy State.crossed ctx va p bs

/-- A die applies a write in flight. -/
def State.landFlight (s : State) (f : DieWrite) : State := s.landFlightBy State.crossed f

/-! ## Writing at a place -/

/-- The lines of a write of `n` bytes are logged ahead of it. -/
def State.logAhead (s : State) (ctx : BitVec 12) (va : Word) (p : Place) (n : Nat) : State :=
  match p with
  | .mem a => s.logFor State.crossed ctx va a n
  | _ => s

/-- An access that reads and then writes `n` bytes comes to its home from die `k`. Its lines are logged before it reads: an
undo record that crosses may have another write applied first, and none comes between the read and the write (R315, R323,
R349). -/
def State.opened (s : State) (k : Nat) (ctx : BitVec 12) (va : Word) (p : Place) (n : Nat) : State :=
  (s.crossed k p).logAhead ctx va p n

/-- Writes bytes at a place for the strand in focus, at their home. -/
def State.storeAt (s : State) (va : Word) (p : Place) (bs : List Byte) : State :=
  match p with
  | .mem _ | .host _ => s.land s.st.ctx va p bs
  | .scratch a => s.upd fun t =>
    { t with scratch := keepCells a bs t.scratch, scratchBad := healLines a bs.length t.scratchBad }
  | .cscratch a =>
    let k := clusterOf s.cur
    let c := s.cluster k
    s.setCluster k { c with
      ranges := c.ranges.map fun r =>
        if r.launch == s.st.iter.launch then
          { r with cells := keepCells a bs r.cells, bad := healLines a bs.length r.bad }
        else r }
  | .batch a => s.upd fun t =>
    { t with batch := keepCells a bs t.batch, batchBad := healLines a bs.length t.batchBad }
  | .blob _ => s

/-- Writes bytes at a place for the strand in focus. -/
def State.writePlace (s : State) (va : Word) (p : Place) (bs : List Byte) : State :=
  (s.crossed (dieOf s.cur) p).storeAt va p bs

/-- Writes bytes at a place for a context, from die `k`. -/
def State.writeFrom (s : State) (k : Nat) (ctx : BitVec 12) (va : Word) (p : Place) (bs : List Byte) : State :=
  (s.crossed k p).land ctx va p bs

/-- The line of a place becomes poisoned. -/
def State.poisonPlace (s : State) (p : Place) : State :=
  match p with
  | .mem a => if s.poison.contains (a / 64) then s else { s with poison := a / 64 :: s.poison }
  | .host a => if s.hostPoison.contains (a / 64) then s else { s with hostPoison := a / 64 :: s.hostPoison }
  | _ => s

/-- Writes `n` bytes of one line as poisoned, from die `k` (R342): a write as any other, whose bytes no party sees. -/
def State.spoilFrom (s : State) (k : Nat) (ctx : BitVec 12) (va : Word) (p : Place) (n : Nat) : State :=
  let s := s.crossed k p
  (s.land ctx va p (s.placeBytes p n)).poisonPlace p

/-- Posts an event record for the context of the iteration, from die `k` (R301). -/
def State.postEvent (s : State) (k id : Nat) (e : EvRec) : State :=
  s.postBy (fun s ctx va p bs => s.writeFrom k ctx va p bs) id e

/-! ## The program counter and waiting -/

/-- The next instruction: the pc moves past this word (R28). -/
def Strand.next (t : Strand) : Strand := { t with pc := t.pc + 4, redecode := none, waiting := false, timedOut := false }

/-- The instruction completes. -/
def State.advance (s : State) : State := { s with st := s.st.next }

/-- The strand waits: nothing of the instruction has taken effect, and it is decoded again (R15, R16, R118). -/
def State.stall (s : State) : State := { s with st := { s.st with waiting := true } }

/-! ## Machine-check log (R346, R351) -/

/-- Writes an entry of the die's machine-check log, newest first, 16 at most. -/
def State.logCheck (s : State) (cause : BitVec 8) (tval tepc : Word) (unit : Nat) : State :=
  let k := dieOf s.cur
  let d := s.die k
  s.setDie k { d with mclog := (⟨cause, s.cur, tval, tepc, unit⟩ :: d.mclog).take 16 }

/-! ## Traps (R121 to R124) -/

/-- A handler entered inside the critical section has not returned: the section is suspended (R111). -/
def Strand.critSusp (t : Strand) : Bool := t.critDepth != 0

/-- An instruction of the section completes, where the section is not suspended (R111). -/
def Strand.countOne (t : Strand) : Strand := if t.crit && !t.critSusp then { t with critCount := t.critCount + 1 } else t

/-- Which side a trap arises on (R121). -/
inductive Side where
  | scalar
  | vector
  | async
  deriving DecidableEq, Repr

/-- `tcause`: the code, [8] vector-side, [9] asynchronous (R126). -/
def tcauseOf (side : Side) (cause : BitVec 8) : BitVec 10 :=
  match side with
  | .scalar => 0#2 ++ cause
  | .vector => 1#2 ++ cause
  | .async => 2#2 ++ cause

/-- The iteration ends as a cancelled one (R123): its image and the stores that wait on it are dropped, and it ends once
its other stores are performed. -/
def Strand.endByTrap (t : Strand) (cause : BitVec 8) : Strand :=
  { t with
    queue := []
    image := []
    held := false
    stores := t.stores.filter fun e => e.after.isNone
    crit := false
    critDepth := 0
    sleep := .awake
    waiting := false
    pending := []
    hold := none
    watch := false
    watchOut := false
    tonPend := none
    undo := []
    iter := { t.iter with ending := true, cause := cause } }

/-- Trap entry into the handler (R123), with the queue as its image (R122). An `endit` that waits is decoded again after
the handler returns. -/
def Strand.enter (t : Strand) (side : Side) (cause : BitVec 8) (tval tepc : Word) : Strand :=
  { t with
    image := t.queue
    queue := []
    ppl := t.level
    level := .supervisor
    held := !t.queue.isEmpty
    skip := false
    tcause := tcauseOf side cause
    tval := tval
    tepc := tepc.truncate 56
    pc := t.tvec
    critDepth := if t.crit then t.critDepth + 1 else 0
    sleep := .awake
    waiting := false
    hold := none
    redecode := none
    timedOut := false
    watch := false
    watchOut := false
    tonPend := none
    undo := []
    iter := { t.iter with ending := false } }

/-- The strand stops with its state intact, because the trap would lose a held image (R124). -/
def Strand.stopHeld (t : Strand) (cause : BitVec 8) : Strand := 
  { t with
    run := .stopped cause
    waiting := false
    hold := none
    sleep := .awake
    watch := false
    watchOut := false
    tonPend := none }

/-- The notice of a strand that stopped, or `rootcause` when it is the root itself (R124). -/
def State.noticeStopped (s : State) (side : Side) (cause : BitVec 8) (tval : Word) : State :=
  if s.st.iter.work == .root then
    s.setContext s.st.ctx ((s.context s.st.ctx).setField 0x05 1 cause.toNat)
  else
    match s.rootOf s.st.ctx with
    | none => s
    | some r =>
      let desc := if side == .async then 0 else s.st.pc
      s.postEvent (dieOf s.cur) r.iter.id ⟨BitVec.ofNat 32 s.cur, 1, cause, 7, desc, tval⟩

/-- The commands and Pontoon items of an iteration are those of a cancelled issuer (R123, R245). -/
def State.cancelWork (s : State) (id : Nat) : State :=
  { s with
    cmds := s.cmds.map fun c => if c.iter == id then { c with cancelled := true } else c
    clusters := s.clusters.map fun p => (p.1, { p.2 with
      items := p.2.items.map fun i => if i.iter == id && !i.running then { i with cancelled := true } else i }) }

/-- TAKING A TRAP (R123, R124), once the conditions of R122 hold: the handler is entered, or the iteration ends where
there is none, or the strand stops because a held image would be lost. Where both a held image would be lost and
`tvec` is 0, the strand stops (DESIGN CHOICE, log 75). -/
def State.takeTrap (s : State) (side : Side) (cause : BitVec 8) (tval tepc : Word) : State :=
  if s.st.held && s.st.level == .supervisor then
    (s.noticeStopped side cause tval).upd fun t => t.stopHeld cause
  else if s.st.tvec = 0 then (s.cancelWork s.st.iter.id).upd fun t => t.endByTrap cause
  else s.upd fun t => t.enter side cause tval tepc

/-- A resumed strand waits for the tiles that it held when it was saved (R202): it does nothing until they are
granted. -/
def Strand.restoring (t : Strand) : Bool := t.tonPend.any TonReq.resume

/-- Nothing older than the instruction at pc is outstanding: every queue entry has retired and every load has delivered
its value (R122). -/
def Strand.settled (t : Strand) : Bool := t.queue.isEmpty && t.loads.isEmpty

/-- A trap of the instruction at pc: decoding stops until every older queue entry has retired and every load has
delivered its value, and then the trap is taken (R122; TRAP_ENTRY). -/
def State.scalarTrapAt (s : State) (cause : BitVec 8) (tval tepc : Word) : State :=
  if s.st.settled then s.takeTrap .scalar cause tval tepc
  else s.upd fun t => { t with hold := some ⟨cause, tval, tepc⟩, waiting := true }

/-- A trap of the instruction at pc whose `tepc` is the instruction itself (R121). -/
def State.trap (s : State) (cause : BitVec 8) (tval : Word) : State := s.scalarTrapAt cause tval s.st.pc

/-- A vector-side trap of the head of the queue, stopped at element `k` (R122): `tepc` is the run-ahead point. -/
def State.vectorTrap (s : State) (cause : BitVec 8) (tval : Word) (k : Nat) : State :=
  (s.upd fun t => { t with vstart := BitVec.ofNat 12 k }).takeTrap .vector cause tval s.st.pc

/-- Counts a consumption of poison on die `k` (R351). -/
def State.countPoisonOn (s : State) (k : Nat) : State :=
  let d := s.die k
  s.setDie k { d with poisonUses := d.poisonUses + 1 }

/-- The strand in focus consumes poison (R351). -/
def State.countPoison (s : State) : State := s.countPoisonOn (dieOf s.cur)

/-- A corrected error is counted in the error log of its die (R341, R342). -/
def State.countCorrected (s : State) (k : Nat) : State :=
  if 4 < k then s
  else
    let d := s.die k
    s.setDie k { d with corrected := d.corrected + 1 }

/-- A machine check of the instruction at pc (R346), entered in the die's log. -/
def State.machineCheck (s : State) (tval : Word) (unit : Nat) : State :=
  if s.st.settled then
    (s.countPoison.logCheck 0x13 tval s.st.pc unit).takeTrap .scalar 0x13 tval s.st.pc
  else s.stall

/-- A scalar instruction reads a poisoned line (R344): it is decoded again once, after every older entry has retired;
the second time it takes the machine check. -/
def State.consume (s : State) (tval : Word) : State :=
  if !s.st.settled then s.stall
  else if s.st.redecode == some s.st.pc then s.machineCheck tval 6
  else s.countPoison.upd fun t => { t with redecode := some t.pc, waiting := true }

/-- The line of the first poisoned byte that an access reads (R342), by its virtual address. -/
def State.poisonAt (s : State) (va : Word) (p : Place) (n : Nat) : Option Word :=
  let find (ls : List Nat) (a : Nat) : Option Word :=
    if ls.isEmpty then none
    else ((List.range n).find? fun i => ls.contains ((a + i) / 64)).map fun i =>
      (va + BitVec.ofNat 64 i) &&& ~~~(63#64)
  match p with
  | .mem a => find s.poison a
  | .host a => find s.hostPoison a
  | .scratch a => find s.st.scratchBad a
  | .cscratch a =>
    match s.cRange with
    | some r => find r.bad a
    | none => none
  | .batch a => find s.st.batchBad a
  | .blob a => find s.blobBad a

/-! ## Returning (R125) -/

/-- Applies the tags that an entry writes to the decode copies (R187). -/
def Strand.copyTags (t : Strand) (ws : List (Reg × Byte)) : Strand := ws.foldl (fun t p => t.setDtag p.1 p.2) t

/-- The decode copies as the entries of a queue will leave the tags (R187). -/
def Strand.retag (t : Strand) (queue : List QEntry) : Strand :=
  queue.foldl (fun t e => t.copyTags e.wtags) { t with dtag := t.gtag }

/-- `eret` once the handler's own queue is empty: the image goes back in its order, its head to run again from `vstart`,
and the saved level and pc return. With `skip` the head retires with no effect. -/
def Strand.return_ (t : Strand) : Strand :=
  let back := if t.held then (if t.skip then t.image.drop 1 else t.image) else []
  let fresh (e : QEntry) : QEntry := { e with started := false, rechecked := false }
  let back := match back with
    | [] => []
    | e :: es => (if t.held && !t.skip then { fresh e with reissued := true } else fresh e) :: es.map fresh
  let gone := if t.held && t.skip then t.image.take 1 else []
  let t := if t.held then t.retag back else t
  let t := t.mergeScalar gone
  { t with
    queue := back
    image := []
    stores := t.stores.map fun e => if e.after.any (gone.map QEntry.seq).contains then { e with after := none } else e
    vstart := if t.held && t.skip then 0 else t.vstart
    held := false
    level := t.ppl
    pc := t.tepc.signExtend 64
    critDepth := if t.ppl == .user then 0 else t.critDepth - 1
    waiting := false
    redecode := none
    undo := []
    timedOut := false
    watch := false
    watchOut := false }

/-! ## The gate of a scalar instruction (R14 to R16) -/

/-- A source that is empty and marked trap-if-empty (R15); where two are, the first one (DESIGN CHOICE, log 83). -/
def Strand.emptyMarked (t : Strand) (srcs : List (Reg × Bool)) : Option Reg :=
  (srcs.find? fun p => p.2 && !t.isFull p.1).map Prod.fst

/-- Every source and destination can be used now (R15, R16). -/
def Strand.allReady (t : Strand) (rs : List Reg) : Bool := rs.all t.xready

/-- Whether a source is poisoned (R344). -/
def Strand.anyPoison (t : Strand) (rs : List Reg) : Bool := rs.any fun r => decide (r ≠ 0) && hasReg t.xpoison r

/-- The gate of a scalar instruction: trap 0x03 for a marked empty source, a wait for other empty registers, a machine
check for a poisoned source, else the effect (R15, R16, R344). -/
def State.gated (s : State) (srcs : List (Reg × Bool)) (dsts : List Reg) (effect : State → State) : State :=
  match s.st.emptyMarked srcs with
  | some r => s.trap 0x03 (r.zeroExtend 64)
  | none =>
    if !s.st.allReady (srcs.map Prod.fst ++ dsts) then s.stall
    else if s.st.anyPoison (srcs.map Prod.fst) then s.machineCheck 0 0
    else effect s

/-- Whether any older entry of the vector queue has not retired. -/
def Strand.busy (t : Strand) : Bool := !t.queue.isEmpty

/-- The instruction word at pc, as memory gives it to the fetch; `tval` of decode traps (R37). -/
def State.wordAt (s : State) (p : Place) : IWord := BitVec.ofNat 32 (ofBytes (s.seenBytes p 4))

/-- The checks of a fetch (R28, R290, R292). -/
def State.fetchCheck (s : State) : Chk := s.check .fetch 4 4 s.st.pc

/-- The word at pc, where the fetch succeeds. -/
def State.fetchWord (s : State) : Option IWord :=
  match s.fetchCheck with
  | .ok p _ => some (s.wordAt p)
  | .bad _ _ => none

/-- The word of an instruction, as `tval` receives it (R37, R121). -/
def wordOf (i : Instr) : Word := ((encode i).getD 0).zeroExtend 64

/-- A decode trap of the instruction at pc (R37): 0x02, 0x04, 0x0C, 0x0E or 0x19, with the instruction word in `tval`.
-/
def State.decodeTrap (s : State) (i : Instr) (cause : BitVec 8) : State := s.trap cause (wordOf i)

end Sys2Proof.Machine
end

