-- ==== Sys2Proof/Machine/Operands.lean ====
section
/-! DEFINITION. Operand forms: widths, immediates, addresses and branch targets, masks, replicated sources, register
groups and segments, and the frames of the scalar instructions. -/

namespace Sys2Proof.Machine

/-! ## Widths and VLMAX (R29, R61, R107) -/

/-- Bits of an integer element: 8, 16, 32 or 64 (R61). -/
def intWidth (ty : BitVec 2) : Nat := 8 * 2 ^ ty.toNat

/-- Bytes of an integer element. -/
def intBytes (ty : BitVec 2) : Nat := 2 ^ ty.toNat

/-- Bits of a floating element (R63). -/
def fpWidth (ty : BitVec 2) : Nat := (fmtOf ty).width

/-- VLMAX of plain elements of `w` bits (R107). -/
def vlmaxOf (w : Nat) : Nat := 16384 / w

/-- Components of a grade (R107): 1, 4, 6, 4, 1. -/
def gradeSize (k : Nat) : Nat :=
  match k with
  | 0 => 1
  | 1 => 4
  | 2 => 6
  | 3 => 4
  | 4 => 1
  | _ => 0

/-- Components of a grade mask (R107). -/
def gradeCount (gm : BitVec 5) : Nat := ((List.range 5).map fun k => if gm.getLsbD k then gradeSize k else 0).sum

/-- VLMAX of multivectors (R107): components of type f32 (10), or of bf16 and f16. -/
def vlmaxM (ct : BitVec 2) (gm : BitVec 5) : Nat := if gm = 0 then 0 else (if ct == 2 then 512 else 1024) / gradeCount gm

/-! ## Immediates, addresses and targets (R30, R92 to R96) -/

/-- A signed immediate. -/
def sext {n : Nat} (i : BitVec n) : Word := i.signExtend 64

/-- An unsigned immediate. -/
def zext {n : Nat} (i : BitVec n) : Word := i.zeroExtend 64

/-- imm21 × 65,536 (R93). -/
def highImm (i : BitVec 21) : Word := sext i <<< 16

/-- A branch or jump target: the offset counts instruction words (R30). -/
def targetOf {n : Nat} (pc : Word) (off : BitVec n) : Word := pc + (sext off <<< 2)

/-- The address of an M-format access: base plus displacement in elements of `size` bytes (R30, R96). -/
def dispAddr (base : Word) (disp : BitVec 10) (size : Nat) : Word := base + sext disp * BitVec.ofNat 64 size

/-! ## Values in x registers (R12, R96) -/

/-- The floating value that an x register holds: its low bits (R12). -/
def fpBits (ty : BitVec 2) (x : Word) : Nat := x.toNat % 2 ^ fpWidth ty

/-- A number written to an x register with the upper bits cleared (R12). -/
def ofBits (x : Nat) : Word := BitVec.ofNat 64 x

/-- A truth value as a 64-bit integer. -/
def ofFlag (b : Bool) : Word := if b then 1 else 0

/-- `w` low bits of a number, extended into an x register. -/
def extendBits (w : Nat) (signed : Bool) (x : Nat) : Word := BitVec.ofInt 64 (readInt w (!signed) x)

/-! ## Masks and replicated sources (R139, R140) -/

/-- Whether element e is enabled (R139). -/
def Strand.on (t : Strand) (m : Bool) (e : Nat) : Bool := !m || t.vm.getLsbD e

/-- The element of source b that element e reads (R140). -/
def srcb (rep : BitVec 3) (e : Nat) : Nat :=
  match rep.toNat with
  | 4 => 0
  | 5 => e % 4
  | 6 => e % 16
  | 7 => e % 64
  | _ => e

/-- R140: a v destination equal to a replicated b is refused. -/
def repLegal (d b : Reg) (rep : BitVec 3) : Bool := decide (rep = 0) || decide (d ≠ b)

/-! ## Register groups (R35) -/

/-- A group of `n` registers from `r` on stays below 32. -/
def groupFits (r : Reg) (n : Nat) : Bool := decide (r.toNat + n ≤ 32)

/-- Two groups share a register. -/
def groupsMeet (r n q m : Nat) : Bool := decide (r < q + m) && decide (q < r + n)

/-- R35: a destination group that partly overlaps a source group. -/
def partOverlap (d n a m : Nat) : Bool := groupsMeet d n a m && !(d == a && n == m)

/-- A register's number plus `i`. -/
def regAt (r : Reg) (i : Nat) : Reg := r + BitVec.ofNat 5 i

/-! ## Segments (R137) -/

/-- The lengths of the segments of elements `e` to `e + n − 1`, the first of which begins with `e`; `k` elements of it
have been counted. -/
def segLengths (vsg : MaskReg) : Nat → Nat → Nat → List Nat
  | 0, _, k => if k == 0 then [] else [k]
  | n + 1, e, k => if k != 0 && vsg.getLsbD e then k :: segLengths vsg n (e + 1) 1 else segLengths vsg n (e + 1) (k + 1)

/-- The segments of elements 0 .. vl − 1: start and length (R137). -/
def segmentsOf (vsg : MaskReg) (vl : Nat) : List (Nat × Nat) :=
  ((segLengths vsg vl 0 0).foldl (fun (acc : List (Nat × Nat) × Nat) n => ((acc.2, n) :: acc.1, acc.2 + n)) ([], 0)).1.reverse

/-! ## Frames of the scalar instructions (R15, R16, R87) -/

/-- `mnemonic xd, xa, xb`: the result goes to xd and the pc moves on. -/
def State.binary (s : State) (o : XOps) (f : Word → Word → Word) : State :=
  s.gated [(o.a, o.fa), (o.b, o.fb)] [o.d] fun s => (s.setX o.d (f (s.st.xget o.a) (s.st.xget o.b))).advance

/-- `mnemonic xd, xa`. -/
def State.unary (s : State) (d a : Reg) (fa : Bool) (f : Word → Word) : State :=
  s.gated [(a, fa)] [d] fun s => (s.setX d (f (s.st.xget a))).advance

/-- A scalar instruction with no source. It reads no register and waits for none (R93), but an empty destination it waits
for as every instruction does (R16, R118; log 42). -/
def State.constant (s : State) (d : Reg) (v : Word) : State := s.gated [] [d] fun s => (s.setX d v).advance

/-- The pc after a taken branch or a jump. -/
def Strand.goto (t : Strand) (target : Word) : Strand := { t.next with pc := target }

end Sys2Proof.Machine
end

