-- ==== Sys2Proof/Machine/ControlRegs.lean ====
section
/-! DEFINITION. The control registers by index (R21 to R27, R126), and the instructions that access them (R105). -/

namespace Sys2Proof.Machine

/-- Word `k` of a 2,048-bit mask (R22). -/
def maskWord (m : MaskReg) (k : Nat) : Word := m.extractLsb' (64 * k) 64

/-- Replaces word `k` of a mask. -/
def setMaskWord (m : MaskReg) (k : Nat) (v : Word) : MaskReg := setElem m 64 k v.toNat

/-- A gtag value that R26 allows: plain is all zero, a multivector has a component type and grades. -/
def legalTag (g : Byte) : Bool :=
  if g.getLsbD 0 then g.extractLsb' 1 2 != 3 && g.extractLsb' 3 5 != 0 else g == 0

/-- `tstat`: ppl, held, skip (R126). -/
def Strand.tstat (t : Strand) : BitVec 3 :=
  BitVec.ofBool t.skip ++ BitVec.ofBool t.held ++ BitVec.ofBool (t.ppl == .supervisor)

/-- `ton`: pend and owned (R27). -/
def Strand.tonReg (t : Strand) : BitVec 4 := BitVec.ofBool t.tonPend.isSome ++ t.tonOwned

/-- `ulstat`: unrecoverable and the interval sequence (R126). -/
def CtxSt.ulstat (c : CtxSt) : BitVec 33 := BitVec.ofBool c.ulBad ++ c.ulSeq

/-- `vcp` (R19, R122): the oldest entry not retired, first of the queue, then of a held image, else the instruction that
the strand decodes next: the one at pc, and while the instruction at pc executes the one after it. -/
def Strand.vcp (t : Strand) (executing : Bool) : Word :=
  match t.queue ++ t.image with
  | e :: _ => e.pc
  | [] => if executing then t.pc + 4 else t.pc

/-- The registers below 0x100, which belong to the strand (R22), as the strand's own instruction reads them. -/
def Strand.crLow (t : Strand) (i : Nat) : Word :=
  if 0x040 ≤ i ∧ i < 0x060 then maskWord t.vm (i - 0x040)
  else if 0x060 ≤ i ∧ i < 0x080 then maskWord t.vsg (i - 0x060)
  else if 0x080 ≤ i ∧ i < 0x0A0 then zext (t.tag (BitVec.ofNat 5 (i - 0x080)))
  else if h : 0x011 ≤ i ∧ i < 0x018 then zext (t.ffirst[i - 0x011]'(by omega))
  else
    match i with
    | 0x000 => zext t.vl
    | 0x002 => t.vs
    | 0x003 => zext t.vgm
    | 0x004 => zext t.vstart
    | 0x005 => zext t.vdirty
    | 0x006 => t.vcp true &&& 0xFFFFFFFFFFFFFF
    | 0x007 => BitVec.ofNat 64 (t.queue.length + t.image.length)
    | 0x008 => zext t.vfrem
    | 0x010 => zext t.fflags
    | 0x018 => zext t.frm
    | 0x019 => ofFlag t.fz
    | 0x01A => zext t.trp
    | 0x01B => zext t.tcp
    | 0x01C => zext t.tonReg
    | 0x020 => zext t.xresume
    | 0x021 => zext t.wto
    | 0x022 => zext t.cbsel
    | _ => 0

/-- The identity registers of a strand (R22). -/
def idRegister (n : Nat) (ctx : BitVec 12) (i : Nat) : Word :=
  match i with
  | 0x100 => BitVec.ofNat 64 (n % 4)
  | 0x101 => BitVec.ofNat 64 (n / 4 % 8)
  | 0x102 => BitVec.ofNat 64 (n / 32 % 16)
  | 0x103 => BitVec.ofNat 64 (n / 512)
  | 0x104 => zext ctx
  | _ => BitVec.ofNat 64 n

/-- The field of a register: the bits that its map does not show as zero (R21, R22, R126). -/
def crField (i : Nat) : Word :=
  if 0x040 ≤ i ∧ i < 0x080 then -1
  else if 0x080 ≤ i ∧ i < 0x0A0 then 0xFF
  else if 0x011 ≤ i ∧ i < 0x018 then 0xFFFF
  else
    match i with
    | 0x000 | 0x004 => 0xFFF
    | 0x002 | 0x202 | 0x205 => -1
    | 0x003 => 0x1F
    | 0x005 => 0xFFFFFFFFF
    | 0x008 | 0x01A | 0x01B | 0x020 | 0x021 => 0xFFFFFFFF
    | 0x010 => 0x7F
    | 0x018 | 0x204 => 0x7
    | 0x019 | 0x207 => 0x1
    | 0x022 => 0x3
    | 0x200 => 0xFFFFFFFFFFFFFC
    | 0x201 => 0x3FF
    | 0x203 => 0xFFFFFFFFFFFFFF
    | 0x208 | 0x209 => 0xFFFFFFFFFFFFC0
    | _ => 0

/-- The supervisor registers (R126); bits above a field read as zero (R22). -/
def Strand.crHigh (t : Strand) (c : CtxSt) (i : Nat) : Word :=
  match i with
  | 0x200 => t.tvec &&& crField 0x200
  | 0x201 => zext t.tcause
  | 0x202 => t.tval
  | 0x203 => zext t.tepc
  | 0x204 => zext t.tstat
  | 0x205 => t.tscratch
  | 0x206 => zext t.prio
  | 0x207 => ofFlag t.rchk
  | 0x208 => c.ulbase &&& crField 0x208
  | 0x209 => c.ullim &&& crField 0x209
  | 0x20A => zext c.ulstat
  | 0x20B => t.svbase &&& 0xFFFFFFFFFFF000
  | _ => 0

/-- The value of a control register. -/
def State.crGet (s : State) (i : Nat) : Word :=
  if i < 0x100 then s.st.crLow i
  else if i < 0x200 then idRegister s.cur s.st.ctx i
  else s.st.crHigh (s.context s.st.ctx) i

/-- The read-only registers (R22, R126). -/
def crReadOnly (i : Nat) : Bool :=
  i == 0x006 || i == 0x007 || i == 0x01C || (decide (0x100 ≤ i) && decide (i < 0x200)) || i == 0x206 || i == 0x20A ||
    i == 0x20B

/-- A value that a register's map marks illegal (R22, R23, R26). -/
def crIllegal (i : Nat) (v : Word) : Bool :=
  if 0x080 ≤ i ∧ i < 0x0A0 then !legalTag (v.truncate 8)
  else
    match i with
    | 0x000 => decide (2048 < v.toNat)
    | 0x018 => decide (4 < v.toNat)
    | _ => false

/-- The canonical address that the field of `tvec` names (R126, R290). -/
def handlerOf (v : Word) : Word := canonOf v

/-- Writes a register of the strand: each field takes its bits; `vl` becomes full (R23), a tag and its decode copy
change together (R187), and `held` ignores what is written (R126). -/
def Strand.crPut (t : Strand) (i : Nat) (v : Word) : Strand :=
  if 0x040 ≤ i ∧ i < 0x060 then { t with vm := setMaskWord t.vm (i - 0x040) v }
  else if 0x060 ≤ i ∧ i < 0x080 then { t with vsg := setMaskWord t.vsg (i - 0x060) v }
  else if 0x080 ≤ i ∧ i < 0x0A0 then
    let r := BitVec.ofNat 5 (i - 0x080)
    (t.setTag r (v.truncate 8)).setDtag r (v.truncate 8)
  else if h : 0x011 ≤ i ∧ i < 0x018 then { t with ffirst := t.ffirst.set (i - 0x011) (v.truncate 16) (by omega) }
  else
    match i with
    | 0x000 => { t with vl := v.truncate 12, vlFull := true }
    | 0x002 => { t with vs := v }
    | 0x003 => { t with vgm := v.truncate 5 }
    | 0x004 => { t with vstart := v.truncate 12 }
    | 0x005 => { t with vdirty := v.truncate 36 }
    | 0x008 => { t with vfrem := v.truncate 32 }
    | 0x010 => { t with fflags := v.truncate 7 }
    | 0x018 => { t with frm := v.truncate 3 }
    | 0x019 => { t with fz := v.getLsbD 0 }
    | 0x01A => { t with trp := v.truncate 32 }
    | 0x01B => { t with tcp := v.truncate 32 }
    | 0x020 => { t with xresume := v.truncate 32 }
    | 0x021 => { t with wto := v.truncate 32 }
    | 0x022 => { t with cbsel := v.truncate 2 }
    | 0x200 => { t with tvec := handlerOf v }
    | 0x201 => { t with tcause := v.truncate 10 }
    | 0x202 => { t with tval := v }
    | 0x203 => { t with tepc := v.truncate 56 }
    | 0x204 => { t with ppl := if v.getLsbD 0 then .supervisor else .user, skip := v.getLsbD 2 }
    | 0x205 => { t with tscratch := v }
    | 0x207 => { t with rchk := v.getLsbD 0 }
    | _ => t

/-- Writes a control register; `ulbase` and `ullim` belong to the context (R348). -/
def State.crSet (s : State) (i : Nat) (v : Word) : State :=
  if i == 0x208 then s.setContext s.st.ctx { s.context s.st.ctx with ulbase := v }
  else if i == 0x209 then s.setContext s.st.ctx { s.context s.st.ctx with ullim := v }
  else s.upd fun t => t.crPut i v

/-- The checks of an access before any effect (R20, R21): privilege, then a write to a read-only register; and the wait
of an access below 0x100 for older vector entries. -/
def State.crAccess (s : State) (i : Instr) (idx : BitVec 12) (write : Bool) (effect : State → State) : State :=
  if crPrivileged idx.toNat && s.st.level == .user then s.decodeTrap i 0x19
  else if write && crReadOnly idx.toNat then s.decodeTrap i 0x02
  else if decide (idx.toNat < 0x100) && s.st.busy then s.stall
  else effect s

/-- A write: the new value is checked, then the old one goes into xd (R21). -/
def State.crWrite (s : State) (i : Instr) (o : CrOps) (whole : Bool) (new : Word → Word → Word) : State :=
  s.crAccess i o.idx true fun s =>
    s.gated [(o.a, false)] [o.d] fun s =>
      let k := o.idx.toNat
      let x := s.st.xget o.a
      let old := s.crGet k
      let v := new old x
      if (whole && decide (x &&& ~~~(crField k) ≠ 0)) || crIllegal k v then s.decodeTrap i 0x02
      else ((s.crSet k v).setX o.d old).advance

/-- `crr` reads the register into xd. -/
def execCrr (o : CrrOps) (s : State) : Result :=
  .next (s.crAccess (.crr o) o.idx false fun s =>
    s.gated [] [o.d] fun s => (s.setX o.d (s.crGet o.idx.toNat)).advance)

/-- `crw` writes the whole of xa; any bit outside the field is illegal. -/
def execCrw (o : CrOps) (s : State) : Result := .next (s.crWrite (.crw o) o true fun _ x => x)

/-- `crs` sets bits of the field. -/
def execCrs (o : CrOps) (s : State) : Result :=
  .next (s.crWrite (.crs o) o false fun old x => old ||| (x &&& crField o.idx.toNat))

/-- `crc` clears bits of the field. -/
def execCrc (o : CrOps) (s : State) : Result :=
  .next (s.crWrite (.crc o) o false fun old x => old &&& ~~~(x &&& crField o.idx.toNat))

end Sys2Proof.Machine
end

