-- ==== Sys2Proof/Machine/Rewind.lean ====
section
/-! DEFINITION. Going back to a load or an atomic whose value has not come (R118, R122, R344): what the instructions after
it have changed on the scalar side, and how that is taken back (log 84). -/

namespace Sys2Proof.Machine

/-! ## What is kept -/

/-- The control registers of the strand that its instructions write. -/
def undoCrs : List Nat :=
  [0x000, 0x002, 0x003, 0x004, 0x005, 0x008] ++ List.range' 0x010 12 ++ [0x020, 0x021, 0x022] ++ List.range' 0x040 96 ++
    [0x200, 0x201, 0x202, 0x203, 0x204, 0x205, 0x207]

/-- The value of one of them. -/
def Strand.crKept (t : Strand) (i : Nat) : Word := if i < 0x100 then t.crLow i else t.crHigh CtxSt.reset i

/-- What the instruction `i` has changed. A register that could not be read before it is no register that it wrote: an
instruction waits for its destination (R16). -/
def undoOf (i : Instr) (before after : Strand) : Undo :=
  let stamped := before.seq != after.seq
  let claimed := decide (before.claims.length < after.claims.length)
  let popped := match i with
    | .evpop _ => !after.waiting
    | _ => false
  { stamp := if stamped then some before.seq else none
    pushed := stamped && !(after.loads.any fun l => l.seq == before.seq) && !after.stores.any fun e => e.seq == before.seq
    x := (List.range' 1 31).filterMap fun n =>
      let r : Reg := BitVec.ofNat 5 n
      let bad := hasReg before.xpoison r
      if before.xready r && !(after.xready r && after.xget r == before.xget r && hasReg after.xpoison r == bad) then
        some (r, before.xget r, bad)
      else none
    cr := undoCrs.filterMap fun k => if before.crKept k = after.crKept k then none else some (k, before.crKept k)
    crit := before.crit
    critCount := before.critCount
    critDepth := before.critDepth
    tonOwned := before.tonOwned
    event := if popped && !claimed then before.events.head? else none
    claim := if popped && claimed then after.claims.getLast? else none }

/-- The stamps of the accesses in flight that will fill a register. -/
def Strand.awaited (t : Strand) : List Nat :=
  t.loads.map LoadFlight.seq ++ (t.stores.filter fun e => e.dest.isSome).map SEntry.seq

/-- The records from the oldest of these accesses on. -/
def trimUndo (live : List Nat) : List Undo → List Undo
  | [] => []
  | u :: us =>
    let r := trimUndo live us
    if r.isEmpty && !u.stamp.any live.contains then [] else u :: r

/-- The strand after an instruction that it fetched, with its record where an access is in flight. -/
def Strand.noteUndo (i : Instr) (before after : Strand) : Strand :=
  if after.awaited.isEmpty then { after with undo := [] }
  else { after with undo := trimUndo after.awaited (undoOf i before after :: after.undo) }

/-! ## Going back -/

/-- The records from the access with a stamp on, newest first. -/
def sinceAccess (seq : Nat) : List Undo → Option (List Undo)
  | [] => none
  | u :: us => if u.stamp = some seq then some [u] else (sinceAccess seq us).map (u :: ·)

/-- Everything after the access with this stamp can be taken back: no trap, no return from one and no retired entry lies
between. -/
def Strand.canRewind (t : Strand) (seq : Nat) : Bool :=
  (sinceAccess seq t.undo).any fun us => us.all fun u => !u.pushed || t.queue.any fun e => u.stamp == some e.seq

/-- An x register gets its value back. -/
def Strand.xback (t : Strand) (p : Reg × Word × Bool) : Strand :=
  let u := t.xset p.1 p.2.1
  { u with xpoison := setReg u.xpoison p.1 p.2.2 }

/-- One instruction is taken back. A record that its `evpop` took stands first in the queue again. -/
def Strand.takeBack (t : Strand) (u : Undo) : Strand :=
  let t := u.x.foldl Strand.xback (u.cr.foldl (fun t p => t.crPut p.1 p.2) t)
  { t with
    crit := u.crit
    critCount := u.critCount
    critDepth := u.critDepth
    tonOwned := u.tonOwned
    claims := t.claims.filter fun r => u.claim != some r
    events := u.event.toList ++ t.events }

/-- Instructions that empty `vl` until they retire (R171). -/
def emptiesVl (i : Instr) : Bool :=
  match i with
  | .vldz _ => true
  | _ => false

/-- The strand goes back to the access with this stamp and address, and decodes it again (R122, R344): the access and what
was decoded after it leave the queues, and what the scalar side has done since is taken back. -/
def Strand.rewind (t : Strand) (seq : Nat) (pc : Word) : Strand :=
  let us := (sinceAccess seq t.undo).getD []
  let t := us.foldl Strand.takeBack t
  let older := t.queue.filter fun e => decide (e.seq < seq)
  { t.retag older with
    queue := older
    loads := t.loads.filter fun l => decide (l.seq < seq)
    stores := t.stores.filter fun e => decide (e.seq < seq)
    vlFull := !older.any fun e => emptiesVl e.instr
    undo := t.undo.drop us.length
    pc := pc
    iter := { t.iter with ending := false }
    tonPend := none
    hold := none
    redecode := none
    timedOut := false
    waiting := false }

/-- The register of an access that can be neither completed nor taken back holds poison (R342). -/
def Strand.xspoil (t : Strand) (r : Reg) : Strand :=
  if r = 0 then t
  else
    { t with
      xfull := setReg t.xfull r true
      xpend := setReg t.xpend r false
      xpoison := setReg t.xpoison r true }

/-- Entries of the vector queue older than a stamp have not retired. -/
def Strand.olderThan (t : Strand) (seq : Nat) : Bool := t.queue.any fun e => decide (e.seq < seq)

/-- The unit of the machine-check log that a poisoned line lies in: 6, memory (R351). -/
def lineUnit : Nat := 6

/-- An access in flight reads a poisoned line (R342, R344). Once every older vector entry has retired, the strand goes back
to it and decodes it again; the second time it takes the machine check, with the access as `tepc`. Where it cannot go back,
the access itself is made again (`again`), and the second time it leaves its register `r` poisoned and a machine check is
pending (`drop` takes it away; log 84). -/
def State.accessPoison (s : State) (seq : Nat) (pc : Word) (second : Bool) (line : Word) (r : Reg)
    (again drop : Strand → Strand) : State :=
  if s.st.olderThan seq then s
  else if s.st.canRewind seq then
    if second then ((s.countPoison.logCheck 0x13 line pc lineUnit).upd fun t => t.rewind seq pc).takeTrap .scalar 0x13 line pc
    else s.countPoison.upd fun t => { t.rewind seq pc with redecode := some pc, waiting := true }
  else if second then
    s.countPoison.upd fun t => { (drop t).xspoil r with pending := t.pending ++ [⟨0x13, line, lineUnit⟩] }
  else s.countPoison.upd again

end Sys2Proof.Machine
end

