-- ==== Sys2Proof/Machine/Stores.lean ====
section
/-! DEFINITION. The store queue and loads in flight: which instructions touch memory, the atomics' arithmetic, and how
a store, an atomic and a load are performed (R97 to R100, R297). -/

namespace Sys2Proof.Machine

/-- Vector instructions that write memory for their strand (R97). -/
def writesMem (i : Instr) : Bool :=
  match i with
  | .vst _ | .vsts _ | .vstb _ | .vsr _ | .vstx _ | .mst _ => true
  | .vatadd _ | .vatfadd _ | .vatand _ | .vator _ | .vatxor _ | .vatmin _ | .vatmax _ | .vatswap _ => true
  | _ => false

/-- Vector instructions that read or write memory for their strand: a younger scalar store waits for them. That it
waits for reads too is DEDUCED from R97: a load returns no value of a younger write (log 15). -/
def touchesMem (i : Instr) : Bool :=
  writesMem i ||
  match i with
  | .vld _ | .vlds _ | .vldb _ | .vldz _ | .vlr _ | .vldx _ | .mld _ | .cbload _ | .vwait _ | .sbind _ => true
  | .pload _ | .penq _ | .pcfg _ | .xcopy _ | .xtrain _ | .xcoll _ | .xpix _ | .xwharf _ | .launch _ | .emit _ => true
  | _ => false

/-! ## Atomics (R99, R174) -/

/-- The operations of the atomics. -/
inductive AtOp where
  | add
  | fadd
  | and
  | or
  | xor
  | min
  | max
  | minn
  | maxn
  | swap
  | cas
  deriving DecidableEq, Repr

/-- The float format of an atomic of `w` bits. -/
def atFmt (w : Nat) : Fmt := if w == 32 then f32 else f64

/-- The value an atomic of `w` bits leaves in memory (R99): a floating add rounds to nearest even, keeps subnormals and
raises no flag (R100). -/
def atNew (op : AtOp) (w old b c : Nat) : Nat :=
  match op with
  | .add => (old + b) % 2 ^ w
  | .fadd => (addF (atFmt w) 0 false (unpack (atFmt w) old) (unpack (atFmt w) b)).1
  | .and => old &&& b
  | .or => old ||| b
  | .xor => old ^^^ b
  | .min => sminW w old b
  | .max => smaxW w old b
  | .minn => Nat.min old b
  | .maxn => Nat.max old b
  | .swap => b
  | .cas => if old == c then b else old

/-- The old value as it is written to xd: sign-extended, zero-extended for the unsigned and floating types (R99). -/
def atOld (op : AtOp) (w old : Nat) : Word :=
  match op with
  | .fadd | .minn | .maxn => BitVec.ofNat 64 old
  | _ => extendBits w true old

/-- The operation of a scalar atomic, and its ordering sub-form `.acq`. -/
def atomicOf (i : Instr) : Option (AtOp × Bool) :=
  match i with
  | .atadd o => some (.add, o.acq)
  | .atfadd o => some (.fadd, o.acq)
  | .atand o => some (.and, o.acq)
  | .ator o => some (.or, o.acq)
  | .atxor o => some (.xor, o.acq)
  | .atmin o => some (.min, o.acq)
  | .atmax o => some (.max, o.acq)
  | .atminn o => some (.minn, o.acq)
  | .atmaxn o => some (.maxn, o.acq)
  | .atswap o => some (.swap, o.acq)
  | .atcas o => some (.cas, o.acq)
  | _ => none

/-! ## Performing (R97, R98, R297) -/

/-- An atomic at the head of the store queue reads a poisoned line (R342, R344). -/
def State.poisonedAtomic (s : State) (e : SEntry) (rest : List SEntry) (line : Word) : State :=
  s.accessPoison e.seq e.pc e.again line (e.dest.getD 0) (fun t => { t with stores := { e with again := true } :: rest })
    fun t => { t with stores := rest }

/-- The atomic at the head of the store queue, which has come to its home: one indivisible read and write (R100, R315),
and the old value returns. -/
def State.applyAtomic (s : State) (e : SEntry) (rest : List SEntry) (op : AtOp) : State :=
  match s.poisonAt e.addr e.place e.size with
  | some line => s.poisonedAtomic e rest line
  | none =>
    let s := s.logAhead s.st.ctx e.addr e.place e.size
    let w := 8 * e.size
    let old := ofBytes (s.placeBytes e.place e.size)
    let gone := s.upd fun t => { t with stores := rest, iter := { t.iter with effects := true } }
    let s := gone.storeAt e.addr e.place
      (bytesOf e.size (atNew op w old (e.data.toNat % 2 ^ w) (e.cmp.toNat % 2 ^ w)))
    match e.dest with
    | none => s
    | some r => s.setX r (atOld op w old)

/-- The oldest store-queue entry is performed at its home: its bytes are written, or the scatter-add unit applies the
atomic and returns the old value. -/
def State.performHead (s : State) : State :=
  match s.st.stores with
  | [] => s
  | e :: rest =>
    match atomicOf e.instr with
    | none =>
      (s.upd fun t => { t with stores := rest, iter := { t.iter with effects := true } }).writePlace e.addr e.place
        (bytesOf e.size e.data.toNat)
    | some (op, _) => (s.crossed (dieOf s.cur) e.place).applyAtomic e rest op

/-- The head of the store queue can be performed: it waits on no vector entry and on no older load (R97), and is not
on its way to another die. -/
def Strand.headReady (t : Strand) : Bool :=
  match t.stores with
  | [] => false
  | e :: _ => e.after.isNone && !e.sent && t.loads.all fun l => decide (e.seq < l.seq)

/-- The head of the store queue is no atomic that meets poison. -/
def State.headClean (s : State) : Bool :=
  s.st.stores.head?.all fun e => e.dest.isNone || (s.poisonAt e.addr e.place e.size).isNone

/-- Performs up to `n` entries from the head while they can be performed and are older than `before`. -/
def State.flush : Nat → Nat → State → State
  | 0, _, s => s
  | n + 1, before, s =>
    if s.st.headReady && s.headClean && (s.st.stores.head?.any fun e => decide (e.seq < before)) then
      State.flush n before s.performHead
    else s

/-- Performs every entry that can be performed, where the pace is lockstep. -/
def State.settleStores (s : State) : State := if s.pace == .lockstep then s.flush 16 s.st.seq else s

/-- A byte that a load with stamp `seq` reads: the youngest older store of its strand there, else the storage (R97). -/
def State.loadByte (s : State) (seq : Nat) (p : Place) : Byte :=
  s.st.stores.foldl (fun acc e => if e.seq < seq then (e.byteAt p).getD acc else acc) (s.placeByte p)

/-- The oldest load in flight has read a poisoned line (R342, R344). -/
def State.poisonedLoad (s : State) (l : LoadFlight) (rest : List LoadFlight) (line : Word) : State :=
  s.accessPoison l.seq l.pc l.again line l.dest (fun t => { t with loads := { l with again := true } :: rest })
    fun t => { t with loads := rest }

/-- The oldest load in flight reads a poisoned line. -/
def State.poisonedHead (s : State) : Option LoadFlight :=
  s.st.loads.head?.filter fun l => (s.poisonAt l.addr l.place l.size).isSome

/-- The oldest load in flight fills its destination (R97), once the queue entries that it follows have retired (R320).
-/
def State.returnLoad (s : State) : State :=
  match s.st.loads with
  | [] => s
  | l :: rest =>
    if l.after.isSome then s
    else
      match s.poisonAt l.addr l.place l.size with
      | some line => s.poisonedLoad l rest line
      | none =>
        let n := ofBytes (bytesAt (fun i => s.loadByte l.seq (l.place.add i)) 0 l.size)
        s.upd fun t => { t with loads := rest }.xset l.dest (extendBits (8 * l.size) l.signed n)

/-- The oldest load in flight cannot deliver its value while older entries have not retired: one of them comes before its
read (R320, R321), or it reads a poisoned line. -/
def State.heldBack (s : State) (l : LoadFlight) : Bool := l.after.isSome || (s.poisonAt l.addr l.place l.size).isSome

/-- A trap or a save comes before older entries have retired. The oldest load in flight delivers its value (R122). One that
cannot yet is decoded again afterwards: the run-ahead point (R118) goes back to it. Where the strand cannot go back, a load
that reads a poisoned line leaves its register poisoned (log 84). -/
def State.deliverLoad (s : State) : State :=
  match s.st.loads with
  | [] => s
  | l :: rest =>
    if s.heldBack l && s.st.canRewind l.seq then
      s.upd fun t => { t.rewind l.seq l.pc with redecode := if l.again then some l.pc else none }
    else if (s.poisonAt l.addr l.place l.size).isSome then s.upd fun t => { t with loads := rest }.xspoil l.dest
    else (s.upd fun t => { t with loads := { l with after := none } :: rest }).returnLoad

/-- Marks the destination of a load or atomic in flight (R97, R100). -/
def Strand.pend (t : Strand) (r : Reg) : Strand :=
  if r = 0 then t else { t with xpend := setReg t.xpend r true }

/-- The youngest entry of the vector queue that touches memory: a younger scalar store waits for it (R97). -/
def Strand.lastTouch (t : Strand) : Option Nat :=
  t.queue.foldl (fun acc e => if touchesMem e.instr then some e.seq else acc) none

/-- An older vector instruction that writes memory has not retired. -/
def Strand.writesQueued (t : Strand) : Bool := t.queue.any fun e => writesMem e.instr

/-- An access of the instruction at pc fails its checks. Its walk reads the tables as the strand's loads do, so it waits for
an older vector instruction that may write them (R97, R293); the trap then comes no earlier than R122 lets it. -/
def State.trapAccess (s : State) (cause : BitVec 8) (a : Word) : State :=
  if s.st.writesQueued then s.stall else s.trap cause a

/-- Bytes of the page whose translation an access of the strand uses, 0 for a window (R290, R294). -/
def State.pageBytes (s : State) (a : Word) : Nat :=
  let va := a.toNat % 2 ^ 56
  if untranslated va then 0
  else
    match s.translate s.st.stores s.st.ctx va with
    | .leaf l => l.size
    | _ => 0

/-- Adds a store or an atomic to the store queue (R98) and moves the pc on. -/
def State.enqueueStore (s : State) (i : Instr) (addr : Word) (place : Place) (size : Nat) (data cmp : Word)
    (dest : Option Reg) : State :=
  let e : SEntry :=
    { seq := s.st.seq, after := s.st.lastTouch, instr := i, addr, place, size, data, cmp, dest, pc := s.st.pc
      again := s.st.redecode == some s.st.pc, page := s.pageBytes addr }
  let s := s.upd fun t =>
    { (match dest with | none => t | some r => t.pend r) with stores := t.stores ++ [e], seq := t.seq + 1 }
  s.settleStores.advance

/-- The addresses at which a walk for `va` reads its table entries, at most one a level (R290). -/
def walkReads (rd : Nat → Byte) (va : Nat) : List (Nat × Nat × Nat) → Nat → List Nat
  | [], _ => []
  | (sh, bits, _) :: rest, table =>
    let at_ := table + 8 * (va / 2 ^ sh % 2 ^ bits)
    let e := ofBytes (bytesAt rd at_ 8)
    at_ :: if e % 4 == 1 then walkReads rd va rest (e / 256 % 2 ^ 44 * 256) else []

/-- An older atomic of the strand that has not been performed may change an entry that the walk for an address reads:
the access waits, because its walk sees the strand's own older writes (R97, R293). -/
def State.walkBlocked (s : State) (a : Word) : Bool :=
  (s.st.stores.any fun e => e.dest.isSome) &&
    (walkReads (s.physByte s.st.stores) (a.toNat % 2 ^ 56) tableLevels (s.context s.st.ctx).root).any fun r =>
      s.st.stores.any fun e => e.dest.isSome && match e.place with
        | .mem p => decide (p < r + 8) && decide (r < p + e.size)
        | _ => false

/-- An older write of the strand whose bytes a load may cover has not supplied its data (R97), or an older atomic with
`.acq` has not been performed (R100). -/
def Strand.loadBlocked (t : Strand) (p : Place) (n : Nat) : Bool :=
  t.writesQueued ||
  t.stores.any fun e =>
    match atomicOf e.instr with
    | none => false
    | some (_, acq) =>
      acq || (match e.place.offsetFrom p, p.offsetFrom e.place with
        | some k, _ => decide (k < e.size)
        | _, some k => decide (k < n)
        | _, _ => false)

end Sys2Proof.Machine
end

