-- ==== Sys2Proof/Machine/Access.lean ====
section
/-! DEFINITION. How an instruction reaches memory element by element: the checks of each element, the lowest that faults,
and the hints of R166 (R88, R164 to R166, R296). -/

namespace Sys2Proof.Machine

/-! ## Elements that are checked (R164, R165) -/

/-- How an instruction reaches memory: each element has parts, a slot of the register and an address each. -/
structure VAccess where
  acc : Acc
  /-- bytes of a part -/
  size : Nat
  /-- the alignment check fails -/
  mis : Word → Bool
  /-- described blocks only (R170) -/
  needD : Bool := false
  m : Bool := false
  /-- the page-sorting unit translates each page once (R295) -/
  sorted : Bool := false
  /-- the write of this element is dropped (R173) -/
  dropped : Nat → Bool := fun _ => false
  parts : Nat → List (Nat × Word)

/-- A part that was checked: its slot, address and place. -/
structure Part where
  slot : Nat
  va : Word
  place : Place
  deriving DecidableEq, Repr

/-- The fault of an element: cause, address, and the span of a missing translation. -/
structure ElemFault where
  elem : Nat
  cause : BitVec 8
  va : Word
  span : Nat
  deriving DecidableEq, Repr

/-- The four steps of R88, then the D rule (R164). -/
def State.chkPart (s : State) (x : VAccess) (a : Word) : Chk :=
  if !canonical a then .bad 0x07 0
  else if x.mis a then .bad 0x08 0
  else
    match s.check x.acc 1 x.size a x.sorted with
    | .ok p d => if x.needD && !d then .bad 0x07 0 else .ok p d
    | b => b

/-- Checks the parts of element `e` in order. -/
def State.chkElem (s : State) (x : VAccess) (e : Nat) : List (Nat × Word) → List Part × Option ElemFault
  | [] => ([], none)
  | (slot, a) :: rest =>
    match s.chkPart x a with
    | .bad c span => ([], some ⟨e, c, a, span⟩)
    | .ok p _ =>
      let r := s.chkElem x e rest
      match r.2 with
      | some f => ([], some f)
      | none => (⟨slot, a, p⟩ :: r.1, none)

/-- Checks `n` elements from `e` on, up to the first that faults (R165). -/
def State.gather (s : State) (x : VAccess) : Nat → Nat → List Part × Option ElemFault
  | 0, _ => ([], none)
  | n + 1, e =>
    if s.st.on x.m e then
      let r := s.chkElem x e (x.parts e)
      match r.2 with
      | some f => ([], some f)
      | none =>
        let z := s.gather x n (e + 1)
        (r.1 ++ z.1, z.2)
    else s.gather x n (e + 1)

/-! ## Hints (R166, R296) -/

/-- The page that a missing translation would cover. -/
def pageOf (va : Word) (span : Nat) : Nat × Nat := (va.toNat % 2 ^ 56 / span, span)

/-- Further elements with a missing translation on other pages: at most `room`, in increasing order. -/
def State.hints (s : State) (x : VAccess) : Nat → Nat → Nat → List (Nat × Nat) → List ElemFault
  | 0, _, _, _ => []
  | n + 1, e, room, seen =>
    if room == 0 then []
    else if !s.st.on x.m e then s.hints x n (e + 1) room seen
    else
      match (s.chkElem x e (x.parts e)).2 with
      | some f =>
        if f.span != 0 && !seen.contains (pageOf f.va f.span) then
          f :: s.hints x n (e + 1) (room - 1) (pageOf f.va f.span :: seen)
        else s.hints x n (e + 1) room seen
      | none => s.hints x n (e + 1) room seen

/-- The bytes of a hint record (R166). -/
def hintBytes (f : ElemFault) (pc : Word) : List Byte :=
  bytesOf 8 f.va.toNat ++ bytesOf 2 f.elem ++ [f.cause, 0] ++ bytesOf 4 pc.toNat

/-- A word of the save pool's head, where it can be reached. -/
def State.poolWord (s : State) (off : Nat) : Option (Nat × Place × Word) :=
  let va := s.st.svbase + BitVec.ofNat 64 off
  match s.checkDevice s.st.ctx .write 4 va with
  | .ok p _ => some (ofBytes (s.placeBytes p 4), p, va)
  | .bad _ _ => none

/-- Posts one hint to the context's fault queue, or counts it as dropped where the queue is full (R296). A hint whose
queue cannot be written is lost (DEDUCED; log 25). -/
def State.postHint (s : State) (pc : Word) (f : ElemFault) : State :=
  match s.poolWord 0, s.poolWord 4, s.poolWord 8 with
  | some (head, hp, hv), some (tail, _, _), some (lost, lp, lv) =>
    if (head + 1) % 255 = tail then s.writeFrom (dieOf s.cur) s.st.ctx lv lp (bytesOf 4 (lost + 1))
    else
      let va := s.st.svbase + BitVec.ofNat 64 (0x10 + 16 * (head % 255))
      match s.checkDevice s.st.ctx .write 4 va with
      | .ok p _ =>
        let k := dieOf s.cur
        (s.writeFrom k s.st.ctx va p (hintBytes f pc)).writeFrom k s.st.ctx hv hp (bytesOf 4 ((head + 1) % 255))
      | .bad _ _ => s
  | _, _, _ => s

/-- The hints of a stop at element `f` of `n` elements: for a page fault only. `s` is the state the checks were made in,
`t` the state with the elements below done. -/
def State.postHints (s t : State) (x : VAccess) (pc : Word) (n : Nat) (f : ElemFault) : State :=
  if f.cause == 0x05 || f.cause == 0x06 then
    (s.hints x (n - (f.elem + 1)) (f.elem + 1) 8 [pageOf f.va f.span]).foldl (fun t h => t.postHint pc h) t
  else t

end Sys2Proof.Machine
end

