-- ==== Sys2Proof/Machine/System.lean ====
section
/-! DEFINITION. Events, critical sections, the end of an iteration, draining, fences, waiting and the system
instructions (R109 to R113, R116, R117, R125, R350). -/

namespace Sys2Proof.Machine

/-! ## Events (R109, R110) -/

/-- `evpop`: the oldest record not claimed fills xd, or the claim waits in order for the next one. -/
def execEvpop (d : Reg) (s : State) : Result :=
  .next (s.gated [] [d] fun s =>
    if 32 ≤ s.st.claims.length then s.stall
    else
      match s.st.claims, s.st.events with
      | [], e :: rest => ((s.upd fun t => { t with events := rest }.takeNotices).setX d e.word).advance
      | _, _ => (s.upd fun t => { t.xempty d with claims := t.claims ++ [d] }).advance)

/-- `evn`: the records present that no older `evpop` has claimed. -/
def execEvn (d : Reg) (s : State) : Result :=
  .next (s.gated [] [d] fun s => (s.setX d (BitVec.ofNat 64 s.st.events.length)).advance)

/-! ## Critical sections (R111) -/

/-- The strand is inside a section that no handler suspends: the forbidden instructions take trap 0x02. -/
def Strand.inSection (t : Strand) : Bool := t.crit && !t.critSusp

/-- `crit` opens a section. Inside one, or in a handler entered from one, it takes trap 0x02. -/
def execCrit (s : State) : Result :=
  .next (if s.st.crit then s.decodeTrap .crit 0x02
    else (s.upd fun t => { t with crit := true, critCount := 0 }).advance)

/-- `critx` closes the section. Outside one, or in a handler entered from one, it takes trap 0x02. -/
def execCritx (s : State) : Result :=
  .next (if !s.st.inSection then s.decodeTrap .critx 0x02
    else (s.upd fun t => { t with crit := false, critCount := 0 }).advance)

/-- The trap of the 4,097th instruction, which ends the section (R111). `tval` is the instruction word at pc. A
cancellation that the section deferred is taken after it, at the first boundary of its handler: which comes first is no
rule's (log 93). -/
def execCritOverrun (s : State) : Result :=
  .next (if !(s.st.inSection && decide (4096 ≤ s.st.critCount)) then s
    else if !s.st.settled then s.stall
    else
      let w := zext (s.fetchWord.getD 0)
      (s.upd fun t => { t with crit := false, critCount := 0 }).trap 0x0E w)

/-! ## Ending (R113) and path classes (R312) -/

/-- `endit`: decoding ends here; the iteration ends once the conditions of R113 hold (ITERATION_END). A handler that
ends the iteration ends its section and gives up a held image. A trap or a pre-emption that comes first lets `endit` be
decoded again. -/
def execEndit (s : State) : Result :=
  .next (if s.st.inSection then s.decodeTrap .endit 0x02
    else s.upd fun t => { t with iter := { t.iter with ending := true }, waiting := false, redecode := none })

/-- Path classes of the vector instructions: 0 `ls`, 1 `gs`, 2 `pm`, 3 `cp`, 4 `cl`, 5 `px` (R312, R32). -/
def pathOf (i : Instr) : Option Nat :=
  match i with
  | .vld _ | .vlds _ | .vldb _ | .vldz _ | .vlr _ | .vst _ | .vsts _ | .vstb _ | .vsr _ | .mld _ | .mst _ | .vwait _ => some 0
  | .vldx _ | .vstx _ | .vatadd _ | .vatfadd _ | .vatand _ | .vator _ | .vatxor _ | .vatmin _ | .vatmax _ | .vatswap _ =>
    some 1
  | .pload _ | .penq _ | .xwharf _ => some 2
  | .xcopy _ => some 3
  | .xtrain _ | .xcoll _ => some 4
  | .xpix _ => some 5
  | _ => none

/-- The path class of an engine (R312). -/
def Engine.path (e : Engine) : Nat :=
  match e with
  | .wharf => 2
  | .copy => 3
  | .train | .coll => 4
  | .pix => 5

/-- Instructions with an access on `ls`: those of the class, and those that read a descriptor or take a snapshot of a
record (R312). -/
def onLs (i : Instr) : Bool := touchesMem i && pathOf i != some 1

/-- A vector entry of a class has not retired. -/
def Strand.queued (t : Strand) (path : Nat) : Bool := t.queue.any fun e => pathOf e.instr == some path

/-- A vector entry with an access on `ls` has not retired. -/
def Strand.queuedLs (t : Strand) : Bool := t.queue.any fun e => onLs e.instr

/-- Accesses on `ls` that the strand made and that are not performed (R115, R322): those of queued entries, and the
stores and loads that do not lie in host memory, which are of class `ho` (R312). -/
def Strand.lsBusy (t : Strand) : Bool :=
  t.queuedLs || (t.stores.any fun e => !e.place.isHost) || t.loads.any fun l => !l.place.isHost

/-- An output stream has elements to write at places of which `f` holds. -/
def Strand.drainingAt (t : Strand) (f : Place → Bool) : Bool :=
  t.streams.any fun p => p.2.output && p.2.buf.any fun b => b.places.any fun x => f x.2.1

/-- An output stream has strips that are not yet written (R178). -/
def Strand.draining (t : Strand) : Bool := t.streams.any fun p => p.2.output && !p.2.buf.isEmpty

/-! ## Waiting on a word (R116) -/

/-- The conditions of `wait` and `vwait`: eq, ne, ltn, gen, lt, ge. -/
def condHolds (cond : BitVec 5) (w v b : Nat) : Bool :=
  match cond.toNat with
  | 0 => v == b
  | 1 => v != b
  | 2 => decide (v < b)
  | 3 => decide (b ≤ v)
  | 4 => decide (readInt w false v < readInt w false b)
  | _ => decide (readInt w false b ≤ readInt w false v)

/-- `wait`: the word is read behind the strand's older reads and writes; where the condition fails the strand sleeps
until the word's line is written, and then reads it again, or the time-out passes, which ends the wait with no further
access. -/
def execWait (o : WaitOps) (s : State) : Result :=
  .next (if s.st.inSection then s.decodeTrap (.wait o) 0x02
    else
      s.gated [(o.a, o.fa), (o.b, o.fb)] [] fun s =>
        let n := if o.wide then 8 else 4
        let a := s.st.xget o.a
        if s.st.wto != 0 && s.st.timedOut then s.advance
        else if s.walkBlocked a then s.stall
        else
          match s.check .read n n a with
          | .bad c _ => s.trapAccess c a
          | .ok p _ =>
            if s.st.loadBlocked p n || !s.st.loads.isEmpty || s.st.lastTouch.isSome then s.stall
            else
              match s.poisonAt a p n with
              | some line => s.consume line
              | none =>
                if condHolds o.cond (8 * n) (ofBytes (s.seenBytes p n)) ((s.st.xget o.b).toNat % 2 ^ (8 * n)) then s.advance
                else s.upd fun t => { t with sleep := .word a })

/-- A write to the watched line, or the watched words of a `vwait`, wakes the strand, which reads again (R116, R183). -/
def execWaitWake (s : State) : Result :=
  .next (s.upd fun t =>
    { t with
      watch := false
      sleep := match t.sleep with
        | .word _ => .awake
        | z => z })

/-- The time-out of a wait passes, or with `args.flag` that of the `vwait` at the head of the queue: only where `wto` is
not 0 (R116, R134). -/
def execWtoExpiry (s : State) : Result :=
  .next (if s.st.wto == 0 then s
    else if s.args.flag then
      if s.st.watch then s.upd fun t => { t with watch := false, watchOut := true } else s
    else
      match s.st.sleep with
      | .word _ => s.upd fun t => { t with sleep := .awake, timedOut := true }
      | _ => s)

/-! ## System instructions (R117, R125) -/

/-- `scall`: trap 0x10, with `tepc` the next instruction. -/
def execScall (s : State) : Result := .next (s.scalarTrapAt 0x10 0 (s.st.pc + 4))

/-- `dbrk`: trap 0x11, with `tepc` the next instruction. -/
def execDbrk (s : State) : Result := .next (s.scalarTrapAt 0x11 0 (s.st.pc + 4))

/-- A supervisor instruction at user level takes trap 0x19 (R20). -/
def State.supervisor (s : State) (i : Instr) (effect : State → State) : State :=
  if s.st.level == .user then s.decodeTrap i 0x19 else effect s

/-- `eret` waits for the handler's own queue, then returns (R125). -/
def execEret (s : State) : Result :=
  .next (s.supervisor .eret fun s => if s.st.busy then s.stall else s.upd Strand.return_)

/-! ## The undo log (R350) -/

/-- Every older store and atomic of the strand is performed, and no access of it is in flight (R118, R350): what
`rollback` writes comes after the strand's older reads, and after a word that a `vwait` waits for (R320, R321). -/
def Strand.accessesDone (t : Strand) : Bool := t.stores.isEmpty && t.loads.isEmpty && t.lastTouch.isNone

/-- `chkpt` starts the context's next interval. -/
def execChkpt (d : Reg) (s : State) : Result :=
  .next (s.gated [] [d] fun s =>
    if !s.st.accessesDone then s.stall
    else
      let c := s.context s.st.ctx
      let seq := c.ulSeq + 1
      let s := s.setContext s.st.ctx
        { c with ulSeq := seq, ulBad := false, ulLog := [], ulOn := true, ulOwner := s.st.iter.id }
      (s.setX d (zext seq)).advance)

/-- Restores the lines of records: each record in memory names its line and holds its 64 bytes, which are poisoned again
where it says so. A line is reached under the skew with which it was logged, and one that is not populated takes no write
(log 98). -/
def State.restoreLines (s : State) : List UndoRec → State
  | [] => s
  | r :: rs =>
    let flags := ofBytes (bytesAt (memGet s.mem) (r.place + 12) 4)
    let data := bytesAt (memGet s.mem) r.data 64
    let line := ofBytes (bytesAt (memGet s.mem) r.place 8) / 64 * 64
    if !populated line then s.restoreLines rs
    else
      let p := placeOfPhys r.skew line
      let s := (s.crossed (dieOf s.cur) p).putAt p data
      (if flags.testBit 0 then s.poisonPlace p else s).restoreLines rs

/-- The first line of the log's records that is poisoned, by its virtual address: `rollback` consumes it (R342, R344). -/
def State.poisonedRecord (s : State) (c : CtxSt) : Option Word :=
  c.ulLog.findSome? fun r =>
    let a := canonOf c.ulbase + BitVec.ofNat 64 (128 * r.index)
    if s.poison.contains (r.place / 64) then some a
    else if s.poison.contains (r.data / 64) then some (a + 64)
    else none

/-- `rollback` restores memory to the start of the current interval; an unrecoverable one takes trap 0x18, and no line is
restored where a record is poisoned. -/
def execRollback (s : State) : Result :=
  .next (if !s.st.accessesDone then s.stall
    else
      let c := s.context s.st.ctx
      if c.ulBad then s.trap 0x18 0
      else
        match s.poisonedRecord c with
        | some a => s.consume a
        | none =>
          let s := s.restoreLines c.ulLog
          (s.setContext s.st.ctx { s.context s.st.ctx with ulLog := [] }).advance)

end Sys2Proof.Machine
end

