-- ==== Sys2Proof/Machine/Issue.lean ====
section
/-! DEFINITION. Which entry of the vector queues the vector side starts next (R14, R142, R161). -/

namespace Sys2Proof.Machine

/-! ## Full sources (R14, R178) -/

/-- The stream bound to a register. -/
def Strand.streamOf (t : Strand) (r : Reg) : Option Stream := (t.streams.find? fun p => p.1 == r.toNat).map Prod.snd

/-- Elements of a stream in all (R176). -/
def Stream.total (b : Stream) : Nat := b.counts.1 * b.counts.2.1 * b.counts.2.2.1 * b.counts.2.2.2

/-- Elements of the strip that begins at a position (R176, R178). -/
def Stream.stripAt (b : Stream) (pos : Nat) : Nat := Nat.min b.strip (b.total - pos)

/-- The first strip is complete, or its fetch stopped at a faulting element (R178, R179). -/
def Stream.ready (b : Stream) : Bool :=
  match b.buf with
  | [] => false
  | p :: _ => p.bad.isSome || decide (b.stripAt b.pos ≤ p.count)

/-- Whether a v source is full (R14): an input-bound register is empty while no strip is buffered, and full past the
end. -/
def Strand.vFullNow (t : Strand) (r : Reg) : Bool :=
  match t.streamOf r with
  | none => hasReg t.vfull r
  | some b => b.output || decide (b.total ≤ b.pos) || b.ready

/-! ## Ready heads (R161) -/

/-- Instructions that write `vm`. -/
def writesVm (i : Instr) : Bool :=
  match i with
  | .vseq _ | .vsne _ | .vslt _ | .vsltn _ | .vsle _ | .vslen _ | .vfeq _ | .vfne _ | .vflt _ | .vfle _ | .vfunord _ => true
  | .vmld _ | .vmand _ | .vmor _ | .vmxor _ | .vmnot | .vmset | .vmsgb _ | .vbox _ | .vtri _ | .vwait _ => true
  | _ => false

/-- Instructions that read `vm`: those whose m bit is set (bit 10 of the word in the memory format, bit 5 in the
others), and those whose operand it is. -/
def readsVm (i : Instr) : Bool :=
  match i with
  | .vsel _ | .vcompress _ | .vexpand _ | .vmpopc _ | .vmfirst _ | .vmand _ | .vmor _ | .vmxor _ | .vmnot | .vmst _ => true
  | .vld _ | .vlds _ | .vldb _ | .vst _ | .vsts _ | .vstb _ | .mld _ | .mst _ => (wordOf i).getLsbD 10
  | .vadd _ | .vsub _ | .vand _ | .vor _ | .vxor _ | .vshl _ | .vshr _ | .vsar _ | .vmul _ | .vmulh _ | .vmulhn _ | .vmin _
  | .vmax _ | .vminn _ | .vmaxn _ | .vmac _ | .vseq _ | .vsne _ | .vslt _ | .vsltn _ | .vsle _ | .vslen _ | .vmv _
  | .vfadd _ | .vfsub _ | .vfmul _ | .vfdiv _ | .vfmin _ | .vfmax _ | .vfmac _ | .vfnmac _ | .vfsqrt _ | .vfabs _
  | .vfneg _ | .vfclass _ | .vfrint _ | .vfeq _ | .vfne _ | .vflt _ | .vfle _ | .vfunord _ | .vcvt _ | .vcvtif _
  | .vcvtfi _ | .vnef _ | .vrsum _ | .vrmax _ | .vrmin _ | .vrmaxn _ | .vrminn _ | .vrfsum _ | .vrfmax _ | .vrfmin _
  | .vslideup _ | .vslidedn _ | .vperm _ | .vldx _ | .vstx _ | .vatadd _ | .vatfadd _ | .vatand _ | .vator _ | .vatxor _
  | .vatmin _ | .vatmax _ | .vatswap _ | .vxf _ | .mgp _ | .mwedge _ | .mjoin _ | .mdot _ | .msand _ | .msandChk _
  | .madd _ | .msub _ | .mrev _ | .mdual _ | .mnorm _ | .munit _ | .mexp _ | .mlog _ | .mproj _ | .mscale _ | .mcvt _
  | .tmvr _ | .tmvc _ | .tmvw _ | .vbox _ | .vtri _ | .vwait _ => (wordOf i).getLsbD 5
  | _ => false

/-- The entry reads a result, a v register or `vm`, of one of these older entries that have not retired. -/
def QEntry.needs (e : QEntry) (older : List QEntry) : Bool :=
  older.any fun o => (e.srcs.any o.dsts.contains) || (readsVm e.instr && writesVm o.instr)

/-- It executes no element: it reads `vl`, which is 0 (R142). -/
def QEntry.idle (e : QEntry) : Bool := !e.lengthless && e.vl == 0

/-- The vector side has started an entry, or the entry retires at the sequencer without a start, because its length is 0
(R142, R161). -/
def QEntry.underWay (e : QEntry) : Bool := e.started || e.idle

/-- The vector side starts no entry of a strand that does not run, sleeps, or waits for the tiles of its resume (R124,
R161, R202). -/
def Strand.starts (t : Strand) : Bool := t.run == .running && t.sleep == .awake && !t.watch && !t.restoring

/-- The v sources of an entry are full, or one that is marked `!` is empty, in which case it starts only to take trap 0x03; an
entry that executes no element reads no register (R142, R161). -/
def Strand.sourcesReady (t : Strand) (e : QEntry) : Bool :=
  e.srcs.all t.vFullNow || (e.marked.any fun r => !t.vFullNow r) || e.idle

/-- The head of a strand for the vector side, its oldest entry that has not started, where it is ready (R161): by its
index in the queue. -/
def Strand.issues (t : Strand) : Option Nat :=
  match t.queue.findIdx? fun e => !e.started with
  | none => none
  | some k =>
    match t.queue[k]? with
    | none => none
    | some e => if t.starts && t.sourcesReady e && !e.needs (t.queue.take k) then some k else none

/-- The strands of a core in the order in which the vector side asks them: after the one that started last (R161). -/
def State.rotation (s : State) (core : Nat) : List Nat :=
  (List.range 4).map fun k => 4 * core + ((s.core core).lastStart + 1 + k) % 4

/-- The next strand of a core whose head is ready, with that head (R161). -/
def State.nextIssue (s : State) (core : Nat) : Option (Nat × Nat) :=
  (s.rotation core).findSome? fun n => (s.strand n).issues.map fun k => (n, k)

/-- No strand that the rotation asks before the one in focus has a ready head (R161). -/
def State.turn (s : State) : Bool :=
  ((s.rotation (coreOf s.cur)).takeWhile fun n => n != s.cur).all fun n => (s.strand n).issues.isNone

/-- The start of an entry of the strand in focus is noted in the rotation (R161). -/
def State.noteStart (s : State) (started : Bool) : State :=
  if started then s.setCore (coreOf s.cur) { s.core (coreOf s.cur) with lastStart := s.cur % 4 } else s

end Sys2Proof.Machine
end

