-- ==== Sys2Proof/Machine/Vec.lean ====
section
/-! DEFINITION. The vector queue: what decode checks and captures (R18, R35, R37, R142, R188), how the oldest entry
executes, stops and retires (R119 to R122, R125, R142, R343, R345), and the streams at its operands (R178, R179). Each
vector instruction is a `VForm`: what its entry says about its operands, and its body. -/

namespace Sys2Proof.Machine

/-- What executing an entry gives. -/
inductive VOut where
  /-- every element has executed; the flags raised -/
  | done (s : State) (fs : Raised)
  /-- stopped at element `k`: the state with the elements below `k` done -/
  | trap (s : State) (fs : Raised) (cause : BitVec 8) (tval : Word) (k : Nat)
  /-- it cannot complete yet -/
  | wait (s : State)
  /-- it reads a poisoned line -/
  | poison (line : Word)

/-- What the elements of an instruction read of a register: element e the `bits` bits from `first e` on, where `on e`
holds. The sources of a masked-off element are not evaluated (R139). -/
structure Use where
  reg : Reg
  bits : Nat
  first : Nat → Nat
  on : Nat → Bool

/-- Element e reads an element of `w` bits: that of its own number, or the one that `rep` gives (R140). -/
def laneUse (r : Reg) (w : Nat) (rep : BitVec 3 := 0) (on : Nat → Bool := fun _ => true) : Use :=
  ⟨r, w, fun e => w * srcb rep e, on⟩

/-- Every element reads `n` bits from `first` on, as a unit instruction does. -/
def wholeUse (r : Reg) (n : Nat) (first : Nat := 0) (on : Nat → Bool := fun _ => true) : Use := ⟨r, n, fun _ => first, on⟩

/-- Element e reads a bit of [a, b). -/
def Use.meets (u : Use) (a b e : Nat) : Bool := u.on e && decide (u.first e < b) && decide (a < u.first e + u.bits)

/-- The lowest element of [lo, hi) that reads a bit of [a, b) of a register. -/
def firstUse (us : List Use) (r : Reg) (lo hi a b : Nat) : Option Nat :=
  (List.range' lo (hi - lo)).find? fun e => us.any fun u => u.reg == r && u.meets a b e

/-- A vector instruction as the queue sees it. -/
structure VForm where
  /-- v sources, with their policy bits -/
  vs : List (Reg × Bool) := []
  /-- v registers written -/
  vd : List Reg := []
  /-- x sources of the fields a, b and d, with their policy bits -/
  xa : Option (Reg × Bool) := none
  xb : Option (Reg × Bool) := none
  xdat : Option (Reg × Bool) := none
  /-- an x register that decode marks empty, and its empty value (R142) -/
  xd : Option Reg := none
  emptyValue : Word := 0
  /-- decode marks `vl` empty (R23, R171) -/
  emptiesVl : Bool := false
  /-- VLMAX (R143); none where the instruction does not read `vl` -/
  limit : Strand → Option Nat := fun _ => none
  readsVl : Bool := true
  /-- it rounds under `frm` (R67) -/
  rounds : Bool := false
  /-- the register rules of R35, R140, R141 hold -/
  legal : Bool := true
  /-- further decode checks: 0x04, 0x0C or 0x02 (R36, R188, R189) -/
  check : State → Option (BitVec 8) := fun _ => none
  /-- elements between stop points; 0 for a unit instruction (R144, R167, R200) -/
  grain : Nat := 0
  /-- what its elements read of its v sources, for poisoned words and strips that stop at a fault (R179, R342) -/
  uses : State → QEntry → List Use := fun _ _ => []
  /-- whether it reads element (i, j) of tile h, for poisoned words (R342); none where it reads no tile -/
  cells : Option (State → QEntry → Nat → Nat → Nat → Bool) := none
  /-- the recheck copy runs for it (R345) -/
  rechecks : Bool := true
  /-- the registers whose tags decode looks up for it, and the tags it writes (R187); plain for every register of
  `vd` where none is given -/
  tagA : Reg := 0
  tagB : Reg := 0
  tags : Byte → Byte → BitVec 5 → Option (List (Reg × Byte)) := fun _ _ _ => none
  /-- what it does at the sequencer when `vl` is 0, beside filling `xd` (R142, R171) -/
  zero : State → State := id
  /-- elements `lo` to `hi - 1` -/
  body : QEntry → Nat → Nat → State → VOut

/-! ## Decode (R35, R37, R124, R188) -/

/-- The x registers an instruction reads at decode. -/
def VForm.xs (f : VForm) : List (Reg × Bool) := f.xa.toList ++ f.xb.toList ++ f.xdat.toList

/-- The trap that decode takes, if any: 0x04, 0x0C, then 0x02 (R37, R188). Where `vl` is empty the check of the captured
`vl` cannot be decided yet, and is passed over: a marked empty source then takes 0x03 at once, though 0x02 ranks before
it; no rule says whether decode waits for `vl` first (DESIGN CHOICE, log 88). -/
def VForm.fault (f : VForm) (s : State) : Option (BitVec 8) :=
  match f.check s with
  | some c => some c
  | none =>
    let long := s.st.vlFull && match f.limit s.st with
      | some n => decide (n < s.st.vl.toNat)
      | none => false
    if !f.legal || s.st.held || (f.rounds && s.st.frm == 4) || long then some 0x02 else none

/-- The tags that the instruction writes (R138, R187). -/
def VForm.writes (f : VForm) (t : Strand) : List (Reg × Byte) :=
  match f.tags (t.dtagOf f.tagA) (t.dtagOf f.tagB) t.vgm with
  | some ws => ws
  | none => f.vd.map fun r => (r, 0)

/-- A v register that is not bound and not full: a destination waits at decode (R16). -/
def Strand.vEmpty (t : Strand) (r : Reg) : Bool := !hasReg t.vfull r && !t.streams.any fun p => p.1 == r.toNat

/-- Nothing that the strand has begun is outstanding but stores. -/
def Strand.clear (t : Strand) : Bool := !t.busy && t.loads.isEmpty && t.stores.all fun e => e.dest.isNone

/-- Decode stops before the push: a trap, or a wait (R15, R16, R18, R23). -/
def State.beforePush (s : State) (i : Instr) (f : VForm) : Option State :=
  match f.fault s with
  | some c => some (s.decodeTrap i c)
  | none =>
    match s.st.emptyMarked f.xs with
    | some r => some (s.trap 0x03 (r.zeroExtend 64))
    | none =>
      if !s.st.allReady (f.xs.map Prod.fst ++ f.xd.toList) then some s.stall
      else if s.st.anyPoison (f.xs.map Prod.fst) then some (s.machineCheck 0 0)
      else if !s.st.vlFull || decide (64 ≤ s.st.queue.length) || f.vd.any s.st.vEmpty ||
        (s.pace == .lockstep && !s.st.clear) then some s.stall
      else none

/-! ## Operands (R135, R178) -/

/-- Replaces the stream bound to a register. -/
def Strand.setStream (t : Strand) (r : Reg) (b : Stream) : Strand :=
  { t with streams := t.streams.map fun p => if p.1 == r.toNat then (p.1, b) else p }

/-- Reading past the end, writing an input-bound register, or writing past the end: trap 0x15 (R178). -/
def Strand.streamFault (t : Strand) (f : VForm) : Option Word :=
  let past (r : Reg) (writing : Bool) : Option Word :=
    match t.streamOf r with
    | none => none
    | some b => if (writing && !b.output) || (b.output == writing && decide (b.total ≤ b.pos)) then some b.desc else none
  (f.vs.findSome? fun p => past p.1 false).or (f.vd.findSome? fun r => past r true)

/-- A register has no poisoned word. -/
def Strand.vclean (t : Strand) (r : Reg) : Strand := { t with vpoison := t.vpoison.filter fun k => k / 256 != r.toNat }

/-- The strips that the instruction pops stand in its source registers (R178). -/
def Strand.showStrips (t : Strand) (f : VForm) : Strand :=
  f.vs.foldl (fun t p =>
    match t.streamOf p.1 with
    | some b => if b.output then t else (t.vput p.1 (match b.buf with | [] => 0 | q :: _ => q.data)).vclean p.1
    | none => t) t

/-- A strip element that cannot be read or written: the element of the instruction that stops there, its number in the
strip, the cause, its address, and its stream. -/
structure StripFault where
  elem : Nat
  at_ : Nat
  cause : BitVec 8
  va : Word
  stream : Stream

/-- The lower of two faulting elements. -/
def lowerFault (x y : Option StripFault) : Option StripFault :=
  match x, y with
  | some a, some b => if a.elem ≤ b.elem then some a else some b
  | some a, none => some a
  | none, z => z

/-- The lowest of the elements `lo` to `hi - 1` that reads a strip element which was not fetched: the faulting one, or one
behind it (R179). A fault at an element that the instruction does not read stops nothing: the strip is popped (DESIGN
CHOICE, log 102). -/
def State.badStrip (s : State) (f : VForm) (e : QEntry) (lo hi : Nat) : Option StripFault :=
  f.vs.foldl (fun acc p =>
    match s.st.streamOf p.1 with
    | none => acc
    | some b =>
      if b.output then acc
      else
        match b.buf with
        | [] => acc
        | q :: _ =>
          match q.bad with
          | some (j, c, a) =>
            let w := intWidth b.width
            lowerFault acc ((firstUse (f.uses s e) p.1 lo hi (w * j) (w * b.stripAt b.pos)).map fun k => ⟨k, j, c, a, b⟩)
          | none => acc) none

/-- After a stop at a faulting strip element, buffered data at and beyond it is dropped, and the unit fetches from that
element again (R179). -/
def Stream.refetch (b : Stream) : Stream :=
  match b.buf with
  | [] => b
  | q :: _ => if q.bad.isSome then { b with buf := [{ q with bad := none }] } else b

/-- Every stream unit of the strand that stands at a fault fetches again. -/
def Strand.refetch (t : Strand) : Strand := { t with streams := t.streams.map fun p => (p.1, p.2.refetch) }

/-! ## Stream units (R176, R178) -/

/-- The indices of an element: i0 runs fastest (R176). -/
def Stream.indices (b : Stream) (n : Nat) : Nat × Nat × Nat × Nat :=
  (n % b.counts.1, n / b.counts.1 % b.counts.2.1, n / b.counts.1 / b.counts.2.1 % b.counts.2.2.1,
    n / b.counts.1 / b.counts.2.1 / b.counts.2.2.1)

/-- The address of element `n` (R176). -/
def Stream.address (b : Stream) (n : Nat) : Word :=
  let i := b.indices n
  b.base + BitVec.ofNat 64 i.1 * b.strides.1 + BitVec.ofNat 64 i.2.1 * b.strides.2.1 +
    BitVec.ofNat 64 i.2.2.1 * b.strides.2.2.1 + BitVec.ofNat 64 i.2.2.2 * b.strides.2.2.2

/-- An entry of a codebook (R180). -/
def Codebook.entry (c : Codebook) (i : Nat) : Option Nat := c.entries[i]?

/-- One element as the unit delivers it: its value, or cause and address of its fault. A codebook stream looks its n8
index up; an index that the slot does not answer takes trap 0x16 (DEDUCED from R181; log 26). -/
def State.streamElem (s : State) (b : Stream) (n : Nat) : Except (BitVec 8 × Word) Nat :=
  let a := b.address n
  let size := if b.codebook then 1 else intBytes b.width
  match s.check .read size size a with
  | .bad c _ => .error (c, a)
  | .ok p _ =>
    match s.poisonAt a p size with
    | some line => .error (0x13, line)
    | none =>
      let x := ofBytes (s.placeBytes p size)
      if !b.codebook then .ok x
      else
        match (s.core (coreOf s.cur)).codebooks[b.slot.toFin] with
        | none => .error (0x16, Config.noBook s.freeCount)
        | some k =>
          match if k.etype == b.width then k.entry x else none with
          | some y => .ok y
          | none => .error (0x16, k.addr)

/-- Elements `j` to `j + n − 1` of a strip whose first element is number `at_` of the stream. -/
def State.fetchElems (s : State) (b : Stream) (at_ : Nat) : Nat → Nat → Strip → Strip
  | 0, _, q => q
  | n + 1, j, q =>
    match s.streamElem b (at_ + j) with
    | .ok x => s.fetchElems b at_ n (j + 1) { q with data := setElem q.data (intWidth b.width) j x, count := j + 1 }
    | .error (c, a) => { q with bad := some (j, c, a) }

/-- The unit fetches its next strip, or the rest of one that it fetches again (R178, R179). -/
def State.fetchInto (s : State) (b : Stream) : Stream :=
  let at_ := b.buf.foldl (fun p _ => p + b.stripAt p) b.pos
  match b.buf with
  | [q] =>
    if q.bad.isNone && decide (q.count < b.stripAt b.pos) then
      { b with buf := [s.fetchElems b b.pos (b.stripAt b.pos - q.count) q.count q] }
    else if q.bad.isSome || decide (b.total ≤ at_) then b
    else { b with buf := [q, s.fetchElems b at_ (b.stripAt at_) 0 ⟨0, 0, none, []⟩] }
  | qs =>
    if (qs.any fun q => q.bad.isSome) || decide (b.total ≤ at_) then b
    else { b with buf := qs ++ [s.fetchElems b at_ (b.stripAt at_) 0 ⟨0, 0, none, []⟩] }

/-- The stream unit of an input-bound register fetches a strip ahead. -/
def State.fetchStrip (s : State) (r : Reg) : State :=
  match s.st.streamOf r with
  | none => s
  | some b => if b.output then s else s.upd fun t => t.setStream r (s.fetchInto b)

/-- In lockstep a source that its stream has not filled is fetched when an instruction reads it. -/
def State.fetchSources (s : State) (f : VForm) : State :=
  if s.pace == .lockstep then f.vs.foldl (fun s p => if s.st.vFullNow p.1 then s else s.fetchStrip p.1) s else s

/-- Elements of an output strip are written in order. -/
def State.writeElems (s : State) (w : Nat) (data : VReg) : Nat → List (Word × Place × Nat) → State
  | _, [] => s
  | j, (a, p, _) :: rest => (s.writePlace a p (bytesOf (w / 8) (elemOf data w j))).writeElems w data (j + 1) rest

/-- The stream unit of an output-bound register writes its oldest strip. -/
def State.drainStrip (s : State) (r : Reg) : State :=
  match s.st.streamOf r with
  | none => s
  | some b =>
    match b.output, b.buf with
    | true, q :: qs =>
      let s := s.upd fun t => { t.setStream r { b with buf := qs } with iter := { t.iter with effects := true } }
      s.writeElems (intWidth b.width) q.data 0 q.places
    | _, _ => s

/-- Every strip of a register's output stream is written. -/
def State.drainStrips : Nat → Reg → State → State
  | 0, _, s => s
  | n + 1, r, s => State.drainStrips n r (s.drainStrip r)

/-- In lockstep a written strip is drained at once. -/
def State.settleStreams (s : State) : State :=
  if s.pace == .lockstep then s.st.streams.foldl (fun s p => s.drainStrips p.2.buf.length (BitVec.ofNat 5 p.1)) s else s

/-- The addresses, places and pages of the strip that a write to an output-bound register drains, or the first element
whose access faults (the write is checked by the instruction that makes it: DEDUCED; log 26). -/
def State.stripPlaces (s : State) (b : Stream) :
    Nat → Nat → List (Word × Place × Nat) × Option (Nat × BitVec 8 × Word)
  | 0, _ => ([], none)
  | n + 1, j =>
    let a := b.address (b.pos + j)
    match s.check .write (intBytes b.width) (intBytes b.width) a with
    | .bad c _ => ([], some (j, c, a))
    | .ok p _ =>
      let r := s.stripPlaces b n (j + 1)
      ((a, p, s.pageBytes a) :: r.1, r.2)

/-- The strips that the instruction will drain: of each output-bound destination the places of its strip, and the first
element that faults. They are translated once, here (R293). -/
def State.outputs (s : State) (f : VForm) : List (Reg × List (Word × Place × Nat) × Option StripFault) :=
  f.vd.dedup.filterMap fun r =>
    match s.st.streamOf r with
    | none => none
    | some b =>
      if !b.output then none
      else
        let z := s.stripPlaces b (b.stripAt b.pos) 0
        some (r, z.1, z.2.map fun x => ⟨x.1, x.1, x.2.1, x.2.2, b⟩)

/-- The lowest element of the output strips that cannot be written. -/
def State.badOutput (s : State) (f : VForm) : Option StripFault :=
  (s.outputs f).foldl (fun acc x => lowerFault acc x.2.2) none

/-- The elements of the strip at a stream's position, as accesses (R176). -/
def Stream.access (b : Stream) : VAccess :=
  let n := if b.codebook then 1 else intBytes b.width
  { acc := if b.output then .write else .read, size := n, mis := fun a => decide (a.toNat % n ≠ 0)
    parts := fun e => [(e, b.address (b.pos + e))] }

/-- The hints of a stop at a strip element (R166, R179). -/
def State.stripHints (s t : State) (pc : Word) (x : StripFault) : State :=
  let span := match s.chkPart x.stream.access x.va with
    | .bad _ n => n
    | .ok _ _ => 0
  s.postHints t x.stream.access pc (x.stream.stripAt x.stream.pos) ⟨x.at_, x.cause, x.va, span⟩

/-- The strips are popped and written when the instruction retires (R178, R179); `outs` holds the places that the
instruction found for the written ones. -/
def State.advanceStreams (s : State) (f : VForm) (outs : List (Reg × List (Word × Place × Nat))) : State :=
  let s := (f.vs.map Prod.fst).dedup.foldl (fun s r =>
    match s.st.streamOf r with
    | none => s
    | some b =>
      if b.output then s
      else s.upd fun t => t.setStream r { b with pos := b.pos + b.stripAt b.pos, buf := b.buf.drop 1 }) s
  outs.foldl (fun s x =>
    match s.st.streamOf x.1 with
    | none => s
    | some b =>
      let n := b.stripAt b.pos
      s.upd fun t => t.setStream x.1 { b with pos := b.pos + n, buf := b.buf ++ [⟨t.vget x.1, n, none, x.2⟩] }) s

/-- A v register written with some of its bytes changed: full, and marked in `vdirty` (R14, R119). -/
def State.putV (s : State) (r : Reg) (v : VReg) (wrote : Bool) : State :=
  if wrote then s.upd fun t => { (t.vput r v).dirty r.toNat with vfull := setReg t.vfull r true } else s

/-! ## The push (R18) -/

/-- The captured value of a field (R129). -/
def captured (t : Strand) (r : Option (Reg × Bool)) : Word :=
  match r with
  | some p => t.xget p.1
  | none => 0

/-- What of an entry follows from its form. -/
def VForm.mark (f : VForm) (e : QEntry) : QEntry :=
  { e with
    srcs := f.vs.map Prod.fst, marked := (f.vs.filter Prod.snd).map Prod.fst
    dsts := f.vd, xd := f.xd.getD 0, lengthless := !f.readsVl }

/-- What the instruction captures (R18). -/
def State.captures (s : State) (i : Instr) (f : VForm) : QEntry :=
  let t := s.st
  f.mark
    { instr := i, pc := t.pc
      a := captured t f.xa, b := captured t f.xb, d := captured t f.xdat
      vs := t.vs, vl := t.vl, vgm := t.vgm, frm := t.frm, fz := t.fz
      ta := t.dtagOf f.tagA, tb := t.dtagOf f.tagB
      wtags := if f.readsVl && t.vl == 0 then [] else f.writes t
      seq := t.seq, recheck := t.rchk && f.rechecks }

/-- In lockstep an entry starts at once where it is ready and its turn has come (R161). -/
def State.startsNow (s : State) (f : VForm) (e : QEntry) : Bool :=
  s.pace == .lockstep && s.st.starts && (s.fetchSources f).st.sourcesReady e && s.turn

/-- The queue entry (R18). -/
def State.entryOf (s : State) (i : Instr) (f : VForm) : QEntry :=
  { s.captures i f with started := s.startsNow f (s.captures i f) }

/-- Pushes the instruction: its x destination becomes empty (R14) and the decode copies take its tags (R187). -/
def State.enqueue (s : State) (i : Instr) (f : VForm) : State :=
  let e := s.entryOf i f
  s.upd fun t =>
    let t := match f.xd with
      | some r => t.xempty r
      | none => t
    { t.copyTags e.wtags with
      queue := t.queue ++ [e], seq := t.seq + 1, vlFull := t.vlFull && !f.emptiesVl }

/-! ## Execution (R119, R122, R142) -/

/-- The lowest element to execute: `vstart` for a stoppable head (R119, R144). -/
def VForm.from_ (f : VForm) (t : Strand) : Nat := if f.grain == 0 then 0 else t.vstart.toNat

/-- The instruction reads one of the two elements of poisoned word `k` of the tiles (R342). -/
def State.cellPoisoned (s : State) (f : VForm) (e : QEntry) (k : Nat) : Bool :=
  match f.cells with
  | none => false
  | some r => decide (8192 ≤ k) && [0, 1].any fun j =>
    let n := 2 * (k % 512) + j
    r s e (k / 512 - 16) (n / 32) (n % 32)

/-- Whether an element still to execute reads a poisoned word of a source register, or the instruction one of a tile
(R342). What an instruction reads of an input-bound register is its strip. -/
def State.vPoisoned (s : State) (f : VForm) (e : QEntry) : Bool :=
  s.st.vpoison.any fun k =>
    let a := 64 * (k % 256)
    (decide (k < 8192) && !((s.st.streamOf (BitVec.ofNat 5 (k / 256))).any fun b => !b.output) &&
      (firstUse (f.uses s e) (BitVec.ofNat 5 (k / 256)) (f.from_ s.st) e.vl.toNat a (a + 64)).isSome) ||
      s.cellPoisoned f e k

/-- The first source that is empty and marked trap-if-empty, which the issue of the head finds while `vstart` is 0 (R15,
R121, R161); where several are, the first in the order of the fields (DESIGN CHOICE, log 83). -/
def Strand.vEmptyMarked (t : Strand) (f : VForm) : Option Reg :=
  if t.vstart = 0 then (f.vs.find? fun p => p.2 && !t.vFullNow p.1).map Prod.fst else none

/-- Executes elements up to `hi - 1` of the head entry: empty and poisoned sources, streams, then the body. -/
def State.runBody (s : State) (f : VForm) (e : QEntry) (hi : Nat) : VOut :=
  let lo := f.from_ s.st
  let s := s.fetchSources f
  match s.st.vEmptyMarked f with
  | some r => .trap s [] 0x03 (r.zeroExtend 64) lo
  | none =>
    if !f.vs.all fun p => s.st.vFullNow p.1 then .wait s
    else
      match s.st.streamFault f with
      | some desc => .trap s [] 0x15 desc lo
      | none =>
        let s1 := s.upd fun t => t.showStrips f
        match lowerFault (s.badStrip f e lo hi) (s.badOutput f) with
        | none => f.body e lo hi s1
        | some x =>
          let stop (u : State) : State := s.stripHints (u.upd Strand.refetch) e.pc x
          if x.cause == 0x13 then .poison x.va
          else if f.grain == 0 || decide (hi ≤ x.elem) || decide (x.elem < lo) then .trap (stop s) [] x.cause x.va lo
          else
            match f.body e lo x.elem s1 with
            | .done s2 fs => .trap (stop s2) fs x.cause x.va x.elem
            | o => o

/-- The same outcome in a changed state. -/
def VOut.mapState (g : State → State) : VOut → VOut
  | .done s fs => .done (g s) fs
  | .trap s fs c v k => .trap (g s) fs c v k
  | .wait s => .wait (g s)
  | .poison line => .poison line

/-- The strand without its stores and atomics that are younger than an entry, which sees none of them (R97, R293). -/
def State.before (s : State) (e : QEntry) : State :=
  s.upd fun t => { t with stores := t.stores.filter fun x => !decide (e.seq < x.seq) }

/-- Executes elements up to `hi - 1` of the head entry. -/
def State.attempt (s : State) (f : VForm) (e : QEntry) (hi : Nat) : VOut :=
  let younger := s.st.stores.filter fun x => decide (e.seq < x.seq)
  (State.runBody (s.before e) f e hi).mapState fun s => s.upd fun t => { t with stores := t.stores ++ younger }

/-- The head leaves the queue: `vstart` becomes 0, stores and loads that wait on it are released (R119, R320), and the
flags of the scalar instructions behind it enter (R73). -/
def Strand.retireHead (t : Strand) : Strand :=
  match t.queue with
  | [] => t
  | e :: rest =>
    let t := t.raise0 e.scalar
    { t with
      queue := rest
      vstart := 0
      watch := false
      watchOut := false
      stores := t.stores.map fun x => if x.after == some e.seq then { x with after := none } else x
      loads := t.loads.map fun x => if x.after == some e.seq then { x with after := none } else x }

/-- Changes the head entry. -/
def Strand.setHead (t : Strand) (g : QEntry → QEntry) : Strand :=
  match t.queue with
  | [] => t
  | e :: rest => { t with queue := g e :: rest }

/-- The tags of an entry are written (R138, R187). -/
def Strand.commitTags (t : Strand) (e : QEntry) : Strand := e.wtags.foldl (fun t p => t.setTag p.1 p.2) t

/-- A head that stops where it stands: its tags are written wherever `vstart` is not 0 (R200). -/
def VForm.stand (f : VForm) (e : QEntry) (t : Strand) : Strand :=
  if f.grain = 0 || t.vstart = 0 then t else t.commitTags e

/-- Executing the whole entry writes every bit of 8-byte word `k` of register `r`: what the word then holds does not
depend on what it held before. -/
def State.writesWord (s : State) (f : VForm) (e : QEntry) (r : Reg) (k : Nat) : Bool :=
  let after (x : Nat) : Option Nat :=
    match (s.upd fun t => { t.vput r (setElem (t.vget r) 64 k x) with vstart := 0 }).attempt f e e.vl.toNat with
    | .done u _ => some (elemOf (u.st.vget r) 64 k)
    | _ => none
  after 0 == after (2 ^ 64 - 1)

/-- Words of the destinations that the entry, executed in `s`, has written whole are no longer poisoned (R342). -/
def State.healV (u s : State) (f : VForm) (e : QEntry) : State :=
  u.upd fun t => { t with vpoison := t.vpoison.filter fun k =>
    !(f.vd.any fun r => r.toNat == k / 256 && s.writesWord f e r (k % 256)) }

/-- The head retires with its effects in place: flags, tags, streams (R119). -/
def State.retireWith (s : State) (f : VForm) (e : QEntry) (fs : Raised) (outs : List (Reg × List (Word × Place × Nat))) :
    State :=
  let s := (s.upd fun t => (t.raise fs e.raised).commitTags e).advanceStreams f outs
  (s.upd Strand.retireHead).settleStreams

/-- A head stopped at element `k` by a trap (R122, R74): what lies below `k` is committed and the entry's raised set
grows. A unit instruction keeps no effect; a stoppable head's tag is written wherever `vstart` is not 0 (R200). -/
def State.stopWith (s : State) (f : VForm) (e : QEntry) (fs : Raised) (cause : BitVec 8) (tval : Word) (k : Nat) : State :=
  let s := s.upd fun t =>
    let t := t.raise fs e.raised
    let t := if f.grain != 0 && decide (0 < k) then t.commitTags e else t
    t.setHead fun e => { e with raised := e.raised ||| allRaised fs, started := false, rechecked := false }
  s.vectorTrap cause tval k

/-- The count of replays of the die (R351). -/
def State.countReplay (s : State) : State :=
  let k := dieOf s.cur
  let d := s.die k
  s.setDie k { d with replays := d.replays + 1 }

/-- Every entry of the queue is issued again, and runs twice again where `rchk` was 1 (R343, R345). -/
def State.replay (s : State) : State :=
  s.countReplay.upd fun t => { t with queue := t.queue.map fun e => { e with started := false, rechecked := false } }

/-- A vector-side trap is taken once each load in flight has delivered its value (R122): until then the strand keeps its
state, and the oldest load in flight delivers its own. -/
def State.onceLoaded (s t : State) : State := if s.st.loads.isEmpty then t else s.deliverLoad

/-- A check of the head fails before it has executed anything: it stops where it stands, a unit instruction with
`vstart` = 0 (R144, R200). -/
def State.headCheck (s : State) (f : VForm) (e : QEntry) (cause : BitVec 8) (tval : Word) : State :=
  (s.upd fun t => { f.stand e t with vstart := if f.grain = 0 then 0 else t.vstart }).takeTrap .vector cause tval s.st.pc

/-- Poison in a line that the head reads (R343): the entry is replayed once, then the strand takes a machine check. -/
def State.replayPoison (s : State) (f : VForm) (e : QEntry) (line : Word) : State :=
  if e.poisonReplay then s.onceLoaded ((s.countPoison.logCheck 0x13 line s.st.pc lineUnit).headCheck f e 0x13 line)
  else (s.countPoison.upd fun t => t.refetch.setHead fun e => { e with poisonReplay := true }).replay

/-- What the oldest entry does when it executes: it retires, stops with a trap, or stays. -/
def State.runHead (s : State) (f : VForm) : State :=
  match s.st.queue with
  | [] => s
  | e :: _ =>
    if f.readsVl && e.vl == 0 then
      let s := f.zero s
      let s := match f.xd with
        | some r => s.setX r f.emptyValue
        | none => s
      s.upd Strand.retireHead
    else if f.grain != 0 && f.readsVl && decide (e.vl.toNat ≤ s.st.vstart.toNat) then
      s.upd fun t => t.retireHead.retag t.retireHead.queue
    else if s.vPoisoned f e then
      s.onceLoaded
        ((s.countPoison.logCheck 0x13 0 s.st.pc (if f.cells.isNone then 0 else 2)).headCheck f e 0x13 0)
    else if e.recheck && !e.rechecked then s
    else
      match s.attempt f e e.vl.toNat with
      | .done s' fs => (s'.healV s f e).retireWith f e fs (((s.before e).outputs f).map fun x => (x.1, x.2.1))
      | .trap s' fs c v k => s.onceLoaded (s'.stopWith f e fs c v k)
      | .wait s' => s'
      | .poison line => s.replayPoison f e line

/-- A vector instruction at decode (R118): the checks and waits, the push, and in lockstep its execution where it can
start. -/
def State.vector (s : State) (i : Instr) (f : VForm) : State :=
  match s.beforePush i f with
  | some s' => s'
  | none =>
    let e := s.entryOf i f
    let s := (s.enqueue i f).advance
    if s.pace == .lockstep && e.underWay then (s.runHead f).noteStart e.started else s

/-! ## Element loops -/

/-- The elements `e` to `e + n − 1` of a register of `w`-bit elements: each that `f` gives is written (R139, R145). -/
def lanes (w : Nat) (f : Nat → Option (Nat × FFlags)) : Nat → Nat → VReg → VReg × Raised
  | 0, _, v => (v, [])
  | n + 1, e, v =>
    match f e with
    | none => lanes w f n (e + 1) v
    | some (x, fl) =>
      let r := lanes w f n (e + 1) (setElem v w e x)
      (r.1, note e fl r.2)

/-- Whether any element is given. -/
def anyLane (f : Nat → Option (Nat × FFlags)) : Nat → Nat → Bool
  | 0, _ => false
  | n + 1, e => (f e).isSome || anyLane f n (e + 1)

/-- An element-wise instruction: element e of vd becomes what `f` gives for it. -/
def State.lanesTo (s : State) (d : Reg) (w lo hi : Nat) (f : Nat → Option (Nat × FFlags)) : VOut :=
  let r := lanes w f (hi - lo) lo (s.st.vget d)
  .done (s.putV d r.1 (anyLane f (hi - lo) lo)) r.2

/-- An element-wise value under a mask (R139). -/
def State.masked (s : State) (m : Bool) (f : Nat → Nat × FFlags) (e : Nat) : Option (Nat × FFlags) :=
  if s.st.on m e then some (f e) else none

/-- Bits `e` to `e + n − 1` of `vm`: each that `f` gives is written. -/
def maskLanes (f : Nat → Option (Bool × FFlags)) : Nat → Nat → MaskReg → MaskReg × Raised
  | 0, _, v => (v, [])
  | n + 1, e, v =>
    match f e with
    | none => maskLanes f n (e + 1) v
    | some (x, fl) =>
      let r := maskLanes f n (e + 1) (setBit v e x)
      (r.1, note e fl r.2)

/-- An instruction that writes `vm`. -/
def State.maskTo (s : State) (lo hi : Nat) (f : Nat → Option (Bool × FFlags)) : VOut :=
  let r := maskLanes f (hi - lo) lo s.st.vm
  .done (s.upd fun t => { t with vm := r.1 }) r.2

/-- Element e of a v register, `w` bits wide (R135). -/
def State.elem (s : State) (r : Reg) (w e : Nat) : Nat := elemOf (s.st.vget r) w e

/-- The elements of a beat of `w` bits (R135). -/
def beatOf (w : Nat) : Nat := 2048 / w

end Sys2Proof.Machine
end

