-- ==== Sys2Proof/Machine/VecMem.lean ====
section
/-! DEFINITION. Vector memory: contiguous, strided, block and whole-register forms, compressed loads, gathers, scatters
and vector atomics (R164 to R175). -/

namespace Sys2Proof.Machine

/-! ## The stop at a faulting element (R165, R166) -/

/-- The stop of R165 at the lowest faulting element, with the hints of R166 for a page fault. `s` is the state the
checks were made in, `t` the state with the elements below done. -/
def State.stopAt (s t : State) (x : VAccess) (q : QEntry) (f : ElemFault) : VOut :=
  .trap (s.postHints t x q.pc q.vl.toNat f) [] f.cause f.va f.elem

/-! ## Order behind older scalar accesses (R97) -/

/-- Older loads have returned, and older scalar stores are performed first: none may be left (R97, R320). -/
def State.afterOlder (s : State) (q : QEntry) : Option State :=
  let s := s.flush 16 q.seq
  if (s.st.stores.any fun e => decide (e.seq < q.seq)) || s.st.loads.any fun l => decide (l.seq < q.seq) then none
  else some s

/-- The first poisoned line among the parts. -/
def State.poisonIn (s : State) (size : Nat) (ps : List Part) : Option Word :=
  ps.findSome? fun p => s.poisonAt p.va p.place size

/-- A part's bytes as a number. -/
def State.partValue (s : State) (q : QEntry) (size : Nat) (p : Part) : Nat :=
  ofBytes (bytesAt (fun i => s.loadByte q.seq (p.place.add i)) 0 size)

/-! ## Loads and stores -/

/-- Values of parts set into a register of `8 × size`-bit slots. -/
def State.fill (s : State) (q : QEntry) (size : Nat) (ps : List Part) (v : VReg) : VReg :=
  ps.foldl (fun v p => setElem v (8 * size) p.slot (s.partValue q size p)) v

/-- The first part whose block has an illegal format byte (R77, R170). -/
def badFormat (fmt : Part → Nat) (ps : List Part) : Option ElemFault :=
  (ps.find? fun p => !legalFormat (fmt p)).map fun p => ⟨p.slot, 0x09, p.va, 0⟩

/-- Cuts the parts at a block that stops the access. -/
def cutAt (f : Option ElemFault) (r : List Part × Option ElemFault) : List Part × Option ElemFault :=
  match f with
  | none => r
  | some g => (r.1.filter fun p => decide (p.slot < g.elem), some g)

/-- Block loads stop at the first block with an illegal format, as far as no poisoned block comes before it (R77, R342). -/
def State.legalBlocks (s : State) (q : QEntry) (x : VAccess) (r : List Part × Option ElemFault) :
    List Part × Option ElemFault :=
  if x.needD then
    cutAt (badFormat (fun p => s.partValue q 1 p) (r.1.takeWhile fun p => (s.poisonAt p.va p.place x.size).isNone)) r
  else r

/-- A vector load: checks, poison, then the data below the first fault (R165, R168). -/
def State.vload (s : State) (q : QEntry) (d : Reg) (x : VAccess) (lo hi : Nat) : VOut :=
  match s.afterOlder q with
  | none => .wait s
  | some s =>
    let r := s.legalBlocks q x (s.gather x (hi - lo) lo)
    match s.poisonIn x.size r.1 with
    | some line => .poison line
    | none =>
      let t := s.putV d (s.fill q x.size r.1 (s.st.vget d)) (!r.1.isEmpty)
      match r.2 with
      | none => .done t []
      | some f => s.stopAt t x q f

/-- The parts are written in order; the iteration has then released a store. -/
def State.writeParts (s : State) (data : Part → List Byte) : List Part → State
  | [] => s
  | p :: ps =>
    ((s.upd fun t => { t with iter := { t.iter with effects := true } }).writePlace p.va p.place (data p)).writeParts data ps

/-- A vector store: every element is translated before the first is written (R168). -/
def State.vstore (s : State) (q : QEntry) (d : Reg) (x : VAccess) (lo hi : Nat) : VOut :=
  match s.afterOlder q with
  | none => .wait s
  | some s =>
    let v := s.st.vget d
    let r := s.gather x (hi - lo) lo
    let r := if x.needD then cutAt (badFormat (fun p => blockFormat (elemOf v 512 p.slot)) r.1) r else r
    let data (p : Part) : List Byte :=
      let n := elemOf v (8 * x.size) p.slot
      bytesOf x.size (if x.needD then cleanBlock n else n)
    let t := s.writeParts data (r.1.filter fun p => !x.dropped p.slot)
    match r.2 with
    | none => .done t []
    | some f => s.stopAt t x q f

/-- An address that is not a multiple of the element size. -/
def misaligned (n : Nat) (a : Word) : Bool := decide (a.toNat % n ≠ 0)

/-- `vld` and `vst`: xa + (D + e) × w (R169). -/
def unitAccess (o : VMemOps) (acc : Acc) (q : QEntry) : VAccess :=
  let n := intBytes o.ty
  { acc, size := n, mis := misaligned n, m := o.m
    parts := fun e => [(e, dispAddr q.a o.disp n + BitVec.ofNat 64 (e * n))] }

/-- `vlds` and `vsts`: xa + D × w + e × vs (R169). -/
def strideAccess (o : VMemOps) (acc : Acc) (q : QEntry) : VAccess :=
  let n := intBytes o.ty
  { acc, size := n, mis := misaligned n, m := o.m
    parts := fun e => [(e, dispAddr q.a o.disp n + BitVec.ofNat 64 e * q.vs)] }

/-- `vldb` and `vstb`: block e at xa + (D + e) × 64, in D pages only (R170). -/
def blockAccess (o : VBlkOps) (acc : Acc) (q : QEntry) : VAccess :=
  { acc, size := 64, mis := misaligned 64, needD := true, m := o.m
    parts := fun e => [(e, dispAddr q.a o.disp 64 + BitVec.ofNat 64 (64 * e))] }

/-- `vlr` and `vsr`: byte e at xa + e, the base 64-byte aligned (R169). -/
def byteAccess (acc : Acc) (q : QEntry) : VAccess :=
  { acc, size := 1, mis := fun _ => misaligned 64 q.a, parts := fun e => [(e, q.a + BitVec.ofNat 64 e)] }

/-- `vldx`, `vstx` and the vector atomics: xa + idx(e) × w, the index an n32 (R173). -/
def indexAccess (s : State) (b : Reg) (rep : BitVec 3) (n : Nat) (m : Bool) (acc : Acc) (q : QEntry) : VAccess :=
  { acc, size := n, mis := misaligned n, m, sorted := true
    parts := fun e => [(e, q.a + BitVec.ofNat 64 (s.elem b 32 (srcb rep e) * n))] }

/-- The frame of a load: x base in a, v destination d. -/
def vloadForm (d a : Reg) (limit : Nat) (x : QEntry → VAccess) : VForm where
  vd := [d]
  xa := some (a, false)
  limit := fun _ => some limit
  grain := 1
  body := fun q lo hi s => s.vload q d (x q) lo hi

/-- The frame of a store: x base in a, data register d. -/
def vstoreForm (d a : Reg) (limit width : Nat) (m : Bool) (x : QEntry → VAccess) : VForm where
  vs := [(d, false)]
  xa := some (a, false)
  limit := fun _ => some limit
  grain := 1
  uses := fun s _ => [laneUse d width 0 (s.st.on m)]
  body := fun q lo hi s => s.vstore q d (x q) lo hi

def formVld (o : VMemOps) : VForm := vloadForm o.d o.a (vlmaxOf (intWidth o.ty)) (unitAccess o .read)
def formVlds (o : VMemOps) : VForm := vloadForm o.d o.a (vlmaxOf (intWidth o.ty)) (strideAccess o .read)
def formVldb (o : VBlkOps) : VForm := vloadForm o.d o.a 32 (blockAccess o .read)
def formVlr (o : DA) : VForm := vloadForm o.d o.a 2048 (byteAccess .read)
def formVst (o : VMemOps) : VForm := vstoreForm o.d o.a (vlmaxOf (intWidth o.ty)) (intWidth o.ty) o.m (unitAccess o .write)
def formVsts (o : VMemOps) : VForm := vstoreForm o.d o.a (vlmaxOf (intWidth o.ty)) (intWidth o.ty) o.m (strideAccess o .write)
def formVstb (o : VBlkOps) : VForm := vstoreForm o.d o.a 32 512 o.m (blockAccess o .write)
def formVsr (o : DA) : VForm := vstoreForm o.d o.a 2048 8 false (byteAccess .write)

def execVld (o : VMemOps) (s : State) : Result := .next (s.vector (.vld o) (formVld o))
def execVlds (o : VMemOps) (s : State) : Result := .next (s.vector (.vlds o) (formVlds o))
def execVldb (o : VBlkOps) (s : State) : Result := .next (s.vector (.vldb o) (formVldb o))
def execVlr (o : DA) (s : State) : Result := .next (s.vector (.vlr o) (formVlr o))
def execVst (o : VMemOps) (s : State) : Result := .next (s.vector (.vst o) (formVst o))
def execVsts (o : VMemOps) (s : State) : Result := .next (s.vector (.vsts o) (formVsts o))
def execVstb (o : VBlkOps) (s : State) : Result := .next (s.vector (.vstb o) (formVstb o))
def execVsr (o : DA) (s : State) : Result := .next (s.vector (.vsr o) (formVsr o))

/-! ## Gather and scatter (R173) -/

/-- VLMAX of the indexed forms: 512, and 256 for 64-bit elements. -/
def indexLimit (wide : Bool) : Nat := if wide then 256 else 512

def formVldx (o : VOps) : VForm :=
  { vloadForm o.d o.a (indexLimit (o.ty == 3)) fun q => unitAccess ⟨0, 0, 0, false, 0⟩ .read q with
    vs := [(o.b, o.fb)]
    xa := some (o.a, o.fa)
    legal := repLegal o.d o.b o.rep
    uses := fun s _ => [laneUse o.b 32 o.rep (s.st.on o.m)]
    body := fun q lo hi s => s.vload q o.d (indexAccess s o.b o.rep (intBytes o.ty) o.m .read q) lo hi }

/-- A later element below `vl` that is enabled names the address of element `e`: only the highest of them is written, even
where the instruction stops between them (R173). -/
def VAccess.namedAgain (x : VAccess) (t : Strand) (vl e : Nat) : Bool :=
  (List.range' (e + 1) (vl - (e + 1))).any fun k => t.on x.m k && (x.parts k).map Prod.snd == (x.parts e).map Prod.snd

def formVstx (o : VOps) : VForm :=
  { vstoreForm o.d o.a (indexLimit (o.ty == 3)) (intWidth o.ty) o.m fun q => unitAccess ⟨0, 0, 0, false, 0⟩ .write q with
    vs := [(o.d, false), (o.b, o.fb)]
    xa := some (o.a, o.fa)
    uses := fun s _ => [laneUse o.d (intWidth o.ty) 0 (s.st.on o.m), laneUse o.b 32 o.rep (s.st.on o.m)]
    body := fun q lo hi s =>
      let x := indexAccess s o.b o.rep (intBytes o.ty) o.m .write q
      s.vstore q o.d { x with dropped := x.namedAgain s.st q.vl.toNat } lo hi }

def execVldx (o : VOps) (s : State) : Result := .next (s.vector (.vldx o) (formVldx o))
def execVstx (o : VOps) (s : State) : Result := .next (s.vector (.vstx o) (formVstx o))

/-! ## Vector atomics (R174, R175) -/

/-- Inserts a part by its arrival key. -/
def insertPart (key : Nat → Nat) (p : Part) : List Part → List Part
  | [] => [p]
  | q :: qs => if key p.slot < key q.slot then p :: q :: qs else q :: insertPart key p qs

/-- The order in which the elements reach their homes: by index with `.ord`, else in a free order (R175; log 9). -/
def arrivalOrder (s : State) (ord : Bool) (ps : List Part) : List Part :=
  if ord then ps else ps.foldl (fun acc p => insertPart (Config.arrival s.freeCount) p acc) []

/-- The parts are applied one by one, each by one access at its home (R315): the old value goes to the register, the new
one to memory. -/
def State.applyParts (s : State) (op : AtOp) (w : Nat) (data : VReg) : List Part → VReg → State × VReg
  | [], v => (s, v)
  | p :: ps, v =>
    let s := (s.upd fun t => { t with iter := { t.iter with effects := true } }).opened (dieOf s.cur) s.st.ctx p.va p.place
      (w / 8)
    let old := ofBytes (s.placeBytes p.place (w / 8))
    let s := s.storeAt p.va p.place (bytesOf (w / 8) (atNew op w old (elemOf data w p.slot) 0))
    s.applyParts op w data ps (setElem v w p.slot old)

/-- A vector atomic: xa base, vb indices, vd the operands and then the old values. -/
def vatForm (o : VAtOps) (op : AtOp) : VForm where
  vs := [(o.b, o.fb), (o.d, false)]
  vd := [o.d]
  xa := some (o.a, o.fa)
  limit := fun _ => some (indexLimit o.wide)
  grain := 1
  uses := fun s _ => [laneUse o.b 32 0 (s.st.on o.m), laneUse o.d (if o.wide then 64 else 32) 0 (s.st.on o.m)]
  rechecks := false
  body := fun q lo hi s =>
    match s.afterOlder q with
    | none => .wait s
    | some s =>
      let w := if o.wide then 64 else 32
      let x := indexAccess s o.b 0 (w / 8) o.m .atomic q
      let r := s.gather x (hi - lo) lo
      match s.poisonIn x.size r.1 with
      | some line => .poison line
      | none =>
        let v := s.st.vget o.d
        let z := s.applyParts op w v (arrivalOrder s o.ord r.1) v
        let t := z.1.putV o.d z.2 (!r.1.isEmpty)
        match r.2 with
        | none => .done t []
        | some f => s.stopAt t x q f

def formVatadd (o : VAtOps) : VForm := vatForm o .add
def formVatfadd (o : VAtOps) : VForm := vatForm o .fadd
def formVatand (o : VAtOps) : VForm := vatForm o .and
def formVator (o : VAtOps) : VForm := vatForm o .or
def formVatxor (o : VAtOps) : VForm := vatForm o .xor
def formVatmin (o : VAtOps) : VForm := vatForm o .min
def formVatmax (o : VAtOps) : VForm := vatForm o .max
def formVatswap (o : VAtOps) : VForm := vatForm o .swap

def execVatadd (o : VAtOps) (s : State) : Result := .next (s.vector (.vatadd o) (formVatadd o))
def execVatfadd (o : VAtOps) (s : State) : Result := .next (s.vector (.vatfadd o) (formVatfadd o))
def execVatand (o : VAtOps) (s : State) : Result := .next (s.vector (.vatand o) (formVatand o))
def execVator (o : VAtOps) (s : State) : Result := .next (s.vector (.vator o) (formVator o))
def execVatxor (o : VAtOps) (s : State) : Result := .next (s.vector (.vatxor o) (formVatxor o))
def execVatmin (o : VAtOps) (s : State) : Result := .next (s.vector (.vatmin o) (formVatmin o))
def execVatmax (o : VAtOps) (s : State) : Result := .next (s.vector (.vatmax o) (formVatmax o))
def execVatswap (o : VAtOps) (s : State) : Result := .next (s.vector (.vatswap o) (formVatswap o))

/-! ## Compressed loads (R171, R172) -/

/-- The byte-wise checks of `n` bytes at an address: their places, or the first that fails. -/
def State.chkBytes (s : State) (a : Word) : Nat → List Part × Option ElemFault
  | 0 => ([], none)
  | n + 1 =>
    match s.check .read 1 1 a with
    | .bad c span => ([], some ⟨0, c, a, span⟩)
    | .ok p _ =>
      let r := s.chkBytes (a + 1) n
      match r.2 with
      | some f => ([], some f)
      | none => (⟨0, a, p⟩ :: r.1, none)

/-- The outcome of reading `n` bytes. -/
inductive ByteRead where
  | bytes (bs : List Byte)
  | bad (f : ElemFault)
  | poison (line : Word)

/-- Reads `n` bytes at an address, each checked. -/
def State.readBytes (s : State) (q : QEntry) (a : Word) (n : Nat) : ByteRead :=
  let r := s.chkBytes a n
  match r.2 with
  | some f => .bad f
  | none =>
    match s.poisonIn 1 r.1 with
    | some line => .poison line
    | none => .bytes (r.1.map fun p => s.loadByte q.seq p.place)

/-- Where an expansion stands. -/
structure Expand where
  /-- bytes used, elements written, the register -/
  pos : Nat
  n : Nat
  v : VReg

/-- How an expansion ends. -/
inductive Expanded where
  | done (x : Expand)
  | bad (x : Expand) (k : Nat) (f : ElemFault)
  | poison (line : Word)

/-- The values of one chunk, elements `i` to 63; those below `skip` are passed over. `off` is the byte offset of the
next listed value. -/
def State.expandChunk (s : State) (q : QEntry) (w : Nat) (bits skip : Nat) (x : Expand) : Nat → Nat → Nat → VReg → Expanded
  | 0, _, off, v => .done ⟨off, x.n + 64, v⟩
  | fuel + 1, i, off, v =>
    let e := x.n + i
    if !bits.testBit i then
      s.expandChunk q w bits skip x fuel (i + 1) off (if i < skip then v else setElem v w e 0)
    else if i < skip then s.expandChunk q w bits skip x fuel (i + 1) (off + w / 8) v
    else
      match s.readBytes q (q.a + BitVec.ofNat 64 off) (w / 8) with
      | .poison line => .poison line
      | .bad f => .bad ⟨x.pos, x.n, v⟩ e f
      | .bytes bs => s.expandChunk q w bits skip x fuel (i + 1) (off + w / 8) (setElem v w e (ofBytes bs))

/-- The loop of R171: whole chunks while they fit the captured `vl` and the byte limit. `skip` applies to the first. -/
def State.expand (s : State) (q : QEntry) (w : Nat) : Nat → Nat → Expand → Expanded
  | 0, _, x => .done x
  | fuel + 1, skip, x =>
    if q.vl.toNat < x.n + 64 ∨ q.b.toNat < x.pos + 8 then .done x
    else
      match s.readBytes q (q.a + BitVec.ofNat 64 x.pos) 8 with
      | .poison line => .poison line
      | .bad f => .bad x x.n f
      | .bytes bs =>
        let bits := ofBytes bs
        if q.b.toNat < x.pos + 8 + onesBelow (BitVec.ofNat 64 bits) 64 * (w / 8) then .done x
        else
          match s.expandChunk q w bits skip x 64 0 (x.pos + 8) x.v with
          | .done y => s.expand q w fuel 0 y
          | o => o
where
  /-- one bits among the low `n` -/
  onesBelow (a : BitVec 64) : Nat → Nat
    | 0 => 0
    | n + 1 => (if a.getLsbD n then 1 else 0) + onesBelow a n

/-- The accesses of the chunks from a bitmap on, as far as the bitmaps can be read: element, address and bytes of each
listed value, and of a bitmap that cannot be read as its chunk's first element (R171, R172). -/
def State.listed (s : State) (q : QEntry) (w : Nat) : Nat → Nat → Nat → List (Nat × Word × Nat)
  | 0, _, _ => []
  | fuel + 1, pos, n =>
    if q.vl.toNat < n + 64 ∨ q.b.toNat < pos + 8 then []
    else
      match s.readBytes q (q.a + BitVec.ofNat 64 pos) 8 with
      | .bytes bs =>
        let bits := BitVec.ofNat 64 (ofBytes bs)
        let ones := State.expand.onesBelow bits
        if q.b.toNat < pos + 8 + ones 64 * (w / 8) then []
        else
          ((List.range 64).filter fun i => bits.getLsbD i).map (fun i =>
            (n + i, q.a + BitVec.ofNat 64 (pos + 8 + ones i * (w / 8)), w / 8)) ++
          s.listed q w fuel (pos + 8 + ones 64 * (w / 8)) (n + 64)
      | _ => [(n, q.a + BitVec.ofNat 64 pos, 8)]

/-- Those accesses, byte by byte, for the hints of R166. -/
def listedAccess (l : List (Nat × Word × Nat)) : VAccess :=
  { acc := .read, size := 1, mis := fun _ => false
    parts := fun e => match l.find? fun x => x.1 == e with
      | some x => (List.range x.2.2).map fun i => (i, x.2.1 + BitVec.ofNat 64 i)
      | none => [] }

/-- `vldz`: the limit register is captured in b, marked empty at decode and filled with the bytes used; `vl` likewise
with the elements. A fault of its own stops it at element k with `xresume` (R172); where k's value or bitmap lies in two
pages, `tval` receives the address of the first byte that faults (DESIGN CHOICE, log 77). -/
def formVldz (o : VldzOps) : VForm where
  vd := [o.d]
  xa := some (o.a, false)
  xb := some (o.limit, false)
  xd := some o.limit
  emptiesVl := true
  limit := fun _ => some (vlmaxOf (intWidth o.ty))
  zero := fun s => s.upd fun t => { t with vl := 0, vlFull := true }
  body := fun q _ _ s =>
    match s.afterOlder q with
    | none => .wait s
    | some s =>
      let w := intWidth o.ty
      let k := s.st.vstart.toNat
      let resumed := q.reissued && decide (0 < k) && decide (k < q.vl.toNat)
      let v := s.st.vget o.d
      let start : Expand := if resumed then ⟨s.st.xresume.toNat, k / 64 * 64, v⟩ else ⟨0, 0, v⟩
      match s.expand q w 33 (if resumed then k % 64 else 0) start with
      | .poison line => .poison line
      | .bad x k f =>
        let t := s.putV o.d x.v (decide (0 < k))
        let t := t.upd fun u => { u with xresume := BitVec.ofNat 32 x.pos }
        .trap (s.postHints t (listedAccess (s.listed q w 33 x.pos x.n)) q.pc q.vl.toNat { f with elem := k }) [] f.cause
          f.va k
      | .done x =>
        let t := s.putV o.d x.v (decide (0 < x.n))
        let t := t.upd fun u => { u with vl := BitVec.ofNat 12 x.n, vlFull := true, xresume := 0 }
        .done (t.setX o.limit (BitVec.ofNat 64 x.pos)) []

def execVldz (o : VldzOps) (s : State) : Result := .next (s.vector (.vldz o) (formVldz o))

end Sys2Proof.Machine
end

