-- ==== Sys2Proof/Machine/Commands.lean ====
section
/-! DEFINITION. What Pontoon items and engine commands share: issue with a snapshot (R224, R300), the accesses of an
engine, poison at its destination (R342), and completion (R240, R241, R301). -/

namespace Sys2Proof.Machine

/-! ## Issue (R224, R300) -/

/-- The bytes of a record of `size` bytes, aligned to `align`, through the strand's load path; a misaligned address is
a fault by R88. -/
def State.snapshot (s : State) (q : QEntry) (a : Word) (align size : Nat) : ByteRead :=
  if canonical a && a.toNat % align != 0 then .bad ⟨0, 0x08, a, 0⟩ else s.readBytes q a size

/-- The snapshot of a queue entry can be taken: older loads have returned, and older atomics are performed. Older stores
may wait on: the snapshot sees them (R97, R224). -/
def Strand.snapshotReady (t : Strand) (q : QEntry) : Bool :=
  (t.loads.all fun l => !decide (l.seq < q.seq)) && t.stores.all fun e => !(decide (e.seq < q.seq) && e.dest.isSome)

/-- The frame of the commands: pushed, and at retirement the record at xa is read as the strand's older stores leave
it. -/
def commandForm (a : Reg) (fa : Bool) (size align : Nat) (body : QEntry → List Byte → State → VOut) : VForm where
  readsVl := false
  rechecks := false
  xa := some (a, fa)
  body := fun q _ _ s =>
    if !s.st.snapshotReady q then .wait s
    else
      match s.snapshot q q.a align size with
      | .bad f => .trap s [] f.cause f.va 0
      | .poison line => .poison line
      | .bytes bs => body q bs s

/-- The iteration has issued a command (R352). -/
def State.withEffects (s : State) : State := s.upd fun t => { t with iter := { t.iter with effects := true } }

/-- A new stamp. -/
def State.nextStamp (s : State) : State := { s with stamp := s.stamp + 1 }

/-! ## Accesses of an engine (R292, R242) -/

/-- Which pages an access admits: any, those with the D attribute, those without. -/
inductive Pages where
  | any
  | described
  | plain
  deriving DecidableEq, Repr

/-- Whether a page with or without D is admitted. -/
def Pages.admits (p : Pages) (d : Bool) : Bool :=
  match p with
  | .any => true
  | .described => d
  | .plain => !d

/-- The place of an access of an engine, where it is permitted. -/
def State.engPlace (s : State) (ctx : BitVec 12) (acc : Acc) (pages : Pages) (a : Word) : Option Place :=
  match s.checkEngine ctx acc 1 a with
  | .ok p d => if pages.admits d then some p else none
  | .bad _ _ => none

/-- What a read of an engine gives. -/
inductive EngRead where
  | bytes (bs : List Byte)
  /-- the access faults at an address -/
  | bad (a : Word)
  /-- it consumes poison -/
  | poison

/-- The address at which a read faulted. -/
def EngRead.fault (r : EngRead) : Option Word :=
  match r with
  | .bad a => some a
  | _ => none

/-- The bytes that were read. -/
def EngRead.value (r : EngRead) : Option Nat :=
  match r with
  | .bytes bs => some (ofBytes bs)
  | _ => none

/-- A read of `n` bytes that lie in one line. -/
def State.engRead (s : State) (ctx : BitVec 12) (pages : Pages) (a : Word) (n : Nat) : EngRead :=
  match s.engPlace ctx .read pages a with
  | none => .bad a
  | some p => if (s.poisonAt a p n).isSome then .poison else .bytes (s.placeBytes p n)

/-- The parts of `n` bytes from `a` on that lie each in one line: offset and size. -/
def lineSpans (a : Word) (n : Nat) : List (Nat × Nat) :=
  let k := Nat.min n (64 - a.toNat % 64)
  if n = 0 then []
  else (0, k) :: (List.range ((n - k + 63) / 64)).map fun j => (k + 64 * j, Nat.min 64 (n - k - 64 * j))

/-- The parts of a read, joined: the lowest that faults ends it, and poison in any of the others spoils it. -/
def State.engSpans (s : State) (ctx : BitVec 12) (pages : Pages) (a : Word) : List (Nat × Nat) → EngRead
  | [] => .bytes []
  | (off, k) :: rest =>
    match s.engRead ctx pages (a + BitVec.ofNat 64 off) k, s.engSpans ctx pages a rest with
    | .bad x, _ => .bad x
    | _, .bad x => .bad x
    | .bytes b, .bytes bs => .bytes (b ++ bs)
    | _, _ => .poison

/-- A read of `n` bytes, line by line. -/
def State.engBytes (s : State) (ctx : BitVec 12) (pages : Pages) (a : Word) (n : Nat) : EngRead :=
  s.engSpans ctx pages a (lineSpans a n)

/-- A write that is ready: its address, place and bytes within one line, and whether it depends on poisoned data. -/
structure EngWrite where
  va : Word
  place : Place
  bytes : List Byte
  bad : Bool := false

/-- Performs writes in order from die `k`, for an engine of a context; those that depend on poisoned data poison their
lines (R342). -/
def State.engWrites (s : State) (k : Nat) (ctx : BitVec 12) : List EngWrite → State
  | [] => s
  | w :: ws =>
    let t := if w.bad then s.spoilFrom k ctx w.va w.place w.bytes.length
      else s.writeFrom k ctx w.va w.place w.bytes
    t.engWrites k ctx ws

/-- A destination element: its writes, one for each line that it touches, or the address at which it faults. -/
abbrev DestElem := Except Word (List EngWrite)

/-- The destination element of the bytes `bs` at `a`. -/
def State.destElem (s : State) (ctx : BitVec 12) (pages : Pages) (bad : Bool) (a : Word) (bs : List Byte) : DestElem :=
  (lineSpans a bs.length).mapM fun x =>
    let va := a + BitVec.ofNat 64 x.1
    match s.engPlace ctx .write pages va with
    | none => .error va
    | some p => .ok ⟨va, p, (bs.drop x.1).take x.2, bad⟩

/-- The first fault of a list of elements. -/
def destFault (ds : List DestElem) : Option Word :=
  ds.findSome? fun d => match d with | .error a => some a | .ok _ => none

/-- The elements that can be written. -/
def destGood (ds : List DestElem) : List (List EngWrite) :=
  ds.filterMap fun d => match d with | .error _ => none | .ok ws => some ws

/-- Some write of a list depends on poisoned data. -/
def anyBad (ws : List EngWrite) : Bool := ws.any fun w => w.bad

/-- After a failure each destination element holds its old value or its new one: a free choice (R242, R306, R380; log
13). A command that ends because it consumed poison writes every unit that depends on it as poisoned (R342); where another
failure ends it, such an element keeps its old value. -/
def State.someWrites (s : State) (k : Nat) (ctx : BitVec 12) (code : Nat) (elems : List (List EngWrite)) : State :=
  s.engWrites k ctx (((elems.mapIdx fun k ws => (k, ws)).filter fun x =>
    if anyBad x.2 then code == 0x08 else !Config.keepOld s.freeCount x.1).flatMap Prod.snd)

/-! ## Completion (R240, R241) -/

/-- The status word: flags and code. -/
def statusWord (code : Nat) (fl : FFlags) : BitVec 32 := BitVec.ofNat 32 (256 * fl.toNat + code)

/-- The flags of a status whose command failed after it had begun. -/
def State.failFlags (s : State) : FFlags := Config.failFlags s.freeCount

/-- What completes: the record, its fields and the outcome. -/
structure Completion where
  /-- the number of the command or item, and the die that performed it -/
  id : Nat
  die : Nat
  ctx : BitVec 12
  iter : Nat
  desc : Word
  /-- bytes of the pending field at offset 0, and the offset of the fault field -/
  pendBytes : Nat
  faultAt : Nat
  user : BitVec 32
  tag : BitVec 16
  source : BitVec 4
  signal : Word
  status : BitVec 32
  fault : Word

/-- An access from die `k` comes to its home, where it has a place. -/
def State.comeTo (s : State) (k : Nat) (p : Option Place) : State := p.elim s (s.crossed k)

/-- An access from die `k` that adds to `n` bytes comes to its home, where it has a place (R250, R315). -/
def State.comeToAdd (s : State) (k : Nat) (ctx : BitVec 12) (a : Word) (p : Option Place) (n : Nat) : State :=
  p.elim s fun p => s.opened k ctx a p n

/-- Bytes are written at the home, where there is a place. -/
def State.landAt (s : State) (ctx : BitVec 12) (a : Word) (p : Option Place) (bs : List Byte) : State :=
  p.elim s fun p => s.land ctx a p bs

/-- Writes a field of a record from die `k`, where its page can be written. -/
def State.writeField (s : State) (k : Nat) (ctx : BitVec 12) (a : Word) (bs : List Byte) : State :=
  let p := s.engPlace ctx .write .any a
  (s.comeTo k p).landAt ctx a p bs

/-- The signal counter is usable: not zero, canonical, aligned, and on a writable page of main memory without D. -/
def State.signalPlace (s : State) (ctx : BitVec 12) (a : Word) : Option Place :=
  if a = 0 ∨ a.toNat % 8 ≠ 0 then none
  else
    match s.engPlace ctx .write .plain a with
    | some (.mem p) => if p / 2 ^ 49 < 4 then some (.mem p) else none
    | _ => none

/-- An item or command completes: fault, status, pending and signal, in this order; then its event is on its way. Events
of different commands arrive in no defined mutual order (R109, R246), so a step of its own delivers it. Poison that was
consumed is counted (R242, R351). -/
def State.finish (s : State) (c : Completion) : State :=
  let s := s.writeField c.die c.ctx (c.desc + BitVec.ofNat 64 c.faultAt) (bytesOf 8 c.fault.toNat)
  let s := s.writeField c.die c.ctx (c.desc + 8) (bytesOf 4 c.status.toNat)
  let s := s.writeField c.die c.ctx c.desc (bytesOf c.pendBytes 0)
  let s := match s.signalPlace c.ctx c.signal with
    | none => s
    | some p =>
      let s := s.opened c.die c.ctx c.signal p 8
      s.land c.ctx c.signal p (bytesOf 8 (ofBytes (s.placeBytes p 8) + 1))
  let s := if c.status.truncate 8 = (0x08 : Byte) then s.countPoisonOn c.die else s
  { s with posts := s.posts ++ [⟨c.id, c.die, c.ctx, c.iter, ⟨c.user, c.tag, c.status.truncate 8, c.source, c.desc, c.fault⟩⟩] }

/-- The event of command or item `id` arrives, where it is on its way and can be posted. -/
def State.arriveEvent (s : State) (id : Nat) : Option State :=
  match s.posts.find? fun p => p.id == id with
  | none => none
  | some p =>
    if s.canPost p.iter then
      some ({ s with posts := s.posts.filter fun q => q.id != id }.postEvent p.die p.iter p.event)
    else none

/-! ## Engine commands (R300) -/

/-- The event source of an engine (R109, R300, R374). -/
def Engine.source (e : Engine) : BitVec 4 :=
  match e with
  | .copy => 0
  | .train => 1
  | .coll => 2
  | .pix => 3
  | .wharf => 4

/-- Bytes of the pending field of an engine's descriptor: `xcopy` and `xcoll` keep a count beside it. -/
def Engine.pendBytes (e : Engine) : Nat :=
  match e with
  | .copy | .coll => 4
  | _ => 8

/-- Queues a command of the strand in focus. -/
def State.queueCmd (s : State) (e : Engine) (desc : Word) (bs extra : List Byte) : State :=
  let c : Cmd :=
    { id := s.stamp, engine := e, desc, bytes := bs, extra, strand := s.cur, ctx := s.st.ctx
      iter := s.st.iter.id, die := dieOf s.cur, started := false, cancelled := false, acks := [], status := 0
      fault := 0 }
  { s.withEffects.nextStamp with cmds := s.cmds ++ [c] }

/-- A command by its number. -/
def State.cmd (s : State) (id : Nat) : Option Cmd := s.cmds.find? fun c => c.id == id

/-- Changes a command. -/
def State.setCmd (s : State) (id : Nat) (f : Cmd → Cmd) : State :=
  { s with cmds := s.cmds.map fun c => if c.id == id then f c else c }

/-- A command completes with a status; it leaves the list. -/
def State.finishCmd (s : State) (c : Cmd) (status : BitVec 32) (fault : Word) : State :=
  let s := { s with cmds := s.cmds.filter fun k => k.id != c.id }
  s.finish
    { id := c.id, die := c.die, ctx := c.ctx, iter := c.iter, desc := c.desc, pendBytes := c.engine.pendBytes, faultAt := 0x38
      user := BitVec.ofNat 32 (fieldOf c.bytes 0x0C 4), tag := BitVec.ofNat 16 (fieldOf c.bytes 0x10 2)
      source := c.engine.source, signal := wordOfField c.bytes 0x30, status, fault }

/-- A started command of an engine, or one cancelled before it started (status 0x07). -/
def State.completing (s : State) (e : Engine) (id : Nat) : Option Cmd :=
  match s.cmd id with
  | none => none
  | some c => if c.engine == e && (c.started || c.cancelled) then some c else none

/-- Bytes that are all zero. -/
def zeroField (bs : List Byte) (off n : Nat) : Bool := fieldOf bs off n == 0

/-- The signal field of a descriptor is aligned (R226). -/
def signalOk (bs : List Byte) (off : Nat) : Bool := fieldOf bs off 8 % 8 == 0

/-- The first address of a list that is not canonical. -/
def nonCanonical (l : List Word) : Option Word := l.find? fun a => !canonical a

/-! ## Wharf regions (R298, R363) -/

/-- The owner field of region `r` of a die's Wharf. -/
def Mgmt.wharfField (m : Mgmt) (die r : Nat) : Nat := ofBytes (bytesAt m.winByte (0x90000 + 2048 * die + 2 * r) 2)

/-- Whether a Wharf range lies in regions that are allocated to a context. -/
def State.wharfOwned (s : State) (ctx : BitVec 12) (die off n : Nat) : Bool :=
  (List.range ((off + n + 2 ^ 24 - 1) / 2 ^ 24 - off / 2 ^ 24)).all fun k =>
    let f := s.mgmt.wharfField die (off / 2 ^ 24 + k)
    f.testBit 15 && f % 4096 == ctx.toNat

/-- The die whose Wharf a command names (R307). -/
def Cmd.wharfDie (c : Cmd) : Nat := if fieldOf c.bytes 0x13 1 = 0 then c.die else fieldOf c.bytes 0x13 1 - 1

/-- A seal, rather than a write. -/
def Cmd.seals (c : Cmd) : Bool := fieldOf c.bytes 0x12 1 == 1

/-- The range of a Wharf command. -/
def Cmd.wharfRange (c : Cmd) : Nat × Nat := (fieldOf c.bytes 0x18 8, fieldOf c.bytes 0x28 8)

/-- A started Wharf command that has not failed. -/
def Cmd.wharfLive (c : Cmd) : Bool := c.engine == .wharf && c.started && c.status == 0

/-- The source of unit `n` of a Wharf write (R308). -/
def State.wharfSource (s : State) (c : Cmd) (n : Nat) : EngRead :=
  s.engRead c.ctx .any (wordOfField c.bytes 0x20 + BitVec.ofNat 64 (64 * n)) 64

/-- The unit at an offset of a die's Wharf: its bytes, or nothing where it is poisoned. While a write to it runs, a read
gets its old bytes or the new ones, as the source now holds them: a free choice for each unit (R308; log 13). -/
def State.wharfRead (s : State) (die off : Nat) : Option (List Byte) :=
  let old := if (s.die die).wharfPoison.contains (off / 64) then none else some (bytesAt (cellAt 0 (s.die die).wharf) off 64)
  match s.cmds.find? fun c => c.wharfLive && !c.seals && c.wharfDie == die && decide (c.wharfRange.1 ≤ off) &&
      decide (off < c.wharfRange.1 + c.wharfRange.2) && !Config.keepOld s.freeCount (2 ^ 40 * (c.id + 1) + off) with
  | none => old
  | some c =>
    match s.wharfSource c ((off - c.wharfRange.1) / 64) with
    | .bad _ => old
    | .poison => none
    | .bytes bs => some bs

/-- Whether any region of a range is sealed. -/
def DieSt.sealed (d : DieSt) (off n : Nat) : Bool :=
  d.seals.any fun p => decide (off / 2 ^ 24 ≤ p.1) && decide (p.1 * 2 ^ 24 < off + n)

end Sys2Proof.Machine
end

