-- ==== Sys2Proof/Machine/Engines.lean ====
section
/-! DEFINITION. The engines of a die: copies, the Wharf writer and the pixel export path (R300 to R311). -/

namespace Sys2Proof.Machine

/-! ## Issue (R300) -/

/-- The record that a descriptor names, where it names one with an address aligned to `align`. -/
def State.namedRecord (s : State) (q : QEntry) (named : Option Word) (align size : Nat) : ByteRead :=
  match named with
  | none => .bytes []
  | some a => if a.toNat % align != 0 then .bytes [] else s.snapshot q a align size

/-- The frame of an engine command: its descriptor, then the record it names, then the queue. -/
def engineForm (e : Engine) (o : AOps) (size align : Nat) (names : List Byte → Option Word) (ralign rsize : Nat) : VForm :=
  commandForm o.a o.fa size align fun q bs s =>
    match s.namedRecord q (names bs) ralign rsize with
    | .bad f => .trap s [] f.cause f.va 0
    | .poison line => .poison line
    | .bytes extra => .done (s.queueCmd e q.a bs extra) []

/-- `xcopy`: a shaped copy names a shape record (R303). -/
def formXcopy (o : AOps) : VForm :=
  engineForm .copy o 64 64 (fun bs => if fieldOf bs 0x12 1 = 1 then some (wordOfField bs 0x28) else none) 64 64

/-- `xwharf`: a seal names a loop-nest record of 128 bytes (R248, R307). -/
def formXwharf (o : AOps) : VForm :=
  engineForm .wharf o 64 64 (fun bs => if fieldOf bs 0x12 1 = 1 then some (wordOfField bs 0x20) else none) 128 128

/-- `xpix`: the descriptor names a frame-buffer record (R310). -/
def formXpix (o : AOps) : VForm := engineForm .pix o 64 64 (fun bs => some (wordOfField bs 0x18)) 64 64

def execXcopy (o : AOps) (s : State) : Result := .next (s.vector (.xcopy o) (formXcopy o))
def execXwharf (o : AOps) (s : State) : Result := .next (s.vector (.xwharf o) (formXwharf o))
def execXpix (o : AOps) (s : State) : Result := .next (s.vector (.xpix o) (formXpix o))

/-! ## Copies (R303 to R306) -/

/-- How a command ends: code, flags and fault address; its writes in order, the same by destination element for one that
fails, and the converters' states. -/
structure CopyDone where
  code : Nat
  flags : FFlags := 0
  fault : Word := 0
  writes : List EngWrite := []
  elems : List (List EngWrite) := []
  states : Option (List (BitVec 32)) := none

/-- The descriptor keeps R303. The limit of 2⁴⁰ is read for bytes too (DEDUCED; log 31). -/
def copyLayout (bs : List Byte) : Bool :=
  let kind := fieldOf bs 0x12 1
  let conv := fieldOf bs 0x13 1
  let round := fieldOf bs 0x14 1
  let bw := fieldOf bs 0x15 1
  let length := fieldOf bs 0x28 8
  let blocks := conv == 5 || conv == 6
  decide (kind ≤ 1) && decide (conv ≤ 6) && decide (round % 8 ≤ 4) && decide (round < 16) && zeroField bs 0x16 2 &&
    (if blocks then kind == 0 && (round % 8 == 0 || round % 8 == 4) && decide (2 ≤ bw) && decide (bw ≤ 8) else bw == 0) &&
    (if kind = 0 then decide (length ≤ 2 ^ 40) else length % 64 == 0) && signalOk bs 0x30

/-- The shape record keeps R304. -/
def shapeLayout (conv : Nat) (sh : List Byte) : Bool :=
  let c (d : Nat) : Nat := fieldOf sh (4 * d) 4
  let e := fieldOf sh 0x3C 1
  decide (1 ≤ c 0) && decide (1 ≤ c 1) && decide (1 ≤ c 2) && decide (c 0 * c 1 * c 2 ≤ 2 ^ 32) && zeroField sh 0x3D 3 &&
    (match conv with
      | 0 => e == 1 || e == 2 || e == 4 || e == 8
      | 1 | 2 => e == 4
      | _ => e == 2)

/-- One element of a copy: its source and destination. -/
abbrev ElemAt := Word × Word

/-- The elements of a shape, i0 fastest (R304). -/
def shapeElems (src dst : Word) (sh : List Byte) : List ElemAt :=
  let c (d : Nat) : Nat := fieldOf sh (4 * d) 4
  let st (d : Nat) : Word := wordOfField sh (0x0C + 8 * d)
  let dt (d : Nat) : Word := wordOfField sh (0x24 + 8 * d)
  (List.range (c 0 * c 1 * c 2)).map fun n =>
    let i0 := BitVec.ofNat 64 (n % c 0)
    let i1 := BitVec.ofNat 64 (n / c 0 % c 1)
    let i2 := BitVec.ofNat 64 (n / c 0 / c 1)
    (src + i0 * st 0 + i1 * st 1 + i2 * st 2, dst + i0 * dt 0 + i1 * dt 1 + i2 * dt 2)

/-- Consecutive elements. -/
def lineElems (src dst : Word) (ssize dsize n : Nat) : List ElemAt :=
  (List.range n).map fun k => (src + BitVec.ofNat 64 (ssize * k), dst + BitVec.ofNat 64 (dsize * k))

/-- The bytes of one element at its source and its destination (R304, R305). -/
def copySizes (conv esize : Nat) : Nat × Nat :=
  match conv with
  | 1 | 2 => (4, 2)
  | 3 | 4 => (2, 4)
  | _ => (esize, esize)

/-- Lowest and highest byte of a list of ranges of `size` bytes. -/
def spanOf (size : Nat) : List Word → Option (Nat × Nat)
  | [] => none
  | a :: l =>
    match spanOf size l with
    | none => some (a.toNat, a.toNat + size - 1)
    | some (lo, hi) => some (Nat.min lo a.toNat, Nat.max hi (a.toNat + size - 1))

/-- Two spans share a byte (R306). -/
def spansMeet (x y : Option (Nat × Nat)) : Bool :=
  match x, y with
  | some (a, b), some (c, d) => decide (a ≤ d) && decide (c ≤ b)
  | _, _ => false

/-- The states of the 64 converters of copy engine `e` of a die in the engine context of a context (R81, R83, R351). -/
def CtxSt.converterStates (c : CtxSt) (die e : Nat) : List (BitVec 32) :=
  (List.range 64).map fun j => tabGet 1 c.converters (256 * die + 64 * e + j)

/-- The copy engine of its die that runs a copy: not architectural (R305; log 6). -/
def Cmd.copyEngine (c : Cmd) : Nat := Config.copyEngine c.id % 4

/-- The states that a copy starts from (R305). -/
def startStates (bs : List Byte) (held : List (BitVec 32)) : List (BitVec 32) :=
  if (fieldOf bs 0x14 1).testBit 3 then
    (List.range 64).map fun j =>
      let x := BitVec.ofNat 32 (fieldOf bs 0x04 4) ^^^ BitVec.ofNat 32 j
      if x = 0 then 1 else x
  else held

/-- The state of the converter of element n, and the states after its conversion. -/
def drawAt (cs : List (BitVec 32)) (n : Nat) : BitVec 32 × List (BitVec 32) :=
  let x := cs.getD (n % 64) 1
  (x, cs.set (n % 64) (lfsrStep x))

/-- The draws of `k` elements from number `n` on. -/
def drawsFrom (cs : List (BitVec 32)) (n : Nat) : Nat → List (BitVec 32) × List (BitVec 32)
  | 0 => ([], cs)
  | k + 1 =>
    let d := drawAt cs n
    let r := drawsFrom d.2 (n + 1) k
    (d.1 :: r.1, r.2)

/-- One value of a copy rounded into a format (R305): subnormals are kept. -/
def copyRound (f : Fmt) (mode : Nat) (draw : BitVec 32) (v : FVal) : Nat × FFlags :=
  if mode = 4 then stochF f draw v else convertF f (BitVec.ofNat 3 mode) false v

/-- The formats of conversions 1 to 4. -/
def copyFormats (conv : Nat) : Fmt × Fmt :=
  match conv with
  | 1 => (f32, bf16)
  | 2 => (f32, fmtOf 1)
  | 3 => (bf16, f32)
  | _ => (fmtOf 1, f32)

/-- What a piece of a copy delivers: the bytes of destination elements of `unit` bytes each, or poison, with the
flags. -/
structure Piece where
  dst : Word
  unit : Nat
  bytes : List Byte
  bad : Bool
  flags : FFlags := 0

/-- The pieces of a copy, each formed or ended by a fault (code and address), and the converters' states after them. -/
abbrev Pieces := List (Except (Nat × Word) Piece) × List (BitVec 32)

/-- A piece before the others. -/
def Pieces.cons (p : Except (Nat × Word) Piece) (ps : Pieces) : Pieces := (p :: ps.1, ps.2)

/-- A piece from what was read for it: `n` bytes that depend on poison, or those that `f` forms. -/
def pieceFrom (r : EngRead) (d : Word) (unit n : Nat) (f : List Byte → List Byte × FFlags) : Except (Nat × Word) Piece :=
  match r with
  | .bad a => .error (0x03, a)
  | .poison => .ok ⟨d, unit, List.replicate n 0, true, 0⟩
  | .bytes bs =>
    let x := f bs
    .ok ⟨d, unit, x.1, false, x.2⟩

/-- A copy without conversion, piece by piece: source, destination, bytes. -/
def State.plainPieces (s : State) (ctx : BitVec 12) (cs : List (BitVec 32)) (unit : Nat) (ps : List (Word × Word × Nat)) :
    Pieces :=
  (ps.map fun p => pieceFrom (s.engBytes ctx .any p.1 p.2.2) p.2.1 unit p.2.2 fun bs => (bs, 0), cs)

/-- Conversions 1 to 4, element by element from number n on (R305). -/
def State.convPieces (s : State) (ctx : BitVec 12) (conv mode : Nat) : Nat → List (BitVec 32) → List ElemAt → Pieces
  | _, cs, [] => ([], cs)
  | n, cs, (a, d) :: rest =>
    let sizes := copySizes conv 0
    let f := copyFormats conv
    let draw := drawAt cs n
    (s.convPieces ctx conv mode (n + 1) draw.2 rest).cons <|
      pieceFrom (s.engBytes ctx .any a sizes.1) d sizes.2 sizes.2 fun bs =>
        let x := copyRound f.2 mode draw.1 (unpack f.1 (ofBytes bs))
        (bytesOf sizes.2 x.1, x.2)

/-- f32 elements into blocks (R305, R79): `left` elements remain, of which the first is number n. -/
def State.quantPieces (s : State) (ctx : BitVec 12) (bw mode : Nat) :
    Nat → Nat → Nat → List (BitVec 32) → Word → Word → Pieces
  | 0, _, _, cs, _, _ => ([], cs)
  | fuel + 1, left, n, cs, a, d =>
    if left = 0 then ([], cs)
    else
      let k := Nat.min left (blockElems bw)
      let draws := drawsFrom cs n k
      (s.quantPieces ctx bw mode fuel (left - k) (n + k) draws.2 (a + BitVec.ofNat 64 (4 * k)) (d + 64)).cons <|
        pieceFrom (s.engBytes ctx .any a (4 * k)) d 64 64 fun bs =>
          let xs := (List.range k).map fun i => unpack f32 (fieldOf bs (4 * i) 4)
          let r := quantBlock bw xs (if mode = 4 then draws.1 else [])
          (bytesOf 64 r.1, r.2.foldl (fun x y => x ||| y) 0)

/-- The elements of a block, each rounded with its draw. -/
def widenElems (mode blk : Nat) : Nat → List (BitVec 32) → List Byte × FFlags
  | _, [] => ([], 0)
  | i, d :: ds =>
    let x := copyRound f32 mode d (blockValue blk i)
    let r := widenElems mode blk (i + 1) ds
    (bytesOf 4 x.1 ++ r.1, x.2 ||| r.2)

/-- The source block at `a`: 0x03 where it cannot be read, 0x02 where its format is neither `bw` nor a hole's (R305). -/
def State.widenPiece (s : State) (ctx : BitVec 12) (bw mode : Nat) (draws : List (BitVec 32)) (a d : Word) :
    Except (Nat × Word) Piece :=
  if a.toNat % 64 ≠ 0 then .error (0x03, a)
  else
    let r := s.engRead ctx .described a 64
    match r.value with
    | some blk =>
      if blockFormat blk ≠ bw ∧ blockFormat blk ≠ 0xFF then .error (0x02, a)
      else pieceFrom r d 4 (4 * draws.length) fun bs => widenElems mode (ofBytes bs) 0 draws
    | none => pieceFrom r d 4 (4 * draws.length) fun _ => ([], 0)

/-- Blocks into f32 elements (R305). -/
def State.widenPieces (s : State) (ctx : BitVec 12) (bw mode : Nat) :
    Nat → Nat → Nat → List (BitVec 32) → Word → Word → Pieces
  | 0, _, _, cs, _, _ => ([], cs)
  | fuel + 1, left, n, cs, a, d =>
    if left = 0 then ([], cs)
    else
      let k := Nat.min left (blockElems bw)
      let draws := drawsFrom cs n k
      (s.widenPieces ctx bw mode fuel (left - k) (n + k) draws.2 (a + 64) (d + BitVec.ofNat 64 (4 * k))).cons
        (s.widenPiece ctx bw mode draws.1 a d)

/-- A linear copy in pieces that lie each in one line of the destination. -/
def linePieces (src dst : Word) : Nat → Nat → List (Word × Word × Nat)
  | 0, _ => []
  | fuel + 1, left =>
    if left = 0 then []
    else
      let k := Nat.min left (64 - dst.toNat % 64)
      (src, dst, k) :: linePieces (src + BitVec.ofNat 64 k) (dst + BitVec.ofNat 64 k) fuel (left - k)

/-- A destination piece as a whole: a block lies in a page with the D attribute and in one line (R305). -/
def State.destPiece (s : State) (ctx : BitVec 12) (described : Bool) (bad : Bool) (a : Word) (bs : List Byte) : DestElem :=
  if described then (if a.toNat % 64 ≠ 0 then .error a else s.destElem ctx .described bad a bs)
  else s.destElem ctx .any bad a bs

/-- The destination elements of a piece, each of its own. -/
def State.pieceElems (s : State) (ctx : BitVec 12) (described : Bool) (p : Piece) : List DestElem :=
  (List.range (p.bytes.length / p.unit)).map fun j =>
    s.destPiece ctx described p.bad (p.dst + BitVec.ofNat 64 (p.unit * j)) ((p.bytes.drop (p.unit * j)).take p.unit)

/-- The pieces of a copy that keeps R303 and R304. -/
def State.copyPieces (s : State) (ctx : BitVec 12) (bs sh : List Byte) (cs : List (BitVec 32)) : Pieces :=
  let conv := fieldOf bs 0x13 1
  let mode := fieldOf bs 0x14 1 % 8
  let bw := fieldOf bs 0x15 1
  let src := wordOfField bs 0x18
  let dst := wordOfField bs 0x20
  let len := fieldOf bs 0x28 8
  if conv = 5 then s.quantPieces ctx bw mode len len 0 cs src dst
  else if conv = 6 then s.widenPieces ctx bw mode len len 0 cs src dst
  else
    let elems := if fieldOf bs 0x12 1 = 1 then shapeElems src dst sh
      else if conv = 0 then [] else lineElems src dst (copySizes conv 0).1 (copySizes conv 0).2 len
    if conv = 0 then
      if fieldOf bs 0x12 1 = 1 then
        s.plainPieces ctx cs (fieldOf sh 0x3C 1) (elems.map fun p => (p.1, p.2, fieldOf sh 0x3C 1))
      else s.plainPieces ctx cs 1 (linePieces src dst len len)
    else s.convPieces ctx conv mode 0 cs elems

/-- Bytes of the source and of the destination of a linear copy (R305). -/
def copyBytes (bs : List Byte) : Nat × Nat :=
  let conv := fieldOf bs 0x13 1
  let len := fieldOf bs 0x28 8
  let bw := fieldOf bs 0x15 1
  let blocks := 64 * ((len + blockElems bw - 1) / blockElems bw)
  match conv with
  | 0 => (len, len)
  | 5 => (4 * len, blocks)
  | 6 => (blocks, 4 * len)
  | _ => ((copySizes conv 0).1 * len, (copySizes conv 0).2 * len)

/-- Source and destination of a shaped or converting copy share a byte (R306). -/
def copyOverlaps (bs sh : List Byte) : Bool :=
  let conv := fieldOf bs 0x13 1
  let src := wordOfField bs 0x18
  let dst := wordOfField bs 0x20
  let range (a : Word) (n : Nat) : Option (Nat × Nat) := if n = 0 then none else some (a.toNat, a.toNat + n - 1)
  if fieldOf bs 0x12 1 = 1 then
    let sizes := copySizes conv (fieldOf sh 0x3C 1)
    let elems := shapeElems src dst sh
    spansMeet (spanOf sizes.1 (elems.map Prod.fst)) (spanOf sizes.2 (elems.map Prod.snd))
  else conv != 0 && spansMeet (range src (copyBytes bs).1) (range dst (copyBytes bs).2)

/-- The flags that a conversion can raise (R305, R71). -/
def convFlags (conv : Nat) : FFlags :=
  match conv with
  | 1 | 2 => flagNV ||| flagOF ||| flagUF ||| flagNX
  | 3 | 4 => flagNV
  | 5 => flagNV ||| flagOF ||| flagSAT ||| flagNX ||| flagUF
  | 6 => flagOF ||| flagNX
  | _ => 0

/-- The flags that the pieces of a copy could raise: those of the formed ones, and for a poisoned one any of its
conversion. -/
def pieceFlags (conv : Nat) (ps : List Piece) : FFlags :=
  ps.foldl (fun f p => f ||| if p.bad then convFlags conv else p.flags) 0

/-- The pieces whose elements hold their old or new value after a failure (R306): of a linear copy without conversion each
byte with its own source. -/
def State.choiceCells (s : State) (c : Cmd) (bs : List Byte) (pieces : List Piece) : List Piece :=
  if fieldOf bs 0x13 1 = 0 ∧ fieldOf bs 0x12 1 = 0 then
    let src := wordOfField bs 0x18
    let dst := wordOfField bs 0x20
    (s.plainPieces c.ctx [] 1 ((List.range (fieldOf bs 0x28 8)).map fun i =>
        (src + BitVec.ofNat 64 i, dst + BitVec.ofNat 64 i, 1))).1.filterMap fun p =>
      match p with
      | .ok x => some x
      | .error _ => none
  else pieces

/-- The work of a copy. A copy without conversion leaves the converters' states, also where its round[3] seeds them: no
element starts from the seed, and no rule says that the states become it (DESIGN CHOICE, log 101). The order in which
faults are found, the source before the destination, is DEDUCED (log 13). -/
def State.runCopy (s : State) (c : Cmd) : CopyDone :=
  let bs := c.bytes
  let conv := fieldOf bs 0x13 1
  let shaped := fieldOf bs 0x12 1 == 1
  if !copyLayout bs || (shaped && !shapeLayout conv c.extra) then { code := 0x01 }
  else
    match nonCanonical [wordOfField bs 0x30] with
    | some a => { code := 0x03, fault := a }
    | none =>
      if copyOverlaps bs c.extra then { code := 0x09 }
      else
        let held := (s.context c.ctx).converterStates c.die c.copyEngine
        let ps := s.copyPieces c.ctx bs c.extra (startStates bs held)
        let pieces := ps.1.filterMap fun p => match p with | .ok x => some x | .error _ => none
        let source := ps.1.findSome? fun p => match p with | .ok _ => none | .error e => some e
        let dests := pieces.map fun p => s.destPiece c.ctx (conv == 5) p.bad p.dst p.bytes
        let elems := destGood ((s.choiceCells c bs pieces).flatMap fun p => s.pieceElems c.ctx (conv == 5) p)
        let failed (code : Nat) (a : Word) : CopyDone :=
          { code, flags := s.failFlags &&& pieceFlags conv pieces, fault := a, elems
            states := if conv = 0 then none else some ((List.range 64).map fun j => Config.converterAfter s.freeCount j) }
        match source, destFault dests with
        | some (code, a), _ => failed code a
        | none, some a => failed 0x03 a
        | none, none =>
          if pieces.any fun p => p.bad then failed 0x08 0
          else
            { code := 0, flags := pieces.foldl (fun f p => f ||| p.flags) 0, writes := (destGood dests).flatten, elems
              states := if conv = 0 then none else some ps.2 }

/-- The converters' states return to the engine context (R83). -/
def State.setConverters (s : State) (c : Cmd) (cs : Option (List (BitVec 32))) : State :=
  match cs with
  | none => s
  | some l =>
    let x := s.context c.ctx
    let first := 256 * c.die + 64 * c.copyEngine
    s.setContext c.ctx { x with
      converters := (x.converters.filter fun p => p.1 / 64 != first / 64) ++ l.mapIdx fun j y => (first + j, y) }

/-- Copy command `k` completes, where it can. -/
def State.completeCopy (s : State) (k : Nat) : Option State :=
  match s.completing .copy k with
  | none => none
  | some c =>
    let s := s.focus c.strand
    if !c.started then some (s.finishCmd c 0x07 0)
    else
      let r := s.runCopy c
      let s := s.setConverters c r.states
      let s := if r.code = 0 then s.engWrites c.die c.ctx r.writes else s.someWrites c.die c.ctx r.code r.elems
      some (s.finishCmd c (statusWord r.code r.flags) r.fault)

/-- Copy command `args.k` completes. -/
def execXcopyComplete (s : State) : Result :=
  .next (((s.completeCopy s.args.k).or (s.arriveEvent s.args.k)).getD s)

/-! ## The Wharf writer (R307, R308) -/

/-- The descriptor keeps R307. -/
def wharfLayout (bs : List Byte) : Bool :=
  let op := fieldOf bs 0x12 1
  let unit := if op = 0 then 64 else 2 ^ 24
  decide (op ≤ 1) && decide (fieldOf bs 0x13 1 ≤ 4) && zeroField bs 0x14 4 && fieldOf bs 0x18 8 % unit == 0 &&
    fieldOf bs 0x28 8 % unit == 0 && decide (fieldOf bs 0x18 8 + fieldOf bs 0x28 8 ≤ 2 ^ 34) &&
    (op == 1 || fieldOf bs 0x20 8 % 64 == 0) && signalOk bs 0x30

/-- The regions of a range. -/
def regionsOf (off n : Nat) : List Nat :=
  if n = 0 then [] else (List.range ((off + n - 1) / 2 ^ 24 + 1 - off / 2 ^ 24)).map fun k => off / 2 ^ 24 + k

/-- The lowest offset of a range in a region that is not allocated to the context (R298). -/
def State.wharfFault (s : State) (ctx : BitVec 12) (die off n : Nat) : Option Nat :=
  ((regionsOf off n).find? fun r => !(let f := s.mgmt.wharfField die r; f.testBit 15 && f % 4096 == ctx.toNat)).map
    fun r => Nat.max off (r * 2 ^ 24)

/-- Two Wharf commands name a common region. -/
def Cmd.sameRegions (c d : Cmd) : Bool :=
  c.wharfDie == d.wharfDie &&
    (regionsOf c.wharfRange.1 c.wharfRange.2).any fun r => (regionsOf d.wharfRange.1 d.wharfRange.2).contains r

/-- The launch of a seal, while its record is active, from its acceptance until it finishes (R249, R254): the model's
number of it. -/
def State.sealLaunch (s : State) (c : Cmd) : Option Nat :=
  (s.launches.find? fun l => l.ctx == c.ctx && l.recAddr == wordOfField c.bytes 0x20).map Launch.id

/-- What a Wharf command finds when it starts: a status and a fault address; 0 where it goes on. -/
def State.wharfStart (s : State) (c : Cmd) : Nat × Word :=
  let die := c.wharfDie
  let off := c.wharfRange.1
  let n := c.wharfRange.2
  if !wharfLayout c.bytes then (0x01, 0)
  else
    match nonCanonical [wordOfField c.bytes 0x30] with
    | some a => (0x03, a)
    | none =>
      match s.wharfFault c.ctx die off n with
      | some o => (0x03, BitVec.ofNat 64 o)
      | none =>
        if c.seals then
          if (s.sealLaunch c).isNone then (0x0C, 0)
          else if (regionsOf off n).any fun r => decide (255 ≤ ((s.die die).seals.filter fun p => p.1 == r).length) then
            (0x01, 0)
          else (0, 0)
        else if (regionsOf off n).any fun r => (s.die die).seals.any fun p => p.1 == r then (0x0B, 0)
        else if s.cmds.any fun d => d.wharfLive && d.seals && c.sameRegions d then (0x0B, 0)
        else (0, 0)

/-- One 64-byte unit of a Wharf write. -/
def DieSt.writeUnit (d : DieSt) (off : Nat) (bs : Option (List Byte)) : DieSt :=
  match bs with
  | some bs => { d with wharf := setCells 0 off bs d.wharf, wharfPoison := d.wharfPoison.filter fun k => k != off / 64 }
  | none => { d with wharfPoison := if d.wharfPoison.contains (off / 64) then d.wharfPoison else off / 64 :: d.wharfPoison }

/-- Unit `n` of a Wharf write changes its Wharf: always where the write succeeds, and where it ends with 0x08 if the unit
depends on poison (R342); after another failure each unit is old or new, a free choice (R308; log 13). A unit that
cannot be read stays. -/
def State.wharfUnit (s : State) (code n off : Nat) (r : EngRead) (d : DieSt) : DieSt :=
  let keep := code != 0 && Config.keepOld s.freeCount n
  match r with
  | .bad _ => d
  | .poison => if keep && code != 0x08 then d else d.writeUnit off none
  | .bytes bs => if keep then d else d.writeUnit off (some bs)

/-- A Wharf write completes, where it can. -/
def State.completeWharfWrite (s : State) (k : Nat) : Option State :=
  match s.completing .wharf k with
  | none => none
  | some c =>
    let s := s.focus c.strand
    if c.seals then none
    else if !c.started then some (s.finishCmd c 0x07 0)
    else if c.status ≠ 0 then some (s.finishCmd c c.status c.fault)
    else
      let die := c.wharfDie
      let us := (List.range (c.wharfRange.2 / 64)).map fun n => (n, s.wharfSource c n)
      let fault := us.findSome? fun u => u.2.fault
      let code := if fault.isSome then 0x03 else if us.any fun u => u.2.value.isNone then 0x08 else 0
      let s := s.setDie die (us.foldl (fun d u => s.wharfUnit code u.1 (c.wharfRange.1 + 64 * u.1) u.2 d) (s.die die))
      some (s.finishCmd c (statusWord code 0) (fault.getD 0))

/-- Wharf write `args.k` completes. -/
def execXwharfWriteComplete (s : State) : Result :=
  .next (((s.completeWharfWrite s.args.k).or (s.arriveEvent s.args.k)).getD s)

/-- A seal completes once every running write to its regions has ended: each count rises by 1, bound to the launch
(R298, R308). -/
def State.completeSeal (s : State) (k : Nat) : Option State :=
  match s.completing .wharf k with
  | none => none
  | some c =>
    let s := s.focus c.strand
    if !c.seals then none
    else if !c.started then some (s.finishCmd c 0x07 0)
    else if c.status ≠ 0 then some (s.finishCmd c c.status c.fault)
    else
      let d := s.die c.wharfDie
      let rs := regionsOf c.wharfRange.1 c.wharfRange.2
      match s.sealLaunch c with
      | none => some (s.finishCmd c 0x0C 0)
      | some l =>
        if rs.any fun r => decide (255 ≤ (d.seals.filter fun p => p.1 == r).length) then some (s.finishCmd c 0x01 0)
        else if s.cmds.any fun d => d.wharfLive && !d.seals && c.sameRegions d then none
        else some ((s.setDie c.wharfDie { d with seals := d.seals ++ rs.map fun r => (r, l) }).finishCmd c 0 0)

/-- Wharf seal `args.k` completes. -/
def execXwharfSealComplete (s : State) : Result :=
  .next (((s.completeSeal s.args.k).or (s.arriveEvent s.args.k)).getD s)

/-! ## Pixel export (R309 to R311) -/

/-- The frame-buffer record keeps R309. -/
def frameLayout (r : List Byte) : Bool :=
  let w := fieldOf r 0x0C 2
  let h := fieldOf r 0x0E 2
  let f := fieldOf r 0x10 1
  let pitch := fieldOf r 0x08 4
  fieldOf r 0 8 % 64 == 0 && pitch % 64 == 0 && decide (1 ≤ w) && decide (w ≤ 16384) && decide (1 ≤ h) &&
    decide (h ≤ 16384) && decide (f ≤ 2) && zeroField r 0x11 3 && zeroField r 0x20 32 &&
    (if f = 2 then decide (128 * ((w + 63) / 64) ≤ pitch) else zeroField r 0x18 8)

/-- The descriptor keeps R310. -/
def pixLayout (bs : List Byte) : Bool :=
  decide (fieldOf bs 0x12 1 ≤ 1) && zeroField bs 0x13 1 && fieldOf bs 0x18 8 % 64 == 0 && fieldOf bs 0x20 8 % 16 == 0 &&
    decide (fieldOf bs 0x28 4 ≤ 65536) && zeroField bs 0x2C 4 && signalOk bs 0x30

/-- A fragment: its 16 bytes, and whether they were poisoned. -/
structure Frag where
  x : Nat
  y : Nat
  /-- R, G, B, A in bf16 -/
  chans : List Nat
  bad : Bool

/-- A fragment from its bytes; the 4 bytes that are zero are not checked. -/
def fragOf (bs : List Byte) (bad : Bool) : Frag :=
  ⟨fieldOf bs 0 2, fieldOf bs 2 2, [fieldOf bs 8 2, fieldOf bs 10 2, fieldOf bs 12 2, fieldOf bs 14 2], bad⟩

/-- The fragments of a primitive as far as they can be read, and the fault. A poisoned fragment keeps the place that the
bytes held give it (log 32). -/
def State.readFrags (s : State) (ctx : BitVec 12) : Nat → Word → List Byte × Option Word × Bool
  | 0, _ => ([], none, false)
  | n + 1, a =>
    match s.engPlace ctx .read .any a with
    | none => ([], some a, false)
    | some p =>
      match s.engRead ctx .any a 16 with
      | .bad x => ([], some x, false)
      | .poison =>
        let r := s.readFrags ctx n (a + 16)
        (s.placeBytes p 16 ++ [1] ++ r.1, r.2.1, true)
      | .bytes bs =>
        let r := s.readFrags ctx n (a + 16)
        (bs ++ [0] ++ r.1, r.2)

/-- The fragments that a started primitive carries: 17 bytes each, the last saying whether it was poisoned. -/
def Cmd.frags (c : Cmd) : List Frag :=
  (List.range ((c.extra.length - 64) / 17)).map fun k =>
    let b := (c.extra.drop (64 + 17 * k)).take 17
    fragOf b (b.getD 16 0 != 0)

/-- The die that owns the tile of a pixel (R311). -/
def tileOwner (x y : Nat) : Nat := (x / 64 + y / 64) % 4

/-- A channel clamped to [0, 1], with NaN as 0, in n bits (R310). -/
def channelBits (n x : Nat) : Nat :=
  match unpack bf16 x with
  | .nan _ => 0
  | .inf neg => if neg then 0 else 2 ^ n - 1
  | .fin neg m e =>
    if neg then 0
    else if 0 ≤ cmpF (.fin false m e) (.fin false 1 0) then 2 ^ n - 1
    else (roundAt 0 false (m * (2 ^ n - 1)) e 0 false).1

/-- The pixel word of formats 0 and 1 (R309). -/
def pixelWord (format : Nat) (ch : List Nat) : Nat :=
  let c (i n : Nat) : Nat := channelBits n (ch.getD i 0)
  if format = 0 then c 0 8 + 2 ^ 8 * c 1 8 + 2 ^ 16 * c 2 8 + 2 ^ 24 * c 3 8
  else c 0 10 + 2 ^ 10 * c 1 10 + 2 ^ 20 * c 2 10 + 2 ^ 30 * c 3 2

/-- The address of a pixel of formats 0 and 1, or of the block of plane `p` of format 2 (R309). -/
def pixelAt (r : List Byte) (x y p : Nat) : Word :=
  let row := wordOfField r 0 + BitVec.ofNat 64 (y * fieldOf r 0x08 4)
  if fieldOf r 0x10 1 = 2 then
    row + BitVec.ofNat 64 p * wordOfField r 0x18 + BitVec.ofNat 64 (64 * (2 * (x / 64) + x % 64 / 32))
  else row + BitVec.ofNat 64 (4 * x)

/-- Why a fragment cannot be applied: a status and an address. -/
def State.fragFault (s : State) (ctx : BitVec 12) (r : List Byte) (g : Frag) : Option (Nat × Word) :=
  if fieldOf r 0x10 1 = 2 then
    (List.range 3).findSome? fun p =>
      let a := pixelAt r g.x g.y p
      if a.toNat % 64 ≠ 0 ∨ (s.engPlace ctx .write .described a).isNone then some (0x03, a)
      else
        match s.engRead ctx .described a 64 with
        | .bad x => some (0x03, x)
        | .poison => none
        | .bytes bs =>
          let f := blockFormat (ofBytes bs)
          if f ≠ 8 ∧ f ≠ 0xFF then some (0x02, a) else none
  else
    let a := pixelAt r g.x g.y 0
    if (s.engPlace ctx .write .plain a).isNone then some (0x03, a) else none

/-- A plane of a BFP8 pixel: the block is read, its 32 pixels are widened, the pixel's element is replaced, and they are
requantised; elements 32 to 61 are zero (R309, R310). -/
def State.planeWrite (s : State) (ctx : BitVec 12) (r : List Byte) (g : Frag) (p : Nat) : Option (EngWrite × FFlags) :=
  let a := pixelAt r g.x g.y p
  match s.engPlace ctx .write .described a, s.engRead ctx .described a 64 with
  | some q, .bytes bs =>
    let blk := ofBytes bs
    let vs := (List.range 32).map fun i => if i = g.x % 32 then unpack bf16 (g.chans.getD p 0) else blockValue blk i
    let z := quantBlock 8 vs []
    some (⟨a, q, bytesOf 64 z.1, g.bad⟩, z.2.foldl (fun x y => x ||| y) 0)
  | some q, _ => some (⟨a, q, List.replicate 64 0, true⟩, 0)
  | none, _ => none

/-- One fragment is applied by die `k`: the state, the flags, and whether it met poison. -/
def State.applyFrag (s : State) (k : Nat) (ctx : BitVec 12) (r : List Byte) (g : Frag) : State × FFlags × Bool :=
  if fieldOf r 0x10 1 = 2 then
    (List.range 3).foldl (fun acc p =>
      match acc.1.planeWrite ctx r g p with
      | none => acc
      | some (w, fl) => (acc.1.engWrites k ctx [w], acc.2.1 ||| fl, acc.2.2 || w.bad)) (s, 0, false)
  else
    let a := pixelAt r g.x g.y 0
    match s.engPlace ctx .write .plain a with
    | none => (s, 0, false)
    | some q =>
      (s.engWrites k ctx [⟨a, q, bytesOf 4 (pixelWord (fieldOf r 0x10 1) g.chans), g.bad⟩], 0, g.bad)

/-- Fragments in array order; after a failure each is applied or not. -/
def State.applyFrags (s : State) (k : Nat) (ctx : BitVec 12) (r : List Byte) (failed : Bool) (seed : Nat) :
    Nat → List Frag → State × FFlags × Bool
  | _, [] => (s, 0, false)
  | n, g :: gs =>
    if failed && !g.bad && Config.keepOld seed n then s.applyFrags k ctx r failed seed (n + 1) gs
    else
      let x := s.applyFrag k ctx r g
      let y := x.1.applyFrags k ctx r failed seed (n + 1) gs
      (y.1, x.2.1 ||| y.2.1, x.2.2 || y.2.2)

/-- The frame that a primitive belongs to, where it is registered. -/
def State.frameOf (s : State) (c : Cmd) : Option Frame :=
  s.frames.find? fun f => f.ctx == c.ctx && f.recAddr == wordOfField c.bytes 0x18

/-- Replaces a registration. -/
def State.setFrame (s : State) (c : Cmd) (g : Frame → Frame) : State :=
  { s with frames := s.frames.map fun f => if f.ctx == c.ctx && f.recAddr == wordOfField c.bytes 0x18 then g f else f }

/-- The sequence number of a primitive. -/
def Cmd.pixSeq (c : Cmd) : BitVec 32 := BitVec.ofNat 32 (fieldOf c.bytes 0x14 4)

/-- A primitive is dispatched (R311): the first that names a frame registers it, a number already received is stale, and
a malformed, failed or cancelled one distributes empty markers. -/
def State.startPix (s : State) (c : Cmd) : Option State :=
  let all := [0, 1, 2, 3]
  let set (s : State) (status : BitVec 32) (fault : Word) (acks : List Nat) (extra : List Byte) : State :=
    s.setCmd c.id fun d => { d with started := true, status, fault, acks, extra }
  let code : Nat × Word := if c.cancelled then (0x07, 0)
    else if !pixLayout c.bytes || !frameLayout c.extra then (0x01, 0)
    else
      match nonCanonical [wordOfField c.bytes 0x30] with
      | some a => (0x03, a)
      | none => (0, 0)
  if !frameLayout c.extra || fieldOf c.bytes 0x18 8 % 64 != 0 then
    some (set s (statusWord code.1 0) code.2 all c.extra)
  else if (s.frameOf c).isNone && decide (1024 ≤ s.frames.length) then none
  else
    let seq0 := BitVec.ofNat 32 (fieldOf c.extra 0x14 4)
    let s := if (s.frameOf c).isSome then s
      else { s with frames := s.frames ++ [⟨c.ctx, wordOfField c.bytes 0x18, seq0, [], Vector.replicate 4 seq0⟩] }
    if (s.frameOf c).any fun f => f.received.contains c.pixSeq then
      some (set s (if c.cancelled then 0x07 else 0x0A) 0 all c.extra)
    else
      let s := s.setFrame c fun f => { f with received := c.pixSeq :: f.received }
      if code.1 ≠ 0 then some (set s (statusWord code.1 0) code.2 [] c.extra)
      else
        let r := s.readFrags c.ctx (fieldOf c.bytes 0x28 4) (wordOfField c.bytes 0x20)
        match r.2.1 with
        | some a => some (set s 0x03 a [] (c.extra ++ r.1))
        | none => some (set s (if r.2.2 then 0x08 else 0) 0 [] (c.extra ++ r.1))

/-- Die `j` applies its share of a primitive, in the order of the numbers (R311). -/
def State.applyPix (s : State) (k j : Nat) : Option State :=
  match s.cmd k with
  | none => none
  | some c =>
    if c.engine ≠ .pix ∨ !c.started ∨ c.acks.contains j ∨ 4 ≤ j then none
    else if (s.frameOf c).any fun f => f.received.contains c.pixSeq && f.next.getD j 0 != c.pixSeq then none
    else
      let s := s.focus c.strand
      let r := c.extra.take 64
      let inside (g : Frag) : Bool := decide (g.x < fieldOf r 0x0C 2) && decide (g.y < fieldOf r 0x0E 2)
      let share := c.frags.filter fun g => inside g && tileOwner g.x g.y == j
      let outside := c.frags.any fun g => !inside g
      let fault := share.findSome? fun g => s.fragFault c.ctx r g
      let failed := fault.isSome || c.status.truncate 8 != 0#8
      let share := share.filter fun g => (s.fragFault c.ctx r g).isNone
      let x := s.applyFrags j c.ctx r failed s.freeCount 0 share
      let code : BitVec 32 := if c.status.truncate 8 != 0#8 then c.status
        else
          match fault with
          | some (n, _) => BitVec.ofNat 32 n
          | none => if x.2.2 then 0x08 else 0
      let at_ := if c.status.truncate 8 != 0#8 then c.fault else (fault.map Prod.snd).getD 0
      let dropped := flagIf outside flagNV
      let complete := !fault.isSome && (c.status.truncate 8 == (0 : Byte) || c.status.truncate 8 == (0x08 : Byte))
      let flags := BitVec.ofNat 32 (256 * (x.2.1 ||| (if complete then dropped else dropped &&& s.failFlags)).toNat)
      let acks := j :: c.acks
      let s := x.1.setCmd k fun d => { d with acks, status := d.status ||| code ||| flags, fault := at_ }
      let s := s.setFrame c fun f => if f.received.contains c.pixSeq then { f with next := f.next.setIfInBounds j (c.pixSeq + 1) } else f
      some (if acks.length = 4 ∧ (fieldOf c.bytes 0x12 1).testBit 0 ∧ (c.status.truncate 8 : BitVec 8) ≠ 0x01 then
        { s with frames := s.frames.filter fun f => !(f.ctx == c.ctx && f.recAddr == wordOfField c.bytes 0x18) } else s)

/-- Die `args.j` applies its share of primitive `args.k`. -/
def execXpixApply (s : State) : Result := .next ((s.applyPix s.args.k s.args.j).getD s)

/-- A primitive completes once every die has applied its share. -/
def State.completePix (s : State) (k : Nat) : Option State :=
  match s.completing .pix k with
  | none => none
  | some c =>
    if !c.started || c.acks.length != 4 then none
    else
      let s := s.focus c.strand
      some (s.finishCmd c (statusWord (c.status.toNat % 256) (c.status.extractLsb' 8 7)) c.fault)

/-- Pixel primitive `args.k` completes. -/
def execXpixComplete (s : State) : Result :=
  .next (((s.completePix s.args.k).or (s.arriveEvent s.args.k)).getD s)

end Sys2Proof.Machine
end

