-- ==== Sys2Proof/Machine/Fabric.lean ====
section
/-! DEFINITION. Element trains and collectives (R372 to R380). Other packages are seen as arriving trains,
acknowledgements and contributions, which the operands of the device's steps carry. -/

namespace Sys2Proof.Machine

/-- `xtrain` (R374). -/
def formXtrain (o : AOps) : VForm := engineForm .train o 64 64 (fun _ => none) 64 64

/-- `xcoll` names a group record (R378). -/
def formXcoll (o : AOps) : VForm := engineForm .coll o 64 64 (fun bs => some (wordOfField bs 0x28)) 64 64

def execXtrain (o : AOps) (s : State) : Result := .next (s.vector (.xtrain o) (formXtrain o))
def execXcoll (o : AOps) (s : State) : Result := .next (s.vector (.xcoll o) (formXcoll o))

/-! ## Routes and peers (R363, R372, R373) -/

/-- The port toward a package, where the table names one that is up: its 4,096 entries name the packages that there are
(R363, R372). -/
def Mgmt.portTo (m : Mgmt) (p : Nat) : Option Nat :=
  let r := (m.winByte (0xA0000 + p)).toNat
  match if p < 4096 then m.ports[r]? else none with
  | some q => if q.up then some r else none
  | none => none

/-- The running context of a nonzero domain. -/
def State.peerOf (s : State) (domain : BitVec 16) : Option (BitVec 12) :=
  if domain = 0 then none
  else (s.ctxs.find? fun p => p.2.state == 2 && p.2.domain == domain).map fun p => BitVec.ofNat 12 p.1

/-! ## Trains (R374 to R376) -/

/-- An element of a train command: package, address, value, and whether its value was poisoned. -/
structure Passenger where
  package : Nat
  index : Nat
  addr : Word
  value : Word
  bad : Bool

/-- Bytes of an element of width code `w`. -/
def trainBytes (w : Nat) : Nat := 2 ^ w

/-- The descriptor keeps R374. -/
def trainLayout (bs : List Byte) : Bool :=
  let op := fieldOf bs 0x12 1
  let w := fieldOf bs 0x13 1
  let n := fieldOf bs 0x14 4
  decide (op ≤ 2) && decide (w ≤ 3) && (op != 2 || decide (2 ≤ w)) && decide (1 ≤ n) && decide (n ≤ 2 ^ 24) &&
    fieldOf bs 0x18 8 % trainBytes w == 0 && zeroField bs 0x28 8 && signalOk bs 0x30

/-- What the engine reads for a train, one item an element, or the first failure: its code and address. -/
abbrev TrainRead (α : Type) := Except (Nat × Word) (List α)

/-- The destinations of `n` elements, each 16 bytes: a fault gives 0x03, poison 0x08, and a zero field or a misaligned
address 0x01 (R375). -/
def State.readDests (s : State) (ctx : BitVec 12) (w : Nat) : Nat → Word → TrainRead (List Byte)
  | 0, _ => .ok []
  | n + 1, a =>
    match s.engBytes ctx .any a 16 with
    | .bad x => .error (0x03, x)
    | .poison => .error (0x08, 0)
    | .bytes d =>
      if !zeroField d 2 6 || fieldOf d 8 8 % trainBytes w != 0 then .error (0x01, 0)
      else (s.readDests ctx w n (a + 16)).map fun ds => d :: ds

/-- The values of `n` elements; a poisoned one is none. -/
def State.readValues (s : State) (ctx : BitVec 12) (w : Nat) : Nat → Word → TrainRead (Option Nat)
  | 0, _ => .ok []
  | n + 1, a =>
    match s.engBytes ctx .any a (trainBytes w) with
    | .bad x => .error (0x03, x)
    | r => (s.readValues ctx w n (a + BitVec.ofNat 64 (trainBytes w))).map fun vs => r.value :: vs

/-- The elements as the command carries them, 19 bytes each (package n16, address, value, poison), and whether a value is
poisoned. Every destination is read and checked before a value is read: more than 64 packages give 0x01 (R375). -/
def State.readTrain (s : State) (ctx : BitVec 12) (w n : Nat) (data dest : Word) :
    Except (Nat × Word) (List Byte × Bool) :=
  match s.readDests ctx w n dest with
  | .error e => .error e
  | .ok ds =>
    if decide (64 < ((ds.map fun d => fieldOf d 0 2).dedup).length) then .error (0x01, 0)
    else
      (s.readValues ctx w n data).map fun vs =>
        ((ds.zip vs).flatMap fun x =>
            x.1.take 2 ++ (x.1.drop 8).take 8 ++ bytesOf 8 (x.2.getD 0) ++ [if x.2.isNone then 1 else 0],
          vs.any Option.isNone)

/-- The elements that a started train command carries. -/
def Cmd.passengers (c : Cmd) : List Passenger :=
  (List.range (c.extra.length / 19)).map fun k =>
    let b := (c.extra.drop (19 * k)).take 19
    ⟨fieldOf b 0 2, k, wordOfField b 2, wordOfField b 10, fieldOf b 18 1 != 0⟩

/-- The destination packages, in ascending order of number. -/
def Cmd.packages (c : Cmd) : List Nat := ((c.passengers.map Passenger.package).dedup).mergeSort

/-- The issuing context's domain. -/
def Cmd.domainIn (c : Cmd) (s : State) : BitVec 16 := (s.context c.ctx).domain

/-- A package that no port leads to acknowledges with 0x0E at once (R373). -/
def State.lostReplies (s : State) (c : Cmd) : List Reply :=
  ((c.packages.filter fun p => p != s.mgmt.pkno.toNat && (s.mgmt.portTo p).isNone).filter fun p =>
    !c.replies.any fun r => r.package == p).map fun p => ⟨p, 0x0E, 0, 0⟩

/-- A train command starts: every destination is read and checked before anything is sent (R375). -/
def State.startTrain (s : State) (c : Cmd) : State :=
  let bs := c.bytes
  let fail (code : Nat) (a : Word) : State :=
    s.setCmd c.id fun d => { d with started := true, status := statusWord code 0, fault := a }
  if !trainLayout bs then fail 0x01 0
  else
    match nonCanonical [wordOfField bs 0x30] with
    | some a => fail 0x03 a
    | none =>
      match s.readTrain c.ctx (fieldOf bs 0x13 1) (fieldOf bs 0x14 4) (wordOfField bs 0x18) (wordOfField bs 0x20) with
      | .error (code, a) => fail code a
      | .ok (xs, bad) =>
        let d := { c with started := true, extra := xs, acks := if bad then [1] else [] }
        s.setCmd c.id fun _ => { d with replies := s.lostReplies d }

/-- One element is performed in the peer, by an access from die `k`: a write, or an atomic add (R375). Its status is 0x03
where it faults and 0x08 where an add reads a poisoned unit, which stays poisoned (R342). -/
def State.performElem (s : State) (k : Nat) (ctx : BitVec 12) (op w : Nat) (e : Passenger) : State × Byte :=
  let n := trainBytes w
  match s.checkEngine ctx (if op = 0 then .write else .atomic) n e.addr with
  | .bad _ _ => (s, 0x03)
  | .ok p _ =>
    let s := s.crossed k p
    if e.bad then (s.spoilFrom k ctx e.addr p n, 0)
    else if op = 0 then (s.land ctx e.addr p (bytesOf n e.value.toNat), 0)
    else if (s.poisonAt e.addr p n).isSome then (s, 0x08)
    else
      let s := s.logAhead ctx e.addr p n
      let old := ofBytes (s.placeBytes p n)
      let new := if op = 1 then (old + e.value.toNat) % 2 ^ (8 * n)
        else
          let f := fmtOf (BitVec.ofNat 2 w)
          (addF f 0 false (unpack f old) (unpack f (e.value.toNat % 2 ^ (8 * n)))).1
      (s.land ctx e.addr p (bytesOf n new), 0)

/-- What a destination acknowledges (R375): the lowest element that faulted is kept, and goes before poison (log 13). -/
structure TrainAck where
  status : Byte := 0
  index : Nat := 0
  addr : Word := 0

/-- The acknowledgement after an element whose status is given. -/
def TrainAck.after (x : TrainAck) (status : Byte) (e : Passenger) : TrainAck :=
  if status = 0x03 ∧ x.status ≠ 0x03 then ⟨0x03, e.index, e.addr⟩
  else if status = 0x08 ∧ x.status = 0 then ⟨0x08, 0, 0⟩
  else x

/-- Elements in increasing index. -/
def State.performElems (s : State) (k : Nat) (ctx : BitVec 12) (op w : Nat) : List Passenger → TrainAck → State × TrainAck
  | [], x => (s, x)
  | e :: es, x =>
    let r := s.performElem k ctx op w e
    r.1.performElems k ctx op w es (x.after r.2 e)

/-- A train that arrives from another package is performed in the peer of its domain, through the IO die; without a
peer it is not. -/
def State.arrive (s : State) (t : Train) : State :=
  match s.peerOf t.domain with
  | none => s
  | some ctx =>
    (s.performElems 4 ctx t.op t.width.toNat (t.elems.map fun e => ⟨0, e.index, e.addr, e.value, e.bad⟩) {}).1

/-- Records an acknowledgement of a package that has not answered. -/
def State.addReply (s : State) (k : Nat) (r : Reply) : State :=
  s.setCmd k fun c => if c.replies.any fun x => x.package == r.package then c else { c with replies := c.replies ++ [r] }

/-- Destination `p` performs its train of command `k` and acknowledges; a remote one answers with the status and the
address given. -/
def State.deliver (s : State) (k p : Nat) (status : Byte) (addr : Word) : Option State :=
  match s.cmd k with
  | none => none
  | some c =>
    if c.engine ≠ .train ∨ !c.started ∨ c.status ≠ 0 ∨ !c.packages.contains p ∨ c.replies.any fun x => x.package == p then
      none
    else
      let mine := c.passengers.filter fun e => e.package == p
      if p = s.mgmt.pkno.toNat then
        match s.peerOf (c.domainIn s) with
        | none => some (s.addReply k ⟨p, 0x0D, 0, 0⟩)
        | some ctx =>
          let s := s.focus c.strand
          let r := s.performElems c.die ctx (fieldOf c.bytes 0x12 1) (fieldOf c.bytes 0x13 1) mine {}
          some (r.1.addReply k ⟨p, r.2.status, r.2.index, r.2.addr⟩)
      else if c.domainIn s = 0 then some (s.addReply k ⟨p, 0x0D, 0, 0⟩)
      else if (s.mgmt.portTo p).isNone then some (s.addReply k ⟨p, 0x0E, 0, 0⟩)
      else
        let i := ((mine.find? fun e => e.addr == addr).map Passenger.index).getD 0
        some (s.addReply k ⟨p, status, i, addr⟩)

/-- A train of another package arrives, or a destination of command `args.train.cmd` acknowledges. -/
def execTrainDeliver (s : State) : Result :=
  .next (match s.args.train.cmd with
    | none => s.arrive s.args.train
    | some k => (s.deliver k s.args.j (BitVec.ofNat 8 s.args.k) s.args.word).getD s)

/-- The status of a train whose destinations have all answered: the first nonzero one in ascending package number. -/
def Cmd.trainStatus (c : Cmd) : Nat × Word :=
  let codes := c.packages.filterMap fun p => (c.replies.find? fun r => r.package == p).map Reply.status
  match codes.find? fun x => x != 0 with
  | none => (if c.acks.isEmpty then 0 else 0x08, 0)
  | some code =>
    let faults := (c.replies.filter fun r => r.status == 0x03).mergeSort fun x y => decide (x.index ≤ y.index)
    (code.toNat, if code = 0x03 then ((faults.head?).map Reply.addr).getD 0 else 0)

/-- Train command `k` completes once every destination has acknowledged. -/
def State.completeTrain (s : State) (k : Nat) : Option State :=
  match s.completing .train k with
  | none => none
  | some c =>
    let s := s.focus c.strand
    if !c.started then some (s.finishCmd c 0x07 0)
    else if c.status ≠ 0 then some (s.finishCmd c c.status c.fault)
    else if c.packages.all fun p => c.replies.any fun r => r.package == p then
      some (s.finishCmd c (statusWord c.trainStatus.1 0) c.trainStatus.2)
    else none

/-- Train command `args.k` completes. -/
def execXtrainComplete (s : State) : Result :=
  .next (((s.completeTrain s.args.k).or (s.arriveEvent s.args.k)).getD s)

/-! ## Collectives (R378 to R380) -/

/-- What a collective's descriptor and group give. -/
structure Coll where
  op : Nat
  fn : Nat
  fmt : Nat
  bw : Nat
  count : Nat
  src : Word
  dst : Word
  /-- number of ranks, and this package's rank -/
  n : Nat
  rank : Nat
  ranks : List Nat

/-- The packages of a group record. -/
def packagesOf (r : List Byte) : List Nat := (List.range (fieldOf r 0 2)).map fun k => fieldOf r (2 + 2 * k) 2

/-- The fields of a started collective. -/
def collOf (pkno : Nat) (bs r : List Byte) : Coll where
  op := fieldOf bs 0x12 1
  fn := fieldOf bs 0x13 1
  fmt := fieldOf bs 0x14 1
  bw := fieldOf bs 0x15 1
  count := fieldOf bs 0x04 4
  src := wordOfField bs 0x18
  dst := wordOfField bs 0x20
  n := fieldOf r 0 2
  rank := (packagesOf r).idxOf pkno
  ranks := packagesOf r

/-- The descriptor and the group keep R378. -/
def collLayout (pkno : Nat) (bs r : List Byte) : Bool :=
  let c := collOf pkno bs r
  decide (c.op ≤ 2) && decide (c.fn ≤ 2) && (c.op != 2 || c.fn == 0) && decide (c.fmt ≤ 4) &&
    (if c.fmt = 4 then decide (2 ≤ c.bw) && decide (c.bw ≤ 8) else c.bw == 0) && decide (1 ≤ c.count) &&
    decide (c.count ≤ 2 ^ 30) && fieldOf bs 0x28 8 % 64 == 0 && signalOk bs 0x30 && decide (1 ≤ c.n) &&
    decide (c.n ≤ 31) && zeroField r (2 + 2 * c.n) (62 - 2 * c.n) && (c.ranks.filter fun p => p == pkno).length == 1 &&
    (c.op != 1 || c.count % c.n == 0)

/-- Bytes of one unit of storage: an element, or a block. -/
def Coll.unit (c : Coll) : Nat := if c.fmt = 4 then 64 else (fmtOf (BitVec.ofNat 2 c.fmt)).width / 8

/-- Units that `k` elements take. -/
def Coll.units (c : Coll) (k : Nat) : Nat := if c.fmt = 4 then (k + blockElems c.bw - 1) / blockElems c.bw else k

/-- Elements that this rank writes. -/
def Coll.outCount (c : Coll) : Nat := if c.op = 0 then c.count else if c.op = 1 then c.count / c.n else c.n * c.count

/-- The format in which elements are combined: the element format, or f64 for blocks (R379). -/
def Coll.format (c : Coll) : Fmt := if c.fmt = 4 then f64 else fmtOf (BitVec.ofNat 2 c.fmt)

/-- Source and destination overlap, other than src = dst for all-reduce (R380). -/
def Coll.overlaps (c : Coll) : Bool :=
  let a := c.src.toNat
  let b := c.dst.toNat
  !(c.op == 0 && a == b) && decide (a < b + c.unit * c.units c.outCount) && decide (b < a + c.unit * c.units c.count)

/-- The units of this rank's input, each its bytes or poison; then the fault. -/
def State.collInput (s : State) (ctx : BitVec 12) (c : Coll) : Nat → Word → List (Option (List Byte)) × Option (Nat × Word)
  | 0, _ => ([], none)
  | n + 1, a =>
    let x := if c.fmt = 4 then (if a.toNat % 64 ≠ 0 then .bad a else s.engRead ctx .described a 64)
      else s.engBytes ctx .any a c.unit
    match x with
    | .bad x => ([], some (0x03, x))
    | .poison =>
      let r := s.collInput ctx c n (a + BitVec.ofNat 64 c.unit)
      (none :: r.1, r.2)
    | .bytes bs =>
      if c.fmt = 4 ∧ blockFormat (ofBytes bs) ≠ c.bw ∧ blockFormat (ofBytes bs) ≠ 0xFF then ([], some (0x02, a))
      else
        let r := s.collInput ctx c n (a + BitVec.ofNat 64 c.unit)
        (some bs :: r.1, r.2)

/-- The bytes of unit `u` of rank `q`, as the fabric brought them; one that is not listed is free (log 19). -/
def Coll.brought (c : Coll) (bytes : List Byte) (seed q u : Nat) : List Byte :=
  (List.range c.unit).map fun i =>
    let at_ := (q * c.units c.count + u) * c.unit + i
    bytes.getD at_ (Config.rankByte seed at_)

/-- Element i of a rank's units, as an encoding of the combining format. -/
def Coll.value (c : Coll) (unit : Nat → Option (List Byte)) (i : Nat) : Option Nat :=
  if c.fmt = 4 then
    (unit (i / blockElems c.bw)).map fun bs => (roundF f64 0 false (blockValue (ofBytes bs) (i % blockElems c.bw))).1
  else (unit i).map ofBytes

/-- combine of R379. -/
def Coll.combine (c : Coll) (x y : Nat) : Nat × FFlags :=
  let f := c.format
  match c.fn with
  | 0 => addF f 0 false (unpack f x) (unpack f y)
  | 1 => minmaxF f false true x y
  | _ => minmaxF f false false x y

/-- red of R379 over the ranks' values, in rank order; a NaN is canonical. -/
def Coll.reduce (c : Coll) (xs : List Nat) : Nat × FFlags :=
  match xs with
  | [] => (0, 0)
  | x :: rest =>
    let r := rest.foldl (fun acc y => let z := c.combine acc.1 y; (z.1, acc.2 ||| z.2)) (x, 0)
    (if (unpack c.format r.1).isNan then c.format.nan else r.1, r.2)

/-- Consecutive groups of at most `k`. -/
def groupsOf {α : Type} (k : Nat) : Nat → List α → List (List α)
  | 0, _ => []
  | n + 1, l => if l.isEmpty then [] else l.take k :: groupsOf k n (l.drop k)

/-- The output units of a reduction: bytes or poison, with the flags. -/
def Coll.reduced (c : Coll) (unit : Nat → Nat → Option (List Byte)) : List (Option (List Byte) × FFlags) :=
  let first := if c.op = 1 then c.rank * (c.count / c.n) else 0
  let outs := (List.range c.outCount).map fun i =>
    ((List.range c.n).mapM fun q => c.value (unit q) (first + i)).map c.reduce
  if c.fmt = 4 then
    (groupsOf (blockElems c.bw) outs.length outs).map fun g =>
      match g.mapM id with
      | none => (none, 0)
      | some xs =>
        let z := quantBlock c.bw (xs.map fun x => unpack f64 x.1) []
        (some (bytesOf 64 z.1),
          xs.foldl (fun f x => f ||| x.2) 0 ||| z.2.foldl (fun f x => f ||| x) 0)
  else
    outs.map fun o =>
      match o with
      | none => (none, 0)
      | some x => (some (bytesOf c.unit x.1), x.2)

/-- Free bits for output block `u` of an all-gather (log 33). -/
def gatherFree (seed u : Nat) : Nat := ofBytes ((List.range 64).map fun i => Config.gatherByte seed (64 * u + i))

/-- The first `k` elements of a block as they stand, and free bits for the others (log 33). -/
def keepElems (free k blk : Nat) : Nat :=
  let b := blockFormat blk
  if blockIsZero blk ∨ blockElems b ≤ k then cleanBlock blk
  else
    blk % 2 ^ (16 + b * k) + 2 ^ (16 + b * k) * (free % 2 ^ (b * (blockElems b - k)))

/-- Element `j` of a block as its value has it: a mantissa, with a scale where it is not zero. -/
def scaledElem (b blk j : Nat) : Option Int × Int :=
  let m := if blockIsZero blk then 0 else blockMant b blk j
  (if m = 0 then none else some (blockScale blk), m)

/-- The mantissa of an element of a block of width `b` under another scale, where that scale holds its value exactly. -/
def rescaled (b : Nat) (e : Int) (x : Option Int × Int) : Option Int :=
  match x.1 with
  | none => some 0
  | some k =>
    let up := x.2 * 2 ^ (k - e).toNat
    let down := 2 ^ (e - k).toNat
    if e ≤ k then (if -2 ^ (b - 1) ≤ up ∧ up < 2 ^ (b - 1) then some up else none)
    else if x.2 % down = 0 then some (x.2 / down)
    else none

/-- A scale that holds every one of given elements exactly, a free one where there are several (R379; log 33). -/
def commonScale (b free : Nat) (xs : List (Option Int × Int)) : Option Int :=
  let es := ((List.range 255).map fun k => (k : Int) - 127).filter fun e => xs.all fun x => (rescaled b e x).isSome
  es[free % Nat.max 1 es.length]?

/-- The payload that holds mantissas of `b` bits, and free bits beyond the last. -/
def payloadOf (b free : Nat) (ms : List Nat) : Nat :=
  ms.foldr (fun m acc => m + 2 ^ b * acc) 0 + 2 ^ (b * ms.length) * (blockPayload free / 2 ^ (b * ms.length))

/-- A block of width `b` that holds given elements in its first places. Where their scales agree it has that scale; where
they differ it has one that holds them all exactly, and only where there is none are the scale and the mantissas that are
not zero free; so are the scale of zeros alone and the elements beyond the last (R379; log 33). Its spare bits are zero
(R77). -/
def gatherElems (b free : Nat) (xs : List (Option Int × Int)) : Nat :=
  let block (scale : Nat) (ms : List Nat) : Nat := cleanBlock (b + 256 * scale + 65536 * payloadOf b free ms)
  match (xs.filterMap Prod.fst).dedup with
  | [] => block (blockScaleByte free) (xs.map fun _ => 0)
  | [e] => block (wrapInt 8 e) (xs.map fun x => wrapInt b x.2)
  | _ =>
    match commonScale b (blockScaleByte free) xs with
    | some e => block (wrapInt 8 e) (xs.map fun x => wrapInt b ((rescaled b e x).getD 0))
    | none =>
      block (blockScaleByte free) (xs.mapIdx fun i x => if x.1.isNone then 0 else blockPayload free / 2 ^ (b * i) % 2 ^ b)

/-- Block `u` of an all-gather of blocks: dst[q × count + i] = x_q[i] (R379). Where its elements are the elements of one
source block in their places, the block is copied; else it holds the same values, element by element. -/
def Coll.gatheredBlock (c : Coll) (seed : Nat) (unit : Nat → Nat → Option (List Byte)) (u : Nat) : Option (List Byte) :=
  let e := blockElems c.bw
  let first := u * e
  let last := Nat.min (first + e) c.outCount - 1
  let place (i : Nat) : Nat × Nat := (i / c.count, i % c.count / e)
  if place first = place last ∧ first % c.count % e = 0 then
    (unit (place first).1 (place first).2).map fun bs =>
      bytesOf 64 (keepElems (gatherFree seed u) (last + 1 - first) (ofBytes bs))
  else
    ((List.range (last + 1 - first)).mapM fun i =>
      (unit (place (first + i)).1 (place (first + i)).2).map fun bs =>
        scaledElem c.bw (ofBytes bs) ((first + i) % c.count % e)).map fun xs =>
      bytesOf 64 (gatherElems c.bw (gatherFree seed u) xs)

/-- The output units of an all-gather: values are copied bit for bit. -/
def Coll.gathered (c : Coll) (seed : Nat) (unit : Nat → Nat → Option (List Byte)) : List (Option (List Byte) × FFlags) :=
  if c.fmt = 4 then (List.range (c.units c.outCount)).map fun u => (c.gatheredBlock seed unit u, 0)
  else (List.range c.n).flatMap fun q => (List.range (c.units c.count)).map fun u => (unit q u, 0)

/-- The destination element of each output unit. -/
def State.collWrites (s : State) (ctx : BitVec 12) (c : Coll) (us : List (Option (List Byte))) : List DestElem :=
  us.mapIdx fun k u =>
    s.destPiece ctx (c.fmt == 4) u.isNone (c.dst + BitVec.ofNat 64 (c.unit * k)) (u.getD (List.replicate c.unit 0))

/-- The flags that a reduction can raise (R379): of its sums, which are never tiny and inexact, of its comparisons, and of
the quantisation of blocks, whose values are finite. -/
def Coll.flags (c : Coll) : FFlags :=
  if c.op = 2 then 0
  else if c.fmt = 4 then flagOF ||| flagSAT ||| flagNX ||| flagUF
  else if c.fn = 0 then flagNV ||| flagOF ||| flagNX
  else flagNV

/-- The outcome of a collective at this rank (R379, R380). `code` is a failure that the fabric reports; `bad` lists the
units that it brought poisoned. The flags of a failure are free among those that the values could raise (log 13). -/
def State.runColl (s : State) (c : Cmd) (code : Nat) (bytes : List Byte) (bad : List Nat) : CopyDone :=
  let g := collOf s.mgmt.pkno.toNat c.bytes c.extra
  let inp := s.collInput c.ctx g (g.units g.count) g.src
  let unit (q u : Nat) : Option (List Byte) :=
    if q = g.rank then inp.1.getD u none
    else if bad.contains (q * g.units g.count + u) then none
    else some (g.brought bytes s.freeCount q u)
  let outs := if g.op = 2 then g.gathered s.freeCount unit else g.reduced unit
  let dests := s.collWrites c.ctx g (outs.map Prod.fst)
  let lost := g.ranks.any fun p => p != s.mgmt.pkno.toNat && (s.mgmt.portTo p).isNone
  let elems := destGood dests
  let raised := outs.foldl (fun f o => f ||| o.2) 0
  let could := if code = 0 ∧ !lost ∧ inp.2.isNone ∧ outs.all fun o => o.1.isSome then raised else g.flags
  let failed (code : Nat) (a : Word) (elems : List (List EngWrite)) : CopyDone :=
    { code, flags := s.failFlags &&& could, fault := a, elems }
  if c.cancelled then failed 0x07 0 elems
  else
    match inp.2, destFault dests with
    | some (k, a), _ => failed k a []
    | none, some a => failed 0x03 a elems
    | none, none =>
      if lost then failed 0x0E 0 elems
      else if code ≠ 0 then failed code 0 elems
      else if elems.any anyBad then failed 0x08 0 elems
      else { code := 0, flags := raised, writes := elems.flatten }

/-- A collective starts at this rank: at most 64 are in progress (R380). -/
def State.startColl (s : State) (c : Cmd) : Option State :=
  let set (code : Nat) (a : Word) : State :=
    s.setCmd c.id fun d => { d with started := true, status := statusWord code 0, fault := a }
  let pkno := s.mgmt.pkno.toNat
  if !collLayout pkno c.bytes c.extra then some (set 0x01 0)
  else
    match nonCanonical [wordOfField c.bytes 0x30] with
    | some a => some (set 0x03 a)
    | none =>
      if (collOf pkno c.bytes c.extra).overlaps then some (set 0x09 0)
      else if 64 ≤ (s.cmds.filter fun d => d.engine == .coll && d.started && d.status == 0).length then none
      else some (set 0 0)

/-- Collective `k` completes at this rank. -/
def State.completeColl (s : State) (k code : Nat) (bytes : List Byte) (bad : List Nat) : Option State :=
  match s.completing .coll k with
  | none => none
  | some c =>
    let s := s.focus c.strand
    if !c.started then some (s.finishCmd c 0x07 0)
    else if c.status ≠ 0 then some (s.finishCmd c c.status c.fault)
    else
      let r := s.runColl c code bytes bad
      let s := if r.code = 0 then s.engWrites c.die c.ctx r.writes else s.someWrites c.die c.ctx r.code r.elems
      some (s.finishCmd c (statusWord r.code r.flags) r.fault)

/-- Collective `args.k` completes with the contributions `args.bytes`, of which the units `args.bad` are poisoned, or with
the failure `args.j`. -/
def execXcollComplete (s : State) : Result :=
  .next (((s.completeColl s.args.k s.args.j s.args.bytes s.args.bad).or (s.arriveEvent s.args.k)).getD s)

/-! ## Starting a command (R300, R374) -/

/-- An engine takes up a queued command. A cancelled one starts only where it is a pixel primitive, which distributes
empty markers (R311). -/
def State.startCmd (s : State) (k : Nat) : Option State :=
  match s.cmd k with
  | none => none
  | some c =>
    let s := s.focus c.strand
    if c.started then none
    else
      match c.engine, c.cancelled with
      | .pix, _ => s.startPix c
      | _, true => none
      | .wharf, false =>
        let r := s.wharfStart c
        some (s.setCmd k fun d => { d with started := true, status := statusWord r.1 0, fault := r.2 })
      | .copy, false => some (s.setCmd k fun d => { d with started := true })
      | .train, false => some (s.startTrain c)
      | .coll, false => s.startColl c

/-- An engine takes up command `args.k`. -/
def execEngineCommandStart (s : State) : Result := .next ((s.startCmd s.args.k).getD s)

end Sys2Proof.Machine
end

