-- ==== Sys2Proof/Machine/Hier.lean ====
section
/-! DEFINITION. Records of work, launching, cancelling, emission and barriers (R248 to R255, R262 to R270, R279, R280). -/

namespace Sys2Proof.Machine

/-! ## Records in memory (R249, R250) -/

/-- Reads `n` bytes of a record for the device. -/
def State.recordRead (s : State) (ctx : BitVec 12) (a : Word) (n : Nat) : Option (List Byte) :=
  match s.engBytes ctx .any a n with
  | .bytes bs => some bs
  | _ => none


/-- The counter of a record, and its state. -/
def State.recordCount (s : State) (ctx : BitVec 12) (a : Word) : Option Nat := (s.recordRead ctx a 8).map ofBytes

/-- The state byte of a record's status word (R249). -/
def State.recordStatus (s : State) (ctx : BitVec 12) (a : Word) : Option Nat :=
  (s.recordRead ctx (a + 8) 4).map fun bs => ofBytes bs % 256

/-- The states of a finished record (R249). -/
def finishedState (x : Nat) : Bool := x == 2 || x == 3 || x == 4

/-- An active launch of a context, and an active graph. -/
def State.launchAt (s : State) (ctx : BitVec 12) (a : Word) : Option Launch :=
  s.launches.find? fun l => l.ctx == ctx && l.recAddr == a
def State.graphAt (s : State) (ctx : BitVec 12) (a : Word) : Option Graph :=
  s.graphs.find? fun g => g.ctx == ctx && g.recAddr == a

/-- The die whose walker or ferry scheduler keeps a record: that of its launch or graph, and for a phase or a job that of
its context. -/
def State.recordDie (s : State) (ctx : BitVec 12) (a : Word) : Nat :=
  match s.launchAt ctx a with
  | some l => l.die
  | none =>
    match s.graphs.find? fun g => g.ctx == ctx && (g.recAddr == a || g.nodes.any fun n => n.recAddr == a) with
    | some g => g.die
    | none => (s.context ctx).dieNo

/-- Writes bytes at an offset of the record at `a`, from the die that keeps it. -/
def State.recordWrite (s : State) (ctx : BitVec 12) (a : Word) (off : Nat) (bs : List Byte) : State :=
  s.writeField (s.recordDie ctx a) ctx (a + BitVec.ofNat 64 off) bs

/-- Counter and status in one write of the record's line (R250, R254). -/
def State.recordState (s : State) (ctx : BitVec 12) (a : Word) (count : Nat) (cause : BitVec 8) (state : Nat) : State :=
  s.recordWrite ctx a 0 (bytesOf 8 count ++ bytesOf 4 (256 * cause.toNat + state))

/-- Changes a launch, a graph, a node of a graph. -/
def State.setLaunch (s : State) (id : Nat) (f : Launch → Launch) : State :=
  { s with launches := s.launches.map fun l => if l.id == id then f l else l }
def State.setGraph (s : State) (id : Nat) (f : Graph → Graph) : State :=
  { s with graphs := s.graphs.map fun g => if g.id == id then f g else g }
def Graph.setNode (g : Graph) (k : Nat) (f : Node → Node) : Graph := { g with nodes := g.nodes.modify k f }

/-- The parent that a record names. -/
def Launch.parent (l : Launch) : Word := wordOfField l.bytes 0x10
def Graph.parent (g : Graph) : Word := wordOfField g.bytes 0x10

/-- The record is under cancellation: its final write is that of R263. -/
def State.isCancelled (s : State) (ctx : BitVec 12) (a : Word) (level : Nat) : Bool :=
  s.cancelled.any fun c => c.ctx == ctx && c.recAddr == a && c.level == level

/-- Subtracts `n` from the counter of a record, at its home (R250). The decrement that reaches zero waits for the final
write, which performs both at once; a record under cancellation is left to R263. -/
def State.decrement (s : State) (ctx : BitVec 12) (a : Word) (level n : Nat) : State :=
  let p := s.engPlace ctx .write .any a
  let s := s.comeToAdd (s.recordDie ctx a) ctx a p 8
  match s.recordCount ctx a with
  | none => s
  | some old =>
    let new := (old + 2 ^ 64 - n % 2 ^ 64) % 2 ^ 64
    if new = 0 then
      if s.isCancelled ctx a level then s else { s with finishing := s.finishing ++ [⟨ctx, a, level, n⟩] }
    else s.landAt ctx a p (bytesOf 8 new)

/-- Writes the cause field of a record, unless it holds one (R249). -/
def State.recordCause (s : State) (ctx : BitVec 12) (a : Word) (cause : BitVec 8) : State :=
  let p := s.engPlace ctx .write .any (a + 9)
  let s := s.comeTo (s.recordDie ctx a) p
  match s.recordRead ctx (a + 9) 1 with
  | some [0] => s.landAt ctx (a + 9) p [cause]
  | _ => s

/-- The job that a phase record names as its parent, else 0. -/
def State.phaseJob (s : State) (ctx : BitVec 12) (phase : Word) : Word :=
  if phase = 0 then 0
  else
    match s.recordRead ctx (phase + 0x10) 8 with
    | some bs => wordOfField bs 0
    | none => 0

/-- A cause reaches a phase record and its job (R249). -/
def State.causePhase (s : State) (ctx : BitVec 12) (a : Word) (cause : BitVec 8) : State :=
  if a = 0 then s
  else
    let s := s.recordCause ctx a cause
    let job := s.phaseJob ctx a
    if job = 0 then s else s.recordCause ctx job cause

/-- A cause reaches a graph and the records above it (R249, R264). -/
def State.causeGraph (s : State) (ctx : BitVec 12) (a : Word) (cause : BitVec 8) : State :=
  match s.graphAt ctx a with
  | none => s
  | some g =>
    ((s.recordCause ctx a cause).setGraph g.id fun g =>
      { g with cause := if g.cause = 0 then cause else g.cause }).causePhase ctx g.parent cause

/-- A cause reaches a launch and the records above it (R249, R264). -/
def State.causeLaunch (s : State) (l : Launch) (cause : BitVec 8) : State :=
  ((s.recordCause l.ctx l.recAddr cause).setLaunch l.id fun l =>
    { l with cause := if l.cause = 0 then cause else l.cause }).causeGraph l.ctx l.parent cause

/-! ## Record layouts (R251, R253, R267) -/

/-- A field of two bits per position: which dimension is enumerated at depth p. -/
def orderAt (order p : Nat) : Nat := order / 4 ^ p % 4

/-- Iterations of a dimension (R251). -/
def extent (bs : List Byte) (d : Nat) : Nat :=
  (fieldOf bs (0x38 + 4 * d) 4 + fieldOf bs (0x48 + 4 * d) 4 - 1) / fieldOf bs (0x48 + 4 * d) 4

/-- N, the iterations of a launch. -/
def totalOf (bs : List Byte) : Nat := ((List.range (fieldOf bs 0x28 1)).map (extent bs)).prod

/-- The loop-nest record keeps R251. -/
def nestLayout (bs : List Byte) : Bool :=
  let f (off n : Nat) : Nat := fieldOf bs off n
  let dims := f 0x28 1
  let order := f 0x29 1
  let names := (List.range dims).map (orderAt order)
  zeroField bs 0x0C 4 && f 0x18 8 % 4 == 0 && decide (1 ≤ dims) && decide (dims ≤ 4) &&
    ((List.range 4).all fun p => if p < dims then decide (orderAt order p < dims) else orderAt order p == 0) &&
    decide names.Nodup && decide (f 0x2A 1 < 8) && decide (f 0x2B 1 ≤ 3) && decide (f 0x2C 1 ≤ 4) &&
    decide (f 0x2D 1 ≤ 8) && decide (f 0x2E 1 ≤ 8) && decide (f 0x2F 1 ≤ 4) && f 0x30 4 % 64 == 0 &&
    decide (f 0x30 4 ≤ 98304) && decide (f 0x36 1 ≤ 4) && zeroField bs 0x37 1 &&
    ((List.range 4).all fun d =>
      if d < dims then decide (1 ≤ f (0x38 + 4 * d) 4) && decide (1 ≤ f (0x48 + 4 * d) 4)
      else zeroField bs (0x38 + 4 * d) 4 && zeroField bs (0x48 + 4 * d) 4) &&
    decide (totalOf bs ≤ 2 ^ 32) && f 0x58 8 % 8 == 0 && f 0x60 8 % 8 == 0 && f 0x68 4 % 65536 == 0 &&
    decide (f 0x68 4 ≤ 524288) && zeroField bs 0x6C 20

/-- The graph record keeps R253. -/
def graphLayout (bs : List Byte) : Bool :=
  decide (fieldOf bs 0x0C 1 ≤ 4) && decide (fieldOf bs 0x0D 1 ≤ 4) && fieldOf bs 0x10 8 % 64 == 0 &&
    fieldOf bs 0x18 8 % 64 == 0 && decide (fieldOf bs 0x20 2 ≤ 64) && decide (fieldOf bs 0x22 1 ≤ 4) &&
    zeroField bs 0x23 1 && fieldOf bs 0x24 4 % 64 == 0 && decide (fieldOf bs 0x24 4 ≤ 98304) && zeroField bs 0x28 24

/-- The node record keeps R267; `graph` is its parent. That `entry` is 4-byte aligned, as an instruction address is, is the
model's demand (DESIGN CHOICE, log 108). -/
def nodeLayout (graph : Word) (bs : List Byte) : Bool :=
  let f (off n : Nat) : Nat := fieldOf bs off n
  let landing := f 0x2F 1 == 1
  zeroField bs 0x0C 4 && wordOfField bs 0x10 == graph && f 0x18 8 % 4 == 0 && f 0x20 8 % 64 == 0 &&
    decide (1 ≤ f 0x28 4) && decide (f 0x28 4 ≤ 2 ^ 24) && decide (16 ≤ f 0x2C 2) && decide (f 0x2C 2 ≤ 1024) &&
    f 0x2C 2 % 16 == 0 && decide (f 0x2E 1 ≤ 31) && decide (f 0x2F 1 ≤ 1) && decide (1 ≤ f 0x30 2) &&
    decide (f 0x30 2 ≤ 512) && decide (f 0x30 2 * f 0x2C 2 ≤ 32768) && decide (f 0x32 2 ≤ 64) &&
    (if landing then f 0x2C 2 == 64 && f 0x34 4 % 64 == 0 && decide (64 ≤ f 0x34 4) && decide (f 0x34 4 ≤ 262144) &&
        f 0x38 8 % 64 == 0
      else zeroField bs 0x34 4 && zeroField bs 0x38 8)

/-- Node records from address `a` on. -/
def State.readNodes (s : State) (ctx : BitVec 12) (graph : Word) : Nat → Word → Option (List Node)
  | 0, _ => some []
  | n + 1, a =>
    match s.recordRead ctx a 64 with
    | none => none
    | some bs =>
      if !nodeLayout graph bs then none
      else (s.readNodes ctx graph n (a + 64)).map fun l => ⟨a, bs, [], 0, none⟩ :: l

/-- The parent graph of a launch: none where the launch has no parent; refused (0x04) where it is malformed, finished or
cannot be read; else the active graph, or the graph that the launch starts (R254, R255). -/
inductive ParentRead where
  | noParent
  | refused
  | active (g : Graph)
  | starts (g : Graph)

/-- The die that a record places its work on. -/
def placedDie (own field : Nat) : Nat := if field = 0 then own else field - 1

/-- The priority that a record asks for, or its context's. -/
def recordPrio (ctxPrio field : Nat) : Nat := if field = 0 then ctxPrio else field - 1

/-- The check of the parent graph. -/
def State.readParent (s : State) (ctx : BitVec 12) (a : Word) : ParentRead :=
  if a = 0 then .noParent
  else
    match s.graphAt ctx a with
    | some g => .active g
    | none =>
      if a.toNat % 64 ≠ 0 then .refused
      else
        match s.recordRead ctx a 64 with
        | none => .refused
        | some bs =>
          if !graphLayout bs || finishedState (fieldOf bs 0x08 1) then .refused
          else
            match s.readNodes ctx a (fieldOf bs 0x20 2) (wordOfField bs 0x18) with
            | none => .refused
            | some nodes =>
              .starts
                { id := 0, ctx, recAddr := a, bytes := bs, die := placedDie (dieOf s.cur) (fieldOf bs 0x0D 1)
                  prio := recordPrio (s.context ctx).prio (fieldOf bs 0x0C 1), nodes, cancelled := false, cause := 0 }

/-! ## Launching (R254, R255) -/

/-- Iterations that an idle core holds at once. -/
def coreCapacity (tiles streams scratch : Nat) : Nat :=
  let per (total each : Nat) : Nat := if each = 0 then 4 else total / each
  Nat.min 4 (Nat.min (per 8 tiles) (Nat.min (per 16 streams) (per 98304 scratch)))

/-- Clusters of a mask; 0 means all (R251). -/
def clustersOf (mask : Nat) : List Nat := (List.range 16).filter fun k => mask == 0 || mask.testBit k

/-- Iterations that the placement of a launch holds at once on an idle die (R254). -/
def launchCapacity (bs : List Byte) : Nat :=
  (clustersOf (fieldOf bs 0x34 2)).length * 8 * coreCapacity (fieldOf bs 0x2C 1) (fieldOf bs 0x2D 1) (fieldOf bs 0x30 4)

/-- The acceptance code of a record, in the order 0x01, 0x05, 0x03, 0x02, 0x04. -/
def State.launchCode (s : State) (a : Word) (bs : List Byte) (parent : ParentRead) : Nat :=
  let prio := fieldOf bs 0x2F 1
  if !nestLayout bs then 0x01
  else if (s.launchAt s.st.ctx a).isSome || fieldOf bs 0x08 1 == 1 then 0x05
  else if prio ≠ 0 ∧ s.st.prio.toNat < prio - 1 then 0x03
  else if (fieldOf bs 0x2A 1).testBit 1 ∧ launchCapacity bs < totalOf bs then 0x02
  else
    match parent with
    | .refused => 0x04
    | _ => 0x00

/-- A graph starts (R255): state 0x01, its nodes empty. -/
def State.startGraph (s : State) (g : Graph) : State :=
  let s := { s with graphs := s.graphs ++ [{ g with id := s.stamp }], stamp := s.stamp + 1 }
  let s := s.recordWrite g.ctx g.recAddr 8 (bytesOf 4 1)
  g.nodes.foldl (fun s n => s.recordState g.ctx n.recAddr 0 0 1) s

/-- Acceptance: the record becomes active with its count, and the launch is queued. -/
def State.acceptLaunch (s : State) (a : Word) (bs : List Byte) (parent : ParentRead) : State :=
  let ctx := s.st.ctx
  let s := match parent with
    | .starts g => s.startGraph g
    | _ => s
  let doomed := match parent with
    | .active g => g.cancelled
    | _ => false
  let l : Launch :=
    { id := s.stamp, ctx, recAddr := a, bytes := bs, die := placedDie (dieOf s.cur) (fieldOf bs 0x36 1)
      prio := recordPrio (s.context ctx).prio (fieldOf bs 0x2F 1), total := totalOf bs, next := 0, live := 0
      started := false, cancelled := doomed, strand := s.cur, clusters := [], cause := 0 }
  let s := { s.nextStamp with launches := s.launches ++ [l] }
  let s := if doomed then
      match s.cancelled.find? fun c => c.ctx == ctx && c.recAddr == l.parent && c.level == 1 with
      | some c => { s with cancelled := s.cancelled ++ [⟨ctx, a, 0, c.handle, c.handleLevel⟩] }
      | none => s
    else s
  s.recordState ctx a (totalOf bs) 0 1

/-- The frame of the hier instructions that fill xd at retirement. The strand's older accesses are performed first
(R321). -/
def hierForm (d a : Reg) (fa : Bool) (b : Option (Reg × Bool)) (body : QEntry → State → VOut) : VForm where
  readsVl := false
  rechecks := false
  xa := some (a, fa)
  xb := b
  xd := some d
  body := fun q _ _ s =>
    match s.afterOlder q with
    | none => .wait s
    | some s => body q s

/-- The code that the instruction fills xd with. -/
def State.answer (s : State) (d : Reg) (code : Nat) : VOut := .done (s.setX d (BitVec.ofNat 64 code)) []

/-- `launch`. -/
def formLaunch (o : XUn) : VForm :=
  hierForm o.d o.a o.fa none fun q s =>
    match s.snapshot q q.a 128 128 with
    | .bad f => .trap s [] f.cause f.va 0
    | .poison line => .poison line
    | .bytes bs =>
      let parent := s.readParent s.st.ctx (wordOfField bs 0x10)
      let code := s.launchCode q.a bs parent
      (if code = 0 then s.acceptLaunch q.a bs parent else s).answer o.d code

/-! ## Cancelling (R262, R263) -/

/-- A graph lies under the record at `a` of a level. -/
def State.graphUnder (s : State) (g : Graph) (a : Word) (level : Nat) : Bool :=
  match level with
  | 1 => g.recAddr == a
  | 2 => g.parent != 0 && g.parent == a
  | 3 => s.phaseJob g.ctx g.parent != 0 && s.phaseJob g.ctx g.parent == a
  | _ => false

/-- A launch lies under it. -/
def State.launchUnder (s : State) (l : Launch) (a : Word) (level : Nat) : Bool :=
  if level = 0 then l.recAddr == a
  else
    match s.graphAt l.ctx l.parent with
    | some g => s.graphUnder g a level
    | none => false

/-- Records of a level are active: a launch or a graph that the device runs; a phase or job with state 0x01, or with a
graph below it that runs (R249). -/
def State.recordActive (s : State) (ctx : BitVec 12) (a : Word) (level : Nat) : Bool :=
  match level with
  | 0 => (s.launchAt ctx a).isSome
  | 1 => (s.graphAt ctx a).isSome
  | k => s.recordStatus ctx a == some 1 || s.graphs.any fun g => g.ctx == ctx && s.graphUnder g a k

/-- An iteration lies under one of these launches or graphs. -/
def iterUnder (ls gs : List Nat) (graphs : List Graph) (t : Strand) : Bool :=
  match t.iter.work with
  | .launch => ls.contains t.iter.launch
  | .batch => graphs.any fun g => gs.contains g.id && g.ctx == t.ctx && g.recAddr == t.iter.graph
  | _ => false

/-- The asynchronous trap 0x17 reaches an iteration, with each cancellation that reaches it (R263); a strand that
stopped with a held image ends at once (R124). -/
def Strand.cancel (t : Strand) (handle : Word) : Strand :=
  match t.run with
  | .stopped c => { (t.endByTrap c) with run := .running, iter := { (t.endByTrap c).iter with cancelled := true } }
  | _ => { t with pending := t.pending ++ [{ cause := 0x17, tval := handle }], iter := { t.iter with cancelled := true } }

/-- Changes the strands that a test picks, wherever they are held. -/
def State.mapStrands (s : State) (f : Strand → Strand) : State :=
  { s with
    st := f s.st
    others := s.others.map fun p => (p.1, f p.2)
    saved := s.saved.map fun v => { v with strand := f v.strand } }

/-- The phases between the graphs that a cancellation reaches and the job that it names. -/
def phasesUnder (gs : List Graph) (level : Nat) : List Word :=
  if level = 3 then (gs.map Graph.parent).dedup.filter fun a => a != 0 else []

/-- The effects of R263, in its order. Records below that an earlier cancellation reached get their final write with
those of this one; where the named record is itself under cancellation, all below it is already. -/
def State.cancelRecord (s : State) (ctx : BitVec 12) (a : Word) (level : Nat) : State :=
  let gs := s.graphs.filter fun g => g.ctx == ctx && s.graphUnder g a level
  let ls := s.launches.filter fun l => l.ctx == ctx && s.launchUnder l a level
  let gids := gs.map Graph.id
  let lids := ls.map Launch.id
  let entry (x : Word) (k : Nat) : Cancelled := ⟨ctx, x, k, a, level⟩
  let below := (ls.map fun l => entry l.recAddr 0) ++ (gs.map fun g => entry g.recAddr 1) ++
    ((phasesUnder gs level).map fun x => entry x 2) ++ (if 2 ≤ level then [entry a level] else [])
  let taken (c : Cancelled) : Bool := below.any fun b => b.ctx == c.ctx && b.recAddr == c.recAddr && b.level == c.level
  let records := if s.isCancelled ctx a level then s.cancelled
    else (s.cancelled.filter fun c => !taken c) ++ below
  let iters := ((s.st :: s.others.map Prod.snd) ++ s.saved.map Saved.strand).filter fun t =>
    t.ctx == ctx && iterUnder lids gids s.graphs t
  let s : State := { s with
    cancelled := records
    launches := s.launches.map fun l => if lids.contains l.id then { l with cancelled := true } else l
    graphs := s.graphs.map fun g =>
      if gids.contains g.id then { g with cancelled := true, nodes := g.nodes.map fun n => { n with queue := [] } } else g }
  let s := iters.foldl (fun s t => s.cancelWork t.iter.id) s
  let all := s.graphs
  s.mapStrands fun t => if t.ctx == ctx && iterUnder lids gids all t then t.cancel a else t

/-- `cancel` names a record of the issuing context. -/
def formCancel (o : SelOps) : VForm :=
  hierForm o.d o.a o.fa none fun q s =>
    let level := o.sel.toNat
    let ctx := s.st.ctx
    if q.a.toNat % (if level = 0 then 128 else 64) ≠ 0 then s.answer o.d 0x02
    else if s.recordActive ctx q.a level &&
        !(s.finishing.any fun f => f.ctx == ctx && f.recAddr == q.a && f.level == level) then
      (s.cancelRecord ctx q.a level).answer o.d 0x00
    else if (s.recordStatus ctx q.a).any finishedState ||
        s.finishing.any fun f => f.ctx == ctx && f.recAddr == q.a && f.level == level then
      s.answer o.d 0x01
    else s.answer o.d 0x02

/-! ## Nodes and emission (R267 to R270) -/

/-- Fields of a node. -/
def Node.depth (n : Node) : Nat := fieldOf n.bytes 0x2E 1
def Node.rsize (n : Node) : Nat := fieldOf n.bytes 0x2C 2
def Node.berths (n : Node) : Nat := fieldOf n.bytes 0x28 4
def Node.emax (n : Node) : Nat := fieldOf n.bytes 0x32 2
def Node.landing (n : Node) : Bool := fieldOf n.bytes 0x2F 1 == 1

/-- The running batches of a graph, with those that are saved or wait to be handed out again. -/
def State.batchesOf (s : State) (g : Graph) : List Strand :=
  ((s.st :: s.others.map Prod.snd) ++ s.saved.map Saved.strand ++ s.rehand).filter fun t =>
    t.iter.work == .batch && t.ctx == g.ctx && t.iter.graph == g.recAddr

/-- Berths of node `k` held for its running batches (R268). -/
def State.heldBerths (s : State) (g : Graph) (k : Nat) : Nat :=
  ((s.batchesOf g).map fun t => if t.iter.node == k then t.iter.own else 0).sum

/-- Berths of node `k` of depth `d` reserved for the running batches of shallower nodes: records × emax for each until
it ends, less the records that it has placed there (R270). -/
def State.reservedBerths (s : State) (g : Graph) (k d : Nat) : Nat :=
  ((s.batchesOf g).map fun t =>
    match g.nodes[t.iter.node]? with
    | none => 0
    | some n => if n.depth < d then t.iter.records * n.emax - tabGet 0 t.iter.sent k else 0).sum

/-- Berths of node `k` that no record occupies and no running batch holds or has reserved. -/
def State.freeBerths (s : State) (g : Graph) (k : Nat) : Nat :=
  match g.nodes[k]? with
  | none => 0
  | some n => n.berths - n.queue.length - s.heldBerths g k - s.reservedBerths g k n.depth

/-- Adds to the counter of a record, at its home. -/
def State.increment (s : State) (ctx : BitVec 12) (a : Word) (n : Nat) : State :=
  let p := s.engPlace ctx .write .any a
  let s := s.comeToAdd (s.recordDie ctx a) ctx a p 8
  match s.recordCount ctx a with
  | none => s
  | some old => s.landAt ctx a p (bytesOf 8 ((old + n) % 2 ^ 64))

/-- The record becomes the youngest of node `k` (R269). -/
def State.placeRecord (s : State) (g : Graph) (k : Nat) (n : Node) (bs : List Byte) : State :=
  let s := s.setGraph g.id fun g => g.setNode k fun n => { n with queue := n.queue ++ [(s.stamp, bs)] }
  ((s.nextStamp.withEffects).increment g.ctx n.recAddr 1).increment g.ctx g.recAddr 1

/-- What the emission of the strand in focus to node `k` meets: a code, or a wait, or a place (R269). -/
inductive EmitGate where
  | code (c : Nat)
  | wait
  /-- placed, from the allowance for the batch's own node, for deeper nodes, or with none -/
  | own
  | deeper
  | free

/-- The gate of R269. -/
def State.emitGate (s : State) (g : Graph) (k : Nat) (n : Node) : EmitGate :=
  let i := s.st.iter
  if i.work == .batch then
    let mine := ((g.nodes[i.node]?).map Node.depth).getD 0
    if n.depth < mine ∨ (n.depth = mine ∧ k ≠ i.node) then .code 0x01
    else if g.cancelled then .code 0x03
    else if k = i.node then (if i.own = 0 then .code 0x02 else .own)
    else if i.deeper = 0 then .code 0x02
    else .deeper
  else if g.cancelled then .code 0x03
  else if s.freeBerths g k = 0 then .wait
  else .free

/-- The node of the issuing work's graph at an address. -/
def State.nodeAt (s : State) (a : Word) : Option (Graph × Nat × Node) :=
  if s.st.iter.graph = 0 then none
  else
    match s.graphAt s.st.ctx s.st.iter.graph with
    | none => none
    | some g => (g.nodes.findIdx? fun n => n.recAddr == a).bind fun k => (g.nodes[k]?).map fun n => (g, k, n)

/-- The rsize of the node record at an address of the issuing work's graph, where that graph has finished (R269). -/
def State.finishedNode (s : State) (a : Word) : Option Nat :=
  let ctx := s.st.ctx
  match if s.st.iter.graph = 0 then none else s.recordRead ctx s.st.iter.graph 64 with
  | none => none
  | some bs =>
    let base := wordOfField bs 0x18
    if finishedState (fieldOf bs 0x08 1) && (List.range (fieldOf bs 0x20 2)).any fun k => base + BitVec.ofNat 64 (64 * k) == a then
      (s.recordRead ctx (a + 0x2C) 2).map ofBytes
    else none

/-- An emission spends the allowance of its batch (R269). -/
def Iter.spend (i : Iter) (k : Nat) (gate : EmitGate) : Iter :=
  match gate with
  | .own => { i with own := i.own - 1 }
  | .deeper => { i with deeper := i.deeper - 1, sent := tabSet k (tabGet 0 i.sent k + 1) i.sent }
  | _ => i

/-- `emit`: the record is read first; then a node batch spends its allowance, and a launch iteration waits for a free
berth. -/
def formEmit (o : XOps) : VForm :=
  hierForm o.d o.a o.fa (some (o.b, o.fb)) fun q s =>
    let read (size : Nat) (f : List Byte → VOut) : VOut :=
      match s.snapshot q q.b 16 size with
      | .bad f => .trap s [] f.cause f.va 0
      | .poison line => .poison line
      | .bytes bs => f bs
    match s.nodeAt q.a with
    | none =>
      match s.finishedNode q.a with
      | none => s.answer o.d 0x01
      | some size => read size fun _ => s.answer o.d 0x03
    | some (g, k, n) =>
      read n.rsize fun bs =>
        match s.emitGate g k n with
        | .code c => s.answer o.d c
        | .wait => .wait s
        | gate =>
          ((s.upd fun t => { t with iter := t.iter.spend k gate }).placeRecord g k n bs).answer o.d 0x00

def execLaunch (o : XUn) (s : State) : Result := .next (s.vector (.launch o) (formLaunch o))
def execCancel (o : SelOps) (s : State) : Result := .next (s.vector (.cancel o) (formCancel o))
def execEmit (o : XOps) (s : State) : Result := .next (s.vector (.emit o) (formEmit o))

/-! ## Barriers (R279, R280) -/

/-- The checks of a barrier word: a read and a write by R88; a D page or host memory takes 0x07. -/
def State.barCheck (s : State) (a : Word) : Chk :=
  match s.check .read 8 8 a with
  | .bad c n => .bad c n
  | .ok _ _ =>
    match s.check .write 8 8 a with
    | .bad c n => .bad c n
    | .ok p d => if d || (match p with | .host _ => true | _ => false) then .bad 0x07 0 else .ok p d

/-- The arrival or the sleep of R279, with the word's place in hand. An arrival is one atomic access at the word's home
(R315); one that would overrun writes nothing. -/
def State.barAt (s : State) (a b : Word) (p : Place) : State :=
  let phaseOf (w : Nat) : BitVec 32 := BitVec.ofNat 32 (w / 2 ^ 32)
  let full (s : State) : Bool := decide (b.toNat ≤ ofBytes (s.placeBytes p 8) % 2 ^ 32)
  match s.st.mark.filter fun m => m.1 == a with
  | some m =>
    if phaseOf (ofBytes (s.placeBytes p 8)) ≠ m.2 then (s.upd fun t => { t with mark := none }).advance
    else s.upd fun t => { t with sleep := .barrier a m.2 }
  | none =>
    let s := (s.upd fun t => { t with mark := none }).crossed (dieOf s.cur) p
    let s := if full s then s else s.logAhead s.st.ctx a p 8
    let w := ofBytes (s.placeBytes p 8)
    let phase := phaseOf w
    let n := w % 2 ^ 32
    if full s then s.trap 0x0B a
    else
      let s := s.upd fun t => { t with iter := { t.iter with effects := true } }
      if n + 1 = b.toNat then (s.storeAt a p (bytesOf 8 (((w / 2 ^ 32 + 1) % 2 ^ 32) * 2 ^ 32))).advance
      else (s.storeAt a p (bytesOf 8 (w + 1))).upd fun t => { t with mark := some (a, phase), sleep := .barrier a phase }

/-- `bar`: it waits for the older vector entries and, as a release, for the older accesses. -/
def execBar (o : BarOps) (s : State) : Result :=
  .next (if s.st.inSection then s.decodeTrap (.bar o) 0x02
    else
      s.gated [(o.a, o.fa), (o.b, o.fb)] [] fun s =>
        let a := s.st.xget o.a
        let b := s.st.xget o.b
        if b = 0 ∨ 2 ^ 32 ≤ b.toNat then s.trap 0x0B a
        else if s.st.busy then s.stall
        else
          match s.barCheck a with
          | .bad c _ => s.trap c a
          | .ok p _ =>
            if s.st.lsBusy then s.stall
            else
              match s.poisonAt a p 8 with
              | some line => s.consume line
              | none => s.barAt a b p)

/-- The strand that sleeps on a barrier wakes once its phase has changed, or once the word can no longer be read. -/
def execBarWake (s : State) : Result :=
  .next (match s.st.sleep with
    | .barrier a p =>
      match s.barCheck a with
      | .bad _ _ => s.upd fun t => { t with sleep := .awake }
      | .ok q _ =>
        if BitVec.ofNat 32 (ofBytes (s.placeBytes q 8) / 2 ^ 32) ≠ p then s.upd fun t => { t with sleep := .awake } else s
    | _ => s)

end Sys2Proof.Machine
end

