-- ==== Sys2Proof/Machine/Blades.lean ====
section
/-! DEFINITION. The algebra of R184 to R193: blades and their products, grade masks, exact terms rounded once, and the
exponential and logarithm of R197. -/

namespace Sys2Proof.Machine

/-! ## Blades (R184, R190) -/

/-- The basis vectors of a blade, bit k for ek, by its index in canonical order (R184). -/
def bladeSet (n : Nat) : BitVec 4 :=
  match n with
  | 0 => 0b0000
  | 1 => 0b0001
  | 2 => 0b0010
  | 3 => 0b0100
  | 4 => 0b1000
  | 5 => 0b0011
  | 6 => 0b0101
  | 7 => 0b1001
  | 8 => 0b0110
  | 9 => 0b1010
  | 10 => 0b1100
  | 11 => 0b0111
  | 12 => 0b1011
  | 13 => 0b1101
  | 14 => 0b1110
  | _ => 0b1111

/-- The index of the blade with given basis vectors. -/
def bladeOf (v : BitVec 4) : Nat :=
  match v.toNat with
  | 0 => 0
  | 1 => 1
  | 2 => 2
  | 3 => 5
  | 4 => 3
  | 5 => 6
  | 6 => 8
  | 7 => 11
  | 8 => 4
  | 9 => 7
  | 10 => 9
  | 11 => 12
  | 12 => 10
  | 13 => 13
  | 14 => 14
  | _ => 15

/-- sigma of R184: whether the blade is the negative of its sorted form: e31, e021 and e032. -/
def bladeNeg (n : Nat) : Bool := n == 9 || n == 11 || n == 13

/-- The grade of a blade. -/
def bladeGrade (n : Nat) : Nat :=
  match n with
  | 0 => 0
  | 1 | 2 | 3 | 4 => 1
  | 11 | 12 | 13 | 14 => 3
  | 15 => 4
  | _ => 2

/-- Whether a blade contains e0 (R184). -/
def ideal (n : Nat) : Bool := (bladeSet n).getLsbD 0

/-- Swaps that sort the list of P followed by that of Q: pairs of an index of P above one of Q. -/
def swaps (p q : BitVec 4) : Nat :=
  ((List.range 4).map fun j =>
    if q.getLsbD j then ((List.range 4).filter fun i => decide (j < i) && p.getLsbD i).length else 0).sum

/-- The product of two basis blades: its sign (true is minus) and blade, or nothing where it vanishes by metric
(R190). -/
def bladeMul (p q : Nat) : Option (Bool × Nat) :=
  let a := bladeSet p
  let b := bladeSet q
  if a.getLsbD 0 && b.getLsbD 0 then none
  else
    let r := bladeOf (a ^^^ b)
    some ((swaps a b % 2 == 1) != (bladeNeg p != (bladeNeg q != bladeNeg r)), r)

/-- The reverse negates grades 2 and 3 (R191). -/
def revNeg (n : Nat) : Bool := bladeGrade n == 2 || bladeGrade n == 3

/-! ## Grade masks (R185, R192) -/

/-- A set of grades. -/
abbrev GMask := BitVec 5

/-- The blades stored under a mask, in increasing index (R186). -/
def bladesOf (g : GMask) : List Nat := (List.range 16).filter fun n => g.getLsbD (bladeGrade n)

/-- The products of R194. -/
inductive MProd where
  | gp
  | wedge
  | join
  | dot
  deriving DecidableEq, Repr

/-- The grades that a pair of grades gives (R192). -/
def prodGrades (op : MProd) (i j : Nat) : GMask :=
  match op with
  | .gp =>
    (List.range 5).foldl (fun m k =>
      if (max i j - min i j ≤ k ∧ k ≤ i + j ∧ k + i + j ≤ 8) ∧ (k + i + j) % 2 = 0 then m ||| (1#5 <<< k) else m) 0
  | .wedge => if i + j ≤ 4 then 1#5 <<< (i + j) else 0
  | .join => if 4 ≤ i + j then 1#5 <<< (i + j - 4) else 0
  | .dot => if i ≤ j then 1#5 <<< (j - i) else 0

/-- The union over every pair of grades present (R192). -/
def prodMask (op : MProd) (a b : GMask) : GMask :=
  (List.range 5).foldl (fun m i => (List.range 5).foldl (fun m j =>
    if a.getLsbD i && b.getLsbD j then m ||| prodGrades op i j else m) m) 0

/-- The mask of the dual: bit k moves to bit 4 − k. -/
def dualMask (a : GMask) : GMask :=
  (List.range 5).foldl (fun m k => if a.getLsbD k then m ||| (1#5 <<< (4 - k)) else m) 0

/-- Where a pair of blades lands in a product, with its sign, or nothing (R191). -/
def prodBlade (op : MProd) (p q : Nat) : Option (Bool × Nat) :=
  match op with
  | .gp => bladeMul p q
  | .wedge =>
    (bladeMul p q).bind fun r =>
      if bladeGrade r.2 = bladeGrade p + bladeGrade q then some r else none
  | .join =>
    (bladeMul (15 - p) (15 - q)).bind fun r =>
      if bladeGrade r.2 = bladeGrade (15 - p) + bladeGrade (15 - q) then some (r.1, 15 - r.2) else none
  | .dot =>
    (bladeMul p q).bind fun r =>
      if bladeGrade r.2 + bladeGrade p = bladeGrade q then some r else none

/-! ## Exact terms (R193) -/

/-- A term: its sign and its factors. -/
abbrev Term := Bool × List FVal

/-- A term's value, and NV for a signalling factor or ∞ × 0. -/
def termValue (t : Term) : FVal × FFlags :=
  let inf := t.2.any FVal.isInf
  let invalid := inf && t.2.any FVal.isZero
  let sig := t.2.foldl (fun f v => f ||| signals v) 0
  if invalid then (.nan false, flagNV)
  else if t.2.any FVal.isNan then (.nan false, sig)
  else
    let v := t.2.foldl (fun v w => (mulExact v w).1) (.fin t.1 1 0)
    (v, 0)

/-- The exact sum of terms, with NV where R193 calls the case invalid. No terms sum to +0. -/
def exactSum (ts : List Term) : FVal × FFlags :=
  let vs := ts.map termValue
  let fl := vs.foldl (fun f p => f ||| p.2) 0
  let both := (vs.any fun p => p.1 == .inf false) && vs.any fun p => p.1 == .inf true
  if both then (.nan false, fl ||| flagNV)
  else (vs.foldl (fun v p => (addExact 0 v p.1).1) (.fin false 0 0), fl)

/-- The component that R193 writes: an exact zero is +0 in every mode. -/
def roundSum (f : Fmt) (rm : RMode) (fz : Bool) (x : FVal × FFlags) : Nat × FFlags :=
  match x.1 with
  | .fin s m e =>
    if m == 0 then (0, x.2)
    else
      let r := roundMag f rm fz s m e false
      (r.1, r.2 ||| x.2)
  | v =>
    let r := roundF f rm fz v
    (r.1, r.2 ||| x.2)

/-- A multivector as read: the stored blades with their values. -/
abbrev MVal := List (Nat × FVal)

/-- The terms of a product that land on a blade. -/
def prodTerms (op : MProd) (a b : MVal) (n : Nat) : List Term :=
  a.flatMap fun x => b.filterMap fun y =>
    match prodBlade op x.1 y.1 with
    | some (neg, r) => if r = n then some (neg, [x.2, y.2]) else none
    | none => none

/-- The terms of M X M̃ that land on a blade (R191, R193). -/
def sandTerms (m x : MVal) (n : Nat) : List Term :=
  m.flatMap fun p => x.flatMap fun q =>
    match bladeMul p.1 q.1 with
    | none => []
    | some (s1, r1) => m.filterMap fun r =>
      match bladeMul r1 r.1 with
      | none => none
      | some (s2, n') => if n' = n then some ((s1 != s2) != revNeg r.1, [p.2, q.2, r.2]) else none

/-- The terms of a sum or difference. -/
def sumTerms (minus : Bool) (a b : MVal) (n : Nat) : List Term :=
  (a.filter fun x => x.1 == n).map (fun x => (false, [x.2])) ++
    (b.filter fun x => x.1 == n).map fun x => (minus, [x.2])

/-- The exact sum of squares of some components. -/
def squares (a : MVal) : FVal × FFlags := exactSum (a.map fun x => (false, [x.2, x.2]))

/-! ## The leak test (R195) -/

/-- D > 2^−40 × K for exact finite sums of squares. -/
def leaks (d k : FVal) : Bool :=
  match d, k with
  | .fin _ m e, .fin _ n g => decide (cmpF (.fin false m e) (.fin false n (g - 40)) = 1)
  | _, _ => false

/-! ## Roots of ratios (R196) -/

/-- ±√(m × 2^e / n), rounded once; m and n are not 0. -/
def sqrtRatio (f : Fmt) (rm : RMode) (fz : Bool) (neg : Bool) (m n : Nat) (e : Int) : Nat × FFlags :=
  let m' := if e % 2 == 0 then m else 2 * m
  let e' := if e % 2 == 0 then e else e - 1
  let k := f.frac + 4 + bitLen n
  let q := m' * 4 ^ k / n
  let r := isqrt (bitLen q / 2 + 1) q
  roundMag f rm fz neg r (e' / 2 - k) (m' * 4 ^ k % n != 0 || r * r != q)

/-- One norm of `mnorm`: the root of an exact sum of squares (R196). -/
def normF (rm : RMode) (fz : Bool) (x : FVal × FFlags) : Nat × FFlags :=
  match x.1 with
  | .fin _ m e => if m == 0 then (0, x.2) else let r := sqrtRatio f32 rm fz false m 1 e; (r.1, r.2 ||| x.2)
  | v => let r := roundF f32 rm fz v; (r.1, r.2 ||| x.2)

/-- One component of `munit`, where no component is a NaN and E is not 0 (R196). -/
def unitF (f : Fmt) (rm : RMode) (fz : Bool) (en : FVal) (v : FVal) : Nat × FFlags :=
  match en, v with
  | .fin _ n g, .fin s m e => if m == 0 then (withSign f s 0, 0) else sqrtRatio f rm fz s (m * m) n (2 * e - g)
  | .fin _ _ _, .inf s => (packInf f s, 0)
  | _, .inf _ => (f.nan, flagNV)
  | _, v => (withSign f v.sign 0, 0)

/-! ## Exponential and logarithm (R197)

Exact values are carried as integers over 2^`expBits`; the series and roots below are exact to far more bits than the
bound of R197 needs. -/

/-- Fraction bits of the fixed-point numbers of this section. -/
def expBits : Nat := 2400

/-- 1. -/
def one : Int := ((2 ^ expBits : Nat) : Int)

/-- A product of fixed-point numbers. -/
def fmul (a b : Int) : Int := a * b / one

/-- A quotient of fixed-point numbers. -/
def fdivp (a b : Int) : Int := if b == 0 then 0 else a * one / b

/-- A root of a fixed-point number that is not negative. -/
def froot (a : Int) : Int :=
  let n := a.toNat * 2 ^ expBits
  ((isqrt (bitLen n / 2 + 1) n : Nat) : Int)

/-- Σ over k of t(k), with t(0) = `t` and t(k + 1) = −t(k) × `x` / ((k·2 + c)(k·2 + c + 1)). -/
def altSeries (x : Int) (c : Nat) : Nat → Nat → Int → Int
  | 0, _, _ => 0
  | n + 1, k, t => t + altSeries x c n (k + 1) (-(fmul t x) / (((2 * k + c) * (2 * k + c + 1) : Nat) : Int))

/-- Σ over k of (−x)^k / (2k + 1), the series of atan √x / √x. -/
def atanSeries (x : Int) : Nat → Nat → Int → Int
  | 0, _, _ => 0
  | n + 1, k, t => t / (((2 * k + 1 : Nat) : Nat) : Int) + atanSeries x n (k + 1) (-(fmul t x))

/-- π (Machin's formula). -/
def piFixed : Int :=
  let at_ (n : Nat) : Int := atanSeries (one / ((n * n : Nat) : Int)) 1100 0 one / (n : Int)
  16 * at_ 5 - 4 * at_ 239

/-- cos √x and sin √x / √x for a fixed-point x in [0, 4]. -/
def cosSinc (x : Int) : Int × Int := (altSeries x 1 400 0 one, altSeries x 2 400 0 one)

/-- Σ over k of (−1)^(k+1) (k + 1) x^k / (2k + 3)!, the derivative of sin √x / √x, for x in [0, 4]. -/
def sincSlope (x : Int) : Nat → Nat → Int → Int
  | 0, _, _ => 0
  | n + 1, k, t =>
    -(((k + 1 : Nat) : Int) * t) + sincSlope x n (k + 1) (-(fmul t x) / (((2 * k + 4) * (2 * k + 5) : Nat) : Int))

/-- For θ² = x: cos θ, sin θ / θ, and the derivative of the latter by θ². -/
def expParts (x : Int) : Int × Int × Int :=
  if x ≤ one then
    let r := cosSinc x
    (r.1, r.2, sincSlope x 400 0 (one / 6))
  else
    let th := froot x
    let half := piFixed / 2
    let k := (th + half / 2) / half
    let r := th - k * half
    let z := cosSinc (fmul r r)
    let c0 := z.1
    let s0 := fmul z.2 r
    let cs : Int × Int :=
      match (k % 4).toNat with
      | 0 => (c0, s0)
      | 1 => (-s0, c0)
      | 2 => (-c0, -s0)
      | _ => (s0, -c0)
    let sinc := fdivp cs.2 th
    (cs.1, sinc, fdivp (cs.1 - sinc) (2 * x))

/-- A multivector with integer components over one power of 2: blade and numerator. -/
abbrev IVal := List (Nat × Int)

/-- The smallest exponent of finite components, at most 0. -/
def commonExp (a : MVal) : Int :=
  a.foldl (fun q x =>
    match x.2 with
    | .fin _ m e => if m == 0 then q else min q e
    | _ => q) 0

/-- Components as integers over 2^q. -/
def integers (a : MVal) (q : Int) : IVal :=
  a.map fun x =>
    (x.1, match x.2 with
      | .fin s m e => if m == 0 then 0 else scaled s m e q
      | _ => 0)

/-- A component of an integer multivector. -/
def IVal.at (a : IVal) (n : Nat) : Int := (a.filter fun x => x.1 == n).foldl (fun s x => s + x.2) 0

/-- A component of the geometric product of integer multivectors. -/
def IVal.mulAt (a b : IVal) (n : Nat) : Int :=
  a.foldl (fun acc x => b.foldl (fun acc y =>
    match bladeMul x.1 y.1 with
    | some (neg, r) => if r = n then (if neg then acc - x.2 * y.2 else acc + x.2 * y.2) else acc
    | none => acc) acc) 0

/-- The Euclidean part. -/
def IVal.euclid (a : IVal) : IVal := a.filter fun x => !ideal x.1

/-- k × 2^q as a fixed-point number. -/
def fixed (k q : Int) : Int := if 0 ≤ q + expBits then k * 2 ^ (q + expBits).toNat else k / 2 ^ (-(q + expBits)).toNat

/-- The value of a component: nothing where it is exactly zero. -/
abbrev Inexact := Option Int

/-- Components of exp(B) for B with a Euclidean part, B = `b` × 2^q: with B² = −θ² + γ e0123,
exp(B) = cos θ + γ (sin θ / 2θ) e0123 + B sin θ / θ − γ B′ e0123, B′ the Euclidean part times the derivative of
sin θ / θ by θ². By the theorem of Lindemann and Weierstrass a component is zero only where its coefficients are. -/
def expComponent (b : IVal) (q : Int) (n : Nat) : Inexact :=
  let e := b.euclid
  let th2 := fixed (e.foldl (fun s x => s + x.2 * x.2) 0) (2 * q)
  let gamma := b.mulAt b 15
  let p := expParts th2
  let pseudo : IVal := [(15, 1)]
  let c := e.mulAt pseudo n
  if n = 0 then some p.1
  else if n = 15 then
    if gamma = 0 then none else some (fmul (fixed gamma (2 * q)) p.2.1 / 2)
  else
    let x := b.at n
    if x = 0 ∧ c * gamma = 0 then none
    else some (fmul (fixed x q) p.2.1 - fmul (fixed (c * gamma) (3 * q)) p.2.2)

/-- atan2(y, x) for x, y ≥ 0, not both 0, by halving the angle three times. -/
def angle (x y : Int) : Int :=
  let t1 := fdivp y (x + froot (fmul x x + fmul y y))
  let half (t : Int) : Int := fdivp t (one + froot (one + fmul t t))
  let t := half (half t1)
  8 * fmul t (atanSeries (fmul t t) 700 0 one)

/-- Components of the logarithm of M = `m`, up to a power of 2, with E not 0 and a Euclidean bivector part: with
N′ = s + b + v + p e0123 of norm 1 and s not below 0, θ = atan2(|b|, s),
B = (b + v) θ / sin θ + b e0123 p (θ cos θ − sin θ) / sin³ θ. -/
def logComponent (m : IVal) (n : Nat) : Inexact :=
  let e := m.euclid
  let en := e.foldl (fun s x => s + x.2 * x.2) 0
  let flip : Int := if m.at 0 < 0 then -1 else 1
  let rev : IVal := m.map fun x => (x.1, if revNeg x.1 then -x.2 else x.2)
  let w2 := m.mulAt rev 15
  let b : IVal := e.filter fun x => x.1 != 0
  let bI (k : Nat) : Int := b.mulAt [(15, 1)] k
  let root := froot (en * one)
  let scaledBy (k : Int) : Int := k * one * one / root
  let s := scaledBy (flip * m.at 0)
  let sn2 := fdivp (b.foldl (fun s x => s + x.2 * x.2) 0 * one) (en * one)
  let sn := froot sn2
  let th := angle s sn
  let ratio := fdivp th sn
  let slope := fdivp (fdivp (fdivp (fmul th s - sn) sn) sn) sn
  let deep (k : Int) : Int := k * one * one / root / (2 * en)
  if n = 8 ∨ n = 9 ∨ n = 10 then
    let x := flip * m.at n
    if x = 0 then none else some (fmul (scaledBy x) ratio)
  else
    let v := flip * (2 * m.at n * en - w2 * bI n)
    let p := flip * (2 * m.at 15 * en - w2 * m.at 0)
    let c := flip * bI n
    if v = 0 ∧ c * p = 0 then none
    else some (fmul (deep v) ratio + fmul (fmul (scaledBy c) (deep p)) slope)

/-- The encoding nearest to a value that is not exactly zero, and its flags: NX in every case (R197), OF and UF as R66 and
R68 have them, and a zero of its sign where it is tiny under `fz` = 1 (R69; log 81). -/
def nearest (f : Fmt) (fz : Bool) (x : Int) : Nat × FFlags :=
  let r := roundMag f 0 fz (decide (x < 0)) (Nat.max 1 x.natAbs) (-(expBits : Int)) false
  (r.1, r.2 ||| flagNX)

/-- One encoding of a value that is not exactly zero, within 2 ulp of it: the nearest one, moved by as many steps as a
free choice says where the bound of R197 allows that many; an infinity, or the zero that `fz` = 1 makes of a tiny value,
is not moved, nor is a normal value moved below the normal ones then. -/
def nearValue (f : Fmt) (fz : Bool) (choice : BitVec 32) (x : Int) : Nat × FFlags :=
  let neg := decide (x < 0)
  let r := nearest f fz x
  let mag := r.1 % f.signBit
  let line : Int := if neg then -(mag : Int) else mag
  let moved := line + ((choice.toNat % 5 : Nat) : Int) - 2
  let y : Nat := withSign f (decide (moved < 0) || (neg && moved == 0)) moved.natAbs
  let q := max ((bitLen x.natAbs : Int) - 1 - expBits - f.frac) f.minExp
  let close := match unpack f y with
    | .fin t k e =>
      let g := min e (-(expBits : Int))
      decide ((scaled t k e g - scaled neg x.natAbs (-(expBits : Int)) g).natAbs ≤ 2 * 2 ^ (q - g).toNat)
    | _ => false
  let fixed := decide (f.infinity ≤ mag) || (fz && decide (moved.natAbs < 2 ^ f.frac))
  (if fixed || !close then r.1 else y, r.2)

/-- A component that is written +0 where it is exactly zero. -/
def nearComponent (f : Fmt) (fz : Bool) (choice : BitVec 32) (x : Inexact) : Nat × FFlags :=
  match x with
  | none => (0, 0)
  | some k => nearValue f fz choice k

end Sys2Proof.Machine
end

