-- ==== Sys2Proof/Machine/Multivec.lean ====
section
/-! DEFINITION. Multivector instructions (R186 to R200). -/

namespace Sys2Proof.Machine

/-! ## Tags (R26, R186, R188) -/

/-- The fields of a tag. -/
def tagKind (g : Byte) : Bool := g.getLsbD 0
def tagType (g : Byte) : BitVec 2 := g.extractLsb' 1 2
def tagMask (g : Byte) : GMask := g.extractLsb' 3 5

/-- The tag (1, ct, gm). -/
def mvTag (ct : BitVec 2) (gm : GMask) : Byte := gm ++ ct ++ 1#1

/-- A source that is no multivector of type `ty` (R188). -/
def badSource (ty : BitVec 2) (g : Byte) : Bool := !tagKind g || tagType g != ty

/-- Traps 0x0C and 0x02 of a multivector instruction, in this order (R188, R189): a tag that does not fit, a masked
destination whose tag differs from the tag to be written, then an empty mask or `vl` above the limit. -/
def mvCheck (s : State) (m : Bool) (d : Reg) (mismatch : Bool) (want : Byte) (empty : Bool) (limit : Nat) :
    Option (BitVec 8) :=
  if mismatch || (m && !empty && s.st.dtagOf d != want) then some 0x0C
  else if empty || (s.st.vlFull && decide (limit < s.st.vl.toNat)) then some 0x02
  else none

/-! ## Multivectors in a register (R186) -/

/-- Bits of a component. -/
def compWidth (ct : BitVec 2) : Nat := fpWidth ct

/-- The encodings of multivector `e` under a mask: blade and bits. -/
def State.mvBits (s : State) (r : Reg) (ct : BitVec 2) (g : GMask) (e : Nat) : List (Nat × Nat) :=
  let bs := bladesOf g
  bs.mapIdx fun k n => (n, s.elem r (compWidth ct) (bs.length * e + k))

/-- Its values, read under `fz`. -/
def State.mvRead (s : State) (q : QEntry) (r : Reg) (ct : BitVec 2) (g : GMask) (e : Nat) : MVal :=
  (s.mvBits r ct g e).map fun x => (x.1, readF (fmtOf ct) q.fz x.2)

/-- Writes consecutive slots from `k` on. -/
def setSlots (w : Nat) : Nat → List Nat → VReg → VReg
  | _, [], v => v
  | k, x :: xs, v => setSlots w (k + 1) xs (setElem v w k x)

/-- Multivectors `e` to `e + n − 1`: `f` gives the components of each that is enabled, in slots of `w` bits, `c` to a
multivector. -/
def mvLanes (w c : Nat) (f : Nat → Option (List Nat × FFlags)) : Nat → Nat → VReg → VReg × Raised
  | 0, _, v => (v, [])
  | n + 1, e, v =>
    match f e with
    | none => mvLanes w c f n (e + 1) v
    | some (xs, fl) =>
      let r := mvLanes w c f n (e + 1) (setSlots w (c * e) xs v)
      (r.1, note e fl r.2)

/-- Writes the multivectors of a result under the mask register (R194). -/
def State.mvTo (s : State) (d : Reg) (w c : Nat) (m : Bool) (lo hi : Nat) (f : Nat → List Nat × FFlags) : VOut :=
  let g (e : Nat) : Option (List Nat × FFlags) := if s.st.on m e then some (f e) else none
  let r := mvLanes w c g (hi - lo) lo (s.st.vget d)
  .done (s.putV d r.1 ((List.range (hi - lo)).any fun k => (g (lo + k)).isSome)) r.2

/-- Components computed blade by blade, with the union of their flags. -/
def collect (bs : List Nat) (f : Nat → Nat × FFlags) : List Nat × FFlags :=
  bs.foldr (fun n acc => let r := f n; (r.1 :: acc.1, r.2 ||| acc.2)) ([], 0)

/-! ## Binary instructions (R194, R195) -/

/-- The frame of the mga.b instructions: the inferred mask, further tag conditions, and the components. -/
def mvBin (o : VOps) (mask : GMask → GMask → GMask) (odd : GMask → Bool)
    (f : QEntry → MVal → MVal → List Nat × FFlags) : VForm where
  vs := [(o.a, o.fa), (o.b, o.fb)]
  vd := [o.d]
  rounds := true
  legal := repLegal o.d o.b o.rep
  check := fun s =>
    let ta := s.st.dtagOf o.a
    let tb := s.st.dtagOf o.b
    let g := mask (tagMask ta) (tagMask tb)
    let la := vlmaxM o.ty (tagMask ta)
    let lb := if o.rep = 0 then vlmaxM o.ty (tagMask tb) else la
    mvCheck s o.m o.d (badSource o.ty ta || badSource o.ty tb || odd (tagMask tb)) (mvTag o.ty g) (g == 0)
      (Nat.min (vlmaxM o.ty g) (Nat.min la lb))
  grain := 1
  uses := fun s q =>
    [laneUse o.a (compWidth o.ty * gradeCount (tagMask q.ta)) 0 (s.st.on o.m),
      laneUse o.b (compWidth o.ty * gradeCount (tagMask q.tb)) o.rep (s.st.on o.m)]
  tagA := o.a
  tagB := o.b
  tags := fun ta tb _ => some [(o.d, mvTag o.ty (mask (tagMask ta) (tagMask tb)))]
  body := fun q lo hi s =>
    let ga := tagMask q.ta
    let gb := tagMask q.tb
    s.mvTo o.d (compWidth o.ty) (gradeCount (mask ga gb)) o.m lo hi fun e =>
      f q (s.mvRead q o.a o.ty ga e) (s.mvRead q o.b o.ty gb (srcb o.rep e))

/-- A product: every component is the sum of its terms, rounded once (R193). -/
def mvProd (o : VOps) (op : MProd) : VForm :=
  mvBin o (prodMask op) (fun _ => false) fun q a b =>
    collect (bladesOf (prodMask op (tagMask q.ta) (tagMask q.tb))) fun n =>
      roundSum (fmtOf o.ty) q.frm q.fz (exactSum (prodTerms op a b n))

/-- A sum or difference. -/
def mvSum (o : VOps) (minus : Bool) : VForm :=
  mvBin o (fun a b => a ||| b) (fun _ => false) fun q a b =>
    collect (bladesOf (tagMask q.ta ||| tagMask q.tb)) fun n =>
      roundSum (fmtOf o.ty) q.frm q.fz (exactSum (sumTerms minus a b n))

/-- The mask of (M X) M̃ (R195). -/
def leakMask (m x : GMask) : GMask := prodMask .gp (prodMask .gp m x) m

/-- GL of `msand.chk`: the grades that leave the mask of X against those kept; nothing where a component is not
finite. -/
def leakFlag (m x : MVal) (gm gx : GMask) : FFlags :=
  let exact (g : GMask) : List FVal := (bladesOf g).map fun n => (exactSum (sandTerms m x n)).1
  let kept := exact gx
  let lost := exact (leakMask gm gx &&& ~~~gx)
  let square (l : List FVal) : FVal := (exactSum (l.map fun v => (false, [v, v]))).1
  if (kept ++ lost).any fun v => v.isNan || v.isInf then 0
  else flagIf (leaks (square lost) (square kept)) flagGL

/-- The sandwich: M in vb, X in va; the motor carries no odd grade (R188, R195). -/
def mvSand (o : VOps) (chk : Bool) : VForm :=
  mvBin o (fun a _ => a) (fun g => g.getLsbD 1 || g.getLsbD 3) fun q x m =>
    let r := collect (bladesOf (tagMask q.ta)) fun n =>
      roundSum (fmtOf o.ty) q.frm q.fz (exactSum (sandTerms m x n))
    (r.1, r.2 ||| if chk then leakFlag m x (tagMask q.tb) (tagMask q.ta) else 0)

def formMgp (o : VOps) : VForm := mvProd o .gp
def formMwedge (o : VOps) : VForm := mvProd o .wedge
def formMjoin (o : VOps) : VForm := mvProd o .join
def formMdot (o : VOps) : VForm := mvProd o .dot
def formMsand (o : VOps) : VForm := mvSand o false
def formMsandChk (o : VOps) : VForm := mvSand o true
def formMadd (o : VOps) : VForm := mvSum o false
def formMsub (o : VOps) : VForm := mvSum o true

def execMgp (o : VOps) (s : State) : Result := .next (s.vector (.mgp o) (formMgp o))
def execMwedge (o : VOps) (s : State) : Result := .next (s.vector (.mwedge o) (formMwedge o))
def execMjoin (o : VOps) (s : State) : Result := .next (s.vector (.mjoin o) (formMjoin o))
def execMdot (o : VOps) (s : State) : Result := .next (s.vector (.mdot o) (formMdot o))
def execMsand (o : VOps) (s : State) : Result := .next (s.vector (.msand o) (formMsand o))
def execMsandChk (o : VOps) (s : State) : Result := .next (s.vector (.msandChk o) (formMsandChk o))
def execMadd (o : VOps) (s : State) : Result := .next (s.vector (.madd o) (formMadd o))
def execMsub (o : VOps) (s : State) : Result := .next (s.vector (.msub o) (formMsub o))

/-! ## Unary instructions (R196, R197) -/

/-- The frame of the mga.u instructions that write a multivector. -/
def mvUn (d a : Reg) (ty : BitVec 2) (m fa rounds : Bool) (mask : GMask → GMask) (wrong : GMask → Bool)
    (f : QEntry → Nat → State → List (Nat × Nat) → List Nat × FFlags) : VForm where
  vs := [(a, fa)]
  vd := [d]
  rounds := rounds
  check := fun s =>
    let ta := s.st.dtagOf a
    let g := mask (tagMask ta)
    mvCheck s m d (badSource ty ta || wrong (tagMask ta)) (mvTag ty g) (g == 0)
      (Nat.min (vlmaxM ty g) (vlmaxM ty (tagMask ta)))
  grain := 1
  uses := fun s q => [laneUse a (compWidth ty * gradeCount (tagMask q.ta)) 0 (s.st.on m)]
  tagA := a
  tags := fun ta _ _ => some [(d, mvTag ty (mask (tagMask ta)))]
  body := fun q lo hi s =>
    let ga := tagMask q.ta
    s.mvTo d (compWidth ty) (gradeCount (mask ga)) m lo hi fun e => f q e s (s.mvBits a ty ga e)

/-- Encodings as values, read under `fz`. -/
def mvValues (ty : BitVec 2) (q : QEntry) (bs : List (Nat × Nat)) : MVal :=
  bs.map fun x => (x.1, readF (fmtOf ty) q.fz x.2)

/-- An encoding of a blade. -/
def bitsAt (bs : List (Nat × Nat)) (n : Nat) : Nat := ((bs.find? fun x => x.1 == n).map Prod.snd).getD 0

/-- `mrev`: sign bits of grades 2 and 3 inverted. -/
def formMrev (o : VUn) : VForm :=
  mvUn o.d o.a o.ty o.m o.fa false id (fun _ => false) fun _ _ _ bs =>
    (bs.map fun x => if revNeg x.1 then x.2 ^^^ (fmtOf o.ty).signBit else x.2, 0)

/-- `mdual`: the component at n goes to 15 − n. -/
def formMdual (o : VUn) : VForm :=
  mvUn o.d o.a o.ty o.m o.fa false dualMask (fun _ => false) fun q _ _ bs =>
    ((bladesOf (dualMask (tagMask q.ta))).map fun n => bitsAt bs (15 - n), 0)

/-- `mproj`: the kept grades, copied. -/
def formMproj (o : MProjOps) : VForm :=
  mvUn o.d o.a o.ty o.m o.fa false (fun g => g &&& o.gm) (fun _ => false) fun _ _ _ bs =>
    ((bs.filter fun x => o.gm.getLsbD (bladeGrade x.1)).map Prod.snd, 0)

/-- `munit` (R196). -/
def unitOf (ty : BitVec 2) (q : QEntry) (a : MVal) : List Nat × FFlags :=
  let f := fmtOf ty
  let all (fl : FFlags) : List Nat × FFlags := (a.map fun _ => f.nan, fl)
  if a.any fun x => x.2.isNan then all (a.foldl (fun fl x => fl ||| signals x.2) 0)
  else
    let en := (squares (a.filter fun x => !ideal x.1)).1
    if en.isZero then all flagNV
    else collect (List.range a.length) fun k => unitF f q.frm q.fz en (((a[k]?).map Prod.snd).getD (.fin false 0 0))

def formMunit (o : VUn) : VForm :=
  mvUn o.d o.a o.ty o.m o.fa true id (fun _ => false) fun q _ _ bs => unitOf o.ty q (mvValues o.ty q bs)

/-- `mscale`: every component times the scale that b holds, a plain register. -/
def formMscale (o : VOps) : VForm :=
  { mvUn o.d o.a o.ty o.m o.fa true id (fun _ => false) fun q e s bs =>
      let y := readF (fmtOf o.ty) q.fz (s.elem o.b (compWidth o.ty) (srcb o.rep e))
      collect (List.range bs.length) fun k =>
        let x := (((mvValues o.ty q bs)[k]?).map Prod.snd).getD (.fin false 0 0)
        roundSum (fmtOf o.ty) q.frm q.fz (exactSum [(false, [x, y])]) with
    vs := [(o.a, o.fa), (o.b, o.fb)]
    uses := fun s q =>
      [laneUse o.a (compWidth o.ty * gradeCount (tagMask q.ta)) 0 (s.st.on o.m),
        laneUse o.b (compWidth o.ty) o.rep (s.st.on o.m)]
    legal := repLegal o.d o.b o.rep
    check := fun s =>
      let ta := s.st.dtagOf o.a
      let l := vlmaxM o.ty (tagMask ta)
      mvCheck s o.m o.d (badSource o.ty ta || tagKind (s.st.dtagOf o.b)) (mvTag o.ty (tagMask ta)) (tagMask ta == 0)
        (if o.rep = 0 then Nat.min l (vlmaxOf (compWidth o.ty)) else l) }

/-- `mnorm`: f32 elements 2e and 2e + 1; the result is plain. -/
def formMnorm (o : VUn) : VForm :=
  { mvUn o.d o.a o.ty o.m o.fa true id (fun _ => false) fun _ _ _ _ => ([], 0) with
    check := fun s =>
      let ta := s.st.dtagOf o.a
      mvCheck s o.m o.d (badSource o.ty ta) 0 false (Nat.min 256 (vlmaxM o.ty (tagMask ta)))
    tags := fun _ _ _ => some [(o.d, 0)]
    body := fun q lo hi s =>
      s.mvTo o.d 32 2 o.m lo hi fun e =>
        let a := s.mvRead q o.a o.ty (tagMask q.ta) e
        let x := normF q.frm q.fz (squares (a.filter fun c => !ideal c.1))
        let y := normF q.frm q.fz (squares (a.filter fun c => ideal c.1))
        ([x.1, y.1], x.2 ||| y.2) }

/-- The free choice of a component of `mexp` or `mlog` (log 11). -/
def choiceOf (s : State) (e n : Nat) : BitVec 32 := Config.mexpValue ((s.freeCount * 2048 + e) * 16 + n)

/-- The masks of a line and of a motor (R185). -/
def lineMask : GMask := 0b00100
def motorMask : GMask := 0b10101

/-- The encoding of 1. -/
def Fmt.one (f : Fmt) : Nat := f.bias * 2 ^ f.frac

/-- `mexp` of one bivector (R197). An ideal component of a pure translator is copied bit for bit as R197 says first,
also where it is −0, or a subnormal under `fz` = 1, whose exact value is 0 (DESIGN CHOICE, log 82). -/
def expOf (ty : BitVec 2) (q : QEntry) (s : State) (e : Nat) (bs : List (Nat × Nat)) : List Nat × FFlags :=
  let f := fmtOf ty
  let a := mvValues ty q bs
  let out := bladesOf motorMask
  if a.any fun x => x.2.isNan || x.2.isInf then (out.map fun _ => f.nan, flagNV)
  else if (a.filter fun x => !ideal x.1).all fun x => x.2.isZero then
    (out.map fun n => if n = 0 then f.one else if bladeGrade n = 2 ∧ ideal n then bitsAt bs n else 0, 0)
  else
    let g := commonExp a
    let b := integers a g
    collect out fun n => nearComponent f q.fz (choiceOf s e n) (expComponent b g n)

def formMexp (o : VUn) : VForm :=
  mvUn o.d o.a o.ty o.m o.fa false (fun _ => motorMask) (fun g => g != lineMask) fun q e s bs => expOf o.ty q s e bs

/-- `mlog` of one motor (R197). An ideal component of a translator is copied bit for bit, as in `expOf` (log 82). -/
def logOf (ty : BitVec 2) (q : QEntry) (s : State) (e : Nat) (bs : List (Nat × Nat)) : List Nat × FFlags :=
  let f := fmtOf ty
  let a := mvValues ty q bs
  let out := bladesOf lineMask
  if (a.any fun x => x.2.isNan || x.2.isInf) || (a.filter fun x => !ideal x.1).all fun x => x.2.isZero then
    (out.map fun _ => f.nan, flagNV)
  else
    let m := integers a (commonExp a)
    if m.at 8 = 0 ∧ m.at 9 = 0 ∧ m.at 10 = 0 then
      if bitsAt bs 0 = f.one then (out.map fun n => if ideal n then bitsAt bs n else 0, 0)
      else collect out fun n => nearComponent f q.fz (choiceOf s e n) (if m.at n = 0 then none else some (m.at n * one / m.at 0))
    else collect out fun n => nearComponent f q.fz (choiceOf s e n) (logComponent m n)

def formMlog (o : VUn) : VForm :=
  mvUn o.d o.a o.ty o.m o.fa false (fun _ => lineMask) (fun g => g.getLsbD 1 || g.getLsbD 3) fun q e s bs =>
    logOf o.ty q s e bs

def execMrev (o : VUn) (s : State) : Result := .next (s.vector (.mrev o) (formMrev o))
def execMdual (o : VUn) (s : State) : Result := .next (s.vector (.mdual o) (formMdual o))
def execMnorm (o : VUn) (s : State) : Result := .next (s.vector (.mnorm o) (formMnorm o))
def execMunit (o : VUn) (s : State) : Result := .next (s.vector (.munit o) (formMunit o))
def execMexp (o : VUn) (s : State) : Result := .next (s.vector (.mexp o) (formMexp o))
def execMlog (o : VUn) (s : State) : Result := .next (s.vector (.mlog o) (formMlog o))
def execMproj (o : MProjOps) (s : State) : Result := .next (s.vector (.mproj o) (formMproj o))
def execMscale (o : VOps) (s : State) : Result := .next (s.vector (.mscale o) (formMscale o))

/-! ## Loads, stores and tags (R198, R199) -/

/-- Multivector e at xa + D × s + e × c × s, component by component. -/
def mvAccess (o : VMemOps) (acc : Acc) (q : QEntry) : VAccess :=
  let n := compWidth o.ty / 8
  let c := gradeCount q.vgm
  { acc, size := n, mis := misaligned n, m := o.m
    parts := fun e => (List.range c).map fun k =>
      (c * e + k, dispAddr q.a o.disp n + BitVec.ofNat 64 ((c * e + k) * n)) }

/-- `mld`: the tag is that of `vgm`. -/
def formMld (o : VMemOps) : VForm where
  vd := [o.d]
  xa := some (o.a, false)
  check := fun s =>
    let g := s.st.vgm
    mvCheck s o.m o.d false (mvTag o.ty g) (g == 0) (vlmaxM o.ty g)
  grain := 1
  tags := fun _ _ g => some [(o.d, mvTag o.ty g)]
  body := fun q lo hi s => s.vload q o.d (mvAccess o .read q) lo hi

/-- `mst`: the data register carries the tag of `vgm`. -/
def formMst (o : VMemOps) : VForm where
  vs := [(o.d, false)]
  xa := some (o.a, false)
  check := fun s =>
    let g := s.st.vgm
    mvCheck s false o.d (s.st.dtagOf o.d != mvTag o.ty g) 0 (g == 0) (vlmaxM o.ty g)
  grain := 1
  uses := fun s q => [laneUse o.d (compWidth o.ty * gradeCount q.vgm) 0 (s.st.on o.m)]
  body := fun q lo hi s => s.vstore q o.d (mvAccess o .write q) lo hi

/-- `msetg`: only the tag changes, whatever `vl` holds. -/
def formMsetg (o : MSetgOps) : VForm where
  readsVl := false
  tags := fun _ _ _ => some [(o.d, if o.gm = 0 then 0 else mvTag o.ty o.gm)]
  body := fun _ _ _ s => .done s []

/-- `mcvt`: every component to type T, the mask kept; the same type copies. -/
def formMcvt (o : VUn) : VForm where
  vs := [(o.a, o.fa)]
  vd := [o.d]
  check := fun s =>
    let ta := s.st.dtagOf o.a
    let g := tagMask ta
    let src := tagType ta
    let bad := mvCheck s o.m o.d (!tagKind ta) (mvTag o.ty g) (g == 0) (Nat.min (vlmaxM o.ty g) (vlmaxM src g))
    if bad.isNone && src != o.ty && !widens src o.ty && s.st.frm == 4 then some 0x02 else bad
  grain := 1
  uses := fun s q => [laneUse o.a (compWidth (tagType q.ta) * gradeCount (tagMask q.ta)) 0 (s.st.on o.m)]
  tagA := o.a
  tags := fun ta _ _ => some [(o.d, mvTag o.ty (tagMask ta))]
  body := fun q lo hi s =>
    let src := tagType q.ta
    let g := tagMask q.ta
    s.mvTo o.d (compWidth o.ty) (gradeCount g) o.m lo hi fun e =>
      let bs := s.mvBits o.a src g e
      if src == o.ty then (bs.map Prod.snd, 0)
      else collect (bladesOf g) fun n =>
        convertF (fmtOf o.ty) q.frm q.fz (readF (fmtOf src) q.fz (bitsAt bs n))

/-- `mgettag` runs at decode: the decode copy of the tag goes to xd. -/
def execMgettag (o : DA) (s : State) : Result :=
  .next (s.gated [] [o.d] fun s => (s.setX o.d (zext (s.st.dtagOf o.a))).advance)

def execMld (o : VMemOps) (s : State) : Result := .next (s.vector (.mld o) (formMld o))
def execMst (o : VMemOps) (s : State) : Result := .next (s.vector (.mst o) (formMst o))
def execMsetg (o : MSetgOps) (s : State) : Result := .next (s.vector (.msetg o) (formMsetg o))
def execMcvt (o : VUn) (s : State) : Result := .next (s.vector (.mcvt o) (formMcvt o))

end Sys2Proof.Machine
end

