-- ==== Sys2Proof/Machine/Pontoon.lean ====
section
/-! DEFINITION. Pontoon banks and dendritic mode (R221 to R245). -/

namespace Sys2Proof.Machine

/-! ## Banks (R222) -/

/-- A block of a bank; a block that is not listed is a hole. -/
def Bank.block (b : Bank) (k : Nat) : Nat := (tabGet (BitVec.ofNat 512 holeBlock) b.blocks k).toNat

/-- Writes a block, which is then no longer poisoned. -/
def Bank.put (b : Bank) (k blk : Nat) : Bank :=
  { b with
    blocks := if blk = holeBlock then b.blocks.filter fun p => p.1 != k else tabSet k (BitVec.ofNat 512 blk) b.blocks
    poisoned := b.poisoned.filter fun p => p != k }

/-- Bank `q` of a cluster. -/
def ClusterSt.bank (c : ClusterSt) (q : Nat) : Bank := c.banks.getD q Bank.reset

/-- Replaces a bank. -/
def ClusterSt.setBank (c : ClusterSt) (q : Nat) (b : Bank) : ClusterSt := { c with banks := c.banks.setIfInBounds q b }

/-- The banks that an item names, as a mask (R225). -/
def Item.bankMask (i : Item) : Nat :=
  let b := fieldOf i.bytes 0x13 1
  if i.load then (if b < 8 then 2 ^ b else 0) else b

/-- The configuration slot that a dendritic task names (R228, R237). -/
def Item.slot (i : Item) : Option Nat :=
  if !i.load && (fieldOf i.bytes 0x12 1).testBit 1 then some (fieldOf i.bytes 0x15 1 % 4) else none

/-- Bank `q` is reserved to a launch. -/
def ClusterSt.reservedTo (c : ClusterSt) (q launch : Nat) : Bool := (c.bank q).reserved == some launch

/-! ## The instructions (R224, R227, R237, R243, R244) -/

/-- The launch of the iteration in focus; the root belongs to none. -/
def Strand.launchOf (t : Strand) : Option Nat := if t.iter.work == .launch then some t.iter.launch else none

/-- Adds an item to the cluster's task queue. -/
def State.addItem (s : State) (load : Bool) (a : Word) (bs : List Byte) : State :=
  let k := clusterOf s.cur
  let c := s.cluster k
  let i : Item :=
    { id := s.stamp, load, recAddr := a, bytes := bs, strand := s.cur, ctx := s.st.ctx, iter := s.st.iter.id
      launch := (s.st.launchOf).getD s.stamp, running := false, cancelled := false, again := false }
  (s.withEffects.nextStamp).setCluster k { c with items := c.items ++ [i] }

/-- A `pcfg` for the slot waits at the head of another strand of the cluster; a task that names the slot waits behind
it (R237). -/
def State.pcfgWaits (s : State) (slot : Nat) : Bool :=
  (List.range 32).any fun j =>
    let n := 32 * clusterOf s.cur + j
    n != s.cur &&
      match (s.strand n).queue with
      | e :: _ => (match e.instr with | .pcfg o => o.sel.toNat == slot | _ => false)
      | [] => false

/-- The cluster's queue is full (R225). -/
def State.itemsFull (s : State) : Bool := decide (256 ≤ (s.cluster (clusterOf s.cur)).items.length)

/-- `pload`: the load descriptor enters the task queue. -/
def formPload (o : AOps) : VForm :=
  commandForm o.a o.fa 64 64 fun q bs s => if s.itemsFull then .wait s else .done (s.addItem true q.a bs) []

/-- `penq`: the tile-task record enters the task queue. -/
def formPenq (o : AOps) : VForm :=
  commandForm o.a o.fa 128 128 fun q bs s =>
    let named : Bool := (fieldOf bs 0x12 1).testBit 1 && s.pcfgWaits (fieldOf bs 0x15 1 % 4)
    if s.itemsFull || named then .wait s else .done (s.addItem false q.a bs) []

/-! ## Configurations (R234 to R237) -/

/-- The finite f32 that an encoding is. -/
def finiteF32 (x : Nat) : Bool := x / 2 ^ 23 % 256 != 255

/-- A curve from its 272 bytes, or nothing where it breaks R236. -/
def curveFrom (bs : List Byte) : Option Curve :=
  let x0 := fieldOf bs 0 4
  let wexp := fieldOf bs 4 1
  let w := readInt 8 false wexp
  let segs := (List.range 32).map fun i => (fieldOf bs (0x10 + 8 * i) 4, fieldOf bs (0x14 + 8 * i) 4)
  let hi := (addExact 0 (unpack f32 x0) (.fin false 32 w)).1
  if finiteF32 x0 && decide (-126 ≤ w) && decide (w ≤ 120) && fieldOf bs 5 1 == 1 && zeroField bs 6 10 &&
    (segs.all fun p => finiteF32 p.1 && finiteF32 p.2) && decide (cmpF hi (unpack f32 f32.largest) ≤ 0) then
    some ⟨BitVec.ofNat 32 x0, BitVec.ofNat 8 wexp, segs.map fun p => (BitVec.ofNat 32 p.1, BitVec.ofNat 32 p.2)⟩
  else none

/-- The lowest malformed map entry (R235), from entry `e` on, after one that began at `start` and ended at `stop`. -/
def badEntry (bs : List Byte) (n : Nat) : Nat → Nat → Option (Nat × Nat) → Option Nat
  | 0, _, _ => none
  | k + 1, e, prev =>
    let at_ := 8 * e
    let start := fieldOf bs at_ 2
    let count := fieldOf bs (at_ + 2) 2
    let bad := match prev with
      | none => false
      | some (a, z) => decide (start ≤ a) || decide (start < z)
    if bad || count == 0 || decide (n ≤ fieldOf bs (at_ + 4) 1) || !zeroField bs (at_ + 5) 3 then some e
    else badEntry bs n k (e + 1) (some (start, start + count))

/-- What `pcfg` reads and checks: a code for xd with the configuration where it is 0, or a fault or poison. -/
inductive CfgRead where
  | code (x : Nat)
  | good (c : DendCfg)
  | bad (f : ElemFault)
  | poison (line : Word)

/-- What `pcfg` reads before it checks anything (R237): the map's header, its entries, and the curves. -/
structure CfgBytes where
  header : List Byte := []
  map : List Byte := []
  curves : List (List Byte) := []

/-- Reads on where a read gave its bytes. -/
def ByteRead.andThen (r : ByteRead) (f : List Byte → CfgRead ⊕ CfgBytes) : CfgRead ⊕ CfgBytes :=
  match r with
  | .bad f => .inl (.bad f)
  | .poison line => .inl (.poison line)
  | .bytes bs => f bs

/-- The 272 bytes of each curve from curve `b` on. -/
def State.readCurves (s : State) (q : QEntry) (a : Word) : Nat → Nat → CfgBytes → CfgRead ⊕ CfgBytes
  | 0, _, x => .inr x
  | n + 1, b, x =>
    (s.readBytes q (a + BitVec.ofNat 64 (272 * b)) 272).andThen fun bs =>
      s.readCurves q a n (b + 1) { x with curves := x.curves ++ [bs] }

/-- The map, then the `n` curves: all are read before any is checked. A header with a number of entries outside 1 to 64
has no entries to read. -/
def State.readCfg (s : State) (q : QEntry) (mapAt curvesAt : Word) (n : Nat) : CfgRead ⊕ CfgBytes :=
  (s.readBytes q mapAt 16).andThen fun h =>
    let e := fieldOf h 0 2
    let rest (m : List Byte) : CfgRead ⊕ CfgBytes := s.readCurves q curvesAt n 0 { header := h, map := m }
    if e < 1 ∨ 64 < e then rest [] else (s.readBytes q (mapAt + 16) (8 * e)).andThen rest

/-- The checks of R234 to R236 in the order of R237: the header, the entries, branch ownership, the curves. -/
def checkCfg (ctx : BitVec 12) (n : Nat) (x : CfgBytes) : CfgRead :=
  let e := fieldOf x.header 0 2
  if e < 1 ∨ 64 < e ∨ !zeroField x.header 2 14 then .code 0x04
  else
    match badEntry x.map n e 0 none with
    | some k => .code (0x02 + 256 * k)
    | none =>
      let ranges := (List.range e).map fun k =>
        (fieldOf x.map (8 * k) 2, fieldOf x.map (8 * k + 2) 2, fieldOf x.map (8 * k + 4) 1)
      match (List.range n).find? fun b => !ranges.any fun r => r.2.2 == b with
      | some b => .code (0x05 + 256 * b)
      | none =>
        match (List.range n).find? fun b => (curveFrom (x.curves.getD b [])).isNone with
        | some b => .code (0x03 + 256 * b)
        | none => .good ⟨ctx, n, ranges, x.curves.filterMap curveFrom⟩

/-- Reads everything, then checks it: the block, of which `n` and whether its zero bytes are broken are given, then the
rest (R237). -/
def State.loadCfg (s : State) (q : QEntry) (mapAt curvesAt : Word) (n : Nat) (broken : Bool) : CfgRead :=
  match s.readCfg q mapAt curvesAt n with
  | .inl r => r
  | .inr x => if n < 1 ∨ 16 < n ∨ broken then .code 0x01 else checkCfg s.st.ctx n x

/-- Reads, checks and installs the block whose 64 bytes are given; xd receives the code (R237). A map or curves address
that breaks its alignment is answered with 0x01 and nothing is read there (log 91). -/
def State.installCfg (s : State) (d : Reg) (slot : Nat) (q : QEntry) (bs : List Byte) : VOut :=
  let answer (s : State) (x : Nat) : VOut := .done (s.setX d (BitVec.ofNat 64 x)) []
  let mapAt := wordOfField bs 0
  let curvesAt := wordOfField bs 8
  let n := fieldOf bs 0x10 1
  if mapAt.toNat % 16 ≠ 0 ∨ curvesAt.toNat % 16 ≠ 0 then answer s 0x01
  else
    match s.loadCfg q mapAt curvesAt n (!zeroField bs 0x11 47) with
    | .bad f => .trap s [] f.cause f.va 0
    | .poison line => .poison line
    | .code x => answer s x
    | .good c =>
      let k := clusterOf s.cur
      let cl := s.cluster k
      answer (s.setCluster k { cl with cfgs := cl.cfgs.setIfInBounds slot (some c) }) 0

/-- An item of the cluster, queued or running, names the slot: the gate of R237 is shut. -/
def State.gateShut (s : State) (slot : Nat) : Bool :=
  (s.cluster (clusterOf s.cur)).items.any fun i => i.slot == some slot

/-- `pcfg`: it waits at the gate, then installs. -/
def formPcfg (o : SelOps) : VForm :=
  let f := commandForm o.a o.fa 64 64 fun q bs s => s.installCfg o.d o.sel.toNat q bs
  { f with
    xd := some o.d
    body := fun q lo hi s => if s.gateShut o.sel.toNat then .wait s else f.body q lo hi s }

/-! ## Queries (R244) -/

/-- Items of a cluster that name bank `q` and wait. -/
def ClusterSt.waitingFor (c : ClusterSt) (q : Nat) : Nat :=
  (c.items.filter fun i => !i.running && i.bankMask.testBit q).length

/-- What `pstat` delivers for a query. -/
def pstatWord (c : ClusterSt) (ctx : BitVec 12) (launch : Option Nat) (q : Nat) : Nat :=
  let reserved (k : Nat) : Bool := launch.any fun l => c.reservedTo k l
  if q < 8 then
    let holder := c.items.find? fun i => i.running && i.bankMask.testBit q
    let tag := match holder with
      | some i => fieldOf i.bytes 0x10 2
      | none => 0
    let held := match holder with
      | some i => if i.load then 1 else 2
      | none => 0
    2 ^ 48 * tag + (if (c.bank q).owner == some ctx then 2 ^ 35 else 0) + (if reserved q then 2 ^ 34 else 0) +
      2 ^ 32 * held + c.waitingFor q
  else if q = 8 then
    2 ^ 16 * (c.items.filter fun i => i.running).length + (c.items.filter fun i => !i.running).length
  else ((List.range 8).map fun k => if reserved k then 2 ^ k else 0).sum

/-- `pstat`: a snapshot at retirement. -/
def formPstat (o : PstatOps) : VForm where
  readsVl := false
  rechecks := false
  xd := some o.d
  body := fun _ _ _ s =>
    .done (s.setX o.d
      (BitVec.ofNat 64 (pstatWord (s.cluster (clusterOf s.cur)) s.st.ctx s.st.launchOf o.q.toNat))) []

def execPload (o : AOps) (s : State) : Result := .next (s.vector (.pload o) (formPload o))
def execPenq (o : AOps) (s : State) : Result := .next (s.vector (.penq o) (formPenq o))
def execPcfg (o : SelOps) (s : State) : Result := .next (s.vector (.pcfg o) (formPcfg o))
def execPstat (o : PstatOps) (s : State) : Result := .next (s.vector (.pstat o) (formPstat o))

/-! ## Readiness and dispatch (R225, R229, R240) -/

/-- The record check of a task (R228, R229): 0x01 for a layout breach, 0x03 with the address for one that is not
canonical. Of several that are not, the first in the order abase, cbase, wait, signal, wbase, tbase is reported: no rule
says which (log 58). -/
def taskCheck (bs : List Byte) : Option (Nat × Word) :=
  let mode := fieldOf bs 0x12 1
  let banks := fieldOf bs 0x13 1
  let slots := fieldOf bs 0x14 1
  let cfg := fieldOf bs 0x15 1
  let named := ((List.range 8).filter fun q => banks.testBit q).length
  let rows := fieldOf bs 0x18 2
  let cols := fieldOf bs 0x1A 2
  let dend := mode.testBit 1
  let taps := mode.testBit 3
  let aligned (off n : Nat) : Bool := fieldOf bs off 8 % n == 0
  if !(decide (mode < 16) && (if mode.testBit 0 then named != 0 else named == 1) && decide (1 ≤ slots) &&
      decide (slots ≤ 4) && decide (cfg < 4) && (dend || cfg == 0) && zeroField bs 0x16 2 && decide (1 ≤ rows) &&
      decide (rows ≤ 4096) && decide (1 ≤ cols) && decide (cols ≤ 256) && zeroField bs 0x1C 4 && aligned 0x20 64 &&
      aligned 0x28 64 && aligned 0x30 4 && aligned 0x38 4 && aligned 0x40 8 && aligned 0x50 8 && aligned 0x68 8 &&
      zeroField bs 0x70 8 && (dend || !taps) && (if dend then aligned 0x58 4 else zeroField bs 0x58 8) &&
      (if taps then aligned 0x60 8 else zeroField bs 0x60 8)) then some (0x01, 0)
  else
    (nonCanonical [wordOfField bs 0x20, wordOfField bs 0x30, wordOfField bs 0x40, wordOfField bs 0x50,
      wordOfField bs 0x58, wordOfField bs 0x60]).map fun a => (0x03, a)

/-- A completion that needs no dispatch: a cancelled item, a malformed record, or a dependence word that faults. -/
def State.early (s : State) (i : Item) : Option (Nat × Word) :=
  if i.running then none
  else if i.cancelled then some (0x07, 0)
  else if i.load then none
  else
    match taskCheck i.bytes with
    | some r => some r
    | none =>
      let a := wordOfField i.bytes 0x40
      if a = 0 then none
      else
        match s.engRead i.ctx .any a 8 with
        | .bad _ => some (0x03, a)
        | .poison => some (0x08, 0)
        | .bytes _ => none

/-- A task's dependence is met (R228). -/
def State.depMet (s : State) (i : Item) : Bool :=
  let a := wordOfField i.bytes 0x40
  i.load || a == 0 ||
    match s.engRead i.ctx .any a 8 with
    | .bytes bs => decide (fieldOf i.bytes 0x48 8 ≤ ofBytes bs)
    | _ => false

/-- The descriptor keeps the layout of R226. -/
def loadLayout (bs : List Byte) : Bool :=
  let slots := fieldOf bs 0x15 1
  let cols := fieldOf bs 0x1A 2
  let src := fieldOf bs 0x20 8
  decide (fieldOf bs 0x12 1 ≤ 1) && decide (fieldOf bs 0x13 1 < 8) && decide (fieldOf bs 0x14 1 ≤ 3) &&
    decide (1 ≤ slots) && decide (fieldOf bs 0x14 1 + slots ≤ 4) && decide (fieldOf bs 0x16 1 < 2) &&
    zeroField bs 0x17 1 && zeroField bs 0x1C 4 && decide (1 ≤ cols) && decide (fieldOf bs 0x18 2 + cols ≤ 256) &&
    src % 64 == 0 && fieldOf bs 0x28 8 % 64 == 0 && signalOk bs 0x30 &&
    (fieldOf bs 0x12 1 == 0 || decide (src < 2 ^ 34))

/-- A load with the tide flag begins only where it can finish, at one cycle a block, before the next tide window of its
die's Wharf begins; else it waits until that window has ended (R227, R299). A malformed one reads nothing. -/
def State.tideClear (s : State) (k : Nat) (i : Item) : Bool :=
  let d := s.die (k / 16)
  !i.load || !loadLayout i.bytes || fieldOf i.bytes 0x12 1 != 1 || !(fieldOf i.bytes 0x16 1).testBit 0 ||
    (!d.tideIn && decide (fieldOf i.bytes 0x1A 2 * fieldOf i.bytes 0x15 1 ≤ d.tideNext))

/-- The oldest ready item of cluster `k` that names no bank of a running item or of an older item still waiting. -/
def State.readyItem (s : State) (k running : Nat) : List Item → Nat → Option Item
  | [], _ => none
  | i :: is, older =>
    if i.running then s.readyItem k running is older
    else if (s.early i).isNone && i.bankMask &&& (older ||| running) == 0 && s.depMet i && s.tideClear k i then some i
    else s.readyItem k running is (older ||| i.bankMask)

/-- What the scheduler of a cluster dispatches next: at most eight items run. -/
def State.dispatchable (s : State) (k : Nat) : Option Item :=
  let c := s.cluster k
  let running := c.items.filter fun i => i.running
  if 8 ≤ running.length then none else s.readyItem k (running.foldl (fun m i => m ||| i.bankMask) 0) c.items 0

/-! ## Loads (R226, R227) -/

/-- What an item's work gives: code, flags, fault, the elements written, and the banks after it. -/
structure ItemDone where
  code : Nat
  flags : FFlags := 0
  fault : Word := 0
  elems : List (List EngWrite) := []
  banks : Option (Nat × Bank) := none

/-- One source block: its contents, or nothing where it is poisoned, or a fault (code and address). -/
def State.sourceBlock (s : State) (i : Item) (die : Nat) (a : Word) : Except (Nat × Word) (Option Nat) :=
  let check (b : Nat) : Except (Nat × Word) (Option Nat) :=
    if legalFormat (blockFormat b) then .ok (some (cleanBlock b)) else .error (0x02, a)
  if fieldOf i.bytes 0x12 1 = 0 then
    match s.engRead i.ctx .described a 64 with
    | .bad _ => .error (0x03, a)
    | .poison => .ok none
    | .bytes bs => check (ofBytes bs)
  else
    let off := a.toNat
    if 2 ^ 34 < off + 64 ∨ !s.wharfOwned i.ctx die off 64 then .error (0x03, a)
    else
      match s.wharfRead die off with
      | none => .ok none
      | some bs => check (ofBytes bs)

/-- Every named block: key and contents, or the first fault. That blocks are taken column by column, slots innermost, and
that a fault is reported before poison is no rule's (log 58). -/
def State.sourceBlocks (s : State) (i : Item) (die : Nat) : List (Nat × Word) → Except (Nat × Word) (List (Nat × Option Nat))
  | [] => .ok []
  | (key, a) :: rest =>
    match s.sourceBlock i die a with
    | .error e => .error e
    | .ok b =>
      match s.sourceBlocks i die rest with
      | .error e => .error e
      | .ok bs => .ok ((key, b) :: bs)

/-- The work of a load on cluster `k`. The order of its checks where two apply is no rule's: the layout, an address that
is not canonical (signal before src), the bank's reservation, then the blocks (log 58). -/
def State.runLoad (s : State) (k : Nat) (i : Item) : ItemDone :=
  let bs := i.bytes
  let q := fieldOf bs 0x13 1
  let slot0 := fieldOf bs 0x14 1
  let slots := fieldOf bs 0x15 1
  let src := wordOfField bs 0x20
  if !loadLayout bs then { code := 0x01 }
  else
    match nonCanonical ([wordOfField bs 0x30] ++ if fieldOf bs 0x12 1 = 0 then [src] else []) with
    | some a => { code := 0x03, fault := a }
    | none =>
      if !(s.cluster k).reservedTo q i.launch then { code := 0x06 }
      else
        let cells := (List.range (fieldOf bs 0x1A 2)).flatMap fun c => (List.range slots).map fun j =>
          (4 * (fieldOf bs 0x18 2 + c) + slot0 + j, src + BitVec.ofNat 64 c * wordOfField bs 0x28 + BitVec.ofNat 64 (64 * j))
        match s.sourceBlocks i (k / 16) cells with
        | .error (code, a) => { code, fault := a }
        | .ok bks =>
          let failed := bks.any fun p => p.2.isNone
          let kept := (bks.mapIdx fun n p => (n, p)).filter fun x =>
            !failed || x.2.2.isNone || !Config.keepOld s.freeCount x.1
          let b := kept.foldl (fun (b : Bank) x =>
            match x.2.2 with
            | some blk => b.put x.2.1 blk
            | none => { b with poisoned := x.2.1 :: b.poisoned }) { (s.cluster k).bank q with owner := some i.ctx }
          { code := if failed then 0x08 else 0, banks := some (q, b) }

/-! ## Tasks (R228 to R239) -/

/-- An element of A or B: its scale, or none where it lies in a zero block or a hole; and its mantissa. -/
abbrev Mant := Option Int × Int

/-- The elements of a block; `w` is the width that a hole takes. -/
def blockMants (w blk : Nat) : List Mant :=
  let b := if blockFormat blk == 0xFF then w else blockFormat blk
  if blockIsZero blk then List.replicate (blockElems b) (none, 0)
  else (List.range (blockElems b)).map fun i => (some (blockScale blk), blockMant b blk i)

/-- A row of A as far as it was read: its elements; poisoned; or a fault (R230). -/
inductive ARow where
  | row (l : List Mant)
  | poisoned
  | bad (code : Nat) (a : Word)

/-- Blocks from address `a` on until `need` elements are covered; `prev` is the width of the row's previous block. -/
def State.aRow (s : State) (ctx : BitVec 12) : Nat → Word → Nat → Nat → List Mant → ARow
  | 0, _, _, _, acc => .row acc
  | n + 1, a, need, prev, acc =>
    if need = 0 then .row acc
    else
      match s.engRead ctx .described a 64 with
      | .bad _ => .bad 0x03 a
      | .poison => .poisoned
      | .bytes bs =>
        let blk := ofBytes bs
        if !legalFormat (blockFormat blk) then .bad 0x02 a
        else
          let w := if blockFormat blk == 0xFF then prev else blockFormat blk
          let l := (blockMants prev blk).take need
          s.aRow ctx n (a + 64) (need - l.length) w (acc ++ l)

/-- The width of a bank slot over the used columns: nothing where two columns differ (R229), and `some none` where every
one of them is a hole. A poisoned block counts with the format that it held: no rule says which width it has (DESIGN
CHOICE, log 103). -/
def slotWidth (b : Bank) (cols slot : Nat) : Option (Option Nat) :=
  let ws := ((List.range cols).map fun c => blockFormat (b.block (4 * c + slot))).filter fun w => w != 0xFF
  match ws with
  | [] => some none
  | w :: l => if l.all fun x => x == w then some (some w) else none

/-- A run (R231). -/
structure SumRun where
  branch : Nat
  ea : Int
  eb : Int
  sum : Int

/-- The runs of positions in increasing k: each position carries a branch and its elements. -/
def runsFrom : List (Option Nat × Mant × Mant) → Option SumRun → List SumRun
  | [], none => []
  | [], some r => [r]
  | (br, a, b) :: rest, cur =>
    match br, a.1, b.1 with
    | some n, some ea, some eb =>
      let p := a.2 * b.2
      match cur with
      | none => runsFrom rest (some ⟨n, ea, eb, p⟩)
      | some r =>
        if r.branch = n ∧ r.ea = ea ∧ r.eb = eb then runsFrom rest (some { r with sum := r.sum + p })
        else r :: runsFrom rest (some ⟨n, ea, eb, p⟩)
    | _, _, _ => runsFrom rest cur

/-- Adds a run, rounded once to nearest even (R232). -/
def addRun (y : Nat × FFlags) (r : SumRun) : Nat × FFlags :=
  let z := addF f32 0 false (unpack f32 y.1) (finOf false r.sum (r.ea + r.eb))
  (z.1, y.2 ||| z.2)

/-- curve(b, s) of R238: f, g and the flags of f. -/
def Curve.eval (c : Curve) (sv : Nat) : Nat × Nat × FFlags :=
  let v := unpack f32 sv
  let w := readInt 8 false c.wexp.toNat
  let lo := unpack f32 c.x0.toNat
  let hi := (addExact 0 lo (.fin false 32 w)).1
  if v.isNan then (f32.nan, f32.nan, 0)
  else
    let below := decide (cmpF v lo < 0)
    let above := decide (0 < cmpF v hi)
    let t := if below then lo else if above then hi else v
    let i := match (addExact 0 t lo.neg).1 with
      | .fin false m e => if 0 ≤ e - w then m * 2 ^ (e - w).toNat else m / 2 ^ (w - e).toNat
      | _ => 0
    let seg := c.segs.getD (Nat.min 31 i) (0, 0)
    let r := fmaF f32 0 false (unpack f32 seg.2.toNat) (unpack f32 seg.1.toNat) t
    (r.1, if below || above then 0 else seg.1.toNat, r.2)

/-- What a task needs of its record. -/
structure Task where
  mode : Nat
  banks : List Nat
  slots : Nat
  rows : Nat
  cols : Nat
  abase : Word
  astride : Word
  cbase : Word
  cstride : Word
  wbase : Word
  tbase : Word
  tstride : Word
  /-- rows of A that stand poisoned in the row buffer (R352) -/
  badRows : List Nat := []

/-- The fields of a record (R228). -/
def taskOf (bs : List Byte) : Task where
  mode := fieldOf bs 0x12 1
  banks := (List.range 8).filter fun q => (fieldOf bs 0x13 1).testBit q
  slots := fieldOf bs 0x14 1
  rows := fieldOf bs 0x18 2
  cols := fieldOf bs 0x1A 2
  abase := wordOfField bs 0x20
  astride := wordOfField bs 0x28
  cbase := wordOfField bs 0x30
  cstride := wordOfField bs 0x38
  wbase := wordOfField bs 0x58
  tbase := wordOfField bs 0x60
  tstride := wordOfField bs 0x68

/-- The branch of position k: 0 in a plain task (R231, R235). -/
def branchAt (cfg : Option DendCfg) (k : Nat) : Option Nat :=
  match cfg with
  | none => some 0
  | some c => (c.ranges.find? fun r => decide (r.1 ≤ k) && decide (k < r.1 + r.2.1)).map fun r => r.2.2

/-- The width that slot `j` has for holes: the one that columns of the task hold in it, in any of its banks (the first
of them where banks differ; log 90), or 8 where every column that the task uses is a hole (R222). -/
def holeWidth (bs : List (Bank × List (Option Nat))) (j : Nat) : Nat :=
  (bs.findSome? fun p => p.2.getD j none).getD 8

/-- The banks of a task with the widths of their used slots, and K: nothing where the slot formats break R229. -/
def ClusterSt.taskBanks (c : ClusterSt) (t : Task) : Option (List (Bank × List Nat) × Nat) :=
  match t.banks.mapM fun q => ((List.range t.slots).mapM fun j => slotWidth (c.bank q) t.cols j).map fun ws =>
      (c.bank q, ws) with
  | none => none
  | some held =>
    let bs := held.map fun p => (p.1, p.2.mapIdx fun j w => w.getD (holeWidth held j))
    let ks := bs.map fun p => (p.2.map blockElems).sum
    let kk := ks.headD 0
    if ks.all fun x => x == kk then some (bs, kk) else none

/-- The checks of R229 after the record's, in their order: a status, 0 where the task runs. -/
def State.taskVerdict (s : State) (k : Nat) (i : Item) : Nat :=
  let c := s.cluster k
  let t := taskOf i.bytes
  let foreign (q : Nat) : Bool := !c.reservedTo q i.launch || (c.bank q).owner.any fun o => o != i.ctx
  if t.banks.any foreign then 0x06
  else
    match c.taskBanks t with
    | none => 0x04
    | some bs =>
      match t.mode.testBit 1, c.cfgs.getD (fieldOf i.bytes 0x15 1) none with
      | false, _ => 0
      | true, none => 0x05
      | true, some g =>
        if g.ctx ≠ i.ctx then 0x05
        else if t.mode.testBit 3 && decide (t.tstride.toNat < 8 * g.branches * (t.cols * bs.1.length)) then 0x01
        else 0

/-- The scheduler of cluster `args.k` dispatches its oldest ready item; a task is checked then (R229). -/
def execPontoonDispatch (s : State) : Result :=
  .next (match s.dispatchable s.args.k with
    | none => s
    | some i =>
      let c := s.cluster s.args.k
      let verdict := if i.load then 0 else s.taskVerdict s.args.k i
      s.setCluster s.args.k { c with
        items := c.items.map fun j => if j.id == i.id then { j with running := true, verdict } else j })

/-- A task under way: memory as its writes so far leave it, its destination elements of 4 bytes in the order of their
writes, the flags, and the first failure (code and address). -/
structure TaskRun where
  mem : State
  /-- the die of the cluster -/
  die : Nat
  elems : List (List EngWrite) := []
  flags : FFlags := 0
  fault : Option (Nat × Word) := none

/-- Notes a failure: the first is kept. -/
def TaskRun.fail (x : TaskRun) (code : Nat) (a : Word) : TaskRun := { x with fault := x.fault.or (some (code, a)) }

/-- Notes the consumption of poison (R242), where there is any. -/
def TaskRun.noting (x : TaskRun) (bad : Bool) : TaskRun := if bad then x.fail 0x08 0 else x

/-- Raises flags. -/
def TaskRun.raise (x : TaskRun) (f : FFlags) : TaskRun := { x with flags := x.flags ||| f }

/-- Writes an element of C or of the taps (R239, R242); one that depends on poison is none. -/
def TaskRun.put (x : TaskRun) (ctx : BitVec 12) (a : Word) (v : Option Nat) : TaskRun :=
  match x.mem.engPlace ctx .write .plain a with
  | none => x.fail 0x03 a
  | some p =>
    let w : EngWrite := ⟨a, p, bytesOf 4 (v.getD 0), v.isNone⟩
    { x with mem := x.mem.engWrites x.die ctx [w], elems := x.elems ++ [[w]] }

/-- A word of C or of the weights as the task's own writes leave it (R239). -/
def TaskRun.word (x : TaskRun) (ctx : BitVec 12) (a : Word) : EngRead := x.mem.engRead ctx .plain a 4

/-- The loop of R238 over the branches from `b` on of element (i, J): the taps, then the weight, then y. It ends where a
weight faults; y is none where it depends on poison. -/
def TaskRun.branches (ctx : BitVec 12) (t : Task) (g : DendCfg) (ntot i j : Nat) (runs : Option (List SumRun)) :
    Nat → Nat → Option Nat → TaskRun → TaskRun × Option (Option Nat)
  | 0, _, y, x => (x, some y)
  | n + 1, b, y, x =>
    let sum := runs.map fun rs => (rs.filter fun r => r.branch == b).foldl addRun (0, 0)
    let cv := sum.map fun v => (g.curves.getD b ⟨0, 0, []⟩).eval v.1
    let ta := t.tbase + BitVec.ofNat 64 i * t.tstride + BitVec.ofNat 64 (8 * (g.branches * j + b))
    let x := if t.mode.testBit 3 then (x.put ctx ta (sum.map Prod.fst)).put ctx (ta + 4) (cv.map fun c => c.2.1) else x
    match x.word ctx (t.wbase + BitVec.ofNat 64 (4 * (b * ntot + j))) with
    | .bad a => (x.fail 0x03 a, none)
    | w =>
      let x := x.noting w.value.isNone
      match y, sum, cv, w.value with
      | some y, some v, some c, some w =>
        let z := fmaF f32 0 false (unpack f32 y) (unpack f32 w) (unpack f32 c.1)
        TaskRun.branches ctx t g ntot i j runs n (b + 1) (some z.1) (x.raise (v.2 ||| c.2.2 ||| z.2))
      | _, _, _, _ => TaskRun.branches ctx t g ntot i j runs n (b + 1) none x

/-- Element (i, J) of a task, with K positions and column `col` of B, in the order of R232 and R238: C is read, then
row i of A, and C is written last. -/
def TaskRun.element (x : TaskRun) (ctx : BitVec 12) (t : Task) (cfg : Option DendCfg) (kk ntot i j : Nat)
    (col : Option (List Mant)) : TaskRun :=
  let ca := t.cbase + BitVec.ofNat 64 i * t.cstride + BitVec.ofNat 64 (4 * j)
  match if t.mode.testBit 2 then x.word ctx ca else .bytes [0, 0, 0, 0] with
  | .bad a => x.fail 0x03 a
  | y =>
    let x := x.noting y.value.isNone
    match if t.badRows.contains i then .poisoned else x.mem.aRow ctx 17 (t.abase + BitVec.ofNat 64 i * t.astride) kk 8 [] with
    | .bad code a => x.fail code a
    | row =>
      let runs := match row, col with
        | .row l, some cl => some (runsFrom ((l.zip cl).mapIdx fun k p => (branchAt cfg k, p.1, p.2)) none)
        | _, _ => none
      let x := x.noting runs.isNone
      match cfg with
      | none =>
        match y.value, runs with
        | some y, some rs =>
          let z := rs.foldl addRun (y, 0)
          (x.put ctx ca (some z.1)).raise z.2
        | _, _ => x.put ctx ca none
      | some g =>
        match TaskRun.branches ctx t g ntot i j runs g.branches 0 y.value x with
        | (x, some z) => x.put ctx ca z
        | (x, none) => x

/-- A column of B over the used slots; nothing where a block is poisoned. -/
def bankColumn (b : Bank) (ws : List Nat) (c : Nat) : Option (List Mant) :=
  if (List.range ws.length).any fun k => b.poisoned.contains (4 * c + k) then none
  else some ((ws.mapIdx fun k w => blockMants w (b.block (4 * c + k))).flatten)

/-- The work of a task on cluster `k` whose checks passed: the loop of R232 over banks, columns and rows, each element
reading memory as the earlier ones left it. That a task which stops at a fault may have written any other element is
R242's; its flags are free among those that its elements raise (R241; log 13). -/
def State.runTask (s : State) (k : Nat) (i : Item) : ItemDone :=
  let t := { taskOf i.bytes with badRows := i.badRows }
  match (s.cluster k).taskBanks t with
  | none => { code := 0x04 }
  | some (bs, kk) =>
    let cfg := if t.mode.testBit 1 then (s.cluster k).cfgs.getD (fieldOf i.bytes 0x15 1) none else none
    let cells := (bs.mapIdx fun q b => (q, b)).flatMap fun qb => (List.range t.cols).flatMap fun c =>
      (List.range t.rows).map fun r => (r, qb.1 * t.cols + c, bankColumn qb.2.1 qb.2.2 c)
    let x := cells.foldl (fun (x : TaskRun) e => x.element i.ctx t cfg kk (t.cols * bs.length) e.1 e.2.1 e.2.2) { mem := s, die := k / 16 }
    match x.fault with
    | some (code, a) => { code, flags := s.failFlags &&& x.flags, fault := a, elems := x.elems }
    | none => { code := 0, flags := x.flags, elems := x.elems }

/-! ## Completion (R240, R242, R245, R352) -/

/-- A Wharf load stalls while its die's tide window is open (R227, R299). -/
def State.stalled (s : State) (k : Nat) (i : Item) : Bool :=
  i.load && fieldOf i.bytes 0x12 1 == 1 && (s.die (k / 16)).tideIn

/-- What the item's work gives, where it can complete now: a task that failed a check at its dispatch writes nothing. -/
def State.itemResult (s : State) (k : Nat) (i : Item) : Option ItemDone :=
  match s.early i with
  | some (code, a) => some { code, fault := a }
  | none =>
    if !i.running || s.stalled k i then none
    else some (if i.load then s.runLoad k i else if i.verdict ≠ 0 then { code := i.verdict } else s.runTask k i)

/-- The completion of an item. -/
def Item.completion (i : Item) (k code : Nat) (flags : FFlags) (fault : Word) : Completion where
  id := i.id
  die := k / 16
  ctx := i.ctx
  iter := i.iter
  desc := i.recAddr
  pendBytes := 8
  faultAt := if i.load then 0x38 else 0x78
  user := BitVec.ofNat 32 (fieldOf i.bytes 0x0C 4)
  tag := BitVec.ofNat 16 (fieldOf i.bytes 0x10 2)
  source := if i.load then 5 else 6
  signal := wordOfField i.bytes (if i.load then 0x30 else 0x50)
  status := statusWord code flags
  fault := fault

/-- A task is dispatched a second time: one that does not accumulate and ends with 0x08 only because of a row buffer
(R352; log 100). -/
def State.dispatchesAgain (s : State) (k : Nat) (i : Item) (code : Nat) : Bool :=
  code == 0x08 && i.running && !i.load && !i.again && !(fieldOf i.bytes 0x12 1).testBit 2 && !i.badRows.isEmpty &&
    (s.runTask k { i with badRows := [] }).code != 0x08

/-- It goes back to the queue with its snapshot record. The consumption is counted. -/
def State.againItem (s : State) (k : Nat) (i : Item) : State :=
  let c := s.cluster k
  (s.countPoisonOn (k / 16)).setCluster k { c with
    items := c.items.map fun j => if j.id == i.id then { j with running := false, again := true, verdict := 0, badRows := [] } else j }

/-- Item `i` of cluster `k` completes: writes, record, signal, and its event is on its way. -/
def State.completeItem (s : State) (k : Nat) (i : Item) : Option State :=
  (s.itemResult k i).map fun r =>
    if s.dispatchesAgain k i r.code then s.againItem k i
    else
      let c := match r.banks with
        | some (q, b) => (s.cluster k).setBank q b
        | none => s.cluster k
      let s := s.setCluster k { c with items := c.items.filter fun j => j.id != i.id }
      let s := if r.code = 0 then s.engWrites (k / 16) i.ctx r.elems.flatten
        else s.someWrites (k / 16) i.ctx r.code r.elems
      s.finish (i.completion k r.code r.flags r.fault)

/-- Item `args.j` of cluster `args.k` completes; where it has, its event arrives. -/
def execPontoonItemComplete (s : State) : Result :=
  .next (match (s.cluster s.args.k).items.find? fun i => i.id == s.args.j with
    | none => (s.arriveEvent s.args.j).getD s
    | some i => (s.completeItem s.args.k i).getD s)

end Sys2Proof.Machine
end

