-- ==== Sys2Proof/Machine/Rays.lean ====
section
/-! DEFINITION. Ray instructions (R276 to R278). -/

namespace Sys2Proof.Machine

/-- Exact sums, differences and products, extended to infinities; a NaN stands for no value. -/
def xadd (a b : FVal) : FVal := (addExact 0 a b).1
def xsub (a b : FVal) : FVal := xadd a b.neg
def xmul (a b : FVal) : FVal := (mulExact a b).1

/-- a ≤ b, for values that are no NaN. -/
def xle (a b : FVal) : Bool := decide (cmpF a b ≤ 0)
def xmin (a b : FVal) : FVal := if xle a b then a else b
def xmax (a b : FVal) : FVal := if xle a b then b else a

/-- A vector with three components. -/
abbrev V3 := FVal × FVal × FVal

def vsub3 (a b : V3) : V3 := (xsub a.1 b.1, xsub a.2.1 b.2.1, xsub a.2.2 b.2.2)
def dot3 (a b : V3) : FVal := xadd (xadd (xmul a.1 b.1) (xmul a.2.1 b.2.1)) (xmul a.2.2 b.2.2)
def cross3 (a b : V3) : V3 :=
  (xsub (xmul a.2.1 b.2.2) (xmul a.2.2 b.2.1), xsub (xmul a.2.2 b.1) (xmul a.1 b.2.2),
    xsub (xmul a.1 b.2.1) (xmul a.2.1 b.1))

/-- A ray: origin, direction or its inverse, tmin, tmax. -/
structure Ray where
  o : V3
  d : V3
  tmin : FVal
  tmax : FVal

/-- Ray e of the group (R276). -/
def State.ray (s : State) (a : Reg) (e : Nat) : Ray :=
  let x (k : Nat) : FVal := unpack f32 (s.elem (regAt a k) 32 e)
  ⟨(x 0, x 1, x 2), (x 3, x 4, x 5), x 6, x 7⟩

/-- Components of vb from element `k` on. -/
def State.triple (s : State) (b : Reg) (k : Nat) : V3 :=
  let x (j : Nat) : FVal := unpack f32 (s.elem b 32 (k + j))
  (x 0, x 1, x 2)

def all3 (p : FVal → Bool) (v : V3) : Bool := p v.1 && p v.2.1 && p v.2.2
def isNum (v : FVal) : Bool := !v.isNan
def isFinite (v : FVal) : Bool :=
  match v with
  | .fin _ _ _ => true
  | _ => false

/-- The inputs make no miss by themselves: no NaN and a finite origin (R276). -/
def Ray.sound (r : Ray) : Bool := all3 isFinite r.o && all3 isNum r.d && isNum r.tmin && isNum r.tmax

/-- One axis of `vbox`: the interval narrows; nothing where a product is ∞ × 0. -/
def slab (lo hi o i bmin bmax : FVal) : Option (FVal × FVal) :=
  match i with
  | .inf _ => if xle bmin o && xle o bmax then some (lo, hi) else some (.inf false, .inf true)
  | _ =>
    let p := xmul (xsub bmin o) i
    let q := xmul (xsub bmax o) i
    if p.isNan || q.isNan then none else some (xmax lo (xmin p q), xmin hi (xmax p q))

/-- The entry distance of a ray into a box, or a miss (R277). -/
def boxHit (r : Ray) (bmin bmax : V3) : Option FVal :=
  if !r.sound || !all3 isNum bmin || !all3 isNum bmax then none
  else if !(xle bmin.1 bmax.1 && xle bmin.2.1 bmax.2.1 && xle bmin.2.2 bmax.2.2) then none
  else
    match slab r.tmin r.tmax r.o.1 r.d.1 bmin.1 bmax.1 with
    | none => none
    | some x =>
      match slab x.1 x.2 r.o.2.1 r.d.2.1 bmin.2.1 bmax.2.1 with
      | none => none
      | some y =>
        match slab y.1 y.2 r.o.2.2 r.d.2.2 bmin.2.2 bmax.2.2 with
        | none => none
        | some z => if xle z.1 z.2 then some z.1 else none

/-- n / d ≤ x for a finite d above 0. -/
def quotLe (n d x : FVal) : Bool := xle n (xmul x d)

/-- n / d rounded to nearest even into f32: a quotient that underflows keeps its sign (R63, R66). -/
def rayQuotient (n d : FVal) : Nat :=
  match n, d with
  | .fin s m e, .fin t k g =>
    if m == 0 || k == 0 then 0
    else
      let sh := f32.frac + 4 + bitLen k
      (roundMag f32 0 false (s != t) (m * 2 ^ sh / k) (e - g - sh) (m * 2 ^ sh % k != 0)).1
  | _, _ => 0

/-- The distance at which a ray meets a triangle, as a numerator over a denominator above 0, or a miss (R278). -/
def triHit (r : Ray) (p0 p1 p2 : V3) : Option (FVal × FVal) :=
  if !r.sound || !all3 isFinite r.d || !all3 isFinite p0 || !all3 isFinite p1 || !all3 isFinite p2 then none
  else
    let e1 := vsub3 p1 p0
    let e2 := vsub3 p2 p0
    let w := vsub3 r.o p0
    let pv := cross3 r.d e2
    let det := dot3 e1 pv
    if det.isZero then none
    else
      let flip (x : FVal) : FVal := if det.sign then x.neg else x
      let dd := flip det
      let qv := cross3 w e1
      let u := flip (dot3 w pv)
      let v := flip (dot3 r.d qv)
      let t := flip (dot3 e2 qv)
      let zero : FVal := .fin false 0 0
      if xle zero u && xle zero v && xle (xadd u v) dd && xle (xmul r.tmin dd) t && quotLe t dd r.tmax then some (t, dd)
      else none

/-- The delivered encoding of a distance: its rounding, or a zero of a free sign where the distance is exactly 0 (log
30). -/
def rayDelivered (s : State) (e : Nat) (exact : FVal) (rounded : Nat) : Nat :=
  if exact.isZero then withSign f32 (Config.zeroSign (s.freeCount * 2048 + e)) 0 else rounded

/-- The frame of the ray instructions: vd element e and bit e of `vm` (R276); `f` gives a hit's encoding.
`shape` components of vb describe the box or the triangle. -/
def rayForm (o : RayOps) (shape : Nat) (f : State → Nat → Option Nat) : VForm where
  vs := ((List.range 8).map fun k => (regAt o.a k, o.fa)) ++ [(o.b, o.fb)]
  vd := [o.d]
  limit := fun _ => some 512
  legal := groupFits o.a 8
  grain := beatOf 32
  uses := fun s _ =>
    ((List.range 8).map fun k => laneUse (regAt o.a k) 32 0 (s.st.on o.m)) ++ [wholeUse o.b (32 * shape) 0 (s.st.on o.m)]
  body := fun _ lo hi s =>
    let g (e : Nat) : Option (Nat × FFlags) :=
      if s.st.on o.m e then
        some (match f s e with
          | some x => (x, 0)
          | none => (f32.infinity, 0))
      else none
    let h (e : Nat) : Option (Bool × FFlags) := if s.st.on o.m e then some ((f s e).isSome, 0) else none
    let vm := (maskLanes h (hi - lo) lo s.st.vm).1
    match s.lanesTo o.d 32 lo hi g with
    | .done t fs => .done (t.upd fun u => { u with vm := vm }) fs
    | r => r

/-- `vbox`: the entry is rounded down. -/
def formVbox (o : RayOps) : VForm :=
  rayForm o 6 fun s e =>
    (boxHit (s.ray o.a e) (s.triple o.b 0) (s.triple o.b 3)).map fun lo =>
      rayDelivered s e lo (roundF f32 2 false lo).1

/-- `vtri`: the distance is rounded to nearest even. -/
def formVtri (o : RayOps) : VForm :=
  rayForm o 9 fun s e =>
    (triHit (s.ray o.a e) (s.triple o.b 0) (s.triple o.b 3) (s.triple o.b 6)).map fun t =>
      rayDelivered s e t.1 (rayQuotient t.1 t.2)

def execVbox (o : RayOps) (s : State) : Result := .next (s.vector (.vbox o) (formVbox o))
def execVtri (o : RayOps) (s : State) : Result := .next (s.vector (.vtri o) (formVtri o))

end Sys2Proof.Machine
end

