-- ==== Sys2Proof/Machine/Streams.lean ====
section
/-! DEFINITION. Binding, unbinding and observing streams, and the steps of the stream units (R176 to R179). -/

namespace Sys2Proof.Machine

/-- The loaded codebook of a slot of the strand's core (R180). -/
def State.codebook (s : State) (slot : BitVec 2) : Option Codebook := (s.core (coreOf s.cur)).codebooks[slot.toFin]

/-- The registers that a stream can be bound to (R177). -/
def streamReg (r : Reg) : Bool := decide (24 ≤ r.toNat)

/-- The stream that a descriptor describes, or nothing where it breaks a rule of R176. -/
def State.streamFrom (s : State) (desc : Word) (bs : List Byte) : Option Stream :=
  let count (k : Nat) : Nat := fieldOf bs (0x08 + 4 * k) 4
  let stride (k : Nat) : Word := wordOfField bs (0x18 + 8 * k)
  let widthByte := fieldOf bs 0x38 1
  let mode := fieldOf bs 0x39 1
  let width : BitVec 2 := BitVec.ofNat 2 widthByte
  let slot : BitVec 2 := BitVec.ofNat 2 (mode / 4)
  let b : Stream :=
    { desc, base := wordOfField bs 0, counts := (count 0, count 1, count 2, count 3)
      strides := (stride 0, stride 1, stride 2, stride 3), width, output := mode.testBit 0
      codebook := mode.testBit 1, slot, strip := fieldOf bs 0x3A 2, pos := 0, buf := [] }
  let slotOk := match s.codebook slot with
    | some k => k.etype == width
    | none => false
  if decide (1 ≤ b.total) && decide (b.total ≤ 2 ^ 32) && decide (widthByte < 4) && decide (mode < 16) &&
    decide (1 ≤ b.strip) && decide (b.strip ≤ vlmaxOf (intWidth width)) && fieldOf bs 0x3C 4 == 0 &&
    (!b.codebook || (!b.output && slotOk)) then some b
  else none

/-- Stream units that a strand holds: its bindings, or what its launch reserves (R177, R258). -/
def Strand.streamUnits (t : Strand) : Nat := Nat.max t.streams.length t.iter.streams

/-- Whether a core has a stream unit for one more binding of the strand in focus: 16 to a core (R177). -/
def State.unitFree (s : State) : Bool :=
  let core := coreOf s.cur
  let others := ((List.range 4).map fun k =>
    let n := 4 * core + k
    if n == s.cur then 0 else (s.strand n).streamUnits).sum +
    ((s.saved.filter fun v => coreOf v.home == core).map fun v => v.strand.iter.streams).sum
  decide (s.st.streams.length < s.st.iter.streams) || decide (others + s.st.streamUnits < 16)

/-- Unbinds a register: it becomes zero and full (R177). Its written strips are drained before. -/
def State.unbind (s : State) (r : Reg) : State :=
  s.upd fun t =>
    let t := ((t.vput r 0).dirty r.toNat).vclean r
    { t with vfull := setReg t.vfull r true, streams := t.streams.filter fun p => p.1 != r.toNat }

/-- A register's written strips are all in memory. -/
def Strand.drained (t : Strand) (r : Reg) : Bool :=
  match t.streamOf r with
  | none => true
  | some b => !b.output || b.buf.isEmpty

/-- The frame of the strm instructions: unit instructions that do not read `vl` (R167). -/
def strmForm (n : Reg) (body : QEntry → State → VOut) : VForm where
  readsVl := false
  legal := streamReg n
  rechecks := false
  body := fun q _ _ s => body q s

/-- `sbind`: a bound register is first unbound; the descriptor is read through the strand's load path. A descriptor
that is not 64-byte aligned breaks R176 (DEDUCED; log 26). Where the descriptor cannot be read or breaks R176, a bound
register keeps its binding: a unit instruction that traps has no effect (R144, R167). -/
def formSbind (o : XUn) : VForm :=
  { strmForm o.d fun q s =>
      if !s.st.drained o.d then .wait s
      else
        match s.afterOlder q with
        | none => .wait s
        | some s =>
          if q.a.toNat % 64 != 0 && canonical q.a then .trap s [] 0x15 q.a 0
          else
            match s.readBytes q q.a 64 with
            | .bad f => .trap s [] f.cause f.va 0
            | .poison line => .poison line
            | .bytes bs =>
              match s.streamFrom q.a bs with
              | none => .trap s [] 0x15 q.a 0
              | some b =>
                let s := if (s.st.streamOf o.d).isSome then s.unbind o.d else s
                if !s.unitFree then .wait s
                else .done (s.upd fun t => { t with streams := t.streams ++ [(o.d.toNat, b)] }) [] with
    xa := some (o.a, o.fa)
    tags := fun _ _ _ => some [(o.d, 0)] }

def formSunbind (n : Reg) : VForm :=
  { strmForm n fun _ s => if !s.st.drained n then .wait s else .done (s.unbind n) [] with
    tags := fun _ _ _ => some [(n, 0)] }

/-- `sdrain` waits until the unit has no access outstanding. -/
def formSdrain (n : Reg) : VForm := strmForm n fun _ s => if !s.st.drained n then .wait s else .done s []

/-- What `sstat` delivers: elements not yet popped or written, the direction, and whether vN is bound. -/
def streamStatus (b : Option Stream) : Word :=
  match b with
  | none => 0
  | some b => BitVec.ofNat 64 ((b.total - b.pos) % 2 ^ 40 + (if b.output then 2 ^ 62 else 0) + 2 ^ 63)

def formSstat (o : DA) : VForm :=
  { strmForm o.a fun _ s => .done (s.setX o.d (streamStatus (s.st.streamOf o.a))) [] with
    xd := some o.d }

def execSbind (o : XUn) (s : State) : Result := .next (s.vector (.sbind o) (formSbind o))
def execSunbind (n : Reg) (s : State) : Result := .next (s.vector (.sunbind n) (formSunbind n))
def execSdrain (n : Reg) (s : State) : Result := .next (s.vector (.sdrain n) (formSdrain n))
def execSstat (o : DA) (s : State) : Result := .next (s.vector (.sstat o) (formSstat o))

/-- The stream unit of register `args.reg` fetches a strip ahead (R178). -/
def execStreamStripFetch (s : State) : Result := .next (s.fetchStrip s.args.reg)

/-- The stream unit of register `args.reg` writes its oldest strip (R178). -/
def execStreamStripDrain (s : State) : Result := .next (s.drainStrip s.args.reg)

/-! ## The transform unit and codebooks (R180, R181) -/

/-- The codebook that 16 bytes describe, or nothing where they break the layout of R180: index width, entry type and
count. -/
def codebookHead (bs : List Byte) : Option (Nat × BitVec 2 × Nat) :=
  let iw := fieldOf bs 0 1
  let etype := fieldOf bs 1 1
  let count := fieldOf bs 2 2
  if 1 ≤ iw ∧ iw ≤ 8 ∧ etype ≤ 2 ∧ 1 ≤ count ∧ count ≤ 2 ^ iw ∧ fieldOf bs 4 12 = 0 then
    some (iw, BitVec.ofNat 2 etype, count)
  else none

/-- Packed entries of `size` bytes. -/
def entriesOf (size : Nat) : Nat → List Byte → List Nat
  | 0, _ => []
  | n + 1, bs => ofBytes (bs.take size) :: entriesOf size n (bs.drop size)

/-- A started `vxf` of another strand of the core uses the slot (R180). -/
def State.slotBusy (s : State) (slot : BitVec 2) : Bool :=
  (List.range 4).any fun k =>
    let n := 4 * coreOf s.cur + k
    n != s.cur && (s.strand n).cbsel == slot && (s.strand n).queue.any fun e =>
      e.started && (match e.instr with | .vxf _ => true | _ => false)

/-- `cbload`: d names the slot. -/
def formCbload (o : XUn) : VForm where
  readsVl := false
  xa := some (o.a, o.fa)
  body := fun q _ _ s =>
    if s.slotBusy (o.d.truncate 2) then .wait s
    else
      match s.afterOlder q with
      | none => .wait s
      | some s =>
        if q.a.toNat % 16 != 0 && canonical q.a then .trap s [] 0x16 q.a 0
        else
          match s.readBytes q q.a 16 with
          | .bad f => .trap s [] f.cause f.va 0
          | .poison line => .poison line
          | .bytes bs =>
            match codebookHead bs with
            | none => .trap s [] 0x16 q.a 0
            | some (iw, etype, count) =>
              match s.readBytes q (q.a + 16) (count * intBytes etype) with
              | .bad f => .trap s [] f.cause f.va 0
              | .poison line => .poison line
              | .bytes es =>
                let k := coreOf s.cur
                let c := s.core k
                let book : Codebook := ⟨q.a, iw, etype, entriesOf (intBytes etype) count es⟩
                .done (s.setCore k { c with codebooks := c.codebooks.set (o.d.toNat % 4) (some book) (by omega) }) []

/-- The first of `n` enabled elements from `e` on that the codebook does not answer. -/
def State.badIndex (s : State) (o : VUn) (iw : Nat) (look : Nat → Option Nat) : Nat → Nat → Option Nat
  | 0, _ => none
  | n + 1, e =>
    if s.st.on o.m e && (look (s.elem o.a iw e)).isNone then some e else s.badIndex o iw look n (e + 1)

/-- `vxf`: element e of vd receives the entry that bits [iw·e + iw − 1 : iw·e] of va name in the slot of `cbsel`. A
width mismatch stops it at element `vstart`, enabled or not (DESIGN CHOICE, log 78). -/
def formVxf (o : VUn) : VForm where
  vs := [(o.a, o.fa)]
  vd := [o.d]
  limit := fun _ => some (vlmaxOf (intWidth o.ty))
  grain := 1
  uses := fun s _ => [laneUse o.a (((s.codebook s.st.cbsel).map Codebook.iw).getD 8) 0 (s.st.on o.m)]
  body := fun _ lo hi s =>
    let run (c : Codebook) (k : Nat) : VOut :=
      s.lanesTo o.d (intWidth o.ty) lo k (s.masked o.m fun e => ((c.entry (s.elem o.a c.iw e)).getD 0, 0))
    match s.codebook s.st.cbsel with
    | none => .trap s [] 0x16 (Config.noBook s.freeCount) 0
    | some c =>
      match (if c.etype == o.ty then s.badIndex o c.iw c.entry (hi - lo) lo else some lo) with
      | none => run c hi
      | some k =>
        match run c k with
        | .done t fs => .trap t fs 0x16 c.addr k
        | r => r

def execCbload (o : XUn) (s : State) : Result := .next (s.vector (.cbload o) (formCbload o))
def execVxf (o : VUn) (s : State) : Result := .next (s.vector (.vxf o) (formVxf o))

/-! ## Watching many words (R182, R183) -/

/-- The flag words of `vwait`: element e of va is an address, element e of va + 1 the expected value. -/
def flagAccess (s : State) (o : VWaitOps) : VAccess :=
  let n := if o.wide then 8 else 4
  { acc := .read, size := n, mis := misaligned n, m := o.m
    parts := fun e => [(e, BitVec.ofNat 64 (s.elem o.a 64 e))] }

/-- `vwait`, which a critical section forbids (R111): every enabled address is checked, then every flag is read; those unmet
are marked in `vm` and counted in xd once all are met or the time-out has passed. -/
def formVwait (o : VWaitOps) : VForm where
  vs := [(o.a, o.fa), (regAt o.a 1, o.fa)]
  legal := groupFits o.a 2
  check := fun s => if s.st.inSection then some 0x02 else none
  xd := some o.b
  limit := fun _ => some 256
  uses := fun s _ => [laneUse o.a 64 0 (s.st.on o.m), laneUse (regAt o.a 1) 64 0 (s.st.on o.m)]
  rechecks := false
  body := fun q _ hi s =>
    match s.afterOlder q with
    | none => .wait s
    | some s =>
      let x := flagAccess s o
      let r := s.gather x hi 0
      match r.2 with
      | some f => .trap (s.postHints s x q.pc hi f) [] f.cause f.va 0
      | none =>
        match s.poisonIn x.size r.1 with
        | some line => .poison line
        | none =>
          let w := 8 * x.size
          let unmet := r.1.filter fun p =>
            !condHolds o.cond w (s.partValue q x.size p) (s.elem (regAt o.a 1) 64 p.slot % 2 ^ w)
          if unmet.isEmpty || (s.st.wto != 0 && s.st.watchOut) then
            let vm := (List.range hi).foldl (fun v e => setBit v e (unmet.any fun p => p.slot == e)) s.st.vm
            .done ((s.upd fun t => { t with vm := vm }).setX o.b (BitVec.ofNat 64 unmet.length)) []
          else .wait (s.upd fun t => { t with watch := true })

def execVwait (o : VWaitOps) (s : State) : Result := .next (s.vector (.vwait o) (formVwait o))

end Sys2Proof.Machine
end

