-- ==== Sys2Proof/Machine/Tiles.lean ====
section
/-! DEFINITION. Tiles and structured sparsity (R201 to R216). -/

namespace Sys2Proof.Machine

/-! ## The pool (R201 to R204) -/

/-- Tiles that a strand holds of its core's pool: those it owns or has reserved (R202). -/
def Strand.tilesHeld (t : Strand) : Nat := Nat.max t.tonOwned.toNat t.iter.tiles

/-- Tiles of the core's pool that nobody owns or has reserved. -/
def State.poolFree (s : State) : Nat :=
  8 - ((List.range 4).map fun k => (s.strand (4 * coreOf s.cur + k)).tilesHeld).sum

/-- A request of another strand of the core was made before this stamp and still waits (R202). -/
def State.earlierRequest (s : State) (stamp : Nat) : Bool :=
  (List.range 4).any fun k =>
    let n := 4 * coreOf s.cur + k
    n != s.cur && ((s.strand n).tonPend.any fun r => decide (r.stamp < stamp))

/-- The request can be granted now: from the iteration's reservation, or in its turn with enough of the pool. -/
def State.canGrant (s : State) (n stamp : Nat) : Bool :=
  decide (n ≤ s.st.iter.tiles) || (!s.earlierRequest stamp && decide (n ≤ s.poolFree + s.st.iter.tiles))

/-- The grant: the tiles hold +0 in every element (R201), and owned becomes n. -/
def Strand.grant (t : Strand) (n : Nat) : Strand :=
  { t with
    tonOwned := BitVec.ofNat 3 n
    tonPend := none
    tiles := Vector.replicate 4 0
    vpoison := t.vpoison.filter fun k => decide (k < 8192)
    iter := { t.iter with tiles := Nat.max n t.iter.tiles } }

/-- A resumed strand is granted its tiles: they hold what its area held (R128, R202). -/
def Strand.grantBack (t : Strand) (n : Nat) : Strand := { t.grant n with tiles := t.tiles, vpoison := t.vpoison }

/-- `ton n` runs at decode: granted, or it waits with `ton`.pend set (R203). -/
def execTon (n : BitVec 2) (s : State) : Result :=
  .next (if s.st.tonOwned ≠ 0 then s.decodeTrap (.ton n) 0x02
    else
      let k := n.toNat + 1
      let req : TonReq := s.st.tonPend.getD { tiles := k, stamp := s.stamp, decode := true }
      if s.canGrant k req.stamp then (s.upd fun t => t.grant k).advance
      else if s.st.tonPend.isSome then s.stall
      else State.stall { s with st := { s.st with tonPend := some req }, stamp := s.stamp + 1 })

/-- The waiting request of the strand in focus is granted (R202). A resumed strand then has the tiles that it held; a `ton`
completes, and counts in a critical section (R111). -/
def execTonGrant (s : State) : Result :=
  .next (match s.st.tonPend with
    | none => s
    | some r =>
      if !s.canGrant r.tiles r.stamp then s
      else
        if r.resume then s.upd fun t => t.grantBack r.tiles
        else
          let s := s.upd fun t => t.grant r.tiles
          if r.decode then s.advance.upd fun t => Strand.noteUndo .tonGrant s.st t.countOne else s)

/-- `toff` waits for the older entries, then gives the tiles back to the reservation. -/
def execToff (s : State) : Result :=
  .next (if s.st.tonOwned = 0 then s.decodeTrap .toff 0x04
    else if s.st.held then s.decodeTrap .toff 0x02
    else if s.st.busy then s.stall
    else (s.upd fun t => { t with tonOwned := 0, vdirty := t.vdirty &&& 0xFFFFFFFF }).advance)

/-! ## Tile instructions (R205, R206) -/

/-- 0x04 where no tile is owned, then 0x02 for a handle beyond those owned or a rule of the entry (R35, R36). -/
def tileCheck (s : State) (top : Nat) (extra : Bool) : Option (BitVec 8) :=
  if s.st.tonOwned = 0 then some 0x04
  else if s.st.tonOwned.toNat ≤ top || extra then some 0x02
  else none

/-- A tile. -/
def Strand.tile (t : Strand) (h : Nat) : TileReg := t.tiles.getD h 0

/-- Writes a tile whose elements (i, j) of which `wrote` holds are new, and marks it in `vdirty`; an 8-byte word of two
such elements is no longer poisoned (R342). -/
def State.putTile (s : State) (h : Nat) (v : TileReg) (wrote : Nat → Nat → Bool) : State :=
  let new (k : Nat) : Bool := wrote (k / 32) (k % 32)
  if (List.range 1024).any new && decide (h < 4) then
    s.upd fun t =>
      { t with
        tiles := t.tiles.setIfInBounds h v
        vpoison := t.vpoison.filter fun k => !(k / 512 == 16 + h && new (2 * (k % 512)) && new (2 * (k % 512) + 1))
        }.dirty (32 + h)
  else s

/-- Element (i, j) is enabled (R205). -/
def Strand.cellOn (t : Strand) (i j : Nat) : Bool := t.trp.getLsbD i && t.tcp.getLsbD j

/-- Elements `k` to `k + n − 1` of a tile, row by row: each that `f` gives is written. -/
def cellsTo (f : Nat → Nat → Option (Nat × FFlags)) : Nat → Nat → TileReg → TileReg × Raised
  | 0, _, v => (v, [])
  | n + 1, k, v =>
    match f (k / 32) (k % 32) with
    | none => cellsTo f n (k + 1) v
    | some (x, fl) =>
      let r := cellsTo f n (k + 1) (setElem v 32 k x)
      (r.1, note k fl r.2)

/-- Element (i, j) of a tile. -/
def tileElem (v : TileReg) (i j : Nat) : Nat := elemOf v 32 (32 * i + j)

/-- The frame of the tile instructions: unit instructions that ignore `frm` and `fz`. -/
def tileForm (top : Nat) (width : Nat) (extra : Bool) (body : QEntry → State → VOut) : VForm where
  check := fun s => tileCheck s top extra
  limit := fun _ => some (vlmaxOf width)
  body := fun q _ _ s => body q s

/-- `tzero`: +0 in every enabled element. -/
def formTzero (h : Reg) : VForm :=
  tileForm h.toNat 8 false fun _ s =>
    let r := cellsTo (fun i j => if s.st.cellOn i j then some (0, 0) else none) 1024 0 (s.st.tile h.toNat)
    .done (s.putTile h.toNat r.1 s.st.cellOn) []

/-- c + a × b rounded once to nearest even into f32, subnormals kept (R210). -/
def tileStep (ty : BitVec 2) (c a b : Nat) : Nat × FFlags :=
  fmaF f32 0 false (unpack f32 c) (unpack (fmtOf ty) a) (unpack (fmtOf ty) b)

/-- One outer product into one tile. -/
def State.outer (s : State) (ty : BitVec 2) (h : Nat) (a b : Reg) : State × Raised :=
  let w := fpWidth ty
  let va := s.st.vget a
  let vb := s.st.vget b
  let v := s.st.tile h
  let r := cellsTo (fun i j =>
    if s.st.cellOn i j then some (tileStep ty (tileElem v i j) (elemOf va w i) (elemOf vb w j)) else none) 1024 0 v
  (s.putTile h r.1 s.st.cellOn, r.2)

/-- The elements of a register that a tile instruction reads one for each enabled row (or column): those whose bit of
`mine` is set, where an enabled column (or row) meets it (R205). -/
def crossUses (mine across : BitVec 32) (r : Reg) (w : Nat) : List Use :=
  if across = 0 then [] else ((List.range 32).filter fun i => mine.getLsbD i).map fun i => wholeUse r w (w * i)

/-- `topa.repN`: N outer products, of va with vb .. vb + N − 1, into tiles H .. H + N − 1 (R209). -/
def formTopa (o : TopaOps) : VForm :=
  let n := o.count.toNat + 1
  { tileForm (o.h.toNat + n - 1) (fpWidth o.ty)
      (!groupFits o.b n || (decide (1 < n) && groupsMeet o.a.toNat 1 o.b.toNat n)) fun _ s =>
        let r := (List.range n).foldl (fun (acc : State × Raised) k =>
          let z := acc.1.outer o.ty (o.h.toNat + k) o.a (regAt o.b k)
          (z.1, acc.2 ++ z.2)) (s, [])
        .done r.1 r.2 with
    cells := some fun s _ h i j => decide (o.h.toNat ≤ h) && decide (h < o.h.toNat + n) && s.st.cellOn i j
    uses := fun s _ =>
      let w := fpWidth o.ty
      crossUses s.st.trp s.st.tcp o.a w ++ (List.range n).flatMap fun k => crossUses s.st.tcp s.st.trp (regAt o.b k) w
    vs := (o.a, o.fa) :: (List.range n).map fun k => (regAt o.b k, o.fb) }

/-! ## Tile-slice moves (R211, R212) -/

/-- Registers of the group that `vl` elements of type T take. -/
def sliceRegs (ty : BitVec 2) (vl : BitVec 12) : Nat := (vl.toNat * (fpWidth ty / 8) + 2047) / 2048

/-- The push-time checks: the group past v31, and rows or columns past the tile. -/
def sliceBad (s : State) (r b : Reg) (ty : BitVec 2) : Bool :=
  s.st.vlFull && (!groupFits r (sliceRegs ty s.st.vl) ||
    (s.st.xready b && decide (32 < (s.st.xget b).toNat + (s.st.vl.toNat + 31) / 32)))

/-- The registers of a group, with one policy. -/
def groupOf (r : Reg) (n : Nat) (p : Bool) : List (Reg × Bool) := (List.range n).map fun k => (regAt r k, p)

/-- The register and the element of it that element e of a group is. -/
def groupElem (w e : Nat) : Nat × Nat := (e / (16384 / w), e % (16384 / w))

/-- `narrow` to T: f32 copies; else rounded once to nearest even (R212). -/
def narrowTo (ty : BitVec 2) (x : Nat) : Nat × FFlags :=
  if ty == 2 then (x, 0) else convertF (fmtOf ty) 0 false (unpack f32 x)

/-- `widen` from T, exact. -/
def widenFrom (ty : BitVec 2) (x : Nat) : Nat × FFlags :=
  if ty == 2 then (x, 0) else convertF f32 0 false (unpack (fmtOf ty) x)

/-- The tile element that element e of the group is. -/
def sliceCell (cols : Bool) (first e : Nat) : Nat × Nat :=
  if cols then (e % 32, first + e / 32) else (first + e / 32, e % 32)

/-- The flags of a move to registers, with the index 32 × row + column. -/
def State.sliceFlags (s : State) (o : TmvOps) (cols : Bool) (q : QEntry) : Raised :=
  (List.range q.vl.toNat).filterMap fun e =>
    let c := sliceCell cols q.b.toNat e
    let fl := (narrowTo o.ty (tileElem (s.st.tile o.h.toNat) c.1 c.2)).2
    if s.st.on o.m e && fl != 0 then some (32 * c.1 + c.2, fl) else none

/-- The element of the group that element (i, j) of the tile goes to or comes from, where there is one. -/
def sliceElem (cols : Bool) (first i j : Nat) : Option Nat :=
  let line := if cols then j else i
  if first ≤ line then some (32 * (line - first) + if cols then i else j) else none

/-- `tmvr` and `tmvc`: each register of the group takes its elements. -/
def sliceOut (o : TmvOps) (cols : Bool) (vl : BitVec 12) : VForm :=
  { tileForm o.h.toNat (fpWidth o.ty) false fun q s =>
      let w := fpWidth o.ty
      let per := 16384 / w
      let tile := s.st.tile o.h.toNat
      let t := (List.range (sliceRegs o.ty q.vl)).foldl (fun (t : State) r =>
        let n := Nat.min per (q.vl.toNat - per * r)
        let f (k : Nat) : Option (Nat × FFlags) :=
          let e := per * r + k
          let c := sliceCell cols q.b.toNat e
          if s.st.on o.m e then some ((narrowTo o.ty (tileElem tile c.1 c.2)).1, 0) else none
        t.putV (regAt o.d r) (lanes w f n 0 (t.st.vget (regAt o.d r))).1 (anyLane f n 0)) s
      .done t (s.sliceFlags o cols q) with
    cells := some fun s q h i j =>
      h == o.h.toNat && (sliceElem cols q.b.toNat i j).any fun e => decide (e < q.vl.toNat) && s.st.on o.m e
    check := fun s => tileCheck s o.h.toNat (sliceBad s o.d o.b o.ty)
    vd := (groupOf o.d (sliceRegs o.ty vl) false).map Prod.fst
    xb := some (o.b, o.fb)
    limit := fun _ => some 1024 }

def formTmvr (o : TmvOps) (vl : BitVec 12) : VForm := sliceOut o false vl
def formTmvc (o : TmvOps) (vl : BitVec 12) : VForm := sliceOut o true vl

/-- `tmvw`: enabled elements of rows f and on receive the group's elements. -/
def formTmvw (o : TmvwOps) (vl : BitVec 12) : VForm :=
  { tileForm o.h.toNat (fpWidth o.ty) false fun q s =>
      let w := fpWidth o.ty
      let first := q.b.toNat
      let f (i j : Nat) : Option (Nat × FFlags) :=
        if i < first then none
        else
          let e := 32 * (i - first) + j
          if e < q.vl.toNat && s.st.on o.m e && s.st.cellOn i j then
            let g := groupElem w e
            some (widenFrom o.ty (s.elem (regAt o.a g.1) w g.2))
          else none
      let r := cellsTo f 1024 0 (s.st.tile o.h.toNat)
      .done (s.putTile o.h.toNat r.1 fun i j => (f i j).isSome) r.2 with
    check := fun s => tileCheck s o.h.toNat (sliceBad s o.a o.b o.ty)
    uses := fun s q => (List.range (sliceRegs o.ty q.vl)).map fun k =>
      let w := fpWidth o.ty
      ⟨regAt o.a k, w, fun e => w * (groupElem w e).2, fun e =>
        (groupElem w e).1 == k && s.st.on o.m e && s.st.cellOn (q.b.toNat + e / 32) (e % 32)⟩
    vs := groupOf o.a (sliceRegs o.ty vl) o.fa
    xb := some (o.b, o.fb)
    limit := fun _ => some 1024 }

/-! ## Structured sparsity (R213 to R216) -/

/-- The group size G of a pattern: 4 or 8. -/
def sparseGroup (pat : Bool) : Nat := if pat then 8 else 4

/-- Bits of a group's metadata. -/
def metaWidth (pat : Bool) : Nat := if pat then 16 else 4

/-- The kept positions that group `g` of the metadata lists. -/
def keptOf (meta_ : VReg) (pat : Bool) (g : Nat) : List Nat :=
  if pat then (List.range 4).map fun q => elemOf meta_ 16 g / 8 ^ q % 8
  else (List.range 2).map fun q => elemOf meta_ 4 g / 4 ^ q % 4

/-- Positions rise strictly. -/
def rising : List Nat → Bool
  | [] => true
  | [_] => true
  | a :: b :: l => decide (a < b) && rising (b :: l)

/-- A group's metadata is well formed (R213). -/
def wellFormedGroup (meta_ : VReg) (pat : Bool) (g : Nat) : Bool :=
  rising (keptOf meta_ pat g) && (!pat || elemOf meta_ 16 g / 4096 == 0)

/-- The magnitude of a floating encoding as an order: a NaN above every number, and all NaNs equal (R214). -/
def magKey (f : Fmt) (x : Nat) : Nat :=
  let m := x % f.signBit
  if f.infinity < m then f.infinity + 1 else m

/-- The magnitude of an integer of `w` bits: its absolute value, the most negative value the largest (R214). -/
def absKey (w x : Nat) : Nat := if x < 2 ^ (w - 1) then x else 2 ^ w - x

/-- The magnitude by which `vspc` compares an element of type code `ty`. Code 0 is bf16, as the sparse accumulate
worked after R216 has it; what the other codes are the word does not say (log 29). -/
def sparseKey (ty : BitVec 2) (x : Nat) : Nat :=
  if ty != 0 && Config.vspcInteger ty then absKey (fpWidth ty) x else magKey (fmtOf ty) x

/-- The positions that group `g` keeps: the K of largest magnitude, the lower among equals, in increasing order. -/
def keepOf (key : Nat → Nat) (n : Nat) : List Nat :=
  (List.range n).filter fun p =>
    decide (((List.range n).filter fun r => decide (key p < key r) || (decide (key p = key r) && decide (r < p))).length <
      n / 2)

/-- Metadata of a group from its kept positions. -/
def packMeta (pat : Bool) (ps : List Nat) : Nat :=
  ps.foldr (fun p acc => p + (if pat then 8 else 4) * acc) 0

/-- Further rules of `vspc` and `vspx`: `vl` is a multiple of G (the captured one). -/
def sparseCheck (pat bad : Bool) (s : State) : Option (BitVec 8) :=
  if bad || (s.st.vlFull && decide (s.st.vl.toNat % sparseGroup pat ≠ 0)) then some 0x02 else none

/-- `vspc`: every group keeps its half of largest magnitude. -/
def formVspc (o : VspOps) : VForm where
  vs := [(o.a, o.fa)]
  vd := [o.d, regAt o.d 1]
  limit := fun _ => some (vlmaxOf (fpWidth o.ty))
  check := sparseCheck o.pat (!groupFits o.d 2 || groupsMeet o.a.toNat 1 o.d.toNat 2)
  uses := fun _ q => [wholeUse o.a (fpWidth o.ty * q.vl.toNat)]
  body := fun q _ _ s =>
    let w := fpWidth o.ty
    let n := sparseGroup o.pat
    let keep (g : Nat) : List Nat := keepOf (fun p => sparseKey o.ty (s.elem o.a w (n * g + p))) n
    let groups := List.range (q.vl.toNat / n)
    let vals := groups.foldl (fun v g =>
      ((keep g).mapIdx fun k p => (k, p)).foldl (fun v x =>
        setElem v w (n / 2 * g + x.1) (s.elem o.a w (n * g + x.2))) v) (s.st.vget o.d)
    let meta_ := groups.foldl (fun v g =>
      setElem v (if o.pat then 16 else 4) g (packMeta o.pat (keep g))) (s.st.vget (regAt o.d 1))
    .done ((s.putV o.d vals true).putV (regAt o.d 1) meta_ true) []

/-- `vspx`: the metadata of every group is checked before any write. -/
def formVspx (o : VspOps) : VForm where
  vs := [(o.a, o.fa), (regAt o.a 1, o.fa)]
  vd := [o.d]
  limit := fun _ => some (vlmaxOf (fpWidth o.ty))
  check := sparseCheck o.pat (!groupFits o.a 2 || groupsMeet o.d.toNat 1 o.a.toNat 2)
  uses := fun _ q =>
    [wholeUse o.a (fpWidth o.ty * (q.vl.toNat / 2)), wholeUse (regAt o.a 1) (metaWidth o.pat * (q.vl.toNat / sparseGroup o.pat))]
  body := fun q _ _ s =>
    let w := fpWidth o.ty
    let n := sparseGroup o.pat
    let meta_ := s.st.vget (regAt o.a 1)
    match (List.range (q.vl.toNat / n)).find? fun g => !wellFormedGroup meta_ o.pat g with
    | some g => .trap s [] 0x0A (BitVec.ofNat 64 (n * g)) 0
    | none =>
      s.lanesTo o.d w 0 q.vl.toNat fun e =>
        match (keptOf meta_ o.pat (e / n)).findIdx? fun p => p == e % n with
        | some k => some (s.elem o.a w (n / 2 * (e / n) + k), 0)
        | none => some (0, 0)

/-- `tspa`: one group of G steps a row, against the dense registers vb .. vb + G − 1 (R216). -/
def formTspa (o : TspaOps) : VForm :=
  let n := sparseGroup o.pat
  let sel := o.sel.toNat
  let w := fpWidth o.ty
  { tileForm o.h.toNat w
      (!groupFits o.a 2 || !groupFits o.b n || groupsMeet o.a.toNat 2 o.b.toNat n ||
        decide (16384 / w < n / 2 * (32 * sel + 32))) fun _ s =>
      let meta_ := s.st.vget (regAt o.a 1)
      match (List.range 32).find? fun i => s.st.trp.getLsbD i && !wellFormedGroup meta_ o.pat (32 * sel + i) with
      | some i => .trap s [] 0x0A (BitVec.ofNat 64 i) 0
      | none =>
        let v := s.st.tile o.h.toNat
        let va := s.st.vget o.a
        let cell (i j : Nat) : Nat × FFlags :=
          ((keptOf meta_ o.pat (32 * sel + i)).mapIdx fun k p => (k, p)).foldl (fun acc x =>
            let r := tileStep o.ty acc.1 (elemOf va w (n / 2 * (32 * sel + i) + x.1)) (s.elem (regAt o.b x.2) w j)
            (r.1, acc.2 ||| r.2)) (tileElem v i j, 0)
        let r := cellsTo (fun i j => if s.st.cellOn i j then some (cell i j) else none) 1024 0 v
        .done (s.putTile o.h.toNat r.1 s.st.cellOn) r.2 with
    cells := some fun s _ h i j => h == o.h.toNat && s.st.cellOn i j
    uses := fun s _ =>
      let t := s.st
      let rows := (List.range 32).filter fun i => t.trp.getLsbD i
      let kept (k : Nat) : BitVec 32 :=
        if rows.any fun i => (keptOf (t.vget (regAt o.a 1)) o.pat (32 * sel + i)).contains k then -1 else 0
      (rows.map fun i => wholeUse (regAt o.a 1) (metaWidth o.pat) (metaWidth o.pat * (32 * sel + i))) ++
        (if t.tcp = 0 then [] else rows.map fun i => wholeUse o.a (w * (n / 2)) (w * (n / 2) * (32 * sel + i))) ++
        (List.range n).flatMap fun k => crossUses t.tcp (kept k) (regAt o.b k) w
    vs := [(o.a, o.fa), (regAt o.a 1, o.fa)] ++ groupOf o.b n o.fb }

def execTzero (h : Reg) (s : State) : Result := .next (s.vector (.tzero h) (formTzero h))
def execTopa (o : TopaOps) (s : State) : Result := .next (s.vector (.topa o) (formTopa o))
def execTspa (o : TspaOps) (s : State) : Result := .next (s.vector (.tspa o) (formTspa o))
def execTmvr (o : TmvOps) (s : State) : Result := .next (s.vector (.tmvr o) (formTmvr o s.st.vl))
def execTmvc (o : TmvOps) (s : State) : Result := .next (s.vector (.tmvc o) (formTmvc o s.st.vl))
def execTmvw (o : TmvwOps) (s : State) : Result := .next (s.vector (.tmvw o) (formTmvw o s.st.vl))
def execVspc (o : VspOps) (s : State) : Result := .next (s.vector (.vspc o) (formVspc o))
def execVspx (o : VspOps) (s : State) : Result := .next (s.vector (.vspx o) (formVspx o))

end Sys2Proof.Machine
end

