-- ==== Sys2Proof/Machine/VecFp.lean ====
section
/-! DEFINITION. Vector floating-point arithmetic and compares (R146, R148, R149). -/

namespace Sys2Proof.Machine

/-- Element e read as a floating value under the captured `fz` (R69). -/
def State.felem (s : State) (q : QEntry) (ty : BitVec 2) (r : Reg) (e : Nat) : FVal :=
  readF (fmtOf ty) q.fz (s.elem r (fpWidth ty) e)

/-- The frame of R148 over two v sources. -/
def vfpForm (o : VOps) (rounds : Bool) (f : State → QEntry → Nat → Nat × FFlags) : VForm where
  vs := [(o.a, o.fa), (o.b, o.fb)]
  vd := [o.d]
  limit := fun _ => some (vlmaxOf (fpWidth o.ty))
  rounds := rounds
  legal := repLegal o.d o.b o.rep
  grain := beatOf (fpWidth o.ty)
  uses := fun s _ => [laneUse o.a (fpWidth o.ty) 0 (s.st.on o.m), laneUse o.b (fpWidth o.ty) o.rep (s.st.on o.m)]
  body := fun q lo hi s => s.lanesTo o.d (fpWidth o.ty) lo hi (s.masked o.m (f s q))

/-- An arithmetic form: rounded once under the captured `frm`. -/
def vfpBin (o : VOps) (f : Fmt → RMode → Bool → FVal → FVal → Nat × FFlags) : VForm :=
  vfpForm o true fun s q k => f (fmtOf o.ty) q.frm q.fz (s.felem q o.ty o.a k) (s.felem q o.ty o.b (srcb o.rep k))

/-- Minimum or maximum (R70). -/
def vfpMinMax (o : VOps) (wantMax : Bool) : VForm :=
  vfpForm o false fun s q k =>
    minmaxF (fmtOf o.ty) q.fz wantMax (s.elem o.a (fpWidth o.ty) k) (s.elem o.b (fpWidth o.ty) (srcb o.rep k))

/-- A fused form, with vd as its third source. -/
def vfpFused (o : VOps) (f : Fmt → RMode → Bool → FVal → FVal → FVal → Nat × FFlags) : VForm :=
  { vfpForm o true fun s q k =>
      f (fmtOf o.ty) q.frm q.fz (s.felem q o.ty o.d k) (s.felem q o.ty o.a k) (s.felem q o.ty o.b (srcb o.rep k)) with
    vs := [(o.a, o.fa), (o.b, o.fb), (o.d, false)]
    uses := fun s _ =>
      let on := s.st.on o.m
      [laneUse o.a (fpWidth o.ty) 0 on, laneUse o.b (fpWidth o.ty) o.rep on, laneUse o.d (fpWidth o.ty) 0 on] }

def formVfadd (o : VOps) : VForm := vfpBin o addF
def formVfsub (o : VOps) : VForm := vfpBin o subF
def formVfmul (o : VOps) : VForm := vfpBin o mulF
def formVfdiv (o : VOps) : VForm := vfpBin o divF
def formVfmin (o : VOps) : VForm := vfpMinMax o false
def formVfmax (o : VOps) : VForm := vfpMinMax o true
def formVfmac (o : VOps) : VForm := vfpFused o fmaF
def formVfnmac (o : VOps) : VForm := vfpFused o fnmaF

def execVfadd (o : VOps) (s : State) : Result := .next (s.vector (.vfadd o) (formVfadd o))
def execVfsub (o : VOps) (s : State) : Result := .next (s.vector (.vfsub o) (formVfsub o))
def execVfmul (o : VOps) (s : State) : Result := .next (s.vector (.vfmul o) (formVfmul o))
def execVfdiv (o : VOps) (s : State) : Result := .next (s.vector (.vfdiv o) (formVfdiv o))
def execVfmin (o : VOps) (s : State) : Result := .next (s.vector (.vfmin o) (formVfmin o))
def execVfmax (o : VOps) (s : State) : Result := .next (s.vector (.vfmax o) (formVfmax o))
def execVfmac (o : VOps) (s : State) : Result := .next (s.vector (.vfmac o) (formVfmac o))
def execVfnmac (o : VOps) (s : State) : Result := .next (s.vector (.vfnmac o) (formVfnmac o))

/-! ## One source (R149) -/

/-- The frame of R149. -/
def vfpUn (o : VUn) (rounds : Bool) (f : State → QEntry → Nat → Nat × FFlags) : VForm where
  vs := [(o.a, o.fa)]
  vd := [o.d]
  limit := fun _ => some (vlmaxOf (fpWidth o.ty))
  rounds := rounds
  grain := beatOf (fpWidth o.ty)
  uses := fun s _ => [laneUse o.a (fpWidth o.ty) 0 (s.st.on o.m)]
  body := fun q lo hi s => s.lanesTo o.d (fpWidth o.ty) lo hi (s.masked o.m (f s q))

def formVfsqrt (o : VUn) : VForm :=
  vfpUn o true fun s q k => sqrtF (fmtOf o.ty) q.frm q.fz (s.felem q o.ty o.a k)

/-- The sign cleared; no flag, no `fz` (R65). -/
def formVfabs (o : VUn) : VForm :=
  vfpUn o false fun s _ k => (s.elem o.a (fpWidth o.ty) k % (fmtOf o.ty).signBit, 0)

/-- The sign inverted; no flag, no `fz` (R65). -/
def formVfneg (o : VUn) : VForm :=
  vfpUn o false fun s _ k => (s.elem o.a (fpWidth o.ty) k ^^^ (fmtOf o.ty).signBit, 0)

def formVfclass (o : VUn) : VForm :=
  vfpUn o false fun s _ k => (classF (fmtOf o.ty) (s.elem o.a (fpWidth o.ty) k), 0)

def formVfrint (o : VUn) : VForm :=
  vfpUn o true fun s q k => rintF (fmtOf o.ty) q.frm q.fz (s.felem q o.ty o.a k)

def execVfsqrt (o : VUn) (s : State) : Result := .next (s.vector (.vfsqrt o) (formVfsqrt o))
def execVfabs (o : VUn) (s : State) : Result := .next (s.vector (.vfabs o) (formVfabs o))
def execVfneg (o : VUn) (s : State) : Result := .next (s.vector (.vfneg o) (formVfneg o))
def execVfclass (o : VUn) (s : State) : Result := .next (s.vector (.vfclass o) (formVfclass o))
def execVfrint (o : VUn) (s : State) : Result := .next (s.vector (.vfrint o) (formVfrint o))

/-! ## Compares (R146) -/

/-- A floating compare into `vm`, inputs read under `fz`, flags by R71. -/
def vfcmpForm (o : VCmpOps) (f : FVal → FVal → Bool × FFlags) : VForm where
  vs := [(o.a, o.fa), (o.b, o.fb)]
  limit := fun _ => some (vlmaxOf (fpWidth o.ty))
  grain := beatOf (fpWidth o.ty)
  uses := fun s _ => [laneUse o.a (fpWidth o.ty) 0 (s.st.on o.m), laneUse o.b (fpWidth o.ty) o.rep (s.st.on o.m)]
  body := fun q lo hi s =>
    s.maskTo lo hi fun k =>
      if s.st.on o.m k then some (f (s.felem q o.ty o.a k) (s.felem q o.ty o.b (srcb o.rep k))) else none

def formVfeq (o : VCmpOps) : VForm := vfcmpForm o (quietCmp fun c => c == 0)

/-- not (A = B), true when either is a NaN; a quiet compare. -/
def formVfne (o : VCmpOps) : VForm :=
  vfcmpForm o fun a b =>
    let r := quietCmp (fun c => c == 0) a b
    (!r.1, r.2)

def formVflt (o : VCmpOps) : VForm := vfcmpForm o (signallingCmp fun c => decide (c < 0))
def formVfle (o : VCmpOps) : VForm := vfcmpForm o (signallingCmp fun c => decide (c ≤ 0))
def formVfunord (o : VCmpOps) : VForm := vfcmpForm o fun a b => (unordered a b, signals a ||| signals b)

def execVfeq (o : VCmpOps) (s : State) : Result := .next (s.vector (.vfeq o) (formVfeq o))
def execVfne (o : VCmpOps) (s : State) : Result := .next (s.vector (.vfne o) (formVfne o))
def execVflt (o : VCmpOps) (s : State) : Result := .next (s.vector (.vflt o) (formVflt o))
def execVfle (o : VCmpOps) (s : State) : Result := .next (s.vector (.vfle o) (formVfle o))
def execVfunord (o : VCmpOps) (s : State) : Result := .next (s.vector (.vfunord o) (formVfunord o))

end Sys2Proof.Machine
end

