-- ==== Sys2Proof/Machine/VecCvt.lean ====
section
/-! DEFINITION. Vector conversions, blocks in registers and error-feedback narrowing (R80, R150 to R154). -/

namespace Sys2Proof.Machine

/-- The frame of R150: source elements of `ws` bits, destination elements of `wd` bits. -/
def vcvtForm (d a : Reg) (m fa : Bool) (ws wd : Nat) (rounds : Bool)
    (f : QEntry → Nat → Nat × FFlags) : VForm where
  vs := [(a, fa)]
  vd := [d]
  limit := fun _ => some (vlmaxOf (Nat.max ws wd))
  rounds := rounds
  legal := decide (ws = wd) || decide (d ≠ a)
  grain := beatOf (Nat.max ws wd)
  uses := fun s _ => [laneUse a ws 0 (s.st.on m)]
  body := fun q lo hi s => s.lanesTo d wd lo hi (s.masked m fun k => f q (s.elem a ws k))

/-- Float to float: `other` is the source float. -/
def formVcvt (o : VCvtOps) : VForm :=
  vcvtForm o.d o.a o.m o.fa (fpWidth o.other) (fpWidth o.ty) (!widens o.other o.ty) fun q x =>
    convertF (fmtOf o.ty) q.frm q.fz (readF (fmtOf o.other) q.fz x)

/-- Integer to float: `fz` does not apply (R69). -/
def formVcvtif (o : VCvtiOps) : VForm :=
  vcvtForm o.d o.a o.m o.fa (intWidth o.other) (fpWidth o.ty) (!intExact o.other o.ty) fun q x =>
    fromInt (fmtOf o.ty) q.frm false (readInt (intWidth o.other) o.uns x)

/-- Float to integer (R70). -/
def formVcvtfi (o : VCvtiOps) : VForm :=
  vcvtForm o.d o.a o.m o.fa (fpWidth o.ty) (intWidth o.other) true fun q x =>
    let r := toIntF q.frm (intWidth o.other) o.uns (readF (fmtOf o.ty) q.fz x)
    (wrapInt (intWidth o.other) r.1, r.2)

def execVcvt (o : VCvtOps) (s : State) : Result := .next (s.vector (.vcvt o) (formVcvt o))
def execVcvtif (o : VCvtiOps) (s : State) : Result := .next (s.vector (.vcvtif o) (formVcvtif o))
def execVcvtfi (o : VCvtiOps) (s : State) : Result := .next (s.vector (.vcvtfi o) (formVcvtfi o))

/-! ## Blocks (R151 to R153) -/

/-- The block width that `rep` selects: 001 to 111 stand for 2 to 8 (R151). -/
def blockWidth (rep : BitVec 3) : Nat := rep.toNat + 1

/-- The source values `e` to `e + n − 1`, read under `fz`. -/
def State.values (s : State) (q : QEntry) (ty : BitVec 2) (a : Reg) : Nat → Nat → List FVal
  | _, 0 => []
  | e, n + 1 => s.felem q ty a e :: s.values q ty a (e + 1) n

/-- Flags of a block's elements, by source index (R72). -/
def blockFlags (e : Nat) : List FFlags → Raised
  | [] => []
  | f :: fs => note e f (blockFlags (e + 1) fs)

/-- Quantises elements `e` to `vl − 1` into blocks `j` on (R79, R152): the register and the flags. -/
def State.quantise (s : State) (q : QEntry) (ty : BitVec 2) (a : Reg) (b vl : Nat) : Nat → Nat → VReg → VReg × Raised
  | 0, _, v => (v, [])
  | fuel + 1, j, v =>
    let e := j * blockElems b
    if vl ≤ e then (v, [])
    else
      let r := quantBlock b (s.values q ty a e (Nat.min (blockElems b) (vl - e))) []
      let next := s.quantise q ty a b vl fuel (j + 1) (setElem v 512 j r.1)
      (next.1, blockFlags e r.2 ++ next.2)

/-- `vqnt` (R152): a unit instruction that ignores `frm`. -/
def formVqnt (o : VQOps) : VForm where
  vs := [(o.a, o.fa)]
  vd := [o.d]
  limit := fun _ => some (vlmaxOf (fpWidth o.ty))
  uses := fun _ q => [wholeUse o.a (fpWidth o.ty * q.vl.toNat)]
  body := fun q _ hi s =>
    let r := s.quantise q o.ty o.a (blockWidth o.rep) hi 32 0 (s.st.vget o.d)
    .done (s.putV o.d r.1 true) r.2

/-- The first block among `n` from `j` on whose format byte is neither b nor 0xFF (R153). Where several are, `tval`
receives the lowest (DESIGN CHOICE, log 76). -/
def State.badBlock (s : State) (a : Reg) (b : Nat) : Nat → Nat → Option Nat
  | _, 0 => none
  | j, n + 1 =>
    let fmt := blockFormat (s.elem a 512 j)
    if fmt == b || fmt == 0xFF then s.badBlock a b (j + 1) n else some j

/-- `vwid` (R153): every block it reads is checked first. -/
def formVwid (o : VQOps) : VForm where
  vs := [(o.a, o.fa)]
  vd := [o.d]
  limit := fun _ => some (vlmaxOf (fpWidth o.ty))
  rounds := true
  uses := fun _ q =>
    let n := blockElems (blockWidth o.rep)
    [wholeUse o.a (512 * ((q.vl.toNat + n - 1) / n))]
  body := fun q _ hi s =>
    let b := blockWidth o.rep
    match s.badBlock o.a b 0 ((hi + blockElems b - 1) / blockElems b) with
    | some j => .trap s [] 0x09 (BitVec.ofNat 64 j) 0
    | none =>
      s.lanesTo o.d (fpWidth o.ty) 0 hi fun k =>
        some (roundF (fmtOf o.ty) q.frm q.fz (blockValue (s.elem o.a 512 (k / blockElems b)) (k % blockElems b)))

def execVqnt (o : VQOps) (s : State) : Result := .next (s.vector (.vqnt o) (formVqnt o))
def execVwid (o : VQOps) (s : State) : Result := .next (s.vector (.vwid o) (formVwid o))

/-! ## Error-feedback narrowing (R80, R154) -/

/-- The exact residual x − y as an f32, never flushed (R80). -/
def residual (rm : RMode) (x y : FVal) : Nat :=
  match x with
  | .nan _ => f32.nan
  | .inf _ => 0
  | .fin _ _ _ => (roundF f32 0 false (addExact rm x y.neg).1).1

/-- The residual of a value whose block element is y: a zero mantissa leaves it equal to the value, sign included (R80).
Quantisation ignores `frm`, so where the difference is exactly zero elsewhere it is +0 in every mode: R80 states no sign
there (DESIGN CHOICE, log 89). -/
def blockResidual (x y : FVal) : Nat :=
  match x with
  | .fin _ _ _ => if y.isZero then (roundF f32 0 false x).1 else residual 0 x y
  | _ => residual 0 x y

/-- The narrowed bf16 of a value, with its flags: a finite value never becomes infinite (R80). -/
def narrow16 (rm : RMode) (fz : Bool) (x : FVal) : Nat × FFlags :=
  let r := convertF bf16 rm fz x
  match x with
  | .fin s _ _ => if r.1 % 2 ^ 15 == bf16.infinity then (withSign bf16 s bf16.largest, r.2) else r
  | _ => r

/-- `vnef` (R154): the bf16 form is stoppable and takes a mask; the block form is a unit. -/
def formVnef (o : VNefOps) : VForm where
  vs := [(o.a, o.fa)]
  vd := [o.d, o.ve]
  limit := fun _ => some (vlmaxOf 32)
  rounds := decide (o.rep = 0)
  legal := decide (o.d ≠ o.a) && decide (o.d ≠ o.ve) && decide (o.a ≠ o.ve)
  grain := if o.rep = 0 then beatOf 32 else 0
  uses := fun s _ => [laneUse o.a 32 0 fun e => o.rep != 0 || s.st.on o.m e]
  body := fun q lo hi s =>
    if o.rep = 0 then
      let narrowed (k : Nat) : Nat × FFlags := narrow16 q.frm q.fz (s.felem q 2 o.a k)
      let f := lanes 16 (s.masked o.m narrowed) (hi - lo) lo (s.st.vget o.d)
      let g := lanes 32 (s.masked o.m fun k => (residual q.frm (s.felem q 2 o.a k) (unpack bf16 (narrowed k).1), 0))
        (hi - lo) lo (s.st.vget o.ve)
      let wrote := anyLane (s.masked o.m narrowed) (hi - lo) lo
      .done ((s.putV o.d f.1 wrote).putV o.ve g.1 wrote) f.2
    else
      let b := blockWidth o.rep
      let r := s.quantise q 2 o.a b hi 32 0 (s.st.vget o.d)
      let g := lanes 32 (fun k =>
          some (blockResidual (s.felem q 2 o.a k)
            (blockValue (elemOf r.1 512 (k / blockElems b)) (k % blockElems b)), 0)) hi 0 (s.st.vget o.ve)
      .done ((s.putV o.d r.1 true).putV o.ve g.1 true) r.2

def execVnef (o : VNefOps) (s : State) : Result := .next (s.vector (.vnef o) (formVnef o))

end Sys2Proof.Machine
end

