-- ==== Sys2Proof/Machine/VecInt.lean ====
section
/-! DEFINITION. Vector integer arithmetic, integer compares, select and move (R145 to R147). -/

namespace Sys2Proof.Machine

/-- The frame of R145 over two v sources: `f w A B` for each enabled element. -/
def vintForm (o : VOps) (f : Nat → Nat → Nat → Nat) : VForm where
  vs := [(o.a, o.fa), (o.b, o.fb)]
  vd := [o.d]
  limit := fun _ => some (vlmaxOf (intWidth o.ty))
  legal := repLegal o.d o.b o.rep
  grain := beatOf (intWidth o.ty)
  uses := fun s _ => [laneUse o.a (intWidth o.ty) 0 (s.st.on o.m), laneUse o.b (intWidth o.ty) o.rep (s.st.on o.m)]
  body := fun _ lo hi s =>
    let w := intWidth o.ty
    s.lanesTo o.d w lo hi (s.masked o.m fun k => (f w (s.elem o.a w k) (s.elem o.b w (srcb o.rep k)), 0))

def formVadd (o : VOps) : VForm := vintForm o fun w a b => maskW w (a + b)
def formVsub (o : VOps) : VForm := vintForm o subW
def formVand (o : VOps) : VForm := vintForm o fun _ a b => a &&& b
def formVor (o : VOps) : VForm := vintForm o fun _ a b => a ||| b
def formVxor (o : VOps) : VForm := vintForm o fun _ a b => a ^^^ b
def formVshl (o : VOps) : VForm := vintForm o fun w a b => maskW w (a * 2 ^ (b % w))
def formVshr (o : VOps) : VForm := vintForm o fun w a b => a / 2 ^ (b % w)
def formVsar (o : VOps) : VForm := vintForm o fun w a b => sarW w a (b % w)
def formVmul (o : VOps) : VForm := vintForm o fun w a b => maskW w (a * b)
def formVmulh (o : VOps) : VForm := vintForm o mulhW
def formVmulhn (o : VOps) : VForm := vintForm o fun w a b => a * b / 2 ^ w
def formVmin (o : VOps) : VForm := vintForm o sminW
def formVmax (o : VOps) : VForm := vintForm o smaxW
def formVminn (o : VOps) : VForm := vintForm o fun _ a b => Nat.min a b
def formVmaxn (o : VOps) : VForm := vintForm o fun _ a b => Nat.max a b

/-- `vmac` reads vd as a third source. -/
def formVmac (o : VOps) : VForm :=
  { vintForm o fun _ _ _ => 0 with
    vs := [(o.a, o.fa), (o.b, o.fb), (o.d, false)]
    uses := fun s _ =>
      let on := s.st.on o.m
      [laneUse o.a (intWidth o.ty) 0 on, laneUse o.b (intWidth o.ty) o.rep on, laneUse o.d (intWidth o.ty) 0 on]
    body := fun _ lo hi s =>
      let w := intWidth o.ty
      s.lanesTo o.d w lo hi (s.masked o.m fun k =>
        (maskW w (s.elem o.d w k + s.elem o.a w k * s.elem o.b w (srcb o.rep k)), 0)) }

def execVadd (o : VOps) (s : State) : Result := .next (s.vector (.vadd o) (formVadd o))
def execVsub (o : VOps) (s : State) : Result := .next (s.vector (.vsub o) (formVsub o))
def execVand (o : VOps) (s : State) : Result := .next (s.vector (.vand o) (formVand o))
def execVor (o : VOps) (s : State) : Result := .next (s.vector (.vor o) (formVor o))
def execVxor (o : VOps) (s : State) : Result := .next (s.vector (.vxor o) (formVxor o))
def execVshl (o : VOps) (s : State) : Result := .next (s.vector (.vshl o) (formVshl o))
def execVshr (o : VOps) (s : State) : Result := .next (s.vector (.vshr o) (formVshr o))
def execVsar (o : VOps) (s : State) : Result := .next (s.vector (.vsar o) (formVsar o))
def execVmul (o : VOps) (s : State) : Result := .next (s.vector (.vmul o) (formVmul o))
def execVmulh (o : VOps) (s : State) : Result := .next (s.vector (.vmulh o) (formVmulh o))
def execVmulhn (o : VOps) (s : State) : Result := .next (s.vector (.vmulhn o) (formVmulhn o))
def execVmin (o : VOps) (s : State) : Result := .next (s.vector (.vmin o) (formVmin o))
def execVmax (o : VOps) (s : State) : Result := .next (s.vector (.vmax o) (formVmax o))
def execVminn (o : VOps) (s : State) : Result := .next (s.vector (.vminn o) (formVminn o))
def execVmaxn (o : VOps) (s : State) : Result := .next (s.vector (.vmaxn o) (formVmaxn o))
def execVmac (o : VOps) (s : State) : Result := .next (s.vector (.vmac o) (formVmac o))

/-! ## Compares (R146) -/

/-- The frame of R146: the bits of `vm` from the elements; a masked-off bit stays. -/
def vcmpForm (o : VCmpOps) (f : Nat → Nat → Nat → Bool) : VForm where
  vs := [(o.a, o.fa), (o.b, o.fb)]
  limit := fun _ => some (vlmaxOf (intWidth o.ty))
  grain := beatOf (intWidth o.ty)
  uses := fun s _ => [laneUse o.a (intWidth o.ty) 0 (s.st.on o.m), laneUse o.b (intWidth o.ty) o.rep (s.st.on o.m)]
  body := fun _ lo hi s =>
    let w := intWidth o.ty
    s.maskTo lo hi fun k =>
      if s.st.on o.m k then some (f w (s.elem o.a w k) (s.elem o.b w (srcb o.rep k)), 0) else none

/-- A signed test of two elements. -/
def signedTest (p : Int → Int → Bool) (w a b : Nat) : Bool := p (readInt w false a) (readInt w false b)

def formVseq (o : VCmpOps) : VForm := vcmpForm o fun _ a b => a == b
def formVsne (o : VCmpOps) : VForm := vcmpForm o fun _ a b => a != b
def formVslt (o : VCmpOps) : VForm := vcmpForm o (signedTest fun a b => decide (a < b))
def formVsltn (o : VCmpOps) : VForm := vcmpForm o fun _ a b => decide (a < b)
def formVsle (o : VCmpOps) : VForm := vcmpForm o (signedTest fun a b => decide (a ≤ b))
def formVslen (o : VCmpOps) : VForm := vcmpForm o fun _ a b => decide (a ≤ b)

def execVseq (o : VCmpOps) (s : State) : Result := .next (s.vector (.vseq o) (formVseq o))
def execVsne (o : VCmpOps) (s : State) : Result := .next (s.vector (.vsne o) (formVsne o))
def execVslt (o : VCmpOps) (s : State) : Result := .next (s.vector (.vslt o) (formVslt o))
def execVsltn (o : VCmpOps) (s : State) : Result := .next (s.vector (.vsltn o) (formVsltn o))
def execVsle (o : VCmpOps) (s : State) : Result := .next (s.vector (.vsle o) (formVsle o))
def execVslen (o : VCmpOps) (s : State) : Result := .next (s.vector (.vslen o) (formVslen o))

/-! ## Select and move (R147) -/

/-- `vsel` chooses by `vm`, and takes no mask. -/
def formVsel (o : VSelOps) : VForm where
  vs := [(o.a, o.fa), (o.b, o.fb)]
  vd := [o.d]
  limit := fun _ => some (vlmaxOf (intWidth o.ty))
  legal := repLegal o.d o.b o.rep
  grain := beatOf (intWidth o.ty)
  uses := fun s _ =>
    [laneUse o.a (intWidth o.ty) 0 s.st.vm.getLsbD, laneUse o.b (intWidth o.ty) o.rep fun e => !s.st.vm.getLsbD e]
  body := fun _ lo hi s =>
    let w := intWidth o.ty
    s.lanesTo o.d w lo hi fun k =>
      some (if s.st.vm.getLsbD k then s.elem o.a w k else s.elem o.b w (srcb o.rep k), 0)

/-- `vmv`: a masked copy. -/
def formVmv (o : VUn) : VForm where
  vs := [(o.a, o.fa)]
  vd := [o.d]
  limit := fun _ => some (vlmaxOf (intWidth o.ty))
  grain := beatOf (intWidth o.ty)
  uses := fun s _ => [laneUse o.a (intWidth o.ty) 0 (s.st.on o.m)]
  body := fun _ lo hi s =>
    let w := intWidth o.ty
    s.lanesTo o.d w lo hi (s.masked o.m fun k => (s.elem o.a w k, 0))

def execVsel (o : VSelOps) (s : State) : Result := .next (s.vector (.vsel o) (formVsel o))
def execVmv (o : VUn) (s : State) : Result := .next (s.vector (.vmv o) (formVmv o))

end Sys2Proof.Machine
end

