-- ==== Sys2Proof/Machine/VecPerm.lean ====
section
/-! DEFINITION. Compress, expand, slides and permutes (R157), mask counts (R158) and mask instructions (R159). -/

namespace Sys2Proof.Machine

/-- The frame of R157: unit instructions that copy encodings. `from_` says which element of a, if any, element e
reads. -/
def permForm (d a : Reg) (ty : BitVec 2) (fa : Bool) (from_ : State → QEntry → Nat → Option Nat)
    (body : QEntry → Nat → Nat → State → VOut) : VForm where
  vs := [(a, fa)]
  vd := [d]
  limit := fun _ => some (vlmaxOf (intWidth ty))
  uses := fun s q => [⟨a, intWidth ty, fun e => intWidth ty * (from_ s q e).getD 0, fun e => (from_ s q e).isSome⟩]
  body := body

/-- Bits of a mask set among the first `n`. -/
def bitsBelow (m : MaskReg) : Nat → Nat
  | 0 => 0
  | n + 1 => bitsBelow m n + if m.getLsbD n then 1 else 0

/-- Enabled elements packed in order from element `k` on (R157). -/
def State.compress (s : State) (a : Reg) (w : Nat) : Nat → Nat → Nat → VReg → VReg
  | 0, _, _, v => v
  | n + 1, e, k, v =>
    if s.st.vm.getLsbD e then s.compress a w n (e + 1) (k + 1) (setElem v w k (s.elem a w e))
    else s.compress a w n (e + 1) k v

/-- `vcompress`: vd may not equal va (R35). -/
def formVcompress (o : TUn) : VForm :=
  { permForm o.d o.a o.ty o.fa (fun s _ e => if s.st.vm.getLsbD e then some e else none) fun _ _ hi s =>
      .done (s.putV o.d (s.compress o.a (intWidth o.ty) hi 0 0 (s.st.vget o.d)) (bitsBelow s.st.vm hi != 0)) [] with
    legal := decide (o.d ≠ o.a) }

/-- `vexpand`: element e receives the element numbered by the `vm` bits set below e. -/
def formVexpand (o : TUn) : VForm :=
  { permForm o.d o.a o.ty o.fa
      (fun s _ e => if s.st.vm.getLsbD e then some (bitsBelow s.st.vm e) else none) fun _ _ hi s =>
      let w := intWidth o.ty
      s.lanesTo o.d w 0 hi fun k => if s.st.vm.getLsbD k then some (s.elem o.a w (bitsBelow s.st.vm k), 0) else none with
    legal := decide (o.d ≠ o.a) }

/-- A slide: b names an x register, captured at push. -/
def slideForm (o : VSlideOps) (from_ : Nat → Nat → Nat → Option Nat) (f : State → Nat → Nat → Nat → Nat → Option Nat) :
    VForm :=
  { permForm o.d o.a o.ty o.fa
      (fun s q e => if s.st.on o.m e then from_ q.vl.toNat q.b.toNat e else none) fun q _ hi s =>
      let w := intWidth o.ty
      s.lanesTo o.d w 0 hi fun k => if s.st.on o.m k then (f s w hi q.b.toNat k).map fun x => (x, 0) else none with
    xb := some (o.b, o.fb) }

def formVslideup (o : VSlideOps) : VForm :=
  slideForm o (fun _ x k => if x ≤ k then some (k - x) else none) fun s w _ x k => if x ≤ k then some (s.elem o.a w (k - x)) else none
def formVslidedn (o : VSlideOps) : VForm :=
  slideForm o (fun vl x k => if k + x < vl then some (k + x) else none) fun s w vl x k => some (if k + x < vl then s.elem o.a w (k + x) else 0)

/-- `vperm`: the index is an unsigned element of b; at or above `vl` it gives 0. -/
def formVperm (o : VOps) : VForm :=
  { permForm o.d o.a o.ty o.fa (fun _ _ _ => none) fun _ _ hi s =>
      let w := intWidth o.ty
      s.lanesTo o.d w 0 hi (s.masked o.m fun k =>
        let i := s.elem o.b w (srcb o.rep k)
        (if i < hi then s.elem o.a w i else 0, 0)) with
    vs := [(o.a, o.fa), (o.b, o.fb)]
    uses := fun s q =>
      let w := intWidth o.ty
      let at_ (e : Nat) : Nat := s.elem o.b w (srcb o.rep e)
      [⟨o.a, w, fun e => w * at_ e, fun e => s.st.on o.m e && decide (at_ e < q.vl.toNat)⟩,
        laneUse o.b w o.rep (s.st.on o.m)]
    legal := repLegal o.d o.b o.rep }

def execVcompress (o : TUn) (s : State) : Result := .next (s.vector (.vcompress o) (formVcompress o))
def execVexpand (o : TUn) (s : State) : Result := .next (s.vector (.vexpand o) (formVexpand o))
def execVslideup (o : VSlideOps) (s : State) : Result := .next (s.vector (.vslideup o) (formVslideup o))
def execVslidedn (o : VSlideOps) (s : State) : Result := .next (s.vector (.vslidedn o) (formVslidedn o))
def execVperm (o : VOps) (s : State) : Result := .next (s.vector (.vperm o) (formVperm o))

/-! ## Counting (R158) -/

/-- The frame of R158: `f` of `vm` and `vl` goes to xd. -/
def countForm (d : Reg) (empty : Word) (f : MaskReg → Nat → Word) : VForm where
  xd := some d
  emptyValue := empty
  limit := fun _ => some 2048
  body := fun _ _ hi s => .done (s.setX d (f s.st.vm hi)) []

/-- The lowest bit set among `n` bits from `e` on. -/
def firstSet (m : MaskReg) : Nat → Nat → Option Nat
  | 0, _ => none
  | n + 1, e => if m.getLsbD e then some e else firstSet m n (e + 1)

def formVmpopc (d : Reg) : VForm := countForm d 0 fun m vl => BitVec.ofNat 64 (bitsBelow m vl)
def formVmfirst (d : Reg) : VForm :=
  countForm d (-1) fun m vl => match firstSet m vl 0 with
    | some e => BitVec.ofNat 64 e
    | none => -1

def execVmpopc (d : Reg) (s : State) : Result := .next (s.vector (.vmpopc d) (formVmpopc d))
def execVmfirst (d : Reg) (s : State) : Result := .next (s.vector (.vmfirst d) (formVmfirst d))

/-! ## Mask instructions (R159) -/

/-- The frame of the instructions that write `vm` from bits: `f old bit`. -/
def vmaskForm (vs : List (Reg × Bool)) (bit : State → Nat → Bool) (f : Bool → Bool → Bool) : VForm where
  vs := vs
  limit := fun _ => some 2048
  uses := fun _ q => vs.map fun p => wholeUse p.1 q.vl.toNat
  body := fun _ _ hi s => s.maskTo 0 hi fun k => some (f (s.st.vm.getLsbD k) (bit s k), 0)

/-- Mask bit e of a v register: bit e mod 8 of byte floor(e / 8). -/
def maskBit (a : Reg) (s : State) (e : Nat) : Bool := (s.st.vget a).getLsbD e

def formVmld (o : AOps) : VForm := vmaskForm [(o.a, o.fa)] (maskBit o.a) fun _ b => b
def formVmand (o : AOps) : VForm := vmaskForm [(o.a, o.fa)] (maskBit o.a) fun x b => x && b
def formVmor (o : AOps) : VForm := vmaskForm [(o.a, o.fa)] (maskBit o.a) fun x b => x || b
def formVmxor (o : AOps) : VForm := vmaskForm [(o.a, o.fa)] (maskBit o.a) fun x b => x != b
def formVmnot : VForm := vmaskForm [] (fun _ _ => false) fun x _ => !x
def formVmset : VForm := vmaskForm [] (fun _ _ => false) fun _ _ => true

/-- `vmst`: bits of vd below `vl` from `vm`. -/
def formVmst (d : Reg) : VForm where
  vd := [d]
  limit := fun _ => some 2048
  body := fun _ _ hi s => s.lanesTo d 1 0 hi fun k => some ((s.st.vm.getLsbD k).toNat, 0)

/-- `vmsgb`: the bit says that the element's encoding is nonzero (R84). For a floating type the code is that of the four
formats (R29, R159). -/
def formVmsgb (o : VmsgbOps) : VForm :=
  let w := if o.flt then fpWidth o.ew else intWidth o.ew
  { vmaskForm [(o.a, o.fa)]
      (fun s k => decide (s.elem o.a w k % (if o.flt then 2 ^ (w - 1) else 2 ^ w) ≠ 0)) (fun _ b => b) with
    limit := fun _ => some (vlmaxOf w)
    uses := fun _ q => [wholeUse o.a (w * q.vl.toNat)] }

def execVmld (o : AOps) (s : State) : Result := .next (s.vector (.vmld o) (formVmld o))
def execVmst (d : Reg) (s : State) : Result := .next (s.vector (.vmst d) (formVmst d))
def execVmand (o : AOps) (s : State) : Result := .next (s.vector (.vmand o) (formVmand o))
def execVmor (o : AOps) (s : State) : Result := .next (s.vector (.vmor o) (formVmor o))
def execVmxor (o : AOps) (s : State) : Result := .next (s.vector (.vmxor o) (formVmxor o))
def execVmnot (s : State) : Result := .next (s.vector .vmnot formVmnot)
def execVmset (s : State) : Result := .next (s.vector .vmset formVmset)
def execVmsgb (o : VmsgbOps) (s : State) : Result := .next (s.vector (.vmsgb o) (formVmsgb o))

end Sys2Proof.Machine
end

