-- ==== Sys2Proof/Machine/VecRed.lean ====
section
/-! DEFINITION. Vector reductions and scans (R86, R155, R156). -/

namespace Sys2Proof.Machine

/-- One combination, with the flags it raises. -/
abbrev Combine := Nat → Nat → Nat × FFlags

/-- One level of the tree of R86: pairs combine, an absent member passes the other up, an odd last one is carried up. -/
def pairUp (c : Combine) : List (Option Nat) → List (Option Nat) × FFlags
  | [] => ([], 0)
  | [x] => ([x], 0)
  | x :: y :: rest =>
    let r := pairUp c rest
    match x, y with
    | some a, some b =>
      let z := c a b
      (some z.1 :: r.1, z.2 ||| r.2)
    | some a, none => (some a :: r.1, r.2)
    | none, z => (z :: r.1, r.2)

/-- The tree of R86 over a segment's positions; the first argument bounds the levels. -/
def redTree (c : Combine) : Nat → List (Option Nat) → Option Nat × FFlags
  | _, [] => (none, 0)
  | _, [x] => (x, 0)
  | 0, x :: _ => (x, 0)
  | n + 1, l =>
    let r := pairUp c l
    let z := redTree c n r.1
    (z.1, r.2 ||| z.2)

/-- The enabled elements `e` to `e + n − 1`; a masked-off element is absent. -/
def State.present (s : State) (m : Bool) (a : Reg) (w : Nat) : Nat → Nat → List (Option Nat)
  | _, 0 => []
  | e, n + 1 => (if s.st.on m e then some (s.elem a w e) else none) :: s.present m a w (e + 1) n

/-- How an element enters a reduction: its value, with the flags that reading it raises. -/
abbrev Enter := Nat → Nat × FFlags

/-- A floating element enters under `fz` (R69), a NaN as the canonical one, and a signalling NaN raises NV (R65, R71).
-/
def enterF (f : Fmt) (fz : Bool) : Enter := fun x =>
  let v := readF f fz x
  (if v.isNan then f.nan else flushed f fz x, signals v)

/-- The flags that reading the present elements raises. -/
def enterFlags (inp : Enter) (l : List (Option Nat)) : FFlags :=
  l.foldl (fun acc x => match x with | some y => acc ||| (inp y).2 | none => acc) 0

/-- A segment's result and its flags, with the first position as index (R72). -/
def State.segment (s : State) (inp : Enter) (c : Combine) (m : Bool) (a : Reg) (w empty : Nat) (seg : Nat × Nat) :
    Nat × Raised :=
  let l := s.present m a w seg.1 seg.2
  let r := redTree c 12 (l.map fun x => x.map fun y => (inp y).1)
  (r.1.getD empty, note seg.1 (r.2 ||| enterFlags inp l) [])

/-- Each segment's result goes to its first element, even one that is masked off (R156). -/
def State.reduceTo (s : State) (inp : Enter) (c : Combine) (m : Bool) (a : Reg) (w empty : Nat) :
    List (Nat × Nat) → VReg → VReg × Raised
  | [], v => (v, [])
  | seg :: rest, v =>
    let r := s.segment inp c m a w empty seg
    let z := s.reduceTo inp c m a w empty rest (setElem v w seg.1 r.1)
    (z.1, r.2 ++ z.2)

/-- The running results of elements `e` to `e + n − 1` of one segment (R156). -/
def State.scanFrom (s : State) (inp : Enter) (c : Combine) (m : Bool) (a : Reg) (w : Nat) :
    Nat → Nat → Option Nat → VReg → VReg × Raised
  | 0, _, _, v => (v, [])
  | n + 1, e, acc, v =>
    if s.st.on m e then
      let x := inp (s.elem a w e)
      let r := match acc with
        | none => (x.1, 0)
        | some y => c y x.1
      let z := s.scanFrom inp c m a w n (e + 1) (some r.1) (setElem v w e r.1)
      (z.1, note e (r.2 ||| x.2) z.2)
    else s.scanFrom inp c m a w n (e + 1) acc v

/-- Every segment's running results. -/
def State.scanTo (s : State) (inp : Enter) (c : Combine) (m : Bool) (a : Reg) (w : Nat) :
    List (Nat × Nat) → VReg → VReg × Raised
  | [], v => (v, [])
  | seg :: rest, v =>
    let r := s.scanFrom inp c m a w seg.2 seg.1 none v
    let z := s.scanTo inp c m a w rest r.1
    (z.1, r.2 ++ z.2)

/-- The flags of every segment: they arise in every segment, also where only the first one is delivered (R156; log
16). -/
def State.segmentFlags (s : State) (inp : Enter) (c : Combine) (m : Bool) (a : Reg) (w empty : Nat)
    (segs : List (Nat × Nat)) : Raised :=
  segs.flatMap fun seg => (s.segment inp c m a w empty seg).2

/-- The frame of R155 and R156; `ext` extends a result into xd. -/
def vredForm (o : VRedOps) (w : Nat) (rounds : Bool) (empty : Nat) (ext : Nat → Word) (inp : QEntry → Enter)
    (c : QEntry → Combine) : VForm where
  vs := [(o.a, o.fa)]
  vd := if o.xdst then [] else [o.d]
  xd := if o.xdst then some o.d else none
  emptyValue := ext empty
  limit := fun _ => some (vlmaxOf w)
  rounds := rounds
  uses := fun s _ => [laneUse o.a w 0 (s.st.on o.m)]
  body := fun q _ hi s =>
    let segs := segmentsOf s.st.vsg hi
    if o.xdst then
      let first := match segs with
        | [] => empty
        | seg :: _ => (s.segment (inp q) (c q) o.m o.a w empty seg).1
      .done (s.setX o.d (ext first)) (s.segmentFlags (inp q) (c q) o.m o.a w empty segs)
    else
      let v := s.st.vget o.d
      let r := if o.scan then s.scanTo (inp q) (c q) o.m o.a w segs v
        else s.reduceTo (inp q) (c q) o.m o.a w empty segs v
      let wrote := !o.scan || anyLane (s.masked o.m fun _ => (0, 0)) hi 0
      .done (s.putV o.d r.1 wrote) r.2

/-- An integer reduction. -/
def vredInt (o : VRedOps) (empty : Nat → Nat) (signed : Bool) (f : Nat → Nat → Nat → Nat) : VForm :=
  let w := intWidth o.ty
  vredForm o w false (empty w) (extendBits w signed) (fun _ x => (x, 0)) fun _ a b => (f w a b, 0)

/-- A floating reduction. -/
def vredFp (o : VRedOps) (rounds : Bool) (empty : Fmt → Nat) (f : QEntry → Fmt → Combine) : VForm :=
  vredForm o (fpWidth o.ty) rounds (empty (fmtOf o.ty)) ofBits (fun q => enterF (fmtOf o.ty) q.fz) fun q => f q (fmtOf o.ty)

def formVrsum (o : VRedOps) : VForm := vredInt o (fun _ => 0) true fun w a b => maskW w (a + b)
def formVrmax (o : VRedOps) : VForm := vredInt o (fun w => 2 ^ (w - 1)) true smaxW
def formVrmin (o : VRedOps) : VForm := vredInt o (fun w => 2 ^ (w - 1) - 1) true sminW
def formVrmaxn (o : VRedOps) : VForm := vredInt o (fun _ => 0) false fun _ a b => Nat.max a b
def formVrminn (o : VRedOps) : VForm := vredInt o (fun w => 2 ^ w - 1) false fun _ a b => Nat.min a b
def formVrfsum (o : VRedOps) : VForm :=
  vredFp o true (fun _ => 0) fun q f a b => addF f q.frm q.fz (readF f q.fz a) (readF f q.fz b)
def formVrfmax (o : VRedOps) : VForm := vredFp o false (fun f => packInf f true) fun q f => minmaxF f q.fz true
def formVrfmin (o : VRedOps) : VForm := vredFp o false (fun f => packInf f false) fun q f => minmaxF f q.fz false

def execVrsum (o : VRedOps) (s : State) : Result := .next (s.vector (.vrsum o) (formVrsum o))
def execVrmax (o : VRedOps) (s : State) : Result := .next (s.vector (.vrmax o) (formVrmax o))
def execVrmin (o : VRedOps) (s : State) : Result := .next (s.vector (.vrmin o) (formVrmin o))
def execVrmaxn (o : VRedOps) (s : State) : Result := .next (s.vector (.vrmaxn o) (formVrmaxn o))
def execVrminn (o : VRedOps) (s : State) : Result := .next (s.vector (.vrminn o) (formVrminn o))
def execVrfsum (o : VRedOps) (s : State) : Result := .next (s.vector (.vrfsum o) (formVrfsum o))
def execVrfmax (o : VRedOps) (s : State) : Result := .next (s.vector (.vrfmax o) (formVrfmax o))
def execVrfmin (o : VRedOps) (s : State) : Result := .next (s.vector (.vrfmin o) (formVrfmin o))

end Sys2Proof.Machine
end

