-- ==== Sys2Proof/Machine/VecRun.lean ====
section
/-! DEFINITION. Which form an entry of the vector queue runs (R18, R120). -/

namespace Sys2Proof.Machine

/-- The form of an entry; nothing where its instruction is not one that is pushed (R118, R124). -/
def formOf (e : QEntry) : Option VForm :=
  match e.instr with
  | .xcopy o => some (formXcopy o)
  | .xwharf o => some (formXwharf o)
  | .xpix o => some (formXpix o)
  | .xtrain o => some (formXtrain o)
  | .xcoll o => some (formXcoll o)
  | .launch o => some (formLaunch o)
  | .cancel o => some (formCancel o)
  | .emit o => some (formEmit o)
  | .mgp o => some (formMgp o)
  | .mwedge o => some (formMwedge o)
  | .mjoin o => some (formMjoin o)
  | .mdot o => some (formMdot o)
  | .msand o => some (formMsand o)
  | .msandChk o => some (formMsandChk o)
  | .madd o => some (formMadd o)
  | .msub o => some (formMsub o)
  | .mrev o => some (formMrev o)
  | .mdual o => some (formMdual o)
  | .mnorm o => some (formMnorm o)
  | .munit o => some (formMunit o)
  | .mexp o => some (formMexp o)
  | .mlog o => some (formMlog o)
  | .mproj o => some (formMproj o)
  | .mscale o => some (formMscale o)
  | .mld o => some (formMld o)
  | .mst o => some (formMst o)
  | .msetg o => some (formMsetg o)
  | .mcvt o => some (formMcvt o)
  | .pload o => some (formPload o)
  | .penq o => some (formPenq o)
  | .pcfg o => some (formPcfg o)
  | .pstat o => some (formPstat o)
  | .vbox o => some (formVbox o)
  | .vtri o => some (formVtri o)
  | .sbind o => some (formSbind o)
  | .sunbind n => some (formSunbind n)
  | .sdrain n => some (formSdrain n)
  | .sstat o => some (formSstat o)
  | .cbload o => some (formCbload o)
  | .vxf o => some (formVxf o)
  | .vwait o => some (formVwait o)
  | .tzero h => some (formTzero h)
  | .topa o => some (formTopa o)
  | .tspa o => some (formTspa o)
  | .tmvr o => some (formTmvr o e.vl)
  | .tmvc o => some (formTmvc o e.vl)
  | .tmvw o => some (formTmvw o e.vl)
  | .vspc o => some (formVspc o)
  | .vspx o => some (formVspx o)
  | .vcvt o => some (formVcvt o)
  | .vcvtif o => some (formVcvtif o)
  | .vcvtfi o => some (formVcvtfi o)
  | .vqnt o => some (formVqnt o)
  | .vwid o => some (formVwid o)
  | .vnef o => some (formVnef o)
  | .vfadd o => some (formVfadd o)
  | .vfsub o => some (formVfsub o)
  | .vfmul o => some (formVfmul o)
  | .vfdiv o => some (formVfdiv o)
  | .vfmin o => some (formVfmin o)
  | .vfmax o => some (formVfmax o)
  | .vfmac o => some (formVfmac o)
  | .vfnmac o => some (formVfnmac o)
  | .vfsqrt o => some (formVfsqrt o)
  | .vfabs o => some (formVfabs o)
  | .vfneg o => some (formVfneg o)
  | .vfclass o => some (formVfclass o)
  | .vfrint o => some (formVfrint o)
  | .vfeq o => some (formVfeq o)
  | .vfne o => some (formVfne o)
  | .vflt o => some (formVflt o)
  | .vfle o => some (formVfle o)
  | .vfunord o => some (formVfunord o)
  | .vadd o => some (formVadd o)
  | .vsub o => some (formVsub o)
  | .vand o => some (formVand o)
  | .vor o => some (formVor o)
  | .vxor o => some (formVxor o)
  | .vshl o => some (formVshl o)
  | .vshr o => some (formVshr o)
  | .vsar o => some (formVsar o)
  | .vmul o => some (formVmul o)
  | .vmulh o => some (formVmulh o)
  | .vmulhn o => some (formVmulhn o)
  | .vmin o => some (formVmin o)
  | .vmax o => some (formVmax o)
  | .vminn o => some (formVminn o)
  | .vmaxn o => some (formVmaxn o)
  | .vmac o => some (formVmac o)
  | .vseq o => some (formVseq o)
  | .vsne o => some (formVsne o)
  | .vslt o => some (formVslt o)
  | .vsltn o => some (formVsltn o)
  | .vsle o => some (formVsle o)
  | .vslen o => some (formVslen o)
  | .vsel o => some (formVsel o)
  | .vmv o => some (formVmv o)
  | .vld o => some (formVld o)
  | .vlds o => some (formVlds o)
  | .vldb o => some (formVldb o)
  | .vlr o => some (formVlr o)
  | .vst o => some (formVst o)
  | .vsts o => some (formVsts o)
  | .vstb o => some (formVstb o)
  | .vsr o => some (formVsr o)
  | .vldx o => some (formVldx o)
  | .vstx o => some (formVstx o)
  | .vatadd o => some (formVatadd o)
  | .vatfadd o => some (formVatfadd o)
  | .vatand o => some (formVatand o)
  | .vator o => some (formVator o)
  | .vatxor o => some (formVatxor o)
  | .vatmin o => some (formVatmin o)
  | .vatmax o => some (formVatmax o)
  | .vatswap o => some (formVatswap o)
  | .vldz o => some (formVldz o)
  | .vcompress o => some (formVcompress o)
  | .vexpand o => some (formVexpand o)
  | .vslideup o => some (formVslideup o)
  | .vslidedn o => some (formVslidedn o)
  | .vperm o => some (formVperm o)
  | .vmpopc d => some (formVmpopc d)
  | .vmfirst d => some (formVmfirst d)
  | .vmld o => some (formVmld o)
  | .vmst d => some (formVmst d)
  | .vmand o => some (formVmand o)
  | .vmor o => some (formVmor o)
  | .vmxor o => some (formVmxor o)
  | .vmnot => some formVmnot
  | .vmset => some formVmset
  | .vmsgb o => some (formVmsgb o)
  | .vrsum o => some (formVrsum o)
  | .vrmax o => some (formVrmax o)
  | .vrmin o => some (formVrmin o)
  | .vrmaxn o => some (formVrmaxn o)
  | .vrminn o => some (formVrminn o)
  | .vrfsum o => some (formVrfsum o)
  | .vrfmax o => some (formVrfmax o)
  | .vrfmin o => some (formVrfmin o)
  | _ => none

/-- The head of the queue stops where it stands. -/
def Strand.standHead (t : Strand) : Strand :=
  match t.queue.head? with
  | none => t
  | some e =>
    match formOf e with
    | none => t
    | some f => f.stand e t

end Sys2Proof.Machine
end

