-- ==== Sys2Proof/Machine/Context.lean ====
section
/-! DEFINITION. The save area (R128, R129), `ctxsv` and `ctxld` (R127), and reading state back with `rdst` (R351). -/

namespace Sys2Proof.Machine

/-! ## Writing the area (R128) -/

/-- What differs between a save by `ctxsv` and one by the device. -/
structure SaveKind where
  image : List QEntry
  resume : Word
  vcp : Word
  supervisor : Bool
  cause : Nat
  /-- the operand of `ctxsv`, whose slot takes `tscratch` -/
  slot : Option Reg
  /-- every `vdirty` bit is taken as 1 (R351) -/
  all : Bool

/-- The stores that wait on an entry of the image. -/
def Strand.imageStores (t : Strand) (image : List QEntry) : List SEntry :=
  t.stores.filter fun e => e.after.any (image.map QEntry.seq).contains

/-- The bytes of a queue-image entry (R129). -/
def QEntry.bytes (e : QEntry) : List Byte :=
  bytesOf 4 (wordOf e.instr).toNat ++ bytesOf 4 e.raised.toNat ++ bytesOf 8 e.pc.toNat ++ bytesOf 8 e.a.toNat ++
    bytesOf 8 e.b.toNat ++ bytesOf 8 e.d.toNat ++ bytesOf 8 e.vs.toNat ++ bytesOf 2 e.vl.toNat ++ bytesOf 1 e.vgm.toNat ++
    bytesOf 1 (e.frm.toNat + (if e.fz then 8 else 0)) ++ bytesOf 12 0

/-- The bytes of a store-image entry. -/
def SEntry.bytes (e : SEntry) : List Byte :=
  bytesOf 8 e.addr.toNat ++ bytesOf 8 e.data.toNat ++ bytesOf 8 e.cmp.toNat ++ bytesOf 4 (wordOf e.instr).toNat ++ bytesOf 4 0

/-- A bit as a number. -/
def bit (b : Bool) : Nat := if b then 1 else 0

/-- The first 96 bytes of the area, and the claims. -/
def Strand.saveHead (t : Strand) (k : SaveKind) (stores : List SEntry) : List Byte :=
  let flags := bit k.supervisor + 2 * bit t.crit + 4 * bit t.vlFull + 8 * bit t.mark.isSome
  let mark := t.mark.getD (0, 0)
  bytesOf 8 k.resume.toNat ++ bytesOf 8 k.vcp.toNat ++ bytesOf 1 k.image.length ++ bytesOf 1 stores.length ++
    bytesOf 1 t.claims.length ++ bytesOf 1 flags ++ bytesOf 2 t.critCount ++ bytesOf 1 t.tonOwned.toNat ++
    bytesOf 1 k.cause ++ bytesOf 4 t.xfull.toNat ++ bytesOf 4 t.vfull.toNat ++ bytesOf 8 t.tscratch.toNat ++
    bytesOf 8 mark.1.toNat ++ bytesOf 4 mark.2.toNat ++ bytesOf 12 0 ++
    (List.range 32).map fun i => ((t.claims[i]?).map fun r => r.zeroExtend 8).getD 0

/-- The value of an x slot: the operand's slot takes `tscratch`, but slot 0 is zero in every area. R128 says both of a
`ctxsv x0`; the layout's zero wins (DESIGN CHOICE, log 79). -/
def Strand.saveX (t : Strand) (k : SaveKind) (r : Reg) : Word :=
  if k.slot == some r && decide (r ≠ 0) then t.tscratch else t.xget r

/-- The value of a control-register slot. -/
def Strand.saveCr (t : Strand) (k : SaveKind) (i : Nat) : Word :=
  if i = 0x006 then k.vcp &&& 0xFFFFFFFFFFFFFF else t.crLow i

/-- The 32 bytes of a stream register. -/
def Strand.saveStream (t : Strand) (r : Reg) : List Byte :=
  match t.streamOf r with
  | none => bytesOf 32 0
  | some b => bytesOf 8 b.desc.toNat ++ bytesOf 8 b.pos ++ bytesOf 1 1 ++ bytesOf 15 0

/-- The area in pieces: offset and bytes, each within one 4 KiB page, in rising order. Entries of the queue image at and
above qcount are zero (log 34). -/
def Strand.savePieces (t : Strand) (k : SaveKind) : List (Nat × List Byte) :=
  let stores := t.imageStores k.image
  let regs := (List.range 32).map fun i => BitVec.ofNat 5 i
  [(0, t.saveHead k stores ++ bytesOf 160 0),
    (0x100, regs.flatMap fun r => bytesOf 8 (t.saveX k r).toNat),
    (0x200, (List.range 0xA0).flatMap fun i => bytesOf 8 (t.saveCr k i).toNat),
    (0x700, (regs.drop 24).flatMap t.saveStream),
    (0x800, ((stores.flatMap SEntry.bytes) ++ bytesOf 512 0).take 512),
    (0xA00, bytesOf 1536 0),
    (0x1000, ((k.image.flatMap QEntry.bytes) ++ bytesOf 4096 0).take 4096)] ++
  ((List.range 4).filter fun h => k.all || t.vdirty.getLsbD (32 + h)).map (fun h =>
    (0x2000 + 0x1000 * h, bytesOf 4096 (t.tile h).toNat)) ++
  (regs.filter fun r => (k.all || t.vdirty.getLsbD r.toNat) && (t.streamOf r).isNone).map fun r =>
    (0x6000 + 0x800 * r.toNat, bytesOf 2048 (t.vget r).toNat)

/-- Pages of 4 KiB in the area. -/
def areaPages : Nat := 22

/-- A page of the area: where it begins, and the skew that places its lines (R289). -/
structure AreaPage where
  place : Place
  skew : Nat
  deriving DecidableEq, Repr

/-- The place of a byte of an area by its offset. -/
def areaPlace (ps : List AreaPage) (off : Nat) : Option Place :=
  (ps[off / 4096]?).map fun g => g.place.along g.skew (off % 4096)

/-- The area's pages from page `k` on, or the first that a check refuses. -/
def pagePlaces (chk : Word → Chk) (skew : Word → Nat) (a : Word) : Nat → Nat → Except (BitVec 8 × Word) (List AreaPage)
  | 0, _ => .ok []
  | n + 1, k =>
    let va := a + BitVec.ofNat 64 (4096 * k)
    match chk va with
    | .bad c _ => .error (c, va)
    | .ok p _ =>
      match pagePlaces chk skew a n (k + 1) with
      | .error e => .error e
      | .ok ps => .ok (⟨p, skew va⟩ :: ps)

/-- The lines of a piece that begins with one: offset and bytes of each. -/
def linesOf (off : Nat) (bs : List Byte) : List (Nat × List Byte) :=
  (List.range ((bs.length + 63) / 64)).map fun k => (off + 64 * k, (bs.drop (64 * k)).take 64)

/-- Writes lines of an area, in order. -/
def State.writeLines (write : State → Word → Place → List Byte → State) (a : Word) (places : List AreaPage) :
    List (Nat × List Byte) → State → State
  | [], s => s
  | (off, bs) :: rest, s =>
    match areaPlace places off with
    | none => s
    | some p => State.writeLines write a places rest (write s (a + BitVec.ofNat 64 off) p bs)

/-- Writes pieces line by line, up to the first that lies in no page given. -/
def State.writePieces (write : State → Word → Place → List Byte → State) (a : Word) (places : List AreaPage)
    (ps : List (Nat × List Byte)) (s : State) : State :=
  State.writeLines write a places (ps.flatMap fun p => linesOf p.1 p.2) s

/-- The pages before the first that a check refuses. -/
def goodPlaces (chk : Word → Chk) (skew : Word → Nat) (a : Word) : Nat → Nat → List AreaPage
  | 0, _ => []
  | n + 1, k =>
    let va := a + BitVec.ofNat 64 (4096 * k)
    match chk va with
    | .bad _ _ => []
    | .ok p _ => ⟨p, skew va⟩ :: goodPlaces chk skew a n (k + 1)

/-- The image, its stores and the claims leave the strand after `ctxsv` (R128), so the decode copies of the tags are the
tags again (R187). -/
def Strand.afterSave (t : Strand) : Strand :=
  let gone := t.imageStores t.image
  let pend := gone.foldl (fun m e => match e.dest with | some r => setReg m r false | none => m) t.xpend
  { t with
    image := []
    held := false
    stores := t.stores.filter fun e => !(e.after.any (t.image.map QEntry.seq).contains)
    claims := []
    xpend := pend
    dtag := t.gtag }

/-- A strand as `ctxsv` shows it: the flags of scalar instructions behind an image entry have entered (R73). -/
def Strand.shown (t : Strand) : Strand :=
  let r := t.takeFlags t.image
  { r.1 with image := r.2 }

/-- What `ctxsv` saves, beside the registers of the strand. -/
def Strand.svKind (t : Strand) (executing : Bool) (a : Option Reg) (all : Bool) : SaveKind :=
  ⟨t.image, t.tepc.signExtend 64, t.vcp executing, t.ppl == .supervisor, 0, a, all⟩

/-- `ctxsv` waits: for its own older entries, for the stores that wait on no image entry, for loads and output
streams. -/
def Strand.saveWaits (t : Strand) : Bool :=
  t.busy || (t.stores.any fun e => e.after.isNone) || !t.loads.isEmpty || t.draining

/-- An area operand: 4 KiB aligned (R127). -/
def areaMisaligned (a : Word) : Bool := canonical a && a.toNat % 4096 != 0

/-- `ctxsv`. -/
def execCtxsv (a : Reg) (s : State) : Result :=
  .next (s.supervisor (.ctxsv a) fun s =>
    s.gated [(a, false)] [] fun s =>
      let t := s.st
      let va := t.xget a
      if areaMisaligned va then s.trap 0x08 va
      else if t.saveWaits then s.stall
      else if t.xpoison ≠ 0 ∨ t.vpoison ≠ [] then s.machineCheck 0 0
      else
        let chk (x : Word) : Chk := s.check .write 1 4096 x
        let skew := s.skewSeen t.stores t.ctx
        let pieces := t.shown.savePieces (t.shown.svKind true (some a) false)
        match pagePlaces chk skew va areaPages 0 with
        | .error (c, x) =>
          (State.writePieces State.writePlace va (goodPlaces chk skew va areaPages 0) pieces s).trap c x
        | .ok ps =>
          let s := (State.writePieces State.writePlace va ps pieces s).upd fun t =>
            { t.shown.afterSave with iter := { t.iter with effects := true } }
          s.advance)

/-! ## Reading the area (R128, R129) -/

/-- A read of `n` bytes at an offset of an area. -/
abbrev AreaRead := Nat → Nat → Nat

/-- The bytes of one slot of the control registers. -/
def crSlot (rd : AreaRead) (i : Nat) : Word := BitVec.ofNat 64 (rd (0x200 + 8 * i) 8)

/-- A slot that a `crw` would refuse (R129); unassigned slots are zero. -/
def crSlotBad (rd : AreaRead) (i : Nat) : Bool :=
  let v := crSlot rd i
  if i == 0x006 || i == 0x007 || i == 0x01C then false
  else decide (v &&& ~~~(crField i) ≠ 0) || crIllegal i v

/-- What an instruction word of the store image stores: its size, its access and its destination. -/
def storeShape (i : Instr) : Option (Nat × Acc × Option Reg) :=
  match i with
  | .st o => some (intBytes o.ty, .write, none)
  | .atadd o | .atfadd o | .atand o | .ator o | .atxor o | .atmin o | .atmax o | .atminn o | .atmaxn o | .atswap o
  | .atcas o => some (if o.wide then 8 else 4, .atomic, some o.d)
  | _ => none

/-- The instruction of an entry of the queue image, where it is one that is pushed and that decode accepts. -/
def imageInstr (rd : AreaRead) (k : Nat) : Option Instr :=
  match decodeWord (BitVec.ofNat 32 (rd (0x1000 + 64 * k) 4)) with
  | none => none
  | some i =>
    match formOf { instr := i, pc := 0 } with
    | some f => if f.legal then some i else none
    | none => none

/-- An area that `ctxld` finds legal (R129). -/
def areaLegal (rd : AreaRead) : Bool :=
  let q := rd 0x10 1
  let n := rd 0x11 1
  let c := rd 0x12 1
  let flags := rd 0x13 1
  let zeros (off len : Nat) : Bool := rd off len == 0
  decide (q ≤ 64) && decide (n ≤ 16) && decide (c ≤ 32) && decide (flags < 16) && decide (rd 0x14 2 ≤ 4096) &&
    decide (rd 0x16 1 ≤ 4) && (rd 0x17 1 == 0 || rd 0x17 1 == 0x12) && zeros 0x34 12 && zeros 0x60 160 && zeros 0x100 8 &&
    (flags.testBit 3 || zeros 0x28 12) && zeros 0xA00 1536 &&
    ((List.range 32).all fun i =>
      let r := rd (0x40 + i) 1
      if i < c then decide (1 ≤ r) && decide (r < 32) else r == 0) &&
    ((List.range 0xA0).all fun i => !crSlotBad rd i) &&
    ((List.range 8).all fun i => decide (rd (0x710 + 32 * i) 1 ≤ 1) && zeros (0x711 + 32 * i) 15) &&
    ((List.range 16).all fun i =>
      if i < n then
        zeros (0x81C + 32 * i) 4 && ((decodeWord (BitVec.ofNat 32 (rd (0x818 + 32 * i) 4))).bind storeShape).isSome
      else zeros (0x800 + 32 * i) 32) &&
    (List.range q).all fun k =>
      (imageInstr rd k).isSome && decide (rd (0x1004 + 64 * k) 4 < 128) && decide (rd (0x1033 + 64 * k) 1 < 16) &&
        zeros (0x1034 + 64 * k) 12

/-- The queue image from the area, oldest first, with the decode copies of the tags that it leaves (R129, R187). The
area holds no tag of an entry's sources: for a head that stopped at `vstart` > 0 over a source of its own, the tag
taken is the one it has committed (DESIGN CHOICE, log 80). -/
def loadImage (rd : AreaRead) (recheck : Bool) (base : Nat) : Nat → Nat → Strand → List QEntry × Strand
  | 0, _, t => ([], t)
  | n + 1, k, t =>
    let at_ := 0x1000 + 64 * k
    let w (off : Nat) : Word := BitVec.ofNat 64 (rd (at_ + off) 8)
    match imageInstr rd k with
    | none => ([], t)
    | some i =>
      let e : QEntry :=
        { instr := i, pc := w 0x08, a := w 0x10, b := w 0x18, d := w 0x20, vs := w 0x28
          vl := BitVec.ofNat 12 (rd (at_ + 0x30) 2), vgm := BitVec.ofNat 5 (rd (at_ + 0x32) 1)
          frm := BitVec.ofNat 3 (rd (at_ + 0x33) 1), fz := (rd (at_ + 0x33) 1).testBit 3
          raised := BitVec.ofNat 7 (rd (at_ + 0x04) 4), seq := base + 32 * k, reissued := k == 0 }
      match formOf e with
      | none => ([], t)
      | some f =>
        let e := { f.mark e with
          ta := t.dtagOf f.tagA, tb := t.dtagOf f.tagB
          wtags := if f.readsVl && e.vl == 0 then [] else f.writes { t with vgm := e.vgm }
          recheck := recheck && f.rechecks }
        let r := loadImage rd recheck base n (k + 1) (t.copyTags e.wtags)
        (e :: r.1, r.2)

/-- The image entry that store `k` waits on: as the saved strand remembers it, else any, in order (log 34). -/
def waitIndex (seed q : Nat) (hint : Option Strand) (k prev : Nat) : Nat :=
  let known := hint.bind fun t =>
    (((t.stores.filter fun e => e.after.isSome)[k]?).bind SEntry.after).bind fun n => t.queue.findIdx? fun e => e.seq == n
  Nat.max prev (Nat.min (q - 1) (known.getD (Config.storeAfter seed k % Nat.max 1 q)))

/-- The store image from the area: each store is translated again (log 34). -/
def State.loadStores (s : State) (rd : AreaRead) (q base : Nat) (hint : Option Strand) :
    Nat → Nat → Nat → Except (BitVec 8 × Word) (List SEntry)
  | 0, _, _ => .ok []
  | n + 1, k, prev =>
    let at_ := 0x800 + 32 * k
    let addr := BitVec.ofNat 64 (rd at_ 8)
    match decodeWord (BitVec.ofNat 32 (rd (at_ + 24) 4)) with
    | none => .ok []
    | some i =>
      match storeShape i with
      | none => .ok []
      | some (size, acc, dest) =>
        match s.check acc size size addr with
        | .bad c _ => .error (c, addr)
        | .ok p _ =>
          let j := waitIndex s.freeCount q hint k prev
          let e : SEntry :=
            { seq := base + 32 * j + 1 + k, after := if q = 0 then none else some (base + 32 * j), instr := i, addr
              place := p, size, data := BitVec.ofNat 64 (rd (at_ + 8) 8), cmp := BitVec.ofNat 64 (rd (at_ + 16) 8), dest
              page := s.pageBytes addr }
          match s.loadStores rd q base hint n (k + 1) j with
          | .error x => .error x
          | .ok es => .ok (e :: es)

/-- The streams that the area binds: each descriptor is read again (log 34). -/
def State.loadStreams (s : State) (rd : AreaRead) : Nat → Nat → Except (BitVec 8 × Word) (List (Nat × Stream))
  | 0, _ => .ok []
  | n + 1, k =>
    let at_ := 0x700 + 32 * k
    if rd (at_ + 16) 1 = 0 then s.loadStreams rd n (k + 1)
    else
      let desc := BitVec.ofNat 64 (rd at_ 8)
      if canonical desc && desc.toNat % 64 != 0 then .error (0x15, desc)
      else
        match s.check .read 1 64 desc with
        | .bad c _ => .error (c, desc)
        | .ok p _ =>
          match s.streamFrom desc (s.seenBytes p 64) with
          | none => .error (0x15, desc)
          | some b =>
            match s.loadStreams rd n (k + 1) with
            | .error e => .error e
            | .ok l => .ok ((24 + k, { b with pos := Nat.min b.total (rd (at_ + 8) 8) }) :: l)

/-- The control registers of the area. -/
def Strand.loadCr (t : Strand) (rd : AreaRead) : Strand :=
  (List.range 0xA0).foldl (fun t i =>
    if i == 0x006 || i == 0x007 || i == 0x01C then t else t.crPut i (crSlot rd i)) t

/-- A v register of the area: its contents, or zero, full and plain. -/
def Strand.loadV (t : Strand) (rd : AreaRead) (dirty : BitVec 36) (bound : Nat → Bool) (i : Nat) : Strand :=
  let r : Reg := BitVec.ofNat 5 i
  if dirty.getLsbD i && !bound i then
    { t.vput r (BitVec.ofNat 16384 (rd (0x6000 + 0x800 * i) 2048)) with
      vfull := setReg t.vfull r ((BitVec.ofNat 32 (rd 0x1C 4)).getLsbD i) }
  else { ((t.vput r 0).setTag r 0).setDtag r 0 with vfull := setReg t.vfull r true }

/-- The x registers and `tscratch`: with an operand, its slot goes to `tscratch`; else the field tscr does. -/
def Strand.loadX (t : Strand) (rd : AreaRead) (xa : Option Reg) : Strand :=
  let slot (i : Nat) : Word := BitVec.ofNat 64 (rd (0x100 + 8 * i) 8)
  let t := (List.range 32).foldl (fun t i =>
    let r : Reg := BitVec.ofNat 5 i
    if i = 0 ∨ xa = some r then t
    else { t.xset r (slot i) with xfull := setReg t.xfull r ((BitVec.ofNat 32 (rd 0x18 4)).getLsbD i) }) t
  { t with
    tscratch := match xa with
      | some r => slot r.toNat
      | none => BitVec.ofNat 64 (rd 0x20 8) }

/-- Claims that are brought back take the oldest records present (R109, R128). -/
def Strand.fillClaims : Nat → Strand → Strand
  | 0, t => t
  | n + 1, t =>
    match t.claims, t.events with
    | r :: rs, e :: es => Strand.fillClaims n { t.xset r e.word with claims := rs, events := es }
    | _, _ => t

/-- The strand that a legal area gives, on top of the strand in focus; its tiles are granted before. `hint` is a strand
that the device saved, for what the area does not hold. The claims of the area take the place of the strand's own
(DESIGN CHOICE, log 85). -/
def State.loadArea (s : State) (rd : AreaRead) (xa : Option Reg) (hint : Option Strand) :
    Except (BitVec 8 × Word) Strand :=
  let t := s.st
  let q := rd 0x10 1
  let flags := rd 0x13 1
  let base := t.seq
  let own := t.stores.filter fun e => e.after.isNone
  let viewed := s.upd fun t => { t with level := if flags.testBit 0 then .supervisor else .user, stores := own }
  match viewed.loadStreams rd 8 0, viewed.loadStores rd q base hint (rd 0x11 1) 0 0 with
  | .error e, _ => .error e
  | _, .error e => .error e
  | .ok streams, .ok stores =>
    let dirty := BitVec.ofNat 36 (rd (0x200 + 8 * 5) 8)
    let bound (i : Nat) : Bool := streams.any fun p => p.1 == i
    let t := (t.loadX rd xa).loadCr rd
    let t := (List.range 32).foldl (fun t i => t.loadV rd dirty bound i) t
    let t := { t with dtag := t.gtag }
    let img := loadImage rd t.rchk base q 0 t
    let t := stores.foldl (fun t e => match e.dest with | some r => t.pend r | none => t)
      { t with
        image := img.1
        queue := []
        stores := own ++ stores
        streams
        xpend := 0
        xpoison := (hint.map Strand.xpoison).getD 0
        vpoison := (hint.map Strand.vpoison).getD []
        claims := (List.range (rd 0x12 1)).map fun i => BitVec.ofNat 5 (rd (0x40 + i) 1)
        crit := flags.testBit 1
        critDepth := if flags.testBit 1 then (hint.map Strand.critDepth).getD 0 + 1 else 0
        critCount := rd 0x14 2
        vlFull := flags.testBit 2
        mark := if flags.testBit 3 then some (BitVec.ofNat 64 (rd 0x28 8), BitVec.ofNat 32 (rd 0x30 4)) else none
        tiles := Vector.ofFn fun (h : Fin 4) =>
          if dirty.getLsbD (32 + h.val) && decide (h.val < rd 0x16 1) then
            BitVec.ofNat 32768 (rd (0x2000 + 0x1000 * h.val) 4096) else 0
        tepc := BitVec.ofNat 56 (rd 0 8)
        ppl := if flags.testBit 0 then .supervisor else .user
        held := decide (0 < q)
        tonPend := none
        seq := base + 32 * 66 }
    .ok (t.fillClaims 32).takeNotices

/-- The parts of the area that a restore reads: the first 8 KiB, and the slots whose `vdirty` bit is set. -/
def areaParts (rd : AreaRead) : List (Nat × Nat) :=
  let dirty := BitVec.ofNat 36 (rd (0x200 + 8 * 5) 8)
  (0, 4096) :: (0x1000, 4096) ::
    ((List.range 4).filter fun h => dirty.getLsbD (32 + h)).map (fun h => (0x2000 + 0x1000 * h, 4096)) ++
    ((List.range 32).filter fun i => dirty.getLsbD i).map fun i => (0x6000 + 0x800 * i, 2048)

/-- The first poisoned line that a restore reads. -/
def State.areaPoison (s : State) (a : Word) (places : List AreaPage) (rd : AreaRead) : Option Word :=
  (areaParts rd).findSome? fun p => (List.range (p.2 / 64)).findSome? fun k =>
    (areaPlace places (p.1 + 64 * k)).bind fun q => s.poisonAt (a + BitVec.ofNat 64 (p.1 + 64 * k)) q 64

/-- The reader of an area through its pages. -/
def State.areaReader (s : State) (places : List AreaPage) : AreaRead := fun off n =>
  ofBytes (bytesAt (fun i => ((areaPlace places i).map s.seenByte).getD 0) off n)

/-- Tiles wanted by a `ctxld`: granted now, else the request waits (R128, R202). -/
def State.restoreTiles (s : State) (n : Nat) : Option State :=
  if n = 0 then some (s.upd fun t => { t with tonOwned := 0, tonPend := none })
  else
    let req : TonReq := s.st.tonPend.getD { tiles := n, stamp := s.stamp, decode := false }
    if s.canGrant n req.stamp then some (s.upd fun t => t.grant n) else none

/-- `ctxld` waits: for the strand's queue, in which a held image stays (R122), and for what would still fill or read its
registers: loads, atomics, and output streams. -/
def Strand.loadWaits (t : Strand) : Bool :=
  t.busy || !t.image.isEmpty || !t.loads.isEmpty || t.draining || t.stores.any fun e => e.after.isNone && e.dest.isSome

/-- `ctxld`: an illegal area takes trap 0x02 and loads nothing; else the tiles are released and requested, and the
strand is restored. Its own stores stay in the store queue ahead of those of the area, for which it must have room. -/
def execCtxld (a : Reg) (s : State) : Result :=
  .next (s.supervisor (.ctxld a) fun s =>
    s.gated [(a, false)] [] fun s =>
      let va := s.st.xget a
      if areaMisaligned va then s.trap 0x08 va
      else if s.st.loadWaits then s.stall
      else
        match pagePlaces (fun x => s.check .read 1 4096 x) (s.skewSeen s.st.stores s.st.ctx) va areaPages 0 with
        | .error (c, x) => s.trap c x
        | .ok ps =>
          let rd := s.areaReader ps
          match s.areaPoison va ps rd with
          | some line => s.consume line
          | none =>
            if !areaLegal rd then s.decodeTrap (.ctxld a) 0x02
            else if decide (16 < (s.st.stores.filter fun e => e.after.isNone).length + rd 0x11 1) then s.stall
            else
              match s.loadArea rd (some a) none with
              | .error (c, x) => s.trap c x
              | .ok _ =>
                let n := rd 0x16 1
                let freed := s.upd fun t => { t with tonOwned := 0, vdirty := t.vdirty &&& 0xFFFFFFFF }
                match freed.restoreTiles n with
                | none =>
                  State.stall (if s.st.tonPend.isSome then freed
                    else { freed.upd fun t => { t with tonPend := some { tiles := n, stamp := s.stamp, decode := false } } with stamp := s.stamp + 1 })
                | some s' =>
                  match s'.loadArea rd (some a) none with
                  | .error (c, x) => s.trap c x
                  | .ok t => (s'.upd fun _ => t).advance)

/-! ## Reading state back (R351, R360) -/

/-- A word of device state: illegal, misaligned, or the word with the context that it belongs to. -/
inductive DevWord where
  | illegal
  | misaligned
  | word (owner : Option (BitVec 12)) (w : Word)

/-- A word of an area in pieces. -/
def pieceWord (ps : List (Nat × List Byte)) (off : Nat) : Word :=
  match ps.find? fun p => decide (p.1 ≤ off) && decide (off + 8 ≤ p.1 + p.2.length) with
  | some p => wordOfField p.2 (off - p.1)
  | none => 0

/-- The context of a strand that runs an iteration. -/
def Strand.owner (t : Strand) : Option (BitVec 12) := if t.iter.work == .none then none else some t.ctx

/-- A word of a strand's image, as `ctxsv` would write it: the held image, and `tepc` as the point of resume. -/
def Strand.imageWord (t : Strand) (executing : Bool) (off : Nat) : Word :=
  pieceWord (t.shown.savePieces (t.shown.svKind executing none true)) off

/-- The nodes of the active graphs of a die, in order of acceptance. -/
def State.dieNodes (s : State) (die : Nat) : List (Graph × Nat × Node) :=
  (s.graphs.filter fun g => g.die == die).flatMap fun g => g.nodes.mapIdx fun k n => (g, k, n)

/-- The fields of an iteration that the walker retains (R351 class 2). -/
def Iter.word (i : Iter) (w : Nat) : Word :=
  match w with
  | 0 => i.recAddr
  | 1 => BitVec.ofNat 64 (i.steps.1 + 2 ^ 32 * i.steps.2.1)
  | 2 => BitVec.ofNat 64 (i.steps.2.2.1 + 2 ^ 32 * i.steps.2.2.2)
  | 3 => BitVec.ofNat 64 i.number
  | 4 => if i.work == .none then 0 else if i.rehanded then 2 else 1
  | _ => 0

/-- The word that an xa word selects, for the host or for the `rdst` of the strand in focus. An index beyond a class's
words reads 0; the layouts of the machine-check entry's word 0 and of a TLB entry's word 0 are the model's (log 35).
-/
def State.stateWord (s : State) (ctx : BitVec 12) (host : Bool) (xa : Word) : DevWord :=
  let die := (xa.extractLsb' 45 3).toNat
  let cls := (xa.extractLsb' 40 5).toNat
  let idx := (xa.extractLsb' 3 37).toNat
  if xa.extractLsb' 48 16 ≠ 0 ∨ 4 < die ∨ 6 < cls then .illegal
  else if xa.extractLsb' 0 3 ≠ 0 then .misaligned
  else
    let d := s.die die
    match cls with
    | 0 =>
      .word none <|
        if idx = 0 then BitVec.ofNat 64 d.corrected
        else if idx = 1 then BitVec.ofNat 64 d.poisonUses
        else if idx = 2 then BitVec.ofNat 64 d.replays
        else if idx = 3 then BitVec.ofNat 64 d.mismatches
        else if idx < 8 then 0
        else
          match d.mclog[(idx - 8) / 4]? with
          | none => 0
          | some e =>
            match (idx - 8) % 4 with
            | 0 => BitVec.ofNat 64 (e.cause.toNat + 256 * e.strand)
            | 1 => e.tval
            | 2 => e.tepc
            | _ => BitVec.ofNat 64 e.unit
    | 1 =>
      let n := idx / 2 ^ 14
      if 2048 ≤ n ∨ n / 512 ≠ die then .word none 0
      else
        let t := s.strand n
        .word t.owner (t.imageWord (!host && n == s.cur) (8 * (idx % 2 ^ 14)))
    | 2 =>
      let n := idx / 8
      if 2048 ≤ n ∨ n / 512 ≠ die then .word none 0
      else
        let t := s.strand n
        .word t.owner (t.iter.word (idx % 8))
    | 3 =>
      match (s.dieNodes die)[idx / 8]? with
      | none => .word none 0
      | some (g, k, n) =>
        .word (some g.ctx) (match idx % 8 with
          | 0 => BitVec.ofNat 64 n.queue.length
          | 1 => BitVec.ofNat 64 (n.berths - n.queue.length - s.heldBerths g k)
          | 2 => BitVec.ofNat 64 n.passes
          | 3 => if n.promoted.isSome then 1 else 0
          | 4 => g.recAddr
          | _ => 0)
    | 4 =>
      match d.tlb[idx / 2]? with
      | none => .word none 0
      | some e =>
        .word (some e.ctx) (if idx % 2 = 0 then BitVec.ofNat 64 (e.vpage * e.pageSize + e.ctx.toNat) else e.leaf)
    | 5 =>
      if 256 ≤ idx ∨ die = 4 then .word none 0
      else .word none ((((s.context ctx).converterStates die (idx / 64)).getD (idx % 64) 0).zeroExtend 64)
    | _ =>
      if 4096 ≤ idx ∨ die = 4 then .word none 0
      else
        match (s.cluster (16 * die + idx / 256)).items[idx % 256]? with
        | none => .word none 0
        | some i => .word (some i.ctx) i.recAddr

/-- `rdst` waits for the older entries, then reads the word. -/
def execRdst (o : DA) (s : State) : Result :=
  .next (s.supervisor (.rdst o) fun s =>
    s.gated [(o.a, false)] [o.d] fun s =>
      if s.st.busy then s.stall
      else
        let xa := s.st.xget o.a
        match s.stateWord s.st.ctx false xa with
        | .illegal => s.decodeTrap (.rdst o) 0x02
        | .misaligned => s.trap 0x08 xa
        | .word owner w =>
          if owner.any fun c => c != s.st.ctx then s.trap 0x07 xa else (s.setX o.d w).advance)

end Sys2Proof.Machine
end

