-- ==== Sys2Proof/Machine/Control.lean ====
section
/-! DEFINITION. Branches and jumps (R94, R95). -/

namespace Sys2Proof.Machine

/-- A branch that compares two registers waits for empty sources, then goes to its target or falls through (R94). -/
def State.branch (s : State) (o : BrOps) (p : Word → Word → Bool) : State :=
  s.gated [(o.a, false), (o.b, false)] [] fun s =>
    if p (s.st.xget o.a) (s.st.xget o.b) then s.upd fun t => t.goto (targetOf t.pc o.off) else s.advance

/-- `brf` and `bre` test the full bit as it stands (R94). A scalar load or atomic in flight leaves the bit set (R14). -/
def State.branchFull (s : State) (o : BrfOps) (want : Bool) : State :=
  if s.st.isFull o.a == want then s.upd fun t => t.goto (targetOf t.pc o.off) else s.advance

def execBeq (o : BrOps) (s : State) : Result := .next (s.branch o fun a b => decide (a = b))
def execBne (o : BrOps) (s : State) : Result := .next (s.branch o fun a b => decide (a ≠ b))
def execBlt (o : BrOps) (s : State) : Result := .next (s.branch o fun a b => decide (a.toInt < b.toInt))
def execBge (o : BrOps) (s : State) : Result := .next (s.branch o fun a b => decide (b.toInt ≤ a.toInt))
def execBltn (o : BrOps) (s : State) : Result := .next (s.branch o fun a b => decide (a.toNat < b.toNat))
def execBgen (o : BrOps) (s : State) : Result := .next (s.branch o fun a b => decide (b.toNat ≤ a.toNat))
def execBrf (o : BrfOps) (s : State) : Result := .next (s.branchFull o true)
def execBre (o : BrfOps) (s : State) : Result := .next (s.branchFull o false)

/-- `jmp`: J + 4 into xd, then to the target (R95). -/
def execJmp (o : ConstOps) (s : State) : Result :=
  .next (s.gated [] [o.d] fun s =>
    (s.setX o.d (s.st.pc + 4)).upd fun t => t.goto (targetOf t.pc o.imm))

/-- `jmpr`: the target is checked, canonical before aligned, then J + 4 goes into xd (R95). -/
def execJmpr (o : ImmOps) (s : State) : Result :=
  .next (s.gated [(o.a, false)] [o.d] fun s =>
    let t := s.st.xget o.a + sext o.imm
    if !canonical t then s.trap 0x07 t
    else if t.extractLsb' 0 2 ≠ 0 then s.trap 0x08 t
    else (s.setX o.d (s.st.pc + 4)).upd fun u => u.goto t)

end Sys2Proof.Machine
end

