-- ==== Sys2Proof/Machine/Fences.lean ====
section
/-! DEFINITION. Draining, fences over the path classes, and `tlbinv` (R114, R115, R294, R312, R322, R336). -/

namespace Sys2Proof.Machine

/-! ## Work of an iteration -/

/-- Commands of an iteration that have not completed. -/
def State.commandsOf (s : State) (id : Nat) : List Cmd := s.cmds.filter fun c => c.iter == id

/-- Pontoon items of an iteration that have not completed. -/
def State.itemsOf (s : State) (id : Nat) : List Item :=
  (s.clusters.flatMap fun p => p.2.items).filter fun i => i.iter == id

/-- Every command and item of an iteration has completed and posted its event. -/
def State.commandsDone (s : State) (id : Nat) : Bool :=
  (s.commandsOf id).isEmpty && (s.itemsOf id).isEmpty && !s.posts.any fun p => p.iter == id

/-! ## Accesses to host memory (R288, R312) -/

/-- The address of an access of a context lies in host memory. -/
def State.hostAt (s : State) (ctx : BitVec 12) (a : Word) : Bool :=
  [Acc.read, Acc.write].any fun acc => (s.engPlace ctx acc .any a).any Place.isHost

/-- A range of addresses: context, first address, bytes. -/
abbrev Span := BitVec 12 × Word × Nat

/-- Some page of a range lies in host memory; the smallest page has 64 KiB (R290). -/
def State.hostSpan (s : State) (x : Span) : Bool :=
  x.2.2 != 0 && (List.range ((x.2.1.toNat % 2 ^ 16 + x.2.2 + 2 ^ 16 - 1) / 2 ^ 16)).any fun k =>
    s.hostAt x.1 (x.2.1 + BitVec.ofNat 64 (2 ^ 16 * k))

/-- The ranges that a command reads and writes: its record, and what its descriptor names. -/
def State.cmdSpans (s : State) (c : Cmd) : List Span :=
  let bs := c.bytes
  let w (off : Nat) : Word := wordOfField bs off
  let own : List (Word × Nat) := match c.engine with
    | .copy =>
      if fieldOf bs 0x12 1 = 1 then
        let sizes := copySizes (fieldOf bs 0x13 1) (fieldOf c.extra 0x3C 1)
        (shapeElems (w 0x18) (w 0x20) c.extra).flatMap fun e => [(e.1, sizes.1), (e.2, sizes.2)]
      else [(w 0x18, (copyBytes bs).1), (w 0x20, (copyBytes bs).2)]
    | .wharf => if c.seals then [] else [(w 0x20, fieldOf bs 0x28 8)]
    | .train =>
      [(w 0x18, trainBytes (fieldOf bs 0x13 1) * fieldOf bs 0x14 4), (w 0x20, 16 * fieldOf bs 0x14 4)]
    | .coll =>
      let g := collOf s.mgmt.pkno.toNat bs c.extra
      [(g.src, g.unit * g.units g.count), (g.dst, g.unit * g.units g.outCount)]
    | .pix =>
      let r := c.extra
      let plane (p : Nat) : Word × Nat :=
        (wordOfField r 0 + BitVec.ofNat 64 p * wordOfField r 0x18, fieldOf r 0x08 4 * fieldOf r 0x0E 2)
      (w 0x20, 16 * fieldOf bs 0x28 4) :: if fieldOf r 0x10 1 = 2 then [plane 0, plane 1, plane 2] else [plane 0]
  let peer : List Span := match c.engine, s.peerOf (c.domainIn s) with
    | .train, some ctx =>
      (c.passengers.filter fun e => e.package == s.mgmt.pkno.toNat).map fun e =>
        (ctx, e.addr, trainBytes (fieldOf bs 0x13 1))
    | _, _ => []
  ((c.desc, 64) :: own).map (fun x => (c.ctx, x.1, x.2)) ++ peer

/-- The ranges that an item of cluster `k` reads and writes; a row of A takes at most 16 blocks (R222, R230). -/
def State.itemSpans (s : State) (k : Nat) (i : Item) : List Span :=
  let bs := i.bytes
  let rows (n : Nat) (a stride : Word) (size : Nat) : List (Word × Nat) :=
    (List.range n).map fun r => (a + BitVec.ofNat 64 r * stride, size)
  let own : List (Word × Nat) :=
    if i.load then
      if fieldOf bs 0x12 1 = 0 then
        rows (fieldOf bs 0x1A 2) (wordOfField bs 0x20) (wordOfField bs 0x28) (64 * fieldOf bs 0x15 1)
      else []
    else
      let t := taskOf bs
      let width := t.cols * t.banks.length
      let branches := if t.mode.testBit 1 then
        (((s.cluster k).cfgs.getD (fieldOf bs 0x15 1) none).map DendCfg.branches).getD 0 else 0
      rows t.rows t.abase t.astride 1024 ++ rows t.rows t.cbase t.cstride (4 * width) ++
        [(t.wbase, 4 * branches * width)] ++
        (if t.mode.testBit 3 then rows t.rows t.tbase t.tstride (8 * branches * width) else []) ++
        if wordOfField bs 0x40 = 0 then [] else [(wordOfField bs 0x40, 8)]
  ((i.recAddr, if i.load then 64 else 128) :: own).map fun x => (i.ctx, x.1, x.2)

/-! ## Which accesses are still to be performed (R115, R322, R336) -/

/-- A vector entry that binds a stream, or reads or writes a bound register, has not retired: its strips are still to be
fetched or written (R178, R322). -/
def Strand.queuedSm (t : Strand) : Bool :=
  t.queue.any fun e =>
    (match e.instr with | .sbind _ => true | _ => false) ||
      (e.srcs ++ e.dsts).any fun r => t.streams.any fun p => p.1 == r.toNat

/-- Accesses of the strand to host memory that are not performed: by address (R312). Where the accesses of a vector entry
lie is known when it executes: until then one that touches memory counts (log 97). -/
def State.hostBusy (s : State) : Bool :=
  let t := s.st
  (t.queue.any fun e => touchesMem e.instr) || t.queuedSm ||
    (t.stores.any fun e => e.place.isHost) || (t.loads.any fun l => l.place.isHost) ||
    t.drainingAt Place.isHost ||
    ((s.commandsOf t.iter.id).any fun c => (s.cmdSpans c).any s.hostSpan) ||
    s.clusters.any fun p => p.2.items.any fun i => i.iter == t.iter.id && (s.itemSpans p.1 i).any s.hostSpan

/-- The path class of the commands and items whose completion an event of a source reports (R109, R312). -/
def eventPath (source : BitVec 4) : Nat :=
  match source.toNat with
  | 0 => 3
  | 1 | 2 => 4
  | 3 => 5
  | _ => 2

/-- A command or item of the strand, of a command class, has not completed by the steps of R240, its event among them
(R336). -/
def State.classOpen (s : State) (path : Nat) : Bool :=
  ((s.commandsOf s.st.iter.id).any fun c => c.engine.path == path) || (path == 2 && !(s.itemsOf s.st.iter.id).isEmpty) ||
    s.posts.any fun p => p.iter == s.st.iter.id && eventPath p.event.source == path

/-- Accesses of a class that the strand made and that are not performed (R115, R322). -/
def State.classBusy (s : State) (c : Nat) : Bool :=
  let t := s.st
  match c with
  | 0 => t.lsBusy
  | 1 => t.queued 1
  | 6 => s.hostBusy
  | 7 => t.drainingAt (fun p => !p.isHost) || t.queuedSm
  | k => t.queued k || s.classOpen k

/-- An older read of the strand on `ls` has not taken its value (R115). -/
def Strand.readsBusy (t : Strand) : Bool :=
  t.queuedLs || (t.loads.any fun l => !l.place.isHost) || t.stores.any fun e => e.dest.isSome

/-- Engine commands of the strand, in its queue or at an engine, that have not completed (R113, R114). -/
def State.enginesBusy (s : State) : Bool :=
  s.st.queued 2 || s.st.queued 3 || s.st.queued 4 || s.st.queued 5 || !s.commandsDone s.st.iter.id

/-! ## Draining (R114) -/

/-- `drain` waits until each queue named in its mask is empty (R114). -/
def execDrain (mask : Reg) (s : State) : Result :=
  .next (
    let t := s.st
    if (mask.getLsbD 0 && t.busy) ||
      (mask.getLsbD 1 && (!t.stores.isEmpty || t.queue.any fun e => writesMem e.instr)) ||
      (mask.getLsbD 2 && t.draining) ||
      (mask.getLsbD 3 && s.enginesBusy) ||
      (mask.getLsbD 4 && !t.claims.isEmpty) then s.stall
    else s.advance)

/-! ## Fences (R115, R322) -/

/-- `fence.acq`: older reads on `ls` have taken their values. At `.st` it waits for nothing. -/
def execFenceAcq (scope : BitVec 3) (s : State) : Result :=
  .next (if scope ≠ 0 ∧ s.st.readsBusy then s.stall else s.advance)

/-- `fence.rel`: older accesses on `ls` are performed. -/
def execFenceRel (scope : BitVec 3) (s : State) : Result :=
  .next (if scope ≠ 0 ∧ s.classBusy 0 then s.stall else s.advance)

/-- `fence.full`: both, and older writes are performed before younger reads. -/
def execFenceFull (scope : BitVec 3) (s : State) : Result :=
  .next (if scope ≠ 0 ∧ s.classBusy 0 then s.stall else s.advance)

/-- `fencex`: older accesses of class 1 are performed. -/
def execFencex (o : FencexOps) (s : State) : Result :=
  .next (if o.scope ≠ 0 ∧ s.classBusy o.c1.toNat then s.stall else s.advance)

/-! ## Dropping translations (R294) -/

/-- Every strand of a context that holds a slot: the one in focus and the others. The stores of a saved strand are
translated again when it resumes. -/
def State.strandsOf (s : State) (ctx : BitVec 12) : List Strand :=
  (s.st :: s.others.map Prod.snd).filter fun t => t.iter.work != .none && t.ctx == ctx

/-- Whether a TLB entry holds a translation that `tlbinv` drops: every one of the context, or that of one address. -/
def dropped (ctx : BitVec 12) (all : Bool) (a : Nat) (e : TlbEntry) : Bool :=
  e.ctx == ctx && (all || e.vpage == a / e.pageSize)

/-- A strand has an access that has been translated and is not performed yet, of whose address and page `here` holds: a
store, an atomic, a load in flight, or an element of an output strip (R293, R294). -/
def Strand.inFlight (t : Strand) (here : Word → Nat → Bool) : Bool :=
  (t.stores.any fun e => here e.addr e.page) || (t.loads.any fun l => here l.addr l.page) ||
    t.streams.any fun p => p.2.output && p.2.buf.any fun b => b.places.any fun x => here x.1 x.2.2

/-- An access at address `b`, translated by a page of `n` bytes, used a translation that `tlbinv` drops: any, or that of
the page which holds `a`. A window has no page. -/
def usedDropped (all : Bool) (a : Nat) (b : Word) (n : Nat) : Bool := n != 0 && (all || b.toNat % 2 ^ 56 / n == a / n)

/-- `tlbinv`: the strand's older stores first, then the translations leave the TLBs of every die, and the context's
accesses that used one of them are performed (R294). -/
def execTlbinv (o : DA) (s : State) : Result :=
  .next (s.supervisor (.tlbinv o) fun s =>
    s.gated [(o.a, false), (o.d, false)] [] fun s =>
      let sel := s.st.xget o.d
      let ctx := s.st.ctx
      let a := (s.st.xget o.a).toNat % 2 ^ 56
      if sel &&& ~~~1 ≠ 0 then s.decodeTrap (.tlbinv o) 0x02
      else if !s.st.stores.isEmpty || s.st.writesQueued ||
        (s.strandsOf ctx).any fun t => t.inFlight (usedDropped (sel.getLsbD 0) a) then s.stall
      else
        let keep (d : DieSt) : List TlbEntry := d.tlb.filter fun e => !dropped ctx (sel.getLsbD 0) a e
        State.advance { s with dies := s.dies.map fun p => (p.1, { p.2 with tlb := keep p.2 }) })

end Sys2Proof.Machine
end

