-- ==== Sys2Proof/Machine/IntScalar.lean ====
section
/-! DEFINITION. The scalar integer instructions: int.a to int.d, the register-immediate instructions and the constants
(R89 to R93). -/

namespace Sys2Proof.Machine

/-- The amount of a 64-bit shift: B[5:0] (R89). -/
def shiftAmount (b : Word) : Nat := b.toNat % 64

/-- High half of the signed product (R89). -/
def mulHigh (a b : Word) : Word := BitVec.ofInt 64 (a.toInt * b.toInt / 2 ^ 64)

/-- High half of the unsigned product (R89). -/
def mulHighU (a b : Word) : Word := BitVec.ofNat 64 (a.toNat * b.toNat / 2 ^ 64)

/-- Signed quotient, truncated toward zero (R89), with the cases of R90. -/
def quotient (a b : Word) : Word := if b = 0 then -1 else BitVec.ofInt 64 (a.toInt.tdiv b.toInt)

/-- Unsigned quotient (R89, R90). -/
def quotientU (a b : Word) : Word := if b = 0 then -1 else BitVec.ofNat 64 (a.toNat / b.toNat)

/-- Signed remainder, with the sign of A (R89, R90). -/
def remainder (a b : Word) : Word := if b = 0 then a else BitVec.ofInt 64 (a.toInt.tmod b.toInt)

/-- Unsigned remainder (R89, R90). -/
def remainderU (a b : Word) : Word := if b = 0 then a else BitVec.ofNat 64 (a.toNat % b.toNat)

def execAdd (o : XOps) (s : State) : Result := .next (s.binary o fun a b => a + b)
def execSub (o : XOps) (s : State) : Result := .next (s.binary o fun a b => a - b)
def execAnd (o : XOps) (s : State) : Result := .next (s.binary o fun a b => a &&& b)
def execOr (o : XOps) (s : State) : Result := .next (s.binary o fun a b => a ||| b)
def execXor (o : XOps) (s : State) : Result := .next (s.binary o fun a b => a ^^^ b)
def execShl (o : XOps) (s : State) : Result := .next (s.binary o fun a b => a <<< shiftAmount b)
def execShr (o : XOps) (s : State) : Result := .next (s.binary o fun a b => a >>> shiftAmount b)
def execSar (o : XOps) (s : State) : Result := .next (s.binary o fun a b => a.sshiftRight (shiftAmount b))
def execMul (o : XOps) (s : State) : Result := .next (s.binary o fun a b => a * b)
def execMulh (o : XOps) (s : State) : Result := .next (s.binary o mulHigh)
def execMulhn (o : XOps) (s : State) : Result := .next (s.binary o mulHighU)
def execDiv (o : XOps) (s : State) : Result := .next (s.binary o quotient)
def execDivn (o : XOps) (s : State) : Result := .next (s.binary o quotientU)
def execRem (o : XOps) (s : State) : Result := .next (s.binary o remainder)
def execRemn (o : XOps) (s : State) : Result := .next (s.binary o remainderU)
def execMin (o : XOps) (s : State) : Result := .next (s.binary o fun a b => if a.toInt ≤ b.toInt then a else b)
def execMax (o : XOps) (s : State) : Result := .next (s.binary o fun a b => if a.toInt ≤ b.toInt then b else a)
def execMinn (o : XOps) (s : State) : Result := .next (s.binary o fun a b => if a.toNat ≤ b.toNat then a else b)
def execMaxn (o : XOps) (s : State) : Result := .next (s.binary o fun a b => if a.toNat ≤ b.toNat then b else a)
def execSlt (o : XOps) (s : State) : Result := .next (s.binary o fun a b => ofFlag (decide (a.toInt < b.toInt)))
def execSltn (o : XOps) (s : State) : Result := .next (s.binary o fun a b => ofFlag (decide (a.toNat < b.toNat)))
def execSeq (o : XOps) (s : State) : Result := .next (s.binary o fun a b => ofFlag (decide (a = b)))
def execSne (o : XOps) (s : State) : Result := .next (s.binary o fun a b => ofFlag (decide (a ≠ b)))

/-! ## One source (R91) -/

/-- Zero bits above the highest one; 64 for 0 (R91). -/
def leadingZeros (a : Word) : Word := BitVec.ofNat 64 (64 - bitLen a.toNat)

/-- Zero bits below the lowest one of `n` bits from bit `i` on. -/
def zerosBelow (a : Word) : Nat → Nat → Nat
  | 0, _ => 0
  | n + 1, i => if a.getLsbD i then 0 else 1 + zerosBelow a n (i + 1)

/-- One bits among the low `n`. -/
def onesBelow {m : Nat} (a : BitVec m) : Nat → Nat
  | 0 => 0
  | n + 1 => (if a.getLsbD n then 1 else 0) + onesBelow a n

def execClz (o : XUn) (s : State) : Result := .next (s.unary o.d o.a o.fa leadingZeros)
def execCtz (o : XUn) (s : State) : Result := .next (s.unary o.d o.a o.fa fun a => BitVec.ofNat 64 (zerosBelow a 64 0))
def execPopc (o : XUn) (s : State) : Result := .next (s.unary o.d o.a o.fa fun a => BitVec.ofNat 64 (onesBelow a 64))
def execBrev (o : XUn) (s : State) : Result := .next (s.unary o.d o.a o.fa BitVec.reverse)
def execSext (o : TUn) (s : State) : Result := .next (s.unary o.d o.a o.fa fun a => extendBits (intWidth o.ty) true a.toNat)
def execZext (o : TUn) (s : State) : Result := .next (s.unary o.d o.a o.fa fun a => extendBits (intWidth o.ty) false a.toNat)

/-! ## Immediates and constants (R92, R93) -/

def execAddi (o : ImmOps) (s : State) : Result := .next (s.unary o.d o.a false fun a => a + sext o.imm)
def execAndi (o : ImmOps) (s : State) : Result := .next (s.unary o.d o.a false fun a => a &&& sext o.imm)
def execOri (o : ImmOps) (s : State) : Result := .next (s.unary o.d o.a false fun a => a ||| zext o.imm)
def execXori (o : ImmOps) (s : State) : Result := .next (s.unary o.d o.a false fun a => a ^^^ zext o.imm)
def execSlti (o : ImmOps) (s : State) : Result :=
  .next (s.unary o.d o.a false fun a => ofFlag (decide (a.toInt < (sext o.imm).toInt)))
def execShli (o : ShOps) (s : State) : Result := .next (s.unary o.d o.a false fun a => a <<< o.amt.toNat)
def execShri (o : ShOps) (s : State) : Result := .next (s.unary o.d o.a false fun a => a >>> o.amt.toNat)
def execSari (o : ShOps) (s : State) : Result := .next (s.unary o.d o.a false fun a => a.sshiftRight o.amt.toNat)
def execRori (o : ShOps) (s : State) : Result := .next (s.unary o.d o.a false fun a => a.rotateRight o.amt.toNat)
def execLih (o : ConstOps) (s : State) : Result := .next (s.constant o.d (highImm o.imm))
def execPchi (o : ConstOps) (s : State) : Result := .next (s.constant o.d (s.st.pc + highImm o.imm))

end Sys2Proof.Machine
end

