-- ==== Sys2Proof/Machine/Length.lean ====
section
/-! DEFINITION. `setvl` and `setvlf` (R106 to R108). -/

namespace Sys2Proof.Machine

/-- `setvl`: vl = min(xa, VLMAX), written full, and xd = vl (R106). -/
def execSetvl (o : SetvlOps) (s : State) : Result :=
  .next (if !s.st.vlFull then s.stall
    else
      s.gated [(o.a, false)] [o.d] fun s =>
        let top := if o.mv then vlmaxM o.ty o.gm else vlmaxOf (intWidth o.ty)
        let n := Nat.min (s.st.xget o.a).toNat top
        let s := s.upd fun t => { t with vl := BitVec.ofNat 12 n, vgm := if o.mv then o.gm else t.vgm }
        (s.setX o.d (BitVec.ofNat 64 n)).advance)

/-- What `setvlf` has gathered so far: elements used, fibres consumed, boundary bits, `vfrem` (R108). -/
structure Fibres where
  used : Nat
  n : Nat
  vsg : MaskReg
  vfrem : BitVec 32
  deriving DecidableEq, Repr

/-- The outcome of the length reads of `setvlf`: they are done before anything is written. -/
inductive FibreRead where
  | done (f : Fibres)
  | bad (cause : BitVec 8) (addr : Word)
  | poisoned (line : Word)
  | wait
  deriving DecidableEq, Repr

/-- The loop of R108: at most `fuel` fibres, from the address `a` of the first length, with `left` fibres left. -/
def State.fibres (s : State) (top : Nat) (a : Word) (left : Nat) : Nat → Fibres → FibreRead
  | 0, f => .done f
  | fuel + 1, f =>
    if left ≤ f.n ∨ top ≤ f.n then .done f
    else
      let resumed := f.n == 0 && f.vfrem != 0
      let at_ := a + BitVec.ofNat 64 (4 * f.n)
      let take (len : Nat) : FibreRead :=
        let vsg := if resumed then setBit f.vsg 0 true else f.vsg
        if f.used + len ≤ top then
          s.fibres top a left fuel
            { used := f.used + len, n := f.n + 1
              vsg := if 0 < f.used ∧ 0 < len then setBit vsg f.used true else vsg
              vfrem := if resumed then 0 else f.vfrem }
        else if f.used == 0 then .done { f with used := top, vsg := vsg, vfrem := BitVec.ofNat 32 (len - top) }
        else .done { f with vsg := vsg }
      if resumed then take f.vfrem.toNat
      else
        match s.check .read 4 4 at_ with
        | .bad c _ => .bad c at_
        | .ok p _ =>
          if s.st.loadBlocked p 4 then .wait
          else
            match s.poisonAt at_ p 4 with
            | some line => .poisoned line
            | none => take (ofBytes (s.seenBytes p 4))

/-- `setvlf` packs whole fibres into one strip (R108). Its reads follow the strand's older loads (R320). -/
def execSetvlf (o : FOps) (s : State) : Result :=
  .next (if s.st.busy || !s.st.vlFull || !s.st.loads.isEmpty then s.stall
    else
      s.gated [(o.a, o.fa), (o.b, o.fb)] [o.d] fun s =>
        let top := vlmaxOf (intWidth o.ty)
        match s.fibres top (s.st.xget o.a) (s.st.xget o.b).toNat (top + 1) ⟨0, 0, 0, s.st.vfrem⟩ with
        | .wait => s.stall
        | .bad c a => s.trap c a
        | .poisoned line => s.consume line
        | .done f =>
          let s := s.upd fun t => { t with vl := BitVec.ofNat 12 f.used, vsg := f.vsg, vfrem := f.vfrem }
          (s.setX o.d (BitVec.ofNat 64 f.n)).advance)

end Sys2Proof.Machine
end

