-- ==== Sys2Proof/Machine/Keccak.lean ====
section
/-! DEFINITION. SHAKE256, by which an attestation report digests the public key and a context (R369). The spec names the
function; its definition is that of FIPS 202 (PRESUMED, log 7). The 1,600 bits are one number: plane y is its 320 bits
from 320 y, and the 64 bits from 64 x of a plane are its lane x, so that a rotation of a plane by 64 bits moves every
lane of it to its neighbour. -/

namespace Sys2Proof.Machine

/-- A plane: five lanes. -/
abbrev Plane := BitVec 320

def planeOf (s : BitVec 1600) (y : Nat) : Plane := s.extractLsb' (320 * y) 320

/-- The number whose plane y is `f y`. -/
def ofPlanes (f : Nat → Plane) : BitVec 1600 := f 4 ++ f 3 ++ f 2 ++ f 1 ++ f 0

/-- Bit 0 of every lane of a plane. -/
def laneLows : Plane := ofBytes (List.replicate 5 [1, 0, 0, 0, 0, 0, 0, 0]).flatten

/-- Each lane of a plane rotated left by one bit. -/
def Plane.turned (p : Plane) : Plane := ((p <<< 1) &&& ~~~laneLows) ||| ((p >>> 63) &&& laneLows)

/-- Every column takes the parity of the column at its left and of the one at its right one bit down. -/
def mixColumns (s : BitVec 1600) : BitVec 1600 :=
  let sum := (List.range 5).foldl (fun p y => p ^^^ planeOf s y) 0
  let change := sum.rotateLeft 64 ^^^ Plane.turned (sum.rotateRight 64)
  s ^^^ ofPlanes fun _ => change

/-- The 24 lanes met on the walk (x, y) → (y, 2 x + 3 y) from (1, 0), each moved one place along it; the lane of step t is
rotated by t (t + 1) / 2. Lane (0, 0) stays. -/
def moveLanes (s : BitVec 1600) : (left t x y : Nat) → BitVec 1600
  | 0, _, _, _ => (s.extractLsb' 0 64).setWidth 1600
  | left + 1, t, x, y =>
    let z := (2 * x + 3 * y) % 5
    let lane := (s.extractLsb' (64 * (5 * y + x)) 64).rotateLeft (t * (t + 1) / 2 % 64)
    (lane.setWidth 1600 <<< (64 * (5 * z + y))) ||| moveLanes s left (t + 1) y z

/-- Within each plane a lane takes what its second neighbour holds where its first holds 0. -/
def mixRows (s : BitVec 1600) : BitVec 1600 :=
  ofPlanes fun y =>
    let p := planeOf s y
    p ^^^ (~~~p.rotateRight 64 &&& p.rotateRight 128)

/-- The register of eight bits that yields the round constants, one step on. -/
def roundRegister (r : Nat) : Nat := if r < 128 then 2 * r else (2 * r) % 256 ^^^ 0x71

/-- The next seven bits of the register are bits 0, 1, 3, 7, 15, 31 and 63 of a round's constant. -/
def roundConstant (r : Nat) : Nat × Nat :=
  (List.range 7).foldl (fun (c, r) j => (c ||| (r % 2) <<< (2 ^ j - 1), roundRegister r)) (0, r)

/-- The rounds of the permutation. -/
def permute : (rounds register : Nat) → BitVec 1600 → BitVec 1600
  | 0, _, s => s
  | n + 1, r, s =>
    let (c, r') := roundConstant r
    permute n r' (mixRows (moveLanes (mixColumns s) 24 1 1 0) ^^^ BitVec.ofNat 1600 c)

/-- The state after `n` blocks of 136 bytes of a message have been taken in. -/
def takeIn : (n : Nat) → List Byte → BitVec 1600 → BitVec 1600
  | 0, _, s => s
  | n + 1, bs, s => takeIn n (bs.drop 136) (permute 24 1 (s ^^^ BitVec.ofNat 1600 (ofBytes (bs.take 136))))

/-- The first 64 bytes of SHAKE256: the message, the bits 1111 and the padding 10*1 fill whole blocks. -/
def shake256 (bs : List Byte) : List Byte :=
  let n := bs.length / 136 + 1
  let last := ofBytes (bs.drop (136 * (n - 1))) ||| 0x1F <<< (8 * (bs.length % 136)) ||| 1 <<< 1087
  bytesOf 64 (takeIn n (bs.take (136 * (n - 1)) ++ bytesOf 136 last) 0).toNat

end Sys2Proof.Machine
end

