-- ==== Sys2Proof/Machine/Walker.lean ====
section
/-! DEFINITION. The walker and the ferry scheduler: placement, hand-out, the end of an iteration, completion and
cancellation of records, root iterations, and work that is handed out again (R113, R250, R255 to R263, R268 to R272,
R352, R356). -/

namespace Sys2Proof.Machine

/-! ## Room (R258, R162) -/

/-- What an iteration reserves on its core, and its launch in each cluster. -/
structure Need where
  tiles : Nat := 0
  streams : Nat := 0
  scratch : Nat := 0
  banks : Nat := 0
  cscratch : Nat := 0

/-- The strand runs no iteration. -/
def Strand.vacant (t : Strand) : Bool := t.iter.work == .none && t.run == .idle

/-- Strand numbers of a core. -/
def coreStrands (core : Nat) : List Nat := (List.range 4).map fun k => 4 * core + k

/-- Whether a core can hold one iteration more: tiles, stream units, and core scratch (R162). The scratch of a saved
iteration stays reserved, and its stream units stay bound (R131). -/
def State.coreRoom (s : State) (core : Nat) (n : Need) : Bool :=
  let here := (coreStrands core).map s.strand
  let away := (s.saved.filter fun v => coreOf v.home == core).map Saved.strand
  decide ((here.map Strand.tilesHeld).sum + n.tiles ≤ 8) &&
    decide ((here.map Strand.streamUnits).sum + (away.map fun t => t.iter.streams).sum + n.streams ≤ 16) &&
    decide ((here.map Strand.scratchSize).sum + (away.map Strand.scratchSize).sum + n.scratch ≤ 98304)

/-- Banks of a cluster that no launch has reserved. -/
def ClusterSt.spareBanks (c : ClusterSt) : List Nat := (List.range 8).filter fun q => (c.bank q).reserved.isNone

/-- Whether a cluster has room for a launch's first placement there. -/
def ClusterSt.room (c : ClusterSt) (n : Need) : Bool :=
  decide (n.banks ≤ c.spareBanks.length) && decide ((c.ranges.map CRange.size).sum + n.cscratch ≤ 524288)

def Launch.need (l : Launch) : Need :=
  ⟨fieldOf l.bytes 0x2C 1, fieldOf l.bytes 0x2D 1, fieldOf l.bytes 0x30 4, fieldOf l.bytes 0x2E 1, fieldOf l.bytes 0x68 4⟩
def Launch.mask (l : Launch) : Nat := fieldOf l.bytes 0x34 2
def Launch.coresident (l : Launch) : Bool := (fieldOf l.bytes 0x2A 1).testBit 1
def Launch.overlaps (l : Launch) : Bool := (fieldOf l.bytes 0x2A 1).testBit 0

/-- The launch has an iteration to hand out. -/
def Launch.ready (l : Launch) : Bool := l.started && !l.cancelled && decide (l.next < l.total)

/-- A coresident launch that waits keeps new work of equal or lower priority off its clusters (R260). Between two such
launches of one priority the earlier one does (DEDUCED, log 36). One whose dependences are not met yet does not wait in
this sense (DESIGN CHOICE, log 106). -/
def State.keptFree (s : State) (die prio : Nat) (asker : Option Nat) (cluster : Nat) : Bool :=
  s.launches.any fun l =>
    l.coresident && l.ready && l.next == 0 && l.die == die && (clustersOf l.mask).contains cluster &&
      (decide (prio < l.prio) || (decide (prio = l.prio) && asker.all fun id => decide (l.id < id)))

/-- What is to be placed. -/
structure Ask where
  die : Nat
  mask : Nat
  prio : Nat
  need : Need
  /-- the launch, and the clusters where it has its banks and cluster scratch -/
  launch : Option Nat := none
  /-- the launch is coresident -/
  coresident : Bool := false
  clusters : List Nat := []

/-- The strand meets R258 for this work. -/
def State.fitsAt (s : State) (a : Ask) (n : Nat) : Bool :=
  let k := clusterOf n
  (s.strand n).vacant && !s.keptFree a.die a.prio (if a.coresident then a.launch else none) (k % 16) &&
    s.coreRoom (coreOf n) a.need && (a.clusters.contains k || (s.cluster k).room a.need)

/-- Strands of a die in the order of R258. -/
def walkerOrder (die mask : Nat) : List Nat :=
  (clustersOf mask).flatMap fun c => (List.range 32).map fun i => 512 * die + 32 * c + i

/-- The first strand that meets R258. -/
def State.placeFor (s : State) (a : Ask) : Option Nat := (walkerOrder a.die a.mask).find? (s.fitsAt a)

def Launch.ask (l : Launch) : Ask :=
  { die := l.die, mask := l.mask, prio := l.prio, need := l.need, launch := some l.id, coresident := l.coresident
    clusters := l.clusters }

/-! ## Starting an iteration (R17, R126, R252) -/

/-- A strand at the start of an iteration: registers by R17 and R252, the context's configuration by R126. -/
def Strand.begin_ (c : CtxSt) (ctx : BitVec 12) (entry : Word) (recheck : Bool) (xs : List Word) (it : Iter) : Strand :=
  let t : Strand := { Strand.reset with
    pc := entry
    ctx
    tvec := handlerOf c.tvec
    prio := BitVec.ofNat 2 c.prio
    rchk := recheck || c.flags.testBit 0
    svbase := c.svbase
    run := .running
    iter := it
    scratchEpoch := it.id }
  (xs.zipIdx 1).foldl (fun t p => t.xset (BitVec.ofNat 5 p.2) p.1) t

/-- Position of dimension `d` in the enumeration (R251). -/
def positionOf (order dims d : Nat) : Nat := ((List.range dims).find? fun p => orderAt order p == d).getD 0

/-- The step counts of iteration `m` of a launch (R257): position 0 is the innermost. -/
def stepCount (bs : List Byte) (m d : Nat) : Nat :=
  let dims := fieldOf bs 0x28 1
  let order := fieldOf bs 0x29 1
  if d < dims then
    let p := positionOf order dims d
    m / ((List.range p).map fun q => extent bs (orderAt order q)).prod % extent bs d
  else 0

/-- The index value of dimension `d` (R252). -/
def indexValue (bs : List Byte) (m d : Nat) : Word := BitVec.ofNat 64 (fieldOf bs (0x48 + 4 * d) 4 * stepCount bs m d)

/-- The launch's first placement in a cluster reserves its banks and its range of the scratch window there (R223, R258,
R266). The lowest banks that are free are taken (DESIGN CHOICE, log 37). A bank that is wiped has no owner until it is
loaded (DESIGN CHOICE, log 104). -/
def State.reserveCluster (s : State) (l : Launch) (k : Nat) : State :=
  if l.clusters.contains k then s
  else
    let c := s.cluster k
    let take (c : ClusterSt) (q : Nat) : ClusterSt :=
      let b := c.bank q
      let b := if b.owner.any fun o => o != l.ctx then Bank.reset else b
      c.setBank q { b with reserved := some l.id }
    let c := (c.spareBanks.take l.need.banks).foldl take c
    let c := if l.need.cscratch = 0 then c
      else { c with ranges := c.ranges ++ [⟨l.id, l.need.cscratch, s.stamp, [], []⟩] }
    ((s.setCluster k c).setLaunch l.id fun l => { l with clusters := l.clusters ++ [k] }).nextStamp

/-- Hands the next iteration of launch `id` to strand `n`. -/
def State.startLaunchIter (s : State) (id n : Nat) : State :=
  match s.launches.find? fun l => l.id == id with
  | none => s
  | some l =>
    let s := s.reserveCluster l (clusterOf n)
    let m := l.next
    let st (d : Nat) : Nat := stepCount l.bytes m d
    let it : Iter :=
      { work := .launch, id := s.stamp, recAddr := l.recAddr, launch := l.id, graph := l.parent
        steps := (st 0, st 1, st 2, st 3), number := m, prio := l.prio, streams := l.need.streams
        tiles := l.need.tiles }
    let xs := (List.range 4).map (indexValue l.bytes m) ++ [wordOfField l.bytes 0x20]
    let t := Strand.begin_ (s.context l.ctx) l.ctx (wordOfField l.bytes 0x18) ((fieldOf l.bytes 0x2A 1).testBit 2) xs it
    ((s.setStrand n { t with scratchSize := l.need.scratch }).setLaunch id fun l =>
      { l with next := l.next + 1, live := l.live + 1 }).nextStamp

/-- Places up to `n` iterations of a launch, each by R258; nothing where one of them finds no place. -/
def State.placeAll (s : State) (id : Nat) : Nat → Option State
  | 0 => some s
  | n + 1 =>
    match s.launches.find? fun l => l.id == id with
    | none => none
    | some l =>
      match s.placeFor l.ask with
      | none => none
      | some k => (s.startLaunchIter id k).placeAll id n

/-- One hand-out of a launch: one iteration, or every iteration of a coresident launch (R260). -/
def State.handOut (s : State) (l : Launch) : Option State := s.placeAll l.id (if l.coresident then l.total else 1)

/-! ## The ferry scheduler (R270 to R272) -/

/-- Records of node `k` that a batch can take now (R270): the largest number for which every deeper node has the berths,
0 where not even one can be handed out. -/
def State.batchSize (s : State) (g : Graph) (n : Node) : Nat :=
  let deeper := (List.range g.nodes.length).filter fun j => (g.nodes[j]?).any fun x => decide (n.depth < x.depth)
  let fits (c : Nat) : Bool := deeper.all fun j => decide (c * n.emax ≤ s.freeBerths g j)
  let most := Nat.min (fieldOf n.bytes 0x30 2) n.queue.length
  (((List.range most).reverse.map fun c => c + 1).find? fits).getD 0

/-- The blob of a landing and its length. -/
def Node.blob (n : Node) : Word := wordOfField n.bytes 0x38
def Node.bsize (n : Node) : Nat := fieldOf n.bytes 0x34 4

/-- Strands of a cluster. -/
def State.clusterStrands (s : State) (k : Nat) : List Strand := (List.range 32).map fun i => s.strand (32 * k + i)

/-- A running batch's blob window shows buffer `b` of a cluster. -/
def State.bufferShown (s : State) (k b : Nat) : Bool :=
  (s.clusterStrands k).any fun t => t.iter.work == .batch && t.iter.buffer == some b

/-- Buffer `b` of a cluster is being filled. -/
def State.bufferFilling (s : State) (k b : Nat) : Bool :=
  (s.clusterStrands k).any fun t => t.iter.work == .batch && t.iter.buffer == some b && t.iter.streaming

/-- The buffer of a cluster that holds a landing's blob whole. -/
def State.holdingBuffer (s : State) (k : Nat) (ctx : BitVec 12) (n : Node) : Option Nat :=
  (List.range 8).find? fun b =>
    match (s.cluster k).buffers[b]? with
    | some (some x) => x.ctx == ctx && x.blob == n.blob && x.data.length == n.bsize && !s.bufferFilling k b
    | _ => false

/-- The buffer that a crossing may take: a free one, else the least recently used that no running batch shows. -/
def State.takableBuffer (s : State) (k : Nat) : Option Nat :=
  let bufs := (List.range 8).map fun b => (b, ((s.cluster k).buffers[b]?).getD none)
  match bufs.find? fun p => p.2.isNone && !s.bufferShown k p.1 with
  | some p => some p.1
  | none =>
    let cands := (bufs.filter fun p => !s.bufferShown k p.1).map fun p => (p.1, ((p.2.map SubBuf.used).getD 0))
    (cands.mergeSort fun x y => decide (x.2 ≤ y.2)).head?.map Prod.fst

/-- The reservation of a graph's batches. -/
def Graph.ask (g : Graph) : Ask :=
  { die := g.die, mask := fieldOf g.bytes 0x0E 2, prio := g.prio
    need := { tiles := fieldOf g.bytes 0x22 1, scratch := fieldOf g.bytes 0x24 4 } }

/-- Where a batch of a node goes: the strand, and for a landing the buffer with whether it holds the blob already. -/
def State.batchPlace (s : State) (g : Graph) (n : Node) : Option (Nat × Option (Nat × Bool)) :=
  let order := (walkerOrder g.die g.ask.mask).filter (s.fitsAt g.ask)
  if !n.landing then order.head?.map fun k => (k, none)
  else
    match order.find? fun k => (s.holdingBuffer (clusterOf k) g.ctx n).isSome with
    | some k => (s.holdingBuffer (clusterOf k) g.ctx n).map fun b => (k, some (b, true))
    | none =>
      match order.find? fun k => (s.takableBuffer (clusterOf k)).isSome with
      | some k => (s.takableBuffer (clusterOf k)).map fun b => (k, some (b, false))
      | none => none

/-- Node `k` is eligible (R271). -/
def State.eligible (s : State) (g : Graph) (k : Nat) : Bool :=
  match g.nodes[k]? with
  | none => false
  | some n => !n.queue.isEmpty && decide (0 < s.batchSize g n) && (s.batchPlace g n).isSome

/-- A node is preferred to another: promoted first, the oldest promotion first; then the deepest, then the one whose
oldest record arrived first. -/
def Node.before (x y : Node) : Bool :=
  let oldest (n : Node) : Nat := (n.queue.head?.map Prod.fst).getD 0
  match x.promoted, y.promoted with
  | some a, some b => decide (a ≤ b)
  | some _, none => true
  | none, some _ => false
  | none, none => decide (y.depth < x.depth) || (x.depth == y.depth && decide (oldest x ≤ oldest y))

/-- The node that the next hand-out of a graph chooses (R271). -/
def State.chosenNode (s : State) (g : Graph) : Option Nat :=
  let el := (List.range g.nodes.length).filter (s.eligible g)
  let better (a b : Nat) : Bool :=
    match g.nodes[a]?, g.nodes[b]? with
    | some x, some y => x.before y
    | _, _ => true
  (el.mergeSort better).head?

/-- Aging (R271): eligible nodes that are not chosen. Nodes promoted at one hand-out are equally old; of them the one of
the lowest index is chosen first (DESIGN CHOICE, log 109). -/
def State.ageNodes (s : State) (g : Graph) (chosen : Nat) : State :=
  let el := (List.range g.nodes.length).filter (s.eligible g)
  let s := s.setGraph g.id fun g => { g with
    nodes := g.nodes.mapIdx fun j n =>
      if j == chosen then { n with passes := 0, promoted := none }
      else if el.contains j then
        { n with passes := n.passes + 1, promoted := if 64 ≤ n.passes + 1 then n.promoted.or (some s.stamp) else n.promoted }
      else n }
  s.nextStamp

/-- Replaces a subtree buffer. -/
def State.setBuffer (s : State) (k b : Nat) (x : Option SubBuf) : State :=
  let c := s.cluster k
  s.setCluster k { c with buffers := c.buffers.setIfInBounds b x }

/-- Marks a buffer as used now. -/
def State.touchBuffer (s : State) (k b : Nat) : State :=
  match (s.cluster k).buffers[b]? with
  | some (some x) => (s.setBuffer k b (some { x with used := s.stamp })).nextStamp
  | _ => s

/-- Addresses of the batch and blob windows (R265). -/
def batchWindow : Word := 0x007FFE0000140000
def blobWindow : Word := 0x007FFE0000100000

/-- One hand-out of a graph: a batch goes to a strand, or begins a crossing (R272). -/
def State.handBatch (s : State) (g : Graph) : Option State :=
  match s.chosenNode g with
  | none => none
  | some k =>
    match g.nodes[k]? with
    | none => none
    | some n =>
      match s.batchPlace g n with
      | none => none
      | some (at_, buf) =>
        let c := s.batchSize g n
        let recs := (n.queue.take c).map Prod.snd
        let cl := clusterOf at_
        let s := s.ageNodes g k
        let s := s.setGraph g.id fun g => g.setNode k fun n => { n with queue := n.queue.drop c }
        let s := match buf with
          | some (b, true) => s.touchBuffer cl b
          | some (b, false) => (s.setBuffer cl b (some ⟨g.ctx, n.blob, [], s.stamp, []⟩)).nextStamp
          | none => s
        let it : Iter :=
          { work := .batch, id := s.stamp, recAddr := n.recAddr, graph := g.recAddr, node := k, prio := g.prio
            records := c, deeper := c * n.emax, own := c, buffer := buf.map Prod.fst
            streaming := buf.any fun p => !p.2, tiles := g.ask.need.tiles }
        let xs := [BitVec.ofNat 64 c, batchWindow, if n.landing then blobWindow else 0, BitVec.ofNat 64 k, n.recAddr]
        let t := Strand.begin_ (s.context g.ctx) g.ctx (wordOfField n.bytes 0x18) false xs it
        some (s.setStrand at_
          { t with scratchSize := g.ask.need.scratch, batch := keepCells 0 recs.flatten [], batchSize := 32768 }).nextStamp

/-! ## Work that stands in no ring: iterations handed out again, and roots (R352, R356) -/

/-- The `k`-th iteration that ended by a machine check starts again, on the next free strand by R258, where its turn has
come. A batch of a landing streams its blob again where no buffer holds it. -/
def State.rehandAt (s : State) (k : Nat) : Option State :=
  match s.rehand[k]? with
  | none => none
  | some t =>
    let s' := { s with rehand := s.rehand.eraseIdx k }
    let again (it : Iter) : Iter := { it with id := s.stamp, rehanded := true, ending := false, cause := 0, slot := none }
    match t.iter.work with
    | .launch =>
      match s.launches.find? fun l => l.id == t.iter.launch with
      | none => some s'
      | some l =>
        match if l.cancelled then none else s'.placeFor { l.ask with coresident := false } with
        | none => none
        | some n =>
          let s' := s'.reserveCluster l (clusterOf n)
          let xs := (List.range 4).map (indexValue l.bytes t.iter.number) ++ [wordOfField l.bytes 0x20]
          let u := Strand.begin_ (s'.context l.ctx) l.ctx (wordOfField l.bytes 0x18)
            ((fieldOf l.bytes 0x2A 1).testBit 2) xs (again { t.iter with tiles := l.need.tiles, streams := l.need.streams })
          some (s'.setStrand n { u with scratchSize := l.need.scratch }).nextStamp
    | .batch =>
      match s.graphAt t.ctx t.iter.graph with
      | none => some s'
      | some g =>
        match g.nodes[t.iter.node]? with
        | none => some s'
        | some nd =>
          match if g.cancelled then none else s'.batchPlace g nd with
          | none => none
          | some (n, buf) =>
            let cl := clusterOf n
            let s' := match buf with
              | some (b, true) => s'.touchBuffer cl b
              | some (b, false) => s'.setBuffer cl b (some ⟨g.ctx, nd.blob, [], s'.stamp, []⟩)
              | none => s'
            let c := t.iter.records
            let xs := [BitVec.ofNat 64 c, batchWindow, if nd.landing then blobWindow else 0,
              BitVec.ofNat 64 t.iter.node, nd.recAddr]
            let it := again { t.iter with
              buffer := buf.map Prod.fst, streaming := buf.any fun p => !p.2, tiles := g.ask.need.tiles
              deeper := c * nd.emax, own := c, sent := [] }
            let u := Strand.begin_ (s'.context g.ctx) g.ctx (wordOfField nd.bytes 0x18) false xs it
            some (s'.setStrand n
              { u with scratchSize := g.ask.need.scratch, batch := t.batch, batchSize := 32768 }).nextStamp
    | _ => some s'

/-- The root of a running context is to be placed: at the start, or after it ended, once its submission line has been
written. -/
def State.rootWaits (s : State) (ctx : BitVec 12) : Bool :=
  let c := s.context ctx
  c.state == 2 && (s.rootOf ctx).isNone && (!c.rootEnded || c.subHit)

/-- What a root asks for. -/
def CtxSt.ask (c : CtxSt) : Ask := { die := c.dieNo, mask := c.place, prio := c.prio, need := {} }

/-- The die that an iteration which is handed out again belongs to. -/
def State.rehandDie (s : State) (t : Strand) : Option Nat :=
  match t.iter.work with
  | .launch => (s.launches.find? fun l => l.id == t.iter.launch).map Launch.die
  | .batch => (s.graphAt t.ctx t.iter.graph).map Graph.die
  | _ => none

/-- The clusters, as a mask, that such an iteration can go to; none where its record is gone or cancelled. -/
def State.rehandMask (s : State) (t : Strand) : Option Nat :=
  match t.iter.work with
  | .launch => (s.launches.find? fun l => l.id == t.iter.launch && !l.cancelled).map Launch.mask
  | .batch => ((s.graphAt t.ctx t.iter.graph).filter fun g => !g.cancelled).map fun g => g.ask.mask
  | _ => none

/-- Work of a priority on a die that stands in no ring can be placed: a root, or an iteration that is handed out
again. -/
def State.otherFits (s : State) (die p : Nat) : Bool :=
  (s.ctxs.any fun q => q.2.dieNo == die && q.2.prio == p && s.rootWaits (BitVec.ofNat 12 q.1) &&
    (s.placeFor q.2.ask).isSome) ||
  (List.range s.rehand.length).any fun k => (s.rehand[k]?).any fun t =>
    s.rehandDie t == some die && t.iter.prio == p && (s.rehandAt k).isSome

/-! ## Whose turn it is (R259) -/

/-- A member of a ring. -/
inductive Turn where
  | launch (l : Launch)
  | graph (g : Graph)

def Turn.id (t : Turn) : Nat :=
  match t with
  | .launch l => l.id
  | .graph g => g.id

/-- The hand-out of a member, where its work fits. -/
def State.serve (s : State) (t : Turn) : Option State :=
  match t with
  | .launch l => s.handOut l
  | .graph g => s.handBatch g

/-- The members of a ring, in order of acceptance, beginning after the last one served. -/
def State.ring (s : State) (die prio : Nat) : List Turn :=
  let ls := (s.launches.filter fun l => l.die == die && l.prio == prio && l.ready).map Turn.launch
  let gs := (s.graphs.filter fun g => g.die == die && g.prio == prio && !g.cancelled &&
    g.nodes.any fun n => !n.queue.isEmpty).map Turn.graph
  let all := (ls ++ gs).mergeSort fun x y => decide (x.id ≤ y.id)
  let last := (s.die die).rings.getD prio 0
  (all.filter fun t => decide (last < t.id)) ++ all.filter fun t => decide (t.id ≤ last)

/-- The first member of a ring whose work fits, with what its hand-out gives. -/
def State.turnOf (s : State) (die prio : Nat) : Option (Turn × State) :=
  (s.ring die prio).findSome? fun t => (s.serve t).map fun s' => (t, s')

/-- Work of a higher priority than `p` can be placed on a die (R259). -/
def State.higherFits (s : State) (die p : Nat) : Bool :=
  ([3, 2, 1, 0].filter fun q => decide (p < q)).any fun q => (s.turnOf die q).isSome || s.otherFits die q

/-- The hand-out that comes next on a die: strictly by priority, then by the ring. -/
def State.nextTurn (s : State) (die : Nat) : Option (Turn × State) :=
  [3, 2, 1, 0].findSome? fun q => if s.higherFits die q then none else s.turnOf die q

/-- The ring's mark moves to the member served. -/
def State.served (s : State) (die : Nat) (t : Turn) : State :=
  let prio := match t with
    | .launch l => l.prio
    | .graph g => g.prio
  let d := s.die die
  s.setDie die { d with rings := d.rings.setIfInBounds prio t.id }

/-- Launch `k` is served, where it is its turn. -/
def State.serveLaunch (s : State) (k : Nat) : Option State :=
  match s.launches.find? fun l => l.id == k with
  | none => none
  | some l =>
    match s.nextTurn l.die with
    | some (.launch m, s') => if m.id = k then some (s'.served l.die (.launch m)) else none
    | _ => none

/-- Graph `k` is served, where it is its turn. -/
def State.serveGraph (s : State) (k : Nat) : Option State :=
  match s.graphs.find? fun g => g.id == k with
  | none => none
  | some g =>
    match s.nextTurn g.die with
    | some (.graph h, s') => if h.id = k then some (s'.served g.die (.graph h)) else none
    | _ => none

/-- The walker hands out work of launch `args.k`. -/
def execWalkerHandout (s : State) : Result := .next ((s.serveLaunch s.args.k).getD s)

/-- The ferry scheduler hands out a batch of graph `args.k`. -/
def execFerryHandout (s : State) : Result := .next ((s.serveGraph s.args.k).getD s)

/-! ## Records that finish (R250) -/

/-- A launch leaves the walker: its banks, its scratch ranges and its seals are given back (R223, R258, R298). -/
def State.retireLaunch (s : State) (id : Nat) : State :=
  let free (c : ClusterSt) : ClusterSt := { c with
    banks := c.banks.map fun b => if b.reserved == some id then { b with reserved := none } else b
    ranges := c.ranges.filter fun r => r.launch != id }
  { s with
    launches := s.launches.filter fun l => l.id != id
    clusters := s.clusters.map fun p => (p.1, free p.2)
    dies := s.dies.map fun p => (p.1, { p.2 with seals := p.2.seals.filter fun q => q.2 != id }) }

/-- The cause field of a record in memory. -/
def State.causeOf (s : State) (ctx : BitVec 12) (a : Word) : BitVec 8 :=
  match s.recordRead ctx (a + 9) 1 with
  | some [b] => b
  | _ => 0

/-- Writes the state of a graph's node records: their status is written with the graph's (R267), complete or complete
with iterations ended by traps as each one's own cause says (R249; log 4); a cancellation writes their counter too
(R263). -/
def State.nodeStates (s : State) (g : Graph) (cancelled : Bool) : State :=
  g.nodes.foldl (fun s n =>
    let c := s.causeOf g.ctx n.recAddr
    if cancelled then s.recordState g.ctx n.recAddr 0 c 3
    else s.recordWrite g.ctx n.recAddr 8 (bytesOf 4 (256 * c.toNat + if c = 0 then 2 else 4))) s

/-- The record leaves the device with a final state in one write of its line; answers its parent. -/
def State.finalWrite (s : State) (ctx : BitVec 12) (a : Word) (level state : Nat) : State × Word :=
  match level with
  | 0 =>
    match s.launchAt ctx a with
    | none => (s, 0)
    | some l =>
      let state := if state = 2 ∧ l.cause ≠ 0 then 4 else state
      ((s.recordState ctx a 0 l.cause state).retireLaunch l.id, l.parent)
  | 1 =>
    match s.graphAt ctx a with
    | none => (s, 0)
    | some g =>
      let state := if state = 2 ∧ g.cause ≠ 0 then 4 else state
      let s := (s.recordState ctx a 0 g.cause state).nodeStates g (state == 3)
      ({ s with graphs := s.graphs.filter fun h => h.id != g.id }, g.parent)
  | _ =>
    let c := s.causeOf ctx a
    let parent := ((s.recordRead ctx (a + 0x10) 8).map fun bs => wordOfField bs 0).getD 0
    (s.recordState ctx a 0 c (if state = 2 ∧ c ≠ 0 then 4 else state), if level = 2 then parent else 0)

/-- Passes a completion to the parent. -/
def State.toParent (s : State) (ctx : BitVec 12) (parent : Word) (level : Nat) : State :=
  if parent = 0 then s else s.decrement ctx parent (level + 1) 1

/-- The decrement that reaches zero is performed with the final write; another amount that was added meanwhile leaves
the record active. -/
def State.completeRecord (s : State) (ctx : BitVec 12) (a : Word) : Option State :=
  match s.finishing.find? fun f => f.ctx == ctx && f.recAddr == a with
  | none => none
  | some f =>
    let s := { s with finishing := s.finishing.erase f }
    if s.isCancelled ctx a f.level then some s
    else
      let p := s.engPlace ctx .write .any a
      let s := s.comeToAdd (s.recordDie ctx a) ctx a p 8
      match s.recordCount ctx a with
      | none => some s
      | some old =>
        let new := (old + 2 ^ 64 - f.amount % 2 ^ 64) % 2 ^ 64
        if new ≠ 0 then some (s.landAt ctx a p (bytesOf 8 new))
        else
          let r := s.finalWrite ctx a f.level 2
          some (r.1.toParent ctx r.2 f.level)

/-- The record at `args.word` of context `args.k` completes. -/
def execRecordComplete (s : State) : Result := .next ((s.completeRecord (BitVec.ofNat 12 s.args.k) s.args.word).getD s)

/-! ## Cancellation ends (R263) -/

/-- An iteration under one of the cancelled records of a context runs. -/
def underRecords (group : List Cancelled) (t : Strand) : Bool :=
  match t.iter.work with
  | .launch => group.any fun c => c.ctx == t.ctx && c.level == 0 && c.recAddr == t.iter.recAddr
  | .batch => group.any fun c => c.ctx == t.ctx && c.level == 1 && c.recAddr == t.iter.graph
  | _ => false

/-- The final writes of a cancelled record and of those below it, children before parents; then the named record's
parent is decremented. Iterations that would be handed out again are dropped. -/
def State.finalizeCancel (s : State) (ctx : BitVec 12) (a : Word) : Option State :=
  let group := s.cancelled.filter fun c => c.ctx == ctx && c.handle == a
  let running := ((s.st :: s.others.map Prod.snd) ++ s.saved.map Saved.strand).any (underRecords group)
  match group with
  | [] => none
  | c0 :: _ =>
    if running then none
    else
      let order := group.mergeSort fun x y => decide (x.level ≤ y.level)
      let s := { s with rehand := s.rehand.filter fun t => !underRecords group t }
      let r := order.foldl (fun (acc : State × Word) c =>
        let w := acc.1.finalWrite ctx c.recAddr c.level 3
        (w.1, if c.recAddr == a && c.level == c0.handleLevel then w.2 else acc.2)) (s, 0)
      let s := { r.1 with
        cancelled := r.1.cancelled.filter fun c => !(c.ctx == ctx && c.handle == a)
        finishing := r.1.finishing.filter fun f => !(group.any fun c =>
          c.ctx == f.ctx && c.recAddr == f.recAddr && c.level == f.level) }
      some (s.toParent ctx r.2 c0.handleLevel)

/-- No iteration runs under the cancelled record at `args.word` of context `args.k`. -/
def execCancelFinalize (s : State) : Result :=
  .next ((s.finalizeCancel (BitVec.ofNat 12 s.args.k) s.args.word).getD s)

/-! ## A launch begins (R255) -/

/-- What an after field says: it is met, it is not yet, or its read faults. -/
inductive AfterRead where
  | met
  | wait
  | bad (cause : BitVec 8)

/-- Reads an after record on `ls`. -/
def State.afterState (s : State) (ctx : BitVec 12) (a : Word) : AfterRead :=
  if a = 0 then .met
  else
    match s.checkEngine ctx .read 1 (a + 8) with
    | .bad c _ => .bad c
    | .ok _ _ => if (s.recordStatus ctx a).any finishedState then .met else .wait

/-- An earlier launch of the same strand with the same parent has not finished. -/
def State.earlierLaunch (s : State) (l : Launch) : Bool :=
  l.parent != 0 && s.launches.any fun e =>
    decide (e.id < l.id) && e.strand == l.strand && e.ctx == l.ctx && e.parent == l.parent

/-- Launch `k` begins, or ends because an after record cannot be read: where neither can, with the cause of the first (DESIGN
CHOICE, log 105). -/
def State.startLaunch (s : State) (k : Nat) : Option State :=
  match s.launches.find? fun l => l.id == k with
  | none => none
  | some l =>
    if l.started || l.cancelled then none
    else
      let a := s.afterState l.ctx (wordOfField l.bytes 0x58)
      let b := s.afterState l.ctx (wordOfField l.bytes 0x60)
      let fail (c : BitVec 8) : Option State :=
        let s := (s.recordState l.ctx l.recAddr 0 c 4).retireLaunch l.id
        some ((s.causeGraph l.ctx l.parent c).toParent l.ctx l.parent 0)
      match a, b with
      | .bad c, _ => fail c
      | _, .bad c => fail c
      | .met, .met =>
        if s.earlierLaunch l && !l.overlaps then none
        else some (s.setLaunch k fun l => { l with started := true })
      | _, _ => none

/-- Launch `args.k` begins. -/
def execLaunchStart (s : State) : Result := .next ((s.startLaunch s.args.k).getD s)

/-! ## An iteration ends (R113, R123, R264, R352) -/

/-- Everything that an iteration leaves behind is gone; its strand is free. -/
def Strand.leave (t : Strand) : Strand :=
  { t with
    queue := []
    image := []
    stores := []
    loads := []
    events := []
    notices := []
    spills := 0
    claims := []
    streams := []
    mark := none
    pending := []
    hold := none
    tonOwned := 0
    tonPend := none
    xpend := 0
    held := false
    crit := false
    critCount := 0
    critDepth := 0
    run := .idle
    sleep := .awake
    timedOut := false
    watch := false
    watchOut := false
    iter := {}
    scratch := []
    scratchSize := 0
    batch := []
    batchSize := 0
    scratchBad := []
    batchBad := []
    redecode := none
    undo := []
    waiting := false }

/-- The conditions of R113, or those of R123 for an iteration that a trap ended: stores that wait on no image entry are
performed first. Each load has delivered its value, and the writes of every command and item that the iteration issued
come before its completion counts (R321). A handler's `endit` does not wait for a held image or for the stores behind
it: both are given up, as R123 says where there is no handler (DESIGN CHOICE, log 92). -/
def State.ended (s : State) : Bool :=
  let t := s.st
  t.iter.work != .none && t.iter.ending && t.run == .running && t.settled && (t.stores.all fun e => e.after.isSome) &&
    s.commandsDone t.iter.id && (t.iter.cause != 0 || t.claims.isEmpty)

/-- Every output strip of the strand is written. -/
def State.drainAll (s : State) : State :=
  s.st.streams.foldl (fun s p => s.drainStrips p.2.buf.length (BitVec.ofNat 5 p.1)) s

/-- The slot of the save pool returns (R296). -/
def State.returnSlot (s : State) (ctx : BitVec 12) (slot : Option Nat) : State :=
  match slot with
  | none => s
  | some k =>
    let c := s.context ctx
    s.setContext ctx { c with slots := c.slots.erase k }

/-- A cause, where there is one, reaches launch `id` and the records above it. -/
def State.causeLaunchId (s : State) (id : Nat) (cause : BitVec 8) : State :=
  match if cause = 0 then none else s.launches.find? fun l => l.id == id with
  | none => s
  | some l => s.causeLaunch l cause

/-- A cause, where there is one, reaches a node and the records above it. -/
def State.causeNode (s : State) (ctx : BitVec 12) (node graph : Word) (cause : BitVec 8) : State :=
  if cause = 0 then s else (s.recordCause ctx node cause).causeGraph ctx graph cause

/-- The cause of the iteration of a strand that its context's stop ends reaches what it worked for (R123, R124): the
cause of the trap that could not be taken, or of the one that ended it. -/
def State.causeStopped (s : State) (t : Strand) : State :=
  let cause := match t.run with
    | .stopped c => c
    | _ => t.iter.cause
  match t.iter.work with
  | .launch => s.causeLaunchId t.iter.launch cause
  | .batch => s.causeNode t.ctx t.iter.recAddr t.iter.graph cause
  | .root => if cause = 0 then s else s.setContext t.ctx ((s.context t.ctx).setField 0x05 1 cause.toNat)
  | .none => s

/-- A launch iteration counts as completed. -/
def State.endLaunchIter (s : State) (t : Strand) : State :=
  let i := t.iter
  let s := s.causeLaunchId i.launch i.cause
  let s := s.setLaunch i.launch fun l => { l with live := l.live - 1 }
  if s.launches.any fun l => l.id == i.launch then s.decrement t.ctx i.recAddr 0 1 else s

/-- The records of a batch count as completed (R272). -/
def State.endRecords (s : State) (ctx : BitVec 12) (node graph : Word) (n : Nat) (cause : BitVec 8) : State :=
  match s.graphAt ctx graph with
  | none => s
  | some g =>
    let s := s.causeNode ctx node g.recAddr cause
    (s.increment ctx node (2 ^ 64 - n)).decrement ctx graph 1 n

/-- The root iteration ends (R356). -/
def State.endRoot (s : State) (ctx : BitVec 12) (cause : BitVec 8) : State :=
  let c := s.context ctx
  let c := if cause = 0 then c else c.setField 0x05 1 cause.toNat
  s.setContext ctx { c with rootEnded := true, subHit := false }

/-- The iteration can be handed out again (R352). -/
def Iter.again (i : Iter) : Bool :=
  i.cause == 0x13 && !i.effects && !i.rehanded && !i.cancelled && (i.work == .launch || i.work == .batch)

/-- The iteration in focus ends: its strand is free, and its completion is counted. -/
def State.endIteration (s : State) : State :=
  let s := s.drainAll
  let t := s.st
  let s := (s.returnSlot t.ctx t.iter.slot).upd Strand.leave
  let s := { s with monitors := s.monitors.filter fun m => m.iter != t.iter.id }
  if t.iter.again && t.tvec == 0 then { s with rehand := s.rehand ++ [t] }
  else
    match t.iter.work with
    | .launch => s.endLaunchIter t
    | .batch => s.endRecords t.ctx t.iter.recAddr t.iter.graph t.iter.records t.iter.cause
    | .root => s.endRoot t.ctx t.iter.cause
    | .none => s

/-- `endit` of the strand in focus retires. -/
def execIterationEnd (s : State) : Result := .next (if s.ended then s.endIteration else s)

/-! ## Handing out again (R352) -/

/-- The `k`-th iteration that ended by a machine check is handed out again, where no work of a higher priority can be
placed on its die (R259). -/
def State.rehandOut (s : State) (k : Nat) : Option State :=
  match s.rehand[k]? with
  | none => none
  | some t => if (s.rehandDie t).any fun d => s.higherFits d t.iter.prio then none else s.rehandAt k

/-- The `args.k`-th iteration that ended by a machine check is handed out again. -/
def execIterationRehandout (s : State) : Result := .next ((s.rehandOut s.args.k).getD s)

/-! ## Streaming a blob (R272, R275) -/

/-- The bytes of a blob from line `k` on and its poisoned lines (R342), or the cause of the first fault. -/
def State.blobRead (s : State) (ctx : BitVec 12) : Nat → Nat → Word → Except (BitVec 8) (List Byte × List Nat)
  | 0, _, _ => .ok ([], [])
  | n + 1, k, a =>
    match s.checkEngine ctx .read 64 a with
    | .bad c _ => .error c
    | .ok p _ =>
      match s.blobRead ctx n (k + 1) (a + 64) with
      | .error c => .error c
      | .ok r => .ok (s.placeBytes p 64 ++ r.1, if (s.poisonAt a p 64).isSome then k :: r.2 else r.2)

/-- The blob of the landing batch in focus has streamed, or its read faults: before the batch started its records count
as completed and no strand keeps it; after a resume the iteration ends as by a trap without handler. -/
def State.streamDone (s : State) : State :=
  let t := s.st
  let i := t.iter
  match i.streaming, i.buffer, s.graphAt t.ctx i.graph with
  | true, some b, some g =>
    match g.nodes[i.node]? with
    | none => s
    | some n =>
      let k := clusterOf s.cur
      match s.blobRead t.ctx (n.bsize / 64) 0 n.blob with
      | .ok (bs, bad) =>
        let s := (s.setBuffer k b (some ⟨t.ctx, n.blob, bs, s.stamp, bad⟩)).nextStamp
        s.upd fun t => { t with iter := { t.iter with streaming := false, number := 0 } }
      | .error c =>
        let s := s.setBuffer k b none
        if i.number = 1 then
          (s.cancelWork i.id).upd fun t =>
            ({ t with iter := { t.iter with streaming := false, buffer := none } } : Strand).endByTrap c
        else (s.upd Strand.leave).endRecords t.ctx i.recAddr i.graph i.records c
  | _, _, _ => s

/-- The blob of the strand in focus has streamed. -/
def execBlobStreamComplete (s : State) : Result := .next s.streamDone

/-! ## Root iterations (R356) -/

/-- The root iteration of a context is placed by R258. -/
def State.placeRoot (s : State) (ctx : BitVec 12) : Option State :=
  let c := s.context ctx
  if !s.rootWaits ctx || s.higherFits c.dieNo c.prio then none
  else
    match s.placeFor c.ask with
    | none => none
    | some n =>
      let it : Iter := { work := .root, id := s.stamp, prio := c.prio }
      let t := Strand.begin_ c ctx c.entry false [0, 0, 0, 0, c.arg] it
      some ((s.setStrand n t).setContext ctx { c with rootEnded := false, subHit := false }).nextStamp

/-- The root iteration of context `args.k` is placed. -/
def execRootPlace (s : State) : Result := .next ((s.placeRoot (BitVec.ofNat 12 s.args.k)).getD s)

end Sys2Proof.Machine
end

