-- ==== Sys2Proof/Machine/Package.lean ====
section
/-! DEFINITION. The package: contexts, the host's accesses, the management window, resets, boot, attestation, power,
ports, tide windows and errors (R299, R323, R324, R341, R342, R351, R354 to R373). -/

namespace Sys2Proof.Machine

/-! ## The management window (R361, R363, R364) -/

/-- A refused write (R364 `mgerr`). -/
def State.refuse (s : State) : State := { s with mgmt := { s.mgmt with mgerr := true } }

/-- A field of the window. -/
def Mgmt.field (m : Mgmt) (off n : Nat) : Nat := ofBytes (bytesAt m.winByte off n)

/-- Writes bytes of the window; `route` is kept inverted, as 0xFF is its reset value. -/
def Mgmt.put (m : Mgmt) (off : Nat) (bs : List Byte) : Mgmt :=
  let bs := if 0xA0000 ≤ off ∧ off < 0xA1000 then bs.map fun b => b ^^^ 0xFF else bs
  { m with win := setCells 0 off bs m.win }

/-- The first context of a virtual function and their number. -/
def Mgmt.vfbase (m : Mgmt) (f : Nat) : Nat := m.field (0x100 + 16 * (f - 1)) 2
def Mgmt.vfcount (m : Mgmt) (f : Nat) : Nat := m.field (0x102 + 16 * (f - 1)) 2

/-- The context is one of function `f`'s own: in its range, or for the physical function one whose record names it. -/
def State.ownsCtx (s : State) (f c : Nat) : Bool :=
  if f = 0 then (s.context (BitVec.ofNat 12 c)).function == 0
  else decide (s.mgmt.vfbase f ≤ c) && decide (c < s.mgmt.vfbase f + s.mgmt.vfcount f)

/-- The record is seen in the window of function `f`. -/
def State.seesCtx (s : State) (f c : Nat) : Bool := f == 0 || s.ownsCtx f c

/-- `pkstat` (R364). -/
def State.pkstat (s : State) : Word :=
  BitVec.ofNat 64 (bit s.mgmt.ready + 2 * bit s.mgmt.recovery + 4 * bit (s.mgmt.ports.any Port.up) +
    8 * bit s.mgmt.trip + 16 * bit (s.dies.any fun p => decide (p.2.clockMHz < 4000)) + 32 * bit s.mgmt.mgerr)

/-- A write to `pkstat`, in the BAR of the physical function: a 1 clears `mgerr`, and the other fields are read-only.
While that function is reset the write is refused as a request (R365). -/
def execPkstatWrite (s : State) : Result :=
  .next (if s.args.word.getLsbD 5 && !s.mgmt.flr.contains 0 then { s with mgmt := { s.mgmt with mgerr := false } } else s)

/-! ## Context records (R354, R355) -/

/-- A record that enters state 2: zero fields, ranges and alignments. -/
def CtxSt.startable (c : CtxSt) : Bool :=
  decide (c.prio ≤ 3) && decide (c.function ≤ 63) && decide (c.flags ≤ 1) && decide (c.dieNo ≤ 3) &&
    c.root % 2 ^ 18 == 0 && decide (c.root < 2 ^ 52) && c.tvec &&& ~~~(crField 0x200) == 0 &&
    c.ulbase0 &&& ~~~(crField 0x208) == 0 && c.ullim0 &&& ~~~(crField 0x209) == 0 && c.svbase.toNat % 2 ^ 17 == 0 &&
    canonical c.svbase && decide (1 ≤ c.slotCount) && decide (c.slotCount ≤ 1024) && (c.field 0x36 2).toNat == 0 &&
    c.sub % 4096 == 0 && decide (c.sub < 2 ^ 51) && populated c.sub && c.entry.toNat % 4 == 0 && canonical c.entry &&
    (c.field 0x50 48).toNat == 0

/-- The context starts: its shared state takes the configured values (R126, R348). -/
def CtxSt.started (c : CtxSt) : CtxSt :=
  { c.setField 0x00 1 2 with
    ulbase := c.ulbase0
    ullim := c.ullim0
    ulSeq := 0
    ulBad := false
    ulLog := []
    ulOn := false
    rootEnded := false
    subHit := false
    doneHits := []
    slots := [] }

/-- State 1 to 2, where the record can start and no running context has its domain (R372). -/
def State.startContext (s : State) (k : Nat) : State :=
  let c := s.context (BitVec.ofNat 12 k)
  if c.state = 1 ∧ c.startable ∧ (s.peerOf c.domain).isNone then s.setContext (BitVec.ofNat 12 k) c.started else s.refuse

/-- The host may write this record through function `j` now. -/
def State.recordOpen (s : State) (j k : Nat) : Bool := decide (k < 4096) && !s.mgmt.flr.contains j && s.seesCtx j k

/-- A host write of state 2 to context `args.k`. -/
def execContextStart (s : State) : Result :=
  .next (if s.recordOpen s.args.j s.args.k then s.startContext s.args.k else s)

/-! ## Stopping a context (R355, R365) -/

/-- Registers of a strand that ran a context that is reset: all zero (R365 step 5). -/
def Strand.zeroed : Strand := { Strand.reset with vm := 0, trp := 0, tcp := 0, ffirst := Vector.replicate 7 0 }

/-- Stores of a strand that wait on no entry: each is performed or dropped, a free choice (R365 step 4; log 39). -/
def State.someStores (s : State) : Nat → Nat → State
  | _, 0 => s
  | k, n + 1 =>
    let t := if Config.keepOld s.freeCount k then s.upd fun t => { t with stores := t.stores.drop 1 }
      else if s.st.stores.head?.any fun e => e.after.isNone then s.performHead
      else s.upd fun t => { t with stores := t.stores.drop 1 }
    t.someStores (k + 1) n

/-- Strand `n` is stopped and zeroed. -/
def State.zeroStrand (s : State) (n : Nat) : State :=
  let back := s.cur
  let s := s.focus n
  ((s.someStores 0 s.st.stores.length).upd fun _ => Strand.zeroed).focus back

/-- A running command is stopped: each of its destination elements holds its old value or its new one (R365 step 3). A
rank of a collective takes status 0x07 (R380). -/
def State.abortCmd (s : State) (c : Cmd) : State :=
  if !c.started || c.status != 0 then s
  else
    match c.engine with
    | .copy => s.someWrites c.die c.ctx 0 (s.runCopy c).elems
    | .coll => (s.someWrites c.die c.ctx 0 (s.runColl c 0 [] []).elems).finishCmd c 0x07 0
    | .wharf =>
      if c.seals then s
      else
        let us := (List.range (c.wharfRange.2 / 64)).map fun n => (n, s.wharfSource c n)
        s.setDie c.wharfDie
          (us.foldl (fun d u => s.wharfUnit 0x07 u.1 (c.wharfRange.1 + 64 * u.1) u.2 d) (s.die c.wharfDie))
    | .train =>
      match s.peerOf (c.domainIn s) with
      | none => s
      | some peer =>
        let mine := c.passengers.filter fun e =>
          e.package == s.mgmt.pkno.toNat && !(c.replies.any fun r => r.package == e.package) &&
            !Config.keepOld s.freeCount e.index
        (s.performElems c.die peer (fieldOf c.bytes 0x12 1) (fieldOf c.bytes 0x13 1) mine {}).1
    | .pix =>
      let r := c.extra.take 64
      let share := c.frags.filter fun g =>
        decide (g.x < fieldOf r 0x0C 2) && decide (g.y < fieldOf r 0x0E 2) && !c.acks.contains (tileOwner g.x g.y) &&
          (s.fragFault c.ctx r g).isNone
      [0, 1, 2, 3].foldl (fun s j =>
        (s.applyFrags j c.ctx r true s.freeCount (2 ^ 20 * j) (share.filter fun g => tileOwner g.x g.y == j)).1) s

/-- The engine commands of a context: those that have not started complete with status 0x07, and the others are
stopped. -/
def State.dropCmds (s : State) (ctx : BitVec 12) : State :=
  let mine := s.cmds.filter fun c => c.ctx == ctx
  let s := mine.foldl (fun s c => if c.started then s.abortCmd c else s.finishCmd c 0x07 0) s
  { s with
    cmds := s.cmds.filter fun c => c.ctx != ctx
    frames := s.frames.filter fun f => f.ctx != ctx }

/-- The Pontoon items of a context in cluster `k`. -/
def State.dropItems (s : State) (ctx : BitVec 12) (k : Nat) : State :=
  let mine := (s.cluster k).items.filter fun i => i.ctx == ctx
  let s := mine.foldl (fun s i =>
    if i.running then
      match s.itemResult k i with
      | none => s
      | some r => s.someWrites (k / 16) i.ctx 0 r.elems
    else s.finish (i.completion k 0x07 0 0)) s
  let c := s.cluster k
  s.setCluster k { c with
    items := c.items.filter fun i => i.ctx != ctx
    banks := c.banks.map fun b =>
      if b.owner == some ctx then { b with owner := none, blocks := [], poisoned := [] } else b
    cfgs := c.cfgs.map fun g => if g.any fun g => g.ctx == ctx then none else g
    buffers := c.buffers.map fun b => if b.any fun b => b.ctx == ctx then none else b }

/-- Zero is written to an event spill ring, page by page where the page can be written. -/
def State.zeroRing (s : State) (ctx : BitVec 12) (slot : Nat) : State :=
  (List.range 8).foldl (fun s p =>
    let va := slotArea (s.context ctx).svbase slot + BitVec.ofNat 64 (0x18000 + 4096 * p)
    match s.checkDevice ctx .write 1 va with
    | .ok q _ =>
      State.writePieces (fun s va p bs => s.writeFrom (s.context ctx).dieNo ctx va p bs) va [⟨q, s.skewAt ctx va⟩]
        [(0, List.replicate 4096 0)] s
    | .bad _ _ => s) s

/-- The jobs of a context are cancelled: the final writes of R263 for everything that is active. -/
def State.dropJobs (s : State) (ctx : BitVec 12) : State :=
  let ls := s.launches.filter fun l => l.ctx == ctx
  let gs := s.graphs.filter fun g => g.ctx == ctx
  let phases := (gs.map Graph.parent).dedup.filter fun a => a != 0
  let jobs := (phases.map (s.phaseJob ctx)).dedup.filter fun a => a != 0
  let todo := ls.map (fun l => (l.recAddr, 0)) ++ gs.map (fun g => (g.recAddr, 1)) ++ phases.map (fun a => (a, 2)) ++
    jobs.map fun a => (a, 3)
  let s := todo.foldl (fun s p => (s.finalWrite ctx p.1 p.2 3).1) s
  { s with
    cancelled := s.cancelled.filter fun c => c.ctx != ctx
    finishing := s.finishing.filter fun f => f.ctx != ctx }

/-- Steps 2 to 6 of R365 for one context, which is then in state 3. -/
def State.stopContext (s : State) (ctx : BitVec 12) : State :=
  let mine := (s.cur :: s.others.map Prod.fst).filter fun n => (s.strand n).ctx == ctx
  let s := mine.foldl (fun s n => (s.causeStopped (s.strand n)).zeroStrand n) s
  let s : State := { s with
    saved := s.saved.filter fun v => v.strand.ctx != ctx
    monitors := s.monitors.filter fun m => !(s.saved.any fun v => v.strand.ctx == ctx && v.strand.iter.id == m.iter)
    rehand := s.rehand.filter fun t => t.ctx != ctx
    flights := s.flights.filter fun f => !mine.contains f.strand }
  let s := s.dropCmds ctx
  let s := (s.clusters.map Prod.fst).foldl (fun s k => s.dropItems ctx k) s
  let s : State := { s with posts := s.posts.filter fun p => p.ctx != ctx }
  let s := s.dropJobs ctx
  let s := (s.context ctx).slots.foldl (fun s k => s.zeroRing ctx k) s
  let s : State := { s with dies := s.dies.map fun p => (p.1, { p.2 with tlb := p.2.tlb.filter fun e => e.ctx != ctx }) }
  let c := s.context ctx
  s.setContext ctx { c.setField 0x00 1 3 with
    slots := [], ulLog := [], ulOn := false, rootEnded := false, subHit := false, doneHits := [] }

/-- A host write of state 1 to a running context. -/
def execContextStop (s : State) : Result :=
  .next (if !s.recordOpen s.args.j s.args.k then s
    else if (s.context (BitVec.ofNat 12 s.args.k)).state = 2 then s.stopContext (BitVec.ofNat 12 s.args.k)
    else s.refuse)

/-- A context in state 3 that no function-level reset stopped becomes configured. -/
def execContextStopComplete (s : State) : Result :=
  .next (
    let ctx := BitVec.ofNat 12 s.args.k
    let c := s.context ctx
    if c.state = 3 ∧ !s.mgmt.flr.contains c.function then s.setContext ctx (c.setField 0x00 1 1) else s)

/-- State 1 to 0. -/
def State.freeContext (s : State) (k : Nat) : State :=
  let ctx := BitVec.ofNat 12 k
  let c := s.context ctx
  if c.state = 1 then s.setContext ctx (c.setField 0x00 1 0) else s.refuse

/-- A host write of state 0 to context `args.k`. -/
def execContextFree (s : State) : Result :=
  .next (if s.recordOpen s.args.j s.args.k then s.freeContext s.args.k else s)

/-- A write of the state byte (R355). A free context is configured by a write of 1, the one way in which it can leave
state 0 (DEDUCED, log 40). -/
def State.writeState (s : State) (k v : Nat) : State :=
  let ctx := BitVec.ofNat 12 k
  let c := s.context ctx
  match c.state, v with
  | 0, 1 => s.setContext ctx (c.setField 0x00 1 1)
  | 1, 2 => s.startContext k
  | 2, 1 => s.stopContext ctx
  | 1, 0 => s.freeContext k
  | _, _ => s.refuse

/-! ## Function-level reset (R365) -/

/-- A function-level reset begins: every context of the function is stopped. -/
def execFunctionLevelReset (s : State) : Result :=
  .next (
    let f := s.args.k
    if 64 ≤ f ∨ s.mgmt.flr.contains f then s
    else
      let s := { s with mgmt := { s.mgmt with flr := f :: s.mgmt.flr } }
      let mine := (s.ctxs.filter fun p => p.2.function == f && p.2.state != 0).map fun p => BitVec.ofNat 12 p.1
      mine.foldl State.stopContext s)

/-- Step 7: the contexts are free, the function's ranges are empty, and its BARs answer again. -/
def execFlrComplete (s : State) : Result :=
  .next (
    let f := s.args.k
    if !s.mgmt.flr.contains f then s
    else
      let m := { s.mgmt with flr := s.mgmt.flr.filter fun g => g != f }
      let m := m.put (0x1000 + 128 * f) (bytesOf 128 0)
      let m := if f = 0 then m else m.put (0x100 + 16 * (f - 1)) (bytesOf 16 0)
      { s with
        mgmt := m
        ctxs := s.ctxs.map fun p => (p.1, if p.2.function == f && p.2.state == 3 then p.2.setField 0x00 1 0 else p.2) })

/-! ## Host accesses (R324, R360, R362) -/

/-- The physical address that a host access to device memory names, where it may be made: the submission area of the
function's k-th context, 256 at most for a virtual function (R360), or for the physical function device memory and
staging by address (log 40). -/
def State.hostTarget (s : State) (f n : Nat) (t : HostTarget) : Option Nat :=
  if s.mgmt.flr.contains f then none
  else
    match t with
    | .submission off =>
      let k := off / 4096
      let ctx := if f = 0 then k else s.mgmt.vfbase f + k
      let c := s.context (BitVec.ofNat 12 ctx)
      if decide (off % 4096 + n ≤ 4096) && decide (ctx < 4096) &&
        (f == 0 || (decide (k < s.mgmt.vfcount f) && decide (k < 256))) &&
        c.state != 0 then some (c.sub + off % 4096) else none
    | .phys a =>
      if f == 0 && populated a && populated (a + n - 1) && a / 2 ^ 49 != 4 && (a + n - 1) / 2 ^ 49 == a / 2 ^ 49 then some a
      else none
    | .window _ => none

/-- A host write is accepted and performed, in order (R324), from the IO die (R353). -/
def execHostWrite (s : State) : Result :=
  .next (match s.hostTarget s.args.k s.args.bytes.length s.args.target with
    | none => s
    | some a => if s.args.bytes.isEmpty then s else (s.crossed 4 (.mem a)).rawWrite false a s.args.bytes)

/-- The tide register of a die (R299). -/
def DieSt.tide (d : DieSt) : Word := BitVec.ofNat 64 (d.tideLen % 65536 * 2 ^ 32 + bit d.tideIn * 2 ^ 31 + d.tideNext % 2 ^ 31)

/-- Drawn power of die `k` in units of 1/8 W: free values, which together stay within the power limit (R363, R371; log
7). -/
def State.pwrnow (s : State) (k : Nat) : Nat :=
  let drawn (acc : List Nat) (j : Nat) : List Nat :=
    acc ++ [(Config.power (5 * s.freeCount + j)).toNat % (8 * s.mgmt.pwrlim - acc.sum + 1)]
  ((List.range 5).foldl drawn []).getD k 0

/-- `port` (R363). -/
def Port.word (p : Port) : Word := BitVec.ofNat 64 (bit p.up + 2 * bit p.retraining + 256 * p.lanes.toNat)

/-- Byte `i` of a word. -/
def byteOf (w : Word) (i : Nat) : Byte := w.extractLsb' (8 * i) 8

/-- A byte of the window of the physical function, as it reads (R363). -/
def State.windowByte (s : State) (off : Nat) : Byte :=
  let m := s.mgmt
  if off < 0x08 then byteOf Config.pkinfo off
  else if off < 0x10 then byteOf s.pkstat (off - 0x08)
  else if off < 0x18 then byteOf (m.pkno.zeroExtend 64) (off - 0x10)
  else if off < 0x20 then byteOf (BitVec.ofNat 64 m.pwrlim) (off - 0x18)
  else if off < 0x48 then byteOf (BitVec.ofNat 64 (s.pwrnow ((off - 0x20) / 8))) (off % 8)
  else if off < 0x68 then byteOf (s.die ((off - 0x48) / 8)).tide (off % 8)
  else if 0x10000 ≤ off ∧ off < 0x90000 then
    (s.context (BitVec.ofNat 12 ((off - 0x10000) / 128))).record.extractLsb' (8 * (off % 128)) 8
  else if 0xA1000 ≤ off ∧ off < 0xA1080 then
    byteOf (((m.ports[(off - 0xA1000) / 8]?).map Port.word).getD 0) (off % 8)
  else m.winByte off

/-- A byte of the window of function `f`: a virtual function sees the records of its own contexts, its own Wharf
allocations and the mailbox, and zero elsewhere (R361). -/
def State.windowRead (s : State) (f off : Nat) : Byte :=
  let wharf := s.mgmt.wharfField ((off - 0x90000) / 2048) ((off - 0x90000) % 2048 / 2)
  if f = 0 || (decide (0x10000 ≤ off) && decide (off < 0x90000) && s.seesCtx f ((off - 0x10000) / 128)) ||
      (decide (0x90000 ≤ off) && decide (off < 0x92000) && wharf.testBit 15 && s.ownsCtx f (wharf % 4096)) ||
      (decide (0xA2000 ≤ off) && decide (off < 0xA4000)) then s.windowByte off
  else 0

/-- The window of function `f` answers at these bytes: not while the function is reset (R365), in recovery only at
`pkstat` and the mailbox (R364), after a trip at `pkstat` (R371). -/
def State.windowOpen (s : State) (f off n : Nat) : Bool :=
  let pkstat := decide (0x08 ≤ off) && decide (off + n ≤ 0x10)
  let mbox := decide (0xA2000 ≤ off) && decide (off + n ≤ 0xA4000)
  decide (f < 64) && decide (off + n ≤ 2 ^ 22) && !s.mgmt.flr.contains f &&
    (if s.mgmt.trip then pkstat else s.mgmt.ready || pkstat || mbox)

/-- What a host read of `n` bytes through function `f` is answered with; no bytes where it is refused, or meets
poison. -/
def State.hostAnswer (s : State) (f n : Nat) (t : HostTarget) : List Byte :=
  match t with
  | .window off => if s.windowOpen f off n then bytesAt (s.windowRead f) off n else []
  | t =>
    match if s.mgmt.ready && !s.mgmt.trip then s.hostTarget f n t else none with
    | none => []
    | some a => if (s.poisonAt 0 (.mem a) n).isSome then [] else bytesAt (memGet s.mem) a n

/-- A host read is performed and answered. -/
def execHostRead (s : State) : Result :=
  .next (
    let ans := s.hostAnswer s.args.k s.args.j s.args.target
    { s with mgmt := { s.mgmt with answers := ans :: s.mgmt.answers } })

/-- A completion for an access to line `args.k` of host memory (R362). -/
def execHostRequestCompletion (s : State) : Result :=
  .next (
    let k := s.args.k
    let drop (l : List Nat) : List Nat := l.filter fun x => x != k
    match s.args.answer with
    | .data bs =>
      let s := s.hostWrite (64 * k) (bs.take 64)
      { s with hostErr := drop s.hostErr, hostPoison := drop s.hostPoison }
    | .error => { s with hostErr := k :: drop s.hostErr, hostPoison := drop s.hostPoison }
    | .poisoned => { s with hostErr := drop s.hostErr, hostPoison := k :: drop s.hostPoison })

/-- The interrupt that follows a device write to `done`, one for each that found notify[0] = 1 (R358). -/
def execDoneInterrupt (s : State) : Result :=
  .next (
    let ctx := BitVec.ofNat 12 s.args.k
    let c := s.context ctx
    match c.doneHits with
    | [] => s
    | vector :: rest =>
      { s.setContext ctx { c with doneHits := rest } with
        mgmt := { s.mgmt with msix := s.mgmt.msix ++ [(c.function, vector)] } })

/-! ## The state window (R360) -/

/-- A write of `ssel`. -/
def execSselWrite (s : State) : Result :=
  .next (if s.mgmt.flr.contains s.args.k || decide (64 ≤ s.args.k) then s
    else { s with mgmt := { s.mgmt with ssel := tabSet s.args.k s.args.word s.mgmt.ssel } })

/-- The word that `sdata` answers, where the function may read it: class 0, and the words of its own contexts. -/
def State.sdataWord (s : State) (f : Nat) : Option Word :=
  let xa := tabGet 0 s.mgmt.ssel f
  match s.stateWord 0 true xa with
  | .word (some c) w => if s.ownsCtx f c.toNat && (s.context c).state != 0 then some w else none
  | .word none w => if xa.extractLsb' 40 5 = 0 then some w else none
  | _ => none

/-- A read of `sdata`: all ones and `mgerr` where the word is not permitted. -/
def execSdataRead (s : State) : Result :=
  .next (if s.mgmt.flr.contains s.args.k then s
    else
      let answer (s : State) (w : Word) : State :=
        { s with mgmt := { s.mgmt with answers := bytesOf 8 w.toNat :: s.mgmt.answers } }
      match s.sdataWord s.args.k with
      | some w => answer s w
      | none => answer s.refuse (-1))

/-! ## Other fields of the window (R363) -/

/-- A `pload` or `xwharf` of a context is queued or running. -/
def State.wharfBusy (s : State) (ctx : Nat) : Bool :=
  (s.cmds.any fun c => c.engine == .wharf && c.ctx.toNat == ctx) ||
    s.clusters.any fun p => p.2.items.any fun i => i.load && i.ctx.toNat == ctx

/-- A write to the owner of a Wharf region, while neither its owner nor the context that it is allocated to has a `pload` or
`xwharf` queued or running. One with a bit of [14:12] set is refused (DEDUCED, log 96). -/
def State.writeWharf (s : State) (k v : Nat) : State :=
  let die := k / 1024
  let r := k % 1024
  let old := s.mgmt.wharfField die r
  let busy (x : Nat) : Bool := x.testBit 15 && s.wharfBusy (x % 4096)
  if v / 4096 % 8 ≠ 0 ∨ busy old ∨ busy v ∨ (s.die die).seals.any (fun p => p.1 == r) then s.refuse
  else { s with mgmt := s.mgmt.put (0x90000 + 2 * k) (bytesOf 2 v) }

/-- A write of `args.word` to the owner of Wharf region `args.k`, counted through the dies. -/
def execWharfAllocWrite (s : State) : Result :=
  .next (if 4096 ≤ s.args.k ∨ s.mgmt.flr.contains 0 then s else s.writeWharf s.args.k (s.args.word.toNat % 65536))

/-- The bytes of a context record that a write leaves as they are: the state, `rootcause`, and for a virtual function
`function` (R354). -/
def lockedByte (f i : Nat) : Bool := i == 0x00 || i == 0x05 || (i == 0x02 && f != 0)

/-- Writes bytes of a record, from byte `i` on. -/
def CtxSt.putBytes (c : CtxSt) (f : Nat) : Nat → List Byte → CtxSt
  | _, [] => c
  | i, b :: bs => (if lockedByte f i then c else c.setField i 1 b.toNat).putBytes f (i + 1) bs

/-- A write to a context record: the other bytes only while it is free or configured, then the state byte. -/
def State.writeRecord (s : State) (f k i : Nat) (bs : List Byte) : State :=
  let ctx := BitVec.ofNat 12 k
  let c := s.context ctx
  if 128 < i + bs.length then s.refuse
  else
    let rest := if i = 0 then bs.drop 1 else bs
    let at_ := if i = 0 then 1 else i
    let s := if rest.isEmpty then s
      else if 2 ≤ c.state then s.refuse
      else s.setContext ctx (c.putBytes f at_ rest)
    match i, bs with
    | 0, b :: _ => s.writeState k b.toNat
    | _, _ => s

/-- The mailbox's control word. -/
def Mgmt.control (m : Mgmt) : Nat := m.field 0xA2000 4

/-- A write of 1 to the mailbox by function `f`; while it holds 1 the write is refused (R370). -/
def State.askReport (s : State) (f : Nat) : State :=
  if s.mgmt.control = 1 then s.refuse
  else { s with mgmt := { s.mgmt.put 0xA2000 (bytesOf 4 1) with attest := some f } }

/-- A write to the mailbox: the control word, or the request's own fields (log 7). -/
def State.writeMbox (s : State) (f off : Nat) (bs : List Byte) : State :=
  if off < 4 then
    if s.mgmt.control = 1 then s.refuse
    else if off = 0 ∧ ofBytes bs = 1 then s.askReport f
    else if off + bs.length ≤ 4 then { s with mgmt := s.mgmt.put (0xA2000 + off) bs }
    else s.refuse
  else if 8 ≤ off ∧ off + bs.length ≤ 0x40 then { s with mgmt := s.mgmt.put (0xA2000 + off) bs }
  else s.refuse

/-- Writes bytes of the window where the field that they give keeps its zero bits. -/
def State.putField (s : State) (off : Nat) (bs : List Byte) (ok : Mgmt → Bool) : State :=
  let m := s.mgmt.put off bs
  if ok m then { s with mgmt := m } else s.refuse

/-- A write to a field of the window through the physical function. A value outside a field's range, or with a bit set that
the field has as zero, is refused (DEDUCED, log 96). -/
def State.writeWindow (s : State) (off : Nat) (bs : List Byte) : State :=
  let n := bs.length
  let v := ofBytes bs
  if off = 0x10 ∧ n = 8 then
    if v < 4096 then { s with mgmt := { s.mgmt with pkno := BitVec.ofNat 12 v } } else s.refuse
  else if off = 0x18 ∧ n = 8 then
    if 1200 ≤ v ∧ v ≤ 2400 then { s with mgmt := { s.mgmt with pwrlim := v } } else s.refuse
  else if 0x100 ≤ off ∧ off + n ≤ 0x100 + 63 * 16 ∧ off / 16 = (off + n - 1) / 16 then
    s.putField off bs fun m => m.field (off / 16 * 16 + 4) 12 == 0
  else if 0x1000 ≤ off ∧ off + n ≤ 0x3000 ∧ off / 8 = (off + n - 1) / 8 then
    s.putField off bs fun m => m.field (off / 8 * 8) 8 % 65536 == 0 && decide (m.field (off / 8 * 8) 8 < 2 ^ 52)
  else if 0x10000 ≤ off ∧ off + n ≤ 0x90000 then s.writeRecord 0 ((off - 0x10000) / 128) ((off - 0x10000) % 128) bs
  else if 0x90000 ≤ off ∧ off < 0x92000 ∧ off % 2 = 0 ∧ n = 2 then s.writeWharf ((off - 0x90000) / 2) v
  else if 0xA0000 ≤ off ∧ off + n ≤ 0xA1000 then
    s.putField off bs fun _ => bs.all fun b => decide (b.toNat < 16) || b == 0xFF
  else if 0xA2000 ≤ off ∧ off + n ≤ 0xA4000 then s.writeMbox 0 (off - 0xA2000) bs
  else s.refuse

/-- A write of `args.bytes` at offset `args.j` of the window of function `args.k`. A virtual function reaches the
records of its own contexts and the mailbox; its other writes are ignored (R361). -/
def execMgmtRegisterWrite (s : State) : Result :=
  .next (
    let f := s.args.k
    let off := s.args.j
    let bs := s.args.bytes
    if s.mgmt.flr.contains f || decide (64 ≤ f) || bs.isEmpty then s
    else if s.mgmt.recovery && !(decide (0xA2000 ≤ off) && decide (off + bs.length ≤ 0xA4000)) then s
    else if f = 0 then s.writeWindow off bs
    else if 0x10000 ≤ off ∧ off + bs.length ≤ 0x90000 ∧ s.seesCtx f ((off - 0x10000) / 128) then
      s.writeRecord f ((off - 0x10000) / 128) ((off - 0x10000) % 128) bs
    else if 0xA2000 ≤ off ∧ off + bs.length ≤ 0xA4000 then s.writeMbox f (off - 0xA2000) bs
    else s)

/-! ## Attestation (R369, R370) -/

/-- A write of 1 to the mailbox by function `args.k`. -/
def execAttestationRequest (s : State) : Result :=
  .next (if s.mgmt.flr.contains s.args.k || decide (64 ≤ s.args.k) then s else s.askReport s.args.k)

/-- Bytes of the digest of the verified images and of signatures, which the model leaves free (log 7). -/
def nolayBytes (seed n : Nat) : List Byte := (List.range n).map (Config.nolayByte seed)

/-- The digest of a context: its record, then its function's memory ranges (R369). -/
def State.contextDigest (s : State) (ctx : Nat) : List Byte :=
  let c := s.context (BitVec.ofNat 12 ctx)
  shake256 (bytesOf 128 c.record.toNat ++ bytesAt s.mgmt.winByte (0x1000 + 128 * c.function) 128)

/-- The report (R369). -/
def State.report (s : State) (kind ctx : Nat) : List Byte :=
  bytesOf 4 1 ++ bytesOf 4 kind ++ bytesAt s.mgmt.winByte 0xA2020 32 ++ shake256 (bytesAt s.mgmt.winByte 0xA3000 1952) ++
    nolayBytes 1 64 ++ bytesOf 8 Config.pkinfo.toNat ++ (if kind = 1 then s.contextDigest ctx else bytesOf 64 0) ++
    bytesOf 2 (if kind = 1 then ctx else 0) ++ bytesOf 14 0 ++ nolayBytes (8 + s.freeCount) 3309

/-- Nolay finishes the report: 2, or 3 where the request names a context that the function does not own. -/
def execAttestationComplete (s : State) : Result :=
  .next (match s.mgmt.attest with
    | none => s
    | some f =>
      let kind := s.mgmt.field 0xA2008 4
      let ctx := s.mgmt.field 0xA200C 2
      let m := { s.mgmt with attest := none }
      if 1 < kind ∨ (kind = 1 ∧ (4096 ≤ ctx ∨ !s.ownsCtx f ctx)) then { s with mgmt := m.put 0xA2000 (bytesOf 4 3) }
      else { s with mgmt := (m.put 0xA2100 (s.report kind ctx)).put 0xA2000 (bytesOf 4 2) })

/-! ## Boot, temperature, power (R367, R371) -/

/-- The boot: with verified firmware the part is as after reset and ready; else it stays in recovery. What stands
outside the package, and the MODEL's own fields, stay. -/
def execPackageBoot (s : State) : Result :=
  .next { State.reset with
    inputs := s.inputs
    pace := s.pace
    args := s.args
    freeCount := s.freeCount
    hostMem := s.hostMem
    hostErr := s.hostErr
    hostPoison := s.hostPoison
    mgmt := { Mgmt.reset with ready := s.args.flag, recovery := !s.args.flag, answers := s.mgmt.answers } }

/-- Every die stops and every context is lost. -/
def execThermalTrip (s : State) : Result :=
  .next { State.reset with
    inputs := s.inputs
    pace := s.pace
    args := s.args
    freeCount := s.freeCount
    mem := s.mem
    hostMem := s.hostMem
    hostErr := s.hostErr
    hostPoison := s.hostPoison
    poison := s.poison
    mgmt := { s.mgmt with trip := true } }

/-- The arithmetic clock of die `args.k` is lowered by 100 MHz, down to 1.0 GHz. -/
def execPowerThrottle (s : State) : Result :=
  .next (if 4 ≤ s.args.k then s
    else
      let d := s.die s.args.k
      s.setDie s.args.k { d with clockMHz := Nat.max 1000 (d.clockMHz - 100) })

/-- The arithmetic clock of die `args.k` returns to 4.0 GHz. -/
def execPowerThrottleRelease (s : State) : Result :=
  .next (if 4 ≤ s.args.k then s else s.setDie s.args.k { s.die s.args.k with clockMHz := 4000 })

/-! ## Ports (R363, R373) -/

/-- A flit that fails its CRC is retransmitted, with no visible effect; the link of die `args.k` counts a corrected
error (R341). -/
def execLinkFlitRetry (s : State) : Result := .next (s.countCorrected s.args.k)

/-- Replaces a port. -/
def State.setPort (s : State) (k : Nat) (p : Port) : State :=
  { s with mgmt := { s.mgmt with ports := s.mgmt.ports.setIfInBounds k p } }

/-- Trains in flight on a port that is down end with status 0x0E. -/
def State.loseTrains (s : State) : State :=
  { s with cmds := s.cmds.map fun c =>
      if c.engine == .train && c.started && c.status == 0 then { c with replies := c.replies ++ s.lostReplies c } else c }

/-- Port `args.k` clears its up bit. -/
def execPortDown (s : State) : Result := .next (s.setPort s.args.k ⟨false, false, 0⟩).loseTrains

/-- Port `args.k` begins retraining. -/
def execPortRetraining (s : State) : Result :=
  .next (match s.mgmt.ports[s.args.k]? with
    | some p => s.setPort s.args.k { p with retraining := true }
    | none => s)

/-- Port `args.k` completes training, with `args.j` lanes where that is a number from 1 to 8, else with 8. -/
def execPortUp (s : State) : Result :=
  .next (s.setPort s.args.k ⟨true, false, if 1 ≤ s.args.j ∧ s.args.j ≤ 8 then BitVec.ofNat 8 s.args.j else 8⟩)

/-! ## Tide windows (R299) -/

/-- A refresh window of die `args.k` begins: 512 Wharf cycles. -/
def execTideWindowStart (s : State) : Result :=
  .next (if 4 ≤ s.args.k then s
    else s.setDie s.args.k { s.die s.args.k with tideIn := true, tideNext := 0, tideLen := 512 })

/-- A refresh window of die `args.k` ends; the next one begins after the rest of 65,536 cycles. -/
def execTideWindowEnd (s : State) : Result :=
  .next (if 4 ≤ s.args.k then s
    else
      let d := s.die s.args.k
      if d.tideIn then s.setDie s.args.k { d with tideIn := false, tideNext := 65024, tideLen := 512 } else s)

/-! ## Writes between dies (R323) -/

/-- A die applies the `k`-th write in flight, once it has applied every write that its clock names. -/
def State.applyFlight (s : State) (k : Nat) : Option State :=
  match s.flights[k]? with
  | none => none
  | some f => if s.flightReady f then some (s.landFlight f) else none

/-- The `args.k`-th write in flight is applied. -/
def execDieWriteApply (s : State) : Result := .next ((s.applyFlight s.args.k).getD s)

/-! ## Errors that cannot be corrected (R342, R346) -/

/-- Adds a number to a list once. -/
def addOnce (n : Nat) (l : List Nat) : List Nat := if l.contains n then l else n :: l

/-- The unit is poisoned; an error in other state of a strand raises the asynchronous machine check; a copy in a cache
is dropped and read again, and counts as corrected. -/
def State.poisonUnit (s : State) (u : PoisonUnit) : State :=
  let strand (n : Nat) (f : Strand → Strand) : State :=
    if n < 2048 ∧ (s.strand n).iter.work ≠ .none then s.setStrand n (f (s.strand n)) else s
  match u with
  | .line n => if populated (64 * n) && 64 * n / 2 ^ 49 != 4 then { s with poison := addOnce n s.poison } else s
  | .vreg n r w => strand n fun t => { t with vpoison := addOnce (256 * r.toNat + w % 256) t.vpoison }
  | .tile n h w =>
    strand n fun t => if h < t.tonOwned.toNat then { t with vpoison := addOnce (8192 + 512 * h + w % 512) t.vpoison } else t
  | .xreg n r => strand n fun t => if r = 0 then t else { t with xpoison := setReg t.xpoison r true }
  | .strandState n => strand n fun t => { t with pending := t.pending ++ [{ cause := 0x13, tval := 0 }] }
  | .queueState n => strand n fun t => { t with pending := t.pending ++ [{ cause := 0x13, tval := 0, unit := 1 }] }
  | .copy k => s.countCorrected k
  | .bank k q b =>
    if k < 64 ∧ q < 8 ∧ b < 1024 then
      let c := s.cluster k
      let x := c.bank q
      s.setCluster k (c.setBank q { x with poisoned := addOnce b x.poisoned })
    else s
  | .rowBuffer k id row =>
    let c := s.cluster k
    if k < 64 then
      s.setCluster k { c with items := c.items.map fun i =>
        if i.id == id && i.running && !i.load then { i with badRows := addOnce row i.badRows } else i }
    else s
  | .wharf d n =>
    if d < 4 ∧ n < 2 ^ 28 then s.setDie d { s.die d with wharfPoison := addOnce n (s.die d).wharfPoison } else s
  | .scratch n l =>
    strand n fun t => if 64 * l < t.scratchSize then { t with scratchBad := addOnce l t.scratchBad } else t
  | .batch n l => strand n fun t => if 64 * l < t.batchSize then { t with batchBad := addOnce l t.batchBad } else t
  | .cscratch k n l =>
    let c := s.cluster k
    s.setCluster k { c with ranges := c.ranges.map fun r =>
      if r.launch == n && decide (64 * l < r.size) then { r with bad := addOnce l r.bad } else r }
  | .blob k b l =>
    match (s.cluster k).buffers[b]? with
    | some (some x) => if 64 * l < x.data.length then s.setBuffer k b (some { x with bad := addOnce l x.bad }) else s
    | _ => s

/-- An error that cannot be corrected arises in `args.unit`. -/
def execUncorrectableError (s : State) : Result := .next (s.poisonUnit s.args.unit)

end Sys2Proof.Machine
end

