-- ==== Sys2Proof/Machine/Preempt.lean ====
section
/-! DEFINITION. Pre-emption, resume, parked roots and `yield` (R112, R130 to R133, R275, R296). -/

namespace Sys2Proof.Machine

/-! ## Work that waits for a slot (R130) -/

/-- What the wait monitor of the die holds for an iteration (R133). -/
def State.monitorOf (s : State) (id : Nat) : Option Monitor := s.monitors.find? fun m => m.iter == id

/-- A parked root whose line has been written. -/
def State.wokenRoot (s : State) (v : Saved) : Bool := v.parked && (s.monitorOf v.strand.iter.id).any Monitor.woken

/-- The first free strand of a die in walker order. -/
def State.freeStrand (s : State) (die : Nat) : Option Nat := (walkerOrder die 0).find? fun n => (s.strand n).vacant

/-- Work of a priority that `p` admits waits for a strand of this core: an iteration or batch that could be placed in
its cluster, a root, a saved iteration of the core, a parked root of the die that has been woken and finds no free
strand, or an iteration that is handed out again (R352). -/
def State.slotWanted (s : State) (core : Nat) (p : Nat → Bool) : Bool :=
  let die := core / 128
  let k := core / 8 % 16
  let here (mask : Nat) : Bool := (clustersOf mask).contains k
  (s.launches.any fun l => l.die == die && l.ready && p l.prio && here l.mask && (s.handOut l).isNone) ||
    (s.graphs.any fun g => g.die == die && !g.cancelled && p g.prio && here g.ask.mask && (s.handBatch g).isNone &&
      g.nodes.any fun n => !n.queue.isEmpty && decide (0 < s.batchSize g n)) ||
    (s.ctxs.any fun q => q.2.dieNo == die && p q.2.prio && here q.2.place && s.rootWaits (BitVec.ofNat 12 q.1) &&
      (s.placeFor q.2.ask).isNone) ||
    ((List.range s.rehand.length).any fun j => (s.rehand[j]?).any fun t =>
      p t.iter.prio && s.rehandDie t == some die && (s.rehandMask t).any here && (s.rehandAt j).isNone) ||
    s.saved.any fun v => p v.strand.iter.prio &&
      if v.parked then s.wokenRoot v && dieOf v.home == die && (s.freeStrand die).isNone else coreOf v.home == core

/-- No strand slot of the core is free. -/
def State.coreFull (s : State) (core : Nat) : Bool := (coreStrands core).all fun n => !(s.strand n).vacant

/-! ## Choosing a victim (R130, R131, R296) -/

/-- The slot of the save pool, its address, and the places of its pages, where every page can be written (R131). -/
def State.savePlaces (s : State) (t : Strand) : Option (Nat × Word × List AreaPage) :=
  let c := s.context t.ctx
  match t.iter.slot.or c.freeSlot with
  | none => none
  | some k =>
    let a := slotArea c.svbase k
    match pagePlaces (fun x => s.checkDevice t.ctx .write 1 x) (s.skewAt t.ctx) a areaPages 0 with
    | .error _ => none
    | .ok ps => some (k, a, ps)

/-- The strand can be a victim at all: it has not stopped (R124), no trap has ended it, and it can be saved. An `endit`
that waits is decoded again after the resume. A batch whose blob still streams has not begun its work, and is passed
over (DESIGN CHOICE, log 86). -/
def State.candidate (s : State) (t : Strand) : Bool :=
  t.iter.work != .none && t.run == .running && !(t.iter.ending && t.iter.cause != 0) && !t.iter.streaming &&
    (s.savePlaces t).isSome

/-- The victim of a core: the lowest priority of the context, and among equals the iteration that started last. -/
def State.victim (s : State) (core : Nat) : Option Nat :=
  let cs := (coreStrands core).filter fun n => s.candidate (s.strand n)
  let worse (x y : Nat) : Bool :=
    let a := s.strand x
    let b := s.strand y
    decide (a.prio < b.prio) || (a.prio == b.prio && decide (b.iter.id ≤ a.iter.id))
  (cs.mergeSort worse).head?

/-- Pre-emption is deferred in a critical section, at supervisor level, and while the strand sleeps in `bar` (R130,
R280). -/
def Strand.deferred (t : Strand) : Bool :=
  t.crit || t.level == .supervisor || match t.sleep with
    | .barrier _ _ => true
    | _ => false

/-! ## Stopping and saving (R131) -/

/-- An atomic that heads the store queue and meets poison is decoded again after a save (R344); where the strand cannot go
back to it, its register is left poisoned (log 84). -/
def State.withdrawAtomic (s : State) : State :=
  match s.st.stores with
  | [] => s
  | e :: rest =>
    if !s.st.headReady || s.headClean then s
    else if s.st.canRewind e.seq then
      s.upd fun t => { t.rewind e.seq e.pc with redecode := if e.again then some e.pc else none }
    else s.upd fun t => { t with stores := rest }.xspoil (e.dest.getD 0)

/-- Each load in flight delivers its value or is decoded again after the save (R122, R344), stores that wait on no entry
are performed, and output strips are written. -/
def State.quiesce (s : State) : State :=
  let s := (List.range s.st.loads.length).foldl (fun s _ => s.deliverLoad) s
  (s.flush s.st.stores.length s.st.seq).withdrawAtomic.drainAll

/-- Unit instructions whose waiting head a pre-emption abandons (R183, R224, R269, R300). -/
def abandoned (i : Instr) : Bool :=
  match i with
  | .vwait _ | .pload _ | .penq _ | .pcfg _ | .pstat _ | .emit _ => true
  | .xcopy _ | .xtrain _ | .xcoll _ | .xpix _ | .xwharf _ => true
  | _ => false

/-- The head of the queue stops at element `k`: where it stands if `k` does not lie above `vstart`, else at the stop
point `k` below `vl`; its tag is written where `vstart` is then not 0 (R200). When it runs again it reads its sources
again, also where its own committed elements stand in them (log 80). A unit head is not stopped: the pre-emption waits
until it retires (R144), unless it is one that waits and is abandoned. A head that the vector side has not started
executes nothing (R161): it stops where it stands, a unit one only where its strand does not start it, as while the strand
sleeps (log 99). -/
def State.stopHead (s : State) (k : Nat) : Option State :=
  match s.st.queue with
  | [] => some s
  | e :: _ =>
    match formOf e with
    | none => some s
    | some f =>
      if !e.underWay then if f.grain = 0 && s.st.starts then none else some (s.upd (f.stand e))
      else if f.grain = 0 then
        match if abandoned e.instr then s.attempt f e e.vl.toNat else .poison 0 with
        | .wait _ => some s
        | _ => none
      else if k ≤ s.st.vstart.toNat then some (s.upd (f.stand e))
      else if e.vl.toNat ≤ k ∨ k % f.grain ≠ 0 ∨ s.vPoisoned f e ∨ (e.recheck ∧ !e.rechecked) then none
      else
        match s.attempt f e k with
        | .done s' fs =>
          some (s'.upd fun t =>
            let t := (t.raise fs e.raised).commitTags e
            { t.setHead (fun e => { e with raised := e.raised ||| allRaised fs }) with vstart := BitVec.ofNat 12 k })
        | _ => none

/-- What the device keeps of a strand that it saves: its tiles have returned to the pool, its claims are withdrawn,
and an instruction that waited at decode is decoded again. -/
def Strand.afterDeviceSave (t : Strand) (slot : Nat) : Strand :=
  { t with
    claims := []
    dtag := t.gtag
    hold := none
    tonOwned := 0
    tonPend := none
    watch := false
    watchOut := false
    timedOut := false
    waiting := false
    iter := { t.iter with slot := some slot, tiles := 0, streams := t.streamUnits, ending := false } }

/-- The strand as its area shows it: the image of a root that is parked in a handler is the queue image (R128, R133),
flags of scalar instructions behind an entry have entered (R73), and tiles that a resume still waits for count as owned.
-/
def Strand.toSave (t : Strand) : Strand :=
  let r := t.takeFlags (t.queue ++ t.image)
  { r.1 with
    queue := r.2
    image := []
    held := false
    tonOwned := match t.tonPend with
      | some r => if r.resume then BitVec.ofNat 3 r.tiles else t.tonOwned
      | none => t.tonOwned }

/-- What the device's save holds, beside the registers of the strand (R128). -/
def Strand.deviceKind (t : Strand) : SaveKind :=
  ⟨t.queue, t.pc, t.vcp false, t.level == .supervisor, 0x12, none, false⟩

/-- Writes the area of the strand in focus and takes its slot of the pool. -/
def State.writeArea (s : State) (slot : Nat) (a : Word) (ps : List AreaPage) : State :=
  let t := s.st
  let s := State.writePieces (fun s va p bs => s.writeFrom (dieOf s.cur) t.ctx va p bs) a ps (t.savePieces t.deviceKind) s
  let c := s.context t.ctx
  if c.slots.contains slot then s else s.setContext t.ctx { c with slots := c.slots ++ [slot] }

/-- Saves the strand in focus into its slot of the pool by R128, with cause 0x12, and frees the strand. -/
def State.saveFocus (s : State) (k : Nat) (parked : Bool) : Option State :=
  match s.quiesce.stopHead k with
  | none => none
  | some s =>
    if !s.st.loads.isEmpty || s.st.stores.any fun e => e.after.isNone then none
    else
      let s := s.upd Strand.toSave
      match s.savePlaces s.st with
      | none => none
      | some (slot, a, ps) =>
        let s := s.writeArea slot a ps
        let v : Saved := ⟨s.cur, a, s.st.afterDeviceSave slot, parked⟩
        some ({ s with saved := s.saved ++ [v] }.upd Strand.leave)

/-- A landing batch. -/
def State.onLanding (s : State) (t : Strand) : Bool :=
  t.iter.work == .batch &&
    match s.graphAt t.ctx t.iter.graph with
    | some g => (g.nodes[t.iter.node]?).any Node.landing
    | none => false

/-- The strand in focus is pre-empted, its head stopped at element `k`: it is the victim of its core, and work of higher
priority than its own waits there. A landing batch is given time first (R275). -/
def State.preempt (s : State) (k : Nat) (landing : Bool) : Option State :=
  let core := coreOf s.cur
  if s.coreFull core && s.victim core == some s.cur && !s.st.deferred && s.onLanding s.st == landing &&
    s.slotWanted core (fun p => decide (s.st.prio.toNat < p)) then s.saveFocus k false
  else none

/-- Pre-emption of the strand in focus, whose vector head stops at element `args.k`. -/
def execPreemption (s : State) : Result := .next ((s.preempt s.args.k false).getD s)

/-- A landing batch has had its 4,096 cycles (R275). -/
def execLandingPreemptTimeout (s : State) : Result := .next ((s.preempt s.args.k true).getD s)

/-- `yield`: where work of equal or higher priority waits for a slot of the core, the strand is saved and later
resumes at the next instruction; at supervisor level it is not saved (DEDUCED, log 38). -/
def execYield (s : State) : Result :=
  .next (if s.st.inSection then s.decodeTrap .yield 0x02
    else
      let core := coreOf s.cur
      if s.coreFull core && !s.st.deferred && s.candidate s.st &&
        s.slotWanted core (fun p => decide (s.st.prio.toNat ≤ p)) then
        (s.advance.saveFocus 0 false).getD s.stall
      else s.advance)

/-! ## Resuming (R131, R202, R275) -/

/-- The restored iteration cannot go on: it ends as by a trap without handler (R131). -/
def State.refuseResume (s : State) (cause : BitVec 8) : State :=
  (s.cancelWork s.st.iter.id).upd fun t => t.endByTrap cause

/-- The restored strand goes on as by `eret`, with `n` tiles: granted now, else it waits in its slot for them as a
`ton` at its place in the order of requests (R202). -/
def State.resumeTiles (s : State) (n : Nat) : State :=
  if n = 0 then s
  else if s.canGrant n s.stamp then s.upd fun t => t.grantBack n
  else
    { s.upd fun t => { t with tonPend := some { tiles := n, stamp := s.stamp, decode := false, resume := true } } with
      stamp := s.stamp + 1 }

/-- The strand in focus takes up a saved iteration: the area is read as it stands in memory, checked by R129, and the
saved strand returns as by `eret`, which skips no entry (R131; log 87). A read of poison in it is a machine check (R346;
log 70). -/
def State.restore (s : State) (v : Saved) : State :=
  let s := s.upd fun _ => { v.strand with
    stores := [], loads := [], undo := [], queue := [], image := [], held := false, streams := [], crit := false
    sleep := .awake, run := .running, tonOwned := 0, tonPend := none }
  let ctx := s.st.ctx
  match pagePlaces (fun x => s.checkDevice ctx .read 1 x) (s.skewAt ctx) v.area areaPages 0 with
  | .error (c, _) => s.refuseResume c
  | .ok ps =>
    let rd := s.areaReader ps
    match s.areaPoison v.area ps rd with
    | some line => (s.countPoison.logCheck 0x13 line s.st.pc lineUnit).refuseResume 0x13
    | none =>
      if !areaLegal rd then s.refuseResume 0x02
      else
        match s.loadArea rd none (some v.strand) with
        | .error (c, _) => s.refuseResume c
        | .ok t => (s.upd fun _ => { ({ t with skip := false } : Strand).return_ with skip := t.skip }).resumeTiles (rd 0x16 1)

/-- The blob of a resumed landing batch: shown where a buffer holds it, else streamed again (R275). An iteration whose
area was refused shows none. -/
def State.reshow (s : State) : Option State :=
  let t := s.st
  if !s.onLanding t || t.iter.ending then some s
  else
    match (s.graphAt t.ctx t.iter.graph).bind fun g => g.nodes[t.iter.node]? with
    | none => some s
    | some n =>
      let k := clusterOf s.cur
      let show_ (s : State) (b : Nat) (again : Bool) : State :=
        s.upd fun t => { t with
          iter := { t.iter with buffer := some b, streaming := again, number := if again then 1 else 0 } }
      match s.holdingBuffer k t.ctx n with
      | some b => some (show_ (s.touchBuffer k b) b false)
      | none =>
        match s.takableBuffer k with
        | none => none
        | some b => some (show_ (s.setBuffer k b (some ⟨t.ctx, n.blob, [], s.stamp, []⟩)).nextStamp b true)

/-- Restores a saved iteration into strand `n`, which is free. -/
def State.resumeAt (s : State) (k n : Nat) : Option State :=
  match s.saved[k]? with
  | none => none
  | some v =>
    let back := s.cur
    let s := { s with saved := s.saved.eraseIdx k }.focus n
    let room : Need := { streams := v.strand.iter.streams, scratch := v.strand.scratchSize }
    if !s.st.vacant || !s.coreRoom (coreOf n) room then none
    else
      (s.restore { v with strand := { v.strand with iter := { v.strand.iter with buffer := none } } }).reshow.map fun s =>
        s.focus back

/-- The `args.k`-th saved iteration resumes on the strand in focus, a free one of the core that it ran on. -/
def execResume (s : State) : Result :=
  .next (((s.saved[s.args.k]?).bind fun v =>
    if !v.parked && coreOf v.home == coreOf s.cur then s.resumeAt s.args.k s.cur else none).getD s)

/-! ## Parking (R133) -/

/-- The word, condition and operand of the `wait` that the strand in focus sleeps in, for the wait monitor; none where
its condition holds now, or its word can no longer be read: the strand then decodes it again. -/
def State.watched (s : State) : Option Monitor :=
  match s.fetchWord.bind decodeWord with
  | some (.wait o) =>
    let n := if o.wide then 8 else 4
    let a := s.st.xget o.a
    let operand := (s.st.xget o.b).toNat % 2 ^ (8 * n)
    match s.check .read n n a with
    | .bad _ _ => none
    | .ok p _ =>
      if condHolds o.cond (8 * n) (ofBytes (s.seenBytes p n)) operand then none
      else some ⟨s.st.iter.id, a, p, o.cond, o.wide, operand, false⟩
  | _ => none

/-- The root strand in focus, which sleeps in a `wait` without time-out, is saved and handed to the wait monitor; also
where it sleeps in a handler (R133; log 87). -/
def State.park (s : State) (k : Nat) : Option State :=
  match s.st.sleep, s.watched with
  | .word _, some m =>
    if s.st.iter.work == .root && s.st.wto == 0 && s.candidate s.st then
      (s.saveFocus k true).map fun s => { s with monitors := s.monitors ++ [m] }
    else none
  | _, _ => none

/-- PARK, the vector head stopping at element `args.k`. -/
def execPark (s : State) : Result := .next ((s.park s.args.k).getD s)

/-- A parked root of a higher priority on the same die has been woken too. -/
def State.wokenAbove (s : State) (v : Saved) : Bool :=
  s.saved.any fun w => s.wokenRoot w && dieOf w.home == dieOf v.home && decide (v.strand.iter.prio < w.strand.iter.prio)

/-- A parked root whose line was written is restored into the first free slot of its die in walker order, by priority,
and decodes its `wait` again. -/
def State.wake (s : State) (k : Nat) : Option State :=
  match s.saved[k]? with
  | none => none
  | some v =>
    if !s.wokenRoot v || s.wokenAbove v then none
    else ((s.freeStrand (dieOf v.home)).bind (s.resumeAt k)).map fun s =>
      { s with monitors := s.monitors.filter fun m => m.iter != v.strand.iter.id }

/-- The `args.k`-th saved strand, a parked root, is restored. -/
def execWaitMonitorWake (s : State) : Result := .next ((s.wake s.args.k).getD s)

end Sys2Proof.Machine
end

