-- ==== Sys2Proof/Machine/Fetch.lean ====
section
/-! DEFINITION. What the machine does next: the device's steps that `inputs` lists come first, then the strand in focus
moves. The order in which strands, engines and the outside world move is left open by the spec and is plain data here
(log 1). -/

namespace Sys2Proof.Machine

/-- What a step runs. -/
inductive Choice where
  /-- `exec i s`, after which the strand `back`, if any, comes into focus again -/
  | run (i : Instr) (s : State) (back : Option Nat)
  /-- the instruction that the strand in focus fetched -/
  | fetched (i : Instr) (s : State)
  /-- nothing but the MODEL's own fields changes -/
  | still (s : State)
  | stop (f : Fault)

/-- A step of the device with these operands, on the strand in focus. -/
def State.device (s : State) (i : Instr) (args : StepArgs) : Choice := .run i { s with args := args } none

/-- A step of the device on strand `n`. -/
def State.deviceOn (s : State) (i : Instr) (n : Nat) (args : StepArgs) : Choice :=
  .run i { s.focus n with args := args } (some s.cur)

/-- The TLB of the die of the strand in focus takes up the translation of an address (R293: only valid entries). One
that holds 8,192 entries drops the one taken up first (DESIGN CHOICE, log 12). -/
def State.fillTlb (s : State) (va : Word) : State :=
  let a := va.toNat % 2 ^ 56
  match s.translate s.st.stores s.st.ctx a with
  | .leaf l =>
    let k := dieOf s.cur
    let d := s.die k
    s.setDie k { d with tlb := (⟨s.st.ctx, a / l.size, l.size, BitVec.ofNat 64 l.entry⟩ :: d.tlb).take 8192 }
  | _ => s

/-- Whether a strand decodes instructions now. -/
def Strand.decodes (t : Strand) : Bool :=
  t.run == .running && t.sleep == .awake && !t.iter.ending && !t.iter.streaming && t.hold.isNone && !t.restoring &&
    !t.waiting

/-- An asynchronous trap that waits can be taken now (R111, R130): pre-emption waits for the end of a critical section
and of supervisor level, cancellation for the end of a critical section. -/
def Strand.canTake (t : Strand) (p : Pending) : Bool :=
  if p.cause == 0x12 then !t.crit && t.level == .user
  else if p.cause == 0x17 then !t.crit
  else true

/-- Some asynchronous trap that waits can be taken now; one that is deferred holds back no other. -/
def Strand.asyncReady (t : Strand) : Bool := t.pending.any t.canTake

/-- The strand can take a trap at a boundary: it runs, its iteration has not been ended by a trap, and its blob is
there. An `endit` that waits is such a boundary (R113, R123). While a resumed strand waits for its tiles no trap is taken:
a cancellation comes after the grant (log 67). -/
def Strand.interruptible (t : Strand) : Bool :=
  t.run == .running && !(t.iter.ending && t.iter.cause != 0) && !t.iter.streaming && !t.restoring

/-- The trap that decoding has stopped for can be taken (R122). -/
def Strand.holdReady (t : Strand) : Bool := t.run == .running && t.hold.isSome && t.settled

/-- The 4,097th instruction of a critical section is being decoded (R111). -/
def Strand.critFull (t : Strand) : Bool := t.crit && !t.critSusp && decide (4096 ≤ t.critCount)

/-- The instruction at pc: the fetch faults, the word is no instruction, a critical section overruns, or it runs. -/
def State.decodeNext (s : State) : Choice :=
  match s.fetchWord with
  | none => s.device .instructionFetchFault {}
  | some w =>
    match decodeWord w with
    | none => s.device .illegalInstruction {}
    | some i => if s.st.critFull then s.device .critOverrun {} else .fetched i s

/-- What the strand in focus does, where no input comes first. -/
def State.strandNext (s : State) (idle : State → Choice) : Choice :=
  if s.st.holdReady || (s.st.interruptible && s.st.asyncReady) then s.device .trapEntry {}
  else if !s.st.decodes || s.walkBlocked s.st.pc then idle s
  else s.decodeNext

/-- Whether a step of the device can take place: any once the part is ready (R367); in recovery only those of `pkstat`
and the mailbox (R364); after a trip the boot, and a read of `pkstat` (R371); before the boot only the boot. What a host
read then answers is `State.windowOpen`. -/
def Mgmt.admits (m : Mgmt) (i : Instr) : Bool :=
  match i with
  | .packageBoot => true
  | .hostRead => m.ready || m.recovery || m.trip
  | .pkstatWrite | .mgmtRegisterWrite | .attestationRequest | .attestationComplete =>
    !m.trip && (m.ready || m.recovery)
  | _ => m.ready && !m.trip && !i.isWord

/-- What the machine does next. `idle` says what happens while the strand in focus waits. -/
def State.choose (s : State) (idle : State → Choice) : Choice :=
  match s.inputs with
  | .dev i n args :: rest =>
    let t := { s with inputs := rest }
    if s.mgmt.admits i then t.deviceOn i n args else .still t
  | .focus n :: rest => .still ({ s with inputs := rest }.focus n)
  | .tlbFill va :: rest => .still ({ s with inputs := rest }.fillTlb va)
  | .corrected k :: rest => .still ({ s with inputs := rest }.countCorrected k)
  | .pace p :: rest => .still { s with inputs := rest, pace := p }
  | [] =>
    if s.mgmt.trip || s.mgmt.recovery then .stop .packageStopped
    else if !s.mgmt.ready then s.device .packageBoot { flag := true }
    else s.strandNext idle

/-- Instructions of a critical section are counted as they complete, up to and including `critx` (R111). A system call
or breakpoint completes by its trap. -/
def Strand.counts (i : Instr) (before after : Strand) : Bool :=
  before.crit && !before.critSusp && after.crit && !after.waiting &&
    (!after.critSusp || i == .scall || i == .dbrk)

/-- The counter that free values are applied to moves on with every step (log 5). -/
def State.tick (s : State) : State := { s with freeCount := s.freeCount + 1 }

/-- After a step: the focus goes back, the operands of the device's step are spent, the section's count moves on. -/
def State.settle (s : State) (back : Option Nat) : State :=
  let s := match back with
    | none => s
    | some n => ((s.upd fun t => { t with waiting := false }).focus n).upd fun t => { t with waiting := false }
  { s with args := {} }.tick

/-- The strand after the instruction that it fetched: the section's count moves on, and while an access is in flight what
the instruction changed is kept. -/
def Strand.fetchedDone (i : Instr) (before after : Strand) : Strand :=
  Strand.noteUndo i before
    (if Strand.counts i before after then { after with critCount := after.critCount + 1 } else after)

/-- After the instruction that the strand fetched. -/
def State.settleFetched (i : Instr) (before after : State) : State := (after.upd (Strand.fetchedDone i before.st)).tick

end Sys2Proof.Machine
end

