-- ==== Sys2Proof/Machine/Progress.lean ====
section
/-! DEFINITION. The steps of the device on a strand (R34, R37, R97, R119, R121 to R123, R161, R297, R344, R345). -/

namespace Sys2Proof.Machine

/-! ## Decoding that raises a trap (R28, R34) -/

/-- A word that is no instruction takes trap 0x01, with the word in `tval`. -/
def execIllegalInstruction (s : State) : Result :=
  .next (match s.fetchWord with
    | none => s
    | some w => if (decodeWord w).isNone then s.trap 0x01 (zext w) else s)

/-- A fetch that faults takes the trap of its check, with the address in `tval`. -/
def execInstructionFetchFault (s : State) : Result :=
  .next (match s.fetchCheck with
    | .bad c _ => s.trapAccess c s.st.pc
    | .ok _ _ => s)

/-- The scalar instruction that consumed poison is decoded again (R344). -/
def execScalarPoisonRedecode (s : State) : Result :=
  .next (if s.st.redecode == some s.st.pc then s.upd fun t => { t with waiting := false } else s)

/-! ## Asynchronous traps (R121 to R123) -/

/-- The trap that decoding has stopped for is taken (R122). A system call or a breakpoint of a critical section counts
as one of its instructions, which completes by its trap (R111). -/
def State.takeHeld (s : State) (h : Held) : State :=
  let s := if h.cause == 0x10 || h.cause == 0x11 then s.upd Strand.countOne else s
  s.takeTrap .scalar h.cause h.tval h.tepc

/-- An asynchronous trap is taken: `tepc` is the run-ahead point, and the head of the queue stops where it stands. -/
def State.takeAsync (s : State) (p : Pending) : State :=
  let s := s.upd fun t => { t with pending := t.pending.erase p }
  let s := if p.cause == 0x13 then s.logCheck 0x13 p.tval s.st.pc p.unit else s
  (s.upd Strand.standHead).takeTrap .async p.cause p.tval s.st.pc

/-- A trap that waits for its conditions is taken: the one that decoding has stopped for, once nothing older is
outstanding, else the first asynchronous one that can be taken now. Each load in flight delivers its value first
(R122). -/
def execTrapEntry (s : State) : Result :=
  .next (
    match if s.st.holdReady then s.st.hold else none with
    | some h => s.takeHeld h
    | none =>
      if !s.st.interruptible then s
      else
        match s.st.pending.find? s.st.canTake with
        | none => s
        | some p => if s.st.loads.isEmpty then s.takeAsync p else s.deliverLoad)

/-! ## The vector side (R119, R161, R345) -/

/-- The vector side of core `args.k` starts the next ready head in the rotation. -/
def execVectorIssue (s : State) : Result :=
  .next (match s.nextIssue s.args.k with
    | none => s
    | some (n, k) =>
      let t := s.strand n
      (s.setStrand n { t with queue := t.queue.modify k fun e => { e with started := true } }).setCore s.args.k
        { s.core s.args.k with lastStart := n % 4 })

/-- The head of the queue of a strand, where it is under way. -/
def Strand.startedHead (t : Strand) : Option QEntry :=
  if t.run == .running && !t.restoring then t.queue.head?.filter QEntry.underWay else none

/-- The oldest entry, once started, executes and retires, stops with a trap, or waits. -/
def State.retireStep (s : State) : State :=
  match s.st.startedHead.bind formOf with
  | none => s
  | some f => s.runHead f

/-- The oldest entry of the strand in focus retires. -/
def execVectorEntryRetire (s : State) : Result := .next s.retireStep

/-- A mismatch of the two runs (R345): the entry is replayed once, then the strand takes trap 0x14. -/
def State.mismatch (s : State) (e : QEntry) : State :=
  let k := dieOf s.cur
  let d := s.die k
  let s := s.setDie k { d with mismatches := d.mismatches + 1 }
  if e.mismatchReplay then
    match formOf e with
    | some f => s.headCheck f e 0x14 0
    | none => s
  else (s.upd fun t => t.setHead fun e => { e with mismatchReplay := true }).replay

/-- The recheck copy of the head runs and is compared; whether a transient error makes it differ is free (log 18). -/
def State.recheckHead (s : State) : State :=
  match s.st.queue with
  | [] => s
  | e :: _ =>
    if !e.started || !e.recheck || e.rechecked then s
    else if e.mismatchReplay && !s.st.loads.isEmpty then s.deliverLoad
    else if Config.recheckDiffers s.freeCount then s.mismatch e
    else s.upd fun t => t.setHead fun e => { e with rechecked := true }

/-- The recheck copy of the head of the strand in focus runs in an idle slot. -/
def execRecheckRun (s : State) : Result := .next s.recheckHead

/-- The recheck copy of the strand in focus takes its strand's turn in the rotation. -/
def execRecheckTimeout (s : State) : Result :=
  .next (if s.st.queue.head?.any fun e => e.started && e.recheck && !e.rechecked then
      State.recheckHead (s.setCore (coreOf s.cur) { s.core (coreOf s.cur) with lastStart := s.cur % 4 })
    else s)

/-! ## The store queue and loads (R97, R297, R323) -/

/-- The oldest store leaves for another die with the sending die's clock (R323). -/
def State.sendHead (s : State) : State :=
  match s.st.stores with
  | [] => s
  | e :: rest =>
    let k := dieOf s.cur
    let d := (s.die k).sends k
    let s := s.setDie k d
    { s.upd fun t => { t with stores := { e with sent := true } :: rest } with
      flights := s.flights ++ [⟨s.cur, e.seq, k, e.place.home k, d.clock⟩] }

/-- The oldest entry of the store queue, where it is a store, is performed at its home; one whose home is another die is
sent there, and applied by DIE_WRITE_APPLY. -/
def State.storeStep (s : State) : State :=
  match s.st.stores with
  | [] => s
  | e :: _ =>
    if !s.st.headReady || (atomicOf e.instr).isSome then s
    else if e.place.home (dieOf s.cur) = dieOf s.cur then s.performHead
    else s.sendHead

/-- The oldest store-queue entry of the strand in focus is performed. -/
def execStorePerform (s : State) : Result := .next s.storeStep

/-- The oldest entry, where it is an atomic, is applied by the scatter-add unit of its home. -/
def State.atomicStep (s : State) : State :=
  if s.st.headReady && s.st.stores.head?.any fun e => (atomicOf e.instr).isSome then s.performHead else s

/-- The oldest atomic in flight of the strand in focus is applied. -/
def execAtomicApply (s : State) : Result := .next s.atomicStep

/-- The oldest load in flight of the strand in focus fills its destination. -/
def execLoadDataReturn (s : State) : Result := .next s.returnLoad

end Sys2Proof.Machine
end

