-- ==== Sys2Proof/Machine/ScalarFp.lean ====
section
/-! DEFINITION. The scalar floating-point instructions, fp.a and fp.b (R101 to R104). -/

namespace Sys2Proof.Machine

/-- The current value of a floating source, read under `fz` (R12, R69). -/
def Strand.fread (t : Strand) (ty : BitVec 2) (r : Reg) : FVal := readF (fmtOf ty) t.fz (fpBits ty (t.xget r))

/-- The frame of R101 to R104: trap 0x02 at decode for a form that rounds while `frm` is 4, the gate, then the result
into xd and the flags with index 0. Flags enter in program order (R73): behind the older entries of the vector queue. -/
def State.floating (s : State) (i : Instr) (rounds : Bool) (srcs : List (Reg × Bool)) (d : Reg)
    (f : Strand → Word × FFlags) : State :=
  if rounds && s.st.frm == 4 then s.decodeTrap i 0x02
  else
    s.gated srcs [d] fun s =>
      let r := f s.st
      ((s.setX d r.1).raise0 r.2).advance

/-- An arithmetic result: format of `ty`, mode `frm`. -/
def State.fbin (s : State) (i : Instr) (o : FOps)
    (f : Fmt → RMode → Bool → FVal → FVal → Nat × FFlags) : State :=
  s.floating i true [(o.a, o.fa), (o.b, o.fb)] o.d fun t =>
    let r := f (fmtOf o.ty) t.frm t.fz (t.fread o.ty o.a) (t.fread o.ty o.b)
    (ofBits r.1, r.2)

/-- A fused result, with xd as its third source (R102). -/
def State.ffused (s : State) (i : Instr) (o : FOps)
    (f : Fmt → RMode → Bool → FVal → FVal → FVal → Nat × FFlags) : State :=
  s.floating i true [(o.a, o.fa), (o.b, o.fb), (o.d, false)] o.d fun t =>
    let r := f (fmtOf o.ty) t.frm t.fz (t.fread o.ty o.d) (t.fread o.ty o.a) (t.fread o.ty o.b)
    (ofBits r.1, r.2)

/-- Minimum or maximum (R70, R101). -/
def State.fminmax (s : State) (i : Instr) (o : FOps) (wantMax : Bool) : State :=
  s.floating i false [(o.a, o.fa), (o.b, o.fb)] o.d fun t =>
    let r := minmaxF (fmtOf o.ty) t.fz wantMax (fpBits o.ty (t.xget o.a)) (fpBits o.ty (t.xget o.b))
    (ofBits r.1, r.2)

/-- A compare writes 0 or 1 (R101). -/
def State.fcompare (s : State) (i : Instr) (o : FOps) (cmp : FVal → FVal → Bool × FFlags) : State :=
  s.floating i false [(o.a, o.fa), (o.b, o.fb)] o.d fun t =>
    let r := cmp (t.fread o.ty o.a) (t.fread o.ty o.b)
    (ofFlag r.1, r.2)

def execFadd (o : FOps) (s : State) : Result := .next (s.fbin (.fadd o) o addF)
def execFsub (o : FOps) (s : State) : Result := .next (s.fbin (.fsub o) o subF)
def execFmul (o : FOps) (s : State) : Result := .next (s.fbin (.fmul o) o mulF)
def execFdiv (o : FOps) (s : State) : Result := .next (s.fbin (.fdiv o) o divF)
def execFmin (o : FOps) (s : State) : Result := .next (s.fminmax (.fmin o) o false)
def execFmax (o : FOps) (s : State) : Result := .next (s.fminmax (.fmax o) o true)
def execFeq (o : FOps) (s : State) : Result := .next (s.fcompare (.feq o) o (quietCmp fun c => c == 0))
def execFlt (o : FOps) (s : State) : Result := .next (s.fcompare (.flt o) o (signallingCmp fun c => decide (c < 0)))
def execFmac (o : FOps) (s : State) : Result := .next (s.ffused (.fmac o) o fmaF)
def execFnmac (o : FOps) (s : State) : Result := .next (s.ffused (.fnmac o) o fnmaF)
def execFle (o : FOps) (s : State) : Result := .next (s.fcompare (.fle o) o (signallingCmp fun c => decide (c ≤ 0)))

def execFsqrt (o : TUn) (s : State) : Result :=
  .next (s.floating (.fsqrt o) true [(o.a, o.fa)] o.d fun t =>
    let r := sqrtF (fmtOf o.ty) t.frm t.fz (t.fread o.ty o.a)
    (ofBits r.1, r.2))

/-- `fcvt`: `other` is the source float (R103). -/
def execFcvt (o : FCvtOps) (s : State) : Result :=
  .next (s.floating (.fcvt o) (!widens o.other o.ty) [(o.a, o.fa)] o.d fun t =>
    let r := convertF (fmtOf o.ty) t.frm t.fz (t.fread o.other o.a)
    (ofBits r.1, r.2))

/-- `fcvtif`: the low bits of xa as an integer. `fz` does not apply to conversions from integers (R69). -/
def execFcvtif (o : FCvtiOps) (s : State) : Result :=
  .next (s.floating (.fcvtif o) (!intExact o.other o.ty) [(o.a, o.fa)] o.d fun t =>
    let r := fromInt (fmtOf o.ty) t.frm false (readInt (intWidth o.other) o.uns (t.xget o.a).toNat)
    (ofBits r.1, r.2))

/-- `fcvtfi`: to an integer, extended into xd (R103). -/
def execFcvtfi (o : FCvtiOps) (s : State) : Result :=
  .next (s.floating (.fcvtfi o) true [(o.a, o.fa)] o.d fun t =>
    let r := toIntF t.frm (intWidth o.other) o.uns (t.fread o.ty o.a)
    (BitVec.ofInt 64 r.1, r.2))

/-- `fclass` raises nothing and ignores `fz` (R104). -/
def execFclass (o : TUn) (s : State) : Result :=
  .next (s.floating (.fclass o) false [(o.a, o.fa)] o.d fun t =>
    (ofBits (classF (fmtOf o.ty) (fpBits o.ty (t.xget o.a))), 0))

end Sys2Proof.Machine
end

