-- ==== Sys2Proof/Machine/ScalarMem.lean ====
section
/-! DEFINITION. Scalar loads, stores and atomics (R88, R96 to R100). -/

namespace Sys2Proof.Machine

/-- A scalar load: the checks of R88, a wait for older writes that may cover it, then the load is sent. In lockstep its
data returns at once, unless it follows a vector access that has not retired, a `vwait` among them (R320, R321). -/
def State.load (s : State) (o : MemOps) (signed : Bool) : State :=
  s.gated [(o.a, false)] [o.d] fun s =>
    let n := intBytes o.ty
    let a := dispAddr (s.st.xget o.a) o.disp n
    if s.walkBlocked a then s.stall
    else
      match s.check .read n n a with
      | .bad c _ => s.trapAccess c a
      | .ok p _ =>
        if s.st.loadBlocked p n then s.stall
        else
          match s.poisonAt a p n with
          | some line => s.consume line
          | none =>
            let l : LoadFlight :=
              { seq := s.st.seq, dest := o.d, addr := a, place := p, size := n, signed, after := s.st.lastTouch
                pc := s.st.pc, again := s.st.redecode == some s.st.pc, page := s.pageBytes a }
            let s := s.upd fun t => { t.pend o.d with loads := t.loads ++ [l], seq := t.seq + 1 }
            (if s.pace == .lockstep && s.st.loads.length == 1 then s.returnLoad else s).advance

/-- A scalar store: the checks of R88 as a write, a wait for a free entry, then it enters the store queue (R96, R98). -/
def State.store (s : State) (i : Instr) (o : MemOps) : State :=
  s.gated [(o.a, false), (o.d, false)] [] fun s =>
    let n := intBytes o.ty
    let a := dispAddr (s.st.xget o.a) o.disp n
    if s.walkBlocked a then s.stall
    else
      match s.check .write n n a with
      | .bad c _ => s.trapAccess c a
      | .ok p _ =>
        if 16 ≤ s.st.stores.length then s.stall
        else s.enqueueStore i a p n (s.st.xget o.d &&& BitVec.ofNat 64 (2 ^ (8 * n) - 1)) 0 none

/-- A scalar atomic: the checks of R88 as an atomic, then it enters the store queue and its destination is pending
(R98 to R100). Only `atcas` reads xd. -/
def State.atomic (s : State) (i : Instr) (o : AtOps) (cas : Bool) : State :=
  s.gated ([(o.a, o.fa), (o.b, o.fb)] ++ if cas then [(o.d, false)] else []) [o.d] fun s =>
    let n := if o.wide then 8 else 4
    let a := s.st.xget o.a
    if s.walkBlocked a then s.stall
    else
      match s.check .atomic n n a with
      | .bad c _ => s.trapAccess c a
      | .ok p _ =>
        match s.poisonAt a p n with
        | some line => s.consume line
        | none =>
          if 16 ≤ s.st.stores.length then s.stall
          else s.enqueueStore i a p n (s.st.xget o.b) (if cas then s.st.xget o.d else 0) (some o.d)

def execLdSigned (o : MemOps) (s : State) : Result := .next (s.load o true)
def execLdUnsigned (o : MemOps) (s : State) : Result := .next (s.load o false)
def execSt (o : MemOps) (s : State) : Result := .next (s.store (.st o) o)
def execAtadd (o : AtOps) (s : State) : Result := .next (s.atomic (.atadd o) o false)
def execAtfadd (o : AtOps) (s : State) : Result := .next (s.atomic (.atfadd o) o false)
def execAtand (o : AtOps) (s : State) : Result := .next (s.atomic (.atand o) o false)
def execAtor (o : AtOps) (s : State) : Result := .next (s.atomic (.ator o) o false)
def execAtxor (o : AtOps) (s : State) : Result := .next (s.atomic (.atxor o) o false)
def execAtmin (o : AtOps) (s : State) : Result := .next (s.atomic (.atmin o) o false)
def execAtmax (o : AtOps) (s : State) : Result := .next (s.atomic (.atmax o) o false)
def execAtminn (o : AtOps) (s : State) : Result := .next (s.atomic (.atminn o) o false)
def execAtmaxn (o : AtOps) (s : State) : Result := .next (s.atomic (.atmaxn o) o false)
def execAtswap (o : AtOps) (s : State) : Result := .next (s.atomic (.atswap o) o false)
def execAtcas (o : AtOps) (s : State) : Result := .next (s.atomic (.atcas o) o true)

end Sys2Proof.Machine
end

