-- ==== Sys2Proof/Machine/Dispatch.lean ====
section
/-! DEFINITION. One arm for each constructor of `Instr`: a direct call of its meaning. -/

namespace Sys2Proof.Machine

def exec (i : Instr) (s : State) : Host.Outcome State Fault Refusal :=
  match i with
  | .add o => Sys2Proof.Machine.execAdd o s
  | .sub o => Sys2Proof.Machine.execSub o s
  | .and o => Sys2Proof.Machine.execAnd o s
  | .or o => Sys2Proof.Machine.execOr o s
  | .xor o => Sys2Proof.Machine.execXor o s
  | .shl o => Sys2Proof.Machine.execShl o s
  | .shr o => Sys2Proof.Machine.execShr o s
  | .sar o => Sys2Proof.Machine.execSar o s
  | .mul o => Sys2Proof.Machine.execMul o s
  | .mulh o => Sys2Proof.Machine.execMulh o s
  | .mulhn o => Sys2Proof.Machine.execMulhn o s
  | .div o => Sys2Proof.Machine.execDiv o s
  | .divn o => Sys2Proof.Machine.execDivn o s
  | .rem o => Sys2Proof.Machine.execRem o s
  | .remn o => Sys2Proof.Machine.execRemn o s
  | .min o => Sys2Proof.Machine.execMin o s
  | .max o => Sys2Proof.Machine.execMax o s
  | .minn o => Sys2Proof.Machine.execMinn o s
  | .maxn o => Sys2Proof.Machine.execMaxn o s
  | .slt o => Sys2Proof.Machine.execSlt o s
  | .sltn o => Sys2Proof.Machine.execSltn o s
  | .seq o => Sys2Proof.Machine.execSeq o s
  | .sne o => Sys2Proof.Machine.execSne o s
  | .clz o => Sys2Proof.Machine.execClz o s
  | .ctz o => Sys2Proof.Machine.execCtz o s
  | .popc o => Sys2Proof.Machine.execPopc o s
  | .brev o => Sys2Proof.Machine.execBrev o s
  | .sext o => Sys2Proof.Machine.execSext o s
  | .zext o => Sys2Proof.Machine.execZext o s
  | .addi o => Sys2Proof.Machine.execAddi o s
  | .andi o => Sys2Proof.Machine.execAndi o s
  | .ori o => Sys2Proof.Machine.execOri o s
  | .xori o => Sys2Proof.Machine.execXori o s
  | .shli o => Sys2Proof.Machine.execShli o s
  | .shri o => Sys2Proof.Machine.execShri o s
  | .sari o => Sys2Proof.Machine.execSari o s
  | .rori o => Sys2Proof.Machine.execRori o s
  | .slti o => Sys2Proof.Machine.execSlti o s
  | .lih o => Sys2Proof.Machine.execLih o s
  | .pchi o => Sys2Proof.Machine.execPchi o s
  | .beq o => Sys2Proof.Machine.execBeq o s
  | .bne o => Sys2Proof.Machine.execBne o s
  | .blt o => Sys2Proof.Machine.execBlt o s
  | .bge o => Sys2Proof.Machine.execBge o s
  | .bltn o => Sys2Proof.Machine.execBltn o s
  | .bgen o => Sys2Proof.Machine.execBgen o s
  | .brf o => Sys2Proof.Machine.execBrf o s
  | .bre o => Sys2Proof.Machine.execBre o s
  | .jmp o => Sys2Proof.Machine.execJmp o s
  | .jmpr o => Sys2Proof.Machine.execJmpr o s
  | .ldSigned o => Sys2Proof.Machine.execLdSigned o s
  | .ldUnsigned o => Sys2Proof.Machine.execLdUnsigned o s
  | .st o => Sys2Proof.Machine.execSt o s
  | .atadd o => Sys2Proof.Machine.execAtadd o s
  | .atfadd o => Sys2Proof.Machine.execAtfadd o s
  | .atand o => Sys2Proof.Machine.execAtand o s
  | .ator o => Sys2Proof.Machine.execAtor o s
  | .atxor o => Sys2Proof.Machine.execAtxor o s
  | .atmin o => Sys2Proof.Machine.execAtmin o s
  | .atmax o => Sys2Proof.Machine.execAtmax o s
  | .atminn o => Sys2Proof.Machine.execAtminn o s
  | .atmaxn o => Sys2Proof.Machine.execAtmaxn o s
  | .atswap o => Sys2Proof.Machine.execAtswap o s
  | .atcas o => Sys2Proof.Machine.execAtcas o s
  | .fadd o => Sys2Proof.Machine.execFadd o s
  | .fsub o => Sys2Proof.Machine.execFsub o s
  | .fmul o => Sys2Proof.Machine.execFmul o s
  | .fdiv o => Sys2Proof.Machine.execFdiv o s
  | .fmin o => Sys2Proof.Machine.execFmin o s
  | .fmax o => Sys2Proof.Machine.execFmax o s
  | .feq o => Sys2Proof.Machine.execFeq o s
  | .flt o => Sys2Proof.Machine.execFlt o s
  | .fmac o => Sys2Proof.Machine.execFmac o s
  | .fnmac o => Sys2Proof.Machine.execFnmac o s
  | .fsqrt o => Sys2Proof.Machine.execFsqrt o s
  | .fle o => Sys2Proof.Machine.execFle o s
  | .fcvt o => Sys2Proof.Machine.execFcvt o s
  | .fcvtif o => Sys2Proof.Machine.execFcvtif o s
  | .fcvtfi o => Sys2Proof.Machine.execFcvtfi o s
  | .fclass o => Sys2Proof.Machine.execFclass o s
  | .crr o => Sys2Proof.Machine.execCrr o s
  | .crw o => Sys2Proof.Machine.execCrw o s
  | .crs o => Sys2Proof.Machine.execCrs o s
  | .crc o => Sys2Proof.Machine.execCrc o s
  | .setvl o => Sys2Proof.Machine.execSetvl o s
  | .setvlf o => Sys2Proof.Machine.execSetvlf o s
  | .evpop d => Sys2Proof.Machine.execEvpop d s
  | .evn d => Sys2Proof.Machine.execEvn d s
  | .drain mask => Sys2Proof.Machine.execDrain mask s
  | .fenceAcq scope => Sys2Proof.Machine.execFenceAcq scope s
  | .fenceRel scope => Sys2Proof.Machine.execFenceRel scope s
  | .fenceFull scope => Sys2Proof.Machine.execFenceFull scope s
  | .fencex o => Sys2Proof.Machine.execFencex o s
  | .ctxsv a => Sys2Proof.Machine.execCtxsv a s
  | .ctxld a => Sys2Proof.Machine.execCtxld a s
  | .chkpt d => Sys2Proof.Machine.execChkpt d s
  | .tlbinv o => Sys2Proof.Machine.execTlbinv o s
  | .rdst o => Sys2Proof.Machine.execRdst o s
  | .vadd o => Sys2Proof.Machine.execVadd o s
  | .vsub o => Sys2Proof.Machine.execVsub o s
  | .vand o => Sys2Proof.Machine.execVand o s
  | .vor o => Sys2Proof.Machine.execVor o s
  | .vxor o => Sys2Proof.Machine.execVxor o s
  | .vshl o => Sys2Proof.Machine.execVshl o s
  | .vshr o => Sys2Proof.Machine.execVshr o s
  | .vsar o => Sys2Proof.Machine.execVsar o s
  | .vmul o => Sys2Proof.Machine.execVmul o s
  | .vmulh o => Sys2Proof.Machine.execVmulh o s
  | .vmulhn o => Sys2Proof.Machine.execVmulhn o s
  | .vmin o => Sys2Proof.Machine.execVmin o s
  | .vmax o => Sys2Proof.Machine.execVmax o s
  | .vminn o => Sys2Proof.Machine.execVminn o s
  | .vmaxn o => Sys2Proof.Machine.execVmaxn o s
  | .vmac o => Sys2Proof.Machine.execVmac o s
  | .vseq o => Sys2Proof.Machine.execVseq o s
  | .vsne o => Sys2Proof.Machine.execVsne o s
  | .vslt o => Sys2Proof.Machine.execVslt o s
  | .vsltn o => Sys2Proof.Machine.execVsltn o s
  | .vsle o => Sys2Proof.Machine.execVsle o s
  | .vslen o => Sys2Proof.Machine.execVslen o s
  | .vsel o => Sys2Proof.Machine.execVsel o s
  | .vmv o => Sys2Proof.Machine.execVmv o s
  | .vfadd o => Sys2Proof.Machine.execVfadd o s
  | .vfsub o => Sys2Proof.Machine.execVfsub o s
  | .vfmul o => Sys2Proof.Machine.execVfmul o s
  | .vfdiv o => Sys2Proof.Machine.execVfdiv o s
  | .vfmin o => Sys2Proof.Machine.execVfmin o s
  | .vfmax o => Sys2Proof.Machine.execVfmax o s
  | .vfmac o => Sys2Proof.Machine.execVfmac o s
  | .vfnmac o => Sys2Proof.Machine.execVfnmac o s
  | .vfsqrt o => Sys2Proof.Machine.execVfsqrt o s
  | .vfabs o => Sys2Proof.Machine.execVfabs o s
  | .vfneg o => Sys2Proof.Machine.execVfneg o s
  | .vfclass o => Sys2Proof.Machine.execVfclass o s
  | .vfrint o => Sys2Proof.Machine.execVfrint o s
  | .vfeq o => Sys2Proof.Machine.execVfeq o s
  | .vfne o => Sys2Proof.Machine.execVfne o s
  | .vflt o => Sys2Proof.Machine.execVflt o s
  | .vfle o => Sys2Proof.Machine.execVfle o s
  | .vfunord o => Sys2Proof.Machine.execVfunord o s
  | .vcvt o => Sys2Proof.Machine.execVcvt o s
  | .vcvtif o => Sys2Proof.Machine.execVcvtif o s
  | .vcvtfi o => Sys2Proof.Machine.execVcvtfi o s
  | .vnef o => Sys2Proof.Machine.execVnef o s
  | .vqnt o => Sys2Proof.Machine.execVqnt o s
  | .vwid o => Sys2Proof.Machine.execVwid o s
  | .vrsum o => Sys2Proof.Machine.execVrsum o s
  | .vrmax o => Sys2Proof.Machine.execVrmax o s
  | .vrmin o => Sys2Proof.Machine.execVrmin o s
  | .vrmaxn o => Sys2Proof.Machine.execVrmaxn o s
  | .vrminn o => Sys2Proof.Machine.execVrminn o s
  | .vrfsum o => Sys2Proof.Machine.execVrfsum o s
  | .vrfmax o => Sys2Proof.Machine.execVrfmax o s
  | .vrfmin o => Sys2Proof.Machine.execVrfmin o s
  | .vcompress o => Sys2Proof.Machine.execVcompress o s
  | .vexpand o => Sys2Proof.Machine.execVexpand o s
  | .vslideup o => Sys2Proof.Machine.execVslideup o s
  | .vslidedn o => Sys2Proof.Machine.execVslidedn o s
  | .vperm o => Sys2Proof.Machine.execVperm o s
  | .vmpopc d => Sys2Proof.Machine.execVmpopc d s
  | .vmfirst d => Sys2Proof.Machine.execVmfirst d s
  | .vmld o => Sys2Proof.Machine.execVmld o s
  | .vmst d => Sys2Proof.Machine.execVmst d s
  | .vmand o => Sys2Proof.Machine.execVmand o s
  | .vmor o => Sys2Proof.Machine.execVmor o s
  | .vmxor o => Sys2Proof.Machine.execVmxor o s
  | .vmsgb o => Sys2Proof.Machine.execVmsgb o s
  | .vld o => Sys2Proof.Machine.execVld o s
  | .vlds o => Sys2Proof.Machine.execVlds o s
  | .vldb o => Sys2Proof.Machine.execVldb o s
  | .vldz o => Sys2Proof.Machine.execVldz o s
  | .vlr o => Sys2Proof.Machine.execVlr o s
  | .vst o => Sys2Proof.Machine.execVst o s
  | .vsts o => Sys2Proof.Machine.execVsts o s
  | .vstb o => Sys2Proof.Machine.execVstb o s
  | .vsr o => Sys2Proof.Machine.execVsr o s
  | .vldx o => Sys2Proof.Machine.execVldx o s
  | .vstx o => Sys2Proof.Machine.execVstx o s
  | .vatadd o => Sys2Proof.Machine.execVatadd o s
  | .vatfadd o => Sys2Proof.Machine.execVatfadd o s
  | .vatand o => Sys2Proof.Machine.execVatand o s
  | .vator o => Sys2Proof.Machine.execVator o s
  | .vatxor o => Sys2Proof.Machine.execVatxor o s
  | .vatmin o => Sys2Proof.Machine.execVatmin o s
  | .vatmax o => Sys2Proof.Machine.execVatmax o s
  | .vatswap o => Sys2Proof.Machine.execVatswap o s
  | .sbind o => Sys2Proof.Machine.execSbind o s
  | .sunbind n => Sys2Proof.Machine.execSunbind n s
  | .sdrain n => Sys2Proof.Machine.execSdrain n s
  | .sstat o => Sys2Proof.Machine.execSstat o s
  | .vxf o => Sys2Proof.Machine.execVxf o s
  | .cbload o => Sys2Proof.Machine.execCbload o s
  | .mgp o => Sys2Proof.Machine.execMgp o s
  | .mwedge o => Sys2Proof.Machine.execMwedge o s
  | .mjoin o => Sys2Proof.Machine.execMjoin o s
  | .mdot o => Sys2Proof.Machine.execMdot o s
  | .msand o => Sys2Proof.Machine.execMsand o s
  | .msandChk o => Sys2Proof.Machine.execMsandChk o s
  | .madd o => Sys2Proof.Machine.execMadd o s
  | .msub o => Sys2Proof.Machine.execMsub o s
  | .mrev o => Sys2Proof.Machine.execMrev o s
  | .mdual o => Sys2Proof.Machine.execMdual o s
  | .mnorm o => Sys2Proof.Machine.execMnorm o s
  | .munit o => Sys2Proof.Machine.execMunit o s
  | .mexp o => Sys2Proof.Machine.execMexp o s
  | .mlog o => Sys2Proof.Machine.execMlog o s
  | .mproj o => Sys2Proof.Machine.execMproj o s
  | .mscale o => Sys2Proof.Machine.execMscale o s
  | .mld o => Sys2Proof.Machine.execMld o s
  | .mst o => Sys2Proof.Machine.execMst o s
  | .msetg o => Sys2Proof.Machine.execMsetg o s
  | .mgettag o => Sys2Proof.Machine.execMgettag o s
  | .mcvt o => Sys2Proof.Machine.execMcvt o s
  | .ton n => Sys2Proof.Machine.execTon n s
  | .tzero d => Sys2Proof.Machine.execTzero d s
  | .topa o => Sys2Proof.Machine.execTopa o s
  | .tspa o => Sys2Proof.Machine.execTspa o s
  | .tmvr o => Sys2Proof.Machine.execTmvr o s
  | .tmvc o => Sys2Proof.Machine.execTmvc o s
  | .tmvw o => Sys2Proof.Machine.execTmvw o s
  | .vspc o => Sys2Proof.Machine.execVspc o s
  | .vspx o => Sys2Proof.Machine.execVspx o s
  | .vbox o => Sys2Proof.Machine.execVbox o s
  | .vtri o => Sys2Proof.Machine.execVtri o s
  | .pload o => Sys2Proof.Machine.execPload o s
  | .penq o => Sys2Proof.Machine.execPenq o s
  | .pcfg o => Sys2Proof.Machine.execPcfg o s
  | .pstat o => Sys2Proof.Machine.execPstat o s
  | .xcopy o => Sys2Proof.Machine.execXcopy o s
  | .xtrain o => Sys2Proof.Machine.execXtrain o s
  | .xcoll o => Sys2Proof.Machine.execXcoll o s
  | .xpix o => Sys2Proof.Machine.execXpix o s
  | .xwharf o => Sys2Proof.Machine.execXwharf o s
  | .launch o => Sys2Proof.Machine.execLaunch o s
  | .cancel o => Sys2Proof.Machine.execCancel o s
  | .emit o => Sys2Proof.Machine.execEmit o s
  | .bar o => Sys2Proof.Machine.execBar o s
  | .wait o => Sys2Proof.Machine.execWait o s
  | .vwait o => Sys2Proof.Machine.execVwait o s
  | .crit => Sys2Proof.Machine.execCrit s
  | .critx => Sys2Proof.Machine.execCritx s
  | .yield => Sys2Proof.Machine.execYield s
  | .endit => Sys2Proof.Machine.execEndit s
  | .scall => Sys2Proof.Machine.execScall s
  | .dbrk => Sys2Proof.Machine.execDbrk s
  | .eret => Sys2Proof.Machine.execEret s
  | .rollback => Sys2Proof.Machine.execRollback s
  | .vmnot => Sys2Proof.Machine.execVmnot s
  | .vmset => Sys2Proof.Machine.execVmset s
  | .toff => Sys2Proof.Machine.execToff s
  | .vectorIssue => Sys2Proof.Machine.execVectorIssue s
  | .vectorEntryRetire => Sys2Proof.Machine.execVectorEntryRetire s
  | .trapEntry => Sys2Proof.Machine.execTrapEntry s
  | .scalarPoisonRedecode => Sys2Proof.Machine.execScalarPoisonRedecode s
  | .iterationRehandout => Sys2Proof.Machine.execIterationRehandout s
  | .critOverrun => Sys2Proof.Machine.execCritOverrun s
  | .preemption => Sys2Proof.Machine.execPreemption s
  | .resume => Sys2Proof.Machine.execResume s
  | .park => Sys2Proof.Machine.execPark s
  | .waitMonitorWake => Sys2Proof.Machine.execWaitMonitorWake s
  | .waitWake => Sys2Proof.Machine.execWaitWake s
  | .wtoExpiry => Sys2Proof.Machine.execWtoExpiry s
  | .barWake => Sys2Proof.Machine.execBarWake s
  | .tonGrant => Sys2Proof.Machine.execTonGrant s
  | .storePerform => Sys2Proof.Machine.execStorePerform s
  | .loadDataReturn => Sys2Proof.Machine.execLoadDataReturn s
  | .atomicApply => Sys2Proof.Machine.execAtomicApply s
  | .streamStripFetch => Sys2Proof.Machine.execStreamStripFetch s
  | .streamStripDrain => Sys2Proof.Machine.execStreamStripDrain s
  | .pontoonDispatch => Sys2Proof.Machine.execPontoonDispatch s
  | .pontoonItemComplete => Sys2Proof.Machine.execPontoonItemComplete s
  | .xcopyComplete => Sys2Proof.Machine.execXcopyComplete s
  | .xwharfWriteComplete => Sys2Proof.Machine.execXwharfWriteComplete s
  | .xwharfSealComplete => Sys2Proof.Machine.execXwharfSealComplete s
  | .xpixApply => Sys2Proof.Machine.execXpixApply s
  | .xpixComplete => Sys2Proof.Machine.execXpixComplete s
  | .trainDeliver => Sys2Proof.Machine.execTrainDeliver s
  | .xtrainComplete => Sys2Proof.Machine.execXtrainComplete s
  | .xcollComplete => Sys2Proof.Machine.execXcollComplete s
  | .dieWriteApply => Sys2Proof.Machine.execDieWriteApply s
  | .tideWindowStart => Sys2Proof.Machine.execTideWindowStart s
  | .tideWindowEnd => Sys2Proof.Machine.execTideWindowEnd s
  | .launchStart => Sys2Proof.Machine.execLaunchStart s
  | .walkerHandout => Sys2Proof.Machine.execWalkerHandout s
  | .iterationEnd => Sys2Proof.Machine.execIterationEnd s
  | .recordComplete => Sys2Proof.Machine.execRecordComplete s
  | .cancelFinalize => Sys2Proof.Machine.execCancelFinalize s
  | .ferryHandout => Sys2Proof.Machine.execFerryHandout s
  | .blobStreamComplete => Sys2Proof.Machine.execBlobStreamComplete s
  | .landingPreemptTimeout => Sys2Proof.Machine.execLandingPreemptTimeout s
  | .recheckRun => Sys2Proof.Machine.execRecheckRun s
  | .recheckTimeout => Sys2Proof.Machine.execRecheckTimeout s
  | .contextStart => Sys2Proof.Machine.execContextStart s
  | .contextStop => Sys2Proof.Machine.execContextStop s
  | .contextFree => Sys2Proof.Machine.execContextFree s
  | .rootPlace => Sys2Proof.Machine.execRootPlace s
  | .doneInterrupt => Sys2Proof.Machine.execDoneInterrupt s
  | .hostWrite => Sys2Proof.Machine.execHostWrite s
  | .hostRead => Sys2Proof.Machine.execHostRead s
  | .hostRequestCompletion => Sys2Proof.Machine.execHostRequestCompletion s
  | .functionLevelReset => Sys2Proof.Machine.execFunctionLevelReset s
  | .packageBoot => Sys2Proof.Machine.execPackageBoot s
  | .thermalTrip => Sys2Proof.Machine.execThermalTrip s
  | .powerThrottle => Sys2Proof.Machine.execPowerThrottle s
  | .linkFlitRetry => Sys2Proof.Machine.execLinkFlitRetry s
  | .portDown => Sys2Proof.Machine.execPortDown s
  | .attestationRequest => Sys2Proof.Machine.execAttestationRequest s
  | .pkstatWrite => Sys2Proof.Machine.execPkstatWrite s
  | .wharfAllocWrite => Sys2Proof.Machine.execWharfAllocWrite s
  | .sselWrite => Sys2Proof.Machine.execSselWrite s
  | .sdataRead => Sys2Proof.Machine.execSdataRead s
  | .mgmtRegisterWrite => Sys2Proof.Machine.execMgmtRegisterWrite s
  | .illegalInstruction => Sys2Proof.Machine.execIllegalInstruction s
  | .instructionFetchFault => Sys2Proof.Machine.execInstructionFetchFault s
  | .uncorrectableError => Sys2Proof.Machine.execUncorrectableError s
  | .engineCommandStart => Sys2Proof.Machine.execEngineCommandStart s
  | .contextStopComplete => Sys2Proof.Machine.execContextStopComplete s
  | .flrComplete => Sys2Proof.Machine.execFlrComplete s
  | .attestationComplete => Sys2Proof.Machine.execAttestationComplete s
  | .powerThrottleRelease => Sys2Proof.Machine.execPowerThrottleRelease s
  | .portRetraining => Sys2Proof.Machine.execPortRetraining s
  | .portUp => Sys2Proof.Machine.execPortUp s

end Sys2Proof.Machine
end

