-- ==== Sys2Proof/Machine/Schedule.lean ====
section
/-! DEFINITION. What happens while the strand in focus waits, and no input says otherwise: its own pending work, then the
work of the device, then the focus moves to the next strand. The spec leaves this order open (log 1); `inputs` can give
any other. -/

namespace Sys2Proof.Machine

/-- A step of the device that can take place: its operands, and the strand that it acts on. -/
abbrev Pick := Option (Instr × Nat × StepArgs)

/-- A pick on the strand in focus, where a test holds. -/
def State.mine (s : State) (b : Bool) (i : Instr) (args : StepArgs := {}) : Pick :=
  if b then some (i, s.cur, args) else none

/-- The head of the queue would do something if it executed now. -/
def State.headMoves (s : State) : Bool :=
  match s.st.startedHead with
  | none => false
  | some e =>
    match formOf e with
    | none => false
    | some f =>
      if (f.readsVl && e.vl == 0) || (f.grain != 0 && f.readsVl && decide (e.vl.toNat ≤ s.st.vstart.toNat)) ||
        s.vPoisoned f e then true
      else if e.recheck && !e.rechecked then false
      else
        match s.attempt f e e.vl.toNat with
        | .wait _ => false
        | _ => true

/-- The oldest load in flight would do something if its data returned now. -/
def State.loadMoves (s : State) : Bool :=
  s.st.loads.head?.any fun l => l.after.isNone && (s.poisonedHead.isNone || !s.st.olderThan l.seq)

/-- The oldest entry of the store queue would do something if it were performed now. -/
def State.storeMoves (s : State) : Bool :=
  s.st.headReady && (s.headClean || s.st.stores.head?.any fun e => !s.st.olderThan e.seq)

/-- A bound register whose unit can fetch a strip that the head waits for. -/
def State.fetchable (s : State) : Option Reg :=
  (s.st.streams.find? fun p => !p.2.output && s.fetchInto p.2 != p.2 && p.2.buf.length < 2).map fun p => BitVec.ofNat 5 p.1

/-- A bound register whose unit has a strip to write. -/
def State.drainable (s : State) : Option Reg :=
  (s.st.streams.find? fun p => p.2.output && !p.2.buf.isEmpty).map fun p => BitVec.ofNat 5 p.1

/-- The barrier that the strand sleeps on has opened, or its word can no longer be read. -/
def State.barOpen (s : State) : Bool :=
  match s.st.sleep with
  | .barrier a p =>
    match s.barCheck a with
    | .bad _ _ => true
    | .ok q _ => decide (BitVec.ofNat 32 (ofBytes (s.placeBytes q 8) / 2 ^ 32) ≠ p)
  | _ => false

/-- Pending work of the strand in focus. -/
def State.strandWork (s : State) : Pick :=
  let t := s.st
  let head := t.stores.head?
  (s.mine s.ended .iterationEnd).or <|
  (s.mine (t.redecode == some t.pc && t.waiting && !t.busy) .scalarPoisonRedecode).or <|
  (s.mine s.loadMoves .loadDataReturn).or <|
  (s.mine (s.storeMoves && head.any fun e => (atomicOf e.instr).isSome) .atomicApply).or <|
  (s.mine (s.storeMoves && head.any fun e => (atomicOf e.instr).isNone) .storePerform).or <|
  (s.mine (t.startedHead.any fun e => e.started && e.recheck && !e.rechecked) .recheckRun).or <|
  (s.mine (s.nextIssue (coreOf s.cur)).isSome .vectorIssue { k := coreOf s.cur }).or <|
  (s.mine s.headMoves .vectorEntryRetire).or <|
  (match s.drainable with
    | some r => s.mine true .streamStripDrain { reg := r }
    | none => none).or <|
  (match if t.busy then s.fetchable else none with
    | some r => s.mine true .streamStripFetch { reg := r }
    | none => none).or <|
  (s.mine (match t.tonPend with
    | some r => (r.decode || r.resume) && s.canGrant r.tiles r.stamp
    | none => false) .tonGrant).or <|
  (s.mine t.iter.streaming .blobStreamComplete).or (s.mine s.barOpen .barWake)

/-- The first number of a list at which a step can take place. -/
def State.first (s : State) (l : List Nat) (i : Instr) (f : Nat → Option State) : Pick :=
  (l.find? fun k => (f k).isSome).map fun k => (i, s.cur, { k })

/-- What an engine can do for a command now. -/
def State.cmdWork (s : State) (c : Cmd) : Pick :=
  let k := c.id
  let at_ (b : Bool) (i : Instr) (args : StepArgs := { k }) : Pick := if b then some (i, c.strand, args) else none
  (at_ (s.startCmd k).isSome .engineCommandStart).or <|
  match c.engine with
  | .copy => at_ (s.completeCopy k).isSome .xcopyComplete
  | .wharf =>
    (at_ (s.completeWharfWrite k).isSome .xwharfWriteComplete).or (at_ (s.completeSeal k).isSome .xwharfSealComplete)
  | .coll => at_ (s.completeColl k 0 [] []).isSome .xcollComplete
  | .train =>
    (at_ (s.completeTrain k).isSome .xtrainComplete).or <|
    (c.packages.find? fun p => (s.deliver k p 0 0).isSome).map fun p =>
      (.trainDeliver, c.strand, { j := p, train := ⟨0, 0, 0, [], some k⟩ })
  | .pix =>
    (at_ (s.completePix k).isSome .xpixComplete).or <|
    ([0, 1, 2, 3].find? fun j => (s.applyPix k j).isSome).map fun j => (.xpixApply, c.strand, { k, j })

/-- What a cluster's Pontoon can do now. -/
def State.itemWork (s : State) (p : Nat × ClusterSt) : Pick :=
  if (s.dispatchable p.1).isSome then some (.pontoonDispatch, s.cur, { k := p.1 })
  else (p.2.items.find? fun i => (s.completeItem p.1 i).isSome).map fun i => (.pontoonItemComplete, s.cur, { k := p.1, j := i.id })

/-- The step that completes a command or item with event source `source`, where only its event is still on its way. -/
def arrivalStep (source : BitVec 4) : Instr :=
  match source.toNat with
  | 0 => .xcopyComplete
  | 1 => .xtrainComplete
  | 2 => .xcollComplete
  | 3 => .xpixComplete
  | 4 => .xwharfWriteComplete
  | _ => .pontoonItemComplete

/-- An event that can arrive now. -/
def State.postWork (s : State) : Pick :=
  (s.posts.find? fun p => (s.arriveEvent p.id).isSome).map fun p =>
    (arrivalStep p.event.source, s.cur, { k := p.id, j := p.id })

/-- The hand-out that comes next on a die. -/
def State.turnWork (s : State) (die : Nat) : Pick :=
  (s.nextTurn die).map fun r =>
    match r.1 with
    | .launch l => (.walkerHandout, s.cur, { k := l.id })
    | .graph g => (.ferryHandout, s.cur, { k := g.id })

/-- A saved iteration that can resume now, or a parked root that can be placed. -/
def State.savedWork (s : State) : Pick :=
  (List.range s.saved.length).findSome? fun k =>
    match s.saved[k]? with
    | none => none
    | some v =>
      if v.parked then (if (s.wake k).isSome then some (.waitMonitorWake, s.cur, { k }) else none)
      else
        match (coreStrands (coreOf v.home)).find? fun n => (s.strand n).vacant && (s.resumeAt k n).isSome with
        | some n => some (.resume, n, { k })
        | none => none

/-- A pre-emption that is due. -/
def State.preemptWork (s : State) : Pick :=
  (((s.cur :: s.others.map Prod.fst).map coreOf).dedup).findSome? fun core =>
    match if s.coreFull core then s.victim core else none with
    | none => none
    | some n =>
      if ((s.focus n).preempt 0 false).isSome then some (.preemption, n, {})
      else if ((s.focus n).preempt 0 true).isSome then some (.landingPreemptTimeout, n, {})
      else none

/-- Work of the IO die and of Nolay. -/
def State.ioWork (s : State) : Pick :=
  let pick (i : Instr) (k : Nat) : Instr × Nat × StepArgs := (i, s.cur, { k })
  (s.mgmt.flr.head?.map fun f => pick .flrComplete f).or <|
  ((s.ctxs.find? fun p => p.2.state == 3).map fun p => pick .contextStopComplete p.1).or <|
  ((s.ctxs.find? fun p => !p.2.doneHits.isEmpty).map fun p => pick .doneInterrupt p.1).or <|
  ((s.dies.find? fun p => p.2.tideIn).map fun p => pick .tideWindowEnd p.1).or <|
  if s.mgmt.attest.isSome then some (pick .attestationComplete 0) else none

/-- Work of the device. -/
def State.deviceWork (s : State) : Pick :=
  (s.first (List.range s.flights.length) .dieWriteApply s.applyFlight).or <|
  s.postWork.or <|
  (s.cmds.findSome? s.cmdWork).or <|
  (s.clusters.findSome? s.itemWork).or <|
  (s.finishing.head?.map fun f => (.recordComplete, s.cur, { k := f.ctx.toNat, word := f.recAddr })).or <|
  ((s.cancelled.find? fun c => (s.finalizeCancel c.ctx c.handle).isSome).map fun c =>
    (.cancelFinalize, s.cur, { k := c.ctx.toNat, word := c.handle })).or <|
  (s.first (s.launches.map Launch.id) .launchStart s.startLaunch).or <|
  (s.first (List.range s.rehand.length) .iterationRehandout s.rehandOut).or <|
  ([0, 1, 2, 3].findSome? s.turnWork).or <|
  (s.first (s.ctxs.map Prod.fst) .rootPlace fun k => s.placeRoot (BitVec.ofNat 12 k)).or <|
  s.savedWork.or (s.preemptWork.or s.ioWork)

/-- The strand that comes after the one in focus: the next higher number that runs an iteration, else the lowest. -/
def State.nextStrand (s : State) : Nat :=
  let ns := (s.cur :: s.others.map Prod.fst).filter fun n => !(s.strand n).vacant
  let low (l : List Nat) : Option Nat := l.foldl (fun m n => some (match m with | none => n | some k => Nat.min k n)) none
  ((low (ns.filter fun n => decide (s.cur < n))).or (low ns)).getD s.cur

/-- A strand comes round: it decodes again, and reads again the words that it waits for; a wait with a time-out has then
waited long enough. -/
def Strand.comeRound (t : Strand) : Strand :=
  let timed := t.wto != 0
  { t with
    waiting := false
    watch := false
    watchOut := t.watchOut || (t.watch && timed)
    timedOut := t.timedOut || (timed && match t.sleep with
      | .word _ => true
      | _ => false)
    sleep := match t.sleep with
      | .word _ => .awake
      | z => z }

/-- What happens while the strand in focus does not decode. -/
def idle (s : State) : Choice :=
  match s.strandWork.or s.deviceWork with
  | some (i, n, args) => s.deviceOn i n args
  | none => .still ((s.focus s.nextStrand).upd Strand.comeRound)

end Sys2Proof.Machine
end

