-- ==== Sys2Proof/Machine/Step.lean ====
section
/-! DEFINITION. One step of the package, and where an instruction word is placed so that the next step runs it. -/

namespace Sys2Proof.Machine

/-- One step: a step of the device, or one instruction of the strand in focus. -/
def step (s : State) : Host.Outcome State Fault Refusal :=
  match s.choose idle with
  | .stop f => .fault f
  | .still t => .next t.tick
  | .run i t back =>
    match exec i t with
    | .next u => .next (u.settle back)
    | .fault f => .fault f
    | .refused r => .refused r
  | .fetched i t =>
    match exec i t with
    | .next u => .next (State.settleFetched i t u)
    | .fault f => .fault f
    | .refused r => .refused r

/-! ## Placing a word -/

/-- The strand in focus decodes the word at its pc in the next step, and that word stands in device memory. -/
def State.fetchPlace (s : State) : Option Nat :=
  if s.inputs.isEmpty && s.mgmt.ready && !s.mgmt.trip && !s.mgmt.recovery && s.st.run == .running && s.st.decodes &&
    !s.st.asyncReady && !s.st.critFull && !s.walkBlocked s.st.pc then
    match s.fetchCheck with
    | .ok (.mem a) _ => some a
    | _ => none
  else none

/-- A context with an identity map of the first 128 MiB of die 0, readable, writable and executable at user level,
with a root iteration at 0x1000 on the strand in focus: what a boot, a started context and a placed root leave (log
41). -/
def State.loaded (s : State) : State :=
  let entry0 : Nat := 0x20000 + 1
  let entry1 : Nat := 3 + 15 * 2 ^ 55
  let c := ((s.context 1).setField 0x00 1 2).setField 0x08 8 0x40000
  let s := s.setContext 1 c
  { s with
    inputs := []
    st := { Strand.reset with run := .running, ctx := 1, pc := 0x1000, iter := { work := .root, id := s.stamp } }
    stamp := s.stamp + 1
    mem := setCells 0 0x20000 (bytesOf 8 entry1) (setCells 0 0x40000 (bytesOf 8 entry0) s.mem)
    dies := s.dies.map fun p => (p.1, { p.2 with tlb := p.2.tlb.filter fun e => e.ctx != 1 })
    mgmt := { s.mgmt with ready := true, trip := false, recovery := false } }

/-- The state with an instruction word where the next step fetches. Where the strand in focus runs nothing, a program is
loaded first (log 41). -/
def State.withFetchWord (s : State) (nbits w : Nat) : State :=
  let bs := bytesOf 4 (w % 2 ^ nbits)
  match s.fetchPlace with
  | some a => { s with mem := setCells 0 a bs s.mem }
  | none =>
    let t := s.loaded
    { t with mem := setCells 0 0x1000 bs t.mem }

end Sys2Proof.Machine
end

