-- ==== Sys2Proof/Safety.lean ====
section
/-! DEFINITION. The terms that claims are stated in: when registers can be used, when a strand is quiet, what an
instruction keeps, and what a safe run is. -/

namespace Sys2Proof.Machine

/-! ## Conditions on registers (R14 to R16, R344) -/

/-- Every source and destination is full with nothing in flight to it, and no source is poisoned: the instruction
neither waits nor traps for its x registers. -/
def State.usable (s : State) (srcs dsts : List Reg) : Prop :=
  s.st.allReady (srcs ++ dsts) = true ∧ s.st.anyPoison srcs = false

/-- The queues of the strand are empty, no write is on its way between dies, nothing of the strand is poisoned and
every v register is full; the strand runs, and no other strand of its core comes before it in the rotation (R161); each
queued effect takes place before the next instruction (the MODEL's `pace`, log 1). -/
structure State.calm (s : State) : Prop where
  lockstep : s.pace = .lockstep
  queue : s.st.queue = []
  stores : s.st.stores = []
  loads : s.st.loads = []
  flights : s.flights = []
  vpoison : s.st.vpoison = []
  vfull : s.st.vfull = -1
  held : s.st.held = false
  rchk : s.st.rchk = false
  vlFull : s.st.vlFull = true
  vstart : s.st.vstart = 0
  starts : s.st.starts = true
  turn : s.turn = true

/-- A calm strand with no stream bound. -/
structure State.quiet (s : State) : Prop extends s.calm where
  streams : s.st.streams = []

/-- The vector length is one that elements of `w` bits allow, and is not 0 (R107, R142, R143). -/
def State.vlFits (s : State) (w : Nat) : Prop := 0 < s.st.vl.toNat ∧ s.st.vl.toNat ≤ vlmaxOf w

/-! ## What is kept -/

/-- Device memory and host memory read as before, byte by byte. -/
def State.keepsMemory (s t : State) : Prop :=
  (∀ a, memGet t.mem a = memGet s.mem a) ∧ ∀ a, hostGet t.hostMem a = hostGet s.hostMem a

/-- The x registers outside `ds` keep value and full bit. -/
def State.keepsX (s t : State) (ds : List Reg) : Prop :=
  ∀ r, r ∉ ds → t.st.xget r = s.st.xget r ∧ t.st.isFull r = s.st.isFull r

/-- The v registers outside `ds` keep contents, full bit and tag. -/
def State.keepsV (s t : State) (ds : List Reg) : Prop :=
  ∀ r, r ∉ ds → t.st.vget r = s.st.vget r ∧ hasReg t.st.vfull r = hasReg s.st.vfull r ∧ t.st.tag r = s.st.tag r

/-- The flags and the indices of their first occurrence (R71, R72). -/
def State.keepsFlags (s t : State) : Prop := t.st.fflags = s.st.fflags ∧ t.st.ffirst = s.st.ffirst

/-- The registers of a trap, and the level (R126). -/
def State.keepsTrap (s t : State) : Prop :=
  t.st.level = s.st.level ∧ t.st.tvec = s.st.tvec ∧ t.st.tcause = s.st.tcause ∧ t.st.tval = s.st.tval ∧
    t.st.tepc = s.st.tepc ∧ t.st.ppl = s.st.ppl ∧ t.st.held = s.st.held ∧ t.st.skip = s.st.skip ∧
    t.st.tscratch = s.st.tscratch

/-- The length, mask, segment and mode registers of the strand (R22). -/
def State.keepsModes (s t : State) : Prop :=
  t.st.vl = s.st.vl ∧ t.st.vs = s.st.vs ∧ t.st.vgm = s.st.vgm ∧ t.st.vsg = s.st.vsg ∧ t.st.vfrem = s.st.vfrem ∧
    t.st.frm = s.st.frm ∧ t.st.fz = s.st.fz ∧ t.st.trp = s.st.trp ∧ t.st.tcp = s.st.tcp ∧ t.st.wto = s.st.wto ∧
    t.st.cbsel = s.st.cbsel ∧ t.st.xresume = s.st.xresume ∧ t.st.prio = s.st.prio ∧ t.st.rchk = s.st.rchk

/-- The tile accumulators and their ownership (R201, R27). -/
def State.keepsTiles (s t : State) : Prop := t.st.tiles = s.st.tiles ∧ t.st.tonOwned = s.st.tonOwned

/-- Everything of the strand but the x registers `dx`, the v registers `dv` and the pc is kept. -/
structure State.keepsStrand (s t : State) (dx dv : List Reg) : Prop where
  x : s.keepsX t dx
  v : s.keepsV t dv
  vm : t.st.vm = s.st.vm
  flags : s.keepsFlags t
  trap : s.keepsTrap t
  modes : s.keepsModes t
  tiles : s.keepsTiles t

/-- Everything but the x registers `dx`, the v registers `dv` and the pc is kept, and all of memory. -/
structure State.keepsRest (s t : State) (dx dv : List Reg) : Prop extends s.keepsStrand t dx dv where
  memory : s.keepsMemory t

/-- The bytes `bs` stand at place `p`, and every other byte of every storage reads as before. -/
def State.storesBytes (s t : State) (p : Place) (bs : List Byte) : Prop :=
  ∀ q, t.placeByte q = match p.offsetFrom q with
    | some i => bs.getD i (s.placeByte q)
    | none => s.placeByte q

/-- No undo record is written for a write at this place (R349): undo logging is off for the context, or the place is no
device memory. -/
def State.noUndo (s : State) (p : Place) : Prop :=
  match p with
  | .mem _ => (s.context s.st.ctx).ulOn = false
  | _ => True

/-- The place can be written: the blob window cannot, and the cluster-scratch window only where a range is reserved. -/
def State.writable (s : State) (p : Place) : Prop :=
  match p with
  | .blob _ => False
  | .cscratch _ => s.cRange.isSome = true
  | _ => True

/-! ## Results of vector instructions (R139, R145) -/

/-- Every element of `d`, `w` bits wide, is the low bits of `f k` where k is below `vl` and enabled, and is kept
elsewhere. -/
def State.lanesAre (s t : State) (d : Reg) (w : Nat) (m : Bool) (f : Nat → Nat) : Prop :=
  ∀ k, k < vlmaxOf w → t.elem d w k = if k < s.st.vl.toNat ∧ s.st.on m k = true then f k % 2 ^ w else s.elem d w k

/-- Every bit of `vm` is `f k` where k is below `vl` and enabled, and is kept elsewhere. -/
def State.maskIs (s t : State) (m : Bool) (f : Nat → Bool) : Prop :=
  ∀ k, k < 2048 → t.st.vm.getLsbD k = if k < s.st.vl.toNat ∧ s.st.on m k = true then f k else s.st.vm.getLsbD k

/-- `fflags` gains exactly the flags that the enabled elements below `vl` raise, and the `ffirst` of each flag that
arose becomes the lowest index at which it arose (R71 to R74). -/
def State.flagsGain (s t : State) (m : Bool) (f : Nat → FFlags) : Prop :=
  ∀ i : Fin 7,
    (t.st.fflags.getLsbD i = true ↔
      s.st.fflags.getLsbD i = true ∨ ∃ k, k < s.st.vl.toNat ∧ s.st.on m k = true ∧ (f k).getLsbD i = true) ∧
    (∀ k, k < s.st.vl.toNat → s.st.on m k = true → (f k).getLsbD i = true →
      (∀ j, j < k → s.st.on m j = true → (f j).getLsbD i = false) → t.st.ffirst[i] = BitVec.ofNat 16 k) ∧
    ((∀ k, k < s.st.vl.toNat → s.st.on m k = true → (f k).getLsbD i = false) → t.st.ffirst[i] = s.st.ffirst[i])

/-- The fold, in order, of the enabled elements `e` to `e + n − 1` of a register, each entering as `inp` gives it;
`empty` where none is enabled. -/
def State.foldOf (s : State) (inp : Nat → Nat) (m : Bool) (a : Reg) (w : Nat) (op : Nat → Nat → Nat) (empty e n : Nat) :
    Nat :=
  match (((List.range n).map (e + ·)).filter (s.st.on m)).map (fun k => inp (s.elem a w k)) with
  | [] => empty
  | x :: xs => xs.foldl op x

/-- An instruction of the vector queue has completed in the step that decoded it: the pc is past one word, the queue
is empty again, and everything of the strand but the x registers `dx`, the v registers `dv`, `vm`, the tiles and the
flags is kept. The v registers of `dv` are full. -/
structure State.vectorKept (s t : State) (dx dv : List Reg) : Prop where
  pc : t.st.pc = s.st.pc + 4
  queue : t.st.queue = []
  stores : t.st.stores = []
  full : ∀ r ∈ dv, hasReg t.st.vfull r = true
  x : s.keepsX t dx
  v : s.keepsV t dv
  trap : s.keepsTrap t
  modes : s.keepsModes t

/-- It has completed and stored nothing: the tiles and all of memory are kept too. -/
structure State.vectorDone (s t : State) (dx dv : List Reg) : Prop extends s.vectorKept t dx dv where
  tiles : s.keepsTiles t
  memory : s.keepsMemory t

/-! ## Elements in memory (R88, R164, R165) -/

/-- Every enabled element below `vl` has a canonical, aligned address whose check gives the place `p k`. -/
def State.reaches (s : State) (acc : Acc) (m : Bool) (n : Nat) (addr : Nat → Word) (p : Nat → Place) (dA : Nat → Bool) :
    Prop :=
  ∀ k, k < s.st.vl.toNat → s.st.on m k = true →
    canonical (addr k) = true ∧ (addr k).toNat % n = 0 ∧ s.check acc 1 n (addr k) = .ok (p k) (dA k)

/-- No enabled element below `vl` lies in a poisoned line. -/
def State.unpoisoned (s : State) (m : Bool) (n : Nat) (addr : Nat → Word) (p : Nat → Place) : Prop :=
  ∀ k, k < s.st.vl.toNat → s.st.on m k = true → s.poisonAt (addr k) (p k) n = none

/-- The `n` bytes of slot k stand at `p k` for every slot that `want`s it, those of the highest where places meet, and
every other byte of every storage reads as before. -/
def State.storesSlots (s t : State) (want : Nat → Prop) (n : Nat) (p : Nat → Place) (bs : Nat → List Byte) : Prop :=
  ∀ q,
    (∀ k i, want k → (p k).offsetFrom q = some i → i < n →
      (∀ j, k < j → want j → ∀ i', (p j).offsetFrom q = some i' → n ≤ i') → t.placeByte q = (bs k).getD i 0) ∧
    ((∀ k i, want k → (p k).offsetFrom q = some i → n ≤ i) → t.placeByte q = s.placeByte q)

/-- The same of the enabled elements below `vl`. -/
def State.storesElems (s t : State) (m : Bool) (n : Nat) (p : Nat → Place) (bs : Nat → List Byte) : Prop :=
  s.storesSlots t (fun k => k < s.st.vl.toNat ∧ s.st.on m k = true) n p bs

/-! ## Multivectors (R186) -/

/-- Multivector `e` of a register of component type `ct` under a grade mask: its blades with their values. -/
def State.mvVal (s : State) (r : Reg) (ct : BitVec 2) (g : GMask) (e : Nat) : MVal :=
  (bladesOf g).mapIdx fun k n =>
    (n, readF (fmtOf ct) s.st.fz (s.elem r (fmtOf ct).width ((bladesOf g).length * e + k)))

/-- Component k of every enabled multivector of `d` below `vl`, `c` components of `w` bits each, is the low bits of
`f e k`; all other slots are kept. -/
def State.mvAre (s t : State) (d : Reg) (w c : Nat) (m : Bool) (f : Nat → Nat → Nat) : Prop :=
  ∀ j, j < vlmaxOf w → t.elem d w j =
    if j / c < s.st.vl.toNat ∧ s.st.on m (j / c) = true then f (j / c) (j % c) % 2 ^ w else s.elem d w j

/-- The bound of R197: a component whose value is exactly zero is +0, and one of value `v` / 2^`expBits` whose nearest
encoding is finite lies within 2 ulp of it, an ulp being the distance of neighbouring encodings at that value. Under
`fz` = 1 a tiny one is the zero of its sign (R69). -/
def Fmt.within2Ulp (f : Fmt) (fz : Bool) (x : Inexact) (y : Nat) : Prop :=
  match x with
  | none => y = 0
  | some v =>
    if fz = true ∧ (nearest f fz v).1 % f.signBit = 0 then y = (nearest f fz v).1
    else (nearest f fz v).1 % f.signBit < f.infinity →
      ∃ (neg : Bool) (k : Nat) (e : Int), unpack f y = .fin neg k e ∧
        |(if neg then -(k : ℚ) else k) * 2 ^ e - v * 2 ^ (-(expBits : Int))| ≤
          2 * 2 ^ max ((bitLen v.natAbs : Int) - 1 - expBits - f.frac) f.minExp

/-- The flags of such a component: NX, OF where the nearest encoding overflows and UF where the value is tiny (R68, R69);
none of an exact zero (R197). -/
def Fmt.flagsOf (f : Fmt) (fz : Bool) (x : Inexact) : FFlags :=
  match x with
  | none => 0
  | some v => (nearest f fz v).2

/-! ## The save area (R128, R129) -/

/-- The pages of an area begin on a line each, and its bytes lie apart in storage. -/
def pagesApart (ps : List AreaPage) : Prop :=
  (∀ g ∈ ps, ∀ p, g.place = .mem p → p % 64 = 0) ∧
    ∀ i j g, i < 90112 → areaPlace ps i = some g → areaPlace ps j = some g → i = j

/-- The fields of an area, read by `rd`, hold strand `t` as R128 and R129 lay it out, for a save of kind `k`. -/
def areaShows (rd : AreaRead) (t : Strand) (k : SaveKind) : Prop :=
  rd 0x00 8 = k.resume.toNat ∧ (∀ e, k.image.head? = some e → rd 0x08 8 = e.pc.toNat) ∧
  rd 0x10 1 = k.image.length % 256 ∧ rd 0x11 1 = t.stores.length % 256 ∧ rd 0x12 1 = t.claims.length % 256 ∧
  rd 0x13 1 % 2 = (if k.supervisor then 1 else 0) ∧ (rd 0x13 1).testBit 1 = t.crit ∧
  (rd 0x13 1).testBit 2 = t.vlFull ∧ (rd 0x13 1).testBit 3 = t.mark.isSome ∧ rd 0x14 2 = t.critCount % 65536 ∧
  rd 0x16 1 = t.tonOwned.toNat ∧ rd 0x17 1 = k.cause % 256 ∧ rd 0x18 4 = t.xfull.toNat ∧ rd 0x1C 4 = t.vfull.toNat ∧
  rd 0x20 8 = t.tscratch.toNat ∧ (∀ m, t.mark = some m → rd 0x28 8 = m.1.toNat ∧ rd 0x30 4 = m.2.toNat) ∧
  (∀ (i : Nat) (r : Reg), i < 32 → t.claims[i]? = some r → rd (0x40 + i) 1 = r.toNat) ∧
  (∀ r : Reg, rd (0x100 + 8 * r.toNat) 8 =
    if r = 0 then 0 else if k.slot = some r then t.tscratch.toNat else (t.xget r).toNat) ∧
  (∀ i, i < 0xA0 → i ≠ 6 → rd (0x200 + 8 * i) 8 = (t.crLow i).toNat) ∧
  (∀ j e, j < 64 → k.image[j]? = some e →
    rd (0x1000 + 64 * j) 4 = ((encode e.instr).getD 0).toNat ∧ rd (0x1004 + 64 * j) 4 = e.raised.toNat ∧
    rd (0x1008 + 64 * j) 8 = e.pc.toNat ∧ rd (0x1010 + 64 * j) 8 = e.a.toNat ∧ rd (0x1018 + 64 * j) 8 = e.b.toNat ∧
    rd (0x1020 + 64 * j) 8 = e.d.toNat ∧ rd (0x1028 + 64 * j) 8 = e.vs.toNat ∧ rd (0x1030 + 64 * j) 2 = e.vl.toNat ∧
    rd (0x1032 + 64 * j) 1 = e.vgm.toNat ∧ rd (0x1033 + 64 * j) 1 = e.frm.toNat + (if e.fz then 8 else 0)) ∧
  (∀ r : Reg, t.vdirty.getLsbD r.toNat = true → t.streamOf r = none →
    rd (0x6000 + 0x800 * r.toNat) 2048 = (t.vget r).toNat) ∧
  ∀ h : Fin 4, t.vdirty.getLsbD (32 + h.val) = true → rd (0x2000 + 0x1000 * h.val) 4096 = t.tiles[h].toNat

/-! ## A safe run -/

/-- The machine goes on: the step gives a next state. -/
def State.goesOn (s : State) : Prop := ∃ t, step s = .next t

/-- The package has tripped, or its firmware failed verification, and no boot is pending (R367, R371). -/
def State.dead (s : State) : Prop :=
  (s.mgmt.trip = true ∨ s.mgmt.recovery = true) ∧ s.inputs = []

end Sys2Proof.Machine
end

