-- ==== Sys2Proof/Certificates/Slice0/Obligations.lean ====
section
/-! DEFINITION. The statements for the provers. Each docstring names the rules of spec/ that the statement formalises,
and the log entries that it rests on. -/

open Sys2Proof Sys2Proof.Machine

/-! ## Encoding and one step -/

/-- R28 to R34: every well-formed instruction word decodes to the instruction it encodes, with every operand at every
value that the encoding admits.

R28 to R34: a word that decodes is the encoding of the instruction it decodes to, which is well-formed: each word has
one meaning, and no word with a nonzero reserved field decodes. -/
def Obligations.DecodeInvertsEncode : Prop :=
  (∀ i : Instr, i.isWord = true → i.wf = true → ∃ w, encode i = some w ∧ decodeWord w = some i) ∧
  (∀ (w : IWord) (i : Instr), decodeWord w = some i → i.isWord = true ∧ i.wf = true ∧ encode i = some w)

/-- The words that the spec derives field by field (the table under R93, and R38), read by the decoder. -/
def Obligations.SpecWordsDecode : Prop :=
  decodeWord 0x046428C0 = some (.add ⟨3, 4, 5, false, false⟩) ∧
  decodeWord 0x2C610001 = some (.lih ⟨3, 0x10001⟩) ∧
  decodeWord 0x50641002 = some (.ldSigned ⟨3, 4, 2, 2⟩) ∧
  decodeWord 0x586428D8 = some (.atadd ⟨3, 4, 5, true, true, true, false, false⟩) ∧
  decodeWord 0x60640480 = some (.fcvt ⟨3, 4, 0, 2, false⟩) ∧
  decodeWord 0x68C74000 = some (.setvl ⟨6, 7, false, 2, 0⟩) ∧
  decodeWord 0x70001E00 = some (.drain 3) ∧
  decodeWord 0xEC2638C0 = some (.wait ⟨1, 6, 7, true, false, false⟩) ∧
  decodeWord 0x14000000 = some (.addi ⟨0, 0, 0⟩) ∧
  decodeWord 0x00000000 = none

/-- R28: four bytes of memory, the least significant first, spell the word that is decoded, and the bytes after them are
left.

A step runs the decoded instruction: with no outside event pending, the package ready, the strand in focus decoding
and no older atomic of its own in the way of the walk for pc, the step is `exec` of the instruction that the word at pc
decodes to, after which the count of the critical section, the counter of free values and, while an access is in flight,
the model's record of what the instruction changed (log 84) move on. -/
def Obligations.StepRunsDecodedWord : Prop :=
  (∀ (w : IWord) (rest : List Byte) (i : Instr), decodeWord w = some i →
     decodeBytes (bytesOf 4 w.toNat ++ rest) = .ok (i, rest)) ∧
  (∀ (s : State) (w : IWord) (i : Instr),
     s.inputs = [] → s.mgmt.trip = false → s.mgmt.recovery = false → s.mgmt.ready = true →
     s.st.decodes = true → s.st.asyncReady = false → s.st.critFull = false → s.walkBlocked s.st.pc = false →
     s.fetchWord = some w → decodeWord w = some i →
     step s = match exec i s with
       | .next t => .next (State.settleFetched i s t)
       | .fault f => .fault f
       | .refused r => .refused r)

/-! ## Scalar integer instructions -/

/-- R89: the results of int.a, int.b and int.c. The frame of each is that of `WriteChangesOneRegister`.

R91: the results of int.d. The counts are given by the bit that they find.

R92, R93: the register-immediate instructions and the constants. `lih` and `pchi` read no register, and
wait for an empty destination as every instruction does (R16; log 42). -/
def Obligations.IntegerResults : Prop :=
  (∀ (o : XOps) (s : State), s.usable [o.a, o.b] [o.d] →
     let A := s.st.xget o.a
     let B := s.st.xget o.b
     let put := fun v : Word => (Host.Outcome.next (s.setX o.d v).advance : Result)
     exec (.add o) s = put (A + B) ∧ exec (.sub o) s = put (A - B) ∧
     exec (.and o) s = put (A &&& B) ∧ exec (.or o) s = put (A ||| B) ∧ exec (.xor o) s = put (A ^^^ B) ∧
     exec (.shl o) s = put (A <<< (B.toNat % 64)) ∧ exec (.shr o) s = put (A >>> (B.toNat % 64)) ∧
     exec (.sar o) s = put (A.sshiftRight (B.toNat % 64)) ∧
     exec (.mul o) s = put (A * B) ∧
     exec (.mulh o) s = put ((A.signExtend 128 * B.signExtend 128).extractLsb' 64 64) ∧
     exec (.mulhn o) s = put ((A.zeroExtend 128 * B.zeroExtend 128).extractLsb' 64 64) ∧
     exec (.min o) s = put (if A.slt B then A else B) ∧ exec (.max o) s = put (if A.slt B then B else A) ∧
     exec (.minn o) s = put (if A.ult B then A else B) ∧ exec (.maxn o) s = put (if A.ult B then B else A) ∧
     exec (.slt o) s = put (if A.slt B then 1 else 0) ∧ exec (.sltn o) s = put (if A.ult B then 1 else 0) ∧
     exec (.seq o) s = put (if A = B then 1 else 0) ∧ exec (.sne o) s = put (if A = B then 0 else 1)) ∧
  ((∀ (o : XUn) (s : State), s.usable [o.a] [o.d] →
     let A := s.st.xget o.a
     let put := fun v : Word => (Host.Outcome.next (s.setX o.d v).advance : Result)
     (∃ n : Nat, exec (.clz o) s = put (BitVec.ofNat 64 n) ∧ n ≤ 64 ∧
       (∀ i, 64 - n ≤ i → i < 64 → A.getLsbD i = false) ∧ (n < 64 → A.getLsbD (63 - n) = true)) ∧
     (∃ n : Nat, exec (.ctz o) s = put (BitVec.ofNat 64 n) ∧ n ≤ 64 ∧
       (∀ i, i < n → A.getLsbD i = false) ∧ (n < 64 → A.getLsbD n = true)) ∧
     exec (.popc o) s = put (BitVec.ofNat 64 ((List.range 64).countP fun i => A.getLsbD i)) ∧
     ∃ v : Word, exec (.brev o) s = put v ∧ ∀ i, i < 64 → v.getLsbD (63 - i) = A.getLsbD i) ∧
   ∀ (o : TUn) (s : State), s.usable [o.a] [o.d] →
     let A := s.st.xget o.a
     let w := 8 * 2 ^ o.ty.toNat
     let put := fun v : Word => (Host.Outcome.next (s.setX o.d v).advance : Result)
     exec (.sext o) s = put ((A.truncate w).signExtend 64) ∧
     exec (.zext o) s = put ((A.truncate w).zeroExtend 64)) ∧
  ((∀ (o : ImmOps) (s : State), s.usable [o.a] [o.d] →
     let A := s.st.xget o.a
     let put := fun v : Word => (Host.Outcome.next (s.setX o.d v).advance : Result)
     exec (.addi o) s = put (A + o.imm.signExtend 64) ∧ exec (.andi o) s = put (A &&& o.imm.signExtend 64) ∧
     exec (.ori o) s = put (A ||| o.imm.zeroExtend 64) ∧ exec (.xori o) s = put (A ^^^ o.imm.zeroExtend 64) ∧
     exec (.slti o) s = put (if A.slt (o.imm.signExtend 64) then 1 else 0)) ∧
   (∀ (o : ShOps) (s : State), s.usable [o.a] [o.d] →
     let A := s.st.xget o.a
     let put := fun v : Word => (Host.Outcome.next (s.setX o.d v).advance : Result)
     exec (.shli o) s = put (A <<< o.amt.toNat) ∧ exec (.shri o) s = put (A >>> o.amt.toNat) ∧
     exec (.sari o) s = put (A.sshiftRight o.amt.toNat) ∧ exec (.rori o) s = put (A.rotateRight o.amt.toNat)) ∧
   ∀ (o : ConstOps) (s : State),
     let put := fun v : Word => (Host.Outcome.next (if s.st.xready o.d = true then (s.setX o.d v).advance else s.stall) : Result)
     exec (.lih o) s = put (o.imm.signExtend 64 * 65536) ∧
     exec (.pchi o) s = put (s.st.pc + o.imm.signExtend 64 * 65536))

/-- R89, R90: division and remainder, with the borderline cases, in a next state that writes the result and raises
nothing. -/
def Obligations.DivisionNeverTraps : Prop :=
  ∀ (o : XOps) (s : State), s.usable [o.a, o.b] [o.d] →
    let A := s.st.xget o.a
    let B := s.st.xget o.b
    let put := fun v : Word => (Host.Outcome.next (s.setX o.d v).advance : Result)
    (∀ v, (s.setX o.d v).advance.st.fflags = s.st.fflags) ∧
    exec (.div o) s = put (if B = 0 then -1 else if A = BitVec.intMin 64 ∧ B = -1 then BitVec.intMin 64 else A.sdiv B) ∧
    exec (.divn o) s = put (if B = 0 then -1 else A / B) ∧
    exec (.rem o) s = put (if B = 0 then A else if A = BitVec.intMin 64 ∧ B = -1 then 0 else A.srem B) ∧
    exec (.remn o) s = put (if B = 0 then A else A % B)

/-- R12, R14 and the frame of every instruction whose next state is `(s.setX d v).advance`: the register reads back
what was written and is full, x0 reads as zero whatever is written, the pc moves past one word, and every other
register, flag, mode, trap register, tile and byte of memory is kept.

R71 to R73 and the frame of `FloatingResults`: `fflags` gains the flags of the instruction, `ffirst` of each flag
raised becomes 0, and every other register, mode, trap register, tile and byte of memory is kept. While older entries of
the vector queue have not retired, the flags wait behind the youngest of them (log 51). -/
def Obligations.WriteChangesOneRegister : Prop :=
  (∀ (s : State) (d : Reg) (v : Word),
     let t := (s.setX d v).advance
     t.st.xget d = (if d = 0 then 0 else v) ∧ t.st.isFull d = true ∧ t.st.xget 0 = 0 ∧ t.st.pc = s.st.pc + 4 ∧
       s.keepsRest t [d] [] ∧ t.st.queue = s.st.queue ∧ t.st.stores = s.st.stores) ∧
  (∀ (s : State) (d : Reg) (v : Word) (f : FFlags), s.st.xready d = true →
     let t := ((s.setX d v).raise0 f).advance
     (s.st.queue = [] → t.st.fflags = s.st.fflags ||| f ∧
       ∀ i : Fin 7, t.st.ffirst[i] = if f.getLsbD i.val then 0 else s.st.ffirst[i]) ∧
     (∀ q e, s.st.queue = q ++ [e] → t.st.queue = q ++ [{ e with scalar := e.scalar ||| f }] ∧ s.keepsFlags t) ∧
     t.st.xget d = (if d = 0 then 0 else v) ∧ t.st.pc = s.st.pc + 4 ∧ s.keepsX t [d] ∧ s.keepsV t [] ∧
     t.st.vm = s.st.vm ∧ s.keepsTrap t ∧ s.keepsModes t ∧ s.keepsTiles t ∧ s.keepsMemory t)

/-- R38: `nop` is the word 0x1400_0000, an `addi` to x0, and has no effect other than advancing the program counter. -/
def Obligations.NopOnlyAdvances : Prop :=
  decodeWord 0x14000000 = some (.addi ⟨0, 0, 0⟩) ∧
  ∀ s : State, exec (.addi ⟨0, 0, 0⟩) s = .next s.advance ∧ s.advance.st.pc = s.st.pc + 4 ∧
    s.keepsRest s.advance [] [] ∧ s.advance.st.queue = s.st.queue ∧ s.advance.st.stores = s.st.stores

/-- R15, R16: where a source that is marked trap-if-empty is empty, the strand takes trap 0x03 with the register's number
before any effect, that of the first such source in the order of the fields (DESIGN CHOICE, log 83: no rule says which);
otherwise an empty source or destination makes the instruction wait. -/
def Obligations.EmptyRegisterTrapsOrWaits : Prop :=
  ∀ (o : XOps) (i : Instr) (s : State),
    i ∈ [Instr.add o, .sub o, .and o, .or o, .xor o, .shl o, .shr o, .sar o, .mul o, .mulh o, .mulhn o, .div o, .divn o,
      .rem o, .remn o, .min o, .max o, .minn o, .maxn o, .slt o, .sltn o, .seq o, .sne o] →
    (o.fa = true → s.st.isFull o.a = false → exec i s = .next (s.trap 0x03 (o.a.zeroExtend 64))) ∧
    (o.fa = false → o.fb = true → s.st.isFull o.b = false → exec i s = .next (s.trap 0x03 (o.b.zeroExtend 64))) ∧
    (o.fa = false → o.fb = false → s.st.isFull o.a = false ∨ s.st.isFull o.b = false → exec i s = .next s.stall) ∧
    (s.st.isFull o.a = true → s.st.isFull o.b = true → s.st.isFull o.d = false → exec i s = .next s.stall)

/-- R94: the branches go to B + 4 × sext(off11) where their condition holds, and fall through otherwise; nothing but the
pc changes. `brf` and `bre` wait for nothing.

R95: `jmp` and `jmpr` write J + 4 and go to their target; a target of `jmpr` that is not canonical takes trap 0x07, and
otherwise one that is not aligned trap 0x08, with the target in `tval`. The target comes from the value that xa holds
before the instruction. -/
def Obligations.BranchAndJumpTargets : Prop :=
  ((∀ (o : BrOps) (s : State), s.usable [o.a, o.b] [] →
     let A := s.st.xget o.a
     let B := s.st.xget o.b
     let go := fun c : Bool => (Host.Outcome.next
       (s.upd fun t => { t.next with pc := if c then t.pc + 4 * o.off.signExtend 64 else t.pc + 4 }) : Result)
     exec (.beq o) s = go (decide (A = B)) ∧ exec (.bne o) s = go (decide (A ≠ B)) ∧
     exec (.blt o) s = go (A.slt B) ∧ exec (.bge o) s = go (!A.slt B) ∧
     exec (.bltn o) s = go (A.ult B) ∧ exec (.bgen o) s = go (!A.ult B)) ∧
   ∀ (o : BrfOps) (s : State),
     let go := fun c : Bool => (Host.Outcome.next
       (s.upd fun t => { t.next with pc := if c then t.pc + 4 * o.off.signExtend 64 else t.pc + 4 }) : Result)
     exec (.brf o) s = go (s.st.isFull o.a) ∧ exec (.bre o) s = go (!s.st.isFull o.a)) ∧
  ((∀ (o : ConstOps) (s : State), s.usable [] [o.d] →
     exec (.jmp o) s = .next ((s.setX o.d (s.st.pc + 4)).upd fun t =>
       { t.next with pc := s.st.pc + 4 * o.imm.signExtend 64 })) ∧
   ∀ (o : ImmOps) (s : State), s.usable [o.a] [o.d] →
     let T := s.st.xget o.a + o.imm.signExtend 64
     (canonical T = true → T.toNat % 4 = 0 →
       exec (.jmpr o) s = .next ((s.setX o.d (s.st.pc + 4)).upd fun t => { t.next with pc := T })) ∧
     (canonical T = true → T.toNat % 4 ≠ 0 → exec (.jmpr o) s = .next (s.trap 0x08 T)) ∧
     (canonical T = false → exec (.jmpr o) s = .next (s.trap 0x07 T)))

/-! ## Scalar memory -/

/-- R88: the checks of a scalar access, in their order: a non-canonical address takes trap 0x07, then a misaligned one
0x08, then one without a translation 0x05 for a read and 0x06 for a write or an atomic, then one that its page does not
permit 0x07; `tval` is the address. While an older atomic of the strand may change an entry that the walk reads, the access
waits, and while an older vector instruction that writes memory has not retired, so does its trap (R97, R293). -/
def Obligations.AccessChecksInOrder : Prop :=
  ∀ (s : State) (i : Instr) (acc : Acc) (n : Nat) (a : Word) (srcs dsts : List Reg),
    ((∃ o : MemOps, (i = .ldSigned o ∨ i = .ldUnsigned o) ∧ acc = .read ∧ n = 2 ^ o.ty.toNat ∧
        a = s.st.xget o.a + o.disp.signExtend 64 * BitVec.ofNat 64 n ∧ srcs = [o.a] ∧ dsts = [o.d]) ∨
      (∃ o : MemOps, i = .st o ∧ acc = .write ∧ n = 2 ^ o.ty.toNat ∧
        a = s.st.xget o.a + o.disp.signExtend 64 * BitVec.ofNat 64 n ∧ srcs = [o.a, o.d] ∧ dsts = []) ∨
      ∃ o : AtOps, i ∈ [Instr.atadd o, .atfadd o, .atand o, .ator o, .atxor o, .atmin o, .atmax o, .atminn o, .atmaxn o,
          .atswap o, .atcas o] ∧ acc = .atomic ∧ n = (if o.wide then 8 else 4) ∧ a = s.st.xget o.a ∧
        srcs = [o.a, o.b] ++ (if i = .atcas o then [o.d] else []) ∧ dsts = [o.d]) →
    s.usable srcs dsts →
    let va := a.toNat % 2 ^ 56
    let user := s.st.level == .user
    let fails := fun c : BitVec 8 =>
      exec i s = .next (if ∃ e ∈ s.st.queue, writesMem e.instr = true then s.stall else s.trap c a)
    (s.walkBlocked a = true → exec i s = .next s.stall) ∧
    (s.walkBlocked a = false →
    (canonical a = false → fails 0x07) ∧
    (canonical a = true → a.toNat % n ≠ 0 → fails 0x08) ∧
    (canonical a = true → a.toNat % n = 0 → untranslated va = false →
      (∀ span, s.translate s.st.stores s.st.ctx va = .missing span →
        fails (if acc = .read then 0x05 else 0x06)) ∧
      (∀ l, s.translate s.st.stores s.st.ctx va = .leaf l → permits acc user l.entry = false → fails 0x07)))

/-- R96: a scalar load with nothing of its strand in flight. The bytes that its place holds, least significant first, are
sign-extended or zero-extended into xd; nothing else changes but the pc.

R96 to R98: a scalar store with nothing of its strand in flight. The low bytes of the data register stand at the place
that the check of its address gives, least significant first, and every other byte of every storage reads as before. -/
def Obligations.ScalarLoadsAndStores : Prop :=
  (∀ (o : MemOps) (s : State) (p : Place) (dAttr : Bool),
     let n := 2 ^ o.ty.toNat
     let a := s.st.xget o.a + o.disp.signExtend 64 * BitVec.ofNat 64 n
     s.usable [o.a] [o.d] → s.pace = .lockstep → s.st.queue = [] → s.st.stores = [] → s.st.loads = [] →
     s.check .read n n a = .ok p dAttr → s.poisonAt a p n = none →
     let v := ofBytes (bytesAt (fun i => s.placeByte (p.add i)) 0 n)
     (∃ t, exec (.ldSigned o) s = .next t ∧
       t.st.xget o.d = (if o.d = 0 then 0 else (BitVec.ofNat (8 * n) v).signExtend 64) ∧
       t.st.pc = s.st.pc + 4 ∧ s.keepsRest t [o.d] [] ∧ t.st.stores = [] ∧ t.st.loads = []) ∧
     ∃ t, exec (.ldUnsigned o) s = .next t ∧
       t.st.xget o.d = (if o.d = 0 then 0 else BitVec.ofNat 64 v) ∧
       t.st.pc = s.st.pc + 4 ∧ s.keepsRest t [o.d] [] ∧ t.st.stores = [] ∧ t.st.loads = []) ∧
  (∀ (o : MemOps) (s : State) (p : Place) (dAttr : Bool),
     let n := 2 ^ o.ty.toNat
     let a := s.st.xget o.a + o.disp.signExtend 64 * BitVec.ofNat 64 n
     s.usable [o.a, o.d] [] → s.pace = .lockstep → s.st.queue = [] → s.st.stores = [] → s.st.loads = [] →
     s.check .write n n a = .ok p dAttr →
     ∃ t, exec (.st o) s = .next t ∧ t.st.pc = s.st.pc + 4 ∧
       (s.flights = [] → Memory.wf s.mem = true → (s.context s.st.ctx).ulOn = false →
         s.storesBytes t p (bytesOf n (s.st.xget o.d).toNat) ∧ s.keepsStrand t [] [] ∧ t.st.stores = [] ∧
         Memory.wf t.mem = true))

/-- R99, R100: the atomics with nothing of their strand in flight. The new value stands at the checked place, the old one
goes to xd, sign-extended but for the unsigned and floating operations, and no flag is raised. -/
def Obligations.AtomicReadModifyWrite : Prop :=
  ∀ (o : AtOps) (s : State) (p : Place) (dAttr : Bool),
    let n := if o.wide then 8 else 4
    let w := 8 * n
    let a := s.st.xget o.a
    s.usable [o.a, o.b] [o.d] → s.pace = .lockstep → s.st.queue = [] → s.st.stores = [] → s.st.loads = [] →
    s.check .atomic n n a = .ok p dAttr → s.poisonAt a p n = none →
    let old := ofBytes (s.placeBytes p n)
    let b := (s.st.xget o.b).toNat % 2 ^ w
    let c := (s.st.xget o.d).toNat % 2 ^ w
    let signed := fun x : Nat => (BitVec.ofNat w x).toInt
    let done := fun (i : Instr) (new : Nat) (isSigned : Bool) =>
      ∃ t, exec i s = .next t ∧
        (s.flights = [] → t.st.pc = s.st.pc + 4 ∧
          (Memory.wf s.mem = true → (s.context s.st.ctx).ulOn = false →
            s.storesBytes t p (bytesOf n new) ∧
            t.st.xget o.d = (if o.d = 0 then 0 else if isSigned then (BitVec.ofNat w old).signExtend 64
              else BitVec.ofNat 64 old) ∧
            s.keepsStrand t [o.d] [] ∧ Memory.wf t.mem = true))
    done (.atadd o) ((old + b) % 2 ^ w) true ∧
    done (.atfadd o) (addF (if o.wide then f64 else f32) 0 false (unpack (if o.wide then f64 else f32) old)
      (unpack (if o.wide then f64 else f32) b)).1 false ∧
    done (.atand o) (old &&& b) true ∧ done (.ator o) (old ||| b) true ∧ done (.atxor o) (old ^^^ b) true ∧
    done (.atmin o) (if signed old ≤ signed b then old else b) true ∧
    done (.atmax o) (if signed old ≤ signed b then b else old) true ∧
    done (.atminn o) (min old b) false ∧ done (.atmaxn o) (max old b) false ∧
    done (.atswap o) b true ∧
    (s.st.anyPoison [o.d] = false → done (.atcas o) (if old = c then b else old) true)

/-- R97, R98: while queued effects wait, a store only enters the store queue, with the place of its check, and its bytes
are in no storage yet; STORE_PERFORM performs the oldest entry at its home. The MODEL's `pace` says when (log 1).

R97, R100, R297: LOAD_DATA_RETURN fills the destination of the oldest load with the bytes of its place, where no
store of the strand is queued; ATOMIC_APPLY gives the oldest atomic's old value to its destination and its new value to
memory. -/
def Obligations.StoreQueueInOrder : Prop :=
  ((∀ (o : MemOps) (s : State) (p : Place) (dAttr : Bool),
     let n := 2 ^ o.ty.toNat
     let a := s.st.xget o.a + o.disp.signExtend 64 * BitVec.ofNat 64 n
     s.usable [o.a, o.d] [] → s.pace = .runAhead → s.st.stores.length < 16 → s.walkBlocked a = false →
     s.check .write n n a = .ok p dAttr →
     ∃ t e, exec (.st o) s = .next t ∧ t.st.stores = s.st.stores ++ [e] ∧ e.addr = a ∧ e.place = p ∧ e.size = n ∧
       e.data.toNat = (s.st.xget o.d).toNat % 2 ^ (8 * n) ∧ e.dest = none ∧
       t.st.pc = s.st.pc + 4 ∧ s.keepsRest t [] []) ∧
   (∀ (s : State) (e : SEntry) (rest : List SEntry),
     s.st.stores = e :: rest → s.st.headReady = true → atomicOf e.instr = none →
     ∃ t, exec .storePerform s = .next t ∧ t.st.pc = s.st.pc ∧
       (e.place.home (dieOf s.cur) = dieOf s.cur → t.st.stores = rest ∧
         (Memory.wf s.mem = true → (s.context s.st.ctx).ulOn = false → s.writable e.place →
           s.storesBytes t e.place (bytesOf e.size e.data.toNat) ∧ s.keepsStrand t [] [])))) ∧
  ((∀ (s : State) (l : LoadFlight) (rest : List LoadFlight),
     s.st.loads = l :: rest → l.after = none → s.st.stores = [] → s.poisonAt l.addr l.place l.size = none → l.dest ≠ 0 →
     (l.size = 1 ∨ l.size = 2 ∨ l.size = 4 ∨ l.size = 8) →
     ∃ t, exec .loadDataReturn s = .next t ∧ t.st.loads = rest ∧
       t.st.xget l.dest =
         (if l.signed then (BitVec.ofNat (8 * l.size) (ofBytes (s.placeBytes l.place l.size))).signExtend 64
         else BitVec.ofNat 64 (ofBytes (s.placeBytes l.place l.size))) ∧
       t.st.isFull l.dest = true ∧ s.keepsRest t [l.dest] [] ∧ t.st.pc = s.st.pc) ∧
   (∀ (s : State) (e : SEntry) (rest : List SEntry) (op : AtOp) (acq : Bool) (r : Reg),
     s.st.stores = e :: rest → s.st.headReady = true → atomicOf e.instr = some (op, acq) → e.dest = some r → r ≠ 0 →
     s.poisonAt e.addr e.place e.size = none →
     let w := 8 * e.size
     let old := ofBytes (s.placeBytes e.place e.size)
     ∃ t, exec .atomicApply s = .next t ∧ (s.flights = [] → t.st.pc = s.st.pc) ∧
       (s.flights = [] → Memory.wf s.mem = true → (s.context s.st.ctx).ulOn = false → s.writable e.place →
         t.st.stores = rest ∧
         s.storesBytes t e.place (bytesOf e.size (atNew op w old (e.data.toNat % 2 ^ w) (e.cmp.toNat % 2 ^ w))) ∧
         t.st.xget r = atOld op w old ∧ s.keepsStrand t [r] [])))

/-- R367 step 5 and the form of the model's memory: after every step memory, and the management window's bytes, are again in
canonical form, so that equal memories are equal data. A premise of every statement about stores. -/
def Obligations.EveryStepKeepsMemoryCanonical : Prop :=
  ∀ s t : State, Memory.wf s.mem = true → cellsWf 0 s.mgmt.win = true → step s = .next t →
    Memory.wf t.mem = true ∧ cellsWf 0 t.mgmt.win = true

/-- The memory and the management window after reset are in canonical form, and every byte of it reads as 0 (R367 step
5: everything reads as zero once the boot has run; the boot keeps what State.reset holds). -/
def Obligations.ResetMemoryCanonical : Prop :=
  Memory.wf State.reset.mem = true ∧ cellsWf 0 State.reset.mgmt.win = true ∧ ∀ a, memGet State.reset.mem a = 0

/-! ## Scalar floating point, control registers and lengths -/

/-- R65 to R70, R101 to R104: the results and flags of fp.a and fp.b. Sources are read under `fz` from the low bits of
their registers, the result is rounded under `frm` into the format, the bits above it are cleared, and the flags enter
with index 0. The forms that never round complete while `frm` is 4 too: a widening `fcvt`, an exact `fcvtif`, `fclass`,
minimum, maximum and the compares.

R67, R104: a form that rounds takes trap 0x02 at decode while `frm` is 4, before anything else of it: the arithmetic,
every conversion to an integer, a narrowing `fcvt` and an inexact `fcvtif`. A form that does not round is not stopped:
bf16 or f16 to f32, any format to f64, 8-bit integers to any format, 16-bit ones to f32 and f64, 32-bit ones to f64. -/
def Obligations.FloatingResults : Prop :=
  ((∀ (o : FOps) (s : State), s.usable [o.a, o.b] [o.d] →
     let F := fmtOf o.ty
     let w := F.width
     let rm := s.st.frm
     let fz := s.st.fz
     let bits := fun r : Reg => (s.st.xget r).toNat % 2 ^ w
     let A := readF F fz (bits o.a)
     let B := readF F fz (bits o.b)
     let D := readF F fz (bits o.d)
     let put := fun r : Nat × FFlags =>
       (Host.Outcome.next ((s.setX o.d (BitVec.ofNat 64 r.1)).raise0 r.2).advance : Result)
     let test := fun r : Bool × FFlags =>
       (Host.Outcome.next ((s.setX o.d (if r.1 then 1 else 0)).raise0 r.2).advance : Result)
     (rm ≠ 4 → exec (.fadd o) s = put (addF F rm fz A B) ∧ exec (.fsub o) s = put (subF F rm fz A B) ∧
       exec (.fmul o) s = put (mulF F rm fz A B) ∧ exec (.fdiv o) s = put (divF F rm fz A B) ∧
       (s.st.anyPoison [o.d] = false →
         exec (.fmac o) s = put (fmaF F rm fz D A B) ∧ exec (.fnmac o) s = put (fnmaF F rm fz D A B))) ∧
     exec (.fmin o) s = put (minmaxF F fz false (bits o.a) (bits o.b)) ∧
     exec (.fmax o) s = put (minmaxF F fz true (bits o.a) (bits o.b)) ∧
     exec (.feq o) s = test (quietCmp (fun c => c == 0) A B) ∧
     exec (.flt o) s = test (signallingCmp (fun c => decide (c < 0)) A B) ∧
     exec (.fle o) s = test (signallingCmp (fun c => decide (c ≤ 0)) A B)) ∧
   (∀ (o : TUn) (s : State), s.usable [o.a] [o.d] →
     let F := fmtOf o.ty
     let x := (s.st.xget o.a).toNat % 2 ^ F.width
     let put := fun r : Nat × FFlags =>
       (Host.Outcome.next ((s.setX o.d (BitVec.ofNat 64 r.1)).raise0 r.2).advance : Result)
     (s.st.frm ≠ 4 → exec (.fsqrt o) s = put (sqrtF F s.st.frm s.st.fz (readF F s.st.fz x))) ∧
     exec (.fclass o) s = put (classF F x, 0)) ∧
   (∀ (o : FCvtOps) (s : State), s.usable [o.a] [o.d] → (s.st.frm ≠ 4 ∨ widens o.other o.ty = true) →
     let S := fmtOf o.other
     let r := convertF (fmtOf o.ty) s.st.frm s.st.fz (readF S s.st.fz ((s.st.xget o.a).toNat % 2 ^ S.width))
     exec (.fcvt o) s = .next ((s.setX o.d (BitVec.ofNat 64 r.1)).raise0 r.2).advance) ∧
   ∀ (o : FCvtiOps) (s : State), s.usable [o.a] [o.d] → (s.st.frm ≠ 4 ∨ intExact o.other o.ty = true) →
     let F := fmtOf o.ty
     let x := (s.st.xget o.a).toNat
     let w := 8 * 2 ^ o.other.toNat
     (let r := fromInt F s.st.frm false (if o.uns then ((x % 2 ^ w : Nat) : Int) else (BitVec.ofNat w x).toInt);
       exec (.fcvtif o) s = .next ((s.setX o.d (BitVec.ofNat 64 r.1)).raise0 r.2).advance) ∧
     (s.st.frm ≠ 4 → let r := toIntF s.st.frm w o.uns (readF F s.st.fz (x % 2 ^ F.width));
       exec (.fcvtfi o) s = .next ((s.setX o.d (BitVec.ofInt 64 r.1)).raise0 r.2).advance)) ∧
  (∀ (s : State), s.st.frm = 4 →
     (∀ (o : FOps) (i : Instr), i ∈ [Instr.fadd o, .fsub o, .fmul o, .fdiv o, .fmac o, .fnmac o] →
       exec i s = .next (s.decodeTrap i 0x02)) ∧
     (∀ o : TUn, exec (.fsqrt o) s = .next (s.decodeTrap (.fsqrt o) 0x02)) ∧
     (∀ o : FCvtiOps, exec (.fcvtfi o) s = .next (s.decodeTrap (.fcvtfi o) 0x02)) ∧
     (∀ o : FCvtOps, let wider := o.ty = 3 ∧ o.other ≠ 3 ∨ o.ty = 2 ∧ (o.other = 0 ∨ o.other = 1)
       (¬wider → exec (.fcvt o) s = .next (s.decodeTrap (.fcvt o) 0x02)) ∧
       (wider → s.usable [o.a] [o.d] → ∃ t, exec (.fcvt o) s = .next t ∧ t.st.pc = s.st.pc + 4)) ∧
     (∀ o : FCvtiOps, let exact := o.other = 0 ∨ o.other = 1 ∧ (o.ty = 2 ∨ o.ty = 3) ∨ o.other = 2 ∧ o.ty = 3
       (¬exact → exec (.fcvtif o) s = .next (s.decodeTrap (.fcvtif o) 0x02)) ∧
       (exact → s.usable [o.a] [o.d] → ∃ t, exec (.fcvtif o) s = .next t ∧ t.st.pc = s.st.pc + 4)) ∧
     (∀ o : TUn, s.usable [o.a] [o.d] → ∃ t, exec (.fclass o) s = .next t ∧ t.st.pc = s.st.pc + 4) ∧
     ∀ (o : FOps) (i : Instr), i ∈ [Instr.fmin o, .fmax o, .feq o, .flt o, .fle o] → s.usable [o.a, o.b] [o.d] →
       ∃ t, exec i s = .next t ∧ t.st.pc = s.st.pc + 4)

/-- R66, R68: a value that the format represents, not zero, is delivered as its own encoding and raises no flag, in every
rounding mode, with subnormals kept.

R65, R66: a NaN among the inputs gives the canonical NaN in every arithmetic form, and NV where it signals. -/
def Obligations.FloatRounding : Prop :=
  (∀ (ty : BitVec 2) (rm : BitVec 3) (x : Nat) (neg : Bool) (m : Nat) (e : Int),
     x < 2 ^ (fmtOf ty).width → unpack (fmtOf ty) x = .fin neg m e → m ≠ 0 →
     roundF (fmtOf ty) rm false (.fin neg m e) = (x, 0)) ∧
  (∀ (ty : BitVec 2) (rm : BitVec 3) (fz : Bool) (a b c : FVal), (a.isNan = true ∨ b.isNan = true) →
     let F := fmtOf ty
     let nv := a = .nan true ∨ b = .nan true
     (∀ r ∈ [addF F rm fz a b, subF F rm fz a b, mulF F rm fz a b, divF F rm fz a b],
       r.1 = F.nan ∧ (r.2.getLsbD 0 = true ↔ nv)) ∧
     (fmaF F rm fz c a b).1 = F.nan ∧ (fnmaF F rm fz c a b).1 = F.nan ∧ (fmaF F rm fz a b c).1 = F.nan)

/-- R21, R23, R26, R105: `crr` reads a register that the level allows into xd; `crw`, `crs` and `crc` write, set and clear
bits of its field and give the old value. A write to a read-only register takes trap 0x02, as do a `crw` with a bit outside
the field and every write that would leave an illegal value: a length above 2,048, a mode above 4, a tag that R26 rules
out. An access below 0x100 waits for an empty queue. -/
def Obligations.ControlRegisterAccess : Prop :=
  (∀ (o : CrrOps) (s : State), s.usable [] [o.d] → s.st.queue = [] →
    (s.st.level = .supervisor ∨ crPrivileged o.idx.toNat = false) →
    exec (.crr o) s = .next (s.setX o.d (s.crGet o.idx.toNat)).advance) ∧
  (∀ (o : CrrOps) (s : State), o.idx.toNat < 0x100 → s.st.queue ≠ [] → exec (.crr o) s = .next s.stall) ∧
  (∀ (o : CrOps) (i : Instr) (s : State), i ∈ [Instr.crw o, .crs o, .crc o] →
    (s.st.level = .supervisor ∨ crPrivileged o.idx.toNat = false) →
    (crReadOnly o.idx.toNat = true → exec i s = .next (s.decodeTrap i 0x02)) ∧
    (crReadOnly o.idx.toNat = false → o.idx.toNat < 0x100 → s.st.queue ≠ [] → exec i s = .next s.stall)) ∧
  ∀ (o : CrOps) (s : State), s.usable [o.a] [o.d] → s.st.queue = [] →
    (s.st.level = .supervisor ∨ crPrivileged o.idx.toNat = false) → crReadOnly o.idx.toNat = false →
    let k := o.idx.toNat
    let x := s.st.xget o.a
    let old := s.crGet k
    let put := fun v : Word => (Host.Outcome.next ((s.crSet k v).setX o.d old).advance : Result)
    (x &&& ~~~crField k = 0 → crIllegal k x = false → exec (.crw o) s = put x) ∧
    (x &&& ~~~crField k ≠ 0 → exec (.crw o) s = .next (s.decodeTrap (.crw o) 0x02)) ∧
    (crIllegal k x = true ∨ (k = 0 ∧ 2048 < x.toNat) ∨ (k = 0x018 ∧ 4 < x.toNat) ∨
      (0x080 ≤ k ∧ k < 0x0A0 ∧ (255 < x.toNat ∨ (x.getLsbD 0 = false ∧ x ≠ 0) ∨ x.extractLsb' 1 2 = 3 ∨
        (x.getLsbD 0 = true ∧ x.extractLsb' 3 5 = 0))) →
      exec (.crw o) s = .next (s.decodeTrap (.crw o) 0x02)) ∧
    (crIllegal k (old ||| (x &&& crField k)) = true → exec (.crs o) s = .next (s.decodeTrap (.crs o) 0x02)) ∧
    (crIllegal k (old &&& ~~~(x &&& crField k)) = true → exec (.crc o) s = .next (s.decodeTrap (.crc o) 0x02)) ∧
    (crIllegal k (old ||| (x &&& crField k)) = false → exec (.crs o) s = put (old ||| (x &&& crField k))) ∧
    (crIllegal k (old &&& ~~~(x &&& crField k)) = false → exec (.crc o) s = put (old &&& ~~~(x &&& crField k)))

/-- R21, R22, R126: what is written to a control register reads back, within its field; `held` of `tstat` ignores what is
written.

R22, R126: a write to one control register leaves every other one as it was, and every x and v register and all of
memory. -/
def Obligations.ControlRegistersReadBack : Prop :=
  (∀ (s : State) (k : Nat) (v : Word), crAssigned k = true → crReadOnly k = false → v &&& ~~~crField k = 0 →
     (k ≠ 0x204 → (s.crSet k v).crGet k = v) ∧
     ((s.crSet 0x204 (v &&& 7)).crGet 0x204 = (v &&& 5) ||| (s.crGet 0x204 &&& 2))) ∧
  (∀ (s : State) (j k : Nat) (v : Word), crAssigned j = true → crAssigned k = true → j ≠ k → crReadOnly k = false →
     (s.crSet k v).crGet j = s.crGet j ∧ s.keepsX (s.crSet k v) [] ∧ s.keepsMemory (s.crSet k v) ∧
     (∀ r, (s.crSet k v).st.vget r = s.st.vget r))

/-- R106, R107: `setvl` writes min(xa, VLMAX) to `vl` and xd, and leaves `vl` full; the multivector form also writes `vgm`.
VLMAX of plain elements of 8 to 64 bits is 2,048, 1,024, 512 and 256.

R108: `setvlf` packs whole fibres into one strip. `lens` are the lengths that it consumes, the first the rest `vfrem` of a
split fibre where one is left, the others read from memory. Where they fill at most V elements, and the fibres left, the
bound V or the next length end the strip, `vl` is their sum, xd their number, `vfrem` 0, and `vsg` holds a bit where a fibre
other than the first begins, and `cont` where the first was split. A fibre that does not fit an empty strip is split: V
elements, not counted in xd, and its rest in `vfrem`. With no fibre left there is nothing; a length that cannot be read traps
at its address. It waits for older queue entries and for the strand's loads in flight (R320). -/
def Obligations.SetVectorLength : Prop :=
  (∀ (o : SetvlOps) (s : State), s.st.vlFull = true → s.usable [o.a] [o.d] →
     let top := if o.mv then vlmaxM o.ty o.gm else 16384 / (8 * 2 ^ o.ty.toNat)
     let n := min (s.st.xget o.a).toNat top
     ∃ t, exec (.setvl o) s = .next t ∧ t.st.vl = BitVec.ofNat 12 n ∧ t.st.vlFull = true ∧
       t.st.xget o.d = (if o.d = 0 then 0 else BitVec.ofNat 64 n) ∧
       t.st.vgm = (if o.mv then o.gm else s.st.vgm) ∧ t.st.pc = s.st.pc + 4 ∧
       s.keepsX t [o.d] ∧ s.keepsV t [] ∧ s.keepsFlags t ∧ s.keepsTrap t ∧ s.keepsTiles t ∧ s.keepsMemory t ∧
       t.st.vm = s.st.vm ∧ t.st.vsg = s.st.vsg ∧ t.st.vfrem = s.st.vfrem) ∧
  ((∀ (o : FOps) (s : State), s.st.queue ≠ [] ∨ s.st.loads ≠ [] → exec (.setvlf o) s = .next s.stall) ∧
   ∀ (o : FOps) (s : State), s.usable [o.a, o.b] [o.d] → s.st.queue = [] → s.st.vlFull = true → s.st.stores = [] →
     s.st.loads = [] →
     let top := vlmaxOf (8 * 2 ^ o.ty.toNat)
     let left := (s.st.xget o.b).toNat
     let split := s.st.vfrem ≠ 0
     let addr := fun k => s.st.xget o.a + BitVec.ofNat 64 (4 * k)
     let has := fun k L : Nat => (k = 0 ∧ split ∧ L = s.st.vfrem.toNat) ∨ (¬(k = 0 ∧ split) ∧ ∃ p dAttr,
       s.check .read 4 4 (addr k) = .ok p dAttr ∧ s.poisonAt (addr k) p 4 = none ∧ L = ofBytes (s.placeBytes p 4))
     let gives := fun (used n : Nat) (rest : BitVec 32) (bit : Nat → Prop) =>
       ∃ t, exec (.setvlf o) s = .next t ∧ t.st.vl = BitVec.ofNat 12 used ∧ t.st.vlFull = true ∧
         t.st.xget o.d = (if o.d = 0 then 0 else BitVec.ofNat 64 n) ∧ t.st.vfrem = rest ∧
         (∀ e, e < 2048 → (t.st.vsg.getLsbD e = true ↔ bit e)) ∧ t.st.pc = s.st.pc + 4 ∧ s.keepsX t [o.d] ∧
         s.keepsV t [] ∧ t.st.vm = s.st.vm ∧ s.keepsFlags t ∧ s.keepsMemory t
     (left = 0 → gives 0 0 s.st.vfrem fun _ => False) ∧
     ∀ lens : List Nat, (∀ k L, lens[k]? = some L → has k L) → lens.sum ≤ top →
       (lens ≠ [] → lens.length ≤ left → lens.length ≤ top →
         (lens.length = left ∨ lens.length = top ∨ (0 < lens.sum ∧ ∃ L, has lens.length L ∧ top < lens.sum + L)) →
         gives lens.sum lens.length 0 fun e => (e = 0 ∧ split) ∨
           ∃ j L, lens[j]? = some L ∧ 0 < L ∧ 0 < e ∧ e = (lens.take j).sum) ∧
       (∀ L, lens.length < left → lens.length < top → lens.sum = 0 → has lens.length L → top < L →
         gives top lens.length (BitVec.ofNat 32 (L - top)) fun e => e = 0 ∧ split) ∧
       ∀ c span, lens.length < left → lens.length < top → ¬(lens = [] ∧ split) →
         s.check .read 4 4 (addr lens.length) = .bad c span → exec (.setvlf o) s = .next (s.trap c (addr lens.length)))

/-! ## Traps, privilege, events, waits -/

/-- R121 to R123, R126: a trap that is taken while a handler is set. The saved level, the supervisor level, the cause with
its side bits, `tval`, `tepc`, `held` for a nonempty image, `skip` 0 and the pc at `tvec`; the queue becomes the image, and
x registers, v registers, flags, modes, tiles and memory are kept. -/
def Obligations.TrapEntersHandler : Prop :=
  ∀ (s : State) (side : Side) (cause : BitVec 8) (tval tepc : Word),
    s.st.tvec ≠ 0 → (s.st.held = true → s.st.level = .user) →
    let t := s.takeTrap side cause tval tepc
    t.st.ppl = s.st.level ∧ t.st.level = .supervisor ∧ t.st.held = !s.st.queue.isEmpty ∧ t.st.skip = false ∧
    t.st.tcause.extractLsb' 0 8 = cause ∧ t.st.tcause.getLsbD 8 = (side == .vector) ∧
    t.st.tcause.getLsbD 9 = (side == .async) ∧ t.st.tval = tval ∧ t.st.tepc = tepc.truncate 56 ∧ t.st.pc = s.st.tvec ∧
    t.st.image = s.st.queue ∧ t.st.queue = [] ∧ t.st.stores = s.st.stores ∧ t.st.tvec = s.st.tvec ∧
    t.st.tscratch = s.st.tscratch ∧ s.keepsX t [] ∧ s.keepsV t [] ∧ t.st.vm = s.st.vm ∧ s.keepsFlags t ∧
    s.keepsModes t ∧ s.keepsTiles t ∧ s.keepsMemory t

/-- R123, R264: without a handler a trap of any cause but 0x12 ends the iteration as a cancelled one and records the cause;
its image goes, the stores that wait on an image entry are dropped, and those that wait on none stay to be performed.

R124: a trap at supervisor level while an image is held would lose it. The strand stops instead, whatever `tvec` is (log
75): it decodes nothing further, and its registers of the earlier trap, its image, v registers and stores are kept. Where
it is the root itself, rootcause of the context receives the cause; otherwise a notice of source 7 joins the event queue of
the root, here one that is not saved and has room.

R117, R121, R122: `scall` and `dbrk` take traps 0x10 and 0x11 with `tval` 0 and `tepc` the next instruction, once every
older queue entry has retired and every load in flight has delivered its value; until then decoding stops for the trap.

R37, R121, R122: what `trap` and `decodeTrap` of the other statements are. With nothing older outstanding the trap is
taken at once, its `tepc` the instruction at pc; otherwise decoding stops with the trap held, and TRAP_ENTRY takes it once
every older queue entry has retired and every load has delivered its value. A vector-side trap that comes first is taken
instead, and gives the held one up. -/
def Obligations.TrapsEndStopOrWait : Prop :=
  (∀ (s : State) (side : Side) (cause : BitVec 8) (tval tepc : Word),
     cause ≠ 0x12 → s.st.tvec = 0 → (s.st.held = true → s.st.level = .user) →
     let t := s.takeTrap side cause tval tepc
     t.st.iter.ending = true ∧ t.st.iter.cause = cause ∧ t.st.queue = [] ∧ t.st.image = [] ∧ t.st.decodes = false ∧
     (∀ e, e ∈ t.st.stores ↔ e ∈ s.st.stores ∧ e.after = none) ∧ s.keepsMemory t ∧
     (∀ c ∈ t.cmds, c.iter = s.st.iter.id → c.cancelled = true)) ∧
  (∀ (s : State) (side : Side) (cause : BitVec 8) (tval tepc : Word), s.st.held = true → s.st.level = .supervisor →
     let t := s.takeTrap side cause tval tepc
     let stays := t.st.run = .stopped cause ∧ t.st.decodes = false ∧ s.keepsTrap t ∧ t.st.image = s.st.image ∧
       t.st.stores = s.st.stores ∧ s.keepsX t [] ∧ s.keepsV t [] ∧ s.keepsMemory t
     (s.st.iter.work = .root → stays ∧ ((t.context s.st.ctx).field 0x05 1).toNat = cause.toNat) ∧
     ∀ r : Strand, s.st.iter.work ≠ .root → s.rootOf s.st.ctx = some r → s.findIter r.iter.id = some r →
       r.iter.id ≠ s.st.iter.id → s.isSaved r.iter.id = false → r.claims = [] → r.events.length < 32 →
       stays ∧ t.rootOf s.st.ctx = some { r with events := r.events ++
         [⟨BitVec.ofNat 32 s.cur, 1, cause, 7, if side = .async then 0 else s.st.pc, tval⟩] }) ∧
  (∀ (s : State),
     (s.st.queue = [] → s.st.loads = [] →
       exec .scall s = .next (s.takeTrap .scalar 0x10 0 (s.st.pc + 4)) ∧
       exec .dbrk s = .next (s.takeTrap .scalar 0x11 0 (s.st.pc + 4))) ∧
     (s.st.queue ≠ [] ∨ s.st.loads ≠ [] →
       ∃ t u, exec .scall s = .next t ∧ exec .dbrk s = .next u ∧ t.st.hold = some ⟨0x10, 0, s.st.pc + 4⟩ ∧
         u.st.hold = some ⟨0x11, 0, s.st.pc + 4⟩ ∧ t.st.decodes = false ∧ u.st.decodes = false ∧
         s.keepsRest t [] [] ∧ s.keepsRest u [] [] ∧ t.st.queue = s.st.queue ∧ u.st.queue = s.st.queue)) ∧
  ((∀ (s : State) (cause : BitVec 8) (tval : Word) (i : Instr),
     s.decodeTrap i cause = s.trap cause (((encode i).getD 0).zeroExtend 64) ∧
     (s.st.queue = [] → s.st.loads = [] → s.trap cause tval = s.takeTrap .scalar cause tval s.st.pc) ∧
     (s.st.queue ≠ [] ∨ s.st.loads ≠ [] →
       (s.trap cause tval).st.hold = some ⟨cause, tval, s.st.pc⟩ ∧ (s.trap cause tval).st.decodes = false ∧
         (s.trap cause tval).st.queue = s.st.queue ∧ (s.trap cause tval).st.loads = s.st.loads ∧
         s.keepsRest (s.trap cause tval) [] [])) ∧
   (∀ (s : State) (h : Held), s.st.hold = some h → s.st.run = .running → s.st.queue = [] → s.st.loads = [] →
     s.st.tvec ≠ 0 → (s.st.held = true → s.st.level = .user) →
     ∃ t, exec .trapEntry s = .next t ∧ t.st.hold = none ∧ t.st.level = .supervisor ∧ t.st.ppl = s.st.level ∧
       t.st.tcause = h.cause.zeroExtend 10 ∧ t.st.tval = h.tval ∧ t.st.tepc = h.tepc.truncate 56 ∧ t.st.pc = s.st.tvec ∧
       t.st.held = false ∧ s.keepsX t [] ∧ s.keepsV t [] ∧ s.keepsMemory t) ∧
   ∀ (s : State) (cause : BitVec 8) (tval : Word) (k : Nat), s.st.tvec ≠ 0 → s.st.held = false →
     (s.vectorTrap cause tval k).st.hold = none ∧ (s.vectorTrap cause tval k).st.vstart = BitVec.ofNat 12 k ∧
       (s.vectorTrap cause tval k).st.tepc = s.st.pc.truncate 56 ∧
       (s.vectorTrap cause tval k).st.tcause = 0x100 + cause.zeroExtend 10 ∧
       (s.vectorTrap cause tval k).st.image = s.st.queue)

/-- R125: `eret` at supervisor level waits until the handler's own queue is empty. The saved level and pc return and `held`
becomes 0; a held image goes back into the queue in its order, without its head where `skip` is set, which also clears
`vstart`. -/
def Obligations.EretReturns : Prop :=
  ∀ (s : State), s.st.level = .supervisor →
    (s.st.queue ≠ [] → exec .eret s = .next s.stall) ∧
    (s.st.queue = [] →
    ∃ t, exec .eret s = .next t ∧ t.st.level = s.st.ppl ∧ t.st.pc = s.st.tepc.signExtend 64 ∧ t.st.held = false ∧
      t.st.image = [] ∧
      t.st.queue.map QEntry.seq = (if s.st.held then
        (if s.st.skip then s.st.image.drop 1 else s.st.image).map QEntry.seq else []) ∧
      t.st.queue.map QEntry.instr = (if s.st.held then
        (if s.st.skip then s.st.image.drop 1 else s.st.image).map QEntry.instr else []) ∧
      t.st.vstart = (if s.st.held ∧ s.st.skip then 0 else s.st.vstart) ∧
      t.st.tcause = s.st.tcause ∧ t.st.tval = s.st.tval ∧ t.st.tepc = s.st.tepc ∧ t.st.tvec = s.st.tvec ∧
      s.keepsX t [] ∧ s.keepsV t [] ∧ t.st.vm = s.st.vm ∧ s.keepsModes t ∧ s.keepsTiles t ∧ s.keepsMemory t ∧
      ((s.st.held = true → s.st.skip = true → ∀ e ∈ s.st.image.take 1, e.scalar = 0) → s.keepsFlags t))

/-- R20: the privileged instructions, and every access to a control register 0x200 to 0x2FF, take trap 0x19 at user level,
with the instruction word in `tval`, whatever their operands; taking a trap enters supervisor level and saves the level,
and `eret` returns to it. -/
def Obligations.PrivilegeTraps : Prop :=
  (∀ (s : State) (i : Instr), s.st.level = .user →
    (i = .eret ∨ (∃ a, i = .ctxsv a) ∨ (∃ a, i = .ctxld a) ∨ (∃ o, i = .tlbinv o) ∨ (∃ o, i = .rdst o) ∨
      (∃ o : CrrOps, i = .crr o ∧ 0x200 ≤ o.idx.toNat ∧ o.idx.toNat ≤ 0x2FF) ∨
      ∃ o : CrOps, (i = .crw o ∨ i = .crs o ∨ i = .crc o) ∧ 0x200 ≤ o.idx.toNat ∧ o.idx.toNat ≤ 0x2FF) →
    exec i s = .next (s.trap 0x19 (wordOf i))) ∧
  (∀ (s : State) (side : Side) (cause : BitVec 8) (tval tepc : Word), s.st.tvec ≠ 0 → s.st.held = false →
    (s.takeTrap side cause tval tepc).st.level = .supervisor ∧ (s.takeTrap side cause tval tepc).st.ppl = s.st.level) ∧
  ∀ (s : State), s.st.level = .supervisor → s.st.queue = [] →
    ∃ t, exec .eret s = .next t ∧ t.st.level = s.st.ppl

/-- R28, R34, R37: a word at pc that is no instruction takes trap 0x01 with the word in `tval`, and a fetch that its
check refuses takes the trap of the check with the pc in `tval`, once no older vector instruction that writes memory, and so
may write what the walk reads, is queued (R97, R293).

R34: a word that is no instruction. The step takes the illegal-instruction step of the strand in focus. -/
def Obligations.UndecodedWordsTrap : Prop :=
  ((∀ (s : State) (w : IWord), s.fetchWord = some w → decodeWord w = none →
     exec .illegalInstruction s = .next (s.trap 0x01 (w.zeroExtend 64))) ∧
   ∀ (s : State) (c : BitVec 8) (span : Nat), s.fetchCheck = .bad c span →
     exec .instructionFetchFault s = .next (if ∃ e ∈ s.st.queue, writesMem e.instr = true then s.stall
       else s.trap c s.st.pc)) ∧
  (∀ (s : State) (w : IWord),
     s.inputs = [] → s.mgmt.trip = false → s.mgmt.recovery = false → s.mgmt.ready = true →
     s.st.decodes = true → s.st.asyncReady = false → s.walkBlocked s.st.pc = false → s.fetchWord = some w →
     decodeWord w = none →
     ∃ t, exec .illegalInstruction { s with args := {} } = .next t ∧
       step s = .next { t with args := {}, freeCount := t.freeCount + 1 })

/-- R121 to R123, R200, R346: an asynchronous trap is taken at the run-ahead point, the earliest that is not deferred
first, once each load in flight has delivered its value; the queue becomes the image, the head stopped where it
stands, with its tags written where `vstart` is not 0 (TRAP_ENTRY). A machine check is entered in the log of the die.
What a load does that has no value yet, because an older entry comes before it or its line is poisoned, is log entry
84, the model's choice: the strand goes back to it, to decode it again after the trap, with only loads older than it
left and the trap still pending; where the strand cannot go back, a load that reads a poisoned line leaves its
register poisoned. -/
def Obligations.AsynchronousTrapEntry : Prop :=
  ∀ (s : State) (p : Pending),
    s.st.pending.find? s.st.canTake = some p → s.st.run = .running → s.st.iter.ending = false →
    s.st.iter.streaming = false → s.st.restoring = false → s.st.hold = none →
    (∀ l rest, s.st.loads = l :: rest → s.heldBack l = false →
      exec .trapEntry s = .next s.returnLoad) ∧
    (∀ l rest, s.st.loads = l :: rest → s.heldBack l = true → s.st.canRewind l.seq = true →
      ∃ t, exec .trapEntry s = .next t ∧ t.st.pc = l.pc ∧ t.st.pending = s.st.pending ∧ ∀ x ∈ t.st.loads, x.seq < l.seq) ∧
    (∀ l rest line, s.st.loads = l :: rest → s.poisonAt l.addr l.place l.size = some line →
      s.st.canRewind l.seq = false → l.dest ≠ 0 →
      ∃ t, exec .trapEntry s = .next t ∧ t.st.loads = rest ∧ hasReg t.st.xpoison l.dest = true ∧
        t.st.pending = s.st.pending) ∧
    (s.st.loads = [] → s.st.tvec ≠ 0 → s.st.held = false →
    ∃ t, exec .trapEntry s = .next t ∧ t.st.pending = s.st.pending.erase p ∧ t.st.level = .supervisor ∧
      t.st.ppl = s.st.level ∧
      t.st.tcause.extractLsb' 0 8 = p.cause ∧ t.st.tcause.getLsbD 9 = true ∧ t.st.tval = p.tval ∧
      t.st.tepc = s.st.pc.truncate 56 ∧ t.st.pc = s.st.tvec ∧ t.st.image = s.st.queue ∧
      s.keepsX t [] ∧ (∀ r, t.st.vget r = s.st.vget r) ∧ s.keepsMemory t ∧ t.st.vstart = s.st.vstart ∧
      (s.st.vstart = 0 → s.keepsV t []) ∧
      (∀ e f, s.st.queue.head? = some e → formOf e = some f → f.grain ≠ 0 → s.st.vstart ≠ 0 →
        ∀ r, t.st.tag r = (s.st.commitTags e).tag r) ∧
      (p.cause = 0x13 → (t.die (dieOf s.cur)).mclog =
        (⟨0x13, s.cur, p.tval, s.st.pc, p.unit⟩ :: (s.die (dieOf s.cur)).mclog).take 16))

/-- R109, R110: `evpop` delivers the oldest record to xd where no older claim waits, and otherwise leaves xd empty with a
claim behind the older ones; `evn` counts the records that no claim has taken. -/
def Obligations.EventQueue : Prop :=
  (∀ (d : Reg) (s : State) (e : EvRec) (rest : List EvRec), s.usable [] [d] → s.st.claims = [] → s.st.events = e :: rest →
    ∃ t, exec (.evpop d) s = .next t ∧ t.st.xget d = (if d = 0 then 0 else e.word) ∧ t.st.isFull d = true ∧
      t.st.events = rest ++ s.st.notices.take (32 - rest.length) ∧ t.st.claims = [] ∧ t.st.pc = s.st.pc + 4 ∧ s.keepsRest t [d] []) ∧
  (∀ (d : Reg) (s : State), s.usable [] [d] → s.st.claims.length < 32 → (s.st.claims ≠ [] ∨ s.st.events = []) →
    ∃ t, exec (.evpop d) s = .next t ∧ t.st.claims = s.st.claims ++ [d] ∧ t.st.events = s.st.events ∧
      (d ≠ 0 → t.st.isFull d = false) ∧ t.st.pc = s.st.pc + 4 ∧ s.keepsRest t [d] []) ∧
  (∀ (d : Reg) (s : State), s.usable [] [d] → s.st.claims.length = 32 → exec (.evpop d) s = .next s.stall) ∧
  ∀ (d : Reg) (s : State), s.usable [] [d] →
    exec (.evn d) s = .next (s.setX d (BitVec.ofNat 64 s.st.events.length)).advance

/-- R111: `crit` opens a section and `critx` closes it; inside a section `crit`, `endit`, `yield`, `wait` and `vwait` take
trap 0x02, outside one `critx` does; the 4,097th instruction of a section takes trap 0x0E and ends it (CRIT_OVERRUN). A trap
taken inside a section suspends it, and cancellation stays pending until it ends.

R112, R113: `yield` advances where the core has a free slot, and `endit` stops decoding; what ends later is the
ITERATION_END of `IterationsAndRecordsEnd`. -/
def Obligations.CriticalSections : Prop :=
  ((∀ s : State, s.st.crit = false → ∃ t, exec .crit s = .next t ∧ t.st.crit = true ∧ t.st.critCount = 0 ∧
     t.st.pc = s.st.pc + 4 ∧ s.keepsRest t [] []) ∧
   (∀ s : State, s.st.crit = true → s.st.critSusp = false → ∃ t, exec .critx s = .next t ∧ t.st.crit = false ∧
     t.st.pc = s.st.pc + 4 ∧ s.keepsRest t [] []) ∧
   (∀ (s : State) (o : WaitOps) (i : Instr), s.st.crit = true → s.st.critSusp = false →
     i ∈ [Instr.crit, .endit, .yield, .wait o] → exec i s = .next (s.decodeTrap i 0x02)) ∧
   (∀ (s : State) (o : VWaitOps), s.st.crit = true → s.st.critSusp = false →
     exec (.vwait o) s = .next (s.decodeTrap (.vwait o) 0x02)) ∧
   (∀ s : State, s.st.crit = true → s.st.critSusp = true →
     exec .crit s = .next (s.decodeTrap .crit 0x02) ∧ exec .critx s = .next (s.decodeTrap .critx 0x02)) ∧
   (∀ s : State, s.st.crit = false → exec .critx s = .next (s.decodeTrap .critx 0x02)) ∧
   (∀ (s : State) (side : Side) (cause : BitVec 8) (tval tepc : Word), s.st.crit = true → s.st.tvec ≠ 0 →
     s.st.held = false → (s.takeTrap side cause tval tepc).st.crit = true ∧
       (s.takeTrap side cause tval tepc).st.critSusp = true ∧
       (s.takeTrap side cause tval tepc).st.critCount = s.st.critCount) ∧
   (∀ s : State, s.st.crit = true → (∀ p ∈ s.st.pending, p.cause = 0x17) → s.st.asyncReady = false) ∧
   ∀ (s : State) (w : IWord), s.st.crit = true → s.st.critSusp = false → 4096 ≤ s.st.critCount → s.fetchWord = some w →
     (s.st.queue ≠ [] ∨ s.st.loads ≠ [] → exec .critOverrun s = .next s.stall) ∧
     (s.st.queue = [] → s.st.loads = [] → s.st.tvec ≠ 0 → s.st.held = false →
     ∃ t, exec .critOverrun s = .next t ∧ t.st.crit = false ∧ t.st.tcause = 0x0E ∧ t.st.tval = w.zeroExtend 64 ∧
       t.st.tepc = s.st.pc.truncate 56 ∧ t.st.pc = s.st.tvec ∧ s.keepsX t [] ∧ s.keepsMemory t)) ∧
  ((∀ s : State, s.st.inSection = false → s.coreFull (coreOf s.cur) = false → exec .yield s = .next s.advance) ∧
   ∀ s : State, s.st.inSection = false → ∃ t, exec .endit s = .next t ∧ t.st.iter.ending = true ∧
     t.st.decodes = false ∧ t.st.queue = s.st.queue ∧ t.st.stores = s.st.stores ∧ t.st.pc = s.st.pc ∧ s.keepsRest t [] [])

/-- R114, R115, R322: `drain` completes once each queue that its mask names is empty, and waits until then: vq the vector
queue, sq stores and atomics, sm strips of output streams, ec engine commands and Pontoon items, eq claims of `evpop`.

R115, R316, R322: a fence completes once the older accesses that it orders are performed, and at scope `.st` at once.
`fence.acq` waits for reads on `ls`: loads, atomics, and vector entries that read there or take a snapshot; `fence.rel` and
`fence.full` also for stores; `fencex` for the accesses of its first class, for a command class the commands and items too,
until their events have arrived (R240, R336), and for `sm` the strips and the entries that use a stream. Accesses to host
memory are of class `ho` alone (R312): `fencex.ho` waits for them, for the commands and items that reach host memory, and
for the vector entries that touch memory, whose addresses are known only as they execute (log 97). -/
def Obligations.DrainsAndFences : Prop :=
  (∀ (s : State) (mask : Reg),
     let sq := s.st.stores = [] ∧ ∀ e ∈ s.st.queue, writesMem e.instr = false
     let ec := s.commandsOf s.st.iter.id = [] ∧ s.itemsOf s.st.iter.id = [] ∧ (∀ p ∈ s.posts, p.iter ≠ s.st.iter.id) ∧
       ∀ e ∈ s.st.queue, ∀ k, pathOf e.instr = some k → k < 2
     ((mask.getLsbD 0 = true → s.st.queue = []) → (mask.getLsbD 1 = true → sq) →
       (mask.getLsbD 2 = true → s.st.draining = false) → (mask.getLsbD 3 = true → ec) →
       (mask.getLsbD 4 = true → s.st.claims = []) → exec (.drain mask) s = .next s.advance) ∧
     (mask.getLsbD 0 = true → s.st.queue ≠ [] → exec (.drain mask) s = .next s.stall) ∧
     (mask.getLsbD 1 = true → ¬sq → exec (.drain mask) s = .next s.stall) ∧
     (mask.getLsbD 2 = true → s.st.draining = true → exec (.drain mask) s = .next s.stall) ∧
     (mask.getLsbD 3 = true → ¬ec → exec (.drain mask) s = .next s.stall) ∧
     (mask.getLsbD 4 = true → s.st.claims ≠ [] → exec (.drain mask) s = .next s.stall)) ∧
  ((∀ (s : State) (scope : BitVec 3),
     let queued := ∃ e ∈ s.st.queue, onLs e.instr = true
     let loads := ∃ l ∈ s.st.loads, l.place.isHost = false
     let reads := queued ∨ loads ∨ ∃ e ∈ s.st.stores, e.dest ≠ none
     let any := queued ∨ loads ∨ ∃ e ∈ s.st.stores, e.place.isHost = false
     (scope = 0 ∨ ¬reads → exec (.fenceAcq scope) s = .next s.advance) ∧
     (scope ≠ 0 → reads → exec (.fenceAcq scope) s = .next s.stall) ∧
     (scope = 0 ∨ ¬any → exec (.fenceRel scope) s = .next s.advance ∧ exec (.fenceFull scope) s = .next s.advance) ∧
     (scope ≠ 0 → any → exec (.fenceRel scope) s = .next s.stall ∧ exec (.fenceFull scope) s = .next s.stall)) ∧
   (∀ (s : State) (o : FencexOps),
     (o.scope = 0 ∨ s.classBusy o.c1.toNat = false → exec (.fencex o) s = .next s.advance) ∧
     (o.scope ≠ 0 → s.classBusy o.c1.toNat = true → exec (.fencex o) s = .next s.stall)) ∧
   ∀ (s : State),
     let queued := fun k => ∃ e ∈ s.st.queue, pathOf e.instr = some k
     let open_ := fun k => (∃ c ∈ s.commandsOf s.st.iter.id, c.engine.path = k) ∨
       ∃ p ∈ s.posts, p.iter = s.st.iter.id ∧ eventPath p.event.source = k
     let at_ := fun host : Bool => (∃ e ∈ s.st.stores, e.place.isHost = host) ∨ (∃ l ∈ s.st.loads, l.place.isHost = host)
     let strips := fun host : Bool => s.st.drainingAt fun p => p.isHost == host
     (s.classBusy 0 = true ↔ at_ false ∨ ∃ e ∈ s.st.queue, onLs e.instr = true) ∧ (s.classBusy 1 = true ↔ queued 1) ∧
     (s.classBusy 2 = true ↔ queued 2 ∨ s.itemsOf s.st.iter.id ≠ [] ∨ open_ 2) ∧
     (s.classBusy 3 = true ↔ queued 3 ∨ open_ 3) ∧ (s.classBusy 4 = true ↔ queued 4 ∨ open_ 4) ∧
     (s.classBusy 5 = true ↔ queued 5 ∨ open_ 5) ∧
     (s.classBusy 7 = true ↔ strips false = true ∨ s.st.queuedSm = true) ∧
     (s.classBusy 6 = true ↔ at_ true ∨ strips true = true ∨ s.st.queuedSm = true ∨
       (∃ e ∈ s.st.queue, touchesMem e.instr = true) ∨
       (∃ c ∈ s.commandsOf s.st.iter.id, ∃ x ∈ s.cmdSpans c, s.hostSpan x = true) ∨
       ∃ p ∈ s.clusters, ∃ i ∈ p.2.items, i.iter = s.st.iter.id ∧ ∃ x ∈ s.itemSpans p.1 i, s.hostSpan x = true))

/-- R116: `wait`, with the strand's older accesses performed, reads its word; where the condition holds it advances, and
otherwise the strand sleeps at its pc until the line is written (WAIT_WAKE), after which it reads again, or the time-out
passes (WTO_EXPIRY), after which it advances with no further access.

R279, R280: `bar` with nothing of the strand in flight, and no write of another that its arrival would bring with
it (R323); what an arrival leaves is said for no undo record of it (R349). The word at xa holds the arrivals below the
phase. An arrival that is not the last adds one and sleeps; the last clears the count, advances the phase and goes on;
an arrival beyond the number in xb, or a number outside 1 to 2³² − 1, takes trap 0x0B. The sleeper wakes once the
phase differs, and its `bar` decoded again then goes on. -/
def Obligations.WaitsAndBarriers : Prop :=
  ((∀ (o : WaitOps) (s : State), s.st.inSection = false → s.usable [o.a, o.b] [] → s.st.wto ≠ 0 → s.st.timedOut = true →
     exec (.wait o) s = .next s.advance) ∧
   (∀ (o : WaitOps) (s : State) (p : Place) (dAttr : Bool),
     let n := if o.wide then 8 else 4
     let a := s.st.xget o.a
     s.st.inSection = false → s.usable [o.a, o.b] [] → s.st.wto = 0 ∨ s.st.timedOut = false → s.st.queue = [] → s.st.stores = [] → s.st.loads = [] →
     s.check .read n n a = .ok p dAttr → s.poisonAt a p n = none →
     let v := ofBytes (s.placeBytes p n)
     let b := (s.st.xget o.b).toNat % 2 ^ (8 * n)
     let V := (BitVec.ofNat (8 * n) v).toInt
     let B := (BitVec.ofNat (8 * n) b).toInt
     let holds := (o.cond = 0 ∧ v = b) ∨ (o.cond = 1 ∧ v ≠ b) ∨ (o.cond = 2 ∧ v < b) ∨ (o.cond = 3 ∧ b ≤ v) ∨
       (o.cond = 4 ∧ V < B) ∨ (o.cond = 5 ∧ B ≤ V)
     (Instr.wait o).wf = true →
     (holds → exec (.wait o) s = .next s.advance) ∧
     (¬holds → ∃ t, exec (.wait o) s = .next t ∧ t.st.sleep = .word a ∧ t.st.decodes = false ∧ t.st.pc = s.st.pc ∧
       s.keepsRest t [] [])) ∧
   (∀ (s : State) (a : Word), s.st.sleep = .word a →
     (∃ t, exec .waitWake s = .next t ∧ t.st.sleep = .awake ∧ t.st.pc = s.st.pc ∧ s.keepsRest t [] []) ∧
     (s.st.wto ≠ 0 → s.args.flag = false → ∃ t, exec .wtoExpiry s = .next t ∧ t.st.sleep = .awake ∧ t.st.timedOut = true ∧
       t.st.pc = s.st.pc ∧ s.keepsRest t [] []) ∧
     (s.st.wto = 0 → exec .wtoExpiry s = .next s))) ∧
  ((∀ (o : BarOps) (s : State) (p : Place) (dA : Bool),
     let a := s.st.xget o.a
     let b := s.st.xget o.b
     let w := ofBytes (s.placeBytes p 8)
     let n := w % 2 ^ 32
     let phase := BitVec.ofNat 32 (w / 2 ^ 32)
     let arrives := fun (x : Nat) (then_ : State → Prop) => ∃ t, exec (.bar o) s = .next t ∧ Memory.wf t.mem = true ∧
       (s.noUndo p → then_ t ∧ (s.writable p → s.storesBytes t p (bytesOf 8 x) ∧ s.keepsStrand t [] []))
     s.st.inSection = false → s.usable [o.a, o.b] [] → s.st.queue = [] → s.st.stores = [] → s.classBusy 0 = false →
     s.barCheck a = .ok p dA → s.poisonAt a p 8 = none → Memory.wf s.mem = true →
     (s.flights = [] ∨ p.home (dieOf s.cur) = dieOf s.cur) →
     ((b = 0 ∨ 2 ^ 32 ≤ b.toNat) → exec (.bar o) s = .next (s.trap 0x0B a)) ∧
     (b ≠ 0 → b.toNat < 2 ^ 32 →
       ((∀ ph, s.st.mark ≠ some (a, ph)) →
         (b.toNat ≤ n → exec (.bar o) s =
           .next (((s.upd fun t => { t with mark := none }).crossed (dieOf s.cur) p).trap 0x0B a)) ∧
         (n + 1 < b.toNat → arrives (w + 1) fun t =>
           t.st.mark = some (a, phase) ∧ t.st.sleep = .barrier a phase ∧ t.st.pc = s.st.pc) ∧
         (n + 1 = b.toNat → arrives ((w / 2 ^ 32 + 1) % 2 ^ 32 * 2 ^ 32) fun t =>
           t.st.mark = none ∧ t.st.pc = s.st.pc + 4)) ∧
       ∀ ph, s.st.mark = some (a, ph) →
         (phase ≠ ph → ∃ t, exec (.bar o) s = .next t ∧ t.st.mark = none ∧ t.st.pc = s.st.pc + 4 ∧ s.keepsRest t [] []) ∧
         (phase = ph → ∃ t, exec (.bar o) s = .next t ∧ t.st.sleep = .barrier a ph ∧ t.st.pc = s.st.pc ∧
           s.keepsRest t [] []))) ∧
   ∀ (s : State) (a : Word) (ph : BitVec 32) (p : Place) (dA : Bool),
     s.st.sleep = .barrier a ph → s.barCheck a = .ok p dA →
     ∃ t, exec .barWake s = .next t ∧
       (t.st.sleep = .awake ↔ BitVec.ofNat 32 (ofBytes (s.placeBytes p 8) / 2 ^ 32) ≠ ph) ∧ t.st.pc = s.st.pc ∧
       s.keepsRest t [] [])

/-- R294: `tlbinv` waits for the strand's older stores, and for the accesses of its context that may have used a
translation it drops: those that a page of the address, of the size it had when they were translated, translates. Then
every translation of the context (select 1), or the one of the address (select 0), leaves the TLBs of every die, the
others stay, and nothing else changes; a select above 1 takes trap 0x02.

R351: `rdst` at supervisor level, with an empty queue, reads the selected word of device state into xd; a selector
with a reserved bit, die or class takes trap 0x02, a misaligned one trap 0x08, and one of another context's state trap
0x07. -/
def Obligations.SupervisorReads : Prop :=
  (∀ (o : DA) (s : State), s.st.level = .supervisor → s.usable [o.a, o.d] [] →
     let sel := s.st.xget o.d
     let va := (s.st.xget o.a).toNat % 2 ^ 56
     (1 < sel.toNat → exec (.tlbinv o) s = .next (s.decodeTrap (.tlbinv o) 0x02)) ∧
     let used := fun (b : Word) (n : Nat) => n ≠ 0 ∧ (sel = 1 ∨ b.toNat % 2 ^ 56 / n = va / n)
     let done := s.st.stores = [] ∧ (∀ e ∈ s.st.queue, writesMem e.instr = false) ∧
       ∀ t ∈ s.strandsOf s.st.ctx, (∀ e ∈ t.stores, ¬used e.addr e.page) ∧ (∀ l ∈ t.loads, ¬used l.addr l.page) ∧
         ∀ p ∈ t.streams, p.2.output = true → ∀ q ∈ p.2.buf, ∀ x ∈ q.places, ¬used x.1 x.2.2
     (sel.toNat ≤ 1 → ¬done → exec (.tlbinv o) s = .next s.stall) ∧
     (sel.toNat ≤ 1 → done →
       ∃ t, exec (.tlbinv o) s = .next t ∧ t.st.pc = s.st.pc + 4 ∧ s.keepsRest t [] [] ∧
         ∀ k, k ∈ s.dies.map Prod.fst → ∀ e,
           e ∈ (t.die k).tlb ↔ e ∈ (s.die k).tlb ∧
             ¬(e.ctx = s.st.ctx ∧ (sel = 1 ∨ e.vpage = va / e.pageSize)))) ∧
  (∀ (o : DA) (s : State), s.st.level = .supervisor → s.usable [o.a] [o.d] → s.st.queue = [] →
     let xa := s.st.xget o.a
     (xa.extractLsb' 48 16 ≠ 0 ∨ 4 < (xa.extractLsb' 45 3).toNat ∨ 6 < (xa.extractLsb' 40 5).toNat →
       exec (.rdst o) s = .next (s.decodeTrap (.rdst o) 0x02)) ∧
     (xa.extractLsb' 48 16 = 0 → (xa.extractLsb' 45 3).toNat ≤ 4 → (xa.extractLsb' 40 5).toNat ≤ 6 →
       (xa.extractLsb' 0 3 ≠ 0 → exec (.rdst o) s = .next (s.trap 0x08 xa)) ∧
       (xa.toNat = 0 → exec (.rdst o) s = .next (s.setX o.d (BitVec.ofNat 64 (s.die 0).corrected)).advance) ∧
       (∀ w, s.stateWord s.st.ctx false xa = .word (some s.st.ctx) w ∨ s.stateWord s.st.ctx false xa = .word none w →
         exec (.rdst o) s = .next (s.setX o.d w).advance) ∧
       ∀ c w, s.stateWord s.st.ctx false xa = .word (some c) w → c ≠ s.st.ctx →
         exec (.rdst o) s = .next (s.trap 0x07 xa)))

/-- R320, R321, R350: `chkpt` and `rollback` wait for the strand's older accesses. `chkpt` starts the next interval of
the context: the sequence number plus one goes to xd, and the log is empty; `rollback` in an interval that wrote
nothing only advances, and in an unrecoverable one takes trap 0x18.

R347, R349, R350: `rollback` puts the bytes of one logged line back: the line is the one that the first 8 bytes of
the undo record in memory name, under the skew with which it was logged, and after it the line reads as the second
line of the record holds it. A line that is not populated takes no write (log 98). A poisoned record is consumed as by
a scalar read of it, and nothing is put back (R342, R344).

R347 to R349: the undo log, seen by a scalar store to device memory with nothing of its strand in flight. Before the
interval's first write to a line the next record of the region is written: the line's physical address (here of a page
without skew), the sequence number, and the line's bytes as they were. A line that is logged already, and the region
itself, are not logged. A full region stops the log: `ulstat`[32] is set and a notice of source 7 goes to the strand that
started the interval, here the storing one. In every case the store is performed. -/
def Obligations.CheckpointAndRollback : Prop :=
  ((∀ (d : Reg) (s : State), s.usable [] [d] →
     let c := s.context s.st.ctx
     let done := s.st.stores = [] ∧ s.st.loads = [] ∧ ∀ e ∈ s.st.queue, touchesMem e.instr = false
     (¬done → exec (.chkpt d) s = .next s.stall ∧ exec .rollback s = .next s.stall) ∧
     (done → ∃ t, exec (.chkpt d) s = .next t ∧ t.st.xget d = (if d = 0 then 0 else (c.ulSeq + 1).zeroExtend 64) ∧
       (t.context s.st.ctx).ulSeq = c.ulSeq + 1 ∧ (t.context s.st.ctx).ulLog = [] ∧
       (t.context s.st.ctx).ulBad = false ∧ (t.context s.st.ctx).ulOn = true ∧ t.st.pc = s.st.pc + 4 ∧
       s.keepsRest t [d] []) ∧
     (done → c.ulBad = true → exec .rollback s = .next (s.trap 0x18 0)) ∧
     (done → c.ulBad = false → c.ulLog = [] → ∃ t, exec .rollback s = .next t ∧ t.st.pc = s.st.pc + 4 ∧
       s.keepsRest t [] [] ∧ (t.context s.st.ctx).ulLog = []))) ∧
  (∀ (s : State) (r : UndoRec), s.st.stores = [] → s.st.loads = [] → s.st.queue = [] → s.flights = [] →
     Memory.wf s.mem = true →
     (s.context s.st.ctx).ulBad = false → (s.context s.st.ctx).ulLog = [r] →
     (s.poison.contains (r.place / 64) = true ∨ s.poison.contains (r.data / 64) = true →
       ∃ line, exec .rollback s = .next (s.consume line)) ∧
     (s.poison.contains (r.place / 64) = false → s.poison.contains (r.data / 64) = false →
     let line := ofBytes (bytesAt (memGet s.mem) r.place 8) / 64 * 64
     ∃ t, exec .rollback s = .next t ∧ t.st.pc = s.st.pc + 4 ∧ (t.context s.st.ctx).ulLog = [] ∧ s.keepsStrand t [] [] ∧
       (populated line = false → s.keepsMemory t) ∧
       ∀ m, populated line = true → placeOfPhys r.skew line = .mem m →
         ∀ a, memGet t.mem a = if m ≤ a ∧ a < m + 64 then memGet s.mem (r.data + (a - m)) else memGet s.mem a)) ∧
  (∀ (o : MemOps) (s : State) (p : Nat) (dAttr : Bool),
     let n := 2 ^ o.ty.toNat
     let a := s.st.xget o.a + o.disp.signExtend 64 * BitVec.ofNat 64 n
     let c := s.context s.st.ctx
     let line := p / 64
     let bytes := bytesOf n (s.st.xget o.d).toNat
     s.usable [o.a, o.d] [] → s.pace = .lockstep → s.st.queue = [] → s.st.stores = [] → s.st.loads = [] → s.flights = [] →
     Memory.wf s.mem = true → s.check .write n n a = .ok (.mem p) dAttr → c.ulOn = true →
     p % 64 + n ≤ 64 →
     let stored := fun t : State => exec (.st o) s = .next t ∧ t.st.pc = s.st.pc + 4 ∧
       ∀ i, i < n → memGet t.mem (p + i) = bytes.getD i 0
     (∀ u q, s.inUndoRegion s.st.ctx a = false → c.ulBad = false → (∀ r ∈ c.ulLog, r.line ≠ line) →
       p < 5 * 2 ^ 49 → s.skewAt s.st.ctx a = 0 → s.undoPlace s.st.ctx c.ulLog.length = some (u, q) →
       u / 64 ≠ line → q / 64 ≠ line → u / 64 ≠ q / 64 → u % 64 = 0 → q % 64 = 0 →
       ∃ t, stored t ∧ ofBytes (bytesAt (memGet t.mem) u 8) = 64 * line ∧
         ofBytes (bytesAt (memGet t.mem) (u + 8) 4) = c.ulSeq.toNat ∧
         (∀ i, i < 64 → memGet t.mem (q + i) = memGet s.mem (64 * line + i)) ∧
         (t.context s.st.ctx).ulLog.map UndoRec.line = c.ulLog.map UndoRec.line ++ [line] ∧
         (t.context s.st.ctx).ulBad = false) ∧
     ((s.inUndoRegion s.st.ctx a = true ∨ c.ulBad = true ∨ ∃ r ∈ c.ulLog, r.line = line) →
       ∃ t, stored t ∧ (t.context s.st.ctx).ulLog = c.ulLog ∧ (t.context s.st.ctx).ulBad = c.ulBad ∧
         ∀ b, b < p ∨ p + n ≤ b → memGet t.mem b = memGet s.mem b) ∧
     (s.inUndoRegion s.st.ctx a = false → c.ulBad = false → (∀ r ∈ c.ulLog, r.line ≠ line) → p < 5 * 2 ^ 49 →
       s.undoPlace s.st.ctx c.ulLog.length = none → s.st.iter.work ≠ .none → s.st.iter.id = c.ulOwner →
       s.isSaved c.ulOwner = false → s.st.claims = [] → s.st.events.length < 32 →
       ∃ t, stored t ∧ (t.context s.st.ctx).ulBad = true ∧ (t.context s.st.ctx).ulLog = c.ulLog ∧
         t.st.events = s.st.events ++ [⟨0, 2, 0x18, 7, c.ulbase, 0⟩]))

/-- R127 to R129: `ctxsv` at supervisor level waits for what is older, then saves the strand into an area whose pages can
be written. The image, its stores and the claims leave the strand, and `held` becomes 0, with an undo log on or off. With
no undo log and no other write in flight, every x register, v register, flag, mode and tile is kept, and in an area whose
bytes lie apart the fields read as R128 and R129 lay them out, slot 0 zero also for an operand x0 (DESIGN CHOICE, log 79);
the slots of v registers that are not dirty keep what they held. An area that is not 4 KiB aligned takes trap 0x08.

R127 to R129: `ctxld` at supervisor level waits for its queue, a held image included (R122). A misaligned area takes
trap 0x08, one with a page that cannot be read the trap of the check, and one that breaks a rule of R129 trap 0x02, and
nothing is loaded. A legal area whose descriptors and stores pass their checks is loaded once its tiles are granted:
each field goes where R128 says, the slot of xa to `tscratch`, and `held` is 1 where the area holds an image. That the
area's claims become the strand's, whatever claims the handler's own `evpop` has waiting, is the model's choice (log 85). -/
def Obligations.SaveAndLoadContext : Prop :=
  (∀ (a : Reg) (s : State), s.st.level = .supervisor → s.usable [a] [] →
     let va := s.st.xget a
     let q := s.st.image
     (canonical va = true → va.toNat % 4096 ≠ 0 → exec (.ctxsv a) s = .next (s.trap 0x08 va)) ∧
     (va.toNat % 4096 = 0 → s.st.saveWaits = true → exec (.ctxsv a) s = .next s.stall) ∧
     ∀ ps : List AreaPage, va.toNat % 4096 = 0 → s.st.queue = [] → s.st.loads = [] → s.st.draining = false →
       (∀ e ∈ s.st.stores, ∃ k ∈ q.map QEntry.seq, e.after = some k) → s.st.xpoison = 0 → s.st.vpoison = [] →
       pagePlaces (fun x => s.check .write 1 4096 x) (s.skewSeen s.st.stores s.st.ctx) va areaPages 0 = .ok ps →
       ∃ t, exec (.ctxsv a) s = .next t ∧ t.st.pc = s.st.pc + 4 ∧ t.st.image = [] ∧ t.st.stores = [] ∧
         t.st.held = false ∧ t.st.claims = [] ∧ t.st.level = .supervisor ∧
         ((s.context s.st.ctx).ulOn = false → s.flights = [] → Memory.wf s.mem = true →
           (∀ e ∈ q, e.scalar = 0) → pagesApart ps →
           s.keepsX t [] ∧ s.keepsV t [] ∧ t.st.vm = s.st.vm ∧ s.keepsFlags t ∧ s.keepsModes t ∧ s.keepsTiles t ∧
           areaShows (t.areaReader ps) s.st (s.st.svKind true (some a) false) ∧
           (let rd := t.areaReader ps
            let was := fun i => ((areaPlace ps i).map s.placeByte).getD 0
            (∀ (r : Reg) i, s.st.vdirty.getLsbD r.toNat = false → i < 2048 →
              rd (0x6000 + 0x800 * r.toNat + i) 1 = (was (0x6000 + 0x800 * r.toNat + i)).toNat)))) ∧
  (∀ (a : Reg) (s : State), s.st.level = .supervisor → s.usable [a] [] →
     let va := s.st.xget a
     (canonical va = true → va.toNat % 4096 ≠ 0 → exec (.ctxld a) s = .next (s.trap 0x08 va)) ∧
     (va.toNat % 4096 = 0 → s.st.loadWaits = true → exec (.ctxld a) s = .next s.stall) ∧
     (∀ c x, va.toNat % 4096 = 0 → s.st.loadWaits = false →
       pagePlaces (fun x => s.check .read 1 4096 x) (s.skewSeen s.st.stores s.st.ctx) va areaPages 0 = .error (c, x) →
       exec (.ctxld a) s = .next (s.trap c x)) ∧
     ∀ ps : List AreaPage, va.toNat % 4096 = 0 → s.st.loadWaits = false →
       pagePlaces (fun x => s.check .read 1 4096 x) (s.skewSeen s.st.stores s.st.ctx) va areaPages 0 = .ok ps →
       s.areaPoison va ps (s.areaReader ps) = none →
       let rd := s.areaReader ps
       (areaLegal rd = false → exec (.ctxld a) s = .next (s.decodeTrap (.ctxld a) 0x02)) ∧
       ∀ u : Strand, areaLegal rd = true → s.loadArea rd (some a) none = .ok u →
         (s.st.stores.filter fun e => e.after.isNone).length + rd 0x11 1 ≤ 16 → s.st.tonPend = none →
         (rd 0x16 1 ≠ 0 →
           (s.upd fun t => { t with tonOwned := 0, vdirty := t.vdirty &&& 0xFFFFFFFF }).canGrant (rd 0x16 1) s.stamp = true) →
         ∃ t, exec (.ctxld a) s = .next t ∧ t.st.pc = s.st.pc + 4 ∧ t.st.level = .supervisor ∧ t.st.skip = s.st.skip ∧
           s.keepsMemory t ∧ t.st.tepc = BitVec.ofNat 56 (rd 0x00 8) ∧
           (t.st.ppl = .supervisor ↔ (rd 0x13 1).testBit 0 = true) ∧ t.st.held = decide (0 < rd 0x10 1) ∧
           t.st.image.length = rd 0x10 1 ∧ t.st.crit = (rd 0x13 1).testBit 1 ∧ t.st.vlFull = (rd 0x13 1).testBit 2 ∧
           t.st.critCount = rd 0x14 2 ∧ t.st.tonOwned = BitVec.ofNat 3 (rd 0x16 1) ∧
           t.st.mark = (if (rd 0x13 1).testBit 3 then
             some (BitVec.ofNat 64 (rd 0x28 8), BitVec.ofNat 32 (rd 0x30 4)) else none) ∧
           t.st.tscratch = BitVec.ofNat 64 (rd (0x100 + 8 * a.toNat) 8) ∧
           (∀ r : Reg, r ≠ 0 → (∀ i, i < rd 0x12 1 → rd (0x40 + i) 1 ≠ r.toNat) →
             (r = a → t.st.xget r = va) ∧
             (r ≠ a → t.st.xget r = BitVec.ofNat 64 (rd (0x100 + 8 * r.toNat) 8) ∧
               t.st.isFull r = (rd 0x18 4).testBit r.toNat)) ∧
           (∀ i, i < 0x80 → i ≠ 0x006 → i ≠ 0x007 → i ≠ 0x01C →
             t.st.crLow i = BitVec.ofNat 64 (rd (0x200 + 8 * i) 8)) ∧
           (∀ (k : Nat) (e : QEntry), t.st.image[k]? = some e →
             decodeWord (BitVec.ofNat 32 (rd (0x1000 + 64 * k) 4)) = some e.instr ∧
             e.pc = BitVec.ofNat 64 (rd (0x1008 + 64 * k) 8) ∧ e.a = BitVec.ofNat 64 (rd (0x1010 + 64 * k) 8) ∧
             e.b = BitVec.ofNat 64 (rd (0x1018 + 64 * k) 8) ∧ e.d = BitVec.ofNat 64 (rd (0x1020 + 64 * k) 8) ∧
             e.vs = BitVec.ofNat 64 (rd (0x1028 + 64 * k) 8) ∧ e.vl = BitVec.ofNat 12 (rd (0x1030 + 64 * k) 2)) ∧
           (∀ r : Reg, r.toNat < 24 →
             let dirty := (rd 0x228 8).testBit r.toNat
             t.st.vget r = (if dirty then BitVec.ofNat 16384 (rd (0x6000 + 0x800 * r.toNat) 2048) else 0) ∧
             hasReg t.st.vfull r = (if dirty then (rd 0x1C 4).testBit r.toNat else true)) ∧
           (s.st.events = [] → s.st.notices = [] →
             t.st.claims.map BitVec.toNat = (List.range (rd 0x12 1)).map fun i => rd (0x40 + i) 1))

/-! ## Vector instructions -/

/-- R140, R145, R147: the vector integer instructions, `vsel` and `vmv`, of a quiet strand. Each enabled element below `vl`
becomes the result of its operation at the element's width, the others are kept, and nothing else changes but the pc and
the tag of vd, which becomes plain. -/
def Obligations.VectorIntegerResults : Prop :=
  (∀ k, srcb 0 k = k ∧ srcb 4 k = 0 ∧ srcb 5 k = k % 4 ∧ srcb 6 k = k % 16 ∧ srcb 7 k = k % 64) ∧
  (∀ (o : VOps) (s : State),
    let w := 8 * 2 ^ o.ty.toNat
    s.quiet → s.vlFits w → (o.rep = 0 ∨ o.d ≠ o.b) →
    let A := fun k => BitVec.ofNat w (s.elem o.a w k)
    let B := fun k => BitVec.ofNat w (s.elem o.b w (srcb o.rep k))
    let D := fun k => BitVec.ofNat w (s.elem o.d w k)
    let done := fun (i : Instr) (f : Nat → BitVec w) =>
      ∃ t, exec i s = .next t ∧ s.lanesAre t o.d w o.m (fun k => (f k).toNat) ∧ t.st.tag o.d = 0 ∧
        s.vectorDone t [] [o.d] ∧ t.st.vm = s.st.vm ∧ s.keepsFlags t
    done (.vadd o) (fun k => A k + B k) ∧ done (.vsub o) (fun k => A k - B k) ∧
    done (.vand o) (fun k => A k &&& B k) ∧ done (.vor o) (fun k => A k ||| B k) ∧
    done (.vxor o) (fun k => A k ^^^ B k) ∧
    done (.vshl o) (fun k => A k <<< ((B k).toNat % w)) ∧ done (.vshr o) (fun k => A k >>> ((B k).toNat % w)) ∧
    done (.vsar o) (fun k => (A k).sshiftRight ((B k).toNat % w)) ∧
    done (.vmul o) (fun k => A k * B k) ∧
    done (.vmulh o) (fun k => ((A k).signExtend (2 * w) * (B k).signExtend (2 * w)).extractLsb' w w) ∧
    done (.vmulhn o) (fun k => ((A k).zeroExtend (2 * w) * (B k).zeroExtend (2 * w)).extractLsb' w w) ∧
    done (.vmin o) (fun k => if (A k).slt (B k) then A k else B k) ∧
    done (.vmax o) (fun k => if (A k).slt (B k) then B k else A k) ∧
    done (.vminn o) (fun k => if (A k).ult (B k) then A k else B k) ∧
    done (.vmaxn o) (fun k => if (A k).ult (B k) then B k else A k) ∧
    done (.vmac o) (fun k => D k + A k * B k)) ∧
  (∀ (o : VSelOps) (s : State),
    let w := 8 * 2 ^ o.ty.toNat
    s.quiet → s.vlFits w → (o.rep = 0 ∨ o.d ≠ o.b) →
    ∃ t, exec (.vsel o) s = .next t ∧
      s.lanesAre t o.d w false
        (fun k => if s.st.vm.getLsbD k then s.elem o.a w k else s.elem o.b w (srcb o.rep k)) ∧
      t.st.tag o.d = 0 ∧ s.vectorDone t [] [o.d] ∧ t.st.vm = s.st.vm ∧ s.keepsFlags t) ∧
  ∀ (o : VUn) (s : State),
    let w := 8 * 2 ^ o.ty.toNat
    s.quiet → s.vlFits w →
    ∃ t, exec (.vmv o) s = .next t ∧ s.lanesAre t o.d w o.m (fun k => s.elem o.a w k) ∧
      t.st.tag o.d = 0 ∧ s.vectorDone t [] [o.d] ∧ t.st.vm = s.st.vm ∧ s.keepsFlags t

/-- R71, R146: the compares write the bits of `vm` for the enabled elements below `vl` and keep its other bits. The integer
compares raise nothing; the floating ones read their elements under `fz` and raise what R71 says. -/
def Obligations.VectorCompareResults : Prop :=
  ∀ (o : VCmpOps) (s : State), s.quiet →
    (let w := 8 * 2 ^ o.ty.toNat
     s.vlFits w →
      let A := fun k => BitVec.ofNat w (s.elem o.a w k)
      let B := fun k => BitVec.ofNat w (s.elem o.b w (srcb o.rep k))
      let done := fun (i : Instr) (f : Nat → Bool) =>
        ∃ t, exec i s = .next t ∧ s.maskIs t o.m f ∧ s.vectorDone t [] [] ∧ s.keepsFlags t
      done (.vseq o) (fun k => decide (A k = B k)) ∧ done (.vsne o) (fun k => decide (A k ≠ B k)) ∧
      done (.vslt o) (fun k => (A k).slt (B k)) ∧ done (.vsltn o) (fun k => (A k).ult (B k)) ∧
      done (.vsle o) (fun k => (A k).sle (B k)) ∧ done (.vslen o) (fun k => (A k).ule (B k))) ∧
    (let F := fmtOf o.ty
     s.vlFits F.width →
      let A := fun k => readF F s.st.fz (s.elem o.a F.width k)
      let B := fun k => readF F s.st.fz (s.elem o.b F.width (srcb o.rep k))
      let done := fun (i : Instr) (f : Nat → Bool × FFlags) =>
        ∃ t, exec i s = .next t ∧ s.maskIs t o.m (fun k => (f k).1) ∧ s.flagsGain t o.m (fun k => (f k).2) ∧
          s.vectorDone t [] []
      done (.vfeq o) (fun k => quietCmp (fun c => c == 0) (A k) (B k)) ∧
      done (.vfne o) (fun k => (!(quietCmp (fun c => c == 0) (A k) (B k)).1, (quietCmp (fun c => c == 0) (A k) (B k)).2)) ∧
      done (.vflt o) (fun k => signallingCmp (fun c => decide (c < 0)) (A k) (B k)) ∧
      done (.vfle o) (fun k => signallingCmp (fun c => decide (c ≤ 0)) (A k) (B k)) ∧
      done (.vfunord o) (fun k => ((A k).isNan || (B k).isNan,
        if A k = .nan true ∨ B k = .nan true then (1 : FFlags) else 0)))

/-- R69 to R74, R148, R149: vector floating arithmetic, one element at a time. Elements are read under `fz`, rounded under
`frm` where the form rounds, and the flags of the enabled elements enter with the lowest index of each. -/
def Obligations.VectorFloatingResults : Prop :=
  (∀ (o : VOps) (s : State),
    let F := fmtOf o.ty
    let w := F.width
    let rm := s.st.frm
    let fz := s.st.fz
    s.quiet → s.vlFits w → (o.rep = 0 ∨ o.d ≠ o.b) →
    let a := fun k => s.elem o.a w k
    let b := fun k => s.elem o.b w (srcb o.rep k)
    let A := fun k => readF F fz (a k)
    let B := fun k => readF F fz (b k)
    let D := fun k => readF F fz (s.elem o.d w k)
    let done := fun (i : Instr) (f : Nat → Nat × FFlags) =>
      ∃ t, exec i s = .next t ∧ s.lanesAre t o.d w o.m (fun k => (f k).1) ∧ s.flagsGain t o.m (fun k => (f k).2) ∧
        t.st.tag o.d = 0 ∧ s.vectorDone t [] [o.d] ∧ t.st.vm = s.st.vm
    (rm ≠ 4 →
      done (.vfadd o) (fun k => addF F rm fz (A k) (B k)) ∧ done (.vfsub o) (fun k => subF F rm fz (A k) (B k)) ∧
      done (.vfmul o) (fun k => mulF F rm fz (A k) (B k)) ∧ done (.vfdiv o) (fun k => divF F rm fz (A k) (B k)) ∧
      done (.vfmac o) (fun k => fmaF F rm fz (D k) (A k) (B k)) ∧
      done (.vfnmac o) (fun k => fnmaF F rm fz (D k) (A k) (B k))) ∧
    done (.vfmin o) (fun k => minmaxF F fz false (a k) (b k)) ∧
    done (.vfmax o) (fun k => minmaxF F fz true (a k) (b k))) ∧
  ∀ (o : VUn) (s : State),
    let F := fmtOf o.ty
    let w := F.width
    s.quiet → s.vlFits w →
    let a := fun k => s.elem o.a w k
    let A := fun k => readF F s.st.fz (a k)
    let done := fun (i : Instr) (f : Nat → Nat × FFlags) =>
      ∃ t, exec i s = .next t ∧ s.lanesAre t o.d w o.m (fun k => (f k).1) ∧ s.flagsGain t o.m (fun k => (f k).2) ∧
        t.st.tag o.d = 0 ∧ s.vectorDone t [] [o.d] ∧ t.st.vm = s.st.vm
    (s.st.frm ≠ 4 → done (.vfsqrt o) (fun k => sqrtF F s.st.frm s.st.fz (A k)) ∧
      done (.vfrint o) (fun k => rintF F s.st.frm s.st.fz (A k))) ∧
    done (.vfabs o) (fun k => (a k % 2 ^ (w - 1), 0)) ∧ done (.vfneg o) (fun k => (a k ^^^ 2 ^ (w - 1), 0)) ∧
    done (.vfclass o) (fun k => (classF F (a k), 0))

/-- R67, R69, R70, R80, R150 to R154: the vector conversions between formats, the block forms and the narrowing with
error feedback. Elements are read under `fz` and rounded under `frm`, which may be 4 where the form never rounds; `vqnt`
and the block form of `vnef` form blocks by R79. A residual of that form is the value itself where its mantissa is zero
(R80), and else +0 where the difference is zero (DESIGN CHOICE, log 89: R80 states no sign there). -/
def Obligations.VectorConversions : Prop :=
  (∀ (o : VCvtOps) (s : State),
    let S := fmtOf o.other
    let F := fmtOf o.ty
    s.quiet → s.vlFits (max S.width F.width) → (S.width = F.width ∨ o.d ≠ o.a) →
    (s.st.frm ≠ 4 ∨ widens o.other o.ty = true) →
    let f := fun k => convertF F s.st.frm s.st.fz (readF S s.st.fz (s.elem o.a S.width k))
    ∃ t, exec (.vcvt o) s = .next t ∧ s.lanesAre t o.d F.width o.m (fun k => (f k).1) ∧
      s.flagsGain t o.m (fun k => (f k).2) ∧ t.st.tag o.d = 0 ∧ s.vectorDone t [] [o.d] ∧ t.st.vm = s.st.vm) ∧
  (∀ (o : VCvtiOps) (s : State),
    let F := fmtOf o.ty
    let w := 8 * 2 ^ o.other.toNat
    s.quiet → s.vlFits (max F.width w) → (F.width = w ∨ o.d ≠ o.a) →
    let int := fun k => if o.uns then ((s.elem o.a w k : Nat) : Int) else (BitVec.ofNat w (s.elem o.a w k)).toInt
    let into := fun k => fromInt F s.st.frm false (int k)
    let from_ := fun k => toIntF s.st.frm w o.uns (readF F s.st.fz (s.elem o.a F.width k))
    (s.st.frm ≠ 4 ∨ intExact o.other o.ty = true →
      ∃ t, exec (.vcvtif o) s = .next t ∧ s.lanesAre t o.d F.width o.m (fun k => (into k).1) ∧
      s.flagsGain t o.m (fun k => (into k).2) ∧ t.st.tag o.d = 0 ∧ s.vectorDone t [] [o.d] ∧ t.st.vm = s.st.vm) ∧
    (s.st.frm ≠ 4 → ∃ t, exec (.vcvtfi o) s = .next t ∧ s.lanesAre t o.d w o.m (fun k => (BitVec.ofInt w (from_ k).1).toNat) ∧
      s.flagsGain t o.m (fun k => (from_ k).2) ∧ t.st.tag o.d = 0 ∧ s.vectorDone t [] [o.d] ∧ t.st.vm = s.st.vm)) ∧
  (∀ (o : VQOps) (s : State),
    let F := fmtOf o.ty
    let b := o.rep.toNat + 1
    let n := 496 / b
    let vl := s.st.vl.toNat
    s.quiet → s.vlFits F.width → o.rep ≠ 0 →
    let value := fun k => readF F s.st.fz (s.elem o.a F.width k)
    (∃ t, exec (.vqnt o) s = .next t ∧
      (∀ j, j < 32 → t.elem o.d 512 j = if j * n < vl then
        (quantBlock b ((List.range (min n (vl - j * n))).map fun i => value (j * n + i)) []).1 % 2 ^ 512
        else s.elem o.d 512 j) ∧
      t.st.tag o.d = 0 ∧ s.vectorDone t [] [o.d] ∧ t.st.vm = s.st.vm) ∧
    (s.st.frm ≠ 4 → (∀ j, j * n < vl → s.elem o.a 512 j % 256 = b ∨ s.elem o.a 512 j % 256 = 0xFF) →
      let f := fun k => roundF F s.st.frm s.st.fz (blockValue (s.elem o.a 512 (k / n)) (k % n))
      ∃ t, exec (.vwid o) s = .next t ∧ s.lanesAre t o.d F.width false (fun k => (f k).1) ∧
        s.flagsGain t false (fun k => (f k).2) ∧ t.st.tag o.d = 0 ∧ s.vectorDone t [] [o.d] ∧ t.st.vm = s.st.vm)) ∧
  ∀ (o : VNefOps) (s : State),
    let vl := s.st.vl.toNat
    let rm := s.st.frm
    let value := fun k => readF f32 s.st.fz (s.elem o.a 32 k)
    s.quiet → s.vlFits 32 → o.d ≠ o.a → o.d ≠ o.ve → o.a ≠ o.ve →
    (o.rep = 0 → rm ≠ 4 →
      let f := fun k => narrow16 rm s.st.fz (value k)
      ∃ t, exec (.vnef o) s = .next t ∧ s.lanesAre t o.d 16 o.m (fun k => (f k).1) ∧
        s.lanesAre t o.ve 32 o.m (fun k => residual rm (value k) (unpack bf16 (f k).1)) ∧
        s.flagsGain t o.m (fun k => (f k).2) ∧ t.st.tag o.d = 0 ∧ t.st.tag o.ve = 0 ∧
        s.vectorDone t [] [o.d, o.ve] ∧ t.st.vm = s.st.vm) ∧
    (o.rep ≠ 0 →
      let b := o.rep.toNat + 1
      let n := 496 / b
      ∃ t, exec (.vnef o) s = .next t ∧
        (∀ j, j < 32 → t.elem o.d 512 j = if j * n < vl then
          (quantBlock b ((List.range (min n (vl - j * n))).map fun i => value (j * n + i)) []).1 % 2 ^ 512
          else s.elem o.d 512 j) ∧
        s.lanesAre t o.ve 32 false (fun k => blockResidual (value k) (blockValue (t.elem o.d 512 (k / n)) (k % n))) ∧
        t.st.tag o.d = 0 ∧ t.st.tag o.ve = 0 ∧ s.vectorDone t [] [o.d, o.ve] ∧ t.st.vm = s.st.vm)

/-- R86, R155, R156: the reductions and scans. Into a v register each segment's result goes to its first element and the
other elements are kept; into an x register the first segment's result goes, extended from its width; a scan gives every
enabled element the running result of its segment. A segment with no enabled element gives the empty value. Integer results
are the fold of the enabled elements and raise nothing; floating elements enter under `fz` with every NaN as the
canonical one, are combined by the tree of R86, and a signalling NaN raises NV wherever it stands (R65, R69, R71), also in
a segment whose result a scalar reduction does not deliver (DEDUCED, log 16).

R137: the segments of the elements below `vl` follow each other from 0 to `vl` without a gap, and a segment begins at
element 0 and at each element whose bit of `vsg` is set, and nowhere else. -/
def Obligations.ReductionsAndScans : Prop :=
  (∀ (o : VRedOps) (s : State), s.quiet →
     let segs := segmentsOf s.st.vsg s.st.vl.toNat
     let vector := fun (i : Instr) (w : Nat) (result : Nat → Nat → Nat) (flags : State → Prop) => o.xdst = false → o.scan = false →
       ∃ t, exec i s = .next t ∧ (∀ e n, (e, n) ∈ segs → t.elem o.d w e = result e n % 2 ^ w) ∧
         (∀ k, k < vlmaxOf w → (∀ n, (k, n) ∉ segs) → t.elem o.d w k = s.elem o.d w k) ∧ flags t ∧
         t.st.tag o.d = 0 ∧ s.vectorDone t [] [o.d] ∧ t.st.vm = s.st.vm
     let scalar := fun (i : Instr) (result : Nat → Nat → Word) (flags : State → Prop) => o.xdst = true → s.usable [] [o.d] →
       ∃ t, exec i s = .next t ∧ (∀ n, (0, n) ∈ segs → t.st.xget o.d = if o.d = 0 then 0 else result 0 n) ∧
         t.st.isFull o.d = true ∧ flags t ∧ s.vectorDone t [o.d] [] ∧ t.st.vm = s.st.vm
     let scan := fun (i : Instr) (w : Nat) (inp : Nat → Nat) (op : Nat → Nat → Nat) (flags : State → Prop) => o.xdst = false → o.scan = true →
       ∃ t, exec i s = .next t ∧
         (∀ e n k, (e, n) ∈ segs → e ≤ k → k < e + n → s.st.on o.m k = true →
           t.elem o.d w k = s.foldOf inp o.m o.a w op 0 e (k + 1 - e) % 2 ^ w) ∧ flags t ∧
         (∀ k, k < vlmaxOf w → (s.st.on o.m k = false ∨ s.st.vl.toNat ≤ k) → t.elem o.d w k = s.elem o.d w k) ∧
         t.st.tag o.d = 0 ∧ s.vectorDone t [] [o.d] ∧ t.st.vm = s.st.vm
     (let w := 8 * 2 ^ o.ty.toNat
      s.vlFits w →
       let toS := fun x : Nat => (BitVec.ofNat w x).signExtend 64
       let toU := fun x : Nat => BitVec.ofNat 64 (x % 2 ^ w)
       let S := fun x : Nat => (BitVec.ofNat w x).toInt
       let all := fun (i : Instr) (op : Nat → Nat → Nat) (empty : Nat) (ext : Nat → Word) =>
         let fold := fun e n => s.foldOf id o.m o.a w op empty e n
         vector i w fold s.keepsFlags ∧ scalar i (fun e n => ext (fold e n)) s.keepsFlags ∧ scan i w id op s.keepsFlags
       all (.vrsum o) (fun a b => (a + b) % 2 ^ w) 0 toS ∧
       all (.vrmax o) (fun a b => if S a ≤ S b then b else a) (2 ^ (w - 1)) toS ∧
       all (.vrmin o) (fun a b => if S a ≤ S b then a else b) (2 ^ (w - 1) - 1) toS ∧
       all (.vrmaxn o) max 0 toU ∧ all (.vrminn o) min (2 ^ w - 1) toU) ∧
     (let F := fmtOf o.ty
      let w := F.width
      s.vlFits w →
       let fz := s.st.fz
       let all := fun (i : Instr) (c : Nat → Nat → Nat × FFlags) (empty : Nat) =>
         let inp := fun x => if (readF F fz x).isNan then F.nan else flushed F fz x
         let tree := fun e n => ((redTree c 12 ((List.range n).map fun j =>
           if s.st.on o.m (e + j) then some (inp (s.elem o.a w (e + j))) else none)).1.getD empty)
         let nv := fun t : State => ∀ k, k < s.st.vl.toNat → s.st.on o.m k = true →
           readF F fz (s.elem o.a w k) = .nan true → t.st.fflags.getLsbD 0 = true
         vector i w tree nv ∧ scalar i (fun e n => BitVec.ofNat 64 (tree e n)) nv ∧ scan i w inp (fun a b => (c a b).1) nv
       (s.st.frm ≠ 4 → all (.vrfsum o) (fun a b => addF F s.st.frm fz (readF F fz a) (readF F fz b)) 0) ∧
       all (.vrfmax o) (fun a b => minmaxF F fz true a b) (packInf F true) ∧
       all (.vrfmin o) (fun a b => minmaxF F fz false a b) (packInf F false))) ∧
  (∀ (vsg : MaskReg) (vl : Nat), vl ≤ 2048 →
     ((segmentsOf vsg vl).map Prod.snd).sum = vl ∧
     (∀ k, k < vl → ((∃ n, (k, n) ∈ segmentsOf vsg vl) ↔ k = 0 ∨ vsg.getLsbD k = true)) ∧
     ∀ k n, (k, n) ∈ segmentsOf vsg vl → 0 < n ∧ k + n ≤ vl ∧ (∀ j, k < j → j < k + n → vsg.getLsbD j = false) ∧
       (k + n < vl → vsg.getLsbD (k + n) = true))

/-- R157, R158: compress, expand, slides, `vperm` and the counts of `vm`. Encodings are copied bit for bit, and nothing is
raised.

R159: the mask instructions, on the bits below `vl`; the bits of `vm`, or of vd for `vmst`, from `vl` on are kept. -/
def Obligations.PermutesMasksAndCounts : Prop :=
  ((∀ (o : TUn) (s : State),
     let w := 8 * 2 ^ o.ty.toNat
     let below := fun e => (List.range e).countP (s.st.vm.getLsbD ·)
     s.quiet → s.vlFits w → o.d ≠ o.a →
     (∃ t, exec (.vcompress o) s = .next t ∧
       (∀ e, e < s.st.vl.toNat → s.st.vm.getLsbD e = true → t.elem o.d w (below e) = s.elem o.a w e) ∧
       (∀ k, below s.st.vl.toNat ≤ k → k < vlmaxOf w → t.elem o.d w k = s.elem o.d w k) ∧
       t.st.tag o.d = 0 ∧ s.vectorDone t [] [o.d] ∧ t.st.vm = s.st.vm ∧ s.keepsFlags t) ∧
     ∃ t, exec (.vexpand o) s = .next t ∧ s.lanesAre t o.d w true (fun k => s.elem o.a w (below k)) ∧
       t.st.tag o.d = 0 ∧ s.vectorDone t [] [o.d] ∧ t.st.vm = s.st.vm ∧ s.keepsFlags t) ∧
   (∀ (o : VSlideOps) (s : State),
     let w := 8 * 2 ^ o.ty.toNat
     let x := (s.st.xget o.b).toNat
     let vl := s.st.vl.toNat
     s.quiet → s.vlFits w → s.usable [o.b] [] →
     (∃ t, exec (.vslideup o) s = .next t ∧
       (∀ k, k < vlmaxOf w → t.elem o.d w k =
         if k < vl ∧ s.st.on o.m k = true ∧ x ≤ k then s.elem o.a w (k - x) else s.elem o.d w k) ∧
       t.st.tag o.d = 0 ∧ s.vectorDone t [] [o.d] ∧ t.st.vm = s.st.vm ∧ s.keepsFlags t) ∧
     ∃ t, exec (.vslidedn o) s = .next t ∧
       s.lanesAre t o.d w o.m (fun k => if k + x < vl then s.elem o.a w (k + x) else 0) ∧
       t.st.tag o.d = 0 ∧ s.vectorDone t [] [o.d] ∧ t.st.vm = s.st.vm ∧ s.keepsFlags t) ∧
   (∀ (o : VOps) (s : State),
     let w := 8 * 2 ^ o.ty.toNat
     let i := fun k => s.elem o.b w (srcb o.rep k)
     s.quiet → s.vlFits w → (o.rep = 0 ∨ o.d ≠ o.b) →
     ∃ t, exec (.vperm o) s = .next t ∧
       s.lanesAre t o.d w o.m (fun k => if i k < s.st.vl.toNat then s.elem o.a w (i k) else 0) ∧
       t.st.tag o.d = 0 ∧ s.vectorDone t [] [o.d] ∧ t.st.vm = s.st.vm ∧ s.keepsFlags t) ∧
   ∀ (d : Reg) (s : State), s.quiet → s.vlFits 8 → s.usable [] [d] →
     (∃ t, exec (.vmpopc d) s = .next t ∧
       t.st.xget d = (if d = 0 then 0 else BitVec.ofNat 64 ((List.range s.st.vl.toNat).countP (s.st.vm.getLsbD ·))) ∧
       t.st.isFull d = true ∧ s.vectorDone t [d] [] ∧ t.st.vm = s.st.vm ∧ s.keepsFlags t) ∧
     ∃ t, exec (.vmfirst d) s = .next t ∧
       (∀ e, e < s.st.vl.toNat → s.st.vm.getLsbD e = true → (∀ j, j < e → s.st.vm.getLsbD j = false) →
         t.st.xget d = if d = 0 then 0 else BitVec.ofNat 64 e) ∧
       ((∀ e, e < s.st.vl.toNat → s.st.vm.getLsbD e = false) → t.st.xget d = if d = 0 then 0 else -1) ∧
       t.st.isFull d = true ∧ s.vectorDone t [d] [] ∧ t.st.vm = s.st.vm ∧ s.keepsFlags t) ∧
  ((∀ (o : AOps) (s : State), s.quiet → s.vlFits 8 →
     let A := fun k => (s.st.vget o.a).getLsbD k
     let M := fun k => s.st.vm.getLsbD k
     let done := fun (i : Instr) (f : Nat → Bool) =>
       ∃ t, exec i s = .next t ∧ s.maskIs t false f ∧ s.vectorDone t [] [] ∧ s.keepsFlags t
     done (.vmld o) A ∧ done (.vmand o) (fun k => M k && A k) ∧ done (.vmor o) (fun k => M k || A k) ∧
     done (.vmxor o) (fun k => M k != A k) ∧ done .vmnot (fun k => !M k) ∧ done .vmset (fun _ => true)) ∧
   (∀ (d : Reg) (s : State), s.quiet → s.vlFits 8 →
     ∃ t, exec (.vmst d) s = .next t ∧
       (∀ k, k < 16384 → (t.st.vget d).getLsbD k = if k < s.st.vl.toNat then s.st.vm.getLsbD k else (s.st.vget d).getLsbD k) ∧
       t.st.tag d = 0 ∧ s.vectorDone t [] [d] ∧ t.st.vm = s.st.vm ∧ s.keepsFlags t) ∧
   ∀ (o : VmsgbOps) (s : State),
     let w := if o.flt then (fmtOf o.ew).width else 8 * 2 ^ o.ew.toNat
     s.quiet → s.vlFits w →
     ∃ t, exec (.vmsgb o) s = .next t ∧
       s.maskIs t false (fun k => decide (s.elem o.a w k % (if o.flt then 2 ^ (w - 1) else 2 ^ w) ≠ 0)) ∧
       s.vectorDone t [] [] ∧ s.keepsFlags t)

/-- R164, R165, R169, R170, R173: the vector loads, of elements that all pass their checks. Each enabled element below `vl`
becomes the bytes at its place, least significant first, and the others are kept. The addresses are those of R169, R170 and
R173; the block form also needs a page with D and a legal format byte in each block.

R171, R172: `vldz` of no chunk and of one chunk. With fewer than 64 elements allowed by `vl`, or fewer than 8 bytes by
the limit register, nothing is read and both become 0. Where exactly the first chunk fits, its 8 bytes choose among 64
elements those that are listed after it, the others are zero; `vl` becomes 64 and the limit register the bytes used. -/
def Obligations.VectorLoads : Prop :=
  (∀ (s : State), s.quiet →
     let vl := s.st.vl.toNat
     let load := fun (i : Instr) (d a : Reg) (n : Nat) (m : Bool) (top : Nat) (addr : Nat → Word)
         (more : (Nat → Place) → (Nat → Bool) → Prop) =>
       ∀ (p : Nat → Place) (dA : Nat → Bool), s.usable [a] [] → 0 < vl → vl ≤ top →
         s.reaches .read m n addr p dA → s.unpoisoned m n addr p → more p dA →
         ∃ t, exec i s = .next t ∧ s.lanesAre t d (8 * n) m (fun k => ofBytes (s.placeBytes (p k) n)) ∧
           t.st.tag d = 0 ∧ s.vectorDone t [] [d] ∧ t.st.vm = s.st.vm ∧ s.keepsFlags t
     (∀ o : VMemOps,
       let n := 2 ^ o.ty.toNat
       let base := s.st.xget o.a + o.disp.signExtend 64 * BitVec.ofNat 64 n
       load (.vld o) o.d o.a n o.m (16384 / (8 * n)) (fun k => base + BitVec.ofNat 64 (k * n)) (fun _ _ => True) ∧
       load (.vlds o) o.d o.a n o.m (16384 / (8 * n)) (fun k => base + BitVec.ofNat 64 k * s.st.vs) (fun _ _ => True)) ∧
     (∀ o : VBlkOps,
       load (.vldb o) o.d o.a 64 o.m 32
         (fun k => s.st.xget o.a + o.disp.signExtend 64 * 64 + BitVec.ofNat 64 (64 * k))
         (fun p dA => ∀ k, k < vl → s.st.on o.m k = true →
           dA k = true ∧ ((2 ≤ (s.placeByte (p k)).toNat ∧ (s.placeByte (p k)).toNat ≤ 8) ∨ s.placeByte (p k) = 0xFF))) ∧
     (∀ o : DA,
       load (.vlr o) o.d o.a 1 false 2048 (fun k => s.st.xget o.a + BitVec.ofNat 64 k)
         (fun _ _ => (s.st.xget o.a).toNat % 64 = 0)) ∧
     ∀ o : VOps,
       let n := 2 ^ o.ty.toNat
       (o.rep = 0 ∨ o.d ≠ o.b) →
       load (.vldx o) o.d o.a n o.m (if o.ty = 3 then 256 else 512)
         (fun k => s.st.xget o.a + BitVec.ofNat 64 (s.elem o.b 32 (srcb o.rep k) * n)) (fun _ _ => True)) ∧
  (∀ (o : VldzOps) (s : State),
     let w := 8 * 2 ^ o.ty.toNat
     let n := 2 ^ o.ty.toNat
     let L := (s.st.xget o.limit).toNat
     let a := s.st.xget o.a
     let frame := fun t : State => t.st.vlFull = true ∧ t.st.xresume = 0 ∧ t.st.isFull o.limit = true ∧
       t.st.pc = s.st.pc + 4 ∧ t.st.queue = [] ∧ s.keepsX t [o.limit] ∧ s.keepsV t [o.d] ∧ t.st.vm = s.st.vm ∧
       s.keepsFlags t ∧ s.keepsTrap t ∧ s.keepsTiles t ∧ s.keepsMemory t
     s.quiet → s.vlFits w → s.usable [o.a, o.limit] [o.limit] →
     (s.st.vl.toNat < 64 ∨ L < 8 →
       ∃ t, exec (.vldz o) s = .next t ∧ t.st.vl = 0 ∧ t.st.xget o.limit = 0 ∧ t.st.vget o.d = s.st.vget o.d ∧ frame t) ∧
     ∀ (p : Nat → Place) (dA : Nat → Bool),
       (∀ i, i < 8 + 64 * n → s.check .read 1 1 (a + BitVec.ofNat 64 i) = .ok (p i) (dA i) ∧
         s.poisonAt (a + BitVec.ofNat 64 i) (p i) 1 = none) →
       let bits := ofBytes ((List.range 8).map fun i => s.placeByte (p i))
       let below := fun e => (List.range e).countP bits.testBit
       let used := 8 + n * below 64
       64 ≤ s.st.vl.toNat → s.st.vl.toNat < 128 → used ≤ L → o.limit ≠ 0 →
       ∃ t, exec (.vldz o) s = .next t ∧ t.st.vl = 64 ∧ t.st.xget o.limit = BitVec.ofNat 64 used ∧
         (∀ e, e < vlmaxOf w → t.elem o.d w e = if e < 64 then
           (if bits.testBit e then ofBytes ((List.range n).map fun i => s.placeByte (p (8 + n * below e + i))) else 0)
           else s.elem o.d w e) ∧ t.st.tag o.d = 0 ∧ frame t)

/-- R164, R165, R168 to R170, R173: the vector stores, of elements that all pass their checks, complete, whether an undo log
is on (`StoresAreLogged`) or not. With none on, the bytes of each enabled element below `vl` stand at its place, and every
other byte of every storage reads as before; of elements that name one place the highest stays. A block is stored as the
device writes it, a hole as 0xFF and zero spare bits (R77).

R173 to R175: the vector atomics of elements that all pass their checks complete, with an undo log on or off. With none
on, on places that do not meet, each enabled element below `vl` receives the old value of its place, and the new value
stands there. Where `.ord` is given and every element names one place, they are applied in increasing index: each receives
what those below it have left, and the last result stands there. -/
def Obligations.VectorStoresAndAtomics : Prop :=
  (∀ (s : State), s.quiet → Memory.wf s.mem = true →
     let vl := s.st.vl.toNat
     let store := fun (i : Instr) (a : Reg) (n : Nat) (m : Bool) (top : Nat) (addr : Nat → Word)
         (value : Nat → Nat) (more : (Nat → Bool) → Prop) =>
       ∀ (p : Nat → Place) (dA : Nat → Bool), s.usable [a] [] → 0 < vl → vl ≤ top →
         s.reaches .write m n addr p dA → more dA →
         ∃ t, exec i s = .next t ∧ t.st.pc = s.st.pc + 4 ∧ t.st.queue = [] ∧ s.keepsV t [] ∧ t.st.vm = s.st.vm ∧
           s.keepsFlags t ∧ s.keepsTiles t ∧ Memory.wf t.mem = true ∧
           ((s.context s.st.ctx).ulOn = false → s.storesElems t m n p (fun k => bytesOf n (value k)) ∧ s.vectorKept t [] [])
     (∀ o : VMemOps,
       let n := 2 ^ o.ty.toNat
       let base := s.st.xget o.a + o.disp.signExtend 64 * BitVec.ofNat 64 n
       let v := fun k => s.elem o.d (8 * n) k
       store (.vst o) o.a n o.m (16384 / (8 * n)) (fun k => base + BitVec.ofNat 64 (k * n)) v (fun _ => True) ∧
       store (.vsts o) o.a n o.m (16384 / (8 * n)) (fun k => base + BitVec.ofNat 64 k * s.st.vs) v (fun _ => True)) ∧
     (∀ o : VBlkOps,
       let v := fun k => s.elem o.d 512 k
       store (.vstb o) o.a 64 o.m 32
         (fun k => s.st.xget o.a + o.disp.signExtend 64 * 64 + BitVec.ofNat 64 (64 * k)) (fun k => cleanBlock (v k))
         (fun dA => ∀ k, k < vl → s.st.on o.m k = true →
           dA k = true ∧ ((2 ≤ v k % 256 ∧ v k % 256 ≤ 8) ∨ v k % 256 = 0xFF))) ∧
     (∀ o : DA,
       store (.vsr o) o.a 1 false 2048 (fun k => s.st.xget o.a + BitVec.ofNat 64 k) (fun k => s.elem o.d 8 k)
         (fun _ => (s.st.xget o.a).toNat % 64 = 0)) ∧
     ∀ o : VOps,
       let n := 2 ^ o.ty.toNat
       store (.vstx o) o.a n o.m (if o.ty = 3 then 256 else 512)
         (fun k => s.st.xget o.a + BitVec.ofNat 64 (s.elem o.b 32 (srcb o.rep k) * n)) (fun k => s.elem o.d (8 * n) k)
         (fun _ => True)) ∧
  (∀ (o : VAtOps) (s : State) (p : Nat → Place) (dA : Nat → Bool),
     let n := if o.wide then 8 else 4
     let w := 8 * n
     let vl := s.st.vl.toNat
     let addr := fun k => s.st.xget o.a + BitVec.ofNat 64 (s.elem o.b 32 k * n)
     s.quiet → Memory.wf s.mem = true → s.usable [o.a] [] →
     0 < vl → vl ≤ (if o.wide then 256 else 512) →
     s.reaches .atomic o.m n addr p dA → s.unpoisoned o.m n addr p →
     let apart := ∀ j k q i i', j < vl → k < vl → j ≠ k → s.st.on o.m j = true → s.st.on o.m k = true →
       (p j).offsetFrom q = some i → (p k).offsetFrom q = some i' → n ≤ i ∨ n ≤ i'
     let old := fun k => ofBytes (s.placeBytes (p k) n)
     let b := fun k => s.elem o.d w k
     let signed := fun x : Nat => (BitVec.ofNat w x).toInt
     let F := if o.wide then f64 else f32
     let done := fun (i : Instr) (new : Nat → Nat → Nat) =>
       ∃ t, exec i s = .next t ∧ t.st.pc = s.st.pc + 4 ∧ t.st.queue = [] ∧ t.st.tag o.d = 0 ∧ s.keepsV t [o.d] ∧
         t.st.vm = s.st.vm ∧ s.keepsFlags t ∧ s.keepsTiles t ∧ Memory.wf t.mem = true ∧
         ((s.context s.st.ctx).ulOn = false →
           s.vectorKept t [] [o.d] ∧
           (apart → s.lanesAre t o.d w o.m old ∧ s.storesElems t o.m n p (fun k => bytesOf n (new (old k) (b k)))) ∧
           ∀ x, o.ord = true → (∀ k, k < vl → s.st.on o.m k = true → p k = x) →
             let after := fun k => ((List.range k).filter (s.st.on o.m)).foldl (fun v j => new v (b j))
               (ofBytes (s.placeBytes x n))
             s.lanesAre t o.d w o.m after ∧
               ((∃ k, k < vl ∧ s.st.on o.m k = true) → ofBytes (t.placeBytes x n) = after vl))
     done (.vatadd o) (fun x y => (x + y) % 2 ^ w) ∧
     done (.vatfadd o) (fun x y => (addF F 0 false (unpack F x) (unpack F y)).1) ∧
     done (.vatand o) (fun x y => x &&& y) ∧ done (.vator o) (fun x y => x ||| y) ∧
     done (.vatxor o) (fun x y => x ^^^ y) ∧
     done (.vatmin o) (fun x y => if signed x ≤ signed y then x else y) ∧
     done (.vatmax o) (fun x y => if signed x ≤ signed y then y else x) ∧
     done (.vatswap o) (fun _ y => y))

/-- R176 to R179: binding, unbinding, observing and reading a stream, with nothing else of the strand in flight. `sbind`
binds what its descriptor says; the element addresses are those of R176, i0 running fastest; `sunbind` leaves the register
zero and unbound; `sstat` says what is left; an instruction that reads a bound register receives the first strip, and the
position advances by it when it retires.

R178: STREAM_STRIP_FETCH fetches the next strip of an input stream into its buffer, and STREAM_STRIP_DRAIN writes the
oldest strip of an output stream, its elements in order (what memory then holds is said for no undo log and no other write
in flight). -/
def Obligations.Streams : Prop :=
  ((∀ (b : Stream) (n : Nat),
     b.address n = b.base + BitVec.ofNat 64 (n % b.counts.1) * b.strides.1 +
       BitVec.ofNat 64 (n / b.counts.1 % b.counts.2.1) * b.strides.2.1 +
       BitVec.ofNat 64 (n / (b.counts.1 * b.counts.2.1) % b.counts.2.2.1) * b.strides.2.2.1 +
       BitVec.ofNat 64 (n / (b.counts.1 * b.counts.2.1 * b.counts.2.2.1)) * b.strides.2.2.2) ∧
   (∀ (o : XUn) (s : State) (p : Nat → Place) (dA : Nat → Bool),
     let a := s.st.xget o.a
     let f := fun off n => ofBytes ((List.range n).map fun i => s.placeByte (p (off + i)))
     let total := f 0x08 4 * f 0x0C 4 * f 0x10 4 * f 0x14 4
     let w := BitVec.ofNat 64
     s.quiet → 24 ≤ o.d.toNat → s.usable [o.a] [] → a.toNat % 64 = 0 →
     (∀ i, i < 64 → s.check .read 1 1 (a + BitVec.ofNat 64 i) = .ok (p i) (dA i) ∧
       s.poisonAt (a + BitVec.ofNat 64 i) (p i) 1 = none) →
     1 ≤ total → total ≤ 2 ^ 32 → f 0x38 1 < 4 → f 0x39 1 < 2 → 1 ≤ f 0x3A 2 → f 0x3A 2 ≤ vlmaxOf (8 * 2 ^ f 0x38 1) →
     f 0x3C 4 = 0 → s.unitFree = true →
     ∃ t, exec (.sbind o) s = .next t ∧
       t.st.streams = [(o.d.toNat,
         { desc := a, base := w (f 0 8), counts := (f 0x08 4, f 0x0C 4, f 0x10 4, f 0x14 4)
           strides := (w (f 0x18 8), w (f 0x20 8), w (f 0x28 8), w (f 0x30 8)), width := BitVec.ofNat 2 (f 0x38 1)
           output := f 0x39 1 == 1, codebook := false, slot := 0, strip := f 0x3A 2, pos := 0, buf := [] })] ∧
       t.st.tag o.d = 0 ∧ s.vectorDone t [] [o.d] ∧ t.st.vget o.d = s.st.vget o.d ∧ t.st.vm = s.st.vm ∧ s.keepsFlags t) ∧
   (∀ (n d : Reg) (s : State) (b : Stream), s.calm → 24 ≤ n.toNat → s.st.streams = [(n.toNat, b)] → b.buf = [] →
     (∃ t, exec (.sunbind n) s = .next t ∧ t.st.streams = [] ∧ t.st.vget n = 0 ∧ t.st.tag n = 0 ∧
       s.vectorDone t [] [n] ∧ t.st.vm = s.st.vm ∧ s.keepsFlags t) ∧
     (∃ t, exec (.sdrain n) s = .next t ∧ t.st.streams = s.st.streams ∧ s.vectorDone t [] [] ∧ t.st.vm = s.st.vm ∧
       s.keepsFlags t) ∧
     (s.usable [] [d] → ∃ t, exec (.sstat ⟨d, n⟩) s = .next t ∧
       t.st.xget d = (if d = 0 then 0 else
         BitVec.ofNat 64 (2 ^ 63 + (if b.output then 2 ^ 62 else 0) + (b.total - b.pos) % 2 ^ 40)) ∧
       t.st.streams = s.st.streams ∧ s.vectorDone t [d] [] ∧ t.st.vm = s.st.vm ∧ s.keepsFlags t)) ∧
   ∀ (o : VUn) (s : State) (b : Stream) (q : Strip),
     let w := 8 * 2 ^ o.ty.toNat
     s.calm → s.vlFits w → s.st.streams = [(o.a.toNat, b)] → o.d ≠ o.a → b.output = false → b.width = o.ty →
     b.pos < b.total → b.buf = [q] → q.bad = none → min b.strip (b.total - b.pos) ≤ q.count →
     ∃ t, exec (.vmv o) s = .next t ∧ s.lanesAre t o.d w o.m (fun k => elemOf q.data w k) ∧ t.st.tag o.d = 0 ∧
       t.st.streams = [(o.a.toNat, { b with pos := b.pos + min b.strip (b.total - b.pos), buf := [] })] ∧
       s.vectorDone t [] [o.d, o.a] ∧ t.st.vm = s.st.vm ∧ s.keepsFlags t) ∧
  ((∀ (s : State) (b : Stream) (p : Nat → Place) (dA : Nat → Bool),
     let n := 2 ^ b.width.toNat
     let count := min b.strip (b.total - b.pos)
     s.st.streamOf s.args.reg = some b → b.output = false → b.codebook = false → b.buf = [] → b.pos < b.total →
     count ≤ vlmaxOf (8 * n) →
     (∀ j, j < count → s.check .read n n (b.address (b.pos + j)) = .ok (p j) (dA j) ∧
       s.poisonAt (b.address (b.pos + j)) (p j) n = none) →
     ∃ t q, exec .streamStripFetch s = .next t ∧ t.st.streamOf s.args.reg = some { b with buf := [q] } ∧
       q.count = count ∧ q.bad = none ∧
       (∀ j, j < count → elemOf q.data (8 * n) j = ofBytes (s.placeBytes (p j) n)) ∧
       t.st.pc = s.st.pc ∧ t.st.queue = s.st.queue ∧ s.keepsRest t [] []) ∧
   ∀ (s : State) (b : Stream) (q : Strip) (rest : List Strip),
     let n := 2 ^ b.width.toNat
     s.st.streamOf s.args.reg = some b → b.output = true → b.buf = q :: rest →
     Memory.wf s.mem = true → (∀ x ∈ q.places, s.writable x.2.1) →
     ∃ t, exec .streamStripDrain s = .next t ∧ t.st.streamOf s.args.reg = some { b with buf := rest } ∧
       t.st.pc = s.st.pc ∧ t.st.queue = s.st.queue ∧ Memory.wf t.mem = true ∧
       ((s.context s.st.ctx).ulOn = false → s.flights = [] →
         s.keepsStrand t [] [] ∧
         s.storesSlots t (fun j => j < q.places.length) n (fun j => (q.places.getD j (0, .mem 0, 0)).2.1)
           (fun j => bytesOf n (elemOf q.data (8 * n) j))))

/-- R180, R181: `cbload` fills a slot of its core from the layout of R180, and `vxf` looks every enabled index up in the
slot that `cbsel` names; an empty slot is UNSTATED here.

R111, R182, R183: inside a critical section `vwait` takes trap 0x02. Outside one `vwait` reads every enabled flag. Where
each holds its condition, the bits of `vm` below `vl` become 0 and xd becomes 0; where some does not, nothing is written and
the entry sleeps at the head of the queue. A time-out that has passed lets the sleeping entry retire with the unmet flags
marked in `vm` and counted in xd. -/
def Obligations.CodebooksAndFlagWaits : Prop :=
  ((∀ (o : XUn) (s : State) (p : Nat → Place) (dA : Nat → Bool),
     let a := s.st.xget o.a
     let f := fun off n => ofBytes ((List.range n).map fun i => s.placeByte (p (off + i)))
     let iw := f 0 1
     let etype := f 1 1
     let count := f 2 2
     let n := 2 ^ etype
     s.quiet → o.d.toNat < 4 → s.usable [o.a] [] → a.toNat % 16 = 0 → s.slotBusy (o.d.truncate 2) = false →
     (∀ i, i < 16 + count * n → s.check .read 1 1 (a + BitVec.ofNat 64 i) = .ok (p i) (dA i) ∧
       s.poisonAt (a + BitVec.ofNat 64 i) (p i) 1 = none) →
     1 ≤ iw → iw ≤ 8 → etype ≤ 2 → 1 ≤ count → count ≤ 2 ^ iw → f 4 12 = 0 →
     ∃ t c, exec (.cbload o) s = .next t ∧ (t.core (coreOf s.cur)).codebooks[o.d.toNat % 4]! = some c ∧
       c.iw = iw ∧ c.etype = BitVec.ofNat 2 etype ∧ c.entries.length = count ∧
       (∀ i, i < count → c.entries[i]? = some (f (16 + i * n) n)) ∧
       (∀ j, j < 4 → j ≠ o.d.toNat →
         (t.core (coreOf s.cur)).codebooks[j]! = (s.core (coreOf s.cur)).codebooks[j]!) ∧
       s.vectorDone t [] [] ∧ t.st.vm = s.st.vm ∧ s.keepsFlags t) ∧
   ∀ (o : VUn) (s : State) (c : Codebook),
     let w := 8 * 2 ^ o.ty.toNat
     s.quiet → s.vlFits w → s.codebook s.st.cbsel = some c → c.etype = o.ty →
     (∀ k, k < s.st.vl.toNat → s.st.on o.m k = true → s.elem o.a c.iw k < c.entries.length) →
     ∃ t, exec (.vxf o) s = .next t ∧ s.lanesAre t o.d w o.m (fun k => c.entries.getD (s.elem o.a c.iw k) 0) ∧
       t.st.tag o.d = 0 ∧ s.vectorDone t [] [o.d] ∧ t.st.vm = s.st.vm ∧ s.keepsFlags t) ∧
  ((∀ (o : VWaitOps) (s : State), s.st.inSection = true → exec (.vwait o) s = .next (s.decodeTrap (.vwait o) 0x02)) ∧
   ∀ (o : VWaitOps) (s : State) (p : Nat → Place) (dA : Nat → Bool),
     let n := if o.wide then 8 else 4
     let w := 8 * n
     let addr := fun k => BitVec.ofNat 64 (s.elem o.a 64 k)
     let flag := fun k => ofBytes (s.placeBytes (p k) n)
     let want := fun k => s.elem (o.a + 1) 64 k % 2 ^ w
     let int := fun x : Nat => (BitVec.ofNat w x).toInt
     let met := fun k => (o.cond = 0 ∧ flag k = want k) ∨ (o.cond = 1 ∧ flag k ≠ want k) ∨
       (o.cond = 2 ∧ flag k < want k) ∨ (o.cond = 3 ∧ want k ≤ flag k) ∨ (o.cond = 4 ∧ int (flag k) < int (want k)) ∨
       (o.cond = 5 ∧ int (want k) ≤ int (flag k))
     s.vlFits 64 → o.a.toNat < 31 → o.cond.toNat < 6 →
     s.reaches .read o.m n addr p dA → s.unpoisoned o.m n addr p →
     (∀ e : QEntry, s.st.queue = [e] → e.instr = .vwait o → e.vl = s.st.vl → e.recheck = false → e.scalar = 0 →
       e.wtags = [] → e.started = true → s.st.run = .running → s.st.restoring = false →
       s.st.streams = [] → s.st.stores = [] → s.st.loads = [] → s.st.vpoison = [] → s.st.vfull = -1 → s.st.vstart = 0 → s.st.wto ≠ 0 → s.st.watchOut = true →
       ∃ t, exec .vectorEntryRetire s = .next t ∧ t.st.queue = [] ∧ t.st.watchOut = false ∧ t.st.pc = s.st.pc ∧
         (∀ k, k < s.st.vl.toNat → (t.st.vm.getLsbD k = true ↔ s.st.on o.m k = true ∧ ¬met k)) ∧
         (∀ k, k < 2048 → s.st.vl.toNat ≤ k → t.st.vm.getLsbD k = s.st.vm.getLsbD k) ∧
         t.st.xget o.b = (if o.b = 0 then 0 else
           BitVec.ofNat 64 ((List.range s.st.vl.toNat).countP (t.st.vm.getLsbD ·))) ∧
         t.st.isFull o.b = true ∧ s.keepsX t [o.b] ∧ s.keepsV t [] ∧ s.keepsFlags t ∧ s.keepsMemory t) ∧
     (s.quiet → s.st.inSection = false → s.usable [] [o.b] → (∀ k, k < s.st.vl.toNat → s.st.on o.m k = true → met k) →
       ∃ t, exec (.vwait o) s = .next t ∧ s.maskIs t false (fun _ => false) ∧ t.st.xget o.b = 0 ∧
         t.st.isFull o.b = true ∧ s.vectorDone t [o.b] [] ∧ s.keepsFlags t) ∧
     (s.quiet → s.st.inSection = false → s.usable [] [o.b] → (∃ k, k < s.st.vl.toNat ∧ s.st.on o.m k = true ∧ ¬met k) → s.st.watchOut = false →
       ∃ t, exec (.vwait o) s = .next t ∧ t.st.watch = true ∧ t.st.queue.map QEntry.instr = [.vwait o] ∧
         (o.b ≠ 0 → t.st.isFull o.b = false) ∧ t.st.vm = s.st.vm ∧ t.st.pc = s.st.pc + 4 ∧ s.keepsRest t [o.b] []))

/-- R35 to R37, R67, R124, R140, R142, R188: what a pushed instruction checks at decode, in the order 0x04, 0x0C, 0x02. A
tile instruction without tiles takes 0x04 and one that names a tile beyond those owned 0x02; a multivector source that is
plain takes 0x0C; a length above VLMAX, a destination that a rule forbids, a mode that is not legal for a form that rounds,
and every push while an image is held take 0x02.

R119, R122, R165: a vector load or store of contiguous elements that stops at element k, the lowest enabled one whose
access its checks refuse, with a handler set. The elements below k are loaded or stored and those from k on are not;
`vstart` is k, the trap is vector-side with the address of element k in `tval` and the run-ahead point in `tepc`, and the
entry is the head of the held image. Of a store, here for faults other than of a page, which post no hints.

R119, R142, R171: an instruction that reads `vl`, pushed with a length of 0, retires at once: an x destination takes the
instruction's empty value and is filled, and no register element, bit of `vm`, flag, tag or byte of memory changes. The
empty value of `vmpopc` is 0, that of `vmfirst` −1, and `vldz` gives 0 bytes and a length of 0.

R22, R119: `vdirty` gains the bit of a v register whose bytes an instruction writes, and of a tile whose elements it
writes, and no other; what writes only `vm`, tags or x registers sets none, and `toff` clears the bits of the tiles. -/
def Obligations.VectorTrapsAndLengths : Prop :=
  ((∀ (i : Instr) (f : VForm) (s : State), formOf { instr := i, pc := s.st.pc, vl := s.st.vl } = some f →
     (∀ c, f.check s = some c → exec i s = .next (s.decodeTrap i c)) ∧
     (f.check s = none → s.st.held = true → exec i s = .next (s.decodeTrap i 0x02))) ∧
   (∀ (s : State) (h : Reg) (x : TopaOps) (y : TspaOps) (r : TmvOps) (w : TmvwOps) (i : Instr),
     i ∈ [Instr.tzero h, .topa x, .tspa y, .tmvr r, .tmvc r, .tmvw w] →
     s.st.tonOwned = 0 → exec i s = .next (s.decodeTrap i 0x04)) ∧
   (∀ (s : State) (h : Reg), s.st.tonOwned ≠ 0 → s.st.tonOwned.toNat ≤ h.toNat →
     exec (.tzero h) s = .next (s.decodeTrap (.tzero h) 0x02)) ∧
   (∀ (s : State) (o : VOps) (i : Instr),
     i ∈ [Instr.mgp o, .mwedge o, .mjoin o, .mdot o, .msand o, .msandChk o, .madd o, .msub o] →
     ((s.st.dtagOf o.a).getLsbD 0 = false ∨ (s.st.dtagOf o.b).getLsbD 0 = false) →
     exec i s = .next (s.decodeTrap i 0x0C)) ∧
   (∀ (s : State) (o : VOps) (i : Instr),
     i ∈ [Instr.vadd o, .vsub o, .vand o, .vor o, .vxor o, .vshl o, .vshr o, .vsar o, .vmul o, .vmulh o, .vmulhn o, .vmin o,
       .vmax o, .vminn o, .vmaxn o, .vmac o, .vperm o] →
     ((s.st.vlFull = true ∧ 16384 / (8 * 2 ^ o.ty.toNat) < s.st.vl.toNat) ∨ (o.rep ≠ 0 ∧ o.d = o.b)) →
     exec i s = .next (s.decodeTrap i 0x02)) ∧
   (∀ (s : State) (o : TUn), o.d = o.a → exec (.vcompress o) s = .next (s.decodeTrap (.vcompress o) 0x02) ∧
     exec (.vexpand o) s = .next (s.decodeTrap (.vexpand o) 0x02)) ∧
   ∀ (s : State), s.st.frm = 4 →
     (∀ (o : VOps) (i : Instr), i ∈ [Instr.vfadd o, .vfsub o, .vfmul o, .vfdiv o, .vfmac o, .vfnmac o] →
       exec i s = .next (s.decodeTrap i 0x02)) ∧
     (∀ (o : VUn) (i : Instr), i ∈ [Instr.vfsqrt o, .vfrint o] → exec i s = .next (s.decodeTrap i 0x02)) ∧
     (∀ o : VRedOps, exec (.vrfsum o) s = .next (s.decodeTrap (.vrfsum o) 0x02)) ∧
     (∀ o : VQOps, exec (.vwid o) s = .next (s.decodeTrap (.vwid o) 0x02)) ∧
     (∀ o : VNefOps, o.rep = 0 → exec (.vnef o) s = .next (s.decodeTrap (.vnef o) 0x02)) ∧
     (∀ o : VCvtOps, widens o.other o.ty = false → exec (.vcvt o) s = .next (s.decodeTrap (.vcvt o) 0x02)) ∧
     ∀ o : VCvtiOps, exec (.vcvtfi o) s = .next (s.decodeTrap (.vcvtfi o) 0x02) ∧
       (intExact o.other o.ty = false → exec (.vcvtif o) s = .next (s.decodeTrap (.vcvtif o) 0x02))) ∧
  (∀ (o : VMemOps) (s : State) (k : Nat) (c : BitVec 8) (p : Nat → Place) (dA : Nat → Bool),
     let n := 2 ^ o.ty.toNat
     let addr := fun e => s.st.xget o.a + o.disp.signExtend 64 * BitVec.ofNat 64 n + BitVec.ofNat 64 (e * n)
     let refused := fun acc : Acc =>
       (canonical (addr k) = false ∧ c = 0x07) ∨ (canonical (addr k) = true ∧ (addr k).toNat % n ≠ 0 ∧ c = 0x08) ∨
         (canonical (addr k) = true ∧ (addr k).toNat % n = 0 ∧ ∃ span, s.check acc 1 n (addr k) = .bad c span)
     let reached := fun acc : Acc => ∀ e, e < k → s.st.on o.m e = true →
       canonical (addr e) = true ∧ (addr e).toNat % n = 0 ∧ s.check acc 1 n (addr e) = .ok (p e) (dA e)
     let stops := fun (i : Instr) (t : State) =>
       t.st.pc = s.st.tvec ∧ t.st.level = .supervisor ∧ t.st.ppl = s.st.level ∧ t.st.vstart = BitVec.ofNat 12 k ∧
         t.st.tcause = 0x100 + c.zeroExtend 10 ∧ t.st.tval = addr k ∧ t.st.tepc = (s.st.pc + 4).truncate 56 ∧
         t.st.held = true ∧ t.st.queue = [] ∧ t.st.image.map QEntry.instr = [i] ∧ s.keepsX t [] ∧ s.keepsFlags t ∧
         t.st.vm = s.st.vm
     s.quiet → s.vlFits (8 * n) → s.usable [o.a] [] → s.st.tvec ≠ 0 → k < s.st.vl.toNat → s.st.on o.m k = true →
     (s.context s.st.ctx).ulOn = false →
     (refused .read → reached .read → (∀ e, e < k → s.st.on o.m e = true → s.poisonAt (addr e) (p e) n = none) →
       ∃ t, exec (.vld o) s = .next t ∧ stops (.vld o) t ∧ s.keepsV t [o.d] ∧
         ∀ e, e < vlmaxOf (8 * n) → t.elem o.d (8 * n) e =
           if e < k ∧ s.st.on o.m e = true then ofBytes (s.placeBytes (p e) n) else s.elem o.d (8 * n) e) ∧
     (refused .write → reached .write → c ≠ 0x05 → c ≠ 0x06 → Memory.wf s.mem = true →
       ∃ t, exec (.vst o) s = .next t ∧ stops (.vst o) t ∧ s.keepsV t [] ∧
         s.storesSlots t (fun e => e < k ∧ s.st.on o.m e = true) n p (fun e => bytesOf n (s.elem o.d (8 * n) e)))) ∧
  ((∀ (i : Instr) (f : VForm) (s : State), formOf { instr := i, pc := s.st.pc, vl := 0 } = some f → f.readsVl = true →
     s.calm → s.st.vl = 0 → f.fault s = none → s.usable (f.xs.map Prod.fst) f.xd.toList →
     ∃ t, exec i s = .next t ∧ t.st.pc = s.st.pc + 4 ∧ t.st.queue = [] ∧ t.st.vl = 0 ∧ t.st.vlFull = true ∧
       (∀ r, f.xd = some r → t.st.xget r = (if r = 0 then 0 else f.emptyValue) ∧ t.st.isFull r = true) ∧
       s.keepsX t f.xd.toList ∧ s.keepsV t [] ∧ t.st.vm = s.st.vm ∧ s.keepsFlags t ∧ s.keepsTrap t ∧ s.keepsTiles t ∧
       t.st.vdirty = s.st.vdirty ∧ s.keepsMemory t) ∧
   (∀ (d : Reg) (s : State), s.calm → s.st.vl = 0 → s.usable [] [d] →
     (∃ t, exec (.vmpopc d) s = .next t ∧ t.st.xget d = 0 ∧ t.st.pc = s.st.pc + 4 ∧ s.keepsX t [d] ∧ s.keepsV t []) ∧
     ∃ t, exec (.vmfirst d) s = .next t ∧ t.st.xget d = (if d = 0 then 0 else -1) ∧ t.st.pc = s.st.pc + 4 ∧
       s.keepsX t [d] ∧ s.keepsV t []) ∧
   ∀ (o : VldzOps) (s : State), s.calm → s.st.vl = 0 → s.usable [o.a, o.limit] [o.limit] →
     ∃ t, exec (.vldz o) s = .next t ∧ t.st.xget o.limit = 0 ∧ t.st.vl = 0 ∧ t.st.vlFull = true ∧
       t.st.pc = s.st.pc + 4 ∧ s.keepsX t [o.limit] ∧ s.keepsV t []) ∧
  ((∀ (o : VOps) (s : State) (i : Instr),
     i ∈ [Instr.vadd o, .vsub o, .vand o, .vor o, .vxor o, .vshl o, .vshr o, .vsar o, .vmul o, .vmulh o, .vmulhn o, .vmin o,
       .vmax o, .vminn o, .vmaxn o, .vmac o] →
     s.quiet → s.vlFits (8 * 2 ^ o.ty.toNat) → (o.rep = 0 ∨ o.d ≠ o.b) →
     ∃ t, exec i s = .next t ∧
       ((∃ k, k < s.st.vl.toNat ∧ s.st.on o.m k = true) → t.st.vdirty = s.st.vdirty ||| (1#36 <<< o.d.toNat)) ∧
       ((∀ k, k < s.st.vl.toNat → s.st.on o.m k = false) → t.st.vdirty = s.st.vdirty)) ∧
   (∀ (h : Reg) (s : State), s.quiet → h.toNat < s.st.tonOwned.toNat → h.toNat < 4 → s.st.vl.toNat ≤ 2048 → s.st.vl ≠ 0 →
     ∃ t, exec (.tzero h) s = .next t ∧
       (s.st.trp ≠ 0 → s.st.tcp ≠ 0 → t.st.vdirty = s.st.vdirty ||| (1#36 <<< (32 + h.toNat))) ∧
       (s.st.trp = 0 ∨ s.st.tcp = 0 → t.st.vdirty = s.st.vdirty)) ∧
   (∀ (s : State), s.quiet → s.vlFits 8 → ∃ t, exec .vmset s = .next t ∧ t.st.vdirty = s.st.vdirty) ∧
   ∀ (s : State), s.st.tonOwned ≠ 0 → s.st.held = false → s.st.queue = [] →
     ∃ t, exec .toff s = .next t ∧ t.st.tonOwned = 0 ∧ t.st.vdirty = s.st.vdirty &&& 0xFFFFFFFF)

/-- R188 to R195: the multivector instructions of two sources. The result's grades come from the grade masks of the tags;
every component is the exact sum of its terms, rounded once under `frm`; the tag of vd becomes the type and mask of the
result.

R184, R190, R192: the algebra. The basis vectors square to 0, 1, 1, 1 and anticommute, the product of blades is
associative, and the grades of the geometric product of grades i and j are |i − j|, |i − j| + 2, … up to the lesser of
i + j and 8 − i − j; the wedge has i + j, the join i + j − 4, the contraction j − i. -/
def Obligations.MultivectorProducts : Prop :=
  (∀ (o : VOps) (s : State) (ga gb : GMask),
     let F := fmtOf o.ty
     let la := vlmaxM o.ty ga
     let lb := if o.rep = 0 then vlmaxM o.ty gb else la
     s.quiet → o.ty ≠ 3 → (o.rep = 0 ∨ o.d ≠ o.b) → ga ≠ 0 → gb ≠ 0 → s.st.frm ≠ 4 → 0 < s.st.vl.toNat →
     s.st.dtagOf o.a = mvTag o.ty ga → s.st.dtagOf o.b = mvTag o.ty gb →
     let A := s.mvVal o.a o.ty ga
     let B := fun e => s.mvVal o.b o.ty gb (srcb o.rep e)
     let done := fun (i : Instr) (g : GMask) (f : Nat → Nat → Nat × FFlags) (more : Nat → FFlags) =>
       g ≠ 0 → (o.m = true → s.st.dtagOf o.d = mvTag o.ty g) → s.st.vl.toNat ≤ min (vlmaxM o.ty g) (min la lb) →
       ∃ t, exec i s = .next t ∧
         s.mvAre t o.d F.width (gradeCount g) o.m (fun e k => (f e ((bladesOf g).getD k 0)).1) ∧
         s.flagsGain t o.m (fun e => (bladesOf g).foldr (fun n acc => (f e n).2 ||| acc) 0 ||| more e) ∧
         t.st.tag o.d = mvTag o.ty g ∧ s.vectorDone t [] [o.d] ∧ t.st.vm = s.st.vm
     let round := fun ts => roundSum F s.st.frm s.st.fz (exactSum ts)
     let prod := fun (i : Instr) (op : MProd) =>
       done i (prodMask op ga gb) (fun e n => round (prodTerms op (A e) (B e) n)) (fun _ => 0)
     prod (.mgp o) .gp ∧ prod (.mwedge o) .wedge ∧ prod (.mjoin o) .join ∧ prod (.mdot o) .dot ∧
     done (.madd o) (ga ||| gb) (fun e n => round (sumTerms false (A e) (B e) n)) (fun _ => 0) ∧
     done (.msub o) (ga ||| gb) (fun e n => round (sumTerms true (A e) (B e) n)) (fun _ => 0) ∧
     (gb.getLsbD 1 = false → gb.getLsbD 3 = false →
       done (.msand o) ga (fun e n => round (sandTerms (B e) (A e) n)) (fun _ => 0) ∧
       done (.msandChk o) ga (fun e n => round (sandTerms (B e) (A e) n)) (fun e => leakFlag (B e) (A e) gb ga))) ∧
  (bladeMul 1 1 = none ∧ (∀ i, i < 3 → bladeMul (i + 2) (i + 2) = some (false, 0)) ∧
   (∀ i j, 1 ≤ i → i ≤ 4 → 1 ≤ j → j ≤ 4 → i ≠ j →
     bladeMul i j = (bladeMul j i).map fun r => (!r.1, r.2)) ∧
   (∀ p q r, p < 16 → q < 16 → r < 16 →
     ((bladeMul p q).bind fun x => (bladeMul x.2 r).map fun y => (x.1 != y.1, y.2)) =
       (bladeMul q r).bind fun x => (bladeMul p x.2).map fun y => (x.1 != y.1, y.2)) ∧
   ∀ (a b : GMask) (k : Nat), k < 5 →
     let some_ := fun P : Nat → Nat → Prop => ∃ i j, i < 5 ∧ j < 5 ∧ a.getLsbD i = true ∧ b.getLsbD j = true ∧ P i j
     ((prodMask .gp a b).getLsbD k = true ↔
       some_ fun i j => max i j - min i j ≤ k ∧ k ≤ i + j ∧ k + i + j ≤ 8 ∧ (k + i + j) % 2 = 0) ∧
     ((prodMask .wedge a b).getLsbD k = true ↔ some_ fun i j => i + j = k) ∧
     ((prodMask .join a b).getLsbD k = true ↔ some_ fun i j => i + j = k + 4) ∧
     ((prodMask .dot a b).getLsbD k = true ↔ some_ fun i j => i + k = j))

/-- R196, R197, R199: the multivector instructions of one source. `mrev`, `mdual`, `mproj` and a conversion to the same
type copy encodings and raise nothing; the other conversions round each component, and the widening ones in any mode.
`mexp` and `mlog` ignore `frm`: of inputs that are not finite, and for `mlog` of a zero Euclidean part, every component is
the canonical NaN, with NV; of a pure translation they are exact and raise nothing, an ideal −0 or subnormal copied bit for
bit (DESIGN CHOICE, log 82); elsewhere every component lies within 2 ulp of the value of R197, evaluated to 2400 bits (a
choice of the MODEL, log 11), with NX, OF and UF as R66 and R68 have them, and +0 without NX where that is exactly zero.
Under `fz` = 1 a tiny one is the zero of its sign, which R69 puts before the bound of R197 (DEDUCED, log 81).

R198, R199: `mld` and `mst` move whole multivectors of the grades of `vgm`, component by component, to and from
consecutive addresses; `msetg` writes only a tag, and `mgettag` reads the tag that decode holds. -/
def Obligations.MultivectorUnaries : Prop :=
  (∀ (s : State) (d a : Reg) (ty : BitVec 2) (m fa : Bool) (ga : GMask),
     let F := fmtOf ty
     let w := F.width
     let c := gradeCount ga
     let rm := s.st.frm
     s.quiet → ty ≠ 3 → ga ≠ 0 → 0 < s.st.vl.toNat →
     let blade := fun (g : GMask) (k : Nat) => (bladesOf g).getD k 0
     let frame := fun (t : State) => s.vectorDone t [] [d] ∧ t.st.vm = s.st.vm
     let fits := fun (tag : Byte) (g : GMask) (src : BitVec 2) => (m = true → s.st.dtagOf d = tag) ∧
       s.st.vl.toNat ≤ min (vlmaxM ty g) (vlmaxM src ga)
     let all := fun (xs : List (Nat × FFlags)) => xs.foldr (fun x acc => x.2 ||| acc) (0 : FFlags)
     (s.st.dtagOf a = mvTag ty ga →
       let A := s.mvVal a ty ga
       let bits := fun (e n : Nat) => s.elem a w (c * e + (bladesOf ga).idxOf n)
       let at_ := fun (e k : Nat) => ((A e)[k]?).map Prod.snd |>.getD (.fin false 0 0)
       let copies := fun (i : Instr) (g : GMask) (f : Nat → Nat → Nat) => g ≠ 0 → fits (mvTag ty g) g ty →
         ∃ t, exec i s = .next t ∧ s.mvAre t d w (gradeCount g) m (fun e k => f e (blade g k)) ∧
           t.st.tag d = mvTag ty g ∧ s.keepsFlags t ∧ frame t
       let exotic := fun (e : Nat) => (A e).any fun x => x.2.isNan || x.2.isInf
       let flat := fun (e : Nat) => ((A e).filter fun x => !ideal x.1).all fun x => x.2.isZero
       let N := fun (e : Nat) => integers (A e) (commonExp (A e))
       let series := fun (i : Instr) (g : GMask) (bad exact : Nat → Bool) (value : Nat → Nat → Nat)
           (f : Nat → Nat → Inexact) => fits (mvTag ty g) g ty →
         ∃ t, exec i s = .next t ∧ t.st.tag d = mvTag ty g ∧ frame t ∧
           (∀ j, j < vlmaxOf w →
             let e := j / gradeCount g
             let n := blade g (j % gradeCount g)
             let y := t.elem d w j
             if e < s.st.vl.toNat ∧ s.st.on m e = true then
               if bad e = true then y = F.nan else if exact e = true then y = value e n else F.within2Ulp s.st.fz (f e n) y
             else y = s.elem d w j) ∧
           s.flagsGain t m fun e => if bad e = true then flagNV else if exact e = true then 0
             else (bladesOf g).foldr (fun n acc => F.flagsOf s.st.fz (f e n) ||| acc) 0
       copies (.mrev ⟨d, a, ty, m, fa⟩) ga
         (fun e n => if bladeGrade n = 2 ∨ bladeGrade n = 3 then bits e n ^^^ 2 ^ (w - 1) else bits e n) ∧
       copies (.mdual ⟨d, a, ty, m, fa⟩) (dualMask ga) (fun e n => bits e (15 - n)) ∧
       (∀ gm, copies (.mproj ⟨d, a, gm, ty, m, fa⟩) (ga &&& gm) bits) ∧
       copies (.mcvt ⟨d, a, ty, m, fa⟩) ga bits ∧
       (rm ≠ 4 → (m = true → s.st.dtagOf d = 0) → s.st.vl.toNat ≤ min 256 (vlmaxM ty ga) →
         let norm := fun (e k : Nat) => normF rm s.st.fz (squares ((A e).filter fun x => ideal x.1 == (k == 1)))
         ∃ t, exec (.mnorm ⟨d, a, ty, m, fa⟩) s = .next t ∧ s.mvAre t d 32 2 m (fun e k => (norm e k).1) ∧
           s.flagsGain t m (fun e => (norm e 0).2 ||| (norm e 1).2) ∧ t.st.tag d = 0 ∧ frame t) ∧
       (rm ≠ 4 → fits (mvTag ty ga) ga ty →
         let en := fun (e : Nat) => (squares ((A e).filter fun x => !ideal x.1)).1
         let nan := fun (e : Nat) => (A e).any fun x => x.2.isNan
         ∃ t, exec (.munit ⟨d, a, ty, m, fa⟩) s = .next t ∧
           s.mvAre t d w c m (fun e k => if nan e then F.nan else if (en e).isZero then F.nan
             else (unitF F rm s.st.fz (en e) (at_ e k)).1) ∧
           s.flagsGain t m (fun e => if nan e then (A e).foldr (fun x acc => signals x.2 ||| acc) 0
             else if (en e).isZero then flagNV
             else all ((List.range c).map fun k => unitF F rm s.st.fz (en e) (at_ e k))) ∧
           t.st.tag d = mvTag ty ga ∧ frame t) ∧
       (∀ (b : Reg) (rep : BitVec 3) (fb : Bool), rm ≠ 4 → (rep = 0 ∨ d ≠ b) → s.st.dtagOf b = 0 →
         fits (mvTag ty ga) ga ty → (rep = 0 → s.st.vl.toNat ≤ vlmaxOf w) →
         let scaled := fun (e k : Nat) => roundSum F rm s.st.fz (exactSum
           [(false, [at_ e k, readF F s.st.fz (s.elem b w (srcb rep e))])])
         ∃ t, exec (.mscale ⟨d, a, b, ty, m, rep, fa, fb⟩) s = .next t ∧ s.mvAre t d w c m (fun e k => (scaled e k).1) ∧
           s.flagsGain t m (fun e => all ((List.range c).map (scaled e))) ∧ t.st.tag d = mvTag ty ga ∧ frame t) ∧
       (ga = 0b00100 → series (.mexp ⟨d, a, ty, m, fa⟩) 0b10101 exotic flat
         (fun e n => if n = 0 then F.bias * 2 ^ F.frac else if 5 ≤ n ∧ n ≤ 7 then bits e n else 0)
         (fun e n => expComponent (N e) (commonExp (A e)) n)) ∧
       (ga.getLsbD 1 = false → ga.getLsbD 3 = false →
         let still := fun (e : Nat) => [8, 9, 10].all fun n => (N e).at n == 0
         let value := fun (e n : Nat) => if n ∈ bladesOf ga then bits e n else 0
         series (.mlog ⟨d, a, ty, m, fa⟩) 0b00100 (fun e => exotic e || flat e)
           (fun e => still e && value e 0 == F.bias * 2 ^ F.frac) (fun e n => if n ≤ 7 then value e n else 0)
           (fun e n => if still e = true then (if (N e).at n = 0 then none else some ((N e).at n * one / (N e).at 0))
             else logComponent (N e) n))) ∧
     ∀ src : BitVec 2, src ≠ 3 → src ≠ ty → s.st.dtagOf a = mvTag src ga → (widens src ty = true ∨ rm ≠ 4) →
       fits (mvTag ty ga) ga src →
       let conv := fun (e k : Nat) => convertF F rm s.st.fz (readF (fmtOf src) s.st.fz (s.elem a (fmtOf src).width (c * e + k)))
       ∃ t, exec (.mcvt ⟨d, a, ty, m, fa⟩) s = .next t ∧ s.mvAre t d w c m (fun e k => (conv e k).1) ∧
         s.flagsGain t m (fun e => all ((List.range c).map (conv e))) ∧ t.st.tag d = mvTag ty ga ∧ frame t) ∧
  ((∀ (o : VMemOps) (s : State) (p : Nat → Place) (dA : Nat → Bool),
     let w := (fmtOf o.ty).width
     let n := w / 8
     let g := s.st.vgm
     let c := gradeCount g
     let addr := fun j => s.st.xget o.a + o.disp.signExtend 64 * BitVec.ofNat 64 n + BitVec.ofNat 64 (j * n)
     let want := fun j => j / c < s.st.vl.toNat ∧ s.st.on o.m (j / c) = true
     let reaches := fun acc => ∀ j, want j →
       canonical (addr j) = true ∧ (addr j).toNat % n = 0 ∧ s.check acc 1 n (addr j) = .ok (p j) (dA j)
     s.quiet → o.ty ≠ 3 → s.usable [o.a] [] → g ≠ 0 → 0 < s.st.vl.toNat → s.st.vl.toNat ≤ vlmaxM o.ty g →
     ((o.m = true → s.st.dtagOf o.d = mvTag o.ty g) → reaches .read → (∀ j, want j → s.poisonAt (addr j) (p j) n = none) →
       ∃ t, exec (.mld o) s = .next t ∧
         (∀ j, j < vlmaxOf w → (want j → t.elem o.d w j = ofBytes (s.placeBytes (p j) n)) ∧
           (¬want j → t.elem o.d w j = s.elem o.d w j)) ∧
         t.st.tag o.d = mvTag o.ty g ∧ s.vectorDone t [] [o.d] ∧ t.st.vm = s.st.vm ∧ s.keepsFlags t) ∧
     (s.st.dtagOf o.d = mvTag o.ty g → reaches .write → Memory.wf s.mem = true →
       ∃ t, exec (.mst o) s = .next t ∧ t.st.pc = s.st.pc + 4 ∧ t.st.queue = [] ∧ s.keepsV t [] ∧ t.st.vm = s.st.vm ∧
         s.keepsFlags t ∧ s.keepsTiles t ∧ Memory.wf t.mem = true ∧
         ((s.context s.st.ctx).ulOn = false →
           s.storesSlots t want n p (fun j => bytesOf n (s.elem o.d w j)) ∧ s.vectorKept t [] []))) ∧
   (∀ (o : MSetgOps) (s : State), s.quiet →
     ∃ t, exec (.msetg o) s = .next t ∧ t.st.tag o.d = (if o.gm = 0 then 0 else o.gm ++ o.ty ++ 1#1) ∧
       t.st.vget o.d = s.st.vget o.d ∧ s.vectorDone t [] [o.d] ∧ t.st.vm = s.st.vm ∧ s.keepsFlags t) ∧
   ∀ (o : DA) (s : State), s.usable [] [o.d] →
     exec (.mgettag o) s = .next (s.setX o.d ((s.st.dtagOf o.a).zeroExtend 64)).advance)

/-! ## Tiles, sparsity, rays -/

/-- R201 to R204: `ton`, the grant to a waiting request, and `toff`. A request is granted from the iteration's
reservation, or when no other strand of the core asked earlier and the pool of eight tiles has enough; the granted tiles
hold +0 in every element, and those of a resumed strand what its area held. A request that cannot be granted waits. -/
def Obligations.TileOwnership : Prop :=
  (∀ (s : State) (n stamp : Nat),
    s.canGrant n stamp = true ↔
      n ≤ s.st.iter.tiles ∨
      ((∀ k, k < 4 → 4 * coreOf s.cur + k ≠ s.cur →
        ∀ r, (s.strand (4 * coreOf s.cur + k)).tonPend = some r → stamp ≤ r.stamp) ∧
        n ≤ 8 - ((List.range 4).map fun k => (s.strand (4 * coreOf s.cur + k)).tilesHeld).sum + s.st.iter.tiles)) ∧
  (∀ (n : BitVec 2) (s : State),
    let kept := fun (t : State) => s.keepsX t [] ∧ s.keepsV t [] ∧ t.st.vm = s.st.vm ∧ s.keepsFlags t ∧ s.keepsTrap t ∧
      s.keepsModes t ∧ s.keepsMemory t ∧ t.st.queue = s.st.queue
    let granted := fun (t : State) (m : Nat) => t.st.tonOwned.toNat = m ∧ t.st.tonPend = none ∧ kept t
    let zero := fun (t : State) => ∀ h, t.st.tile h = 0
    s.st.tonOwned = 0 →
    (s.st.tonPend = none → s.canGrant (n.toNat + 1) s.stamp = true →
      ∃ t, exec (.ton n) s = .next t ∧ granted t (n.toNat + 1) ∧ zero t ∧ t.st.pc = s.st.pc + 4) ∧
    (s.st.tonPend = none → s.canGrant (n.toNat + 1) s.stamp = false →
      ∃ t, exec (.ton n) s = .next t ∧ t.st.tonPend = some ⟨n.toNat + 1, s.stamp, true, false⟩ ∧ t.st.tonOwned = 0 ∧
        t.st.pc = s.st.pc ∧ kept t) ∧
    ∀ r, s.st.tonPend = some r → r.tiles ≤ 4 → s.canGrant r.tiles r.stamp = true →
      ∃ t, exec .tonGrant s = .next t ∧ granted t r.tiles ∧
        (r.resume = true → t.st.tiles = s.st.tiles ∧ t.st.pc = s.st.pc) ∧
        (r.resume = false → zero t ∧ t.st.pc = if r.decode then s.st.pc + 4 else s.st.pc)) ∧
  ∀ s : State,
    (s.st.tonOwned ≠ 0 → s.st.held = false → s.st.busy = false →
      ∃ t, exec .toff s = .next t ∧ t.st.tonOwned = 0 ∧ t.st.pc = s.st.pc + 4 ∧ s.keepsX t [] ∧ s.keepsV t [] ∧
        t.st.vm = s.st.vm ∧ s.keepsFlags t ∧ s.keepsTrap t ∧ s.keepsModes t ∧ s.keepsMemory t) ∧
    (s.st.tonOwned = 0 → exec .toff s = .next (s.decodeTrap .toff 0x04)) ∧
    ∀ n, s.st.tonOwned ≠ 0 → exec (.ton n) s = .next (s.decodeTrap (.ton n) 0x02)

/-- R205, R206, R209, R210, R213, R216: the tile instructions on tiles that the strand owns, of a quiet strand. `tzero` puts
+0 into the enabled elements; `topa` adds the outer product of va with each of the registers from vb on; `tspa` adds, for
each row, the kept elements of va against the dense registers that the metadata names. Each step is a multiply-add rounded
once to nearest even, whatever `frm` is. Elements whose row or column is disabled, and the other tiles, are kept. A handle
beyond the tiles owned traps.

R211, R212: the tile-slice moves. Element e of the group is register e div n, element e mod n, where n elements of the
type fill a register, and the tile's element (f + e div 32, e mod 32), or its transpose for `tmvc`, where f is the value of
rb. To registers each enabled element is rounded to nearest even and the others are kept; to the tile each is widened and
the tile's other elements are kept. -/
def Obligations.TileInstructions : Prop :=
  (∀ s : State, s.quiet →
     let own := min s.st.tonOwned.toNat 4
     let on := fun i j => s.st.trp.getLsbD i && s.st.tcp.getLsbD j
     let old := fun h i j => elemOf (s.st.tile h) 32 (32 * i + j)
     let done := fun (i : Instr) (h n : Nat) (f : Nat → Nat → Nat → Nat × FFlags) =>
       ∃ t, exec i s = .next t ∧
         (∀ k r c, k < n → r < 32 → c < 32 →
           elemOf (t.st.tile (h + k)) 32 (32 * r + c) = if on r c then (f k r c).1 % 2 ^ 32 else old (h + k) r c) ∧
         (∀ g, (g < h ∨ h + n ≤ g) → t.st.tile g = s.st.tile g) ∧
         (∀ b : Fin 7, t.st.fflags.getLsbD b = true ↔ s.st.fflags.getLsbD b = true ∨
           ∃ k r c, k < n ∧ r < 32 ∧ c < 32 ∧ on r c = true ∧ (f k r c).2.getLsbD b = true) ∧
         t.st.tonOwned = s.st.tonOwned ∧ s.vectorKept t [] [] ∧ t.st.vm = s.st.vm ∧ s.keepsMemory t
     (∀ h : Reg, s.vlFits 8 → h.toNat + 1 ≤ own → done (.tzero h) h.toNat 1 (fun _ _ _ => (0, 0))) ∧
     (∀ o : TopaOps,
       let F := fmtOf o.ty
       let n := o.count.toNat + 1
       (Instr.topa o).wf = true → s.vlFits F.width → o.h.toNat + n ≤ own → o.b.toNat + n ≤ 32 →
       (n = 1 ∨ o.a.toNat < o.b.toNat ∨ o.b.toNat + n ≤ o.a.toNat) →
       done (.topa o) o.h.toNat n fun k r c =>
         fmaF f32 0 false (unpack f32 (old (o.h.toNat + k) r c)) (unpack F (s.elem o.a F.width r))
           (unpack F (s.elem (regAt o.b k) F.width c))) ∧
     (∀ o : TspaOps,
       let F := fmtOf o.ty
       let n := if o.pat then 8 else 4
       let row := fun i => 32 * o.sel.toNat + i
       let kept := fun i => keptOf (s.st.vget (regAt o.a 1)) o.pat (row i)
       (Instr.tspa o).wf = true → s.vlFits F.width → o.h.toNat + 1 ≤ own → o.a.toNat + 2 ≤ 32 → o.b.toNat + n ≤ 32 →
       (o.a.toNat + 2 ≤ o.b.toNat ∨ o.b.toNat + n ≤ o.a.toNat) → n / 2 * row 32 ≤ 16384 / F.width →
       (∀ i, i < 32 → s.st.trp.getLsbD i = true →
         wellFormedGroup (s.st.vget (regAt o.a 1)) o.pat (row i) = true) →
       done (.tspa o) o.h.toNat 1 fun _ r c =>
         (List.range (n / 2)).foldl (fun acc k =>
           let x := fmaF f32 0 false (unpack f32 acc.1) (unpack F (s.elem o.a F.width (n / 2 * row r + k)))
             (unpack F (s.elem (regAt o.b ((kept r).getD k 0)) F.width c))
           (x.1, acc.2 ||| x.2)) (old o.h.toNat r c, 0)) ∧
     ∀ h : Reg,
       (s.st.tonOwned = 0 → exec (.tzero h) s = .next (s.decodeTrap (.tzero h) 0x04)) ∧
       (s.st.tonOwned ≠ 0 → s.st.tonOwned.toNat ≤ h.toNat → exec (.tzero h) s = .next (s.decodeTrap (.tzero h) 0x02))) ∧
  (∀ s : State, s.quiet → s.vlFits 16 →
     let own := min s.st.tonOwned.toNat 4
     let vl := s.st.vl.toNat
     (∀ (o : TmvOps) (cols : Bool),
       let w := (fmtOf o.ty).width
       let n := 16384 / w
       let first := (s.st.xget o.b).toNat
       let regs := (vl * (w / 8) + 2047) / 2048
       let cell := fun e => if cols then (e % 32, first + e / 32) else (first + e / 32, e % 32)
       let f := fun e =>
         let x := elemOf (s.st.tile o.h.toNat) 32 (32 * (cell e).1 + (cell e).2)
         if o.ty = 2 then (x, (0 : FFlags)) else convertF (fmtOf o.ty) 0 false (unpack f32 x)
       o.ty ≠ 3 → o.h.toNat + 1 ≤ own → s.usable [o.b] [] → o.d.toNat + regs ≤ 32 → first + (vl + 31) / 32 ≤ 32 →
       ∃ t, exec (if cols then .tmvc o else .tmvr o) s = .next t ∧
         (∀ r k, r < regs → k < n → t.elem (regAt o.d r) w k =
           if n * r + k < vl ∧ s.st.on o.m (n * r + k) = true then (f (n * r + k)).1 % 2 ^ w else s.elem (regAt o.d r) w k) ∧
         (∀ b : Fin 7, t.st.fflags.getLsbD b = true ↔ s.st.fflags.getLsbD b = true ∨
           ∃ e, e < vl ∧ s.st.on o.m e = true ∧ (f e).2.getLsbD b = true) ∧
         s.vectorDone t [] ((List.range regs).map (regAt o.d)) ∧ t.st.vm = s.st.vm) ∧
     ∀ o : TmvwOps,
       let w := (fmtOf o.ty).width
       let n := 16384 / w
       let first := (s.st.xget o.b).toNat
       let f := fun e =>
         let x := s.elem (regAt o.a (e / n)) w (e % n)
         if o.ty = 2 then x else (convertF f32 0 false (unpack (fmtOf o.ty) x)).1
       o.ty ≠ 3 → o.h.toNat + 1 ≤ own → s.usable [o.b] [] → o.a.toNat + (vl * (w / 8) + 2047) / 2048 ≤ 32 →
       first + (vl + 31) / 32 ≤ 32 →
       ∃ t, exec (.tmvw o) s = .next t ∧
         (∀ i j, i < 32 → j < 32 → elemOf (t.st.tile o.h.toNat) 32 (32 * i + j) =
           if first ≤ i ∧ 32 * (i - first) + j < vl ∧ s.st.on o.m (32 * (i - first) + j) = true ∧
             s.st.trp.getLsbD i = true ∧ s.st.tcp.getLsbD j = true
           then f (32 * (i - first) + j) % 2 ^ 32 else elemOf (s.st.tile o.h.toNat) 32 (32 * i + j)) ∧
         (∀ g, g ≠ o.h.toNat → t.st.tile g = s.st.tile g) ∧ t.st.tonOwned = s.st.tonOwned ∧
         s.vectorKept t [] [] ∧ t.st.vm = s.st.vm ∧ s.keepsMemory t)

/-- R213 to R215: `vspc` keeps half of each group of four or eight, those of largest magnitude and the lower position among
equals, in rising order, and writes which they were; `vspx` puts them back with +0 elsewhere, once every group's metadata is
well formed. Of a floating type the magnitude is the encoding without its sign, every NaN above all numbers; of an integer
type the absolute value, the most negative the largest. Which of the two a code other than 0 stands for is free (log 29).

R276 to R278: the ray instructions. Bit e of `vm` says whether ray e meets the box or the triangle, and element e of vd
is the distance, +∞ on a miss: the entry into the box rounded down, the distance to the triangle rounded to nearest even. No
flag is raised. The sign of a distance that is exactly zero is free (log 30). -/
def Obligations.SparsityAndRays : Prop :=
  ((∀ (key : Nat → Nat) (n : Nat), n = 4 ∨ n = 8 →
     (keepOf key n).length = n / 2 ∧ (keepOf key n).Pairwise (· < ·) ∧
     ∀ p q, p ∈ keepOf key n → q < n → q ∉ keepOf key n → key q < key p ∨ (key q = key p ∧ p < q)) ∧
   ∀ (o : VspOps) (s : State),
     let F := fmtOf o.ty
     let w := F.width
     let n := if o.pat then 8 else 4
     let mw := if o.pat then 16 else 4
     let groups := s.st.vl.toNat / n
     s.quiet → s.vlFits w → s.st.vl.toNat % n = 0 →
     (o.d.toNat + 2 ≤ 32 → (o.a.toNat < o.d.toNat ∨ o.d.toNat + 2 ≤ o.a.toNat) →
       let key := fun x => if o.ty ≠ 0 ∧ Config.vspcInteger o.ty = true then (if x < 2 ^ (w - 1) then x else 2 ^ w - x)
         else magKey F x
       let keep := fun g => keepOf (fun p => key (s.elem o.a w (n * g + p))) n
       ∃ t, exec (.vspc o) s = .next t ∧
         (∀ g k, g < groups → k < n / 2 →
           t.elem o.d w (n / 2 * g + k) = s.elem o.a w (n * g + (keep g).getD k 0)) ∧
         (∀ g, g < groups → t.elem (regAt o.d 1) mw g =
           (((keep g).mapIdx fun k p => p * (if o.pat then 8 else 4) ^ k).sum)) ∧
         (∀ e, n / 2 * groups ≤ e → e < vlmaxOf w → t.elem o.d w e = s.elem o.d w e) ∧
         (∀ g, groups ≤ g → g < 16384 / mw → t.elem (regAt o.d 1) mw g = s.elem (regAt o.d 1) mw g) ∧
         t.st.tag o.d = 0 ∧ t.st.tag (regAt o.d 1) = 0 ∧ s.vectorDone t [] [o.d, regAt o.d 1] ∧ t.st.vm = s.st.vm ∧
         s.keepsFlags t) ∧
     (o.a.toNat + 2 ≤ 32 → (o.d.toNat < o.a.toNat ∨ o.a.toNat + 2 ≤ o.d.toNat) →
       (∀ g, g < groups → wellFormedGroup (s.st.vget (regAt o.a 1)) o.pat g = true) →
       let kept := fun g => keptOf (s.st.vget (regAt o.a 1)) o.pat g
       ∃ t, exec (.vspx o) s = .next t ∧
         (∀ g k, g < groups → k < n / 2 →
           t.elem o.d w (n * g + (kept g).getD k 0) = s.elem o.a w (n / 2 * g + k)) ∧
         (∀ g p, g < groups → p < n → p ∉ kept g → t.elem o.d w (n * g + p) = 0) ∧
         (∀ e, s.st.vl.toNat ≤ e → e < vlmaxOf w → t.elem o.d w e = s.elem o.d w e) ∧
         t.st.tag o.d = 0 ∧ s.vectorDone t [] [o.d] ∧ t.st.vm = s.st.vm ∧ s.keepsFlags t)) ∧
  (∀ (o : RayOps) (s : State), s.quiet → s.vlFits 32 → o.a.toNat + 8 ≤ 32 →
     let x := fun k e => unpack f32 (s.elem (regAt o.a k) 32 e)
     let ray := fun e => (⟨(x 0 e, x 1 e, x 2 e), (x 3 e, x 4 e, x 5 e), x 6 e, x 7 e⟩ : Ray)
     let b := fun k => unpack f32 (s.elem o.b 32 k)
     let done := fun (i : Instr) (hit : Nat → Option (FVal × Nat)) =>
       ∃ t, exec i s = .next t ∧ s.maskIs t o.m (fun e => (hit e).isSome) ∧
         (∀ e, e < 512 →
           (e < s.st.vl.toNat → s.st.on o.m e = true →
             (hit e = none → t.elem o.d 32 e = 0x7F800000) ∧
             (∀ x y, hit e = some (x, y) → (x.isZero = true → t.elem o.d 32 e % 2 ^ 31 = 0) ∧
               (x.isZero = false → t.elem o.d 32 e = y))) ∧
           ((s.st.vl.toNat ≤ e ∨ s.st.on o.m e = false) → t.elem o.d 32 e = s.elem o.d 32 e)) ∧
         t.st.tag o.d = 0 ∧ s.vectorDone t [] [o.d] ∧ s.keepsFlags t
     done (.vbox o) (fun e =>
       (boxHit (ray e) (b 0, b 1, b 2) (b 3, b 4, b 5)).map fun t => (t, (roundF f32 2 false t).1)) ∧
     done (.vtri o) (fun e =>
       (triHit (ray e) (b 0, b 1, b 2) (b 3, b 4, b 5) (b 6, b 7, b 8)).map fun t => (t.1, rayQuotient t.1 t.2)))

/-! ## Commands, launches, the die and the package -/

/-- R224, R300, R374, R378: `pload`, `penq` and the engine commands of a quiet strand. The record at xa is read through the
strand's load path, with the record that it names, and the snapshot enters the queue of its engine, or of its cluster's
Pontoon, behind the older entries. A named record at a misaligned address is not read: the command is queued without it, to
complete as malformed (DEDUCED, log 56). -/
def Obligations.CommandsQueueASnapshot : Prop :=
  ∀ (o : AOps) (s : State) (p q : Nat → Place) (dA dB : Nat → Bool),
    let a := s.st.xget o.a
    let at_ := fun (va : Word) (pl : Nat → Place) (d : Nat → Bool) (n : Nat) =>
      canonical va = true ∧ ∀ i, i < n → s.check .read 1 1 (va + BitVec.ofNat 64 i) = .ok (pl i) (d i) ∧
        s.poisonAt (va + BitVec.ofNat 64 i) (pl i) 1 = none
    let bytes := fun (pl : Nat → Place) (n : Nat) => (List.range n).map fun i => s.placeByte (pl i)
    let kept := fun (t : State) => s.vectorDone t [] [] ∧ t.st.vm = s.st.vm ∧ s.keepsFlags t
    s.quiet → s.usable [o.a] [] →
    (∀ (i : Instr) (e : Engine) (named : Option Word) (m : Nat),
      let bs := bytes p 64
      let f := fun off => wordOfField bs off
      (i, e, named, m) ∈ [(.xcopy o, .copy, if fieldOf bs 0x12 1 = 1 then some (f 0x28) else none, 64),
        (.xwharf o, .wharf, if fieldOf bs 0x12 1 = 1 then some (f 0x20) else none, 128), (.xpix o, .pix, some (f 0x18), 64),
        (.xtrain o, .train, none, 64), (.xcoll o, .coll, some (f 0x28), 64)] →
      a.toNat % 64 = 0 → at_ a p dA 64 → (∀ r, named = some r → r.toNat % m = 0 → at_ r q dB m) →
      ∃ t, exec i s = .next t ∧
        t.cmds = s.cmds ++ [{
          id := s.stamp, engine := e, desc := a, bytes := bs
          extra := if named.any fun r => r.toNat % m == 0 then bytes q m else []
          strand := s.cur, ctx := s.st.ctx, iter := s.st.iter.id, die := dieOf s.cur
          started := false, cancelled := false, acks := [], status := 0, fault := 0 }] ∧ kept t) ∧
    ∀ (load : Bool),
      let size := if load then 64 else 128
      let bs := bytes p size
      let k := clusterOf s.cur
      a.toNat % size = 0 → at_ a p dA size → (s.cluster k).items.length < 256 →
      (load = false → (fieldOf bs 0x12 1).testBit 1 = true → s.pcfgWaits (fieldOf bs 0x15 1 % 4) = false) →
      ∃ t, exec (if load then .pload o else .penq o) s = .next t ∧
        (t.cluster k).items = (s.cluster k).items ++ [{
          id := s.stamp, load, recAddr := a, bytes := bs, strand := s.cur, ctx := s.st.ctx, iter := s.st.iter.id
          launch := if s.st.iter.work = .launch then s.st.iter.launch else s.stamp
          running := false, cancelled := false, again := false }] ∧
        (t.cluster k).banks = (s.cluster k).banks ∧ (∀ j, j ≠ k → t.cluster j = s.cluster j) ∧ kept t

/-- R235 to R237, R244: `pcfg` reads the block, the map and the curves, then installs a configuration that keeps R235 and
R236 and answers 0; a malformed block answers 1 and installs nothing, without a further read where an address of it is
misaligned (log 91). `pstat` answers a query about a bank, the queue, or the reservation.

R225: the scheduler of a cluster dispatches the oldest item that is ready and names no bank of a running or older waiting
item, while fewer than eight run. Here every older item runs, the item's dependence, if it has one, is met, and a load that
waits for the tide can finish before the next window. A task is checked then (R229): 0x06 where it names a bank that is not
reserved to its launch.

R225 to R227, R240, R245: PONTOON_ITEM_COMPLETE. An item of a cancelled issuer that did not run completes with status
0x07, and a task that failed a check when it was dispatched with that check's status. A running load of device memory into a
bank reserved to its launch leaves the named blocks in the bank, which its context then owns, and completes with status 0.

R228 to R239: what a task computes, for one element: one row of A and one column of B, of one block each. The positions
outside zero blocks and in a branch form runs, a new one wherever the branch or a scale changes; each run's exact integer
sum is added with one rounding to nearest even. A plain task adds the runs to the element of C, or to +0. A dendritic task
adds the runs of each branch, puts the sum through the branch's curve, clamped to its ends, and adds the result times the
branch's weight with one rounding; a task with taps, here of one branch, first writes the sum and the gain. C is written
last, and the status holds the flags. -/
def Obligations.PontoonUnits : Prop :=
  ((∀ (o : SelOps) (s : State) (p pm pc : Nat → Place) (dA dM dC : Nat → Bool) (e : Nat) (cv : Nat → Curve),
     let a := s.st.xget o.a
     let at_ := fun (va : Word) (pl : Nat → Place) (d : Nat → Bool) (n : Nat) =>
       ∀ i, i < n → s.check .read 1 1 (va + BitVec.ofNat 64 i) = .ok (pl i) (d i) ∧
         s.poisonAt (va + BitVec.ofNat 64 i) (pl i) 1 = none
     let f := fun (pl : Nat → Place) off n => ofBytes ((List.range n).map fun i => s.placeByte (pl (off + i)))
     let n := f p 0x10 1
     let start := fun k => f pm (16 + 8 * k) 2
     let count := fun k => f pm (18 + 8 * k) 2
     let branch := fun k => f pm (20 + 8 * k) 1
     let k := clusterOf s.cur
     s.quiet → s.usable [o.a] [o.d] → a.toNat % 64 = 0 → at_ a p dA 64 → s.gateShut o.sel.toNat = false →
     let malformed := ∃ t, exec (.pcfg o) s = .next t ∧ t.st.xget o.d = (if o.d = 0 then 0 else 1) ∧
       t.st.isFull o.d = true ∧ (∀ j, t.cluster j = s.cluster j) ∧ s.vectorDone t [o.d] [] ∧ t.st.vm = s.st.vm ∧
       s.keepsFlags t
     (f p 0 8 % 16 ≠ 0 ∨ f p 8 8 % 16 ≠ 0 → malformed) ∧
     (n = 0 → f p 0 8 % 16 = 0 → f p 8 8 % 16 = 0 → at_ (BitVec.ofNat 64 (f p 0 8)) pm dM 16 →
       (1 ≤ f pm 0 2 → f pm 0 2 ≤ 64 → at_ (BitVec.ofNat 64 (f p 0 8)) pm dM (16 + 8 * f pm 0 2)) → malformed) ∧
     (1 ≤ n → n ≤ 16 → f p 0x11 47 = 0 → f p 0 8 % 16 = 0 → f p 8 8 % 16 = 0 →
       at_ (BitVec.ofNat 64 (f p 0 8)) pm dM (16 + 8 * e) → at_ (BitVec.ofNat 64 (f p 8 8)) pc dC (272 * n) →
       f pm 0 2 = e → 1 ≤ e → e ≤ 64 → f pm 2 14 = 0 →
       (∀ j, j < e → 1 ≤ count j ∧ branch j < n ∧ f pm (21 + 8 * j) 3 = 0) →
       (∀ j, j + 1 < e → start j < start (j + 1) ∧ start j + count j ≤ start (j + 1)) →
       (∀ b, b < n → ∃ j, j < e ∧ branch j = b) →
       (∀ b, b < n → curveFrom ((List.range 272).map fun i => s.placeByte (pc (272 * b + i))) = some (cv b)) →
       ∃ t g, exec (.pcfg o) s = .next t ∧ t.st.xget o.d = 0 ∧ t.st.isFull o.d = true ∧
         (t.cluster k).cfgs[o.sel.toFin] = some g ∧ g.ctx = s.st.ctx ∧ g.branches = n ∧
         g.ranges = ((List.range e).map fun j => (start j, count j, branch j)) ∧ g.curves = (List.range n).map cv ∧
         (∀ j : Fin 4, j ≠ o.sel.toFin → (t.cluster k).cfgs[j] = (s.cluster k).cfgs[j]) ∧
         (∀ j, j ≠ k → t.cluster j = s.cluster j) ∧ s.vectorDone t [o.d] [] ∧ t.st.vm = s.st.vm ∧ s.keepsFlags t)) ∧
   ∀ (o : PstatOps) (s : State),
     let q := o.q.toNat
     let c := s.cluster (clusterOf s.cur)
     let waiting := c.items.filter fun i => !i.running
     let running := c.items.filter fun i => i.running
     let mine := fun k => decide (s.st.iter.work = .launch ∧ (c.bank k).reserved = some s.st.iter.launch)
     s.quiet → s.usable [] [o.d] → q < 10 →
     ∃ t, exec (.pstat o) s = .next t ∧ t.st.isFull o.d = true ∧ s.vectorDone t [o.d] [] ∧ t.st.vm = s.st.vm ∧
       s.keepsFlags t ∧
       (o.d ≠ 0 → q = 8 → t.st.xget o.d = BitVec.ofNat 64 (65536 * running.length + waiting.length)) ∧
       (o.d ≠ 0 → q = 9 → ∀ k, k < 64 → ((t.st.xget o.d).getLsbD k = true ↔ k < 8 ∧ mine k = true)) ∧
       (o.d ≠ 0 → q < 8 → (running.all fun i => !i.bankMask.testBit q) = true →
         t.st.xget o.d = BitVec.ofNat 64 ((if (c.bank q).owner = some s.st.ctx then 2 ^ 35 else 0) +
           (if mine q then 2 ^ 34 else 0) + (waiting.filter fun i => i.bankMask.testBit q).length)) ∧
       ∀ i, o.d ≠ 0 → q < 8 → running = [i] → i.bankMask.testBit q = true →
         t.st.xget o.d = BitVec.ofNat 64 (2 ^ 48 * fieldOf i.bytes 0x10 2 +
           (if (c.bank q).owner = some s.st.ctx then 2 ^ 35 else 0) +
           (if mine q then 2 ^ 34 else 0) + 2 ^ 32 * (if i.load then 1 else 2) +
           (waiting.filter fun i => i.bankMask.testBit q).length)) ∧
  (∀ (s : State) (i : Item) (before after : List Item),
     let c := s.cluster s.args.k
     c.items = before ++ i :: after → (∀ x ∈ before, x.running = true) → i.running = false → i.cancelled = false →
     (c.items.filter fun x => x.running).length < 8 →
     (∀ x ∈ c.items, x.running = true → i.bankMask &&& x.bankMask = 0) →
     ((i.load = true ∧ (fieldOf i.bytes 0x12 1 = 1 → (fieldOf i.bytes 0x16 1).testBit 0 = true →
         (s.die (s.args.k / 16)).tideIn = false ∧
           fieldOf i.bytes 0x1A 2 * fieldOf i.bytes 0x15 1 ≤ (s.die (s.args.k / 16)).tideNext)) ∨
       (i.load = false ∧ taskCheck i.bytes = none ∧
       (fieldOf i.bytes 0x40 8 = 0 ∨ ∃ bs, s.engRead i.ctx .any (wordOfField i.bytes 0x40) 8 = .bytes bs ∧
         fieldOf i.bytes 0x48 8 ≤ ofBytes bs))) →
     ∃ t v, exec .pontoonDispatch s = .next t ∧
       (t.cluster s.args.k).items = c.items.map (fun x => if x.id = i.id then { x with running := true, verdict := v } else x) ∧
       (i.load = true → v = 0) ∧
       (i.load = false → (∃ q, q < 8 ∧ (fieldOf i.bytes 0x13 1).testBit q = true ∧ (c.bank q).reserved ≠ some i.launch) →
         v = 0x06) ∧
       (t.cluster s.args.k).banks = c.banks ∧ (∀ j, j ≠ s.args.k → t.cluster j = s.cluster j) ∧
       t.st = s.st ∧ s.keepsMemory t) ∧
  (∀ (s : State) (i : Item),
     let k := s.args.k
     let c := s.cluster k
     let gone : ClusterSt := { c with items := c.items.filter fun j => j.id != i.id }
     let done := fun (status : BitVec 32) => ({
       id := i.id, die := k / 16, ctx := i.ctx, iter := i.iter, desc := i.recAddr, pendBytes := 8, faultAt := if i.load then 0x38 else 0x78
       user := BitVec.ofNat 32 (fieldOf i.bytes 0x0C 4), tag := BitVec.ofNat 16 (fieldOf i.bytes 0x10 2)
       source := if i.load then 5 else 6, signal := wordOfField i.bytes (if i.load then 0x30 else 0x50)
       status, fault := 0 } : Completion)
     (c.items.find? fun x => x.id == s.args.j) = some i →
     (i.running = false → i.cancelled = true →
       exec .pontoonItemComplete s = .next ((s.setCluster k gone).finish (done 0x07))) ∧
     (i.running = true → i.load = false → i.verdict ≠ 0 → i.verdict ≠ 8 →
       exec .pontoonItemComplete s = .next ((s.setCluster k gone).finish (done (BitVec.ofNat 32 i.verdict)))) ∧
     ∀ (q : Nat) (blk : Nat × Nat → Nat),
       let f := fun off n => fieldOf i.bytes off n
       let src := fun (col slot : Nat) => wordOfField i.bytes 0x20 + BitVec.ofNat 64 col * wordOfField i.bytes 0x28 +
         BitVec.ofNat 64 (64 * slot)
       let named := fun (col slot : Nat) => 4 * (f 0x18 2 + col) + f 0x14 1 + slot
       i.running = true → i.load = true → f 0x12 1 = 0 → loadLayout i.bytes = true → f 0x13 1 = q →
       canonical (wordOfField i.bytes 0x20) = true → canonical (wordOfField i.bytes 0x30) = true →
       (c.bank q).reserved = some i.launch →
       (∀ col slot, col < f 0x1A 2 → slot < f 0x15 1 → legalFormat (blockFormat (blk (col, slot))) = true ∧
         ∃ bs, s.engRead i.ctx .described (src col slot) 64 = .bytes bs ∧ ofBytes bs = blk (col, slot)) →
       ∃ b, exec .pontoonItemComplete s = .next ((s.setCluster k (gone.setBank q b)).finish (done 0)) ∧
         b.owner = some i.ctx ∧ b.reserved = some i.launch ∧
         (∀ col slot, col < f 0x1A 2 → slot < f 0x15 1 → b.block (named col slot) = cleanBlock (blk (col, slot))) ∧
         ∀ x, (∀ col slot, col < f 0x1A 2 → slot < f 0x15 1 → named col slot ≠ x) → b.block x = (c.bank q).block x) ∧
  ((∀ l : List (Option Nat × Mant × Mant),
     let kept := l.filterMap fun x => match x.1, x.2.1.1, x.2.2.1 with
       | some b, some ea, some eb => some ((b, ea, eb), x.2.1.2 * x.2.2.2)
       | _, _, _ => none
     (runsFrom l none).map (fun r => (some (r.branch, r.ea, r.eb), r.sum)) =
       (kept.splitBy fun x y => x.1 == y.1).map fun g => (g.head?.map Prod.fst, (g.map Prod.snd).sum)) ∧
   (∀ (c : Curve) (v : Nat),
     let x := unpack f32 v
     let lo := unpack f32 c.x0.toNat
     let edge := fun i : Nat => (addExact 0 lo (.fin false i (readInt 8 false c.wexp.toNat))).1
     let seg := fun i => c.segs.getD i (0, 0)
     let fused := fun i t => fmaF f32 0 false (unpack f32 (seg i).2.toNat) (unpack f32 (seg i).1.toNat) t
     finiteF32 c.x0.toNat = true →
     (x.isNan = true → c.eval v = (f32.nan, f32.nan, 0)) ∧
     (x.isNan = false →
       (cmpF x lo < 0 → c.eval v = ((fused 0 lo).1, 0, (fused 0 lo).2)) ∧
       (0 < cmpF x (edge 32) → c.eval v = ((fused 31 (edge 32)).1, 0, (fused 31 (edge 32)).2)) ∧
       ∀ i, i < 32 → 0 ≤ cmpF x (edge i) → (cmpF x (edge (i + 1)) < 0 ∨ (i = 31 ∧ cmpF x (edge 32) = 0)) →
         c.eval v = ((fused i x).1, (seg i).1.toNat, (fused i x).2))) ∧
   ∀ (s : State) (i : Item) (q : Nat) (as_ cs : List Byte) (p : Place),
     let k := s.args.k
     let c := s.cluster k
     let t := taskOf i.bytes
     let b := c.bank q
     let u := s.setCluster k { c with items := c.items.filter fun j => j.id != i.id }
     let done := fun (flags : FFlags) => ({
       id := i.id, die := k / 16, ctx := i.ctx, iter := i.iter, desc := i.recAddr, pendBytes := 8, faultAt := 0x78
       user := BitVec.ofNat 32 (fieldOf i.bytes 0x0C 4), tag := BitVec.ofNat 16 (fieldOf i.bytes 0x10 2)
       source := 6, signal := wordOfField i.bytes 0x50
       status := BitVec.ofNat 32 (256 * flags.toNat), fault := 0 } : Completion)
     let ba := ofBytes as_
     let bb := b.block 0
     let mant := fun blk n =>
       (if blockIsZero blk then (none, 0) else (some (blockScale blk), blockMant (blockFormat blk) blk n) : Mant)
     let cfg := c.cfgs.getD (fieldOf i.bytes 0x15 1) none
     let runs := fun (branch : Nat → Option Nat) => runsFrom
       ((List.range (blockElems (blockFormat bb))).map fun n => (branch n, mant ba n, mant bb n)) none
     let add := fun (rs : List SumRun) (y : Nat) => rs.foldl (fun (acc : Nat × FFlags) r =>
       let z := addF f32 0 false (unpack f32 acc.1) (finOf false r.sum (r.ea + r.eb))
       (z.1, acc.2 ||| z.2)) (y, 0)
     let y0 := if t.mode.testBit 2 then ofBytes cs else 0
     (c.items.find? fun x => x.id == s.args.j) = some i → i.running = true → i.load = false → i.verdict = 0 →
     t.banks = [q] → t.slots = 1 → t.rows = 1 → t.cols = 1 → 2 ≤ blockFormat bb → blockFormat bb ≤ 8 →
     2 ≤ blockFormat ba → blockFormat ba ≤ blockFormat bb → b.poisoned = [] →
     s.engRead i.ctx .described t.abase 64 = .bytes as_ → (t.mode.testBit 2 = true → s.engRead i.ctx .plain t.cbase 4 = .bytes cs) →
     (t.mode.testBit 1 = false → t.mode.testBit 3 = false → s.engPlace i.ctx .write .plain t.cbase = some p →
       let y := add (runs fun _ => some 0) y0
       exec .pontoonItemComplete s = .next ((u.writeFrom (k / 16) i.ctx t.cbase p (bytesOf 4 y.1)).finish (done y.2))) ∧
     ∀ (g : DendCfg) (w : Nat → List Byte),
       let branch := fun n => (g.ranges.find? fun r => decide (r.1 ≤ n) && decide (n < r.1 + r.2.1)).map fun r => r.2.2
       let sum := fun b => add ((runs branch).filter fun r => r.branch == b) 0
       let curve := fun b => (g.curves.getD b ⟨0, 0, []⟩).eval (sum b).1
       let y := (List.range g.branches).foldl (fun (acc : Nat × FFlags) b =>
         let z := fmaF f32 0 false (unpack f32 acc.1) (unpack f32 (ofBytes (w b))) (unpack f32 (curve b).1)
         (z.1, acc.2 ||| (sum b).2 ||| (curve b).2.2 ||| z.2)) (y0, 0)
       t.mode.testBit 1 = true → cfg = some g →
       (t.mode.testBit 3 = false → (∀ b, b < g.branches →
         s.engRead i.ctx .plain (t.wbase + BitVec.ofNat 64 (4 * b)) 4 = .bytes (w b)) →
         s.engPlace i.ctx .write .plain t.cbase = some p →
         exec .pontoonItemComplete s = .next ((u.writeFrom (k / 16) i.ctx t.cbase p (bytesOf 4 y.1)).finish (done y.2))) ∧
       ∀ p1 p2 : Place,
         let tap1 : EngWrite := ⟨t.tbase, p1, bytesOf 4 (sum 0).1, false⟩
         let tap2 : EngWrite := ⟨t.tbase + 4, p2, bytesOf 4 (curve 0).2.1, false⟩
         let s1 := s.engWrites (k / 16) i.ctx [tap1]
         let s2 := s1.engWrites (k / 16) i.ctx [tap2]
         t.mode.testBit 3 = true → g.branches = 1 → s.engPlace i.ctx .write .plain t.tbase = some p1 →
         s1.engPlace i.ctx .write .plain (t.tbase + 4) = some p2 → s2.engRead i.ctx .plain t.wbase 4 = .bytes (w 0) →
         s2.engPlace i.ctx .write .plain t.cbase = some p →
         exec .pontoonItemComplete s = .next
           ((u.engWrites (k / 16) i.ctx [tap1, tap2, ⟨t.cbase, p, bytesOf 4 y.1, false⟩]).finish (done y.2)))

/-- R250, R251, R254, R255: `launch` of a record that keeps R251 and can be accepted: xd is 0, the launch is queued with its
iteration count, and its record shows the count with state 0x01; a parent graph that is not active starts. A record that
breaks R251 answers 1, an active one 5, one above the strand's priority 3, a coresident one that the die cannot hold 2, and
one whose parent is malformed, finished or unreadable 4; of these nothing else changes. A launch under a graph that is
being cancelled is accepted as a cancelled one (DEDUCED, log 43), and one whose record cannot be written is accepted and
places nothing (DEDUCED, log 48).

R262, R263: `cancel` of an active record of any level: xd is 0, and every launch and graph under it is cancelled, the
graphs' records in the nodes are dropped, and each running iteration of a cancelled launch has trap 0x17 pending, with the
record in `tval`. A finished record answers 1; one that is misaligned, or neither active nor finished, answers 2; of these
nothing else changes. A phase or a job is active while its state byte says so or a graph below it runs (DEDUCED,
log 44).

R269, R270: `emit` reads the record at xb, of the node's size, and then: from a launch iteration to a node of its graph,
with a berth free, the record becomes the youngest of the node and xd is 0; with none free the entry waits at the head of the
queue. A node batch spends its allowance: xd is 1 for a shallower node and 2 with no allowance left. Of a cancelled or
finished graph xd is 3, and without such a node 1. Where two codes apply their order is 1, 3, 2, after the read of the
record (DEDUCED, log 45). -/
def Obligations.LaunchCancelEmit : Prop :=
  (∀ (o : XUn) (s : State) (p : Nat → Place) (dA : Nat → Bool),
     let a := s.st.xget o.a
     let bs := (List.range 128).map fun i => s.placeByte (p i)
     let prio := fieldOf bs 0x2F 1
     let parent := wordOfField bs 0x10
     let c := s.context s.st.ctx
     let known := (s.launchAt s.st.ctx a).isSome = true ∨ fieldOf bs 0x08 1 = 1
     let answers := fun (code : Nat) => ∃ t, exec (.launch o) s = .next t ∧
       t.st.xget o.d = (if o.d = 0 then 0 else BitVec.ofNat 64 code) ∧ t.st.isFull o.d = true ∧ t.launches = s.launches ∧
       t.graphs = s.graphs ∧ s.vectorDone t [o.d] [] ∧ t.st.vm = s.st.vm ∧ s.keepsFlags t
     s.quiet → s.usable [o.a] [o.d] → a.toNat % 128 = 0 → canonical a = true →
     (∀ i, i < 128 → s.check .read 1 1 (a + BitVec.ofNat 64 i) = .ok (p i) (dA i) ∧
       s.poisonAt (a + BitVec.ofNat 64 i) (p i) 1 = none) →
     (nestLayout bs = false → answers 1) ∧
     (nestLayout bs = true → known → answers 5) ∧
     (nestLayout bs = true → ¬known → prio ≠ 0 → s.st.prio.toNat < prio - 1 → answers 3) ∧
     (nestLayout bs = true → ¬known → (prio = 0 ∨ prio - 1 ≤ s.st.prio.toNat) → (fieldOf bs 0x2A 1).testBit 1 = true →
       launchCapacity bs < totalOf bs → answers 2) ∧
     (nestLayout bs = true → ¬known → (prio = 0 ∨ prio - 1 ≤ s.st.prio.toNat) →
       ((fieldOf bs 0x2A 1).testBit 1 = true → totalOf bs ≤ launchCapacity bs) →
       (s.readParent s.st.ctx parent = .refused → answers 4) ∧
       (s.readParent s.st.ctx parent ≠ .refused → Memory.wf s.mem = true →
         ∃ t l, exec (.launch o) s = .next t ∧ t.st.xget o.d = 0 ∧ t.st.isFull o.d = true ∧
           t.launches = s.launches ++ [l] ∧ l.ctx = s.st.ctx ∧ l.recAddr = a ∧ l.bytes = bs ∧
           l.total = totalOf bs ∧ l.next = 0 ∧ l.live = 0 ∧ l.started = false ∧ l.strand = s.cur ∧
           l.prio = (if prio = 0 then c.prio else prio - 1) ∧
           l.die = (if fieldOf bs 0x36 1 = 0 then dieOf s.cur else fieldOf bs 0x36 1 - 1) ∧
           t.st.pc = s.st.pc + 4 ∧ t.st.queue = [] ∧ s.keepsV t [] ∧ t.st.vm = s.st.vm ∧ s.keepsFlags t ∧ s.keepsTiles t ∧
           Memory.wf t.mem = true ∧
           (∀ g, s.readParent s.st.ctx parent = .starts g →
             t.graphs = s.graphs ++ [{ g with id := s.stamp }] ∧ l.id = s.stamp + 1 ∧ l.cancelled = false) ∧
           ((parent = 0 ∨ ∃ g, parent ≠ 0 ∧ s.graphAt s.st.ctx parent = some g) →
             t.graphs = s.graphs ∧ l.id = s.stamp ∧
             (l.cancelled = true ↔ parent ≠ 0 ∧ (s.graphAt s.st.ctx parent).any Graph.cancelled = true) ∧
             (c.ulOn = false →
               (∀ r, s.engPlace s.st.ctx .write .any a = some r →
                 s.storesBytes t r (bytesOf 8 (totalOf bs) ++ bytesOf 4 1)) ∧
               (s.engPlace s.st.ctx .write .any a = none → s.keepsMemory t) ∧ s.vectorKept t [o.d] []))))) ∧
  (∀ (o : SelOps) (s : State),
     let a := s.st.xget o.a
     let ctx := s.st.ctx
     let level := o.sel.toNat
     let align := if level = 0 then 128 else 64
     let finishing := s.finishing.any fun f => f.ctx == ctx && f.recAddr == a && f.level == level
     let finished := (s.recordStatus ctx a).any finishedState || finishing
     let active := s.recordActive ctx a level && !finishing
     let answers := fun (code : Nat) => ∃ t, exec (.cancel o) s = .next t ∧
       t.st.xget o.d = (if o.d = 0 then 0 else BitVec.ofNat 64 code) ∧ t.st.isFull o.d = true ∧ t.launches = s.launches ∧
       t.graphs = s.graphs ∧ s.vectorDone t [o.d] [] ∧ t.st.vm = s.st.vm ∧ s.keepsFlags t
     let hitL := fun (l : Launch) => l.ctx == ctx && s.launchUnder l a level
     let hitG := fun (g : Graph) => g.ctx == ctx && s.graphUnder g a level
     s.quiet → s.usable [o.a] [o.d] → s.st.run = .running →
     (a.toNat % align ≠ 0 → answers 2) ∧
     (a.toNat % align = 0 → active = false → finished = true → answers 1) ∧
     (a.toNat % align = 0 → active = false → finished = false → answers 2) ∧
     (a.toNat % align = 0 → active = true →
       ∃ t, exec (.cancel o) s = .next t ∧ t.st.xget o.d = 0 ∧ t.st.isFull o.d = true ∧
         t.launches.map Launch.id = s.launches.map Launch.id ∧ t.graphs.map Graph.id = s.graphs.map Graph.id ∧
         (∀ l ∈ s.launches, hitL l = false → (∀ m ∈ s.launches, m.id = l.id → m = l) → l ∈ t.launches) ∧
         (∀ l ∈ s.launches, hitL l = true → ∃ m ∈ t.launches, m.id = l.id ∧ m.cancelled = true ∧ m.recAddr = l.recAddr) ∧
         (∀ g ∈ s.graphs, hitG g = true →
           ∃ h ∈ t.graphs, h.id = g.id ∧ h.cancelled = true ∧ ∀ n ∈ h.nodes, n.queue = []) ∧
         (∀ n l, n ≠ s.cur → l ∈ s.launches → hitL l = true → (s.strand n).ctx = ctx → (s.strand n).iter.work = .launch →
           (s.strand n).iter.launch = l.id → (s.strand n).run = .running →
           (t.strand n).pending = (s.strand n).pending ++ [{ cause := 0x17, tval := a }]) ∧
         t.st.pc = s.st.pc + 4 ∧ s.keepsX t [o.d] ∧ s.keepsV t [] ∧ t.st.vm = s.st.vm ∧ s.keepsFlags t ∧ s.keepsMemory t)) ∧
  (∀ (o : XOps) (s : State) (p : Nat → Place) (dA : Nat → Bool),
     let a := s.st.xget o.a
     let b := s.st.xget o.b
     let i := s.st.iter
     let answers := fun (code : Nat) => ∃ t, exec (.emit o) s = .next t ∧
       t.st.xget o.d = (if o.d = 0 then 0 else BitVec.ofNat 64 code) ∧ t.st.isFull o.d = true ∧ t.graphs = s.graphs ∧
       t.st.iter = i ∧ s.vectorDone t [o.d] [] ∧ t.st.vm = s.st.vm ∧ s.keepsFlags t
     let readable := fun (n : Nat) => canonical b = true ∧ b.toNat % 16 = 0 ∧
       ∀ j, j < n → s.check .read 1 1 (b + BitVec.ofNat 64 j) = .ok (p j) (dA j) ∧
         s.poisonAt (b + BitVec.ofNat 64 j) (p j) 1 = none
     s.quiet → s.usable [o.a, o.b] [o.d] →
     (s.nodeAt a = none → s.finishedNode a = none → answers 1) ∧
     (∀ size, s.nodeAt a = none → s.finishedNode a = some size → readable size → answers 3) ∧
     ∀ g k n, s.nodeAt a = some (g, k, n) → readable n.rsize →
       let depth := ((g.nodes[i.node]?).map Node.depth).getD 0
       let outside := i.work = .batch ∧ (n.depth < depth ∨ (n.depth = depth ∧ k ≠ i.node))
       let spent := i.work = .batch ∧ (if k = i.node then i.own = 0 else i.deeper = 0)
       let full := i.work ≠ .batch ∧ s.freeBerths g k = 0
       (outside → answers 1) ∧
       (¬outside → g.cancelled = true → answers 3) ∧
       (¬outside → g.cancelled = false → spent → answers 2) ∧
       (g.cancelled = false → full →
         ∃ t, exec (.emit o) s = .next t ∧ t.st.queue.map QEntry.instr = [.emit o] ∧ t.graphs = s.graphs ∧
           t.st.pc = s.st.pc + 4 ∧ (o.d ≠ 0 → t.st.isFull o.d = false) ∧ s.keepsRest t [o.d] []) ∧
       (¬outside → g.cancelled = false → ¬spent → ¬full →
         ∃ t, exec (.emit o) s = .next t ∧ t.st.xget o.d = 0 ∧ t.st.isFull o.d = true ∧
           t.graphs = s.graphs.map (fun h => if h.id = g.id then { h with nodes := h.nodes.modify k fun n =>
             { n with queue := n.queue ++ [(s.stamp, (List.range n.rsize).map fun j => s.placeByte (p j))] } } else h) ∧
           t.st.iter.own = (if i.work = .batch ∧ k = i.node then i.own - 1 else i.own) ∧
           t.st.iter.deeper = (if i.work = .batch ∧ k ≠ i.node then i.deeper - 1 else i.deeper) ∧
           t.st.pc = s.st.pc + 4 ∧ t.st.queue = [] ∧ s.keepsV t [] ∧ t.st.vm = s.st.vm ∧ s.keepsFlags t ∧ s.keepsTiles t ∧
           ((s.context s.st.ctx).ulOn = false → s.vectorKept t [o.d] [])))

/-- R18, R118 to R120, R129, R161: with the queue running ahead, decode captures a vector instruction into the youngest
entry, marks its x destination empty and goes on; a full queue of 64 waits. The vector side of a core starts, in rotation
after the strand that started last, the next strand's oldest entry that has not started, where its sources are full
(or one that is marked is empty, or its length is 0), it reads no result of an older entry, and the strand neither sleeps nor
has stopped. A started head that retires has its effect
on the elements of its captured `vl`.

R345: the recheck copy of the head runs in an idle slot (RECHECK_RUN), or takes its strand's turn in the rotation
(RECHECK_TIMEOUT). A copy that agrees lets the head retire. One that differs counts a mismatch of the die; the entry is
replayed once, and the second time, once each load in flight has delivered its value, the strand takes trap 0x14, a unit head
with `vstart` 0 and a stoppable one with its tags where `vstart` is not 0 (R144, R200); a load that has no value yet is decoded
again afterwards instead (log 84). Whether the copy differs is a free value (log 18).

R344, R346: a scalar instruction that reads a poisoned line waits for what is older, is decoded again once, and takes
the machine check the second time, with the line as `tval`. One that reads a poisoned x register takes it at once, with
`tval` 0. -/
def Obligations.QueueRunsAhead : Prop :=
  ((∀ (o : VSlideOps) (s : State),
     let w := 8 * 2 ^ o.ty.toNat
     s.pace ≠ .lockstep → s.st.held = false → s.st.vlFull = true → s.st.vl.toNat ≤ vlmaxOf w → s.st.vfull = -1 →
     s.usable [o.b] [] →
     (s.st.queue.length < 64 →
       ∃ t e, exec (.vslidedn o) s = .next t ∧ t.st.queue = s.st.queue ++ [e] ∧ e.instr = .vslidedn o ∧ e.pc = s.st.pc ∧
         e.b = s.st.xget o.b ∧ e.vl = s.st.vl ∧ e.vs = s.st.vs ∧ e.vgm = s.st.vgm ∧ e.frm = s.st.frm ∧ e.fz = s.st.fz ∧
         e.srcs = [o.a] ∧ e.marked = (if o.fa then [o.a] else []) ∧ e.lengthless = false ∧
         t.st.pc = s.st.pc + 4 ∧ s.keepsRest t [] []) ∧
     (64 ≤ s.st.queue.length → exec (.vslidedn o) s = .next s.stall)) ∧
   (∀ (d : Reg) (s : State), s.pace ≠ .lockstep → s.st.held = false → s.st.vlFull = true → s.st.vl.toNat ≤ vlmaxOf 8 →
     s.usable [] [d] → s.st.queue.length < 64 →
     ∃ t e, exec (.vmpopc d) s = .next t ∧ t.st.queue = s.st.queue ++ [e] ∧ e.instr = .vmpopc d ∧
       t.st.isFull d = decide (d = 0) ∧ t.st.pc = s.st.pc + 4 ∧ s.keepsRest t [d] []) ∧
   (∀ (s : State) (j : Nat),
     let core := s.args.k
     let at_ := fun i => 4 * core + ((s.core core).lastStart + 1 + i) % 4
     let u := s.strand (at_ j)
     (∀ older e rest, j < 4 → u.queue = older ++ e :: rest → (∀ x ∈ older, x.started = true) → e.started = false →
       u.run = .running → u.sleep = .awake → u.watch = false → u.tonPend = none →
       ((∀ r ∈ e.srcs, u.vFullNow r = true) ∨ (∃ r ∈ e.marked, u.vFullNow r = false) ∨ (e.lengthless = false ∧ e.vl = 0)) →
       e.needs older = false → (∀ i, i < j → (s.strand (at_ i)).issues = none) →
       ∃ t, exec .vectorIssue s = .next t ∧ (t.core core).lastStart = at_ j % 4 ∧
         (t.strand (at_ j)).queue = older ++ { e with started := true } :: rest ∧
         (∀ n, n ≠ at_ j → t.strand n = s.strand n) ∧ s.keepsMemory t) ∧
     ((∀ i, i < 4 → (s.strand (at_ i)).issues = none) → exec .vectorIssue s = .next s)) ∧
   (∀ (u : Strand) (older rest : List QEntry) (e : QEntry),
     u.queue = older ++ e :: rest → (∀ x ∈ older, x.started = true) → e.started = false →
     (u.run ≠ .running ∨ u.sleep ≠ .awake ∨ u.watch = true ∨ e.needs older = true ∨
       ((e.lengthless = true ∨ e.vl ≠ 0) ∧ (∃ r ∈ e.srcs, u.vFullNow r = false) ∧ ∀ r ∈ e.marked, u.vFullNow r = true)) →
     u.issues = none) ∧
   ∀ (o : VOps) (s : State) (e : QEntry),
     let w := 8 * 2 ^ o.ty.toNat
     s.st.queue = [e] → e.instr = .vadd o → e.started = true → s.st.run = .running → e.recheck = false → e.scalar = 0 →
     e.wtags = [(o.d, 0)] → s.st.tonPend = none → 0 < e.vl.toNat → e.vl.toNat ≤ vlmaxOf w →
     s.st.vstart = 0 → s.st.vfull = -1 → s.st.streams = [] → s.st.vpoison = [] → (o.rep = 0 ∨ o.d ≠ o.b) →
     ∃ t, exec .vectorEntryRetire s = .next t ∧ t.st.queue = [] ∧
       (∀ k, k < vlmaxOf w → t.elem o.d w k =
         if k < e.vl.toNat ∧ s.st.on o.m k = true then (s.elem o.a w k + s.elem o.b w (srcb o.rep k)) % 2 ^ w
         else s.elem o.d w k) ∧
       t.st.pc = s.st.pc ∧ s.keepsX t [] ∧ s.keepsV t [o.d] ∧ t.st.vm = s.st.vm ∧ s.keepsFlags t ∧ s.keepsTrap t ∧
       s.keepsMemory t) ∧
  (∀ (s : State) (e : QEntry) (rest : List QEntry) (i : Instr),
     let d := s.die (dieOf s.cur)
     let differs := Config.recheckDiffers s.freeCount = true
     s.st.queue = e :: rest → e.started = true → e.recheck = true → e.rechecked = false → (i = .recheckRun ∨ i = .recheckTimeout) →
     (i = .recheckTimeout → ∃ t, exec i s = .next t ∧ (t.core (coreOf s.cur)).lastStart = s.cur % 4) ∧
     (¬differs → (e.mismatchReplay = false ∨ s.st.loads = []) → ∃ t, exec i s = .next t ∧ t.st.queue = { e with rechecked := true } :: rest ∧ t.st.pc = s.st.pc ∧
       s.keepsRest t [] []) ∧
     (differs → e.mismatchReplay = false →
       ∃ t, exec i s = .next t ∧ (t.die (dieOf s.cur)).mismatches = d.mismatches + 1 ∧
         (t.die (dieOf s.cur)).replays = d.replays + 1 ∧
         (t.st.queue.all fun x => !x.started) = true ∧ t.st.queue.map QEntry.instr = s.st.queue.map QEntry.instr ∧
         t.st.queue.head?.all (fun x => x.mismatchReplay) = true ∧ t.st.pc = s.st.pc ∧ s.keepsRest t [] []) ∧
     (∀ f, formOf e = some f → differs → e.mismatchReplay = true → s.st.loads = [] → s.st.tvec ≠ 0 → s.st.held = false →
       ∃ t, exec i s = .next t ∧ (t.die (dieOf s.cur)).mismatches = d.mismatches + 1 ∧ t.st.tcause = 0x114 ∧
         t.st.tepc = s.st.pc.truncate 56 ∧ t.st.pc = s.st.tvec ∧ t.st.image = s.st.queue ∧
         t.st.vstart = (if f.grain = 0 then 0 else s.st.vstart) ∧
         (f.grain ≠ 0 → s.st.vstart ≠ 0 → ∀ r, t.st.tag r = (s.st.commitTags e).tag r)) ∧
     (∀ l loads, e.mismatchReplay = true → s.st.loads = l :: loads →
       (s.heldBack l = false → ∃ t, exec i s = .next t ∧ t.st = s.returnLoad.st ∧ t.st.queue = s.st.queue ∧
         t.st.pc = s.st.pc) ∧
       (s.heldBack l = true → s.st.canRewind l.seq = true → ∃ t, exec i s = .next t ∧ t.st.pc = l.pc ∧
         t.st.queue = s.st.queue.filter fun e => decide (e.seq < l.seq)))) ∧
  ((∀ (s : State) (line : Word), s.st.queue ≠ [] ∨ s.st.loads ≠ [] → s.consume line = s.stall) ∧
   (∀ (s : State) (line : Word), s.st.queue = [] → s.st.loads = [] → s.st.redecode ≠ some s.st.pc →
     (s.consume line).st.redecode = some s.st.pc ∧ (s.consume line).st.waiting = true ∧
       (s.consume line).st.pc = s.st.pc ∧ s.keepsRest (s.consume line) [] []) ∧
   (∀ (s : State), s.st.redecode = some s.st.pc →
     ∃ t, exec .scalarPoisonRedecode s = .next t ∧ t.st.waiting = false ∧ t.st.redecode = some s.st.pc ∧
       t.st.pc = s.st.pc ∧ s.keepsRest t [] []) ∧
   (∀ (s : State) (line : Word), s.st.queue = [] → s.st.loads = [] → s.st.redecode = some s.st.pc → s.st.tvec ≠ 0 →
     s.st.held = false →
     (s.consume line).st.tcause = 0x13 ∧ (s.consume line).st.tval = line ∧ (s.consume line).st.pc = s.st.tvec ∧
       ((s.consume line).die (dieOf s.cur)).mclog =
         (⟨0x13, s.cur, line, s.st.pc, 6⟩ :: (s.die (dieOf s.cur)).mclog).take 16) ∧
   ∀ (o : XOps) (s : State), s.st.allReady [o.a, o.b, o.d] = true → s.st.anyPoison [o.a, o.b] = true →
     (s.st.queue ≠ [] ∨ s.st.loads ≠ [] → exec (.add o) s = .next s.stall) ∧
     (s.st.queue = [] → s.st.loads = [] → s.st.tvec ≠ 0 → s.st.held = false →
       ∃ t, exec (.add o) s = .next t ∧ t.st.tcause = 0x13 ∧ t.st.tval = 0 ∧ t.st.tepc = s.st.pc.truncate 56 ∧
         t.st.pc = s.st.tvec ∧ s.keepsX t []))

/-- R109, R240, R241, R246, R301: an item or command completes. Its record's fault, status and pending fields are written,
where its page can be written; a further step of the same name delivers its event to its iteration, to the
oldest claim or else to the queue. Here the record lies in one page of that die, the signal is 0, no write is in flight and
nothing is logged. The step of the event is the model's choice (log 10).

R300, R303 to R306: an engine takes up a queued copy, and a started copy completes with the writes of its work. A
linear copy without conversion, in one line, delivers its source's bytes; one that converts an f32 element
to bf16 rounds it under its own mode. An unstarted command of a cancelled issuer completes with status 0x07; a start of
it changes nothing (DESIGN CHOICE, log 52).

R298, R307, R308: a Wharf write of one unit puts the 64 bytes of its source at its offset and heals the unit; a
seal, once no write to its regions runs, adds one to each region's count, bound to its launch. A command that names
a region not allocated to its context starts with status 0x03 and the offset.

R309 to R311: a die applies its share of a primitive, in the order of the numbers: of a single good fragment
inside the frame, the owner of its tile writes the pixel word, the others nothing, and each goes on to the next
number, before which it holds a later one. The primitive completes once all four have applied it.

R374 to R380: an element of a train that arrives is performed in the running context of its domain, as a write or an
atomic add; once every destination has answered 0 the command completes with status 0. A collective of one rank leaves
its elements, and combining two values takes their sum, maximum or minimum, rounded once.

R323: DIE_WRITE_APPLY. Where every write to the same die that its clock names is applied, the sent store is performed;
otherwise nothing happens. With no log, it alone leaves the flights and the die's clock takes
the later of each entry. -/
def Obligations.EngineCompletions : Prop :=
  ((∀ (s : State) (c : Completion) (p : Nat),
     let t := s.finish c
     t.posts = s.posts ++ [⟨c.id, c.die, c.ctx, c.iter,
       ⟨c.user, c.tag, c.status.truncate 8, c.source, c.desc, c.fault⟩⟩] ∧
     (c.signal = 0 → (c.pendBytes = 4 ∨ c.pendBytes = 8) → 12 ≤ c.faultAt → c.faultAt + 8 ≤ 128 →
       (∀ (m : List Host.Cell) (off : Nat), off ∈ [0, 8, c.faultAt] →
         (∀ a, (a < p ∨ p + 128 ≤ a) → memGet m a = memGet s.mem a) →
         ({ s with mem := m } : State).engPlace c.ctx .write .any (c.desc + BitVec.ofNat 64 off) = some (.mem (p + off))) →
       (s.context c.ctx).ulOn = false → s.flights = [] → c.die = (Place.mem p).home 0 →
       Memory.wf s.mem = true →
       (∀ a, memGet t.mem a =
         if p ≤ a ∧ a < p + c.pendBytes then 0
         else if p + 8 ≤ a ∧ a < p + 12 then (bytesOf 4 c.status.toNat).getD (a - p - 8) 0
         else if p + c.faultAt ≤ a ∧ a < p + c.faultAt + 8 then (bytesOf 8 c.fault.toNat).getD (a - p - c.faultAt) 0
         else memGet s.mem a) ∧
       Memory.wf t.mem = true ∧ t.st = s.st)) ∧
   (∀ (s : State) (p : Post) (i : Instr),
     let gone := { s with posts := s.posts.filter fun q => q.id != p.id }
     s.posts.find? (fun q => q.id == p.id) = some p → s.canPost p.iter = true →
     (i ∈ [.xcopyComplete, .xwharfWriteComplete, .xwharfSealComplete, .xpixComplete, .xtrainComplete, .xcollComplete] →
       s.args.k = p.id → s.cmd p.id = none → exec i s = .next (gone.postEvent p.die p.iter p.event)) ∧
     (s.args.j = p.id → (s.cluster s.args.k).items.find? (fun i => i.id == p.id) = none →
       exec .pontoonItemComplete s = .next (gone.postEvent p.die p.iter p.event))) ∧
   ∀ (s : State) (k id : Nat) (e : EvRec) (u : Strand),
     let t := s.postEvent k id e
     s.findIter id = some u → s.isSaved id = false → (u.claims ≠ [] ∨ u.events.length < 32) →
     s.keepsMemory t ∧
     (s.st.iter.work ≠ .none → s.st.iter.id = id →
       (s.st.claims = [] → t.st.events = s.st.events ++ [e] ∧ t.st.claims = [] ∧ s.keepsStrand t [] []) ∧
       ∀ r rest, s.st.claims = r :: rest → t.st.claims = rest ∧ t.st.xget r = (if r = 0 then 0 else e.word) ∧
         t.st.isFull r = true ∧ t.st.events = s.st.events ∧ s.keepsStrand t [r] [])) ∧
  ((∀ (s : State) (c : Cmd) (i : Instr), s.cmd s.args.k = some c → c.started = false → c.cancelled = true →
     (c.engine, i) ∈ [(.copy, .xcopyComplete), (.train, .xtrainComplete), (.coll, .xcollComplete),
       (.wharf, if c.seals then .xwharfSealComplete else .xwharfWriteComplete)] →
     exec .engineCommandStart s = .next s ∧ exec i s = .next ((s.focus c.strand).finishCmd c 0x07 0)) ∧
   (∀ (s : State) (c : Cmd), s.cmd s.args.k = some c → c.engine = .copy → c.started = false → c.cancelled = false →
     ∃ t, exec .engineCommandStart s = .next t ∧
       t.cmds = s.cmds.map (fun d => if d.id = s.args.k then { d with started := true } else d) ∧
       (∀ n, t.strand n = s.strand n) ∧ s.keepsMemory t) ∧
   ∀ (s : State) (c : Cmd) (p : Place),
     let bs := c.bytes
     let src := wordOfField bs 0x18
     let dst := wordOfField bs 0x20
     let n := fieldOf bs 0x28 8
     let u := s.focus c.strand
     s.cmd s.args.k = some c → c.engine = .copy → c.started = true →
     copyLayout bs = true → fieldOf bs 0x12 1 = 0 → canonical (wordOfField bs 0x30) = true →
     u.engPlace c.ctx .write .any dst = some p →
     (∀ x, fieldOf bs 0x13 1 = 0 → 0 < n → dst.toNat % 64 + n ≤ 64 →
       u.engBytes c.ctx .any src n = .bytes x →
       exec .xcopyComplete s = .next ((u.writeFrom c.die c.ctx dst p x).finishCmd c 0 0)) ∧
     ∀ x, fieldOf bs 0x13 1 = 1 → n = 1 → dst.toNat % 2 = 0 → u.engBytes c.ctx .any src 4 = .bytes x →
       (fieldOf bs 0x14 1).testBit 3 = false → fieldOf bs 0x14 1 % 8 < 4 →
       (src.toNat + 4 ≤ dst.toNat ∨ dst.toNat + 2 ≤ src.toNat) →
       let r := convertF (fmtOf 0) (BitVec.ofNat 3 (fieldOf bs 0x14 1)) false (unpack f32 (ofBytes x))
       ∃ v cs, exec .xcopyComplete s = .next (((v : State).writeFrom c.die c.ctx dst p (bytesOf 2 r.1)).finishCmd c
           (BitVec.ofNat 32 (256 * r.2.toNat)) 0) ∧
         v = u.setContext c.ctx { u.context c.ctx with converters := cs }) ∧
  ((∀ (s : State) (c : Cmd) (off : Nat) (bs : List Byte),
     let u := s.focus c.strand
     let d := u.die c.wharfDie
     s.cmd s.args.k = some c → c.engine = .wharf → c.seals = false → c.started = true → c.status = 0 →
     c.wharfRange = (off, 64) → off % 64 = 0 →
     u.engRead c.ctx .any (wordOfField c.bytes 0x20) 64 = .bytes bs →
     exec .xwharfWriteComplete s = .next ((u.setDie c.wharfDie
       { d with wharf := setCells 0 off bs d.wharf, wharfPoison := d.wharfPoison.filter fun u => u != off / 64 }).finishCmd
         c 0 0)) ∧
   (∀ (s : State) (c : Cmd) (l : Launch),
     let u := s.focus c.strand
     let d := u.die c.wharfDie
     let rs := regionsOf c.wharfRange.1 c.wharfRange.2
     s.cmd s.args.k = some c → c.engine = .wharf → c.seals = true → c.started = true → c.status = 0 →
     (∀ e ∈ s.cmds, e.wharfLive = true → e.seals = true ∨ c.sameRegions e = false) →
     (s.launches.find? fun m => m.ctx == c.ctx && m.recAddr == wordOfField c.bytes 0x20) = some l →
     (∀ r ∈ rs, (d.seals.filter fun p => p.1 == r).length < 255) →
     exec .xwharfSealComplete s = .next
       ((u.setDie c.wharfDie { d with seals := d.seals ++ rs.map fun r => (r, l.id) }).finishCmd c 0 0)) ∧
   ∀ (s : State) (c : Cmd),
     let r := c.wharfRange.1 / 2 ^ 24
     s.cmd s.args.k = some c → c.engine = .wharf → c.started = false → c.cancelled = false →
     wharfLayout c.bytes = true → canonical (wordOfField c.bytes 0x30) = true → 0 < c.wharfRange.2 →
     ((s.mgmt.wharfField c.wharfDie r).testBit 15 = false ∨ s.mgmt.wharfField c.wharfDie r % 4096 ≠ c.ctx.toNat) →
     ∃ t, exec .engineCommandStart s = .next t ∧
       t.cmds = s.cmds.map (fun d => if d.id = s.args.k then { d with
         started := true, status := 0x03, fault := BitVec.ofNat 64 (max c.wharfRange.1 (r * 2 ^ 24)) } else d) ∧
       (∀ n, t.strand n = s.strand n) ∧ s.keepsMemory t) ∧
  ((∀ (s : State) (c : Cmd) (g : Frag) (q : Place),
     let r := c.extra.take 64
     let j := s.args.j
     let owner := (g.x / 64 + g.y / 64) % 4
     let a := wordOfField r 0 + BitVec.ofNat 64 (g.y * fieldOf r 0x08 4) + BitVec.ofNat 64 (4 * g.x)
     let kept := fun (t : State) =>
       (t.cmds = s.cmds.map fun d => if d.id = s.args.k then { d with acks := j :: c.acks, fault := 0 } else d) ∧
       ∀ f, s.frameOf c = some f → c.pixSeq ∈ f.received →
         t.frameOf c = some { f with next := f.next.setIfInBounds j (c.pixSeq + 1) }
     s.cmd s.args.k = some c → c.engine = .pix → c.started = true → c.status = 0 → c.fault = 0 →
     j < 4 → j ∉ c.acks → c.acks.length < 3 →
     (∀ f, s.frameOf c = some f → c.pixSeq ∈ f.received → f.next.getD j 0 ≠ c.pixSeq → exec .xpixApply s = .next s) ∧
     ((∀ f, s.frameOf c = some f → c.pixSeq ∈ f.received → f.next.getD j 0 = c.pixSeq) → c.frags = [g] → g.bad = false →
     g.x < fieldOf r 0x0C 2 → g.y < fieldOf r 0x0E 2 → fieldOf r 0x10 1 < 2 →
     (s.focus c.strand).engPlace c.ctx .write .plain a = some q → Memory.wf s.mem = true →
     (j ≠ owner → ∃ t, exec .xpixApply s = .next t ∧ kept t ∧ (∀ n, t.strand n = s.strand n) ∧ s.keepsMemory t) ∧
     (j = owner → ∃ t, exec .xpixApply s = .next t ∧ kept t ∧ Memory.wf t.mem = true ∧
       ((s.context c.ctx).ulOn = false → s.flights = [] →
         (s.focus c.strand).storesBytes t q (bytesOf 4 (pixelWord (fieldOf r 0x10 1) g.chans)))))) ∧
   (∀ ch : List Nat,
     let b := fun n i => channelBits n (ch.getD i 0)
     pixelWord 0 ch = b 8 0 + 256 * b 8 1 + 65536 * b 8 2 + 16777216 * b 8 3 ∧
     pixelWord 1 ch = b 10 0 + 1024 * b 10 1 + 1048576 * b 10 2 + 1073741824 * b 2 3) ∧
   (∀ n, channelBits n 0x3F80 = 2 ^ n - 1 ∧ channelBits n 0 = 0 ∧ channelBits n 0x7FC0 = 0 ∧ channelBits n 0xBF80 = 0) ∧
   ∀ (s : State) (c : Cmd), s.cmd s.args.k = some c → c.engine = .pix → c.started = true → c.acks.length = 4 →
     exec .xpixComplete s = .next ((s.focus c.strand).finishCmd c
       (BitVec.ofNat 32 (256 * (c.status.extractLsb' 8 7).toNat + c.status.toNat % 256)) c.fault)) ∧
  ((∀ (s : State) (ctx : BitVec 12) (e : TrainElem) (p : Place) (d : Bool),
     let tr := s.args.train
     let n := 2 ^ tr.width.toNat
     let old := ofBytes (s.placeBytes p n)
     let F := fmtOf (BitVec.ofNat 2 tr.width.toNat)
     let new := if tr.op = 0 then e.value.toNat
       else if tr.op = 1 then (old + e.value.toNat) % 2 ^ (8 * n)
       else (addF F 0 false (unpack F old) (unpack F (e.value.toNat % 2 ^ (8 * n)))).1
     tr.cmd = none → tr.elems = [e] → e.bad = false → s.peerOf tr.domain = some ctx →
     s.checkEngine ctx (if tr.op = 0 then .write else .atomic) n e.addr = .ok p d →
     (tr.op ≠ 0 → s.poisonAt e.addr p n = none) → Memory.wf s.mem = true →
     ∃ t, exec .trainDeliver s = .next t ∧ t.cmds = s.cmds ∧ Memory.wf t.mem = true ∧
       (s.flights = [] → (s.context ctx).ulOn = false → s.storesBytes t p (bytesOf n new) ∧ s.keepsStrand t [] [])) ∧
   (∀ (s : State) (c : Cmd) (k : Nat),
     s.args.train.cmd = some k → s.cmd k = some c → c.engine = .train → c.started = true → c.status = 0 →
     s.args.j ∈ c.packages → s.args.j ≠ s.mgmt.pkno.toNat → (∀ r ∈ c.replies, r.package ≠ s.args.j) → c.domainIn s ≠ 0 →
     (s.mgmt.portTo s.args.j).isSome = true →
     ∃ t r, exec .trainDeliver s = .next t ∧ r.package = s.args.j ∧ r.status = BitVec.ofNat 8 s.args.k ∧
       t.cmds = s.cmds.map (fun d => if d.id = k then
         (if d.replies.any fun x => x.package == r.package then d else { d with replies := d.replies ++ [r] }) else d) ∧
       t.st = s.st ∧ s.keepsMemory t) ∧
   (∀ (s : State) (c : Cmd), s.cmd s.args.k = some c → c.engine = .train → c.started = true → c.status = 0 →
     c.acks = [] →
     (∀ p ∈ c.packages, ∃ r ∈ c.replies, r.package = p) → (∀ r ∈ c.replies, r.status = 0) →
     exec .xtrainComplete s = .next ((s.focus c.strand).finishCmd c 0 0)) ∧
   (∀ (c : Coll) (x y : Nat),
     (c.reduce [x]).1 = (if (unpack c.format x).isNan then c.format.nan else x) ∧
     (c.fn = 0 → (c.reduce [x, y]).1 = (addF c.format 0 false (unpack c.format x) (unpack c.format y)).1) ∧
     (c.fn = 1 → (c.reduce [x, y]).1 = (minmaxF c.format false true x y).1) ∧
     (c.fn = 2 → (c.reduce [x, y]).1 = (minmaxF c.format false false x y).1)) ∧
   ∀ (s : State) (c : Cmd) (p : Place) (bs : List Byte),
     let g := collOf s.mgmt.pkno.toNat c.bytes c.extra
     s.cmd s.args.k = some c → c.engine = .coll → c.started = true → c.status = 0 → c.cancelled = false →
     let u := s.focus c.strand
     s.args.j = 0 → g.op = 0 → g.fmt = 2 → g.count = 1 → g.n = 1 →
     g.rank = 0 → g.ranks = [s.mgmt.pkno.toNat] → u.engBytes c.ctx .any g.src 4 = .bytes bs →
     (unpack f32 (ofBytes bs)).isNan = false → g.dst.toNat % 4 = 0 → u.engPlace c.ctx .write .any g.dst = some p →
     exec .xcollComplete s = .next ((u.writeFrom c.die c.ctx g.dst p bs).finishCmd c 0 0)) ∧
  (∀ (s : State) (f : DieWrite) (e : SEntry) (rest : List SEntry) (a : Nat),
     let k := s.args.k
     s.flights[k]? = some f → f.strand = s.cur → s.st.stores = e :: rest → e.seq = f.seq → e.sent = true →
     Memory.wf s.mem = true → (e.place = .mem a ∨ e.place = .host a) →
     let before := fun (g : DieWrite) => g ≠ f ∧ g.dest = f.dest ∧ g.clock.getD g.source 0 ≤ f.clock.getD g.source 0 ∧
       ¬(g.source = f.source ∧ f.clock.getD f.source 0 ≤ g.clock.getD f.source 0)
     ((∃ g ∈ s.flights, before g) → exec .dieWriteApply s = .next s) ∧
     ((∀ g ∈ s.flights, ¬before g) →
       ∃ t, exec .dieWriteApply s = .next t ∧ t.st.pc = s.st.pc ∧ Memory.wf t.mem = true ∧
         ((s.context s.st.ctx).ulOn = false → t.st.stores = rest ∧ t.flights = s.flights.erase f ∧
           (∀ i : Fin 5, (t.die f.dest).clock[i] = max (s.die f.dest).clock[i] f.clock[i]) ∧
           (∀ j, j ≠ f.dest → t.die j = s.die j) ∧
           s.storesBytes t e.place (bytesOf e.size e.data.toNat) ∧ s.keepsStrand t [] [])))

/-- R251, R252, R255 to R258, R356: a launch begins once its after records are finished; the iterations of a launch are
numbered in the order of its dimensions, the innermost fastest; the hand-out of the one launch of a die whose turn it can be
starts its next iteration on the first strand that R258 allows, with the index values in x1 to x4, the argument in x5 and the
context's configuration; a root iteration starts likewise with the context's entry and argument. That an iteration starts at
user level is read from the spec by inference (log 3).

R268, R270 to R272: the hand-out of the one graph of a die whose turn it can be, of a node that is no landing: the batch
takes the oldest records, at most the node's batch size, in the batch window, and starts with their number in x1, the window
in x2, the node's index in x4 and the node record in x5. A landing batch decodes once its blob has streamed into its
buffer. That the batch window is 32 KiB whatever the batch holds is read from the spec by inference (log 72). -/
def Obligations.WalkersHandOutWork : Prop :=
  ((∀ (bs : List Byte) (m : Nat), nestLayout bs = true → m < totalOf bs →
     let dims := fieldOf bs 0x28 1
     let at_ := fun p => fieldOf bs 0x29 1 / 4 ^ p % 4
     (∀ d, d < dims → stepCount bs m d < extent bs d) ∧
     m = ((List.range dims).map fun p =>
       stepCount bs m (at_ p) * ((List.range p).map fun q => extent bs (at_ q)).prod).sum) ∧
   (∀ (s : State) (l : Launch),
     (s.launches.find? fun x => x.id == s.args.k) = some l → l.started = false → l.cancelled = false →
     (∀ e ∈ s.launches, e.id < l.id → e.strand = l.strand → e.ctx = l.ctx → e.parent = l.parent → l.parent = 0) →
     let finished := fun (a : Word) => ∃ x, s.recordStatus l.ctx a = some x ∧ (x = 2 ∨ x = 3 ∨ x = 4)
     let started := ∃ t, exec .launchStart s = .next t ∧
       t.launches = s.launches.map (fun x => if x.id = s.args.k then { x with started := true } else x) ∧ t.st = s.st ∧
       s.keepsMemory t
     let after := fun off => wordOfField l.bytes off
     (after 0x58 = 0 → after 0x60 = 0 → started) ∧
     (after 0x58 ≠ 0 → finished (after 0x58) → after 0x60 = 0 → started) ∧
     (after 0x58 ≠ 0 → after 0x60 = 0 → s.recordStatus l.ctx (after 0x58) = some 1 → exec .launchStart s = .next s)) ∧
   (∀ (s : State) (l : Launch) (n : Nat),
     let m := l.next
     let c := s.context l.ctx
     (s.launches.find? fun x => x.id == s.args.k) = some l →
     (s.launches.filter fun x => x.die == l.die && x.ready) = [l] →
     (∀ g ∈ s.graphs, g.die = l.die → ∀ x ∈ g.nodes, x.queue = []) → l.prio < 4 → l.coresident = false →
     (∀ q, l.prio < q → q < 4 → s.otherFits l.die q = false) → s.placeFor l.ask = some n →
     ∃ t u, exec .walkerHandout s = .next t ∧ t.strand n = u ∧ (∀ j, j ≠ n → t.strand j = s.strand j) ∧
       s.fitsAt l.ask n = true ∧
       u.pc = wordOfField l.bytes 0x18 ∧ u.ctx = l.ctx ∧ u.level = .user ∧ u.run = .running ∧ u.tvec = canonOf c.tvec ∧
       u.prio = BitVec.ofNat 2 c.prio ∧ u.rchk = ((fieldOf l.bytes 0x2A 1).testBit 2 || c.flags.testBit 0) ∧
       (∀ d : Fin 4, u.xget (BitVec.ofNat 5 (d + 1)) =
         BitVec.ofNat 64 (fieldOf l.bytes (0x48 + 4 * d) 4 * stepCount l.bytes m d)) ∧
       u.xget 5 = wordOfField l.bytes 0x20 ∧ (∀ r : Reg, 6 ≤ r.toNat → u.xget r = 0) ∧ u.queue = [] ∧ u.tonOwned = 0 ∧
       u.scratchSize = fieldOf l.bytes 0x30 4 ∧ u.iter.work = .launch ∧ u.iter.launch = l.id ∧ u.iter.number = m ∧
       u.iter.recAddr = l.recAddr ∧
       (∃ x, (t.launches.find? fun x => x.id == l.id) = some x ∧ x.next = m + 1 ∧ x.live = l.live + 1) ∧ s.keepsMemory t) ∧
   ∀ (s : State) (n : Nat),
     let ctx := BitVec.ofNat 12 s.args.k
     let c := s.context ctx
     c.state = 2 → s.rootOf ctx = none → (c.rootEnded = false ∨ c.subHit = true) → s.higherFits c.dieNo c.prio = false →
     s.placeFor c.ask = some n →
     ∃ t u, exec .rootPlace s = .next t ∧ t.strand n = u ∧ (∀ j, j ≠ n → t.strand j = s.strand j) ∧ u.pc = c.entry ∧
       u.ctx = ctx ∧ u.level = .user ∧ u.run = .running ∧ u.tvec = canonOf c.tvec ∧ u.svbase = c.svbase ∧ u.xget 5 = c.arg ∧
       (∀ r : Reg, r ≠ 5 → u.xget r = 0) ∧ u.iter.work = .root ∧ (t.context ctx).rootEnded = false ∧
       (t.context ctx).subHit = false ∧ (t.context ctx).state = 2 ∧ s.keepsMemory t) ∧
  ((∀ (s : State) (g : Graph) (n : Node) (k at_ : Nat),
     let c := s.batchSize g n
     (s.graphs.find? fun x => x.id == s.args.k) = some g → (∀ l ∈ s.launches, l.die = g.die → l.ready = false) →
     (s.graphs.filter fun x => x.die == g.die && !x.cancelled && x.nodes.any fun y => !y.queue.isEmpty) = [g] →
     g.prio < 4 → (∀ q, g.prio < q → q < 4 → s.otherFits g.die q = false) →
     s.chosenNode g = some k → g.nodes[k]? = some n → n.landing = false →
     s.batchPlace g n = some (at_, none) →
     0 < c ∧ c ≤ n.queue.length ∧ c ≤ fieldOf n.bytes 0x30 2 ∧
     ∃ t u, exec .ferryHandout s = .next t ∧ t.strand at_ = u ∧ (∀ j, j ≠ at_ → t.strand j = s.strand j) ∧
       u.pc = wordOfField n.bytes 0x18 ∧ u.ctx = g.ctx ∧ u.run = .running ∧ u.xget 1 = BitVec.ofNat 64 c ∧
       u.xget 2 = 0x007FFE0000140000 ∧ u.xget 3 = 0 ∧ u.xget 4 = BitVec.ofNat 64 k ∧ u.xget 5 = n.recAddr ∧
       u.batch = keepCells 0 ((n.queue.take c).map Prod.snd).flatten [] ∧ u.batchSize = 32768 ∧
       u.iter.work = .batch ∧ u.iter.records = c ∧ u.iter.own = c ∧ u.iter.deeper = c * n.emax ∧
       (∃ h y, (t.graphs.find? fun x => x.id == g.id) = some h ∧ h.nodes[k]? = some y ∧ y.queue = n.queue.drop c) ∧
       s.keepsMemory t) ∧
   ∀ (s : State) (g : Graph) (n : Node) (b : Fin 8) (bs : List Byte) (bad : List Nat),
     let k := clusterOf s.cur
     s.st.iter.streaming = true → s.st.iter.buffer = some b.val → s.graphAt s.st.ctx s.st.iter.graph = some g →
     g.nodes[s.st.iter.node]? = some n → s.blobRead s.st.ctx (n.bsize / 64) 0 n.blob = .ok (bs, bad) →
     ∃ t x, exec .blobStreamComplete s = .next t ∧ t.st.iter.streaming = false ∧ t.st.pc = s.st.pc ∧
       (t.cluster k).buffers[b] = some x ∧ x.ctx = s.st.ctx ∧ x.blob = n.blob ∧ x.data = bs ∧ x.bad = bad ∧
       (∀ j, j ≠ b → (t.cluster k).buffers[j] = (s.cluster k).buffers[j]) ∧ s.keepsRest t [] [])

/-- R113, R250, R263, R264, R352: an iteration whose `endit` waits for nothing more, or that a trap ended, frees its strand
once its queues, loads, claims and commands are done. Of a launch it is counted off its record; the subtraction that would
reach zero waits for the final write. The final write clears the counter and writes state 0x02, or 0x04 with the first
cause; of a cancelled record, once nothing runs under it, state 0x03; the launch then leaves the walker. An iteration that
a machine check ended before any effect is handed out once more with the same indices. An ended root leaves its context; that
one which a machine check ended is not handed out again is read from the spec by inference (log 69); that `endit` gives up a
held image, so that an iteration with cause 0 ends over one, is the model's choice (log 92). -/
def Obligations.IterationsAndRecordsEnd : Prop :=
  (∀ s : State,
    let i := s.st.iter
    let ctx := s.st.ctx
    let again := (i.work = .launch ∨ i.work = .batch) ∧ i.cause = 0x13 ∧ i.effects = false ∧ i.rehanded = false ∧
      i.cancelled = false ∧ s.st.tvec = 0
    i.work ≠ .none → i.ending = true → s.st.run = .running → s.st.queue = [] → s.st.loads = [] →
    (∀ e ∈ s.st.stores, e.after ≠ none) → s.commandsDone i.id = true → (i.cause ≠ 0 ∨ s.st.claims = []) →
    ∃ t, exec .iterationEnd s = .next t ∧ t.st.vacant = true ∧ t.cur = s.cur ∧ t.saved.length = s.saved.length ∧
      (i.work = .root → (t.context ctx).rootEnded = true ∧ (t.context ctx).subHit = false) ∧
      (i.work = .launch → i.cause = 0 → t.rehand = s.rehand ∧
        t.launches = s.launches.map (fun l => if l.id = i.launch then { l with live := l.live - 1 } else l)) ∧
      (s.st.streams = [] → again → t.rehand = s.rehand ++ [s.st] ∧ t.launches = s.launches ∧ t.graphs = s.graphs ∧
        s.keepsMemory t) ∧
      (s.st.streams = [] → i.work = .root → i.cause = 0 → s.keepsMemory t) ∧
      ∀ p old, s.st.streams = [] → i.work = .launch → i.cause = 0 → (s.launches.any fun l => l.id == i.launch) = true →
        s.recordCount ctx i.recAddr = some old → s.engPlace ctx .write .any i.recAddr = some (.mem p) →
        s.isCancelled ctx i.recAddr 0 = false → (s.context ctx).ulOn = false → s.flights = [] →
        Memory.wf s.mem = true →
        (2 ≤ old → t.finishing = s.finishing ∧ ∀ a, memGet t.mem a =
          if p ≤ a ∧ a < p + 8 then (bytesOf 8 (old - 1)).getD (a - p) 0 else memGet s.mem a) ∧
        (old = 1 → t.finishing = s.finishing ++ [⟨ctx, i.recAddr, 0, 1⟩] ∧ s.keepsMemory t)) ∧
  (∀ (s : State) (l : Launch),
    let ctx := BitVec.ofNat 12 s.args.k
    let a := s.args.word
    let wrote := fun (t : State) (state : Nat) => ∀ p,
      s.engPlace ctx .write .any a = some (.mem p) → (s.context ctx).ulOn = false → s.flights = [] →
      Memory.wf s.mem = true → ∀ x, memGet t.mem x = if p ≤ x ∧ x < p + 12 then
        (bytesOf 8 0 ++ bytesOf 4 (256 * l.cause.toNat + state)).getD (x - p) 0 else memGet s.mem x
    let left := fun (t : State) =>
      t.launches = s.launches.filter (fun m => m.id != l.id) ∧ t.graphs = s.graphs ∧
      (∀ k, ∀ q : Fin 8, (t.cluster k).banks[q].reserved ≠ some l.id) ∧
      ∀ k, ∀ r ∈ (t.cluster k).ranges, r.launch ≠ l.id
    s.launchAt ctx a = some l → l.parent = 0 →
    (∀ n, (s.finishing.find? fun f => f.ctx == ctx && f.recAddr == a) = some ⟨ctx, a, 0, n⟩ →
      s.isCancelled ctx a 0 = false → s.recordCount ctx a = some n →
      ∃ t, exec .recordComplete s = .next t ∧ left t ∧ t.finishing = s.finishing.erase ⟨ctx, a, 0, n⟩ ∧
        wrote t (if l.cause = 0 then 2 else 4)) ∧
    (s.cancelled = [⟨ctx, a, 0, a, 0⟩] →
      (∀ u ∈ (s.st :: s.others.map Prod.snd) ++ s.saved.map Saved.strand,
        u.iter.work = .launch → u.ctx = ctx → u.iter.recAddr ≠ a) →
      ∃ t, exec .cancelFinalize s = .next t ∧ left t ∧ t.cancelled = [] ∧ wrote t 3)) ∧
  ∀ (s : State) (u0 : Strand) (l : Launch) (n : Nat),
    let s' : State := { s with rehand := s.rehand.eraseIdx s.args.k }
    let m := u0.iter.number
    s.rehand[s.args.k]? = some u0 → u0.iter.work = .launch →
    (s.launches.find? fun x => x.id == u0.iter.launch) = some l → l.cancelled = false →
    s.higherFits l.die u0.iter.prio = false → s'.placeFor { l.ask with coresident := false } = some n →
    ∃ t u, exec .iterationRehandout s = .next t ∧ t.strand n = u ∧ t.rehand = s'.rehand ∧
      u.pc = wordOfField l.bytes 0x18 ∧ u.ctx = l.ctx ∧
      (∀ d : Fin 4, u.xget (BitVec.ofNat 5 (d + 1)) =
        BitVec.ofNat 64 (fieldOf l.bytes (0x48 + 4 * d) 4 * stepCount l.bytes m d)) ∧
      u.xget 5 = wordOfField l.bytes 0x20 ∧ u.iter.rehanded = true ∧ u.iter.number = m ∧ u.iter.cause = 0 ∧
      u.iter.ending = false ∧ s.keepsMemory t

/-- R128 to R133, R202, R275: where no load, strip or own store of a strand is outstanding and its vector head can stop,
the victim of a full core is saved into its slot of the pool when work of higher priority than its context waits for the
core, and its strand is free; a landing batch is saved by the time-out step alone; a root that sleeps in a `wait`
without time-out is parked, with the word that it watches. With nothing logged and no write in flight, the area holds
the strand as R128 and R129 lay it out, with the pc as its point of resume and the tag of a head that stands above
element 0. A saved iteration whose area is legal takes up, on a free strand of its core, the strand that the area
describes, with its tiles or waiting for them; a parked root whose line was written takes the first free strand of its
die. That the resumed strand keeps its slot while it waits for its tiles is read from the spec by inference (log 67);
that it skips no entry, and that a root is parked in a handler too, is the model's choice (log 87). -/
def Obligations.PreemptionAndResume : Prop :=
  (∀ (s : State) (slot : Nat) (a : Word) (ps : List AreaPage),
    let core := coreOf s.cur
    let q := s.st.queue
    let image := q ++ s.st.image
    let u := if s.st.vstart = 0 then s.st else q.head?.elim s.st s.st.commitTags
    let w : Strand := { u with queue := image, image := [], held := false }
    let saved := fun (i : Instr) (parked : Bool) (more : State → Prop) => ∃ t v, exec i s = .next t ∧
      t.st.vacant = true ∧ v ∈ t.saved ∧ v.home = s.cur ∧ v.area = a ∧ v.parked = parked ∧
      v.strand.iter.slot = some slot ∧ v.strand.iter.id = s.st.iter.id ∧ v.strand.claims = [] ∧ v.strand.tonOwned = 0 ∧
      v.strand.ctx = s.st.ctx ∧ more t ∧
      ((s.context s.st.ctx).ulOn = false → s.flights = [] → Memory.wf s.mem = true → (∀ e ∈ image, e.scalar = 0) →
        s.st.tonPend = none → pagesApart ps →
        t.saved = s.saved ++ [v] ∧ v.strand.events = s.st.events ∧ areaShows (t.areaReader ps) w w.deviceKind)
    s.st.loads = [] → s.st.draining = false → (∀ e ∈ s.st.stores, ∃ k ∈ image.map QEntry.seq, e.after = some k) →
    (∀ e, q.head? = some e → ∃ f, formOf e = some f ∧ f.grain ≠ 0) → s.args.k ≤ s.st.vstart.toNat →
    s.savePlaces s.st = some (slot, a, ps) →
    (s.coreFull core = true → s.victim core = some s.cur → s.st.deferred = false →
      s.slotWanted core (fun p => decide (s.st.prio.toNat < p)) = true →
      (s.onLanding s.st = false → saved .preemption false fun _ => True) ∧
      (s.onLanding s.st = true → saved .landingPreemptTimeout false fun _ => True)) ∧
    (∀ w m, s.st.sleep = .word w → s.watched = some m → s.candidate s.st = true → s.st.iter.work = .root →
      s.st.wto = 0 → saved .park true fun t => m ∈ t.monitors)) ∧
  (∀ s : State,
    s.coreFull (coreOf s.cur) = false ∨ s.victim (coreOf s.cur) ≠ some s.cur ∨ s.st.crit = true ∨
        s.st.level = .supervisor ∨ s.slotWanted (coreOf s.cur) (fun p => decide (s.st.prio.toNat < p)) = false →
    exec .preemption s = .next s ∧ exec .landingPreemptTimeout s = .next s) ∧
  (∀ (s : State) (v : Saved), s.saved[s.args.k]? = some v → s.wokenRoot v = false →
    exec .waitMonitorWake s = .next s) ∧
  ∀ (s : State) (v : Saved) (n : Nat) (ps : List AreaPage) (u : Strand),
    let s1 := ({ s with saved := s.saved.eraseIdx s.args.k } : State).focus n
    let v1 : Strand := { v.strand with iter := { v.strand.iter with buffer := none } }
    let s2 := s1.upd fun _ => { v1 with
      stores := [], loads := [], undo := [], queue := [], image := [], held := false, streams := [], crit := false
      sleep := .awake, run := .running, tonOwned := 0, tonPend := none }
    let rd := s2.areaReader ps
    let tiles := rd 0x16 1
    let r : Strand := { ({ u with skip := false } : Strand).return_ with skip := u.skip }
    let back := fun (i : Instr) (monitors : List Monitor) => ∃ t, exec i s = .next t ∧
      t.strand n = (if tiles = 0 then r
        else if (s2.upd fun _ => r).canGrant tiles s.stamp = true then r.grantBack tiles
        else { r with
          tonPend := some { tiles := tiles, stamp := s.stamp, decode := false, resume := true } }) ∧
      t.saved = s.saved.eraseIdx s.args.k ∧ t.monitors = monitors ∧ (∀ j, j ≠ n → t.strand j = s.strand j) ∧
      s.keepsMemory t
    s.saved[s.args.k]? = some v → (s.strand n).vacant = true → s.onLanding v.strand = false →
    s1.coreRoom (coreOf n) { streams := v.strand.iter.streams, scratch := v.strand.scratchSize } = true →
    pagePlaces (fun x => s2.checkDevice v.strand.ctx .read 1 x) (s2.skewAt v.strand.ctx) v.area areaPages 0 = .ok ps →
    s2.areaPoison v.area ps rd = none → areaLegal rd = true → s2.loadArea rd none (some v1) = .ok u →
    (v.parked = false → n = s.cur → coreOf v.home = coreOf n → back .resume s.monitors) ∧
    (v.parked = true → s.wokenRoot v = true → s.wokenAbove v = false → s.freeStrand (dieOf v.home) = some n →
      back .waitMonitorWake (s.monitors.filter fun m => m.iter != v.strand.iter.id))

/-- R355, R358, R365, R372: the states of a context. A record that can start, of a domain that no running context has,
goes from 1 to 2 with its shared state as configured; a running one is stopped, after which no translation, command or
saved iteration of it is left; a stopped one becomes 1; a configured one becomes 0; any other write is refused and sets
`mgerr`. A function-level reset stops every context of its function, and when it completes they are free and its ranges
are empty. Each device write to `done` that leaves `notify`[0] set is followed by one interrupt with the vector that
`notify` then names. That a reset goes by the record's function (log 73), that `notify` is read as the write leaves
memory (log 95) and that the interrupt step without such a write changes nothing (log 52) is the model's choice. -/
def Obligations.ContextStates : Prop :=
  (∀ s : State,
    let ctx := BitVec.ofNat 12 s.args.k
    let c := s.context ctx
    let refused := fun (t : State) => t = { s with mgmt := { s.mgmt with mgerr := true } }
    let others := fun (t : State) => ∀ j, j ≠ ctx → t.context j = s.context j
    s.args.k < 4096 → s.mgmt.flr.contains s.args.j = false → s.seesCtx s.args.j s.args.k = true →
    ((c.state = 1 ∧ c.startable = true ∧ (c.domain = 0 ∨ ∀ p ∈ s.ctxs, p.2.state = 2 → p.2.domain ≠ c.domain)) →
      ∃ t, exec .contextStart s = .next t ∧ (t.context ctx).state = 2 ∧ (t.context ctx).ulbase = c.ulbase0 ∧
        (t.context ctx).ullim = c.ullim0 ∧ (t.context ctx).ulSeq = 0 ∧ (t.context ctx).ulOn = false ∧
        (t.context ctx).rootEnded = false ∧ (t.context ctx).slots = [] ∧ (t.context ctx).entry = c.entry ∧ others t ∧
        t.st = s.st ∧ s.keepsMemory t) ∧
    ((c.state ≠ 1 ∨ c.startable = false) → ∃ t, exec .contextStart s = .next t ∧ refused t) ∧
    (c.state = 2 → ∃ t, exec .contextStop s = .next t ∧ (t.context ctx).state = 3 ∧ (t.context ctx).slots = [] ∧
      (t.context ctx).ulLog = [] ∧ (∀ k, ∀ e ∈ (t.die k).tlb, e.ctx ≠ ctx) ∧ (∀ d ∈ t.cmds, d.ctx ≠ ctx) ∧
      (∀ v ∈ t.saved, v.strand.ctx ≠ ctx)) ∧
    (c.state ≠ 2 → ∃ t, exec .contextStop s = .next t ∧ refused t) ∧
    (c.state = 3 → s.mgmt.flr.contains c.function = false →
      ∃ t, exec .contextStopComplete s = .next t ∧ (t.context ctx).state = 1 ∧ others t ∧ t.st = s.st) ∧
    (c.state = 1 → ∃ t, exec .contextFree s = .next t ∧ (t.context ctx).state = 0 ∧ others t ∧ t.st = s.st) ∧
    (c.state ≠ 1 → ∃ t, exec .contextFree s = .next t ∧ refused t)) ∧
  (∀ s : State,
    let f := s.args.k
    (f < 64 → s.mgmt.flr.contains f = false →
      ∃ t, exec .functionLevelReset s = .next t ∧ t.mgmt.flr = f :: s.mgmt.flr ∧
        ∀ ctx, (s.context ctx).function = f → (s.context ctx).state ≠ 0 → (t.context ctx).state = 3) ∧
    (s.mgmt.flr.contains f = true →
      ∃ t, exec .flrComplete s = .next t ∧ t.mgmt.flr.contains f = false ∧
        (∀ ctx, (s.context ctx).function = f → (s.context ctx).state = 3 → (t.context ctx).state = 0) ∧
        (f < 64 → cellsWf 0 s.mgmt.win = true → t.mgmt.ranges f = List.replicate 8 (0, 0) ∧
          (f ≠ 0 → t.mgmt.vfcount f = 0)) ∧ t.st = s.st ∧ s.keepsMemory t)) ∧
  ∀ s : State,
    let ctx := BitVec.ofNat 12 s.args.k
    let c := s.context ctx
    (∀ vector rest, c.doneHits = vector :: rest →
      ∃ t, exec .doneInterrupt s = .next t ∧ (t.context ctx).doneHits = rest ∧
        t.mgmt.msix = s.mgmt.msix ++ [(c.function, vector)] ∧ t.st = s.st ∧ s.keepsMemory t) ∧
    (c.doneHits = [] → exec .doneInterrupt s = .next s) ∧
    ∀ p bs, c.state = 2 → bs ≠ [] → p < c.sub + 16 → c.sub + 8 < p + bs.length →
      let notify := ofBytes (bytesAt (memGet (s.rawWrite true p bs).mem) (c.sub + 0x10) 4)
      ((s.rawWrite true p bs).context ctx).doneHits =
        c.doneHits ++ (if notify % 2 = 1 then [BitVec.ofNat 8 (notify / 256)] else []) ∧
      ((s.rawWrite false p bs).context ctx).doneHits = c.doneHits

/-- R324, R356, R360 to R365: accesses of the host. A write is performed at its place in device memory, and one to the
line of a submission word is noted; a read answers its bytes, those of a submission area where the function has such a
context. What the host answers for a line of its own memory is what the line then reads as. `ssel` selects the word
that `sdata` answers. The window answers its registers to the physical function; a virtual function reads zero there,
and its writes are ignored. A 1 to `pkstat`[5] clears `mgerr`, but not during a reset; a package number and a power
limit in range are taken and others refused; an owner of a Wharf region is written unless the region is sealed or its
old or new owner uses the Wharf. That an access which names a free context answers nothing (log 40), and that values
out of range and Wharf fields with a bit of [14:12] are refused (log 96), is read from the spec by inference. -/
def Obligations.HostAccesses : Prop :=
  (∀ (s : State) (a : Nat),
    let bs := s.args.bytes
    let n := s.args.j
    s.args.k = 0 → s.args.target = .phys a → s.mgmt.flr.contains 0 = false →
    (bs ≠ [] → populated a = true → populated (a + bs.length - 1) = true → a / 2 ^ 49 ≠ 4 →
      (a + bs.length - 1) / 2 ^ 49 = a / 2 ^ 49 →
      ∃ t, exec .hostWrite s = .next t ∧ t.st.pc = s.st.pc ∧
        (∀ ctx, (s.context ctx).state = 2 → a / 64 ≤ (s.context ctx).sub / 64 →
          (s.context ctx).sub / 64 ≤ (a + bs.length - 1) / 64 → (t.context ctx).subHit = true) ∧
        (s.flights = [] → Memory.wf s.mem = true →
          (∀ x, memGet t.mem x = if a ≤ x ∧ x < a + bs.length then bs.getD (x - a) 0 else memGet s.mem x) ∧
          t.st = s.st ∧ Memory.wf t.mem = true)) ∧
    (0 < n → populated a = true → populated (a + n - 1) = true → a / 2 ^ 49 ≠ 4 → (a + n - 1) / 2 ^ 49 = a / 2 ^ 49 →
      s.poison = [] → s.mgmt.ready = true → s.mgmt.trip = false →
      ∃ t, exec .hostRead s = .next t ∧
        t.mgmt.answers = ((List.range n).map fun i => memGet s.mem (a + i)) :: s.mgmt.answers ∧ t.st = s.st ∧
        s.keepsMemory t)) ∧
  (∀ (s : State) (off : Nat),
    let f := s.args.k
    let n := s.args.j
    let k := off / 4096
    let ctx := if f = 0 then k else s.mgmt.vfbase f + k
    let c := s.context (BitVec.ofNat 12 ctx)
    let answered := fun bs => exec .hostRead s = .next { s with mgmt := { s.mgmt with answers := bs :: s.mgmt.answers } }
    let own := f = 0 ∨ (k < s.mgmt.vfcount f ∧ k < 256)
    s.args.target = .submission off → s.mgmt.flr.contains f = false → s.mgmt.ready = true → s.mgmt.trip = false →
    s.poison = [] → off % 4096 + n ≤ 4096 →
    (own → ctx < 4096 → c.state ≠ 0 → answered ((List.range n).map fun i => memGet s.mem (c.sub + off % 4096 + i))) ∧
    (¬own ∨ c.state = 0 → answered [])) ∧
  (∀ (s : State) (bs : List Byte), s.args.answer = .data bs → bs.length = 64 →
    ∃ t, exec .hostRequestCompletion s = .next t ∧ s.args.k ∉ t.hostErr ∧ s.args.k ∉ t.hostPoison ∧ t.st = s.st ∧
      t.mem = s.mem ∧ ∀ x, hostGet t.hostMem x =
        if x / 64 = s.args.k then bs.getD (x % 64) 0 else hostGet s.hostMem x) ∧
  (∀ (s : State) (w : Word),
    let f := s.args.k
    f < 64 → s.mgmt.flr.contains f = false →
    (∃ t, exec .sselWrite s = .next t ∧ tabGet 0 t.mgmt.ssel f = s.args.word ∧
      (∀ g, g ≠ f → tabGet 0 t.mgmt.ssel g = tabGet 0 s.mgmt.ssel g) ∧ t.st = s.st ∧ s.keepsMemory t) ∧
    (s.sdataWord f = some w → ∃ t, exec .sdataRead s = .next t ∧
      t.mgmt.answers = bytesOf 8 w.toNat :: s.mgmt.answers ∧ t.mgmt.mgerr = s.mgmt.mgerr) ∧
    (s.sdataWord f = none → ∃ t, exec .sdataRead s = .next t ∧
      t.mgmt.answers = List.replicate 8 0xFF :: s.mgmt.answers ∧ t.mgmt.mgerr = true)) ∧
  (∀ (s : State) (off : Nat),
    let m := s.mgmt
    let f := s.args.k
    let one := fun (b : Bool) => if b then 1 else 0
    let answered := fun (w : Nat) =>
      exec .hostRead s = .next { s with mgmt := { m with answers := bytesOf 8 w :: m.answers } }
    s.args.target = .window off → s.args.j = 8 → f < 64 → m.flr.contains f = false → m.ready = true → m.trip = false →
    (f = 0 →
      (off = 0x00 → answered Config.pkinfo.toNat) ∧
      (off = 0x08 → answered (one m.ready + 2 * one m.recovery + 4 * one (m.ports.any Port.up) + 8 * one m.trip +
        16 * one (s.dies.any fun p => decide (p.2.clockMHz < 4000)) + 32 * one m.mgerr)) ∧
      (off = 0x10 → answered m.pkno.toNat) ∧
      (off = 0x18 → m.pwrlim < 2 ^ 64 → answered m.pwrlim) ∧
      (∀ k, k < 4 → off = 0x48 + 8 * k → (s.die k).tideLen < 65536 → (s.die k).tideNext < 2 ^ 31 →
        answered ((s.die k).tideLen * 2 ^ 32 + one (s.die k).tideIn * 2 ^ 31 + (s.die k).tideNext)) ∧
      (∀ p : Fin 16, off = 0xA1000 + 8 * p →
        answered (one m.ports[p].up + 2 * one m.ports[p].retraining + 256 * m.ports[p].lanes.toNat))) ∧
    (f ≠ 0 → off + 8 ≤ 0x10000 → answered 0)) ∧
  (∀ s : State, ((List.range 5).map s.pwrnow).sum ≤ 8 * s.mgmt.pwrlim) ∧
  (∀ (s : State),
    let m := s.mgmt
    exec .pkstatWrite s = .next (if s.args.word.getLsbD 5 = true ∧ m.flr.contains 0 = false then
      { s with mgmt := { m with mgerr := false } } else s)) ∧
  (∀ s : State, 0 < s.args.k → s.args.j + s.args.bytes.length ≤ 0x10000 → exec .mgmtRegisterWrite s = .next s) ∧
  (∀ (s : State),
    let v := ofBytes s.args.bytes
    let refused := exec .mgmtRegisterWrite s = .next { s with mgmt := { s.mgmt with mgerr := true } }
    s.args.k = 0 → s.mgmt.flr.contains 0 = false → s.mgmt.recovery = false → s.args.bytes.length = 8 →
    (s.args.j = 0x10 → v < 4096 → exec .mgmtRegisterWrite s = .next { s with mgmt := { s.mgmt with
      pkno := BitVec.ofNat 12 v } }) ∧
    (s.args.j = 0x10 → 4096 ≤ v → refused) ∧
    (s.args.j = 0x18 → 1200 ≤ v → v ≤ 2400 → exec .mgmtRegisterWrite s = .next { s with mgmt := { s.mgmt with
      pwrlim := v } }) ∧
    (s.args.j = 0x18 → (v < 1200 ∨ 2400 < v) → refused)) ∧
  ∀ (s : State),
    let k := s.args.k
    let v := s.args.word.toNat % 65536
    let die := k / 1024
    let old := s.mgmt.wharfField die (k % 1024)
    let locked := v / 4096 % 8 ≠ 0 ∨ (old.testBit 15 = true ∧ s.wharfBusy (old % 4096) = true) ∨
      (v.testBit 15 = true ∧ s.wharfBusy (v % 4096) = true) ∨ ∃ p ∈ (s.die die).seals, p.1 = k % 1024
    k < 4096 → s.mgmt.flr.contains 0 = false →
    (locked → exec .wharfAllocWrite s = .next { s with mgmt := { s.mgmt with mgerr := true } }) ∧
    (¬locked → cellsWf 0 s.mgmt.win = true →
      ∃ t, exec .wharfAllocWrite s = .next t ∧ t.mgmt.wharfField die (k % 1024) = v ∧
        (∀ j, j < 4096 → j ≠ k → t.mgmt.wharfField (j / 1024) (j % 1024) = s.mgmt.wharfField (j / 1024) (j % 1024)) ∧
        t.st = s.st ∧ s.keepsMemory t)

/-- R367, R370, R371: a boot with verified firmware leaves the part as after reset and ready; a boot whose verification fails
leaves it in recovery, and then only the mailbox, `pkstat` and another boot are taken. A thermal trip stops every strand,
ends every context and keeps device memory. A tripped part, and one in recovery, makes no step without an input. A request
to Nolay is taken while the mailbox is free, and answered with 2, or with 3 where it cannot be granted. That a trip keeps the
memory (log 64), how the mailbox is laid out and that a kind above 1 cannot be granted (log 7), and that inputs a stopped
package cannot take are passed over (log 52), is the model's.

R299, R341, R342, R346, R371, R373: throttling lowers the clock of a die by 100 MHz, not below 1 GHz, and its
release restores 4 GHz; a port goes down, retrains and comes up; a flit that is sent again, and a poisoned copy in a
cache, are counted as corrected and change nothing else; a tide window opens and closes; an error that cannot be
corrected poisons its unit, or raises the machine check where it lies in other state of a strand. The next value of a
tide register (log 62) and the release to 4 GHz (log 63) are the model's. -/
def Obligations.BootPowerAndErrors : Prop :=
  ((∀ s : State, ∃ t, exec .packageBoot s = .next t ∧ t.mgmt.ready = s.args.flag ∧ t.mgmt.recovery = !s.args.flag ∧
     t.mgmt.trip = false ∧ t.mem = [] ∧ t.ctxs = State.reset.ctxs ∧ t.cmds = [] ∧ t.clusters = State.reset.clusters ∧
     t.hostMem = s.hostMem ∧ ∀ n, t.strand n = State.reset.strand n) ∧
   (∀ s : State, ∃ t, exec .thermalTrip s = .next t ∧ t.mgmt.trip = true ∧ t.mem = s.mem ∧ t.hostMem = s.hostMem ∧
     t.ctxs = State.reset.ctxs ∧ t.cmds = [] ∧ t.launches = [] ∧ ∀ n, (t.strand n).iter.work = .none) ∧
   (∀ s : State, s.dead → step s = .fault .packageStopped) ∧
   (∀ (s : State) (i : Instr) (n : Nat) (args : StepArgs) (rest : List Input), s.inputs = .dev i n args :: rest →
     i ≠ .packageBoot →
     (s.mgmt.trip = true → step s = .next ({ s with inputs := rest } : State).tick) ∧
     (s.mgmt.trip = false → s.mgmt.ready = false → s.mgmt.recovery = true →
       i ∉ [Instr.pkstatWrite, .mgmtRegisterWrite, .attestationRequest, .attestationComplete] →
       step s = .next ({ s with inputs := rest } : State).tick)) ∧
   (∀ s : State,
     let f := s.args.k
     let control := fun (t : State) => t.mgmt.field 0xA2000 4
     f < 64 → s.mgmt.flr.contains f = false → cellsWf 0 s.mgmt.win = true →
     (control s ≠ 1 → ∃ t, exec .attestationRequest s = .next t ∧ control t = 1 ∧ t.mgmt.attest = some f ∧ t.st = s.st) ∧
     (control s = 1 → exec .attestationRequest s = .next { s with mgmt := { s.mgmt with mgerr := true } })) ∧
   ∀ (s : State) (f : Nat),
     let kind := s.mgmt.field 0xA2008 4
     let ctx := s.mgmt.field 0xA200C 2
     let control := fun (t : State) => t.mgmt.field 0xA2000 4
     s.mgmt.attest = some f → cellsWf 0 s.mgmt.win = true →
     ((kind = 0 ∨ (kind = 1 ∧ ctx < 4096 ∧ s.ownsCtx f ctx = true)) →
       ∃ t, exec .attestationComplete s = .next t ∧ control t = 2 ∧ t.mgmt.attest = none ∧
         t.mgmt.field 0xA2100 4 = 1 ∧ t.mgmt.field 0xA2104 4 = kind ∧
         bytesAt t.mgmt.winByte 0xA2108 32 = bytesAt s.mgmt.winByte 0xA2020 32 ∧ t.st = s.st) ∧
     ((1 < kind ∨ (kind = 1 ∧ s.ownsCtx f ctx = false)) →
       ∃ t, exec .attestationComplete s = .next t ∧ control t = 3 ∧ t.mgmt.attest = none ∧ t.st = s.st)) ∧
  ((∀ s : State,
     let k := s.args.k
     let counted := fun (t : State) (d : Nat) => (t.die d).corrected = (s.die d).corrected + 1 ∧
       t.die d = { s.die d with corrected := (t.die d).corrected } ∧ (∀ j, j ≠ d → t.die j = s.die j) ∧ t.st = s.st ∧
       s.keepsMemory t
     (k < 5 → ∃ t, exec .linkFlitRetry s = .next t ∧ counted t k) ∧
     (∀ d, d < 5 → s.args.unit = .copy d → ∃ t, exec .uncorrectableError s = .next t ∧ counted t d) ∧
     (k < 4 →
       (∃ t, exec .powerThrottle s = .next t ∧ (t.die k).clockMHz = max 1000 ((s.die k).clockMHz - 100) ∧
         (∀ j, j ≠ k → t.die j = s.die j) ∧ t.st = s.st ∧ s.keepsMemory t) ∧
       (∃ t, exec .powerThrottleRelease s = .next t ∧ (t.die k).clockMHz = 4000 ∧ (∀ j, j ≠ k → t.die j = s.die j) ∧
         t.st = s.st ∧ s.keepsMemory t) ∧
       (∃ t, exec .tideWindowStart s = .next t ∧ (t.die k).tideIn = true ∧ (t.die k).tideNext = 0 ∧
         (t.die k).tideLen = 512 ∧ (∀ j, j ≠ k → t.die j = s.die j) ∧
         t.st = s.st ∧ s.keepsMemory t) ∧
       ((s.die k).tideIn = true → ∃ t, exec .tideWindowEnd s = .next t ∧ (t.die k).tideIn = false ∧
         (t.die k).tideNext = 65536 - 512 ∧ (t.die k).tideLen = 512 ∧ (∀ j, j ≠ k → t.die j = s.die j) ∧ t.st = s.st ∧
         s.keepsMemory t) ∧
       ((s.die k).tideIn = false → exec .tideWindowEnd s = .next s))) ∧
   (∀ (s : State) (k : Fin 16), s.args.k = k →
     (∃ t, exec .portDown s = .next t ∧ t.mgmt.ports[k].up = false ∧ t.mgmt.ports[k].retraining = false ∧
       (∀ j, j ≠ k → t.mgmt.ports[j] = s.mgmt.ports[j]) ∧ t.st = s.st ∧ s.keepsMemory t) ∧
     (∃ t, exec .portRetraining s = .next t ∧ t.mgmt.ports[k].retraining = true ∧
       t.mgmt.ports[k].up = s.mgmt.ports[k].up ∧ (∀ j, j ≠ k → t.mgmt.ports[j] = s.mgmt.ports[j]) ∧ t.st = s.st ∧
       s.keepsMemory t) ∧
     (1 ≤ s.args.j → s.args.j ≤ 8 → ∃ t, exec .portUp s = .next t ∧ t.mgmt.ports[k].up = true ∧
       t.mgmt.ports[k].retraining = false ∧ (∀ j, j ≠ k → t.mgmt.ports[j] = s.mgmt.ports[j]) ∧ t.st = s.st ∧
       s.keepsMemory t)) ∧
   ∀ s : State,
     (∀ n, s.args.unit = .line n → populated (64 * n) = true → 64 * n / 2 ^ 49 ≠ 4 →
       ∃ t, exec .uncorrectableError s = .next t ∧ (∀ x, x ∈ t.poison ↔ x ∈ s.poison ∨ x = n) ∧ s.keepsMemory t ∧
         t.st = s.st) ∧
     (∀ r, s.args.unit = .xreg s.cur r → s.cur < 2048 → s.st.iter.work ≠ .none → r ≠ 0 →
       ∃ t, exec .uncorrectableError s = .next t ∧ hasReg t.st.xpoison r = true ∧ s.keepsRest t [] []) ∧
     (∀ r w, s.args.unit = .vreg s.cur r w → s.cur < 2048 → s.st.iter.work ≠ .none → w < 256 →
       ∃ t, exec .uncorrectableError s = .next t ∧ (256 * r.toNat + w) ∈ t.st.vpoison ∧ s.keepsRest t [] []) ∧
     (s.args.unit = .strandState s.cur → s.cur < 2048 → s.st.iter.work ≠ .none →
       ∃ t, exec .uncorrectableError s = .next t ∧ t.st.pending = s.st.pending ++ [{ cause := 0x13, tval := 0 }] ∧ s.keepsRest t [] []) ∧
     (s.args.unit = .queueState s.cur → s.cur < 2048 → s.st.iter.work ≠ .none →
       ∃ t, exec .uncorrectableError s = .next t ∧
         t.st.pending = s.st.pending ++ [{ cause := 0x13, tval := 0, unit := 1 }] ∧ s.keepsRest t [] []))
end

