-- ==== Sys2Proof/Laws/Encoding.lean ====
section
/-! SUPPORT. What the splitters read back from the words that the encoder builds, one lemma for each format, and from
the sub-coded fields. -/

namespace Sys2Proof

theorem splitV_wordV (op : BitVec 6) (d a b : Reg) (fn : BitVec 3) (ty : BitVec 2) (m : Bool) (rep : BitVec 3)
    (fa fb : Bool) : splitV (wordV op d a b fn ty m rep fa fb) = ⟨op, d, a, b, fn, ty, m, rep, fa, fb⟩ := by
  simp only [splitV, wordV, VWord.mk.injEq]
  refine ⟨?_, ?_, ?_, ?_, ?_, ?_, ?_, ?_, ?_, ?_⟩
  all_goals first
    | (apply BitVec.eq_of_getLsbD_eq; intro i hi
       simp only [BitVec.getLsbD_extractLsb', BitVec.getLsbD_append, BitVec.getLsbD_ofBool]
       interval_cases i <;> simp)
    | simp only [BitVec.getLsbD_append, BitVec.getLsbD_ofBool]; simp

theorem splitI_wordI (op : BitVec 6) (d a : Reg) (imm : BitVec 16) :
    splitI (wordI op d a imm) = ⟨op, d, a, imm⟩ := by
  simp only [splitI, wordI, IWordF.mk.injEq]
  refine ⟨?_, ?_, ?_, ?_⟩
  all_goals
    apply BitVec.eq_of_getLsbD_eq; intro i hi
    simp only [BitVec.getLsbD_extractLsb', BitVec.getLsbD_append]
    interval_cases i <;> simp

theorem splitM_wordM (op : BitVec 6) (d a : Reg) (fn : BitVec 3) (ty : BitVec 2) (m : Bool) (disp : BitVec 10) :
    splitM (wordM op d a fn ty m disp) = ⟨op, d, a, fn, ty, m, disp⟩ := by
  simp only [splitM, wordM, MWordF.mk.injEq]
  refine ⟨?_, ?_, ?_, ?_, ?_, ?_, ?_⟩
  all_goals first
    | (apply BitVec.eq_of_getLsbD_eq; intro i hi
       simp only [BitVec.getLsbD_extractLsb', BitVec.getLsbD_append, BitVec.getLsbD_ofBool]
       interval_cases i <;> simp)
    | simp only [BitVec.getLsbD_append, BitVec.getLsbD_ofBool]; simp

theorem splitB_wordB (op : BitVec 6) (cc : BitVec 5) (a b : Reg) (off : BitVec 11) :
    splitB (wordB op cc a b off) = ⟨op, cc, a, b, off⟩ := by
  simp only [splitB, wordB, BWordF.mk.injEq]
  refine ⟨?_, ?_, ?_, ?_, ?_⟩
  all_goals
    apply BitVec.eq_of_getLsbD_eq; intro i hi
    simp only [BitVec.getLsbD_extractLsb', BitVec.getLsbD_append]
    interval_cases i <;> simp

theorem splitJ_wordJ (op : BitVec 6) (d : Reg) (imm : BitVec 21) : splitJ (wordJ op d imm) = ⟨op, d, imm⟩ := by
  simp only [splitJ, wordJ, JWordF.mk.injEq]
  refine ⟨?_, ?_, ?_⟩
  all_goals
    apply BitVec.eq_of_getLsbD_eq; intro i hi
    simp only [BitVec.getLsbD_extractLsb', BitVec.getLsbD_append]
    interval_cases i <;> simp

theorem opOf_wordV (op : BitVec 6) (d a b : Reg) (fn : BitVec 3) (ty : BitVec 2) (m : Bool) (rep : BitVec 3)
    (fa fb : Bool) : opOf (wordV op d a b fn ty m rep fa fb) = op :=
  congrArg VWord.op (splitV_wordV op d a b fn ty m rep fa fb)

theorem opOf_wordI (op : BitVec 6) (d a : Reg) (imm : BitVec 16) : opOf (wordI op d a imm) = op :=
  congrArg IWordF.op (splitI_wordI op d a imm)

theorem opOf_wordM (op : BitVec 6) (d a : Reg) (fn : BitVec 3) (ty : BitVec 2) (m : Bool) (disp : BitVec 10) :
    opOf (wordM op d a fn ty m disp) = op :=
  congrArg MWordF.op (splitM_wordM op d a fn ty m disp)

theorem opOf_wordB (op : BitVec 6) (cc : BitVec 5) (a b : Reg) (off : BitVec 11) : opOf (wordB op cc a b off) = op :=
  congrArg BWordF.op (splitB_wordB op cc a b off)

theorem opOf_wordJ (op : BitVec 6) (d : Reg) (imm : BitVec 21) : opOf (wordJ op d imm) = op :=
  congrArg JWordF.op (splitJ_wordJ op d imm)

/-- A word of format V decodes as its fields say. -/
theorem decodeWord_wordV (op : BitVec 6) (d a b : Reg) (fn : BitVec 3) (ty : BitVec 2) (m : Bool) (rep : BitVec 3)
    (fa fb : Bool) (i : Instr) (hf : formatOf op = .V) (h : decodeV ⟨op, d, a, b, fn, ty, m, rep, fa, fb⟩ = some i)
    (hw : i.wf = true) : decodeWord (wordV op d a b fn ty m rep fa fb) = some i := by
  simp [decodeWord, decodeFields, opOf_wordV, hf, splitV_wordV, h, hw]

theorem decodeWord_wordI (op : BitVec 6) (d a : Reg) (imm : BitVec 16) (i : Instr) (hf : formatOf op = .I)
    (h : decodeI ⟨op, d, a, imm⟩ = some i) (hw : i.wf = true) : decodeWord (wordI op d a imm) = some i := by
  simp [decodeWord, decodeFields, opOf_wordI, hf, splitI_wordI, h, hw]

theorem decodeWord_wordM (op : BitVec 6) (d a : Reg) (fn : BitVec 3) (ty : BitVec 2) (m : Bool) (disp : BitVec 10)
    (i : Instr) (hf : formatOf op = .M) (h : decodeM ⟨op, d, a, fn, ty, m, disp⟩ = some i) (hw : i.wf = true) :
    decodeWord (wordM op d a fn ty m disp) = some i := by
  simp [decodeWord, decodeFields, opOf_wordM, hf, splitM_wordM, h, hw]

theorem decodeWord_wordB (op : BitVec 6) (cc : BitVec 5) (a b : Reg) (off : BitVec 11) (i : Instr)
    (hf : formatOf op = .B) (h : decodeB ⟨op, cc, a, b, off⟩ = some i) (hw : i.wf = true) :
    decodeWord (wordB op cc a b off) = some i := by
  simp [decodeWord, decodeFields, opOf_wordB, hf, splitB_wordB, h, hw]

theorem decodeWord_wordJ (op : BitVec 6) (d : Reg) (imm : BitVec 21) (i : Instr) (hf : formatOf op = .J)
    (h : decodeJ ⟨op, d, imm⟩ = some i) (hw : i.wf = true) : decodeWord (wordJ op d imm) = some i := by
  simp [decodeWord, decodeFields, opOf_wordJ, hf, splitJ_wordJ, h, hw]

/-! ## Sub-coded fields -/

theorem subKind_second : ∀ (k : BitVec 2) (u : Bool) (t : BitVec 2), subKind (second k u t) = k := by decide +kernel
theorem subUns_second : ∀ (k : BitVec 2) (u : Bool) (t : BitVec 2), subUns (second k u t) = u := by decide +kernel
theorem subType_second : ∀ (k : BitVec 2) (u : Bool) (t : BitVec 2), subType (second k u t) = t := by decide +kernel
theorem second_bits : ∀ (k : BitVec 2) (u x y : Bool),
    (second k u (pair x y)).getLsbD 1 = x ∧ (second k u (pair x y)).getLsbD 0 = y := by decide +kernel
theorem pair_bits : ∀ x y : Bool, (pair x y).getLsbD 1 = x ∧ (pair x y).getLsbD 0 = y := by decide +kernel
theorem trio_bits : ∀ x y z : Bool,
    (trio x y z).getLsbD 2 = x ∧ (trio x y z).getLsbD 1 = y ∧ (trio x y z).getLsbD 0 = z := by decide +kernel

/-! ## Sub-coded immediates (R32) -/

theorem imm_shift (k : BitVec 2) (n : BitVec 6) :
    (k ++ 0#8 ++ n).extractLsb' 6 8 = 0 ∧ (k ++ 0#8 ++ n).extractLsb' 0 6 = n ∧ (k ++ 0#8 ++ n).extractLsb' 14 2 = k := by
  refine ⟨?_, ?_, ?_⟩
  all_goals
    apply BitVec.eq_of_getLsbD_eq; intro i hi
    simp only [BitVec.getLsbD_extractLsb', BitVec.getLsbD_append]
    interval_cases i <;> simp

theorem imm_cr (k : BitVec 2) (n : BitVec 12) :
    (k ++ 0#2 ++ n).extractLsb' 12 2 = 0 ∧ (k ++ 0#2 ++ n).extractLsb' 0 12 = n ∧ (k ++ 0#2 ++ n).extractLsb' 14 2 = k := by
  refine ⟨?_, ?_, ?_⟩
  all_goals
    apply BitVec.eq_of_getLsbD_eq; intro i hi
    simp only [BitVec.getLsbD_extractLsb', BitVec.getLsbD_append]
    interval_cases i <;> simp

theorem imm_crr (n : BitVec 12) :
    (0#4 ++ n).extractLsb' 12 2 = 0 ∧ (0#4 ++ n).extractLsb' 0 12 = n ∧ (0#4 ++ n).extractLsb' 14 2 = 0 := by
  refine ⟨?_, ?_, ?_⟩
  all_goals
    apply BitVec.eq_of_getLsbD_eq; intro i hi
    simp only [BitVec.getLsbD_extractLsb', BitVec.getLsbD_append]
    interval_cases i <;> simp

theorem imm_setvl (mv : Bool) (ty : BitVec 2) (gm : BitVec 5) :
    (BitVec.ofBool mv ++ ty ++ gm ++ 0#8).extractLsb' 0 8 = 0 ∧
    (BitVec.ofBool mv ++ ty ++ gm ++ 0#8).getLsbD 15 = mv ∧
    (BitVec.ofBool mv ++ ty ++ gm ++ 0#8).extractLsb' 13 2 = ty ∧
    (BitVec.ofBool mv ++ ty ++ gm ++ 0#8).extractLsb' 8 5 = gm := by
  refine ⟨?_, ?_, ?_, ?_⟩
  all_goals first
    | (apply BitVec.eq_of_getLsbD_eq; intro i hi
       simp only [BitVec.getLsbD_extractLsb', BitVec.getLsbD_append, BitVec.getLsbD_ofBool]
       interval_cases i <;> simp)
    | simp only [BitVec.getLsbD_append, BitVec.getLsbD_ofBool]; simp

theorem imm_fence (k : BitVec 2) (s : BitVec 3) :
    (k ++ s ++ 0#11).extractLsb' 0 5 = 0 ∧ (k ++ s ++ 0#11).extractLsb' 11 3 = s ∧
    (k ++ s ++ 0#11).extractLsb' 8 3 = 0 ∧ (k ++ s ++ 0#11).extractLsb' 5 3 = 0 ∧
    (k ++ s ++ 0#11).extractLsb' 14 2 = k := by
  refine ⟨?_, ?_, ?_, ?_, ?_⟩
  all_goals
    apply BitVec.eq_of_getLsbD_eq; intro i hi
    simp only [BitVec.getLsbD_extractLsb', BitVec.getLsbD_append]
    interval_cases i <;> simp

theorem imm_fencex (k : BitVec 2) (s c1 c2 : BitVec 3) :
    (k ++ s ++ c1 ++ c2 ++ 0#5).extractLsb' 0 5 = 0 ∧ (k ++ s ++ c1 ++ c2 ++ 0#5).extractLsb' 11 3 = s ∧
    (k ++ s ++ c1 ++ c2 ++ 0#5).extractLsb' 8 3 = c1 ∧ (k ++ s ++ c1 ++ c2 ++ 0#5).extractLsb' 5 3 = c2 ∧
    (k ++ s ++ c1 ++ c2 ++ 0#5).extractLsb' 14 2 = k := by
  refine ⟨?_, ?_, ?_, ?_, ?_⟩
  all_goals
    apply BitVec.eq_of_getLsbD_eq; intro i hi
    simp only [BitVec.getLsbD_extractLsb', BitVec.getLsbD_append]
    interval_cases i <;> simp

theorem imm_sys : ∀ k : BitVec 4, (k ++ 0#12).extractLsb' 0 12 = 0 ∧ (k ++ 0#12).extractLsb' 12 4 = k := by decide +kernel

theorem disp_limit : ∀ r : Reg, (r ++ 0#5).extractLsb' 0 5 = 0 ∧ (r ++ 0#5).extractLsb' 5 5 = r := by decide +kernel

theorem rep_count : ∀ n : BitVec 2, (0#1 ++ n).getLsbD 2 = false ∧ (0#1 ++ n).extractLsb' 0 2 = n := by decide +kernel

end Sys2Proof
end

