-- ==== Sys2Proof/Laws/State.lean ====
section
/-! SUPPORT. What the updates of a strand and of the package leave of each field: one lemma for each field and update,
so that no proof unfolds a record update. -/

namespace Sys2Proof.Machine

/-! ## The package -/

@[simp] theorem State.setX_cur (s : State) (r : Reg) (v : Word) : (s.setX r v).cur = s.cur := rfl
@[simp] theorem State.advance_cur (s : State) : s.advance.cur = s.cur := rfl
@[simp] theorem State.stall_cur (s : State) : s.stall.cur = s.cur := rfl
@[simp] theorem State.upd_cur (s : State) (g : Strand → Strand) : (s.upd g).cur = s.cur := rfl
@[simp] theorem State.setX_others (s : State) (r : Reg) (v : Word) : (s.setX r v).others = s.others := rfl
@[simp] theorem State.advance_others (s : State) : s.advance.others = s.others := rfl
@[simp] theorem State.stall_others (s : State) : s.stall.others = s.others := rfl
@[simp] theorem State.upd_others (s : State) (g : Strand → Strand) : (s.upd g).others = s.others := rfl
@[simp] theorem State.setX_inputs (s : State) (r : Reg) (v : Word) : (s.setX r v).inputs = s.inputs := rfl
@[simp] theorem State.advance_inputs (s : State) : s.advance.inputs = s.inputs := rfl
@[simp] theorem State.stall_inputs (s : State) : s.stall.inputs = s.inputs := rfl
@[simp] theorem State.upd_inputs (s : State) (g : Strand → Strand) : (s.upd g).inputs = s.inputs := rfl
@[simp] theorem State.setX_args (s : State) (r : Reg) (v : Word) : (s.setX r v).args = s.args := rfl
@[simp] theorem State.advance_args (s : State) : s.advance.args = s.args := rfl
@[simp] theorem State.stall_args (s : State) : s.stall.args = s.args := rfl
@[simp] theorem State.upd_args (s : State) (g : Strand → Strand) : (s.upd g).args = s.args := rfl
@[simp] theorem State.setX_pace (s : State) (r : Reg) (v : Word) : (s.setX r v).pace = s.pace := rfl
@[simp] theorem State.advance_pace (s : State) : s.advance.pace = s.pace := rfl
@[simp] theorem State.stall_pace (s : State) : s.stall.pace = s.pace := rfl
@[simp] theorem State.upd_pace (s : State) (g : Strand → Strand) : (s.upd g).pace = s.pace := rfl
@[simp] theorem State.setX_freeCount (s : State) (r : Reg) (v : Word) : (s.setX r v).freeCount = s.freeCount := rfl
@[simp] theorem State.advance_freeCount (s : State) : s.advance.freeCount = s.freeCount := rfl
@[simp] theorem State.stall_freeCount (s : State) : s.stall.freeCount = s.freeCount := rfl
@[simp] theorem State.upd_freeCount (s : State) (g : Strand → Strand) : (s.upd g).freeCount = s.freeCount := rfl
@[simp] theorem State.setX_stamp (s : State) (r : Reg) (v : Word) : (s.setX r v).stamp = s.stamp := rfl
@[simp] theorem State.advance_stamp (s : State) : s.advance.stamp = s.stamp := rfl
@[simp] theorem State.stall_stamp (s : State) : s.stall.stamp = s.stamp := rfl
@[simp] theorem State.upd_stamp (s : State) (g : Strand → Strand) : (s.upd g).stamp = s.stamp := rfl
@[simp] theorem State.setX_mem (s : State) (r : Reg) (v : Word) : (s.setX r v).mem = s.mem := rfl
@[simp] theorem State.advance_mem (s : State) : s.advance.mem = s.mem := rfl
@[simp] theorem State.stall_mem (s : State) : s.stall.mem = s.mem := rfl
@[simp] theorem State.upd_mem (s : State) (g : Strand → Strand) : (s.upd g).mem = s.mem := rfl
@[simp] theorem State.setX_hostMem (s : State) (r : Reg) (v : Word) : (s.setX r v).hostMem = s.hostMem := rfl
@[simp] theorem State.advance_hostMem (s : State) : s.advance.hostMem = s.hostMem := rfl
@[simp] theorem State.stall_hostMem (s : State) : s.stall.hostMem = s.hostMem := rfl
@[simp] theorem State.upd_hostMem (s : State) (g : Strand → Strand) : (s.upd g).hostMem = s.hostMem := rfl
@[simp] theorem State.setX_hostErr (s : State) (r : Reg) (v : Word) : (s.setX r v).hostErr = s.hostErr := rfl
@[simp] theorem State.advance_hostErr (s : State) : s.advance.hostErr = s.hostErr := rfl
@[simp] theorem State.stall_hostErr (s : State) : s.stall.hostErr = s.hostErr := rfl
@[simp] theorem State.upd_hostErr (s : State) (g : Strand → Strand) : (s.upd g).hostErr = s.hostErr := rfl
@[simp] theorem State.setX_hostPoison (s : State) (r : Reg) (v : Word) : (s.setX r v).hostPoison = s.hostPoison := rfl
@[simp] theorem State.advance_hostPoison (s : State) : s.advance.hostPoison = s.hostPoison := rfl
@[simp] theorem State.stall_hostPoison (s : State) : s.stall.hostPoison = s.hostPoison := rfl
@[simp] theorem State.upd_hostPoison (s : State) (g : Strand → Strand) : (s.upd g).hostPoison = s.hostPoison := rfl
@[simp] theorem State.setX_poison (s : State) (r : Reg) (v : Word) : (s.setX r v).poison = s.poison := rfl
@[simp] theorem State.advance_poison (s : State) : s.advance.poison = s.poison := rfl
@[simp] theorem State.stall_poison (s : State) : s.stall.poison = s.poison := rfl
@[simp] theorem State.upd_poison (s : State) (g : Strand → Strand) : (s.upd g).poison = s.poison := rfl
@[simp] theorem State.setX_cores (s : State) (r : Reg) (v : Word) : (s.setX r v).cores = s.cores := rfl
@[simp] theorem State.advance_cores (s : State) : s.advance.cores = s.cores := rfl
@[simp] theorem State.stall_cores (s : State) : s.stall.cores = s.cores := rfl
@[simp] theorem State.upd_cores (s : State) (g : Strand → Strand) : (s.upd g).cores = s.cores := rfl
@[simp] theorem State.setX_clusters (s : State) (r : Reg) (v : Word) : (s.setX r v).clusters = s.clusters := rfl
@[simp] theorem State.advance_clusters (s : State) : s.advance.clusters = s.clusters := rfl
@[simp] theorem State.stall_clusters (s : State) : s.stall.clusters = s.clusters := rfl
@[simp] theorem State.upd_clusters (s : State) (g : Strand → Strand) : (s.upd g).clusters = s.clusters := rfl
@[simp] theorem State.setX_dies (s : State) (r : Reg) (v : Word) : (s.setX r v).dies = s.dies := rfl
@[simp] theorem State.advance_dies (s : State) : s.advance.dies = s.dies := rfl
@[simp] theorem State.stall_dies (s : State) : s.stall.dies = s.dies := rfl
@[simp] theorem State.upd_dies (s : State) (g : Strand → Strand) : (s.upd g).dies = s.dies := rfl
@[simp] theorem State.setX_cmds (s : State) (r : Reg) (v : Word) : (s.setX r v).cmds = s.cmds := rfl
@[simp] theorem State.advance_cmds (s : State) : s.advance.cmds = s.cmds := rfl
@[simp] theorem State.stall_cmds (s : State) : s.stall.cmds = s.cmds := rfl
@[simp] theorem State.upd_cmds (s : State) (g : Strand → Strand) : (s.upd g).cmds = s.cmds := rfl
@[simp] theorem State.setX_posts (s : State) (r : Reg) (v : Word) : (s.setX r v).posts = s.posts := rfl
@[simp] theorem State.advance_posts (s : State) : s.advance.posts = s.posts := rfl
@[simp] theorem State.stall_posts (s : State) : s.stall.posts = s.posts := rfl
@[simp] theorem State.upd_posts (s : State) (g : Strand → Strand) : (s.upd g).posts = s.posts := rfl
@[simp] theorem State.setX_frames (s : State) (r : Reg) (v : Word) : (s.setX r v).frames = s.frames := rfl
@[simp] theorem State.advance_frames (s : State) : s.advance.frames = s.frames := rfl
@[simp] theorem State.stall_frames (s : State) : s.stall.frames = s.frames := rfl
@[simp] theorem State.upd_frames (s : State) (g : Strand → Strand) : (s.upd g).frames = s.frames := rfl
@[simp] theorem State.setX_launches (s : State) (r : Reg) (v : Word) : (s.setX r v).launches = s.launches := rfl
@[simp] theorem State.advance_launches (s : State) : s.advance.launches = s.launches := rfl
@[simp] theorem State.stall_launches (s : State) : s.stall.launches = s.launches := rfl
@[simp] theorem State.upd_launches (s : State) (g : Strand → Strand) : (s.upd g).launches = s.launches := rfl
@[simp] theorem State.setX_graphs (s : State) (r : Reg) (v : Word) : (s.setX r v).graphs = s.graphs := rfl
@[simp] theorem State.advance_graphs (s : State) : s.advance.graphs = s.graphs := rfl
@[simp] theorem State.stall_graphs (s : State) : s.stall.graphs = s.graphs := rfl
@[simp] theorem State.upd_graphs (s : State) (g : Strand → Strand) : (s.upd g).graphs = s.graphs := rfl
@[simp] theorem State.setX_finishing (s : State) (r : Reg) (v : Word) : (s.setX r v).finishing = s.finishing := rfl
@[simp] theorem State.advance_finishing (s : State) : s.advance.finishing = s.finishing := rfl
@[simp] theorem State.stall_finishing (s : State) : s.stall.finishing = s.finishing := rfl
@[simp] theorem State.upd_finishing (s : State) (g : Strand → Strand) : (s.upd g).finishing = s.finishing := rfl
@[simp] theorem State.setX_cancelled (s : State) (r : Reg) (v : Word) : (s.setX r v).cancelled = s.cancelled := rfl
@[simp] theorem State.advance_cancelled (s : State) : s.advance.cancelled = s.cancelled := rfl
@[simp] theorem State.stall_cancelled (s : State) : s.stall.cancelled = s.cancelled := rfl
@[simp] theorem State.upd_cancelled (s : State) (g : Strand → Strand) : (s.upd g).cancelled = s.cancelled := rfl
@[simp] theorem State.setX_saved (s : State) (r : Reg) (v : Word) : (s.setX r v).saved = s.saved := rfl
@[simp] theorem State.advance_saved (s : State) : s.advance.saved = s.saved := rfl
@[simp] theorem State.stall_saved (s : State) : s.stall.saved = s.saved := rfl
@[simp] theorem State.upd_saved (s : State) (g : Strand → Strand) : (s.upd g).saved = s.saved := rfl
@[simp] theorem State.setX_monitors (s : State) (r : Reg) (v : Word) : (s.setX r v).monitors = s.monitors := rfl
@[simp] theorem State.advance_monitors (s : State) : s.advance.monitors = s.monitors := rfl
@[simp] theorem State.stall_monitors (s : State) : s.stall.monitors = s.monitors := rfl
@[simp] theorem State.upd_monitors (s : State) (g : Strand → Strand) : (s.upd g).monitors = s.monitors := rfl
@[simp] theorem State.setX_rehand (s : State) (r : Reg) (v : Word) : (s.setX r v).rehand = s.rehand := rfl
@[simp] theorem State.advance_rehand (s : State) : s.advance.rehand = s.rehand := rfl
@[simp] theorem State.stall_rehand (s : State) : s.stall.rehand = s.rehand := rfl
@[simp] theorem State.upd_rehand (s : State) (g : Strand → Strand) : (s.upd g).rehand = s.rehand := rfl
@[simp] theorem State.setX_flights (s : State) (r : Reg) (v : Word) : (s.setX r v).flights = s.flights := rfl
@[simp] theorem State.advance_flights (s : State) : s.advance.flights = s.flights := rfl
@[simp] theorem State.stall_flights (s : State) : s.stall.flights = s.flights := rfl
@[simp] theorem State.upd_flights (s : State) (g : Strand → Strand) : (s.upd g).flights = s.flights := rfl
@[simp] theorem State.setX_ctxs (s : State) (r : Reg) (v : Word) : (s.setX r v).ctxs = s.ctxs := rfl
@[simp] theorem State.advance_ctxs (s : State) : s.advance.ctxs = s.ctxs := rfl
@[simp] theorem State.stall_ctxs (s : State) : s.stall.ctxs = s.ctxs := rfl
@[simp] theorem State.upd_ctxs (s : State) (g : Strand → Strand) : (s.upd g).ctxs = s.ctxs := rfl
@[simp] theorem State.setX_mgmt (s : State) (r : Reg) (v : Word) : (s.setX r v).mgmt = s.mgmt := rfl
@[simp] theorem State.advance_mgmt (s : State) : s.advance.mgmt = s.mgmt := rfl
@[simp] theorem State.stall_mgmt (s : State) : s.stall.mgmt = s.mgmt := rfl
@[simp] theorem State.upd_mgmt (s : State) (g : Strand → Strand) : (s.upd g).mgmt = s.mgmt := rfl
@[simp] theorem State.setX_st (s : State) (r : Reg) (v : Word) : (s.setX r v).st = s.st.xset r v := rfl
@[simp] theorem State.advance_st (s : State) : s.advance.st = s.st.next := rfl
@[simp] theorem State.upd_st (s : State) (g : Strand → Strand) : (s.upd g).st = g s.st := rfl

/-! ## The pc moves on -/

@[simp] theorem Strand.next_pc (t : Strand) : t.next.pc = t.pc + 4 := rfl
@[simp] theorem Strand.next_undo (t : Strand) : t.next.undo = t.undo := rfl
@[simp] theorem Strand.next_waiting (t : Strand) : t.next.waiting = false := rfl
@[simp] theorem Strand.next_x (t : Strand) : t.next.x = t.x := rfl
@[simp] theorem Strand.next_xfull (t : Strand) : t.next.xfull = t.xfull := rfl
@[simp] theorem Strand.next_xpend (t : Strand) : t.next.xpend = t.xpend := rfl
@[simp] theorem Strand.next_xpoison (t : Strand) : t.next.xpoison = t.xpoison := rfl
@[simp] theorem Strand.next_v (t : Strand) : t.next.v = t.v := rfl
@[simp] theorem Strand.next_vfull (t : Strand) : t.next.vfull = t.vfull := rfl
@[simp] theorem Strand.next_vpoison (t : Strand) : t.next.vpoison = t.vpoison := rfl
@[simp] theorem Strand.next_gtag (t : Strand) : t.next.gtag = t.gtag := rfl
@[simp] theorem Strand.next_dtag (t : Strand) : t.next.dtag = t.dtag := rfl
@[simp] theorem Strand.next_level (t : Strand) : t.next.level = t.level := rfl
@[simp] theorem Strand.next_vl (t : Strand) : t.next.vl = t.vl := rfl
@[simp] theorem Strand.next_vlFull (t : Strand) : t.next.vlFull = t.vlFull := rfl
@[simp] theorem Strand.next_vs (t : Strand) : t.next.vs = t.vs := rfl
@[simp] theorem Strand.next_vgm (t : Strand) : t.next.vgm = t.vgm := rfl
@[simp] theorem Strand.next_vstart (t : Strand) : t.next.vstart = t.vstart := rfl
@[simp] theorem Strand.next_vdirty (t : Strand) : t.next.vdirty = t.vdirty := rfl
@[simp] theorem Strand.next_vfrem (t : Strand) : t.next.vfrem = t.vfrem := rfl
@[simp] theorem Strand.next_fflags (t : Strand) : t.next.fflags = t.fflags := rfl
@[simp] theorem Strand.next_ffirst (t : Strand) : t.next.ffirst = t.ffirst := rfl
@[simp] theorem Strand.next_frm (t : Strand) : t.next.frm = t.frm := rfl
@[simp] theorem Strand.next_fz (t : Strand) : t.next.fz = t.fz := rfl
@[simp] theorem Strand.next_trp (t : Strand) : t.next.trp = t.trp := rfl
@[simp] theorem Strand.next_tcp (t : Strand) : t.next.tcp = t.tcp := rfl
@[simp] theorem Strand.next_tonOwned (t : Strand) : t.next.tonOwned = t.tonOwned := rfl
@[simp] theorem Strand.next_tonPend (t : Strand) : t.next.tonPend = t.tonPend := rfl
@[simp] theorem Strand.next_tiles (t : Strand) : t.next.tiles = t.tiles := rfl
@[simp] theorem Strand.next_xresume (t : Strand) : t.next.xresume = t.xresume := rfl
@[simp] theorem Strand.next_wto (t : Strand) : t.next.wto = t.wto := rfl
@[simp] theorem Strand.next_cbsel (t : Strand) : t.next.cbsel = t.cbsel := rfl
@[simp] theorem Strand.next_vm (t : Strand) : t.next.vm = t.vm := rfl
@[simp] theorem Strand.next_vsg (t : Strand) : t.next.vsg = t.vsg := rfl
@[simp] theorem Strand.next_ctx (t : Strand) : t.next.ctx = t.ctx := rfl
@[simp] theorem Strand.next_queue (t : Strand) : t.next.queue = t.queue := rfl
@[simp] theorem Strand.next_image (t : Strand) : t.next.image = t.image := rfl
@[simp] theorem Strand.next_stores (t : Strand) : t.next.stores = t.stores := rfl
@[simp] theorem Strand.next_loads (t : Strand) : t.next.loads = t.loads := rfl
@[simp] theorem Strand.next_events (t : Strand) : t.next.events = t.events := rfl
@[simp] theorem Strand.next_notices (t : Strand) : t.next.notices = t.notices := rfl
@[simp] theorem Strand.next_spills (t : Strand) : t.next.spills = t.spills := rfl
@[simp] theorem Strand.next_claims (t : Strand) : t.next.claims = t.claims := rfl
@[simp] theorem Strand.next_crit (t : Strand) : t.next.crit = t.crit := rfl
@[simp] theorem Strand.next_critCount (t : Strand) : t.next.critCount = t.critCount := rfl
@[simp] theorem Strand.next_critDepth (t : Strand) : t.next.critDepth = t.critDepth := rfl
@[simp] theorem Strand.next_streams (t : Strand) : t.next.streams = t.streams := rfl
@[simp] theorem Strand.next_mark (t : Strand) : t.next.mark = t.mark := rfl
@[simp] theorem Strand.next_tvec (t : Strand) : t.next.tvec = t.tvec := rfl
@[simp] theorem Strand.next_tcause (t : Strand) : t.next.tcause = t.tcause := rfl
@[simp] theorem Strand.next_tval (t : Strand) : t.next.tval = t.tval := rfl
@[simp] theorem Strand.next_tepc (t : Strand) : t.next.tepc = t.tepc := rfl
@[simp] theorem Strand.next_ppl (t : Strand) : t.next.ppl = t.ppl := rfl
@[simp] theorem Strand.next_held (t : Strand) : t.next.held = t.held := rfl
@[simp] theorem Strand.next_skip (t : Strand) : t.next.skip = t.skip := rfl
@[simp] theorem Strand.next_tscratch (t : Strand) : t.next.tscratch = t.tscratch := rfl
@[simp] theorem Strand.next_prio (t : Strand) : t.next.prio = t.prio := rfl
@[simp] theorem Strand.next_rchk (t : Strand) : t.next.rchk = t.rchk := rfl
@[simp] theorem Strand.next_svbase (t : Strand) : t.next.svbase = t.svbase := rfl
@[simp] theorem Strand.next_pending (t : Strand) : t.next.pending = t.pending := rfl
@[simp] theorem Strand.next_hold (t : Strand) : t.next.hold = t.hold := rfl
@[simp] theorem Strand.next_run (t : Strand) : t.next.run = t.run := rfl
@[simp] theorem Strand.next_sleep (t : Strand) : t.next.sleep = t.sleep := rfl
@[simp] theorem Strand.next_watch (t : Strand) : t.next.watch = t.watch := rfl
@[simp] theorem Strand.next_watchOut (t : Strand) : t.next.watchOut = t.watchOut := rfl
@[simp] theorem Strand.next_iter (t : Strand) : t.next.iter = t.iter := rfl
@[simp] theorem Strand.next_scratch (t : Strand) : t.next.scratch = t.scratch := rfl
@[simp] theorem Strand.next_scratchSize (t : Strand) : t.next.scratchSize = t.scratchSize := rfl
@[simp] theorem Strand.next_scratchEpoch (t : Strand) : t.next.scratchEpoch = t.scratchEpoch := rfl
@[simp] theorem Strand.next_batch (t : Strand) : t.next.batch = t.batch := rfl
@[simp] theorem Strand.next_batchSize (t : Strand) : t.next.batchSize = t.batchSize := rfl
@[simp] theorem Strand.next_scratchBad (t : Strand) : t.next.scratchBad = t.scratchBad := rfl
@[simp] theorem Strand.next_batchBad (t : Strand) : t.next.batchBad = t.batchBad := rfl
@[simp] theorem Strand.next_seq (t : Strand) : t.next.seq = t.seq := rfl
@[simp] theorem Strand.next_xget (t : Strand) (r : Reg) : t.next.xget r = t.xget r := rfl
@[simp] theorem Strand.next_isFull (t : Strand) (r : Reg) : t.next.isFull r = t.isFull r := rfl

/-! ## A write to an x register -/

@[simp] theorem Strand.xset_v (t : Strand) (r : Reg) (v : Word) : (t.xset r v).v = t.v := by
  unfold Strand.xset; split <;> rfl
@[simp] theorem Strand.xset_vfull (t : Strand) (r : Reg) (v : Word) : (t.xset r v).vfull = t.vfull := by
  unfold Strand.xset; split <;> rfl
@[simp] theorem Strand.xset_vpoison (t : Strand) (r : Reg) (v : Word) : (t.xset r v).vpoison = t.vpoison := by
  unfold Strand.xset; split <;> rfl
@[simp] theorem Strand.xset_gtag (t : Strand) (r : Reg) (v : Word) : (t.xset r v).gtag = t.gtag := by
  unfold Strand.xset; split <;> rfl
@[simp] theorem Strand.xset_dtag (t : Strand) (r : Reg) (v : Word) : (t.xset r v).dtag = t.dtag := by
  unfold Strand.xset; split <;> rfl
@[simp] theorem Strand.xset_pc (t : Strand) (r : Reg) (v : Word) : (t.xset r v).pc = t.pc := by
  unfold Strand.xset; split <;> rfl
@[simp] theorem Strand.xset_level (t : Strand) (r : Reg) (v : Word) : (t.xset r v).level = t.level := by
  unfold Strand.xset; split <;> rfl
@[simp] theorem Strand.xset_vl (t : Strand) (r : Reg) (v : Word) : (t.xset r v).vl = t.vl := by
  unfold Strand.xset; split <;> rfl
@[simp] theorem Strand.xset_vlFull (t : Strand) (r : Reg) (v : Word) : (t.xset r v).vlFull = t.vlFull := by
  unfold Strand.xset; split <;> rfl
@[simp] theorem Strand.xset_vs (t : Strand) (r : Reg) (v : Word) : (t.xset r v).vs = t.vs := by
  unfold Strand.xset; split <;> rfl
@[simp] theorem Strand.xset_vgm (t : Strand) (r : Reg) (v : Word) : (t.xset r v).vgm = t.vgm := by
  unfold Strand.xset; split <;> rfl
@[simp] theorem Strand.xset_vstart (t : Strand) (r : Reg) (v : Word) : (t.xset r v).vstart = t.vstart := by
  unfold Strand.xset; split <;> rfl
@[simp] theorem Strand.xset_vdirty (t : Strand) (r : Reg) (v : Word) : (t.xset r v).vdirty = t.vdirty := by
  unfold Strand.xset; split <;> rfl
@[simp] theorem Strand.xset_vfrem (t : Strand) (r : Reg) (v : Word) : (t.xset r v).vfrem = t.vfrem := by
  unfold Strand.xset; split <;> rfl
@[simp] theorem Strand.xset_fflags (t : Strand) (r : Reg) (v : Word) : (t.xset r v).fflags = t.fflags := by
  unfold Strand.xset; split <;> rfl
@[simp] theorem Strand.xset_ffirst (t : Strand) (r : Reg) (v : Word) : (t.xset r v).ffirst = t.ffirst := by
  unfold Strand.xset; split <;> rfl
@[simp] theorem Strand.xset_frm (t : Strand) (r : Reg) (v : Word) : (t.xset r v).frm = t.frm := by
  unfold Strand.xset; split <;> rfl
@[simp] theorem Strand.xset_fz (t : Strand) (r : Reg) (v : Word) : (t.xset r v).fz = t.fz := by
  unfold Strand.xset; split <;> rfl
@[simp] theorem Strand.xset_trp (t : Strand) (r : Reg) (v : Word) : (t.xset r v).trp = t.trp := by
  unfold Strand.xset; split <;> rfl
@[simp] theorem Strand.xset_tcp (t : Strand) (r : Reg) (v : Word) : (t.xset r v).tcp = t.tcp := by
  unfold Strand.xset; split <;> rfl
@[simp] theorem Strand.xset_tonOwned (t : Strand) (r : Reg) (v : Word) : (t.xset r v).tonOwned = t.tonOwned := by
  unfold Strand.xset; split <;> rfl
@[simp] theorem Strand.xset_tonPend (t : Strand) (r : Reg) (v : Word) : (t.xset r v).tonPend = t.tonPend := by
  unfold Strand.xset; split <;> rfl
@[simp] theorem Strand.xset_tiles (t : Strand) (r : Reg) (v : Word) : (t.xset r v).tiles = t.tiles := by
  unfold Strand.xset; split <;> rfl
@[simp] theorem Strand.xset_xresume (t : Strand) (r : Reg) (v : Word) : (t.xset r v).xresume = t.xresume := by
  unfold Strand.xset; split <;> rfl
@[simp] theorem Strand.xset_wto (t : Strand) (r : Reg) (v : Word) : (t.xset r v).wto = t.wto := by
  unfold Strand.xset; split <;> rfl
@[simp] theorem Strand.xset_cbsel (t : Strand) (r : Reg) (v : Word) : (t.xset r v).cbsel = t.cbsel := by
  unfold Strand.xset; split <;> rfl
@[simp] theorem Strand.xset_vm (t : Strand) (r : Reg) (v : Word) : (t.xset r v).vm = t.vm := by
  unfold Strand.xset; split <;> rfl
@[simp] theorem Strand.xset_vsg (t : Strand) (r : Reg) (v : Word) : (t.xset r v).vsg = t.vsg := by
  unfold Strand.xset; split <;> rfl
@[simp] theorem Strand.xset_ctx (t : Strand) (r : Reg) (v : Word) : (t.xset r v).ctx = t.ctx := by
  unfold Strand.xset; split <;> rfl
@[simp] theorem Strand.xset_queue (t : Strand) (r : Reg) (v : Word) : (t.xset r v).queue = t.queue := by
  unfold Strand.xset; split <;> rfl
@[simp] theorem Strand.xset_image (t : Strand) (r : Reg) (v : Word) : (t.xset r v).image = t.image := by
  unfold Strand.xset; split <;> rfl
@[simp] theorem Strand.xset_stores (t : Strand) (r : Reg) (v : Word) : (t.xset r v).stores = t.stores := by
  unfold Strand.xset; split <;> rfl
@[simp] theorem Strand.xset_loads (t : Strand) (r : Reg) (v : Word) : (t.xset r v).loads = t.loads := by
  unfold Strand.xset; split <;> rfl
@[simp] theorem Strand.xset_events (t : Strand) (r : Reg) (v : Word) : (t.xset r v).events = t.events := by
  unfold Strand.xset; split <;> rfl
@[simp] theorem Strand.xset_notices (t : Strand) (r : Reg) (v : Word) : (t.xset r v).notices = t.notices := by
  unfold Strand.xset; split <;> rfl
@[simp] theorem Strand.xset_spills (t : Strand) (r : Reg) (v : Word) : (t.xset r v).spills = t.spills := by
  unfold Strand.xset; split <;> rfl
@[simp] theorem Strand.xset_claims (t : Strand) (r : Reg) (v : Word) : (t.xset r v).claims = t.claims := by
  unfold Strand.xset; split <;> rfl
@[simp] theorem Strand.xset_crit (t : Strand) (r : Reg) (v : Word) : (t.xset r v).crit = t.crit := by
  unfold Strand.xset; split <;> rfl
@[simp] theorem Strand.xset_critCount (t : Strand) (r : Reg) (v : Word) : (t.xset r v).critCount = t.critCount := by
  unfold Strand.xset; split <;> rfl
@[simp] theorem Strand.xset_critDepth (t : Strand) (r : Reg) (v : Word) : (t.xset r v).critDepth = t.critDepth := by
  unfold Strand.xset; split <;> rfl
@[simp] theorem Strand.xset_streams (t : Strand) (r : Reg) (v : Word) : (t.xset r v).streams = t.streams := by
  unfold Strand.xset; split <;> rfl
@[simp] theorem Strand.xset_mark (t : Strand) (r : Reg) (v : Word) : (t.xset r v).mark = t.mark := by
  unfold Strand.xset; split <;> rfl
@[simp] theorem Strand.xset_tvec (t : Strand) (r : Reg) (v : Word) : (t.xset r v).tvec = t.tvec := by
  unfold Strand.xset; split <;> rfl
@[simp] theorem Strand.xset_tcause (t : Strand) (r : Reg) (v : Word) : (t.xset r v).tcause = t.tcause := by
  unfold Strand.xset; split <;> rfl
@[simp] theorem Strand.xset_tval (t : Strand) (r : Reg) (v : Word) : (t.xset r v).tval = t.tval := by
  unfold Strand.xset; split <;> rfl
@[simp] theorem Strand.xset_tepc (t : Strand) (r : Reg) (v : Word) : (t.xset r v).tepc = t.tepc := by
  unfold Strand.xset; split <;> rfl
@[simp] theorem Strand.xset_ppl (t : Strand) (r : Reg) (v : Word) : (t.xset r v).ppl = t.ppl := by
  unfold Strand.xset; split <;> rfl
@[simp] theorem Strand.xset_held (t : Strand) (r : Reg) (v : Word) : (t.xset r v).held = t.held := by
  unfold Strand.xset; split <;> rfl
@[simp] theorem Strand.xset_skip (t : Strand) (r : Reg) (v : Word) : (t.xset r v).skip = t.skip := by
  unfold Strand.xset; split <;> rfl
@[simp] theorem Strand.xset_tscratch (t : Strand) (r : Reg) (v : Word) : (t.xset r v).tscratch = t.tscratch := by
  unfold Strand.xset; split <;> rfl
@[simp] theorem Strand.xset_prio (t : Strand) (r : Reg) (v : Word) : (t.xset r v).prio = t.prio := by
  unfold Strand.xset; split <;> rfl
@[simp] theorem Strand.xset_rchk (t : Strand) (r : Reg) (v : Word) : (t.xset r v).rchk = t.rchk := by
  unfold Strand.xset; split <;> rfl
@[simp] theorem Strand.xset_svbase (t : Strand) (r : Reg) (v : Word) : (t.xset r v).svbase = t.svbase := by
  unfold Strand.xset; split <;> rfl
@[simp] theorem Strand.xset_pending (t : Strand) (r : Reg) (v : Word) : (t.xset r v).pending = t.pending := by
  unfold Strand.xset; split <;> rfl
@[simp] theorem Strand.xset_hold (t : Strand) (r : Reg) (v : Word) : (t.xset r v).hold = t.hold := by
  unfold Strand.xset; split <;> rfl
@[simp] theorem Strand.xset_run (t : Strand) (r : Reg) (v : Word) : (t.xset r v).run = t.run := by
  unfold Strand.xset; split <;> rfl
@[simp] theorem Strand.xset_sleep (t : Strand) (r : Reg) (v : Word) : (t.xset r v).sleep = t.sleep := by
  unfold Strand.xset; split <;> rfl
@[simp] theorem Strand.xset_timedOut (t : Strand) (r : Reg) (v : Word) : (t.xset r v).timedOut = t.timedOut := by
  unfold Strand.xset; split <;> rfl
@[simp] theorem Strand.xset_watch (t : Strand) (r : Reg) (v : Word) : (t.xset r v).watch = t.watch := by
  unfold Strand.xset; split <;> rfl
@[simp] theorem Strand.xset_watchOut (t : Strand) (r : Reg) (v : Word) : (t.xset r v).watchOut = t.watchOut := by
  unfold Strand.xset; split <;> rfl
@[simp] theorem Strand.xset_iter (t : Strand) (r : Reg) (v : Word) : (t.xset r v).iter = t.iter := by
  unfold Strand.xset; split <;> rfl
@[simp] theorem Strand.xset_scratch (t : Strand) (r : Reg) (v : Word) : (t.xset r v).scratch = t.scratch := by
  unfold Strand.xset; split <;> rfl
@[simp] theorem Strand.xset_scratchSize (t : Strand) (r : Reg) (v : Word) : (t.xset r v).scratchSize = t.scratchSize := by
  unfold Strand.xset; split <;> rfl
@[simp] theorem Strand.xset_scratchEpoch (t : Strand) (r : Reg) (v : Word) : (t.xset r v).scratchEpoch = t.scratchEpoch := by
  unfold Strand.xset; split <;> rfl
@[simp] theorem Strand.xset_batch (t : Strand) (r : Reg) (v : Word) : (t.xset r v).batch = t.batch := by
  unfold Strand.xset; split <;> rfl
@[simp] theorem Strand.xset_batchSize (t : Strand) (r : Reg) (v : Word) : (t.xset r v).batchSize = t.batchSize := by
  unfold Strand.xset; split <;> rfl
@[simp] theorem Strand.xset_scratchBad (t : Strand) (r : Reg) (v : Word) : (t.xset r v).scratchBad = t.scratchBad := by
  unfold Strand.xset; split <;> rfl
@[simp] theorem Strand.xset_batchBad (t : Strand) (r : Reg) (v : Word) : (t.xset r v).batchBad = t.batchBad := by
  unfold Strand.xset; split <;> rfl
@[simp] theorem Strand.xset_redecode (t : Strand) (r : Reg) (v : Word) : (t.xset r v).redecode = t.redecode := by
  unfold Strand.xset; split <;> rfl
@[simp] theorem Strand.xset_undo (t : Strand) (r : Reg) (v : Word) : (t.xset r v).undo = t.undo := by
  unfold Strand.xset; split <;> rfl
@[simp] theorem Strand.xset_seq (t : Strand) (r : Reg) (v : Word) : (t.xset r v).seq = t.seq := by
  unfold Strand.xset; split <;> rfl
@[simp] theorem Strand.xset_waiting (t : Strand) (r : Reg) (v : Word) : (t.xset r v).waiting = t.waiting := by
  unfold Strand.xset; split <;> rfl

/-- x0 is hard-wired (R12). -/
theorem Strand.xset_zero (t : Strand) (v : Word) : t.xset 0 v = t := rfl

/-- A register reads back what was written to it, unless it is x0 (R12). -/
@[simp] theorem Strand.xget_xset_self (t : Strand) (r : Reg) (v : Word) (h : r ≠ 0) : (t.xset r v).xget r = v := by
  unfold Strand.xget Strand.xset
  rw [if_neg h, if_neg h]
  simp

/-- A write leaves every other register alone. -/
@[simp] theorem Strand.xget_xset_of_ne (t : Strand) (r q : Reg) (v : Word) (h : q ≠ r) :
    (t.xset r v).xget q = t.xget q := by
  unfold Strand.xget Strand.xset
  split
  · rfl
  · split
    · rfl
    · have : r.toNat ≠ q.toNat := fun e => h (BitVec.eq_of_toNat_eq e.symm)
      simp [this]

theorem hasReg_setReg_self (m : BitVec 32) (r : Reg) (on : Bool) : hasReg (setReg m r on) r = on := by
  have := r.isLt
  cases on <;> simp [hasReg, setReg, this]

theorem hasReg_setReg_of_ne (m : BitVec 32) (r q : Reg) (on : Bool) (h : q ≠ r) :
    hasReg (setReg m r on) q = hasReg m q := by
  have hr := r.isLt
  have hq := q.isLt
  have hne : q.toNat ≠ r.toNat := fun e => h (BitVec.eq_of_toNat_eq e)
  have : ((1#32) <<< r.toNat).getLsbD q.toNat = false := by
    simp only [BitVec.getLsbD_shiftLeft, BitVec.getLsbD_one]
    by_cases hlt : q.toNat < r.toNat
    · simp [hlt]
    · have : q.toNat - r.toNat ≠ 0 := by omega
      simp [this]
  cases on <;> simp only [hasReg, setReg, Bool.false_eq_true, if_false, if_true, BitVec.getLsbD_or, BitVec.getLsbD_and,
    BitVec.getLsbD_not, this] <;> simp [hq]

@[simp] theorem Strand.isFull_xset_of_ne (t : Strand) (r q : Reg) (v : Word) (h : q ≠ r) :
    (t.xset r v).isFull q = t.isFull q := by
  unfold Strand.isFull Strand.xset
  split
  · rfl
  · simp [hasReg_setReg_of_ne _ _ _ _ h]

/-- A written register is full (R14). -/
@[simp] theorem Strand.isFull_xset_self (t : Strand) (r : Reg) (v : Word) : (t.xset r v).isFull r = true := by
  unfold Strand.isFull Strand.xset
  split
  · simp_all
  · simp [hasReg_setReg_self]

end Sys2Proof.Machine
end

