-- ==== Sys2Proof/Laws/Memory.lean ====
section
/-! SUPPORT. Memory: what reads back after a write, that every memory operation keeps the canonical form, and the one
lemma about a write at a place. -/

namespace Sys2Proof.Machine

/-! ## Cells -/

theorem cellAt_setCell (d : Byte) (a : Nat) (b : Byte) (m : List Host.Cell) (h : cellsWf d m = true) (k : Nat) :
    cellAt d (setCell d a b m) k = if k = a then b else cellAt d m k := by
  induction m with
  | nil =>
    unfold setCell
    split
    · simp_all [cellAt]
    · simp [cellAt]
  | cons c t ih =>
    obtain ⟨x, y⟩ := c
    simp only [cellsWf, Bool.and_eq_true, List.all_eq_true, decide_eq_true_eq] at h
    have out : ∀ j, j ≤ x → cellAt d t j = d := by
      intro j hj
      have hall := h.1.2
      clear ih h
      induction t with
      | nil => rfl
      | cons e u iu =>
        obtain ⟨p, q⟩ := e
        have hp := hall (p, q) (by simp)
        simp only [cellAt]
        rw [if_neg (by simp; omega)]
        exact iu fun c hc => hall c (by simp [hc])
    unfold setCell
    by_cases h1 : a < x
    · simp only [h1, if_true]
      by_cases hb : b = d
      · simp only [hb, if_true, cellAt]
        by_cases hk : k = a
        · subst hk
          have : k ≠ x := by omega
          simp [this, out k (by omega)]
        · simp [hk]
      · simp [hb, cellAt]
    · by_cases h2 : a = x
      · subst h2
        by_cases hb : b = d
        · simp only [hb, if_true, cellAt]
          by_cases hk : k = a
          · subst hk; simp [out k (Nat.le_refl k)]
          · simp [hk]
        · simp only [hb, cellAt]
          by_cases hk : k = a <;> simp [hk, cellAt]
      · simp only [h1, h2, if_false, cellAt, beq_iff_eq]
        by_cases hk : k = x
        · subst hk
          have : k ≠ a := by omega
          simp [this]
        · simp only [hk, if_false]
          exact ih h.2

theorem setCell_keys (d : Byte) (a : Nat) (b : Byte) (m : List Host.Cell) (n : Nat) (hn : n < a)
    (h : ∀ c ∈ m, n < c.1) : ∀ c ∈ setCell d a b m, n < c.1 := by
  induction m with
  | nil => intro c hc; unfold setCell at hc; split at hc <;> simp_all
  | cons e t ih =>
    obtain ⟨x, y⟩ := e
    have hx := h (x, y) (by simp)
    have ht : ∀ c ∈ t, n < c.1 := fun c hc => h c (by simp [hc])
    intro c hc
    unfold setCell at hc
    split at hc
    · split at hc <;> simp only [List.mem_cons] at hc
      · rcases hc with rfl | hc
        · exact hx
        · exact ht _ hc
      · rcases hc with rfl | rfl | hc
        · exact hn
        · exact hx
        · exact ht _ hc
    · split at hc
      · split at hc
        · exact ht _ hc
        · simp only [List.mem_cons] at hc
          rcases hc with rfl | hc
          · exact hn
          · exact ht _ hc
      · simp only [List.mem_cons] at hc
        rcases hc with rfl | hc
        · exact hx
        · exact ih ht _ hc

/-- Writing a byte keeps the canonical form. -/
theorem cellsWf_setCell (d : Byte) (a : Nat) (b : Byte) (m : List Host.Cell) (h : cellsWf d m = true) :
    cellsWf d (setCell d a b m) = true := by
  induction m with
  | nil => unfold setCell; split <;> simp_all [cellsWf]
  | cons e t ih =>
    obtain ⟨x, y⟩ := e
    have h0 := h
    simp only [cellsWf, Bool.and_eq_true, List.all_eq_true, decide_eq_true_eq] at h
    unfold setCell
    split
    · rename_i hlt
      split
      · exact h0
      · rename_i hb
        simp only [cellsWf, Bool.and_eq_true, List.all_eq_true, decide_eq_true_eq, List.mem_cons]
        refine ⟨⟨by simpa using hb, ?_⟩, h⟩
        rintro c (rfl | hc)
        · exact hlt
        · exact Nat.lt_trans hlt (h.1.2 c hc)
    · split
      · rename_i hge heq
        split
        · exact h.2
        · rename_i hb
          simp only [cellsWf, Bool.and_eq_true, List.all_eq_true, decide_eq_true_eq]
          exact ⟨⟨by simpa using hb, fun c hc => heq ▸ h.1.2 c hc⟩, h.2⟩
      · rename_i hge hne
        simp only [cellsWf, Bool.and_eq_true, List.all_eq_true, decide_eq_true_eq]
        exact ⟨⟨h.1.1, setCell_keys d a b t x (by omega) h.1.2⟩, ih h.2⟩

theorem cellsWf_setCells (d : Byte) (bs : List Byte) (a : Nat) (m : List Host.Cell) (h : cellsWf d m = true) :
    cellsWf d (setCells d a bs m) = true := by
  induction bs generalizing a m with
  | nil => exact h
  | cons b bs ih => exact ih (a + 1) _ (cellsWf_setCell d a b m h)

/-- Consecutive bytes read back, and every other address is kept. -/
theorem cellAt_setCells (d : Byte) (bs : List Byte) (a : Nat) (m : List Host.Cell) (h : cellsWf d m = true) (k : Nat) :
    cellAt d (setCells d a bs m) k = if a ≤ k then bs.getD (k - a) (cellAt d m k) else cellAt d m k := by
  induction bs generalizing a m with
  | nil => simp [setCells]
  | cons b bs ih =>
    rw [setCells, ih (a + 1) _ (cellsWf_setCell d a b m h), cellAt_setCell d a b m h]
    by_cases h1 : a = k
    · subst h1; simp
    · by_cases h2 : a + 1 ≤ k
      · have : a ≤ k := by omega
        obtain ⟨j, hj⟩ : ∃ j, k - a = j + 1 := ⟨k - a - 1, by omega⟩
        have hj' : k - (a + 1) = j := by omega
        simp [h2, this, hj, hj', Ne.symm h1]
      · have : ¬a ≤ k := by omega
        simp [h2, this, Ne.symm h1]

theorem cell?_keepCell (a : Nat) (b : Byte) (m : List Host.Cell) (k : Nat) :
    cell? (keepCell a b m) k = if k = a then some b else cell? m k := by
  induction m with
  | nil => simp [keepCell, cell?]
  | cons c t ih =>
    obtain ⟨x, y⟩ := c
    unfold keepCell
    split
    · simp [cell?]
    · split
      · rename_i h; subst h
        simp only [cell?, beq_iff_eq]
        split <;> rfl
      · rename_i h
        simp only [cell?, beq_iff_eq, ih]
        by_cases hk : k = x
        · simp [hk]; omega
        · simp [hk]

theorem cell?_keepCells (bs : List Byte) (a : Nat) (m : List Host.Cell) (k : Nat) (dflt : Byte) :
    (cell? (keepCells a bs m) k).getD dflt =
      if a ≤ k then bs.getD (k - a) ((cell? m k).getD dflt) else (cell? m k).getD dflt := by
  induction bs generalizing a m with
  | nil => simp [keepCells]
  | cons b bs ih =>
    rw [keepCells, ih (a + 1), cell?_keepCell]
    by_cases h1 : a = k
    · subst h1; simp
    · by_cases h2 : a + 1 ≤ k
      · have : a ≤ k := by omega
        obtain ⟨j, hj⟩ : ∃ j, k - a = j + 1 := ⟨k - a - 1, by omega⟩
        have hj' : k - (a + 1) = j := by omega
        simp [h2, this, hj, hj', Ne.symm h1]
      · have : ¬a ≤ k := by omega
        simp [h2, this, Ne.symm h1]

/-! ## Places -/

/-- A write whose home is the die that makes it crosses to none. -/
theorem State.crossed_own (s : State) (k : Nat) (p : Place) (h : p.home k = k) : s.crossed k p = s := by
  simp [State.crossed, State.crossBy, h]

/-- With no write in flight, a write that crosses to another die moves clocks and nothing else (R323). -/
theorem State.crossed_dies (s : State) (k : Nat) (p : Place) (h : s.flights = []) :
    ∃ ds, s.crossed k p = { s with dies := ds } := by
  have hl : s.flights.length = 0 := by rw [h]; rfl
  unfold State.crossed
  simp only [State.crossBy, hl, State.deliverNamed]
  split
  · exact ⟨s.dies, rfl⟩
  · exact ⟨_, rfl⟩

/-- With no write in flight, crossing does not depend on the strand. -/
theorem State.crossed_upd (s : State) (g : Strand → Strand) (k : Nat) (p : Place) (h : s.flights = []) :
    (s.upd g).crossed k p = (s.crossed k p).upd g := by
  have hl : s.flights.length = 0 := by rw [h]; rfl
  have hu : (s.upd g).flights.length = 0 := hl
  unfold State.crossed
  simp only [State.crossBy, hl, hu, State.deliverNamed]
  split <;> rfl

/-- A write to device memory of a context that logs nothing is its bytes. -/
theorem State.land_mem (s : State) (ctx : BitVec 12) (va : Word) (a : Nat) (bs : List Byte)
    (h : (s.context ctx).ulOn = false) : s.land ctx va (.mem a) bs = s.rawWrite true a bs := by
  simp [State.land, State.landBy, State.writeMem, State.logFor, h]

/-- No record is logged ahead of a write where undo logging is off. -/
theorem State.logAhead_noUndo {s : State} {p : Place} (h : s.noUndo p) (va : Word) (n : Nat) :
    s.logAhead s.st.ctx va p n = s := by
  cases p <;> first | rfl | (have h' : (s.context s.st.ctx).ulOn = false := h; simp [State.logAhead, State.logFor, h'])

theorem State.writePlace_mem (s : State) (va : Word) (a : Nat) (bs : List Byte) (hf : s.flights = [])
    (h : (s.context s.st.ctx).ulOn = false) :
    ∃ ds, s.writePlace va (.mem a) bs = { s.rawWrite true a bs with dies := ds } := by
  obtain ⟨ds, hd⟩ := s.crossed_dies (dieOf s.cur) (.mem a) hf
  refine ⟨ds, ?_⟩
  have h' : (({ s with dies := ds } : State).context s.st.ctx).ulOn = false := h
  simp only [State.writePlace, hd, State.storeAt]
  rw [State.land_mem _ _ _ _ _ h']
  rfl

theorem State.writePlace_host (s : State) (va : Word) (a : Nat) (bs : List Byte) (hf : s.flights = []) :
    ∃ ds, s.writePlace va (.host a) bs = { s.hostWrite a bs with dies := ds } := by
  obtain ⟨ds, hd⟩ := s.crossed_dies (dieOf s.cur) (.host a) hf
  exact ⟨ds, by simp only [State.writePlace, hd]; rfl⟩

/-- A write to device memory from any die: its bytes, and clocks. -/
theorem State.writeFrom_mem (s : State) (k : Nat) (ctx : BitVec 12) (va : Word) (a : Nat) (bs : List Byte)
    (hf : s.flights = []) (h : (s.context ctx).ulOn = false) :
    ∃ ds, s.writeFrom k ctx va (.mem a) bs = { s.rawWrite true a bs with dies := ds } := by
  obtain ⟨ds, hd⟩ := s.crossed_dies k (.mem a) hf
  refine ⟨ds, ?_⟩
  have h' : (({ s with dies := ds } : State).context ctx).ulOn = false := h
  rw [State.writeFrom, hd, State.land_mem _ _ _ _ _ h']
  rfl

/-- A write to a window of the strand crosses to no die. -/
theorem State.writePlace_own (s : State) (va : Word) (p : Place) (bs : List Byte) (h : p.home (dieOf s.cur) = dieOf s.cur) :
    s.writePlace va p bs = s.storeAt va p bs := by
  rw [State.writePlace, State.crossed_own _ _ _ h]

theorem tabGet_tabSet_self {α : Type} (d : α) (n : Nat) (v : α) (l : List (Nat × α)) : tabGet d (tabSet n v l) n = v := by
  induction l with
  | nil => simp [tabSet, tabGet]
  | cons c t ih =>
    obtain ⟨k, w⟩ := c
    unfold tabSet
    split
    · simp [tabGet]
    · rename_i h
      simp [tabGet, h, ih]

/-- A write at a place changes exactly the bytes there. -/
theorem State.writePlace_stores (s : State) (va : Word) (p : Place) (bs : List Byte) (hm : Memory.wf s.mem = true)
    (hf : s.flights = []) (hu : s.noUndo p) (hw : s.writable p) : s.storesBytes (s.writePlace va p bs) p bs := by
  intro q
  cases p with
  | mem a =>
    obtain ⟨ds, hd⟩ := s.writePlace_mem va a bs hf hu
    rw [hd]
    cases q <;> simp only [State.placeByte, Place.offsetFrom]
    case mem b =>
      simp only [State.rawWrite, memGet, cellAt_setCells 0 bs a s.mem hm b]
      by_cases hab : a ≤ b <;> simp [hab]
    all_goals rfl
  | host a =>
    obtain ⟨ds, hd⟩ := s.writePlace_host va a bs hf
    rw [hd]
    cases q <;> simp only [State.placeByte, Place.offsetFrom, State.hostWrite]
    case host b =>
      have h1 : ∀ m k, hostGet m k = (cell? m k).getD (Config.hostByte k) := by
        intro m k; unfold hostGet; cases cell? m k <;> rfl
      simp only [h1, cell?_keepCells]
      by_cases hab : a ≤ b <;> simp [hab]
    all_goals rfl
  | scratch a =>
    rw [State.writePlace_own _ _ _ _ rfl]
    cases q <;> simp only [State.placeByte, Place.offsetFrom, State.storeAt, State.upd]
    case scratch b =>
      rw [cell?_keepCells]
      by_cases hab : a ≤ b <;> simp [hab]
    all_goals rfl
  | batch a =>
    rw [State.writePlace_own _ _ _ _ rfl]
    cases q <;> simp only [State.placeByte, Place.offsetFrom, State.storeAt, State.upd]
    case batch b =>
      rw [cell?_keepCells]
      by_cases hab : a ≤ b <;> simp [hab]
    all_goals rfl
  | blob a => exact absurd hw id
  | cscratch a =>
    rw [State.writePlace_own _ _ _ _ rfl]
    obtain ⟨r, hr⟩ := Option.isSome_iff_exists.1 hw
    have key : (s.storeAt va (.cscratch a) bs).cRange =
        some { r with cells := keepCells a bs r.cells, bad := healLines a bs.length r.bad } := by
      have hp := List.find?_some hr
      simp only [Bool.and_eq_true, beq_iff_eq] at hp
      simp only [State.cRange, State.storeAt, State.setCluster, State.cluster, tabGet_tabSet_self]
      simp only [State.cRange, State.cluster] at hr
      simp only [List.find?_map, Function.comp_def]
      rw [show (fun x : CRange => (if (x.launch == s.st.iter.launch) = true then
            { x with cells := keepCells a bs x.cells, bad := healLines a bs.length x.bad } else x).launch ==
            s.st.iter.launch && s.st.iter.work == Work.launch) =
          fun x => x.launch == s.st.iter.launch && s.st.iter.work == Work.launch from by
        funext x; split <;> rfl]
      rw [hr]
      simp [hp.1]
    have hblob : (s.storeAt va (.cscratch a) bs).blobBytes = s.blobBytes := by
      simp only [State.blobBytes, State.storeAt, State.setCluster, State.cluster, tabGet_tabSet_self]
    cases q <;> simp only [State.placeByte, Place.offsetFrom, key, hr]
    case cscratch b =>
      rw [cell?_keepCells]
      by_cases hab : a ≤ b <;> simp [hab]
    all_goals first | rfl | rw [hblob]

/-- What a write at a place leaves of the strand: everything but the contents of its own windows. -/
theorem State.writePlace_st (s : State) (va : Word) (p : Place) (bs : List Byte) (hf : s.flights = [])
    (hu : s.noUndo p) :
    (s.writePlace va p bs).st = { s.st with
      scratch := (s.writePlace va p bs).st.scratch, scratchBad := (s.writePlace va p bs).st.scratchBad
      batch := (s.writePlace va p bs).st.batch, batchBad := (s.writePlace va p bs).st.batchBad } := by
  cases p with
  | mem a => obtain ⟨ds, hd⟩ := s.writePlace_mem va a bs hf hu; rw [hd]; rfl
  | host a => obtain ⟨ds, hd⟩ := s.writePlace_host va a bs hf; rw [hd]; rfl
  | _ => rw [State.writePlace_own _ _ _ _ rfl]; rfl

/-- A write at a place keeps the canonical form of memory. -/
theorem State.writePlace_wf (s : State) (va : Word) (p : Place) (bs : List Byte) (hf : s.flights = [])
    (hu : s.noUndo p) (hm : Memory.wf s.mem = true) : Memory.wf (s.writePlace va p bs).mem = true := by
  cases p with
  | mem a =>
    obtain ⟨ds, hd⟩ := s.writePlace_mem va a bs hf hu
    rw [hd]
    exact cellsWf_setCells 0 bs a s.mem hm
  | host a => obtain ⟨ds, hd⟩ := s.writePlace_host va a bs hf; rw [hd]; exact hm
  | _ => rw [State.writePlace_own _ _ _ _ rfl]; exact hm

/-- A raw write keeps the canonical form of memory. -/
theorem State.rawWrite_wf (s : State) (device : Bool) (a : Nat) (bs : List Byte) (hm : Memory.wf s.mem = true) :
    Memory.wf (s.rawWrite device a bs).mem = true := cellsWf_setCells 0 bs a s.mem hm

end Sys2Proof.Machine
end

