-- ==== Sys2Proof/Laws/PerInstr.lean ====
section
/-! SUPPORT. The family `RoundTrip`: every well-formed instruction word decodes to the instruction it encodes, one lemma
for each constructor. -/

namespace Sys2Proof.Laws.RoundTrip

set_option Elab.async false

/-- The word of a well-formed instruction decodes to it, with every operand at every value the encoding admits; a step
of the device has no word (R28 to R34). -/
def Statement (i : Instr) : Prop :=
  if i.isWord then i.wf = true → ∃ w, encode i = some w ∧ decodeWord w = some i else encode i = none

theorem add (o : XOps) : Statement (.add o) := fun hw => ⟨_, rfl, decodeWord_wordV _ _ _ _ _ _ _ _ _ _ _ rfl rfl hw⟩
theorem sub (o : XOps) : Statement (.sub o) := fun hw => ⟨_, rfl, decodeWord_wordV _ _ _ _ _ _ _ _ _ _ _ rfl rfl hw⟩
theorem and (o : XOps) : Statement (.and o) := fun hw => ⟨_, rfl, decodeWord_wordV _ _ _ _ _ _ _ _ _ _ _ rfl rfl hw⟩
theorem or (o : XOps) : Statement (.or o) := fun hw => ⟨_, rfl, decodeWord_wordV _ _ _ _ _ _ _ _ _ _ _ rfl rfl hw⟩
theorem xor (o : XOps) : Statement (.xor o) := fun hw => ⟨_, rfl, decodeWord_wordV _ _ _ _ _ _ _ _ _ _ _ rfl rfl hw⟩
theorem shl (o : XOps) : Statement (.shl o) := fun hw => ⟨_, rfl, decodeWord_wordV _ _ _ _ _ _ _ _ _ _ _ rfl rfl hw⟩
theorem shr (o : XOps) : Statement (.shr o) := fun hw => ⟨_, rfl, decodeWord_wordV _ _ _ _ _ _ _ _ _ _ _ rfl rfl hw⟩
theorem sar (o : XOps) : Statement (.sar o) := fun hw => ⟨_, rfl, decodeWord_wordV _ _ _ _ _ _ _ _ _ _ _ rfl rfl hw⟩
theorem mul (o : XOps) : Statement (.mul o) := fun hw => ⟨_, rfl, decodeWord_wordV _ _ _ _ _ _ _ _ _ _ _ rfl rfl hw⟩
theorem mulh (o : XOps) : Statement (.mulh o) := fun hw => ⟨_, rfl, decodeWord_wordV _ _ _ _ _ _ _ _ _ _ _ rfl rfl hw⟩
theorem mulhn (o : XOps) : Statement (.mulhn o) := fun hw => ⟨_, rfl, decodeWord_wordV _ _ _ _ _ _ _ _ _ _ _ rfl rfl hw⟩
theorem div (o : XOps) : Statement (.div o) := fun hw => ⟨_, rfl, decodeWord_wordV _ _ _ _ _ _ _ _ _ _ _ rfl rfl hw⟩
theorem divn (o : XOps) : Statement (.divn o) := fun hw => ⟨_, rfl, decodeWord_wordV _ _ _ _ _ _ _ _ _ _ _ rfl rfl hw⟩
theorem rem (o : XOps) : Statement (.rem o) := fun hw => ⟨_, rfl, decodeWord_wordV _ _ _ _ _ _ _ _ _ _ _ rfl rfl hw⟩
theorem remn (o : XOps) : Statement (.remn o) := fun hw => ⟨_, rfl, decodeWord_wordV _ _ _ _ _ _ _ _ _ _ _ rfl rfl hw⟩
theorem min (o : XOps) : Statement (.min o) := fun hw => ⟨_, rfl, decodeWord_wordV _ _ _ _ _ _ _ _ _ _ _ rfl rfl hw⟩
theorem max (o : XOps) : Statement (.max o) := fun hw => ⟨_, rfl, decodeWord_wordV _ _ _ _ _ _ _ _ _ _ _ rfl rfl hw⟩
theorem minn (o : XOps) : Statement (.minn o) := fun hw => ⟨_, rfl, decodeWord_wordV _ _ _ _ _ _ _ _ _ _ _ rfl rfl hw⟩
theorem maxn (o : XOps) : Statement (.maxn o) := fun hw => ⟨_, rfl, decodeWord_wordV _ _ _ _ _ _ _ _ _ _ _ rfl rfl hw⟩
theorem slt (o : XOps) : Statement (.slt o) := fun hw => ⟨_, rfl, decodeWord_wordV _ _ _ _ _ _ _ _ _ _ _ rfl rfl hw⟩
theorem sltn (o : XOps) : Statement (.sltn o) := fun hw => ⟨_, rfl, decodeWord_wordV _ _ _ _ _ _ _ _ _ _ _ rfl rfl hw⟩
theorem seq (o : XOps) : Statement (.seq o) := fun hw => ⟨_, rfl, decodeWord_wordV _ _ _ _ _ _ _ _ _ _ _ rfl rfl hw⟩
theorem sne (o : XOps) : Statement (.sne o) := fun hw => ⟨_, rfl, decodeWord_wordV _ _ _ _ _ _ _ _ _ _ _ rfl rfl hw⟩
theorem clz (o : XUn) : Statement (.clz o) := fun hw => ⟨_, rfl, decodeWord_wordV _ _ _ _ _ _ _ _ _ _ _ rfl rfl hw⟩
theorem ctz (o : XUn) : Statement (.ctz o) := fun hw => ⟨_, rfl, decodeWord_wordV _ _ _ _ _ _ _ _ _ _ _ rfl rfl hw⟩
theorem popc (o : XUn) : Statement (.popc o) := fun hw => ⟨_, rfl, decodeWord_wordV _ _ _ _ _ _ _ _ _ _ _ rfl rfl hw⟩
theorem brev (o : XUn) : Statement (.brev o) := fun hw => ⟨_, rfl, decodeWord_wordV _ _ _ _ _ _ _ _ _ _ _ rfl rfl hw⟩
theorem sext (o : TUn) : Statement (.sext o) := fun hw => ⟨_, rfl, decodeWord_wordV _ _ _ _ _ _ _ _ _ _ _ rfl rfl hw⟩
theorem zext (o : TUn) : Statement (.zext o) := fun hw => ⟨_, rfl, decodeWord_wordV _ _ _ _ _ _ _ _ _ _ _ rfl rfl hw⟩
theorem addi (o : ImmOps) : Statement (.addi o) := fun hw => ⟨_, rfl, decodeWord_wordI _ _ _ _ _ rfl rfl hw⟩
theorem andi (o : ImmOps) : Statement (.andi o) := fun hw => ⟨_, rfl, decodeWord_wordI _ _ _ _ _ rfl rfl hw⟩
theorem ori (o : ImmOps) : Statement (.ori o) := fun hw => ⟨_, rfl, decodeWord_wordI _ _ _ _ _ rfl rfl hw⟩
theorem xori (o : ImmOps) : Statement (.xori o) := fun hw => ⟨_, rfl, decodeWord_wordI _ _ _ _ _ rfl rfl hw⟩
theorem shli (o : ShOps) : Statement (.shli o) := fun hw => ⟨_, rfl, decodeWord_wordI _ _ _ _ _ rfl (by
  simp only [decodeI, decodeShi, imm_shift]; rfl) hw⟩
theorem shri (o : ShOps) : Statement (.shri o) := fun hw => ⟨_, rfl, decodeWord_wordI _ _ _ _ _ rfl (by
  simp only [decodeI, decodeShi, imm_shift]; rfl) hw⟩
theorem sari (o : ShOps) : Statement (.sari o) := fun hw => ⟨_, rfl, decodeWord_wordI _ _ _ _ _ rfl (by
  simp only [decodeI, decodeShi, imm_shift]; rfl) hw⟩
theorem rori (o : ShOps) : Statement (.rori o) := fun hw => ⟨_, rfl, decodeWord_wordI _ _ _ _ _ rfl (by
  simp only [decodeI, decodeShi, imm_shift]; rfl) hw⟩
theorem slti (o : ImmOps) : Statement (.slti o) := fun hw => ⟨_, rfl, decodeWord_wordI _ _ _ _ _ rfl rfl hw⟩
theorem lih (o : ConstOps) : Statement (.lih o) := fun hw => ⟨_, rfl, decodeWord_wordJ _ _ _ _ rfl rfl hw⟩
theorem pchi (o : ConstOps) : Statement (.pchi o) := fun hw => ⟨_, rfl, decodeWord_wordJ _ _ _ _ rfl rfl hw⟩
theorem beq (o : BrOps) : Statement (.beq o) := fun hw => ⟨_, rfl, decodeWord_wordB _ _ _ _ _ _ rfl rfl hw⟩
theorem bne (o : BrOps) : Statement (.bne o) := fun hw => ⟨_, rfl, decodeWord_wordB _ _ _ _ _ _ rfl rfl hw⟩
theorem blt (o : BrOps) : Statement (.blt o) := fun hw => ⟨_, rfl, decodeWord_wordB _ _ _ _ _ _ rfl rfl hw⟩
theorem bge (o : BrOps) : Statement (.bge o) := fun hw => ⟨_, rfl, decodeWord_wordB _ _ _ _ _ _ rfl rfl hw⟩
theorem bltn (o : BrOps) : Statement (.bltn o) := fun hw => ⟨_, rfl, decodeWord_wordB _ _ _ _ _ _ rfl rfl hw⟩
theorem bgen (o : BrOps) : Statement (.bgen o) := fun hw => ⟨_, rfl, decodeWord_wordB _ _ _ _ _ _ rfl rfl hw⟩
theorem brf (o : BrfOps) : Statement (.brf o) := fun hw => ⟨_, rfl, decodeWord_wordB _ _ _ _ _ _ rfl rfl hw⟩
theorem bre (o : BrfOps) : Statement (.bre o) := fun hw => ⟨_, rfl, decodeWord_wordB _ _ _ _ _ _ rfl rfl hw⟩
theorem jmp (o : ConstOps) : Statement (.jmp o) := fun hw => ⟨_, rfl, decodeWord_wordJ _ _ _ _ rfl rfl hw⟩
theorem jmpr (o : ImmOps) : Statement (.jmpr o) := fun hw => ⟨_, rfl, decodeWord_wordI _ _ _ _ _ rfl rfl hw⟩
theorem ldSigned (o : MemOps) : Statement (.ldSigned o) := fun hw => ⟨_, rfl, decodeWord_wordM _ _ _ _ _ _ _ _ rfl rfl hw⟩
theorem ldUnsigned (o : MemOps) : Statement (.ldUnsigned o) := fun hw => ⟨_, rfl, decodeWord_wordM _ _ _ _ _ _ _ _ rfl rfl hw⟩
theorem st (o : MemOps) : Statement (.st o) := fun hw => ⟨_, rfl, decodeWord_wordM _ _ _ _ _ _ _ _ rfl rfl hw⟩
theorem atadd (o : AtOps) : Statement (.atadd o) := fun hw => ⟨_, rfl, decodeWord_wordV _ _ _ _ _ _ _ _ _ _ _ rfl (by
  simp only [decodeV, decodeAtom, VWord.atOps?, pair_bits, trio_bits]; rfl) hw⟩
theorem atfadd (o : AtOps) : Statement (.atfadd o) := fun hw => ⟨_, rfl, decodeWord_wordV _ _ _ _ _ _ _ _ _ _ _ rfl (by
  simp only [decodeV, decodeAtom, VWord.atOps?, pair_bits, trio_bits]; rfl) hw⟩
theorem atand (o : AtOps) : Statement (.atand o) := fun hw => ⟨_, rfl, decodeWord_wordV _ _ _ _ _ _ _ _ _ _ _ rfl (by
  simp only [decodeV, decodeAtom, VWord.atOps?, pair_bits, trio_bits]; rfl) hw⟩
theorem ator (o : AtOps) : Statement (.ator o) := fun hw => ⟨_, rfl, decodeWord_wordV _ _ _ _ _ _ _ _ _ _ _ rfl (by
  simp only [decodeV, decodeAtom, VWord.atOps?, pair_bits, trio_bits]; rfl) hw⟩
theorem atxor (o : AtOps) : Statement (.atxor o) := fun hw => ⟨_, rfl, decodeWord_wordV _ _ _ _ _ _ _ _ _ _ _ rfl (by
  simp only [decodeV, decodeAtom, VWord.atOps?, pair_bits, trio_bits]; rfl) hw⟩
theorem atmin (o : AtOps) : Statement (.atmin o) := fun hw => ⟨_, rfl, decodeWord_wordV _ _ _ _ _ _ _ _ _ _ _ rfl (by
  simp only [decodeV, decodeAtom, VWord.atOps?, pair_bits, trio_bits]; rfl) hw⟩
theorem atmax (o : AtOps) : Statement (.atmax o) := fun hw => ⟨_, rfl, decodeWord_wordV _ _ _ _ _ _ _ _ _ _ _ rfl (by
  simp only [decodeV, decodeAtom, VWord.atOps?, pair_bits, trio_bits]; rfl) hw⟩
theorem atminn (o : AtOps) : Statement (.atminn o) := fun hw => ⟨_, rfl, decodeWord_wordV _ _ _ _ _ _ _ _ _ _ _ rfl (by
  simp only [decodeV, decodeAtom, VWord.atOps?, pair_bits, trio_bits]; rfl) hw⟩
theorem atmaxn (o : AtOps) : Statement (.atmaxn o) := fun hw => ⟨_, rfl, decodeWord_wordV _ _ _ _ _ _ _ _ _ _ _ rfl (by
  simp only [decodeV, decodeAtom, VWord.atOps?, pair_bits, trio_bits]; rfl) hw⟩
theorem atswap (o : AtOps) : Statement (.atswap o) := fun hw => ⟨_, rfl, decodeWord_wordV _ _ _ _ _ _ _ _ _ _ _ rfl (by
  simp only [decodeV, decodeAtom, VWord.atOps?, pair_bits, trio_bits]; rfl) hw⟩
theorem atcas (o : AtOps) : Statement (.atcas o) := fun hw => ⟨_, rfl, decodeWord_wordV _ _ _ _ _ _ _ _ _ _ _ rfl (by
  simp only [decodeV, decodeAtom, VWord.atOps?, pair_bits, trio_bits]; rfl) hw⟩
theorem fadd (o : FOps) : Statement (.fadd o) := fun hw => ⟨_, rfl, decodeWord_wordV _ _ _ _ _ _ _ _ _ _ _ rfl rfl hw⟩
theorem fsub (o : FOps) : Statement (.fsub o) := fun hw => ⟨_, rfl, decodeWord_wordV _ _ _ _ _ _ _ _ _ _ _ rfl rfl hw⟩
theorem fmul (o : FOps) : Statement (.fmul o) := fun hw => ⟨_, rfl, decodeWord_wordV _ _ _ _ _ _ _ _ _ _ _ rfl rfl hw⟩
theorem fdiv (o : FOps) : Statement (.fdiv o) := fun hw => ⟨_, rfl, decodeWord_wordV _ _ _ _ _ _ _ _ _ _ _ rfl rfl hw⟩
theorem fmin (o : FOps) : Statement (.fmin o) := fun hw => ⟨_, rfl, decodeWord_wordV _ _ _ _ _ _ _ _ _ _ _ rfl rfl hw⟩
theorem fmax (o : FOps) : Statement (.fmax o) := fun hw => ⟨_, rfl, decodeWord_wordV _ _ _ _ _ _ _ _ _ _ _ rfl rfl hw⟩
theorem feq (o : FOps) : Statement (.feq o) := fun hw => ⟨_, rfl, decodeWord_wordV _ _ _ _ _ _ _ _ _ _ _ rfl rfl hw⟩
theorem flt (o : FOps) : Statement (.flt o) := fun hw => ⟨_, rfl, decodeWord_wordV _ _ _ _ _ _ _ _ _ _ _ rfl rfl hw⟩
theorem fmac (o : FOps) : Statement (.fmac o) := fun hw => ⟨_, rfl, decodeWord_wordV _ _ _ _ _ _ _ _ _ _ _ rfl rfl hw⟩
theorem fnmac (o : FOps) : Statement (.fnmac o) := fun hw => ⟨_, rfl, decodeWord_wordV _ _ _ _ _ _ _ _ _ _ _ rfl rfl hw⟩
theorem fsqrt (o : TUn) : Statement (.fsqrt o) := fun hw => ⟨_, rfl, decodeWord_wordV _ _ _ _ _ _ _ _ _ _ _ rfl rfl hw⟩
theorem fle (o : FOps) : Statement (.fle o) := fun hw => ⟨_, rfl, decodeWord_wordV _ _ _ _ _ _ _ _ _ _ _ rfl rfl hw⟩
theorem fcvt (o : FCvtOps) : Statement (.fcvt o) := fun hw => ⟨_, rfl, decodeWord_wordV _ _ _ _ _ _ _ _ _ _ _ rfl (by
  simp only [decodeV, decodeFpB, VWord.fCvtOps?, subKind_second, subUns_second, subType_second]; rfl) hw⟩
theorem fcvtif (o : FCvtiOps) : Statement (.fcvtif o) := fun hw => ⟨_, rfl, decodeWord_wordV _ _ _ _ _ _ _ _ _ _ _ rfl (by
  simp only [decodeV, decodeFpB, VWord.fCvtiOps?, subKind_second, subUns_second, subType_second]; rfl) hw⟩
theorem fcvtfi (o : FCvtiOps) : Statement (.fcvtfi o) := fun hw => ⟨_, rfl, decodeWord_wordV _ _ _ _ _ _ _ _ _ _ _ rfl (by
  simp only [decodeV, decodeFpB, VWord.fCvtiOps?, subKind_second, subUns_second, subType_second]; rfl) hw⟩
theorem fclass (o : TUn) : Statement (.fclass o) := fun hw => ⟨_, rfl, decodeWord_wordV _ _ _ _ _ _ _ _ _ _ _ rfl rfl hw⟩
theorem crr (o : CrrOps) : Statement (.crr o) := fun hw => ⟨_, rfl, decodeWord_wordI _ _ _ _ _ rfl (by
  simp only [decodeI, decodeCr, imm_crr]; rfl) hw⟩
theorem crw (o : CrOps) : Statement (.crw o) := fun hw => ⟨_, rfl, decodeWord_wordI _ _ _ _ _ rfl (by
  simp only [decodeI, decodeCr, imm_cr]; rfl) hw⟩
theorem crs (o : CrOps) : Statement (.crs o) := fun hw => ⟨_, rfl, decodeWord_wordI _ _ _ _ _ rfl (by
  simp only [decodeI, decodeCr, imm_cr]; rfl) hw⟩
theorem crc (o : CrOps) : Statement (.crc o) := fun hw => ⟨_, rfl, decodeWord_wordI _ _ _ _ _ rfl (by
  simp only [decodeI, decodeCr, imm_cr]; rfl) hw⟩
theorem setvl (o : SetvlOps) : Statement (.setvl o) := fun hw => ⟨_, rfl, decodeWord_wordI _ _ _ _ _ rfl (by
  simp only [decodeI, decodeSetvl, imm_setvl]; rfl) hw⟩
theorem setvlf (o : FOps) : Statement (.setvlf o) := fun hw => ⟨_, rfl, decodeWord_wordV _ _ _ _ _ _ _ _ _ _ _ rfl rfl hw⟩
theorem evpop (d : Reg) : Statement (.evpop d) := fun hw => ⟨_, rfl, decodeWord_wordV _ _ _ _ _ _ _ _ _ _ _ rfl rfl hw⟩
theorem evn (d : Reg) : Statement (.evn d) := fun hw => ⟨_, rfl, decodeWord_wordV _ _ _ _ _ _ _ _ _ _ _ rfl rfl hw⟩
theorem drain (mask : Reg) : Statement (.drain mask) := fun hw => ⟨_, rfl, decodeWord_wordV _ _ _ _ _ _ _ _ _ _ _ rfl rfl hw⟩
theorem fenceAcq (scope : BitVec 3) : Statement (.fenceAcq scope) := fun hw => ⟨_, rfl, decodeWord_wordI _ _ _ _ _ rfl (by
  simp only [decodeI, decodeFence, imm_fence]; rfl) hw⟩
theorem fenceRel (scope : BitVec 3) : Statement (.fenceRel scope) := fun hw => ⟨_, rfl, decodeWord_wordI _ _ _ _ _ rfl (by
  simp only [decodeI, decodeFence, imm_fence]; rfl) hw⟩
theorem fenceFull (scope : BitVec 3) : Statement (.fenceFull scope) := fun hw => ⟨_, rfl, decodeWord_wordI _ _ _ _ _ rfl (by
  simp only [decodeI, decodeFence, imm_fence]; rfl) hw⟩
theorem fencex (o : FencexOps) : Statement (.fencex o) := fun hw => ⟨_, rfl, decodeWord_wordI _ _ _ _ _ rfl (by
  simp only [decodeI, decodeFence, imm_fencex]; rfl) hw⟩
theorem ctxsv (a : Reg) : Statement (.ctxsv a) := fun hw => ⟨_, rfl, decodeWord_wordI _ _ _ _ _ rfl (by simp [decodeI, decodeSys]) hw⟩
theorem ctxld (a : Reg) : Statement (.ctxld a) := fun hw => ⟨_, rfl, decodeWord_wordI _ _ _ _ _ rfl (by simp [decodeI, decodeSys]) hw⟩
theorem chkpt (d : Reg) : Statement (.chkpt d) := fun hw => ⟨_, rfl, decodeWord_wordI _ _ _ _ _ rfl (by simp [decodeI, decodeSys]) hw⟩
theorem tlbinv (o : DA) : Statement (.tlbinv o) := fun hw => ⟨_, rfl, decodeWord_wordI _ _ _ _ _ rfl (by simp [decodeI, decodeSys]) hw⟩
theorem rdst (o : DA) : Statement (.rdst o) := fun hw => ⟨_, rfl, decodeWord_wordI _ _ _ _ _ rfl (by simp [decodeI, decodeSys]) hw⟩
theorem vadd (o : VOps) : Statement (.vadd o) := fun hw => ⟨_, rfl, decodeWord_wordV _ _ _ _ _ _ _ _ _ _ _ rfl rfl hw⟩
theorem vsub (o : VOps) : Statement (.vsub o) := fun hw => ⟨_, rfl, decodeWord_wordV _ _ _ _ _ _ _ _ _ _ _ rfl rfl hw⟩
theorem vand (o : VOps) : Statement (.vand o) := fun hw => ⟨_, rfl, decodeWord_wordV _ _ _ _ _ _ _ _ _ _ _ rfl rfl hw⟩
theorem vor (o : VOps) : Statement (.vor o) := fun hw => ⟨_, rfl, decodeWord_wordV _ _ _ _ _ _ _ _ _ _ _ rfl rfl hw⟩
theorem vxor (o : VOps) : Statement (.vxor o) := fun hw => ⟨_, rfl, decodeWord_wordV _ _ _ _ _ _ _ _ _ _ _ rfl rfl hw⟩
theorem vshl (o : VOps) : Statement (.vshl o) := fun hw => ⟨_, rfl, decodeWord_wordV _ _ _ _ _ _ _ _ _ _ _ rfl rfl hw⟩
theorem vshr (o : VOps) : Statement (.vshr o) := fun hw => ⟨_, rfl, decodeWord_wordV _ _ _ _ _ _ _ _ _ _ _ rfl rfl hw⟩
theorem vsar (o : VOps) : Statement (.vsar o) := fun hw => ⟨_, rfl, decodeWord_wordV _ _ _ _ _ _ _ _ _ _ _ rfl rfl hw⟩
theorem vmul (o : VOps) : Statement (.vmul o) := fun hw => ⟨_, rfl, decodeWord_wordV _ _ _ _ _ _ _ _ _ _ _ rfl rfl hw⟩
theorem vmulh (o : VOps) : Statement (.vmulh o) := fun hw => ⟨_, rfl, decodeWord_wordV _ _ _ _ _ _ _ _ _ _ _ rfl rfl hw⟩
theorem vmulhn (o : VOps) : Statement (.vmulhn o) := fun hw => ⟨_, rfl, decodeWord_wordV _ _ _ _ _ _ _ _ _ _ _ rfl rfl hw⟩
theorem vmin (o : VOps) : Statement (.vmin o) := fun hw => ⟨_, rfl, decodeWord_wordV _ _ _ _ _ _ _ _ _ _ _ rfl rfl hw⟩
theorem vmax (o : VOps) : Statement (.vmax o) := fun hw => ⟨_, rfl, decodeWord_wordV _ _ _ _ _ _ _ _ _ _ _ rfl rfl hw⟩
theorem vminn (o : VOps) : Statement (.vminn o) := fun hw => ⟨_, rfl, decodeWord_wordV _ _ _ _ _ _ _ _ _ _ _ rfl rfl hw⟩
theorem vmaxn (o : VOps) : Statement (.vmaxn o) := fun hw => ⟨_, rfl, decodeWord_wordV _ _ _ _ _ _ _ _ _ _ _ rfl rfl hw⟩
theorem vmac (o : VOps) : Statement (.vmac o) := fun hw => ⟨_, rfl, decodeWord_wordV _ _ _ _ _ _ _ _ _ _ _ rfl rfl hw⟩
theorem vseq (o : VCmpOps) : Statement (.vseq o) := fun hw => ⟨_, rfl, decodeWord_wordV _ _ _ _ _ _ _ _ _ _ _ rfl rfl hw⟩
theorem vsne (o : VCmpOps) : Statement (.vsne o) := fun hw => ⟨_, rfl, decodeWord_wordV _ _ _ _ _ _ _ _ _ _ _ rfl rfl hw⟩
theorem vslt (o : VCmpOps) : Statement (.vslt o) := fun hw => ⟨_, rfl, decodeWord_wordV _ _ _ _ _ _ _ _ _ _ _ rfl rfl hw⟩
theorem vsltn (o : VCmpOps) : Statement (.vsltn o) := fun hw => ⟨_, rfl, decodeWord_wordV _ _ _ _ _ _ _ _ _ _ _ rfl rfl hw⟩
theorem vsle (o : VCmpOps) : Statement (.vsle o) := fun hw => ⟨_, rfl, decodeWord_wordV _ _ _ _ _ _ _ _ _ _ _ rfl rfl hw⟩
theorem vslen (o : VCmpOps) : Statement (.vslen o) := fun hw => ⟨_, rfl, decodeWord_wordV _ _ _ _ _ _ _ _ _ _ _ rfl rfl hw⟩
theorem vsel (o : VSelOps) : Statement (.vsel o) := fun hw => ⟨_, rfl, decodeWord_wordV _ _ _ _ _ _ _ _ _ _ _ rfl rfl hw⟩
theorem vmv (o : VUn) : Statement (.vmv o) := fun hw => ⟨_, rfl, decodeWord_wordV _ _ _ _ _ _ _ _ _ _ _ rfl rfl hw⟩
theorem vfadd (o : VOps) : Statement (.vfadd o) := fun hw => ⟨_, rfl, decodeWord_wordV _ _ _ _ _ _ _ _ _ _ _ rfl rfl hw⟩
theorem vfsub (o : VOps) : Statement (.vfsub o) := fun hw => ⟨_, rfl, decodeWord_wordV _ _ _ _ _ _ _ _ _ _ _ rfl rfl hw⟩
theorem vfmul (o : VOps) : Statement (.vfmul o) := fun hw => ⟨_, rfl, decodeWord_wordV _ _ _ _ _ _ _ _ _ _ _ rfl rfl hw⟩
theorem vfdiv (o : VOps) : Statement (.vfdiv o) := fun hw => ⟨_, rfl, decodeWord_wordV _ _ _ _ _ _ _ _ _ _ _ rfl rfl hw⟩
theorem vfmin (o : VOps) : Statement (.vfmin o) := fun hw => ⟨_, rfl, decodeWord_wordV _ _ _ _ _ _ _ _ _ _ _ rfl rfl hw⟩
theorem vfmax (o : VOps) : Statement (.vfmax o) := fun hw => ⟨_, rfl, decodeWord_wordV _ _ _ _ _ _ _ _ _ _ _ rfl rfl hw⟩
theorem vfmac (o : VOps) : Statement (.vfmac o) := fun hw => ⟨_, rfl, decodeWord_wordV _ _ _ _ _ _ _ _ _ _ _ rfl rfl hw⟩
theorem vfnmac (o : VOps) : Statement (.vfnmac o) := fun hw => ⟨_, rfl, decodeWord_wordV _ _ _ _ _ _ _ _ _ _ _ rfl rfl hw⟩
theorem vfsqrt (o : VUn) : Statement (.vfsqrt o) := fun hw => ⟨_, rfl, decodeWord_wordV _ _ _ _ _ _ _ _ _ _ _ rfl rfl hw⟩
theorem vfabs (o : VUn) : Statement (.vfabs o) := fun hw => ⟨_, rfl, decodeWord_wordV _ _ _ _ _ _ _ _ _ _ _ rfl rfl hw⟩
theorem vfneg (o : VUn) : Statement (.vfneg o) := fun hw => ⟨_, rfl, decodeWord_wordV _ _ _ _ _ _ _ _ _ _ _ rfl rfl hw⟩
theorem vfclass (o : VUn) : Statement (.vfclass o) := fun hw => ⟨_, rfl, decodeWord_wordV _ _ _ _ _ _ _ _ _ _ _ rfl rfl hw⟩
theorem vfrint (o : VUn) : Statement (.vfrint o) := fun hw => ⟨_, rfl, decodeWord_wordV _ _ _ _ _ _ _ _ _ _ _ rfl rfl hw⟩
theorem vfeq (o : VCmpOps) : Statement (.vfeq o) := fun hw => ⟨_, rfl, decodeWord_wordV _ _ _ _ _ _ _ _ _ _ _ rfl rfl hw⟩
theorem vfne (o : VCmpOps) : Statement (.vfne o) := fun hw => ⟨_, rfl, decodeWord_wordV _ _ _ _ _ _ _ _ _ _ _ rfl rfl hw⟩
theorem vflt (o : VCmpOps) : Statement (.vflt o) := fun hw => ⟨_, rfl, decodeWord_wordV _ _ _ _ _ _ _ _ _ _ _ rfl rfl hw⟩
theorem vfle (o : VCmpOps) : Statement (.vfle o) := fun hw => ⟨_, rfl, decodeWord_wordV _ _ _ _ _ _ _ _ _ _ _ rfl rfl hw⟩
theorem vfunord (o : VCmpOps) : Statement (.vfunord o) := fun hw => ⟨_, rfl, decodeWord_wordV _ _ _ _ _ _ _ _ _ _ _ rfl rfl hw⟩
theorem vcvt (o : VCvtOps) : Statement (.vcvt o) := fun hw => ⟨_, rfl, decodeWord_wordV _ _ _ _ _ _ _ _ _ _ _ rfl (by
  simp only [decodeV, decodeVcvt, VWord.vCvtOps?, subKind_second, subUns_second, subType_second]; rfl) hw⟩
theorem vcvtif (o : VCvtiOps) : Statement (.vcvtif o) := fun hw => ⟨_, rfl, decodeWord_wordV _ _ _ _ _ _ _ _ _ _ _ rfl (by
  simp only [decodeV, decodeVcvt, VWord.vCvtiOps?, subKind_second, subUns_second, subType_second]; rfl) hw⟩
theorem vcvtfi (o : VCvtiOps) : Statement (.vcvtfi o) := fun hw => ⟨_, rfl, decodeWord_wordV _ _ _ _ _ _ _ _ _ _ _ rfl (by
  simp only [decodeV, decodeVcvt, VWord.vCvtiOps?, subKind_second, subUns_second, subType_second]; rfl) hw⟩
theorem vnef (o : VNefOps) : Statement (.vnef o) := fun hw => ⟨_, rfl, decodeWord_wordV _ _ _ _ _ _ _ _ _ _ _ rfl rfl hw⟩
theorem vqnt (o : VQOps) : Statement (.vqnt o) := fun hw => ⟨_, rfl, decodeWord_wordV _ _ _ _ _ _ _ _ _ _ _ rfl rfl hw⟩
theorem vwid (o : VQOps) : Statement (.vwid o) := fun hw => ⟨_, rfl, decodeWord_wordV _ _ _ _ _ _ _ _ _ _ _ rfl rfl hw⟩
theorem vrsum (o : VRedOps) : Statement (.vrsum o) := fun hw => ⟨_, rfl, decodeWord_wordV _ _ _ _ _ _ _ _ _ _ _ rfl (by
  simp only [decodeV, decodeVred, VWord.vRedOps?, subKind_second, subUns_second, second_bits]; rfl) hw⟩
theorem vrmax (o : VRedOps) : Statement (.vrmax o) := fun hw => ⟨_, rfl, decodeWord_wordV _ _ _ _ _ _ _ _ _ _ _ rfl (by
  simp only [decodeV, decodeVred, VWord.vRedOps?, subKind_second, subUns_second, second_bits]; rfl) hw⟩
theorem vrmin (o : VRedOps) : Statement (.vrmin o) := fun hw => ⟨_, rfl, decodeWord_wordV _ _ _ _ _ _ _ _ _ _ _ rfl (by
  simp only [decodeV, decodeVred, VWord.vRedOps?, subKind_second, subUns_second, second_bits]; rfl) hw⟩
theorem vrmaxn (o : VRedOps) : Statement (.vrmaxn o) := fun hw => ⟨_, rfl, decodeWord_wordV _ _ _ _ _ _ _ _ _ _ _ rfl (by
  simp only [decodeV, decodeVred, VWord.vRedOps?, subKind_second, subUns_second, second_bits]; rfl) hw⟩
theorem vrminn (o : VRedOps) : Statement (.vrminn o) := fun hw => ⟨_, rfl, decodeWord_wordV _ _ _ _ _ _ _ _ _ _ _ rfl (by
  simp only [decodeV, decodeVred, VWord.vRedOps?, subKind_second, subUns_second, second_bits]; rfl) hw⟩
theorem vrfsum (o : VRedOps) : Statement (.vrfsum o) := fun hw => ⟨_, rfl, decodeWord_wordV _ _ _ _ _ _ _ _ _ _ _ rfl (by
  simp only [decodeV, decodeVred, VWord.vRedOps?, subKind_second, subUns_second, second_bits]; rfl) hw⟩
theorem vrfmax (o : VRedOps) : Statement (.vrfmax o) := fun hw => ⟨_, rfl, decodeWord_wordV _ _ _ _ _ _ _ _ _ _ _ rfl (by
  simp only [decodeV, decodeVred, VWord.vRedOps?, subKind_second, subUns_second, second_bits]; rfl) hw⟩
theorem vrfmin (o : VRedOps) : Statement (.vrfmin o) := fun hw => ⟨_, rfl, decodeWord_wordV _ _ _ _ _ _ _ _ _ _ _ rfl (by
  simp only [decodeV, decodeVred, VWord.vRedOps?, subKind_second, subUns_second, second_bits]; rfl) hw⟩
theorem vcompress (o : TUn) : Statement (.vcompress o) := fun hw => ⟨_, rfl, decodeWord_wordV _ _ _ _ _ _ _ _ _ _ _ rfl rfl hw⟩
theorem vexpand (o : TUn) : Statement (.vexpand o) := fun hw => ⟨_, rfl, decodeWord_wordV _ _ _ _ _ _ _ _ _ _ _ rfl rfl hw⟩
theorem vslideup (o : VSlideOps) : Statement (.vslideup o) := fun hw => ⟨_, rfl, decodeWord_wordV _ _ _ _ _ _ _ _ _ _ _ rfl rfl hw⟩
theorem vslidedn (o : VSlideOps) : Statement (.vslidedn o) := fun hw => ⟨_, rfl, decodeWord_wordV _ _ _ _ _ _ _ _ _ _ _ rfl rfl hw⟩
theorem vperm (o : VOps) : Statement (.vperm o) := fun hw => ⟨_, rfl, decodeWord_wordV _ _ _ _ _ _ _ _ _ _ _ rfl rfl hw⟩
theorem vmpopc (d : Reg) : Statement (.vmpopc d) := fun hw => ⟨_, rfl, decodeWord_wordV _ _ _ _ _ _ _ _ _ _ _ rfl rfl hw⟩
theorem vmfirst (d : Reg) : Statement (.vmfirst d) := fun hw => ⟨_, rfl, decodeWord_wordV _ _ _ _ _ _ _ _ _ _ _ rfl rfl hw⟩
theorem vmld (o : AOps) : Statement (.vmld o) := fun hw => ⟨_, rfl, decodeWord_wordV _ _ _ _ _ _ _ _ _ _ _ rfl rfl hw⟩
theorem vmst (d : Reg) : Statement (.vmst d) := fun hw => ⟨_, rfl, decodeWord_wordV _ _ _ _ _ _ _ _ _ _ _ rfl rfl hw⟩
theorem vmand (o : AOps) : Statement (.vmand o) := fun hw => ⟨_, rfl, decodeWord_wordV _ _ _ _ _ _ _ _ _ _ _ rfl rfl hw⟩
theorem vmor (o : AOps) : Statement (.vmor o) := fun hw => ⟨_, rfl, decodeWord_wordV _ _ _ _ _ _ _ _ _ _ _ rfl rfl hw⟩
theorem vmxor (o : AOps) : Statement (.vmxor o) := fun hw => ⟨_, rfl, decodeWord_wordV _ _ _ _ _ _ _ _ _ _ _ rfl rfl hw⟩
theorem vmsgb (o : VmsgbOps) : Statement (.vmsgb o) := fun hw => ⟨_, rfl, decodeWord_wordV _ _ _ _ _ _ _ _ _ _ _ rfl (by
  simp only [decodeV, decodeVmask, VWord.vmsgbOps?, subKind_second, subUns_second, subType_second]; rfl) hw⟩
theorem vld (o : VMemOps) : Statement (.vld o) := fun hw => ⟨_, rfl, decodeWord_wordM _ _ _ _ _ _ _ _ rfl rfl hw⟩
theorem vlds (o : VMemOps) : Statement (.vlds o) := fun hw => ⟨_, rfl, decodeWord_wordM _ _ _ _ _ _ _ _ rfl rfl hw⟩
theorem vldb (o : VBlkOps) : Statement (.vldb o) := fun hw => ⟨_, rfl, decodeWord_wordM _ _ _ _ _ _ _ _ rfl rfl hw⟩
theorem vldz (o : VldzOps) : Statement (.vldz o) := fun hw => ⟨_, rfl, decodeWord_wordM _ _ _ _ _ _ _ _ rfl (by
  simp only [decodeM, decodeVld, disp_limit]; rfl) hw⟩
theorem vlr (o : DA) : Statement (.vlr o) := fun hw => ⟨_, rfl, decodeWord_wordM _ _ _ _ _ _ _ _ rfl rfl hw⟩
theorem vst (o : VMemOps) : Statement (.vst o) := fun hw => ⟨_, rfl, decodeWord_wordM _ _ _ _ _ _ _ _ rfl rfl hw⟩
theorem vsts (o : VMemOps) : Statement (.vsts o) := fun hw => ⟨_, rfl, decodeWord_wordM _ _ _ _ _ _ _ _ rfl rfl hw⟩
theorem vstb (o : VBlkOps) : Statement (.vstb o) := fun hw => ⟨_, rfl, decodeWord_wordM _ _ _ _ _ _ _ _ rfl rfl hw⟩
theorem vsr (o : DA) : Statement (.vsr o) := fun hw => ⟨_, rfl, decodeWord_wordM _ _ _ _ _ _ _ _ rfl rfl hw⟩
theorem vldx (o : VOps) : Statement (.vldx o) := fun hw => ⟨_, rfl, decodeWord_wordV _ _ _ _ _ _ _ _ _ _ _ rfl rfl hw⟩
theorem vstx (o : VOps) : Statement (.vstx o) := fun hw => ⟨_, rfl, decodeWord_wordV _ _ _ _ _ _ _ _ _ _ _ rfl rfl hw⟩
theorem vatadd (o : VAtOps) : Statement (.vatadd o) := fun hw => ⟨_, rfl, decodeWord_wordV _ _ _ _ _ _ _ _ _ _ _ rfl (by
  simp only [decodeV, decodeVatom, VWord.vAtOps?, pair_bits, trio_bits]; rfl) hw⟩
theorem vatfadd (o : VAtOps) : Statement (.vatfadd o) := fun hw => ⟨_, rfl, decodeWord_wordV _ _ _ _ _ _ _ _ _ _ _ rfl (by
  simp only [decodeV, decodeVatom, VWord.vAtOps?, pair_bits, trio_bits]; rfl) hw⟩
theorem vatand (o : VAtOps) : Statement (.vatand o) := fun hw => ⟨_, rfl, decodeWord_wordV _ _ _ _ _ _ _ _ _ _ _ rfl (by
  simp only [decodeV, decodeVatom, VWord.vAtOps?, pair_bits, trio_bits]; rfl) hw⟩
theorem vator (o : VAtOps) : Statement (.vator o) := fun hw => ⟨_, rfl, decodeWord_wordV _ _ _ _ _ _ _ _ _ _ _ rfl (by
  simp only [decodeV, decodeVatom, VWord.vAtOps?, pair_bits, trio_bits]; rfl) hw⟩
theorem vatxor (o : VAtOps) : Statement (.vatxor o) := fun hw => ⟨_, rfl, decodeWord_wordV _ _ _ _ _ _ _ _ _ _ _ rfl (by
  simp only [decodeV, decodeVatom, VWord.vAtOps?, pair_bits, trio_bits]; rfl) hw⟩
theorem vatmin (o : VAtOps) : Statement (.vatmin o) := fun hw => ⟨_, rfl, decodeWord_wordV _ _ _ _ _ _ _ _ _ _ _ rfl (by
  simp only [decodeV, decodeVatom, VWord.vAtOps?, pair_bits, trio_bits]; rfl) hw⟩
theorem vatmax (o : VAtOps) : Statement (.vatmax o) := fun hw => ⟨_, rfl, decodeWord_wordV _ _ _ _ _ _ _ _ _ _ _ rfl (by
  simp only [decodeV, decodeVatom, VWord.vAtOps?, pair_bits, trio_bits]; rfl) hw⟩
theorem vatswap (o : VAtOps) : Statement (.vatswap o) := fun hw => ⟨_, rfl, decodeWord_wordV _ _ _ _ _ _ _ _ _ _ _ rfl (by
  simp only [decodeV, decodeVatom, VWord.vAtOps?, pair_bits, trio_bits]; rfl) hw⟩
theorem sbind (o : XUn) : Statement (.sbind o) := fun hw => ⟨_, rfl, decodeWord_wordV _ _ _ _ _ _ _ _ _ _ _ rfl rfl hw⟩
theorem sunbind (n : Reg) : Statement (.sunbind n) := fun hw => ⟨_, rfl, decodeWord_wordV _ _ _ _ _ _ _ _ _ _ _ rfl rfl hw⟩
theorem sdrain (n : Reg) : Statement (.sdrain n) := fun hw => ⟨_, rfl, decodeWord_wordV _ _ _ _ _ _ _ _ _ _ _ rfl rfl hw⟩
theorem sstat (o : DA) : Statement (.sstat o) := fun hw => ⟨_, rfl, decodeWord_wordV _ _ _ _ _ _ _ _ _ _ _ rfl rfl hw⟩
theorem vxf (o : VUn) : Statement (.vxf o) := fun hw => ⟨_, rfl, decodeWord_wordV _ _ _ _ _ _ _ _ _ _ _ rfl rfl hw⟩
theorem cbload (o : XUn) : Statement (.cbload o) := fun hw => ⟨_, rfl, decodeWord_wordV _ _ _ _ _ _ _ _ _ _ _ rfl rfl hw⟩
theorem mgp (o : VOps) : Statement (.mgp o) := fun hw => ⟨_, rfl, decodeWord_wordV _ _ _ _ _ _ _ _ _ _ _ rfl rfl hw⟩
theorem mwedge (o : VOps) : Statement (.mwedge o) := fun hw => ⟨_, rfl, decodeWord_wordV _ _ _ _ _ _ _ _ _ _ _ rfl rfl hw⟩
theorem mjoin (o : VOps) : Statement (.mjoin o) := fun hw => ⟨_, rfl, decodeWord_wordV _ _ _ _ _ _ _ _ _ _ _ rfl rfl hw⟩
theorem mdot (o : VOps) : Statement (.mdot o) := fun hw => ⟨_, rfl, decodeWord_wordV _ _ _ _ _ _ _ _ _ _ _ rfl rfl hw⟩
theorem msand (o : VOps) : Statement (.msand o) := fun hw => ⟨_, rfl, decodeWord_wordV _ _ _ _ _ _ _ _ _ _ _ rfl rfl hw⟩
theorem msandChk (o : VOps) : Statement (.msandChk o) := fun hw => ⟨_, rfl, decodeWord_wordV _ _ _ _ _ _ _ _ _ _ _ rfl rfl hw⟩
theorem madd (o : VOps) : Statement (.madd o) := fun hw => ⟨_, rfl, decodeWord_wordV _ _ _ _ _ _ _ _ _ _ _ rfl rfl hw⟩
theorem msub (o : VOps) : Statement (.msub o) := fun hw => ⟨_, rfl, decodeWord_wordV _ _ _ _ _ _ _ _ _ _ _ rfl rfl hw⟩
theorem mrev (o : VUn) : Statement (.mrev o) := fun hw => ⟨_, rfl, decodeWord_wordV _ _ _ _ _ _ _ _ _ _ _ rfl rfl hw⟩
theorem mdual (o : VUn) : Statement (.mdual o) := fun hw => ⟨_, rfl, decodeWord_wordV _ _ _ _ _ _ _ _ _ _ _ rfl rfl hw⟩
theorem mnorm (o : VUn) : Statement (.mnorm o) := fun hw => ⟨_, rfl, decodeWord_wordV _ _ _ _ _ _ _ _ _ _ _ rfl rfl hw⟩
theorem munit (o : VUn) : Statement (.munit o) := fun hw => ⟨_, rfl, decodeWord_wordV _ _ _ _ _ _ _ _ _ _ _ rfl rfl hw⟩
theorem mexp (o : VUn) : Statement (.mexp o) := fun hw => ⟨_, rfl, decodeWord_wordV _ _ _ _ _ _ _ _ _ _ _ rfl rfl hw⟩
theorem mlog (o : VUn) : Statement (.mlog o) := fun hw => ⟨_, rfl, decodeWord_wordV _ _ _ _ _ _ _ _ _ _ _ rfl rfl hw⟩
theorem mproj (o : MProjOps) : Statement (.mproj o) := fun hw => ⟨_, rfl, decodeWord_wordV _ _ _ _ _ _ _ _ _ _ _ rfl rfl hw⟩
theorem mscale (o : VOps) : Statement (.mscale o) := fun hw => ⟨_, rfl, decodeWord_wordV _ _ _ _ _ _ _ _ _ _ _ rfl rfl hw⟩
theorem mld (o : VMemOps) : Statement (.mld o) := fun hw => ⟨_, rfl, decodeWord_wordM _ _ _ _ _ _ _ _ rfl rfl hw⟩
theorem mst (o : VMemOps) : Statement (.mst o) := fun hw => ⟨_, rfl, decodeWord_wordM _ _ _ _ _ _ _ _ rfl rfl hw⟩
theorem msetg (o : MSetgOps) : Statement (.msetg o) := fun hw => ⟨_, rfl, decodeWord_wordV _ _ _ _ _ _ _ _ _ _ _ rfl rfl hw⟩
theorem mgettag (o : DA) : Statement (.mgettag o) := fun hw => ⟨_, rfl, decodeWord_wordV _ _ _ _ _ _ _ _ _ _ _ rfl rfl hw⟩
theorem mcvt (o : VUn) : Statement (.mcvt o) := fun hw => ⟨_, rfl, decodeWord_wordV _ _ _ _ _ _ _ _ _ _ _ rfl rfl hw⟩
theorem ton (n : BitVec 2) : Statement (.ton n) := fun hw => ⟨_, rfl, decodeWord_wordV _ _ _ _ _ _ _ _ _ _ _ rfl (by
  simp [decodeV, decodeTile, VWord.onlyB?, VWord.plain, subKind_second, subUns_second, subType_second]) hw⟩
theorem tzero (d : Reg) : Statement (.tzero d) := fun hw => ⟨_, rfl, decodeWord_wordV _ _ _ _ _ _ _ _ _ _ _ rfl rfl hw⟩
theorem topa (o : TopaOps) : Statement (.topa o) := fun hw => ⟨_, rfl, decodeWord_wordV _ _ _ _ _ _ _ _ _ _ _ rfl (by
  simp only [decodeV, decodeTile, VWord.topaOps?, rep_count]; rfl) hw⟩
theorem tspa (o : TspaOps) : Statement (.tspa o) := fun hw => ⟨_, rfl, decodeWord_wordV _ _ _ _ _ _ _ _ _ _ _ rfl (by
  simp only [decodeV, decodeTile, VWord.tspaOps?, subKind_second, subUns_second, subType_second]; rfl) hw⟩
theorem tmvr (o : TmvOps) : Statement (.tmvr o) := fun hw => ⟨_, rfl, decodeWord_wordV _ _ _ _ _ _ _ _ _ _ _ rfl rfl hw⟩
theorem tmvc (o : TmvOps) : Statement (.tmvc o) := fun hw => ⟨_, rfl, decodeWord_wordV _ _ _ _ _ _ _ _ _ _ _ rfl rfl hw⟩
theorem tmvw (o : TmvwOps) : Statement (.tmvw o) := fun hw => ⟨_, rfl, decodeWord_wordV _ _ _ _ _ _ _ _ _ _ _ rfl rfl hw⟩
theorem vspc (o : VspOps) : Statement (.vspc o) := fun hw => ⟨_, rfl, decodeWord_wordV _ _ _ _ _ _ _ _ _ _ _ rfl (by
  simp only [decodeV, decodeVsp, VWord.vspOps?, subKind_second, subUns_second, second_bits]; rfl) hw⟩
theorem vspx (o : VspOps) : Statement (.vspx o) := fun hw => ⟨_, rfl, decodeWord_wordV _ _ _ _ _ _ _ _ _ _ _ rfl (by
  simp only [decodeV, decodeVsp, VWord.vspOps?, subKind_second, subUns_second, second_bits]; rfl) hw⟩
theorem vbox (o : RayOps) : Statement (.vbox o) := fun hw => ⟨_, rfl, decodeWord_wordV _ _ _ _ _ _ _ _ _ _ _ rfl rfl hw⟩
theorem vtri (o : RayOps) : Statement (.vtri o) := fun hw => ⟨_, rfl, decodeWord_wordV _ _ _ _ _ _ _ _ _ _ _ rfl rfl hw⟩
theorem pload (o : AOps) : Statement (.pload o) := fun hw => ⟨_, rfl, decodeWord_wordV _ _ _ _ _ _ _ _ _ _ _ rfl rfl hw⟩
theorem penq (o : AOps) : Statement (.penq o) := fun hw => ⟨_, rfl, decodeWord_wordV _ _ _ _ _ _ _ _ _ _ _ rfl rfl hw⟩
theorem pcfg (o : SelOps) : Statement (.pcfg o) := fun hw => ⟨_, rfl, decodeWord_wordV _ _ _ _ _ _ _ _ _ _ _ rfl (by
  simp only [decodeV, decodePont, VWord.selOps?, subKind_second, subUns_second, subType_second]; rfl) hw⟩
theorem pstat (o : PstatOps) : Statement (.pstat o) := fun hw => ⟨_, rfl, decodeWord_wordV _ _ _ _ _ _ _ _ _ _ _ rfl rfl hw⟩
theorem xcopy (o : AOps) : Statement (.xcopy o) := fun hw => ⟨_, rfl, decodeWord_wordV _ _ _ _ _ _ _ _ _ _ _ rfl rfl hw⟩
theorem xtrain (o : AOps) : Statement (.xtrain o) := fun hw => ⟨_, rfl, decodeWord_wordV _ _ _ _ _ _ _ _ _ _ _ rfl rfl hw⟩
theorem xcoll (o : AOps) : Statement (.xcoll o) := fun hw => ⟨_, rfl, decodeWord_wordV _ _ _ _ _ _ _ _ _ _ _ rfl rfl hw⟩
theorem xpix (o : AOps) : Statement (.xpix o) := fun hw => ⟨_, rfl, decodeWord_wordV _ _ _ _ _ _ _ _ _ _ _ rfl rfl hw⟩
theorem xwharf (o : AOps) : Statement (.xwharf o) := fun hw => ⟨_, rfl, decodeWord_wordV _ _ _ _ _ _ _ _ _ _ _ rfl rfl hw⟩
theorem launch (o : XUn) : Statement (.launch o) := fun hw => ⟨_, rfl, decodeWord_wordV _ _ _ _ _ _ _ _ _ _ _ rfl rfl hw⟩
theorem cancel (o : SelOps) : Statement (.cancel o) := fun hw => ⟨_, rfl, decodeWord_wordV _ _ _ _ _ _ _ _ _ _ _ rfl (by
  simp only [decodeV, decodeHier, VWord.selOps?, subKind_second, subUns_second, subType_second]; rfl) hw⟩
theorem emit (o : XOps) : Statement (.emit o) := fun hw => ⟨_, rfl, decodeWord_wordV _ _ _ _ _ _ _ _ _ _ _ rfl rfl hw⟩
theorem bar (o : BarOps) : Statement (.bar o) := fun hw => ⟨_, rfl, decodeWord_wordV _ _ _ _ _ _ _ _ _ _ _ rfl rfl hw⟩
theorem wait (o : WaitOps) : Statement (.wait o) := fun hw => ⟨_, rfl, decodeWord_wordV _ _ _ _ _ _ _ _ _ _ _ rfl (by
  simp only [decodeV, decodeWait, VWord.waitOps?, pair_bits]; rfl) hw⟩
theorem vwait (o : VWaitOps) : Statement (.vwait o) := fun hw => ⟨_, rfl, decodeWord_wordV _ _ _ _ _ _ _ _ _ _ _ rfl (by
  simp only [decodeV, decodeWait, VWord.vWaitOps?, pair_bits]; rfl) hw⟩
theorem crit : Statement (.crit) := fun hw => ⟨_, rfl, decodeWord_wordV _ _ _ _ _ _ _ _ _ _ _ rfl rfl hw⟩
theorem critx : Statement (.critx) := fun hw => ⟨_, rfl, decodeWord_wordV _ _ _ _ _ _ _ _ _ _ _ rfl rfl hw⟩
theorem yield : Statement (.yield) := fun hw => ⟨_, rfl, decodeWord_wordV _ _ _ _ _ _ _ _ _ _ _ rfl rfl hw⟩
theorem endit : Statement (.endit) := fun hw => ⟨_, rfl, decodeWord_wordV _ _ _ _ _ _ _ _ _ _ _ rfl rfl hw⟩
theorem scall : Statement (.scall) := fun hw => ⟨_, rfl, decodeWord_wordI _ _ _ _ _ rfl rfl hw⟩
theorem dbrk : Statement (.dbrk) := fun hw => ⟨_, rfl, decodeWord_wordI _ _ _ _ _ rfl rfl hw⟩
theorem eret : Statement (.eret) := fun hw => ⟨_, rfl, decodeWord_wordI _ _ _ _ _ rfl rfl hw⟩
theorem rollback : Statement (.rollback) := fun hw => ⟨_, rfl, decodeWord_wordI _ _ _ _ _ rfl rfl hw⟩
theorem vmnot : Statement (.vmnot) := fun hw => ⟨_, rfl, decodeWord_wordV _ _ _ _ _ _ _ _ _ _ _ rfl rfl hw⟩
theorem vmset : Statement (.vmset) := fun hw => ⟨_, rfl, decodeWord_wordV _ _ _ _ _ _ _ _ _ _ _ rfl rfl hw⟩
theorem toff : Statement (.toff) := fun hw => ⟨_, rfl, decodeWord_wordV _ _ _ _ _ _ _ _ _ _ _ rfl rfl hw⟩
theorem vectorIssue : Statement (.vectorIssue) := rfl
theorem vectorEntryRetire : Statement (.vectorEntryRetire) := rfl
theorem trapEntry : Statement (.trapEntry) := rfl
theorem scalarPoisonRedecode : Statement (.scalarPoisonRedecode) := rfl
theorem iterationRehandout : Statement (.iterationRehandout) := rfl
theorem critOverrun : Statement (.critOverrun) := rfl
theorem preemption : Statement (.preemption) := rfl
theorem resume : Statement (.resume) := rfl
theorem park : Statement (.park) := rfl
theorem waitMonitorWake : Statement (.waitMonitorWake) := rfl
theorem waitWake : Statement (.waitWake) := rfl
theorem wtoExpiry : Statement (.wtoExpiry) := rfl
theorem barWake : Statement (.barWake) := rfl
theorem tonGrant : Statement (.tonGrant) := rfl
theorem storePerform : Statement (.storePerform) := rfl
theorem loadDataReturn : Statement (.loadDataReturn) := rfl
theorem atomicApply : Statement (.atomicApply) := rfl
theorem streamStripFetch : Statement (.streamStripFetch) := rfl
theorem streamStripDrain : Statement (.streamStripDrain) := rfl
theorem pontoonDispatch : Statement (.pontoonDispatch) := rfl
theorem pontoonItemComplete : Statement (.pontoonItemComplete) := rfl
theorem xcopyComplete : Statement (.xcopyComplete) := rfl
theorem xwharfWriteComplete : Statement (.xwharfWriteComplete) := rfl
theorem xwharfSealComplete : Statement (.xwharfSealComplete) := rfl
theorem xpixApply : Statement (.xpixApply) := rfl
theorem xpixComplete : Statement (.xpixComplete) := rfl
theorem trainDeliver : Statement (.trainDeliver) := rfl
theorem xtrainComplete : Statement (.xtrainComplete) := rfl
theorem xcollComplete : Statement (.xcollComplete) := rfl
theorem dieWriteApply : Statement (.dieWriteApply) := rfl
theorem tideWindowStart : Statement (.tideWindowStart) := rfl
theorem tideWindowEnd : Statement (.tideWindowEnd) := rfl
theorem launchStart : Statement (.launchStart) := rfl
theorem walkerHandout : Statement (.walkerHandout) := rfl
theorem iterationEnd : Statement (.iterationEnd) := rfl
theorem recordComplete : Statement (.recordComplete) := rfl
theorem cancelFinalize : Statement (.cancelFinalize) := rfl
theorem ferryHandout : Statement (.ferryHandout) := rfl
theorem blobStreamComplete : Statement (.blobStreamComplete) := rfl
theorem landingPreemptTimeout : Statement (.landingPreemptTimeout) := rfl
theorem recheckRun : Statement (.recheckRun) := rfl
theorem recheckTimeout : Statement (.recheckTimeout) := rfl
theorem contextStart : Statement (.contextStart) := rfl
theorem contextStop : Statement (.contextStop) := rfl
theorem contextFree : Statement (.contextFree) := rfl
theorem rootPlace : Statement (.rootPlace) := rfl
theorem doneInterrupt : Statement (.doneInterrupt) := rfl
theorem hostWrite : Statement (.hostWrite) := rfl
theorem hostRead : Statement (.hostRead) := rfl
theorem hostRequestCompletion : Statement (.hostRequestCompletion) := rfl
theorem functionLevelReset : Statement (.functionLevelReset) := rfl
theorem packageBoot : Statement (.packageBoot) := rfl
theorem thermalTrip : Statement (.thermalTrip) := rfl
theorem powerThrottle : Statement (.powerThrottle) := rfl
theorem linkFlitRetry : Statement (.linkFlitRetry) := rfl
theorem portDown : Statement (.portDown) := rfl
theorem attestationRequest : Statement (.attestationRequest) := rfl
theorem pkstatWrite : Statement (.pkstatWrite) := rfl
theorem wharfAllocWrite : Statement (.wharfAllocWrite) := rfl
theorem sselWrite : Statement (.sselWrite) := rfl
theorem sdataRead : Statement (.sdataRead) := rfl
theorem mgmtRegisterWrite : Statement (.mgmtRegisterWrite) := rfl
theorem illegalInstruction : Statement (.illegalInstruction) := rfl
theorem instructionFetchFault : Statement (.instructionFetchFault) := rfl
theorem uncorrectableError : Statement (.uncorrectableError) := rfl
theorem engineCommandStart : Statement (.engineCommandStart) := rfl
theorem contextStopComplete : Statement (.contextStopComplete) := rfl
theorem flrComplete : Statement (.flrComplete) := rfl
theorem attestationComplete : Statement (.attestationComplete) := rfl
theorem powerThrottleRelease : Statement (.powerThrottleRelease) := rfl
theorem portRetraining : Statement (.portRetraining) := rfl
theorem portUp : Statement (.portUp) := rfl

end Sys2Proof.Laws.RoundTrip
end

