-- ==== Sys2Proof/Laws/Scalar.lean ====
section
/-! SUPPORT. What the shared frames of the scalar instructions do: the gate, results to x registers, branches. -/

namespace Sys2Proof.Machine

theorem Strand.isFull_of_xready {t : Strand} {r : Reg} (h : t.xready r = true) : t.isFull r = true := by
  simp only [Strand.xready, Strand.isFull, Bool.or_eq_true, Bool.and_eq_true] at *
  tauto

theorem State.usable.emptyMarked {s : State} {srcs : List (Reg × Bool)} {dsts : List Reg}
    (h : s.usable (srcs.map Prod.fst) dsts) : s.st.emptyMarked srcs = none := by
  have hr : ∀ p ∈ srcs, s.st.xready p.1 = true := by
    intro p hp
    have := h.1
    simp only [Strand.allReady, List.all_append, Bool.and_eq_true, List.all_eq_true, List.mem_map] at this
    exact this.1 p.1 ⟨p, hp, rfl⟩
  simp only [Strand.emptyMarked, Option.map_eq_none_iff, List.find?_eq_none]
  intro p hp
  simp [Strand.isFull_of_xready (hr p hp)]

/-- The gate lets an instruction through when its registers are usable (R15, R16, R344). -/
theorem State.gated_of_usable {s : State} {srcs : List (Reg × Bool)} {dsts : List Reg} (effect : State → State)
    (h : s.usable (srcs.map Prod.fst) dsts) : s.gated srcs dsts effect = effect s := by
  unfold State.gated
  rw [h.emptyMarked]
  simp [h.1, h.2]

/-- Everything the gate can do: trap 0x03, wait, machine check, or the effect. -/
theorem State.gated_cases (s : State) (srcs : List (Reg × Bool)) (dsts : List Reg) (effect : State → State) :
    (∃ r : Reg, s.gated srcs dsts effect = s.trap 0x03 (r.zeroExtend 64)) ∨ s.gated srcs dsts effect = s.stall ∨
      s.gated srcs dsts effect = s.machineCheck 0 0 ∨ s.gated srcs dsts effect = effect s := by
  unfold State.gated
  split
  · exact .inl ⟨_, rfl⟩
  · split
    · exact .inr (.inl rfl)
    · split
      · exact .inr (.inr (.inl rfl))
      · exact .inr (.inr (.inr rfl))

theorem State.binary_of_usable {s : State} {o : XOps} (f : Word → Word → Word) (h : s.usable [o.a, o.b] [o.d]) :
    s.binary o f = (s.setX o.d (f (s.st.xget o.a) (s.st.xget o.b))).advance :=
  State.gated_of_usable _ h

theorem State.unary_of_usable {s : State} {d a : Reg} {fa : Bool} (f : Word → Word) (h : s.usable [a] [d]) :
    s.unary d a fa f = (s.setX d (f (s.st.xget a))).advance :=
  State.gated_of_usable _ h

theorem State.constant_of_usable {s : State} {d : Reg} (v : Word) (h : s.usable [] [d]) :
    s.constant d v = (s.setX d v).advance :=
  State.gated_of_usable _ h

theorem State.branch_of_usable {s : State} {o : BrOps} (p : Word → Word → Bool) (h : s.usable [o.a, o.b] []) :
    s.branch o p = if p (s.st.xget o.a) (s.st.xget o.b) then s.upd fun t => t.goto (targetOf t.pc o.off) else s.advance :=
  State.gated_of_usable _ h

end Sys2Proof.Machine
end

