-- ==== Sys2Proof/Laws/ScalarMem.lean ====
section
/-! SUPPORT. What the scalar loads, stores and atomics do in lockstep, with nothing in flight: one lemma for each of the
three frames. -/

namespace Sys2Proof.Machine

/-- Nothing of the strand is in flight to memory, and queued effects take place at once. -/
structure State.settled (s : State) : Prop where
  lockstep : s.pace = .lockstep
  queue : s.st.queue = []
  stores : s.st.stores = []
  loads : s.st.loads = []
  flights : s.flights = []

theorem State.settled.loadBlocked {s : State} (h : s.settled) (p : Place) (n : Nat) : s.st.loadBlocked p n = false := by
  simp [Strand.loadBlocked, Strand.writesQueued, h.queue, h.stores]

theorem State.settled.lastTouch {s : State} (h : s.settled) : s.st.lastTouch = none := by
  simp [Strand.lastTouch, h.queue]

/-- A place that a write or an atomic is allowed to touch can be written. -/
theorem State.check_writable {s : State} {acc : Acc} {al n : Nat} {a : Word} {p : Place} {d : Bool} (ha : acc ≠ .read)
    (h : s.check acc al n a = .ok p d) : s.writable p := by
  unfold State.check at h
  split at h
  · cases h
  · split at h
    · cases h
    · simp only at h
      split at h
      · unfold State.windowCheck at h
        simp only at h
        repeat' split at h
        all_goals first | (cases h; done) | (cases h; simp_all [State.writable])
      · unfold State.hostFault pageCheck placeOfPhys at h
        simp only at h
        repeat' split at h
        all_goals first | (cases h; done) | (cases h; simp_all [State.writable])

/-- The low bytes of a number. -/
theorem bytesOf_mod (n x : Nat) : bytesOf n (x % 2 ^ (8 * n)) = bytesOf n x := by
  induction n generalizing x with
  | zero => rfl
  | succ n ih =>
    have : 2 ^ (8 * (n + 1)) = 256 * 2 ^ (8 * n) := by rw [Nat.mul_succ, Nat.pow_add]; ring
    simp only [bytesOf, this]
    congr 1
    · apply BitVec.eq_of_toNat_eq; simp [Nat.mod_mul]
    · rw [← ih (x / 256), Nat.mod_mul_right_div_self]

/-- The strand after a store or an atomic has entered and left the store queue. -/
def Strand.sentOne (t : Strand) : Strand := { t with stores := [], seq := t.seq + 1, iter := { t.iter with effects := true } }

/-- A scalar store that meets nothing in flight is performed at once (R97, R98). -/
theorem State.flush_empty (k b : Nat) (u : State) (h : u.st.stores = []) : State.flush k b u = u := by
  cases k <;> simp [State.flush, Strand.headReady, h]

theorem State.enqueueStore_now {s : State} (h : s.settled) (i : Instr) (hi : atomicOf i = none) (a : Word) (p : Place)
    (hu : s.noUndo p) (n : Nat) (data cmp : Word) :
    s.enqueueStore i a p n data cmp none = ((s.upd Strand.sentOne).writePlace a p (bytesOf n data.toNat)).advance := by
  have hd := h.loads
  simp only [State.enqueueStore, State.settleStores, State.upd, h.stores, h.lastTouch, List.nil_append]
  rw [if_pos (by simp [h.lockstep])]
  unfold State.flush
  rw [if_pos (by simp [Strand.headReady, State.headClean, hd])]
  have hp : ∀ (t : State) (e : SEntry), t.st.stores = [e] → e.instr = i →
      t.performHead = (t.upd fun u => { u with stores := [], iter := { u.iter with effects := true } }).writePlace e.addr
        e.place (bytesOf e.size e.data.toNat) := by
    intro t e ht' he
    simp [State.performHead, ht', he, hi]
  rw [hp _ _ rfl rfl, State.flush_empty]
  · rfl
  · rw [State.writePlace_st]
    · rfl
    · exact h.flights
    · cases p <;> exact hu

/-- What poison an access meets depends on the marks of the storage alone. -/
theorem State.poisonAt_congr {s t : State} {a : Word} {p : Place} {n : Nat} (h1 : t.poison = s.poison)
    (h2 : t.hostPoison = s.hostPoison) (h3 : t.st.scratchBad = s.st.scratchBad) (h4 : t.st.batchBad = s.st.batchBad)
    (h5 : t.cRange = s.cRange) (h6 : t.blobBad = s.blobBad) : t.poisonAt a p n = s.poisonAt a p n := by
  simp only [State.poisonAt, h1, h2, h3, h4, h5, h6]

/-- The strand after an atomic has entered and left the store queue, before its destination is filled. -/
def Strand.sentAtomic (t : Strand) (d : Reg) : Strand := (t.pend d).sentOne

/-- A scalar atomic that meets nothing in flight is applied at once: the new value goes to memory and the old one to the
destination (R98 to R100). -/
theorem State.enqueueAtomic_now {s : State} (h : s.settled) (i : Instr) (op : AtOp) (acq : Bool)
    (hi : atomicOf i = some (op, acq)) (a : Word) (p : Place) (hu : s.noUndo p) (n : Nat) (hpo : s.poisonAt a p n = none)
    (data cmp : Word) (d : Reg) :
    s.enqueueStore i a p n data cmp (some d) =
      let t := s.upd fun u => u.sentAtomic d
      let old := ofBytes (t.placeBytes p n)
      ((t.writePlace a p (bytesOf n (atNew op (8 * n) old (data.toNat % 2 ^ (8 * n)) (cmp.toNat % 2 ^ (8 * n))))).setX d
        (atOld op (8 * n) old)).advance := by
  have hd := h.loads
  have hpl : (s.st.pend d).loads = [] := by unfold Strand.pend; split <;> exact hd
  simp only [State.enqueueStore, State.settleStores, State.upd, h.stores, h.lastTouch, List.nil_append]
  rw [if_pos (by simp [h.lockstep])]
  unfold State.flush
  rw [if_pos (by
    simp only [Strand.headReady, State.headClean, List.head?_cons, Option.all_some, Option.any_some]
    rw [State.poisonAt_congr (s := s), hpo]
    · simp [hpl]
    all_goals first | rfl | (unfold Strand.pend; split <;> rfl))]
  have hp : ∀ (t : State) (e : SEntry), t.st.stores = [e] → e.instr = i → e.dest = some d → t.flights = [] →
      t.noUndo e.place → t.poisonAt e.addr e.place e.size = none → t.performHead =
        let u := t.upd fun u => { u with stores := [], iter := { u.iter with effects := true } }
        let old := ofBytes (t.placeBytes e.place e.size)
        (u.writePlace e.addr e.place (bytesOf e.size (atNew op (8 * e.size) old (e.data.toNat % 2 ^ (8 * e.size))
          (e.cmp.toNat % 2 ^ (8 * e.size))))).setX d (atOld op (8 * e.size) old) := by
    intro t e ht' he hde hf hn hc
    obtain ⟨ds, hds⟩ := t.crossed_dies (dieOf t.cur) e.place hf
    have hc' : (t.crossed (dieOf t.cur) e.place).poisonAt e.addr e.place e.size = none := by
      rw [hds, State.poisonAt_congr (s := t)] <;> first | exact hc | rfl
    have hb : (t.crossed (dieOf t.cur) e.place).placeBytes e.place e.size = t.placeBytes e.place e.size := by
      rw [hds]; rfl
    have hl : (t.crossed (dieOf t.cur) e.place).logAhead (t.crossed (dieOf t.cur) e.place).st.ctx e.addr e.place e.size =
        t.crossed (dieOf t.cur) e.place :=
      State.logAhead_noUndo (by rw [hds]; revert hn; cases e.place <;> exact id) _ _
    simp only [State.performHead, ht', he, hi, State.applyAtomic, hc', hl, hde, hb, State.writePlace,
      State.crossed_upd _ _ _ _ hf]
    rfl
  have hx : ∀ t : Strand, (t.pend d).ctx = t.ctx := by intro t; unfold Strand.pend; split <;> rfl
  rw [hp _ _ rfl rfl rfl (by exact h.flights)
    (by cases p <;> first | trivial | (simp only [State.noUndo, hx] at hu ⊢; exact hu)) (by
    rw [State.poisonAt_congr (s := s), hpo]
    all_goals first | rfl | (unfold Strand.pend; split <;> rfl)), State.flush_empty]
  · simp only [State.upd, Strand.sentAtomic, Strand.sentOne]
    have : (s.st.pend d).seq = s.st.seq := by unfold Strand.pend; split <;> rfl
    rw [this]
    cases p <;> rfl
  · simp only [State.setX_st, Strand.xset_stores]
    rw [State.writePlace_st]
    · rfl
    · exact h.flights
    · cases p <;> first | trivial | (simp only [State.noUndo, State.upd, hx] at hu ⊢; exact hu)

end Sys2Proof.Machine
end

