-- ==== Sys2Proof/Laws/Vector.lean ====
section
/-! SUPPORT. The vector queue in lockstep: an instruction of a quiet strand is pushed, runs and retires in one step. The
laws of elements, of the loops over them and of retirement. -/

namespace Sys2Proof.Machine

/-! ## Elements (R135) -/

theorem setElem_getLsbD {n : Nat} (v : BitVec n) (w e x i : Nat) (hi : i < n) :
    (setElem v w e x).getLsbD i =
      if w * e ≤ i ∧ i < w * e + w then x.testBit (i - w * e) else v.getLsbD i := by
  have h1 : ∀ j, (BitVec.ofNat n (2 ^ w - 1)).getLsbD j = (decide (j < n) && decide (j < w)) := by
    intro j; rw [BitVec.getLsbD_ofNat, Nat.testBit_two_pow_sub_one]
  have h2 : ∀ j, (BitVec.ofNat n (x % 2 ^ w)).getLsbD j = (decide (j < n) && (decide (j < w) && x.testBit j)) := by
    intro j; rw [BitVec.getLsbD_ofNat, Nat.testBit_mod_two_pow]
  simp only [setElem, BitVec.getLsbD_or, BitVec.getLsbD_and, BitVec.getLsbD_not, BitVec.getLsbD_shiftLeft, h1, h2]
  by_cases ha : w * e ≤ i
  · by_cases hb : i < w * e + w
    · have h3 : i - w * e < w := by omega
      have h4 : i - w * e < n := by omega
      have h5 : ¬i < w * e := by omega
      simp [ha, hb, hi, h3, h4, h5]
    · have h3 : ¬i - w * e < w := by omega
      simp [ha, hb, hi, h3]
  · have h5 : i < w * e := by omega
    simp [ha, h5, hi]

theorem elemOf_testBit {n : Nat} (v : BitVec n) (w e j : Nat) :
    (elemOf v w e).testBit j = (decide (j < w) && v.getLsbD (w * e + j)) := by
  simp [elemOf, BitVec.testBit_toNat]

theorem elemOf_lt {n : Nat} (v : BitVec n) (w e : Nat) : elemOf v w e < 2 ^ w := by
  simp only [elemOf]; exact BitVec.isLt _

theorem elemOf_setElem_self {n : Nat} (v : BitVec n) (w e x : Nat) (h : w * e + w ≤ n) :
    elemOf (setElem v w e x) w e = x % 2 ^ w := by
  apply Nat.eq_of_testBit_eq
  intro j
  rw [elemOf_testBit, Nat.testBit_mod_two_pow]
  by_cases hj : j < w
  · rw [setElem_getLsbD _ _ _ _ _ (by omega)]
    simp [hj]
  · simp [hj]

theorem elemOf_setElem_of_ne {n : Nat} (v : BitVec n) (w e k x : Nat) (hk : k ≠ e) (h : w * k + w ≤ n) :
    elemOf (setElem v w e x) w k = elemOf v w k := by
  apply Nat.eq_of_testBit_eq
  intro j
  rw [elemOf_testBit, elemOf_testBit]
  by_cases hj : j < w
  · rw [setElem_getLsbD _ _ _ _ _ (by omega)]
    have : ¬(w * e ≤ w * k + j ∧ w * k + j < w * e + w) := by
      rintro ⟨h1, h2⟩
      rcases Nat.lt_or_gt_of_ne hk with hlt | hgt
      · have : w * (k + 1) ≤ w * e := Nat.mul_le_mul_left w hlt
        rw [Nat.mul_succ] at this; omega
      · have : w * (e + 1) ≤ w * k := Nat.mul_le_mul_left w hgt
        rw [Nat.mul_succ] at this; omega
    simp [this]
  · simp [hj]

/-- The loop over the elements `e` to `e + n − 1`: each one that `f` gives is written, the others are kept. -/
theorem elemOf_lanes (w : Nat) (f : Nat → Option (Nat × FFlags)) (n e : Nat) (v : VReg) (k : Nat)
    (hk : w * k + w ≤ 16384) :
    elemOf (lanes w f n e v).1 w k =
      if e ≤ k ∧ k < e + n then (match f k with | some r => r.1 % 2 ^ w | none => elemOf v w k) else elemOf v w k := by
  induction n generalizing e v with
  | zero =>
    have : ¬(e ≤ k ∧ k < e + 0) := by omega
    rw [if_neg this]; rfl
  | succ n ih =>
    unfold lanes
    split
    · rename_i hf
      rw [ih]
      by_cases h : k = e
      · subst h; simp [hf]
      · have : (e + 1 ≤ k ∧ k < e + 1 + n) ↔ (e ≤ k ∧ k < e + (n + 1)) := by omega
        simp only [this]
    · rename_i x fl hf
      simp only [ih]
      by_cases h : k = e
      · subst h
        have h1 : ¬(k + 1 ≤ k ∧ k < k + 1 + n) := by omega
        rw [if_neg h1, elemOf_setElem_self _ _ _ _ hk]
        simp [hf]
      · have : (e + 1 ≤ k ∧ k < e + 1 + n) ↔ (e ≤ k ∧ k < e + (n + 1)) := by omega
        simp only [this, elemOf_setElem_of_ne _ _ _ _ _ h hk]

theorem setBit_getLsbD {n : Nat} (v : BitVec n) (e : Nat) (on : Bool) (i : Nat) (hi : i < n) :
    (setBit v e on).getLsbD i = if i = e then on else v.getLsbD i := by
  have hs : ((BitVec.ofNat n 1) <<< e).getLsbD i = decide (i = e) := by
    rw [BitVec.getLsbD_shiftLeft, BitVec.getLsbD_ofNat]
    by_cases h1 : i < e
    · have : i ≠ e := by omega
      simp [h1, this]
    · by_cases h2 : i = e
      · subst h2; simp [hi]; omega
      · obtain ⟨j, hj⟩ : ∃ j, i - e = j + 1 := ⟨i - e - 1, by omega⟩
        simp [h2, hj, Nat.testBit_succ]
  cases on <;> simp only [setBit, Bool.false_eq_true, if_false, if_true, BitVec.getLsbD_or, BitVec.getLsbD_and,
    BitVec.getLsbD_not, hs] <;> by_cases h : i = e <;> simp [h, hi]

/-- The loop over the bits of `vm`. -/
theorem getLsbD_maskLanes (f : Nat → Option (Bool × FFlags)) (n e : Nat) (v : MaskReg) (k : Nat) (hk : k < 2048) :
    (maskLanes f n e v).1.getLsbD k =
      if e ≤ k ∧ k < e + n then (match f k with | some r => r.1 | none => v.getLsbD k) else v.getLsbD k := by
  induction n generalizing e v with
  | zero =>
    have : ¬(e ≤ k ∧ k < e + 0) := by omega
    rw [if_neg this]; rfl
  | succ n ih =>
    unfold maskLanes
    split
    · rename_i hf
      rw [ih]
      by_cases h : k = e
      · subst h; simp [hf]
      · have : (e + 1 ≤ k ∧ k < e + 1 + n) ↔ (e ≤ k ∧ k < e + (n + 1)) := by omega
        simp only [this]
    · rename_i x fl hf
      simp only [ih]
      by_cases h : k = e
      · subst h
        have h1 : ¬(k + 1 ≤ k ∧ k < k + 1 + n) := by omega
        rw [if_neg h1, setBit_getLsbD _ _ _ _ hk]
        simp [hf]
      · have : (e + 1 ≤ k ∧ k < e + 1 + n) ↔ (e ≤ k ∧ k < e + (n + 1)) := by omega
        simp only [this, setBit_getLsbD _ _ _ _ hk, h, if_false]

/-- The flags that a loop raises: exactly those of the elements it gives. -/
theorem allRaised_lanes (w : Nat) (f : Nat → Option (Nat × FFlags)) (n e : Nat) (v : VReg) (i : Nat) :
    (allRaised (lanes w f n e v).2).getLsbD i = true ↔
      ∃ k, e ≤ k ∧ k < e + n ∧ ∃ r, f k = some r ∧ r.2.getLsbD i = true := by
  induction n generalizing e v with
  | zero => simp only [lanes, allRaised]; constructor
            · intro h; simp at h
            · rintro ⟨k, h1, h2, -⟩; omega
  | succ n ih =>
    unfold lanes
    split
    · rename_i hf
      rw [ih]
      constructor
      · rintro ⟨k, h1, h2, h3⟩; exact ⟨k, by omega, by omega, h3⟩
      · rintro ⟨k, h1, h2, r, h3, h4⟩
        have : k ≠ e := by rintro rfl; simp [hf] at h3
        exact ⟨k, by omega, by omega, r, h3, h4⟩
    · rename_i x fl hf
      have hn : ∀ fs, (allRaised (note e fl fs)).getLsbD i = (fl.getLsbD i || (allRaised fs).getLsbD i) := by
        intro fs; unfold note; split
        · rename_i h; simp only [beq_iff_eq] at h; simp [h]
        · simp [allRaised]
      rw [hn, Bool.or_eq_true, ih]
      constructor
      · rintro (h | ⟨k, h1, h2, h3⟩)
        · exact ⟨e, by omega, by omega, _, hf, h⟩
        · exact ⟨k, by omega, by omega, h3⟩
      · rintro ⟨k, h1, h2, r, h3, h4⟩
        by_cases hk : k = e
        · subst hk; rw [hf] at h3; cases h3; exact .inl h4
        · exact .inr ⟨k, by omega, by omega, r, h3, h4⟩

/-- The lowest index of a flag among those that a loop raises. -/
theorem lowestIndex_lanes (w : Nat) (f : Nat → Option (Nat × FFlags)) (n e : Nat) (v : VReg) (i : Nat) :
    (∀ k, e ≤ k → k < e + n → (∃ r, f k = some r ∧ r.2.getLsbD i = true) →
      (∀ j, e ≤ j → j < k → ∀ r, f j = some r → r.2.getLsbD i = false) → lowestIndex i (lanes w f n e v).2 = some k) ∧
    ((∀ k, e ≤ k → k < e + n → ∀ r, f k = some r → r.2.getLsbD i = false) → lowestIndex i (lanes w f n e v).2 = none) ∧
    (∀ k, lowestIndex i (lanes w f n e v).2 = some k → e ≤ k) := by
  induction n generalizing e v with
  | zero => exact ⟨by intro k h1 h2; omega, fun _ => rfl, by intro k h; simp [lanes, lowestIndex] at h⟩
  | succ n ih =>
    unfold lanes
    split
    · rename_i hf
      obtain ⟨a, b, c⟩ := ih (e + 1) v
      refine ⟨fun k h1 h2 h3 h4 => ?_, fun h => b fun k h1 h2 => h k (by omega) (by omega), fun k h => by have := c k h; omega⟩
      have hk : k ≠ e := by rintro rfl; obtain ⟨r, h3, -⟩ := h3; rw [hf] at h3; cases h3
      exact a k (by omega) (by omega) h3 fun j h5 h6 => h4 j (by omega) h6
    · rename_i x fl hf
      obtain ⟨a, b, c⟩ := ih (e + 1) (setElem v w e x)
      have hn : ∀ fs, lowestIndex i (note e fl fs) = if fl.getLsbD i then
          (match lowestIndex i fs with | none => some e | some k => some (min e k)) else lowestIndex i fs := by
        intro fs; unfold note; split
        · rename_i h; simp only [beq_iff_eq] at h; simp [h]
        · rfl
      simp only [hn]
      refine ⟨fun k h1 h2 h3 h4 => ?_, fun h => ?_, fun k h => ?_⟩
      · by_cases hk : k = e
        · subst hk
          obtain ⟨r, h3, h5⟩ := h3
          rw [hf] at h3; cases h3
          simp only [h5, if_true]
          split
          · rfl
          · rename_i j hj; have := c j hj; rw [Nat.min_eq_left (by omega)]
        · have := h4 e (by omega) (by omega) _ hf
          simp only [this, Bool.false_eq_true, if_false]
          exact a k (by omega) (by omega) h3 fun j h5 h6 => h4 j (by omega) h6
      · have := h e (by omega) (by omega) _ hf
        simp only [this, Bool.false_eq_true, if_false]
        exact b fun k h1 h2 => h k (by omega) (by omega)
      · split at h
        · split at h
          · cases h; omega
          · rename_i j hj; have := c j hj; cases h; omega
        · have := c k h; omega

/-! ## Streams unbound -/

theorem Strand.streamOf_of_nil {t : Strand} (h : t.streams = []) (r : Reg) : t.streamOf r = none := by
  simp [Strand.streamOf, h]

theorem Strand.showStrips_of_nil {t : Strand} (h : t.streams = []) (f : VForm) : t.showStrips f = t := by
  unfold Strand.showStrips
  generalize f.vs = l
  induction l with
  | nil => rfl
  | cons p ps ih => simp only [List.foldl_cons, Strand.streamOf_of_nil h]; exact ih

theorem State.badStrip_of_nil {s : State} (h : s.st.streams = []) (f : VForm) (e : QEntry) (lo hi : Nat) :
    s.badStrip f e lo hi = none := by
  unfold State.badStrip
  simp only [Strand.streamOf_of_nil h]
  generalize f.vs = l
  induction l with
  | nil => rfl
  | cons p ps ih => exact ih

/-- With no stream bound an instruction drains no strip. -/
theorem State.outputs_of_nil {s : State} (h : s.st.streams = []) (f : VForm) : s.outputs f = [] := by
  simp [State.outputs, Strand.streamOf_of_nil h]

theorem State.badOutput_of_nil {s : State} (h : s.st.streams = []) (f : VForm) : s.badOutput f = none := by
  simp [State.badOutput, State.outputs_of_nil h]

theorem Strand.streamFault_of_nil {t : Strand} (h : t.streams = []) (f : VForm) : t.streamFault f = none := by
  simp [Strand.streamFault, Strand.streamOf_of_nil h]

/-- A loop whose every step leaves the value alone. -/
theorem foldl_same {α β : Type} (f : β → α → β) (b : β) (l : List α) (h : ∀ a, f b a = b) : l.foldl f b = b := by
  induction l with
  | nil => rfl
  | cons x xs ih => rw [List.foldl_cons, h, ih]

theorem State.advanceStreams_of_nil {s : State} (h : s.st.streams = []) (f : VForm) : s.advanceStreams f [] = s := by
  unfold State.advanceStreams
  simp only [List.foldl_nil]
  exact foldl_same _ _ _ (by intro r; simp only [Strand.streamOf_of_nil h])

theorem State.settleStreams_of_nil {s : State} (h : s.st.streams = []) : s.settleStreams = s := by
  simp [State.settleStreams, h]

/-! ## One instruction of a quiet strand -/

theorem hasReg_all : ∀ r : Reg, hasReg (-1) r = true := by decide +kernel

theorem State.quiet.vFullNow {s : State} (h : s.quiet) (r : Reg) : s.st.vFullNow r = true := by
  simp only [Strand.vFullNow, Strand.streamOf_of_nil h.streams, h.vfull, hasReg_all]

theorem State.quiet.beforePush {s : State} (h : s.quiet) (i : Instr) (f : VForm) (hf : f.fault s = none)
    (hx : s.usable (f.xs.map Prod.fst) f.xd.toList) : s.beforePush i f = none := by
  have he : f.vd.any s.st.vEmpty = false := by
    simp only [List.any_eq_false]
    intro r _
    simp only [Strand.vEmpty, h.vfull, hasReg_all]; simp
  have hc : s.st.clear = true := by simp [Strand.clear, Strand.busy, h.queue, h.loads, h.stores]
  simp [State.beforePush, hf, hx.emptyMarked, hx.1, hx.2, h.vlFull, h.queue, he, hc]

/-- The state in which the body of an instruction of a quiet strand runs: the entry is in the queue, the pc has moved
on. -/
def State.pushed (s : State) (i : Instr) (f : VForm) : State := (s.enqueue i f).advance

theorem Strand.copyTags_same (ws : List (Reg × Byte)) (t : Strand) : t.copyTags ws = { t with dtag := (t.copyTags ws).dtag } := by
  unfold Strand.copyTags
  induction ws generalizing t with
  | nil => rfl
  | cons w ws ih => rw [List.foldl_cons, ih]; rfl

/-- What a push leaves of the strand: everything but the queue, its stamp, the pc, the marks of an empty destination,
the mark of `vl`, the decode copies of the tags and the model's own marks. -/
theorem State.pushed_st (s : State) (i : Instr) (f : VForm) : (s.pushed i f).st =
    { s.st with
      xfull := (match f.xd with | some r => (s.st.xempty r).xfull | none => s.st.xfull)
      dtag := (s.pushed i f).st.dtag
      queue := s.st.queue ++ [s.entryOf i f], seq := s.st.seq + 1, vlFull := s.st.vlFull && !f.emptiesVl
      pc := s.st.pc + 4, redecode := none, waiting := false, timedOut := false } := by
  simp only [State.pushed, State.enqueue, State.advance, State.upd, Strand.next]
  rw [Strand.copyTags_same]
  cases f.xd with
  | none => rfl
  | some r => unfold Strand.xempty; simp only; split <;> rfl

theorem State.pushed_rest (s : State) (i : Instr) (f : VForm) : s.pushed i f = { s with st := (s.pushed i f).st } := rfl

theorem State.fetchSources_of_full {s : State} (f : VForm) (h : ∀ r, s.st.vFullNow r = true) : s.fetchSources f = s := by
  unfold State.fetchSources
  split
  · exact foldl_same _ _ _ (by intro p; simp [h])
  · rfl

/-- The entry of a quiet strand starts at once (R161). -/
theorem State.quiet.entryOf_started {s : State} (h : s.quiet) (i : Instr) (f : VForm) : (s.entryOf i f).started = true := by
  have h1 : (s.fetchSources f) = s := State.fetchSources_of_full f h.vFullNow
  simp [State.entryOf, State.startsNow, h.lockstep, h.starts, h.turn, h1, Strand.sourcesReady, h.vFullNow]

@[simp] theorem State.noteStart_st (s : State) (b : Bool) : (s.noteStart b).st = s.st := by
  unfold State.noteStart; split <;> rfl

@[simp] theorem State.noteStart_mem (s : State) (b : Bool) : (s.noteStart b).mem = s.mem := by
  unfold State.noteStart; split <;> rfl

@[simp] theorem State.noteStart_hostMem (s : State) (b : Bool) : (s.noteStart b).hostMem = s.hostMem := by
  unfold State.noteStart; split <;> rfl

@[simp] theorem State.noteStart_elem (s : State) (b : Bool) (r : Reg) (w k : Nat) :
    (s.noteStart b).elem r w k = s.elem r w k := by
  simp only [State.elem, State.noteStart_st]

/-- The note of a start changes nothing that a vector instruction is said to keep. -/
theorem State.vectorDone.noteStart {s t : State} {dx dv : List Reg} (h : s.vectorDone t dx dv) (b : Bool) :
    s.vectorDone (t.noteStart b) dx dv := by
  obtain ⟨⟨h1, h2, h3, h4, h5, h6, h7, h8⟩, h9, h10⟩ := h
  refine ⟨⟨?_, ?_, ?_, ?_, ?_, ?_, ?_, ?_⟩, ?_, ?_⟩ <;>
    simp only [State.keepsX, State.keepsV, State.keepsTrap, State.keepsModes, State.keepsTiles, State.keepsMemory,
      State.noteStart_st, State.noteStart_mem, State.noteStart_hostMem] <;> assumption

theorem VOut.mapState_id (o : VOut) (g : State → State) (h : ∀ s, g s = s) : o.mapState g = o := by
  cases o <;> simp [VOut.mapState, h]

/-- With no store in the queue, an entry sees the strand as it is. -/
theorem State.attempt_of_empty {s : State} (f : VForm) (e : QEntry) (hi : Nat) (h : s.st.stores = []) :
    s.attempt f e hi = s.runBody f e hi := by
  have h1 : s.before e = s := by
    simp only [State.before, State.upd, h, List.filter_nil]
    rw [← h]
  simp only [State.attempt, h1]
  exact VOut.mapState_id _ _ fun u => by simp only [State.upd, h, List.filter_nil, List.append_nil]

/-- With no stream bound, no store in the queue and every v register full, an entry runs its body whole. -/
theorem State.attempt_quiet {s : State} (f : VForm) (e : QEntry) (hi : Nat) (hs : s.st.streams = [])
    (hst : s.st.stores = []) (hf : s.st.vfull = -1) (hv : s.st.vstart = 0) : s.attempt f e hi = f.body e 0 hi s := by
  have hfull : ∀ r, s.st.vFullNow r = true := by
    intro r
    simp only [Strand.vFullNow, Strand.streamOf_of_nil hs, hf, hasReg_all]
  have hlo : f.from_ s.st = 0 := by unfold VForm.from_; split <;> simp [hv]
  have hfind : s.st.vEmptyMarked f = none := by
    simp [Strand.vEmptyMarked, List.find?_eq_none, hfull]
  have hshow : (s.upd fun t => t.showStrips f) = s := by
    simp only [State.upd, Strand.showStrips_of_nil hs]
  rw [State.attempt_of_empty f e hi hst]
  simp only [State.runBody, State.fetchSources_of_full f hfull, hlo, hfind, hfull, List.all_eq_true.2, implies_true,
    Bool.not_true, Bool.false_eq_true, if_false]
  simp only [Strand.streamFault_of_nil hs, State.badStrip_of_nil hs, State.badOutput_of_nil hs, lowerFault, hshow]

theorem State.healV_of_nil {u : State} (h : u.st.vpoison = []) (s : State) (f : VForm) (e : QEntry) :
    u.healV s f e = u := by
  simp only [State.healV, State.upd, h, List.filter_nil]
  rw [← h]

/-- A vector instruction of a quiet strand is pushed, runs and retires (R118, R119). -/
theorem State.vector_done {s s' : State} {i : Instr} {f : VForm} {fs : Raised} (h : s.quiet) (hf : f.fault s = none)
    (hx : s.usable (f.xs.map Prod.fst) f.xd.toList) (hl : f.readsVl = true → 0 < s.st.vl.toNat)
    (hp : s'.st.vpoison = [])
    (hb : f.body (s.entryOf i f) 0 s.st.vl.toNat (s.pushed i f) = .done s' fs) :
    s.vector i f = (s'.retireWith f (s.entryOf i f) fs []).noteStart true := by
  have hq : (s.pushed i f).st.queue = [s.entryOf i f] := by rw [State.pushed_st]; simp [h.queue]
  have hvs : (s.pushed i f).st.vstart = 0 := by rw [State.pushed_st]; exact h.vstart
  have hvl : (s.entryOf i f).vl = s.st.vl := rfl
  have h0 : (f.readsVl && (s.entryOf i f).vl == 0) = false := by
    cases hr : f.readsVl with
    | false => rfl
    | true =>
      have := hl hr
      have : ¬s.st.vl = 0 := by rintro h0; rw [h0] at this; simp at this
      simpa [hvl] using this
  have h1 : (f.grain != 0 && f.readsVl && decide ((s.entryOf i f).vl.toNat ≤ (s.pushed i f).st.vstart.toNat)) = false := by
    cases hr : f.readsVl with
    | false => simp
    | true =>
      have := hl hr
      rw [hvs, hvl]
      simp; omega
  have h2 : (s.pushed i f).vPoisoned f (s.entryOf i f) = false := by
    have : (s.pushed i f).st.vpoison = [] := by rw [State.pushed_st]; exact h.vpoison
    simp [State.vPoisoned, this]
  have h4 : ((s.pushed i f).before (s.entryOf i f)).outputs f = [] :=
    State.outputs_of_nil (by show (s.pushed i f).st.streams = []; rw [State.pushed_st]; exact h.streams) f
  have h3 : ((s.entryOf i f).recheck && !(s.entryOf i f).rechecked) = false := by
    have : (s.entryOf i f).recheck = false := by simp [State.entryOf, State.captures, VForm.mark, h.rchk]
    simp [this]
  unfold State.vector
  rw [h.beforePush i f hf hx]
  simp only
  have hst := h.entryOf_started i f
  rw [if_pos (by simp [State.advance, State.enqueue, State.upd, h.lockstep, QEntry.underWay, hst]), hst]
  change ((s.pushed i f).runHead f).noteStart true = _
  congr 1
  unfold State.runHead
  rw [hq]
  simp only [h0, h1, h2, h3, Bool.false_eq_true, if_false]
  rw [State.attempt_quiet f _ _ (by rw [State.pushed_st]; exact h.streams) (by rw [State.pushed_st]; exact h.stores)
    (by rw [State.pushed_st]; exact h.vfull) hvs, hvl, hb]
  simp only [State.healV_of_nil hp, h4, List.map_nil]

theorem Strand.commitTags_same (e : QEntry) (t : Strand) : t.commitTags e = { t with gtag := (t.commitTags e).gtag } := by
  unfold Strand.commitTags
  generalize e.wtags = ws
  induction ws generalizing t with
  | nil => rfl
  | cons w ws ih => rw [List.foldl_cons, ih]; rfl

theorem Strand.retireHead_streams (t : Strand) : t.retireHead.streams = t.streams := by
  have h0 : ∀ (u : Strand) x, (u.raise0 x).streams = u.streams := by intro u x; unfold Strand.raise0; split <;> rfl
  unfold Strand.retireHead; split
  · rfl
  · exact h0 _ _

/-- The strand after an entry has retired with its effects in place, with no stream bound (R119). -/
def Strand.retired (t : Strand) (e : QEntry) (fs : Raised) : Strand :=
  ((t.raise fs e.raised).commitTags e).retireHead

theorem State.retireWith_quiet {s : State} (f : VForm) (e : QEntry) (fs : Raised) (hs : s.st.streams = []) :
    s.retireWith f e fs [] = s.upd fun t => t.retired e fs := by
  have h1 : ((s.st.raise fs e.raised).commitTags e).streams = [] := by rw [Strand.commitTags_same]; exact hs
  unfold State.retireWith
  simp only
  rw [State.advanceStreams_of_nil h1, State.settleStreams_of_nil]
  · rfl
  · simp only [State.upd_st]
    rw [Strand.retireHead_streams]
    exact h1


theorem Strand.commitTags_raise (e : QEntry) (t : Strand) (fs : Raised) (b : FFlags) :
    (t.raise fs b).commitTags e = { t.commitTags e with fflags := (t.raise fs b).fflags, ffirst := (t.raise fs b).ffirst } := by
  unfold Strand.commitTags
  suffices ∀ (u : Strand) fl ff, (e.wtags.foldl (fun (t : Strand) p => t.setTag p.1 p.2) { u with fflags := fl, ffirst := ff }) =
      { e.wtags.foldl (fun (t : Strand) p => t.setTag p.1 p.2) u with fflags := fl, ffirst := ff } from this t _ _
  intro u fl ff
  induction e.wtags generalizing u with
  | nil => rfl
  | cons w ws ih => rw [List.foldl_cons, List.foldl_cons, ← ih]; rfl

theorem Strand.retireHead_cons {t : Strand} {e : QEntry} {rest : List QEntry} (h : t.queue = e :: rest)
    (he : e.scalar = 0) :
    t.retireHead = { t with
      queue := rest, vstart := 0, watch := false, watchOut := false
      stores := t.stores.map fun x => if x.after == some e.seq then { x with after := none } else x
      loads := t.loads.map fun x => if x.after == some e.seq then { x with after := none } else x } := by
  unfold Strand.retireHead
  rw [h]
  simp only [Strand.raise0, he, if_true]

/-- The strand after its only entry has retired, as one record. -/
theorem Strand.retired_one {u : Strand} {e : QEntry} (fs : Raised) (hq : u.queue = [e]) (he : e.scalar = 0) :
    u.retired e fs =
      { u with
        fflags := u.fflags ||| allRaised fs
        ffirst := (u.raise fs e.raised).ffirst
        gtag := (u.commitTags e).gtag
        queue := [], vstart := 0, watch := false, watchOut := false
        stores := u.stores.map fun x => if x.after == some e.seq then { x with after := none } else x
        loads := u.loads.map fun x => if x.after == some e.seq then { x with after := none } else x } := by
  have h1 : ((u.raise fs e.raised).commitTags e) =
      { u with fflags := u.fflags ||| allRaised fs, ffirst := (u.raise fs e.raised).ffirst, gtag := (u.commitTags e).gtag } := by
    rw [Strand.commitTags_raise, Strand.commitTags_same]; rfl
  unfold Strand.retired
  simp only [h1]
  exact Strand.retireHead_cons hq he

/-- An instruction of a quiet strand whose body changes the strand to `u` and nothing else. -/
theorem State.vector_next {s : State} {i : Instr} {f : VForm} {fs : Raised} {u : Strand} (h : s.quiet)
    (hf : f.fault s = none) (hx : s.usable (f.xs.map Prod.fst) f.xd.toList) (hl : f.readsVl = true → 0 < s.st.vl.toNat)
    (hs : u.streams = []) (hp : u.vpoison = [])
    (hb : f.body (s.entryOf i f) 0 s.st.vl.toNat (s.pushed i f) = .done { s with st := u } fs) :
    s.vector i f = ({ s with st := u.retired (s.entryOf i f) fs } : State).noteStart true := by
  rw [State.vector_done h hf hx hl (by exact hp) hb, State.retireWith_quiet _ _ _ hs]
  rfl

theorem lanes_of_not_any (w : Nat) (f : Nat → Option (Nat × FFlags)) (n e : Nat) (v : VReg)
    (h : anyLane f n e = false) : lanes w f n e v = (v, []) := by
  induction n generalizing e with
  | zero => rfl
  | succ n ih =>
    simp only [anyLane, Bool.or_eq_false_iff] at h
    cases hf : f e with
    | none => simp only [lanes, hf]; exact ih _ h.2
    | some p => rw [hf] at h; simp at h

theorem Strand.vget_vput (t : Strand) (r q : Reg) (v : VReg) : (t.vput r v).vget q = if q = r then v else t.vget q := by
  simp only [Strand.vget, Strand.vput, Vector.getElem_set, ← BitVec.toNat_inj, eq_comm]

theorem Strand.tag_setTag (t : Strand) (r q : Reg) (g : Byte) : (t.setTag r g).tag q = if q = r then g else t.tag q := by
  simp only [Strand.tag, Strand.setTag, Vector.getElem_set, ← BitVec.toNat_inj, eq_comm]

theorem setReg_all (r : Reg) : setReg (-1) r true = -1 := by
  revert r; decide +kernel

/-- The strand after `putV`, as one record. -/
theorem State.putV_same (s : State) (r : Reg) (v : VReg) (wrote : Bool) (hv : s.st.vfull = -1) :
    s.putV r v wrote = { s with st := { s.st with
      v := if wrote then (s.st.vput r v).v else s.st.v
      vdirty := if wrote then (s.st.dirty r.toNat).vdirty else s.st.vdirty } } := by
  cases wrote
  · rfl
  · simp only [State.putV, if_true, State.upd, hv, setReg_all]
    rfl

theorem Strand.commitTags_tag {e : QEntry} {dv : List Reg} (hw : e.wtags = dv.map fun r => (r, (0 : Byte))) (t : Strand)
    (q : Reg) : (t.commitTags e).tag q = if q ∈ dv then 0 else t.tag q := by
  unfold Strand.commitTags
  rw [hw]
  clear hw
  induction dv generalizing t with
  | nil => rfl
  | cons r rs ih =>
    rw [List.map_cons, List.foldl_cons, ih, Strand.tag_setTag]
    by_cases h1 : q ∈ rs <;> by_cases h2 : q = r <;> simp [h1, h2]

/-- What a vector instruction keeps, where its body writes the v registers `dv`, the x registers `dx`, `vm` and nothing
else. -/
theorem State.vectorDone_of {s : State} (h : s.quiet) {i : Instr} {f : VForm} {fs : Raised} {u : Strand} {dx dv : List Reg}
    {vv : Vector VReg 32} {dd : BitVec 36} {mm : MaskReg} {xx : Vector Word 32} {xf xp xq : BitVec 32}
    (hu : u = { (s.pushed i f).st with
      v := vv, vdirty := dd, vm := mm, x := xx, xfull := xf, xpend := xp, xpoison := xq })
    (hw : (s.entryOf i f).wtags = dv.map fun r => (r, (0 : Byte)))
    (hd : ∀ r, r ∉ dv → u.vget r = s.st.vget r)
    (hX : ∀ r, r ∉ dx → u.xget r = s.st.xget r ∧ u.isFull r = s.st.isFull r) :
    s.vectorDone { s with st := u.retired (s.entryOf i f) fs } dx dv ∧
      (∀ r ∈ dv, (u.retired (s.entryOf i f) fs).tag r = 0) := by
  have hq : u.queue = [s.entryOf i f] := by rw [hu, State.pushed_st]; simp [h.queue]
  have he : (s.entryOf i f).scalar = 0 := rfl
  have ht : ∀ r, (u.retired (s.entryOf i f) fs).tag r = if r ∈ dv then 0 else s.st.tag r := by
    intro r
    rw [Strand.retired_one fs hq he]
    change (u.commitTags (s.entryOf i f)).tag r = _
    rw [Strand.commitTags_tag hw, hu, State.pushed_st]; rfl
  refine ⟨?_, fun r hr => by rw [ht, if_pos hr]⟩
  have hf : u.vfull = -1 := by rw [hu, State.pushed_st]; exact h.vfull
  have hr := Strand.retired_one fs hq he
  have hst : u.stores = [] := by rw [hu, State.pushed_st]; exact h.stores
  refine ⟨?_, ?tiles, fun _ => rfl, fun _ => rfl⟩
  constructor
  case pc => rw [hr, hu, State.pushed_st]
  case queue => rw [hr]
  case stores => rw [hr]; simp [hst]
  case full => intro r _; rw [hr]; simp only [hf, hasReg_all]
  case x => intro r hr'; rw [hr]; exact hX r hr'
  case v =>
    intro r hr'
    refine ⟨?_, ?_, ?_⟩
    · rw [hr]; exact hd r hr'
    · rw [hr]; simp only [hf, h.vfull]
    · change (u.retired (s.entryOf i f) fs).tag r = _
      rw [ht, if_neg hr']
  case trap => rw [hr, hu, State.pushed_st]; exact ⟨rfl, rfl, rfl, rfl, rfl, rfl, rfl, rfl, rfl⟩
  case modes => rw [hr, hu, State.pushed_st]; exact ⟨rfl, rfl, rfl, rfl, rfl, rfl, rfl, rfl, rfl, rfl, rfl, rfl, rfl, rfl⟩
  case tiles => rw [hr, hu, State.pushed_st]; exact ⟨rfl, rfl⟩

theorem State.pushed_st_plain {s : State} (h : s.quiet) {i : Instr} {f : VForm} (hxd : f.xd = none)
    (hez : f.emptiesVl = false) : (s.pushed i f).st =
      { s.st with
        dtag := (s.pushed i f).st.dtag
        queue := [s.entryOf i f], seq := s.st.seq + 1
        pc := s.st.pc + 4, redecode := none, waiting := false, timedOut := false } := by
  rw [State.pushed_st, hxd, h.queue, hez]
  simp

theorem lanes_flags_nil (w : Nat) (g : Nat → Option (Nat × FFlags)) (n e : Nat) (v : VReg)
    (h : ∀ k r, g k = some r → r.2 = 0) : (lanes w g n e v).2 = [] := by
  induction n generalizing e v with
  | zero => rfl
  | succ n ih =>
    unfold lanes
    split
    · exact ih _ _
    · rename_i x fl hf
      have h0 : fl = 0 := h e _ hf
      simp only [note, h0, beq_self_eq_true, if_true]
      exact ih _ _

theorem maskLanes_flags_nil (g : Nat → Option (Bool × FFlags)) (n e : Nat) (v : MaskReg)
    (h : ∀ k r, g k = some r → r.2 = 0) : (maskLanes g n e v).2 = [] := by
  induction n generalizing e v with
  | zero => rfl
  | succ n ih =>
    unfold maskLanes
    split
    · exact ih _ _
    · rename_i x fl hf
      have h0 : fl = 0 := h e _ hf
      simp only [note, h0, beq_self_eq_true, if_true]
      exact ih _ _

theorem maskLanes_flags (f : Nat → Option (Bool × FFlags)) (n e : Nat) (v : MaskReg) (w : VReg) :
    (maskLanes f n e v).2 = (lanes 1 (fun k => (f k).map fun r => (r.1.toNat, r.2)) n e w).2 := by
  induction n generalizing e v w with
  | zero => rfl
  | succ n ih =>
    unfold maskLanes lanes
    cases hf : f e with
    | none => simp only [Option.map_none]; exact ih _ _ _
    | some p => simp only [Option.map_some]; rw [ih]

theorem allRaised_maskLanes (f : Nat → Option (Bool × FFlags)) (n e : Nat) (v : MaskReg) (i : Nat) :
    (allRaised (maskLanes f n e v).2).getLsbD i = true ↔
      ∃ k, e ≤ k ∧ k < e + n ∧ ∃ r, f k = some r ∧ r.2.getLsbD i = true := by
  rw [maskLanes_flags f n e v 0, allRaised_lanes]
  constructor
  · rintro ⟨k, h1, h2, r, h3, h4⟩
    rw [Option.map_eq_some_iff] at h3
    obtain ⟨a, ha, rfl⟩ := h3
    exact ⟨k, h1, h2, a, ha, h4⟩
  · rintro ⟨k, h1, h2, r, h3, h4⟩
    exact ⟨k, h1, h2, (r.1.toNat, r.2), by rw [h3]; rfl, h4⟩

/-- The first occurrences after an entry has retired (R72, R74). -/
theorem Strand.retired_ffirst {u : Strand} {e : QEntry} (fs : Raised) (hq : u.queue = [e]) (he : e.scalar = 0) (j : Fin 7) :
    (u.retired e fs).ffirst[j] = ffirstAfter fs e.raised j u.ffirst[j] := by
  rw [Strand.retired_one fs hq he]
  simp [Strand.raise]

/-- An entry that raises nothing leaves the flags and their first occurrences. -/
theorem Strand.retired_nil {s : State} {u : Strand} {e : QEntry} (hq : u.queue = [e]) (he : e.scalar = 0)
    (hu : u.fflags = s.st.fflags ∧ u.ffirst = s.st.ffirst) : s.keepsFlags { s with st := u.retired e [] } := by
  rw [Strand.retired_one (e := e) [] hq he]
  constructor
  · simp only [allRaised]; rw [hu.1]; simp
  · simp only [Strand.raise, hu.2]
    ext i hi
    simp [ffirstAfter, lowestIndex]

/-- An element-wise instruction of a quiet strand: the results, the flags and the frame. -/
theorem State.vector_lanes {s : State} {i : Instr} {f : VForm} {d : Reg} {w : Nat} {g : Nat → Option (Nat × FFlags)}
    (h : s.quiet) (hf : f.fault s = none) (hx : s.usable (f.xs.map Prod.fst) []) (hl : s.vlFits w) (hw : 0 < w)
    (hxd : f.xd = none) (hez : f.emptiesVl = false)
    (hwt : (s.entryOf i f).wtags = [(d, (0 : Byte))])
    (hb : f.body (s.entryOf i f) 0 s.st.vl.toNat (s.pushed i f) = (s.pushed i f).lanesTo d w 0 s.st.vl.toNat g) :
    ∃ t, s.vector i f = t ∧ s.vectorDone t [] [d] ∧ t.st.tag d = 0 ∧ t.st.vm = s.st.vm ∧
      (∀ k, k < vlmaxOf w → t.elem d w k =
        if k < s.st.vl.toNat then (match g k with | some r => r.1 % 2 ^ w | none => s.elem d w k) else s.elem d w k) ∧
      (∀ j, t.st.fflags.getLsbD j = true ↔
        s.st.fflags.getLsbD j = true ∨ ∃ k, k < s.st.vl.toNat ∧ ∃ r, g k = some r ∧ r.2.getLsbD j = true) ∧
      (∀ j : Fin 7, t.st.ffirst[j] = ffirstAfter (lanes w g s.st.vl.toNat 0 (s.st.vget d)).2 0 j s.st.ffirst[j]) ∧
      ((∀ k r, g k = some r → r.2 = 0) → s.keepsFlags t) := by
  have hp := State.pushed_st_plain (i := i) h hxd hez
  have hvf : (s.pushed i f).st.vfull = -1 := by rw [hp]; exact h.vfull
  have hvg : (s.pushed i f).st.vget d = s.st.vget d := by rw [hp]; rfl
  unfold State.lanesTo at hb
  simp only [Nat.sub_zero, State.putV_same _ _ _ _ hvf, hvg] at hb
  have hvec := State.vector_next (u := { (s.pushed i f).st with
      v := if anyLane g s.st.vl.toNat 0 then
        ((s.pushed i f).st.vput d (lanes w g s.st.vl.toNat 0 (s.st.vget d)).1).v else (s.pushed i f).st.v
      vdirty := if anyLane g s.st.vl.toNat 0 then ((s.pushed i f).st.dirty d.toNat).vdirty else (s.pushed i f).st.vdirty })
    h hf (by rw [hxd]; exact hx) (fun _ => hl.1) (by rw [hp]; exact h.streams) (by rw [hp]; exact h.vpoison) hb
  refine ⟨_, hvec, ?_⟩
  obtain ⟨hdone, htag⟩ := State.vectorDone_of (fs := (lanes w g s.st.vl.toNat 0 (s.st.vget d)).2) (dx := []) (dv := [d])
    h (u := { (s.pushed i f).st with
      v := if anyLane g s.st.vl.toNat 0 then
        ((s.pushed i f).st.vput d (lanes w g s.st.vl.toNat 0 (s.st.vget d)).1).v else (s.pushed i f).st.v
      vdirty := if anyLane g s.st.vl.toNat 0 then ((s.pushed i f).st.dirty d.toNat).vdirty else (s.pushed i f).st.vdirty })
    (i := i) (f := f) rfl hwt
    (by
      intro r hr
      have hr : r ≠ d := by simpa using hr
      cases anyLane g s.st.vl.toNat 0
      · simp only [Bool.false_eq_true, if_false]; rw [hp]; rfl
      · simp only [if_true]
        have := Strand.vget_vput (s.pushed i f).st d r (lanes w g s.st.vl.toNat 0 (s.st.vget d)).1
        rw [if_neg hr] at this
        rw [hp] at this ⊢
        exact this)
    (by intro r _; rw [hp]; exact ⟨rfl, rfl⟩)
  refine ⟨hdone.noteStart true, by simpa using htag d (by simp), ?_⟩
  simp only [State.noteStart_st, State.noteStart_elem, State.keepsFlags]
  refine ⟨?_, ?_, ?_, ?_, ?_⟩
  · rw [Strand.retired_one (e := s.entryOf i f) _ (by rw [hp]) rfl]; rw [hp]
  · intro k hk
    have hkw : w * k + w ≤ 16384 := by
      have h1 : k + 1 ≤ 16384 / w := hk
      have h2 := (Nat.le_div_iff_mul_le hw).1 h1
      rw [Nat.mul_comm] at h2; rw [Nat.mul_succ] at h2; exact h2
    have hel : ∀ v : Vector VReg 32, ({ s with st := ({ (s.pushed i f).st with v := v, vdirty := if anyLane g s.st.vl.toNat 0 then ((s.pushed i f).st.dirty d.toNat).vdirty else (s.pushed i f).st.vdirty } : Strand).retired (s.entryOf i f) (lanes w g s.st.vl.toNat 0 (s.st.vget d)).2 } : State).elem d w k = elemOf (v[d.toNat]'(d.isLt)) w k := by
      intro v
      rw [Strand.retired_one (e := s.entryOf i f) _ (by rw [hp]) rfl]; rfl
    rw [hel]
    have hlane := elemOf_lanes w g s.st.vl.toNat 0 (s.st.vget d) k hkw
    simp only [Nat.zero_le, true_and, Nat.zero_add] at hlane
    cases ha : anyLane g s.st.vl.toNat 0
    · rw [lanes_of_not_any _ _ _ _ _ ha] at hlane
      simp only [Bool.false_eq_true, if_false]
      refine Eq.trans ?_ hlane
      rw [hp]; rfl
    · simp only [if_true]
      have := Strand.vget_vput (s.pushed i f).st d d (lanes w g s.st.vl.toNat 0 (s.st.vget d)).1
      rw [if_pos rfl] at this
      refine Eq.trans ?_ hlane
      exact congrArg (fun v => elemOf v w k) this
  · intro j
    rw [Strand.retired_one (e := s.entryOf i f) _ (by rw [hp]) rfl]
    rw [BitVec.getLsbD_or, Bool.or_eq_true, allRaised_lanes, hp]
    simp
  · intro j
    rw [Strand.retired_ffirst (e := s.entryOf i f) _ (by rw [hp]) rfl, hp]
    rfl
  · intro h0
    rw [lanes_flags_nil w g s.st.vl.toNat 0 _ h0]
    exact Strand.retired_nil (by rw [hp]) rfl (by rw [hp]; exact ⟨rfl, rfl⟩)

/-- An instruction of a quiet strand that writes bits of `vm`. -/
theorem State.vector_mask {s : State} {i : Instr} {f : VForm} {g : Nat → Option (Bool × FFlags)}
    (h : s.quiet) (hf : f.fault s = none) (hx : s.usable (f.xs.map Prod.fst) []) (hl : 0 < s.st.vl.toNat)
    (hxd : f.xd = none) (hez : f.emptiesVl = false) (hwt : (s.entryOf i f).wtags = [])
    (hb : f.body (s.entryOf i f) 0 s.st.vl.toNat (s.pushed i f) = (s.pushed i f).maskTo 0 s.st.vl.toNat g) :
    ∃ t, s.vector i f = t ∧ s.vectorDone t [] [] ∧
      (∀ k, k < 2048 → t.st.vm.getLsbD k =
        if k < s.st.vl.toNat then (match g k with | some r => r.1 | none => s.st.vm.getLsbD k) else s.st.vm.getLsbD k) ∧
      (∀ j, t.st.fflags.getLsbD j = true ↔
        s.st.fflags.getLsbD j = true ∨ ∃ k, k < s.st.vl.toNat ∧ ∃ r, g k = some r ∧ r.2.getLsbD j = true) ∧
      (∀ j : Fin 7, t.st.ffirst[j] = ffirstAfter (maskLanes g s.st.vl.toNat 0 s.st.vm).2 0 j s.st.ffirst[j]) ∧
      ((∀ k r, g k = some r → r.2 = 0) → s.keepsFlags t) := by
  have hp := State.pushed_st_plain (i := i) h hxd hez
  have hvm : (s.pushed i f).st.vm = s.st.vm := by rw [hp]
  unfold State.maskTo at hb
  simp only [Nat.sub_zero, hvm] at hb
  have hvec := State.vector_next (u := { (s.pushed i f).st with vm := (maskLanes g s.st.vl.toNat 0 s.st.vm).1 })
    h hf (by rw [hxd]; exact hx) (fun _ => hl) (by rw [hp]; exact h.streams) (by rw [hp]; exact h.vpoison) hb
  refine ⟨_, hvec, State.vectorDone.noteStart ?_ true, ?_⟩
  · exact (State.vectorDone_of (fs := (maskLanes g s.st.vl.toNat 0 s.st.vm).2) (dx := []) (dv := [])
      h (u := { (s.pushed i f).st with vm := (maskLanes g s.st.vl.toNat 0 s.st.vm).1 })
      (i := i) (f := f) rfl hwt (by intro r _; rw [hp]; rfl) (by intro r _; rw [hp]; exact ⟨rfl, rfl⟩)).1
  simp only [State.noteStart_st, State.keepsFlags]
  refine ⟨?_, ?_, ?_, ?_⟩
  · intro k hk
    rw [Strand.retired_one (e := s.entryOf i f) _ (by rw [hp]) rfl]
    have := getLsbD_maskLanes g s.st.vl.toNat 0 s.st.vm k hk
    simp only [Nat.zero_le, true_and, Nat.zero_add] at this
    exact this
  · intro j
    rw [Strand.retired_one (e := s.entryOf i f) _ (by rw [hp]) rfl]
    rw [BitVec.getLsbD_or, Bool.or_eq_true, allRaised_maskLanes, hp]
    simp
  · intro j
    rw [Strand.retired_ffirst (e := s.entryOf i f) _ (by rw [hp]) rfl, hp]
    rfl
  · intro h0
    rw [maskLanes_flags_nil g s.st.vl.toNat 0 _ h0]
    exact Strand.retired_nil (by rw [hp]) rfl (by rw [hp]; exact ⟨rfl, rfl⟩)

/-! ## What the bodies read -/

theorem State.pushed_elem (s : State) (i : Instr) (f : VForm) (r : Reg) (w k : Nat) :
    (s.pushed i f).elem r w k = s.elem r w k := by
  have : (s.pushed i f).st.v = s.st.v := by rw [State.pushed_st]
  simp only [State.elem, Strand.vget, this]

theorem State.pushed_on (s : State) (i : Instr) (f : VForm) (m : Bool) (k : Nat) :
    (s.pushed i f).st.on m k = s.st.on m k := by
  have : (s.pushed i f).st.vm = s.st.vm := by rw [State.pushed_st]
  simp only [Strand.on, this]

theorem State.vlFits.ne {s : State} {w : Nat} (h : s.vlFits w) : ¬s.st.vl = 0 := by
  have := h.1
  rintro h0; rw [h0] at this; simp at this

/-- The tags that a plain instruction writes: those of its destinations, to plain. -/
theorem State.wtags_plain {s : State} (i : Instr) {f : VForm} (h0 : ¬s.st.vl = 0) (ht : f.tags = fun _ _ _ => none) :
    (s.entryOf i f).wtags = f.vd.map fun r => (r, (0 : Byte)) := by
  simp only [State.entryOf, State.captures, VForm.mark, VForm.writes, ht]
  rw [if_neg]
  simp
  exact fun _ => h0

/-- The checks of decode pass (R37, R188). -/
theorem State.fault_none {s : State} {f : VForm} (h : s.quiet) (hc : f.check s = none) (hl : f.legal = true)
    (hr : f.rounds = true → s.st.frm ≠ 4) (hn : ∀ n, f.limit s.st = some n → s.st.vl.toNat ≤ n) : f.fault s = none := by
  have h1 : (f.rounds && s.st.frm == 4) = false := by
    cases hf : f.rounds with
    | false => rfl
    | true => simp; exact hr hf
  unfold VForm.fault
  rw [hc]
  simp only [hl, h.held, h1, h.vlFull]
  cases hm : f.limit s.st with
  | none => rfl
  | some n => have := hn n hm; simp only [Bool.true_and]; rw [if_neg (by simp; omega)]

/-- How the flags of the enabled elements enter, from the loop over them. -/
theorem State.flagsGain_of {s t : State} {m : Bool} {w : Nat} {v : VReg} {g : Nat → Option (Nat × FFlags)} {f : Nat → FFlags}
    (hg : ∀ k, (s.st.on m k = true → ∃ x, g k = some (x, f k)) ∧ (s.st.on m k = false → g k = none))
    (h1 : ∀ j, t.st.fflags.getLsbD j = true ↔
      s.st.fflags.getLsbD j = true ∨ ∃ k, k < s.st.vl.toNat ∧ ∃ r, g k = some r ∧ r.2.getLsbD j = true)
    (h2 : ∀ j : Fin 7, t.st.ffirst[j] = ffirstAfter (lanes w g s.st.vl.toNat 0 v).2 0 j s.st.ffirst[j]) :
    s.flagsGain t m f := by
  have hg' : ∀ k r, g k = some r → s.st.on m k = true ∧ r.2 = f k := by
    intro k r hr
    cases ho : s.st.on m k with
    | true => obtain ⟨x, hx⟩ := (hg k).1 ho; rw [hr] at hx; cases hx; exact ⟨rfl, rfl⟩
    | false => rw [(hg k).2 ho] at hr; cases hr
  intro i
  obtain ⟨a, b, -⟩ := lowestIndex_lanes w g s.st.vl.toNat 0 v i
  refine ⟨?_, fun k hk ho hf hj => ?_, fun h => ?_⟩
  · rw [h1]
    constructor
    · rintro (h | ⟨k, h3, r, h4, h5⟩)
      · exact .inl h
      · obtain ⟨h6, h7⟩ := hg' k r h4
        exact .inr ⟨k, h3, h6, by rw [← h7]; exact h5⟩
    · rintro (h | ⟨k, h3, h4, h5⟩)
      · exact .inl h
      · obtain ⟨x, hx⟩ := (hg k).1 h4
        exact .inr ⟨k, h3, _, hx, h5⟩
  · have ha : lowestIndex i (lanes w g s.st.vl.toNat 0 v).2 = some k := by
      refine a k (by omega) (by omega) ?_ ?_
      · obtain ⟨x, hx⟩ := (hg k).1 ho; exact ⟨_, hx, hf⟩
      · intro j _ h4 r hr
        obtain ⟨h6, h7⟩ := hg' j r hr
        rw [h7]; exact hj j h4 h6
    rw [h2, ffirstAfter, ha]; simp
  · have hb : lowestIndex i (lanes w g s.st.vl.toNat 0 v).2 = none := by
      refine b fun k _ h4 r hr => ?_
      obtain ⟨h6, h7⟩ := hg' k r hr
      rw [h7]; exact h k (by omega) h6
    rw [h2, ffirstAfter, hb]; simp

/-- The element-wise instructions under a mask. -/
theorem State.vector_masked {s : State} {i : Instr} {f : VForm} {d : Reg} {w : Nat} {m : Bool} {g : Nat → Nat × FFlags}
    (h : s.quiet) (hf : f.fault s = none) (hx : f.xs = []) (hl : s.vlFits w) (hw : 0 < w)
    (hxd : f.xd = none) (hez : f.emptiesVl = false) (hvd : f.vd = [d]) (ht : f.tags = fun _ _ _ => none)
    (hb : f.body (s.entryOf i f) 0 s.st.vl.toNat (s.pushed i f) =
      (s.pushed i f).lanesTo d w 0 s.st.vl.toNat ((s.pushed i f).masked m g)) :
    ∃ t, s.vector i f = t ∧ s.vectorDone t [] [d] ∧ t.st.tag d = 0 ∧ t.st.vm = s.st.vm ∧
      s.lanesAre t d w m (fun k => (g k).1) ∧ s.flagsGain t m (fun k => (g k).2) ∧
      ((∀ k, (g k).2 = 0) → s.keepsFlags t) := by
  obtain ⟨t, e, h1, h2, h3, h4, h5, h7, h6⟩ := State.vector_lanes h hf
    (by rw [hx]; exact ⟨by simp [Strand.allReady], by simp [Strand.anyPoison]⟩) hl hw hxd hez
    (by rw [State.wtags_plain i hl.ne ht, hvd]; rfl) hb
  simp only [State.masked, State.pushed_on] at h4 h5 h6 h7
  refine ⟨t, e, h1, h2, h3, ?_, ?_, ?_⟩
  · intro k hk
    rw [h4 k hk]
    by_cases a : k < s.st.vl.toNat <;> by_cases b : s.st.on m k = true <;> simp [a, b]
  · have hm : (s.pushed i f).masked m g = fun k => if s.st.on m k = true then some (g k) else none := by
      funext k; simp only [State.masked, State.pushed_on]
    rw [hm] at h7
    refine State.flagsGain_of (w := w) (v := s.st.vget d) ?_ h5 h7
    intro k
    constructor
    · intro ho; exact ⟨(g k).1, by simp only [ho, if_true]⟩
    · intro ho; simp [ho]
  · intro h0
    refine h6 fun k r hr => ?_
    by_cases hb : s.st.on m k = true
    · rw [if_pos hb] at hr; cases hr; exact h0 k
    · rw [if_neg hb] at hr; cases hr

/-- The instructions that write `vm` under a mask. -/
theorem State.vector_compared {s : State} {i : Instr} {f : VForm} {m : Bool} {g : Nat → Bool × FFlags}
    (h : s.quiet) (hf : f.fault s = none) (hx : f.xs = []) (hl : 0 < s.st.vl.toNat)
    (hxd : f.xd = none) (hez : f.emptiesVl = false) (hvd : f.vd = []) (ht : f.tags = fun _ _ _ => none)
    (hb : f.body (s.entryOf i f) 0 s.st.vl.toNat (s.pushed i f) =
      (s.pushed i f).maskTo 0 s.st.vl.toNat fun k => if (s.pushed i f).st.on m k then some (g k) else none) :
    ∃ t, s.vector i f = t ∧ s.vectorDone t [] [] ∧ s.maskIs t m (fun k => (g k).1) ∧
      s.flagsGain t m (fun k => (g k).2) ∧ ((∀ k, (g k).2 = 0) → s.keepsFlags t) := by
  have h0 : ¬s.st.vl = 0 := by rintro h0; rw [h0] at hl; simp at hl
  obtain ⟨t, e, h1, h4, h5, h7, h6⟩ := State.vector_mask h hf
    (by rw [hx]; exact ⟨by simp [Strand.allReady], by simp [Strand.anyPoison]⟩) hl hxd hez
    (by rw [State.wtags_plain i h0 ht, hvd]; rfl) hb
  simp only [State.pushed_on] at h4 h5 h6 h7
  refine ⟨t, e, h1, ?_, ?_, ?_⟩
  · intro k hk
    rw [h4 k hk]
    by_cases a : k < s.st.vl.toNat <;> by_cases b : s.st.on m k = true <;> simp [a, b]
  · simp only [maskLanes_flags _ s.st.vl.toNat 0 s.st.vm 0] at h7
    refine State.flagsGain_of (w := 1) (v := 0) ?_ (g := fun k => Option.map (fun r : Bool × FFlags => (r.1.toNat, r.2))
      (if s.st.on m k = true then some (g k) else none)) ?_ h7
    · intro k
      constructor
      · intro ho; exact ⟨(g k).1.toNat, by simp [ho]⟩
      · intro ho; simp [ho]
    · intro j
      rw [h5]
      constructor
      · rintro (h | ⟨k, a, r, b, c⟩)
        · exact .inl h
        · exact .inr ⟨k, a, (r.1.toNat, r.2), by rw [b]; rfl, c⟩
      · rintro (h | ⟨k, a, r, b, c⟩)
        · exact .inl h
        · rw [Option.map_eq_some_iff] at b
          obtain ⟨q, hq, rfl⟩ := b
          exact .inr ⟨k, a, q, hq, c⟩
  · intro h0
    refine h6 fun k r hr => ?_
    by_cases hb : s.st.on m k = true
    · rw [if_pos hb] at hr; cases hr; exact h0 k
    · rw [if_neg hb] at hr; cases hr

end Sys2Proof.Machine
end

