-- ==== Sys2Proof/Tests/Slice0.lean ====
section
/-! SUPPORT. The model's own tests: words written out from the encoding tables of the spec and read by the decoder, terms
that `Instr.wf` refuses, one witness for the hypotheses of each clause of each obligation, and a few single steps whose
results are worked out by hand from the rule that each docstring names. -/

namespace Sys2Proof.Tests

open Sys2Proof Sys2Proof.Machine

set_option Elab.async false
set_option synthInstance.maxSize 2000

/-! ## Words of the opcode table (R28 to R33)

Each word is the row's match value in spec/opcode_table.json with the fields of the row put in: d 19, a 10, b 5, fa set
and fb clear, and so on. -/

/-- Each word is read as the instruction beside it. -/
def reads (rows : List (IWord × Instr)) : Bool := rows.all fun r => decodeWord r.1 == some r.2

theorem test_decode_op01 : reads [
    (0x066A28C2, .add ⟨19, 10, 5, true, false⟩), (0x066A29C2, .sub ⟨19, 10, 5, true, false⟩),
    (0x066A2AC2, .and ⟨19, 10, 5, true, false⟩), (0x066A2BC2, .or ⟨19, 10, 5, true, false⟩),
    (0x066A2CC2, .xor ⟨19, 10, 5, true, false⟩), (0x066A2DC2, .shl ⟨19, 10, 5, true, false⟩),
    (0x066A2EC2, .shr ⟨19, 10, 5, true, false⟩), (0x066A2FC2, .sar ⟨19, 10, 5, true, false⟩)] = true := by decide

theorem test_decode_op02_to_03 : reads [
    (0x0A6A28C2, .mul ⟨19, 10, 5, true, false⟩), (0x0A6A29C2, .mulh ⟨19, 10, 5, true, false⟩),
    (0x0A6A2AC2, .mulhn ⟨19, 10, 5, true, false⟩), (0x0A6A2BC2, .div ⟨19, 10, 5, true, false⟩),
    (0x0A6A2CC2, .divn ⟨19, 10, 5, true, false⟩), (0x0A6A2DC2, .rem ⟨19, 10, 5, true, false⟩),
    (0x0A6A2EC2, .remn ⟨19, 10, 5, true, false⟩), (0x0E6A28C2, .min ⟨19, 10, 5, true, false⟩),
    (0x0E6A29C2, .max ⟨19, 10, 5, true, false⟩), (0x0E6A2AC2, .minn ⟨19, 10, 5, true, false⟩),
    (0x0E6A2BC2, .maxn ⟨19, 10, 5, true, false⟩), (0x0E6A2CC2, .slt ⟨19, 10, 5, true, false⟩),
    (0x0E6A2DC2, .sltn ⟨19, 10, 5, true, false⟩), (0x0E6A2EC2, .seq ⟨19, 10, 5, true, false⟩),
    (0x0E6A2FC2, .sne ⟨19, 10, 5, true, false⟩)] = true := by decide

theorem test_decode_op04_to_06 : reads [
    (0x126A00C2, .clz ⟨19, 10, true⟩), (0x126A01C2, .ctz ⟨19, 10, true⟩), (0x126A02C2, .popc ⟨19, 10, true⟩),
    (0x126A03C2, .brev ⟨19, 10, true⟩), (0x126A0442, .sext ⟨19, 10, 1, true⟩), (0x126A0582, .zext ⟨19, 10, 2, true⟩),
    (0x166AA1B2, .addi ⟨19, 10, 0xa1b2⟩), (0x1A6AA1B2, .andi ⟨19, 10, 0xa1b2⟩)] = true := by decide

theorem test_decode_op07_to_0b : reads [
    (0x1E6AA1B2, .ori ⟨19, 10, 0xa1b2⟩), (0x226AA1B2, .xori ⟨19, 10, 0xa1b2⟩), (0x266A002D, .shli ⟨19, 10, 45⟩),
    (0x266A402D, .shri ⟨19, 10, 45⟩), (0x266A802D, .sari ⟨19, 10, 45⟩), (0x266AC02D, .rori ⟨19, 10, 45⟩),
    (0x2A6AA1B2, .slti ⟨19, 10, 0xa1b2⟩), (0x2E755331, .lih ⟨19, 0x155331⟩)] = true := by decide

theorem test_decode_op0c_to_10 : reads [
    (0x32755331, .pchi ⟨19, 0x155331⟩), (0x400A2CD3, .beq ⟨10, 5, 0x4d3⟩), (0x402A2CD3, .bne ⟨10, 5, 0x4d3⟩),
    (0x404A2CD3, .blt ⟨10, 5, 0x4d3⟩), (0x406A2CD3, .bge ⟨10, 5, 0x4d3⟩), (0x408A2CD3, .bltn ⟨10, 5, 0x4d3⟩),
    (0x40AA2CD3, .bgen ⟨10, 5, 0x4d3⟩), (0x40CA04D3, .brf ⟨10, 0x4d3⟩), (0x40EA04D3, .bre ⟨10, 0x4d3⟩)] = true := by decide

theorem test_decode_op11_to_16 : reads [
    (0x46755331, .jmp ⟨19, 0x155331⟩), (0x4A6AA1B2, .jmpr ⟨19, 10, 0xa1b2⟩),
    (0x526A10B3, .ldSigned ⟨19, 10, 2, 0xb3⟩), (0x526A30B3, .ldUnsigned ⟨19, 10, 2, 0xb3⟩),
    (0x566A10B3, .st ⟨19, 10, 2, 0xb3⟩), (0x5A6A28D2, .atadd ⟨19, 10, 5, true, true, false, true, false⟩),
    (0x5A6A29D2, .atfadd ⟨19, 10, 5, true, true, false, true, false⟩),
    (0x5A6A2AD2, .atand ⟨19, 10, 5, true, true, false, true, false⟩),
    (0x5A6A2BD2, .ator ⟨19, 10, 5, true, true, false, true, false⟩),
    (0x5A6A2CD2, .atxor ⟨19, 10, 5, true, true, false, true, false⟩),
    (0x5A6A2DD2, .atmin ⟨19, 10, 5, true, true, false, true, false⟩),
    (0x5A6A2ED2, .atmax ⟨19, 10, 5, true, true, false, true, false⟩),
    (0x5A6A2DD6, .atminn ⟨19, 10, 5, true, true, false, true, false⟩),
    (0x5A6A2ED6, .atmaxn ⟨19, 10, 5, true, true, false, true, false⟩),
    (0x5A6A2FD2, .atswap ⟨19, 10, 5, true, true, false, true, false⟩),
    (0x5A6A2FD6, .atcas ⟨19, 10, 5, true, true, false, true, false⟩)] = true := by decide

theorem test_decode_op17 : reads [
    (0x5E6A2882, .fadd ⟨19, 10, 5, 2, true, false⟩), (0x5E6A2982, .fsub ⟨19, 10, 5, 2, true, false⟩),
    (0x5E6A2A82, .fmul ⟨19, 10, 5, 2, true, false⟩), (0x5E6A2B82, .fdiv ⟨19, 10, 5, 2, true, false⟩),
    (0x5E6A2C82, .fmin ⟨19, 10, 5, 2, true, false⟩), (0x5E6A2D82, .fmax ⟨19, 10, 5, 2, true, false⟩),
    (0x5E6A2E82, .feq ⟨19, 10, 5, 2, true, false⟩), (0x5E6A2F82, .flt ⟨19, 10, 5, 2, true, false⟩)] = true := by decide

theorem test_decode_op18 : reads [
    (0x626A2882, .fmac ⟨19, 10, 5, 2, true, false⟩), (0x626A2982, .fnmac ⟨19, 10, 5, 2, true, false⟩),
    (0x626A0282, .fsqrt ⟨19, 10, 2, true⟩), (0x626A2B82, .fle ⟨19, 10, 5, 2, true, false⟩),
    (0x626A0C82, .fcvt ⟨19, 10, 1, 2, true⟩), (0x626A2D82, .fcvtif ⟨19, 10, true, 1, 2, true⟩),
    (0x626A2E82, .fcvtfi ⟨19, 10, true, 1, 2, true⟩), (0x626A0782, .fclass ⟨19, 10, 2, true⟩)] = true := by decide

theorem test_decode_op19_to_1c : reads [
    (0x66600204, .crr ⟨19, 0x204⟩), (0x666A4204, .crw ⟨19, 10, 0x204⟩), (0x666A8204, .crs ⟨19, 10, 0x204⟩),
    (0x666AC204, .crc ⟨19, 10, 0x204⟩), (0x6A6AD600, .setvl ⟨19, 10, true, 2, 22⟩),
    (0x6E6A2882, .setvlf ⟨19, 10, 5, 2, true, false⟩), (0x72600000, .evpop 19), (0x72600100, .evn 19),
    (0x7000B600, .drain 22), (0x70000200, .crit), (0x70000300, .critx), (0x70000400, .yield), (0x70000500, .endit)] = true := by decide

theorem test_decode_op1d_to_1e : reads [
    (0x74002000, .fenceAcq 4), (0x74006000, .fenceRel 4), (0x7400A000, .fenceFull 4),
    (0x7400E320, .fencex ⟨4, 3, 1⟩), (0x780A3000, .ctxsv 10), (0x780A4000, .ctxld 10), (0x7A605000, .chkpt 19),
    (0x7A6A7000, .tlbinv ⟨19, 10⟩), (0x7A6A8000, .rdst ⟨19, 10⟩), (0x78000000, .scall), (0x78001000, .dbrk),
    (0x78002000, .eret), (0x78006000, .rollback)] = true := by decide

theorem test_decode_op20 : reads [
    (0x826A28B6, .vadd ⟨19, 10, 5, 2, true, 5, true, false⟩),
    (0x826A29B6, .vsub ⟨19, 10, 5, 2, true, 5, true, false⟩),
    (0x826A2AB6, .vand ⟨19, 10, 5, 2, true, 5, true, false⟩),
    (0x826A2BB6, .vor ⟨19, 10, 5, 2, true, 5, true, false⟩),
    (0x826A2CB6, .vxor ⟨19, 10, 5, 2, true, 5, true, false⟩),
    (0x826A2DB6, .vshl ⟨19, 10, 5, 2, true, 5, true, false⟩),
    (0x826A2EB6, .vshr ⟨19, 10, 5, 2, true, 5, true, false⟩), (0x826A2FB6, .vsar ⟨19, 10, 5, 2, true, 5, true, false⟩)] = true := by decide

theorem test_decode_op21 : reads [
    (0x866A28B6, .vmul ⟨19, 10, 5, 2, true, 5, true, false⟩),
    (0x866A29B6, .vmulh ⟨19, 10, 5, 2, true, 5, true, false⟩),
    (0x866A2AB6, .vmulhn ⟨19, 10, 5, 2, true, 5, true, false⟩),
    (0x866A2BB6, .vmin ⟨19, 10, 5, 2, true, 5, true, false⟩),
    (0x866A2CB6, .vmax ⟨19, 10, 5, 2, true, 5, true, false⟩),
    (0x866A2DB6, .vminn ⟨19, 10, 5, 2, true, 5, true, false⟩),
    (0x866A2EB6, .vmaxn ⟨19, 10, 5, 2, true, 5, true, false⟩),
    (0x866A2FB6, .vmac ⟨19, 10, 5, 2, true, 5, true, false⟩)] = true := by decide

theorem test_decode_op22 : reads [
    (0x880A28B6, .vseq ⟨10, 5, 2, true, 5, true, false⟩), (0x880A29B6, .vsne ⟨10, 5, 2, true, 5, true, false⟩),
    (0x880A2AB6, .vslt ⟨10, 5, 2, true, 5, true, false⟩), (0x880A2BB6, .vsltn ⟨10, 5, 2, true, 5, true, false⟩),
    (0x880A2CB6, .vsle ⟨10, 5, 2, true, 5, true, false⟩), (0x880A2DB6, .vslen ⟨10, 5, 2, true, 5, true, false⟩),
    (0x8A6A2E96, .vsel ⟨19, 10, 5, 2, 5, true, false⟩), (0x8A6A07A2, .vmv ⟨19, 10, 2, true, true⟩)] = true := by decide

theorem test_decode_op23 : reads [
    (0x8E6A28B6, .vfadd ⟨19, 10, 5, 2, true, 5, true, false⟩),
    (0x8E6A29B6, .vfsub ⟨19, 10, 5, 2, true, 5, true, false⟩),
    (0x8E6A2AB6, .vfmul ⟨19, 10, 5, 2, true, 5, true, false⟩),
    (0x8E6A2BB6, .vfdiv ⟨19, 10, 5, 2, true, 5, true, false⟩),
    (0x8E6A2CB6, .vfmin ⟨19, 10, 5, 2, true, 5, true, false⟩),
    (0x8E6A2DB6, .vfmax ⟨19, 10, 5, 2, true, 5, true, false⟩),
    (0x8E6A2EB6, .vfmac ⟨19, 10, 5, 2, true, 5, true, false⟩),
    (0x8E6A2FB6, .vfnmac ⟨19, 10, 5, 2, true, 5, true, false⟩)] = true := by decide

theorem test_decode_op24_to_25 : reads [
    (0x926A00A2, .vfsqrt ⟨19, 10, 2, true, true⟩), (0x926A01A2, .vfabs ⟨19, 10, 2, true, true⟩),
    (0x926A02A2, .vfneg ⟨19, 10, 2, true, true⟩), (0x926A03A2, .vfclass ⟨19, 10, 2, true, true⟩),
    (0x926A04A2, .vfrint ⟨19, 10, 2, true, true⟩), (0x940A28B6, .vfeq ⟨10, 5, 2, true, 5, true, false⟩),
    (0x940A29B6, .vfne ⟨10, 5, 2, true, 5, true, false⟩), (0x940A2AB6, .vflt ⟨10, 5, 2, true, 5, true, false⟩),
    (0x940A2BB6, .vfle ⟨10, 5, 2, true, 5, true, false⟩), (0x940A2CB6, .vfunord ⟨10, 5, 2, true, 5, true, false⟩)] = true := by decide

theorem test_decode_op26_to_27 : reads [
    (0x9A6A08A2, .vcvt ⟨19, 10, 1, 2, true, true⟩), (0x9A6A68A2, .vcvtif ⟨19, 10, true, 1, 2, true, true⟩),
    (0x9A6AA8A2, .vcvtfi ⟨19, 10, true, 1, 2, true, true⟩), (0x9A6A3996, .vnef ⟨19, 10, 7, false, 5, true⟩),
    (0x9A6A0296, .vqnt ⟨19, 10, 2, 5, true⟩), (0x9A6A0396, .vwid ⟨19, 10, 2, 5, true⟩),
    (0x9E6A10A2, .vrsum ⟨19, 10, true, false, 2, true, true⟩),
    (0x9E6A11A2, .vrmax ⟨19, 10, true, false, 2, true, true⟩),
    (0x9E6A12A2, .vrmin ⟨19, 10, true, false, 2, true, true⟩),
    (0x9E6A13A2, .vrmaxn ⟨19, 10, true, false, 2, true, true⟩),
    (0x9E6A14A2, .vrminn ⟨19, 10, true, false, 2, true, true⟩),
    (0x9E6A15A2, .vrfsum ⟨19, 10, true, false, 2, true, true⟩),
    (0x9E6A16A2, .vrfmax ⟨19, 10, true, false, 2, true, true⟩),
    (0x9E6A17A2, .vrfmin ⟨19, 10, true, false, 2, true, true⟩)] = true := by decide

theorem test_decode_op28_to_29 : reads [
    (0xA26A0082, .vcompress ⟨19, 10, 2, true⟩), (0xA26A0182, .vexpand ⟨19, 10, 2, true⟩),
    (0xA26A2AA2, .vslideup ⟨19, 10, 5, 2, true, true, false⟩),
    (0xA26A2BA2, .vslidedn ⟨19, 10, 5, 2, true, true, false⟩),
    (0xA26A2CB6, .vperm ⟨19, 10, 5, 2, true, 5, true, false⟩), (0xA2600500, .vmpopc 19), (0xA2600600, .vmfirst 19),
    (0xA40A0002, .vmld ⟨10, true⟩), (0xA6600100, .vmst 19), (0xA40A0202, .vmand ⟨10, true⟩),
    (0xA40A0302, .vmor ⟨10, true⟩), (0xA40A0402, .vmxor ⟨10, true⟩), (0xA40A3702, .vmsgb ⟨10, true, 2, true⟩),
    (0xA4000500, .vmnot), (0xA4000600, .vmset)] = true := by decide

theorem test_decode_op2a_to_2b : reads [
    (0xAA6A14B3, .vld ⟨19, 10, 2, true, 0xb3⟩), (0xAA6A34B3, .vlds ⟨19, 10, 2, true, 0xb3⟩),
    (0xAA6A44B3, .vldb ⟨19, 10, true, 0xb3⟩), (0xAA6A7120, .vldz ⟨19, 10, 2, 9⟩), (0xAA6A8000, .vlr ⟨19, 10⟩),
    (0xAE6A14B3, .vst ⟨19, 10, 2, true, 0xb3⟩), (0xAE6A34B3, .vsts ⟨19, 10, 2, true, 0xb3⟩),
    (0xAE6A44B3, .vstb ⟨19, 10, true, 0xb3⟩), (0xAE6A6000, .vsr ⟨19, 10⟩)] = true := by decide

theorem test_decode_op2c_to_2d : reads [
    (0xB26A28B6, .vldx ⟨19, 10, 5, 2, true, 5, true, false⟩),
    (0xB26A29B6, .vstx ⟨19, 10, 5, 2, true, 5, true, false⟩),
    (0xB66A28F6, .vatadd ⟨19, 10, 5, true, true, true, false, true, true, false⟩),
    (0xB66A29F6, .vatfadd ⟨19, 10, 5, true, true, true, false, true, true, false⟩),
    (0xB66A2AF6, .vatand ⟨19, 10, 5, true, true, true, false, true, true, false⟩),
    (0xB66A2BF6, .vator ⟨19, 10, 5, true, true, true, false, true, true, false⟩),
    (0xB66A2CF6, .vatxor ⟨19, 10, 5, true, true, true, false, true, true, false⟩),
    (0xB66A2DF6, .vatmin ⟨19, 10, 5, true, true, true, false, true, true, false⟩),
    (0xB66A2EF6, .vatmax ⟨19, 10, 5, true, true, true, false, true, true, false⟩),
    (0xB66A2FF6, .vatswap ⟨19, 10, 5, true, true, true, false, true, true, false⟩)] = true := by decide

theorem test_decode_op2e_to_30 : reads [
    (0xBA6A0002, .sbind ⟨19, 10, true⟩), (0xB8C00100, .sunbind 6), (0xB8C00200, .sdrain 6),
    (0xBA6A0300, .sstat ⟨19, 10⟩), (0xBE6A00A2, .vxf ⟨19, 10, 2, true, true⟩), (0xBC4A0102, .cbload ⟨2, 10, true⟩),
    (0xC26A28B6, .mgp ⟨19, 10, 5, 2, true, 5, true, false⟩),
    (0xC26A29B6, .mwedge ⟨19, 10, 5, 2, true, 5, true, false⟩),
    (0xC26A2AB6, .mjoin ⟨19, 10, 5, 2, true, 5, true, false⟩),
    (0xC26A2BB6, .mdot ⟨19, 10, 5, 2, true, 5, true, false⟩),
    (0xC26A2CB6, .msand ⟨19, 10, 5, 2, true, 5, true, false⟩),
    (0xC26A2DB6, .msandChk ⟨19, 10, 5, 2, true, 5, true, false⟩),
    (0xC26A2EB6, .madd ⟨19, 10, 5, 2, true, 5, true, false⟩), (0xC26A2FB6, .msub ⟨19, 10, 5, 2, true, 5, true, false⟩)] = true := by decide

theorem test_decode_op31 : reads [
    (0xC66A00A2, .mrev ⟨19, 10, 2, true, true⟩), (0xC66A01A2, .mdual ⟨19, 10, 2, true, true⟩),
    (0xC66A02A2, .mnorm ⟨19, 10, 2, true, true⟩), (0xC66A03A2, .munit ⟨19, 10, 2, true, true⟩),
    (0xC66A04A2, .mexp ⟨19, 10, 2, true, true⟩), (0xC66A05A2, .mlog ⟨19, 10, 2, true, true⟩),
    (0xC66AB6A2, .mproj ⟨19, 10, 22, 2, true, true⟩), (0xC66A2FB6, .mscale ⟨19, 10, 5, 2, true, 5, true, false⟩)] = true := by decide

theorem test_decode_op32_to_34 : reads [
    (0xCA6A14B3, .mld ⟨19, 10, 2, true, 0xb3⟩), (0xCA6A34B3, .mst ⟨19, 10, 2, true, 0xb3⟩),
    (0xCE60B080, .msetg ⟨19, 22, 2⟩), (0xCE6A0100, .mgettag ⟨19, 10⟩), (0xCE6A02A2, .mcvt ⟨19, 10, 2, true, true⟩),
    (0xD0001000, .ton 2), (0xD2600200, .tzero 19), (0xD16A2B86, .topa ⟨11, 10, 5, 2, 1, true, false⟩),
    (0xD0CA2C9A, .tspa ⟨true, 2, 10, 5, 2, 6, true, false⟩), (0xD0000100, .toff)] = true := by decide

theorem test_decode_op35_to_38 : reads [
    (0xD66B28A0, .tmvr ⟨19, 11, 5, 2, true, false⟩), (0xD66B29A0, .tmvc ⟨19, 11, 5, 2, true, false⟩),
    (0xD56A2AA2, .tmvw ⟨11, 10, 5, 2, true, true, false⟩), (0xDA6A0882, .vspc ⟨19, 10, true, 2, true⟩),
    (0xDA6A0982, .vspx ⟨19, 10, true, 2, true⟩), (0xDE6A28A2, .vbox ⟨19, 10, 5, true, true, false⟩),
    (0xDE6A29A2, .vtri ⟨19, 10, 5, true, true, false⟩), (0xE00A0002, .pload ⟨10, true⟩),
    (0xE00A0102, .penq ⟨10, true⟩), (0xE26A1202, .pcfg ⟨19, 10, 2, true⟩), (0xE2604B00, .pstat ⟨19, 9⟩)] = true := by decide

theorem test_decode_op39_to_3a : reads [
    (0xE40A0002, .xcopy ⟨10, true⟩), (0xE40A0102, .xtrain ⟨10, true⟩), (0xE40A0202, .xcoll ⟨10, true⟩),
    (0xE40A0302, .xpix ⟨10, true⟩), (0xE40A0402, .xwharf ⟨10, true⟩), (0xEA6A0002, .launch ⟨19, 10, true⟩),
    (0xEA6A1102, .cancel ⟨19, 10, 2, true⟩), (0xEA6A2A02, .emit ⟨19, 10, 5, true, false⟩),
    (0xE80A2B02, .bar ⟨10, 5, true, false⟩)] = true := by decide

theorem test_decode_op3b : reads [
    (0xEC8A28C2, .wait ⟨4, 10, 5, true, true, false⟩), (0xEC8A29E2, .vwait ⟨4, 10, 5, true, true, true⟩)] = true := by decide

/-- R34: words that are no instruction: the reserved major opcodes, sub-codes without a row, and fields that must be zero. -/
theorem test_decode_refuses :
    [0x00000000, 0xFFFFFFFF, 0x34000000, 0x38000000, 0x3C000000, 0x4C000000, 0x7C000000, 0xF0000000, 0xF8000000,
      0x78002001, 0x04000020, 0x78009000, 0x64000001, 0x7400F000, 0x40000000 + 8 * 2 ^ 21, 0x80640405].all
      (fun w => (decodeWord (BitVec.ofNat 32 w)).isNone) = true := by decide

/-- R117, R37: a breakpoint with a nonzero imm16[11:0] is no instruction, and without one it is. -/
theorem test_decode_breakpoint :
    decodeWord 0x78001001 = none ∧ decodeWord 0x78001000 = some .dbrk := by decide

/-- Bytes in memory order: the first byte is the least significant (R28). -/
theorem test_decode_bytes : decodeBytes [0xC0, 0x28, 0x64, 0x04, 0xAA] = .ok (.add ⟨3, 4, 5, false, false⟩, [0xAA]) := by
  decide

/-! ## Terms that are no instruction (R29, R31, R32) -/

/-- One term for each check of `Instr.wf`, which it refuses: the rep values 001 to 011, the scopes 110 and 111, an index
that R22 does not assign, a width that a form does not have, and so on. -/
theorem test_illformed :
    [Instr.vadd ⟨3, 4, 5, 2, false, 1, false, false⟩, .vadd ⟨3, 4, 5, 2, false, 3, false, false⟩,
      .vseq ⟨4, 5, 2, false, 2, false, false⟩, .vsel ⟨3, 4, 5, 2, 3, false, false⟩,
      .vfadd ⟨3, 4, 5, 2, false, 2, false, false⟩, .vfeq ⟨4, 5, 2, false, 1, false, false⟩,
      .vperm ⟨3, 4, 5, 2, false, 1, false, false⟩, .vldx ⟨3, 4, 5, 2, false, 1, false, false⟩,
      .vstx ⟨3, 4, 5, 2, false, 1, false, false⟩, .mgp ⟨3, 4, 5, 2, false, 1, false, false⟩,
      .mgp ⟨3, 4, 5, 3, false, 0, false, false⟩, .mscale ⟨3, 4, 5, 3, false, 0, false, false⟩,
      .sext ⟨3, 4, 3, false⟩, .zext ⟨3, 4, 3, false⟩, .fcvt ⟨3, 4, 2, 2, false⟩, .vcvt ⟨3, 4, 1, 1, false, false⟩,
      .crr ⟨3, 0x001⟩, .crw ⟨3, 4, 0x0A0⟩, .crs ⟨3, 4, 0x106⟩, .crc ⟨3, 4, 0x20C⟩, .setvl ⟨3, 4, true, 3, 1⟩, .setvl ⟨3, 4, true, 2, 0⟩, .setvl ⟨3, 4, false, 2, 1⟩, .drain 0,
      .fenceAcq 6, .fenceRel 7, .fenceFull 6, .fencex ⟨6, 0, 0⟩, .vnef ⟨3, 4, 5, true, 2, false⟩, .vqnt ⟨3, 4, 2, 0, false⟩,
      .vwid ⟨3, 4, 2, 0, false⟩, .vrsum ⟨3, 4, true, true, 2, false, false⟩, .vrfmin ⟨3, 4, true, true, 2, false, false⟩,
      .cbload ⟨4, 5, false⟩, .mrev ⟨3, 4, 3, false, false⟩, .mproj ⟨3, 4, 0, 2, false, false⟩,
      .mproj ⟨3, 4, 1, 3, false, false⟩, .mld ⟨3, 4, 3, false, 0⟩, .mst ⟨3, 4, 3, false, 0⟩, .msetg ⟨3, 0, 2⟩,
      .msetg ⟨3, 1, 3⟩, .mcvt ⟨3, 4, 3, false, false⟩, .topa ⟨0, 1, 2, 3, 0, false, false⟩,
      .tspa ⟨false, 0, 1, 3, 3, 0, false, false⟩, .tmvr ⟨3, 0, 4, 3, false, false⟩, .tmvc ⟨3, 0, 4, 3, false, false⟩,
      .tmvw ⟨0, 3, 4, 3, false, false, false⟩, .pstat ⟨3, 10⟩, .wait ⟨6, 3, 4, true, false, false⟩,
      .vwait ⟨6, 3, 4, true, false, false⟩].all (fun i => !i.wf) = true := by decide

/-- Steps of the device are no words. -/
theorem test_steps_have_no_word :
    [Instr.vectorIssue, .trapEntry, .hostWrite, .packageBoot].all (fun i => !i.isWord && (encode i).isNone) = true := by
  decide

/-! ## Witnesses: every hypothesis of every clause is met by a state

The states are built on `run`: a started context whose identity map lets a user strand read, write and execute the first
128 MiB of die 0, with its root on the strand in focus. -/

/-- The hypotheses about a calm strand, as a test. -/
def calmB (s : State) : Bool :=
  s.pace == .lockstep && s.st.queue == [] && s.st.stores == [] && s.st.loads == [] && s.flights == [] &&
    s.st.vpoison == [] && s.st.vfull == -1 && !s.st.held && !s.st.rchk && s.st.vlFull && s.st.vstart == 0 &&
    s.st.starts && s.turn

theorem calm_of {s : State} (h : calmB s = true) : s.calm := by
  simp only [calmB, Bool.and_eq_true, beq_iff_eq, Bool.not_eq_true'] at h
  obtain ⟨⟨⟨⟨⟨⟨⟨⟨⟨⟨⟨⟨h1, h2⟩, h3⟩, h4⟩, h5⟩, h6⟩, h7⟩, h8⟩, h9⟩, h10⟩, h11⟩, h12⟩, h13⟩ := h
  exact ⟨h1, h2, h3, h4, h5, h6, h7, h8, h9, h10, h11, h12, h13⟩

theorem quiet_of {s : State} (h : (calmB s && s.st.streams == []) = true) : s.quiet := by
  simp only [Bool.and_eq_true, beq_iff_eq] at h
  exact ⟨calm_of h.1, h.2⟩

/-- A started context and its root, on strand 0. -/
def run : State := State.reset.loaded

/-- The same with a change of the strand. -/
def runWith (f : Strand → Strand) : State := run.upd f

/-- x3 and x4 hold these values, and x5 the address 0x2000. -/
def regs (a b : Word) : State := ((run.setX 3 a).setX 4 b).setX 5 0x2000

/-- At supervisor level, with a handler at 0x4000. -/
def sup : State := runWith fun t => { t with level := .supervisor, tvec := 0x4000 }

/-- A store of the word 7 to 0x2000, whose data register is x4. -/
def storeEntry : SEntry :=
  { seq := 0, after := none, instr := .st ⟨4, 5, 2, 0⟩, addr := 0x2000, place := .mem 0x2000, size := 4, data := 7
    cmp := 0, dest := none }

/-- An entry of the vector queue. -/
def entry (i : Instr) : QEntry := { instr := i, pc := 0x1000, vl := 4 }

/-- One entry waits in the vector queue. -/
def vadds : State := runWith fun t => { t with queue := [entry (.vadd ⟨3, 4, 5, 2, false, 0, false, false⟩)] }

/-- One load is in flight. -/
def loading : State :=
  runWith fun t => { t with loads := [{ seq := 0, dest := 6, addr := 0x2000, place := .mem 0x2000, size := 8, signed := true }] }

theorem test_meets_DecodeInvertsEncode :
    (Instr.vadd ⟨31, 31, 31, 3, true, 7, true, true⟩).isWord = true ∧
      (Instr.vadd ⟨31, 31, 31, 3, true, 7, true, true⟩).wf = true ∧
      decodeWord 0x1400FFFF = some (.addi ⟨0, 0, 0xFFFF⟩) := by decide

/-- The step of the first word of the table under R93. -/
theorem test_meets_StepRunsDecodedWord :
    let s := State.reset.withFetchWord 32 0x046428C0
    s.inputs = [] ∧ s.mgmt.trip = false ∧ s.mgmt.recovery = false ∧ s.mgmt.ready = true ∧ s.st.decodes = true ∧
      s.st.asyncReady = false ∧ s.st.critFull = false ∧ s.walkBlocked s.st.pc = false ∧ s.fetchWord = some 0x046428C0 ∧
      decodeWord 0x046428C0 = some (.add ⟨3, 4, 5, false, false⟩) := by decide +kernel

/-- Sources and destination full, for a register and for x0 as the destination: the hypothesis of `IntegerResults`,
`DivisionNeverTraps`, `BranchAndJumpTargets` and of the other scalar statements. -/
theorem test_meets_IntegerResults :
    State.reset.usable [3, 4] [5] ∧ State.reset.usable [31, 31] [0] ∧ State.reset.usable [3] [3] ∧
      State.reset.usable [] [0] := by unfold State.usable; decide

/-- x6 empty, pending and ready, for the two outcomes of the constants. -/
theorem test_meets_IntegerResults_constants :
    (runWith fun t => { t with xfull := ~~~(64#32) }).st.xready 6 = false ∧
      (runWith fun t => { t with xpend := 64#32 }).st.xready 6 = false ∧ run.st.xready 6 = true := by decide

theorem test_meets_EmptyRegisterTrapsOrWaits :
    let s := runWith fun t => { t with xfull := ~~~(8#32) }
    Instr.add ⟨5, 3, 4, true, false⟩ ∈ [Instr.add ⟨5, 3, 4, true, false⟩] ∧ s.st.isFull 3 = false ∧
      s.st.isFull 4 = true ∧ s.st.isFull 5 = true ∧ s.st.isFull 0 = true := by decide

theorem test_meets_BranchAndJumpTargets :
    let t := fun a : Word => (regs a 0).st.xget 3
    canonical (t 0x007FFFFFFFFFFFFC) = true ∧ (t 0x007FFFFFFFFFFFFC).toNat % 4 = 0 ∧
      canonical (t 0x007FFFFFFFFFFFFD) = true ∧ (t 0x007FFFFFFFFFFFFD).toNat % 4 ≠ 0 ∧
      canonical (t 0x0080000000000000) = false ∧ canonical (t 0xFF80000000000000) = true := by decide

/-- R88: an address for each clause: not canonical, misaligned, without translation, and without permission; an older atomic
on the table that the walk reads, and a queued vector store. -/
theorem test_meets_AccessChecksInOrder :
    let o : MemOps := ⟨4, 3, 2, 0⟩
    let s := regs 0x08000000 0
    let q : State := { run with mem := setCells 0 0x20000 (bytesOf 8 (3 + 2 ^ 55)) run.mem }
    s.usable [3] [4] ∧ 0x08000000 = s.st.xget o.a + o.disp.signExtend 64 * BitVec.ofNat 64 (2 ^ o.ty.toNat) ∧
      canonical 0x0080000000000000 = false ∧ canonical 0x2002 = true ∧ (0x2002 : Word).toNat % 4 ≠ 0 ∧
      s.walkBlocked 0x08000000 = false ∧
      (runWith fun t => { t with stores := [{ storeEntry with place := .mem 0x20004, dest := some 6 }] }).walkBlocked 0x2000 = true ∧
      (∃ e ∈ (runWith fun t => { t with queue := [entry (.vst ⟨3, 4, 2, false, 0⟩)] }).st.queue,
        writesMem e.instr = true) ∧ s.st.queue = [] ∧
      untranslated 0x08000000 = false ∧ s.translate s.st.stores s.st.ctx 0x08000000 = .missing (2 ^ 27) ∧
      q.translate q.st.stores q.st.ctx 0x2000 = .leaf ⟨2 ^ 27, 3 + 2 ^ 55⟩ ∧ permits .write true (3 + 2 ^ 55) = false := by
  unfold State.usable; decide +kernel

theorem test_meets_ScalarLoadsAndStores :
    let s := regs 0x2000 7
    let a := s.st.xget 3 + (0x1FF : BitVec 10).signExtend 64 * BitVec.ofNat 64 8
    s.usable [3] [4] ∧ s.usable [3, 4] [] ∧ s.pace = .lockstep ∧ s.st.queue = [] ∧ s.st.stores = [] ∧ s.st.loads = [] ∧ s.flights = [] ∧
      s.check .read 8 8 a = .ok (.mem 0x2FF8) false ∧ s.poisonAt a (.mem 0x2FF8) 8 = none ∧
      Memory.wf s.mem = true ∧ (s.context s.st.ctx).ulOn = false ∧ s.check .write 8 8 a = .ok (.mem 0x2FF8) false := by
  unfold State.usable; decide +kernel

theorem test_meets_AtomicReadModifyWrite :
    let s := regs 0x2000 7
    s.usable [3, 4] [0] ∧ s.pace = .lockstep ∧ s.st.queue = [] ∧ s.st.stores = [] ∧ s.st.loads = [] ∧ s.flights = [] ∧
      s.st.anyPoison [0] = false ∧
      Memory.wf s.mem = true ∧ (s.context s.st.ctx).ulOn = false ∧
      s.check .atomic 8 8 (s.st.xget 3) = .ok (.mem 0x2000) false ∧ s.poisonAt (s.st.xget 3) (.mem 0x2000) 8 = none := by
  unfold State.usable; decide +kernel

/-- The store queue of 15 entries takes one more; its head, an atomic at its head, and a load in flight. -/
theorem test_meets_StoreQueueInOrder :
    let s := { regs 0x2000 7 with pace := .runAhead }
    let q := (runWith fun t => { t with stores := [storeEntry] })
    let at_ : SEntry := { storeEntry with instr := .atadd ⟨6, 5, 4, false, false, false, false, false⟩, dest := some 6 }
    let h := (runWith fun t => { t with stores := [at_] })
    let l : LoadFlight := { seq := 0, dest := 6, addr := 0x2000, place := .mem 0x2000, size := 8, signed := true }
    let f := (runWith fun t => { t with loads := [l] })
    (s.usable [3, 4] [] ∧ s.pace = .runAhead ∧ ((s.upd fun t => { t with stores := List.replicate 15 storeEntry }).st.stores.length < 16) ∧
      s.walkBlocked (s.st.xget 3) = false ∧ s.check .write 4 4 (s.st.xget 3) = .ok (.mem 0x2000) false) ∧
    (q.st.stores = storeEntry :: [] ∧ q.st.headReady = true ∧ atomicOf storeEntry.instr = none ∧
      storeEntry.place.home (dieOf q.cur) = dieOf q.cur ∧ Memory.wf q.mem = true ∧ (q.context q.st.ctx).ulOn = false) ∧
    (h.st.stores = at_ :: [] ∧ h.st.headReady = true ∧ atomicOf at_.instr = some (.add, false) ∧ at_.dest = some 6 ∧
      h.poisonAt at_.addr at_.place at_.size = none ∧ h.flights = []) ∧
    (f.st.loads = l :: [] ∧ l.after = none ∧ f.st.stores = [] ∧ f.poisonAt l.addr l.place l.size = none ∧ l.dest ≠ 0 ∧ l.size = 8) := by
  unfold State.usable; decide +kernel

theorem test_meets_StoreQueueInOrder_place : run.writable storeEntry.place := trivial

theorem test_meets_EveryStepKeepsMemoryCanonical :
    let s := State.reset.withFetchWord 32 0x046428C0
    Memory.wf s.mem = true ∧ cellsWf 0 s.mgmt.win = true ∧ (match step s with | .next _ => true | _ => false) = true := by
  decide +kernel

theorem test_meets_FloatingResults :
    State.reset.usable [3, 4] [0] ∧ State.reset.st.queue = [] ∧ State.reset.st.frm ≠ 4 ∧
      State.reset.st.anyPoison [0] = false ∧ (runWith fun t => { t with frm := 4 }).st.frm = 4 ∧
      (runWith fun t => { t with frm := 4 }).usable [3, 4] [0] ∧ widens 1 2 = true ∧ intExact 1 2 = true ∧
      Instr.fadd ⟨5, 3, 4, 2, false, false⟩ ∈ [Instr.fadd ⟨5, 3, 4, 2, false, false⟩] := by
  unfold State.usable; decide

/-- The smallest subnormal of f32, and a signalling NaN. -/
theorem test_meets_FloatRounding :
    (1 < 2 ^ (fmtOf 2).width ∧ unpack (fmtOf 2) 1 = .fin false 1 (-149)) ∧
      (unpack f32 0x7F800001).isNan = true ∧ unpack f32 0x7F800001 = .nan true := by decide

theorem test_meets_ControlRegisterAccess :
    let s := regs 0xFFFF 0
    s.usable [3] [4] ∧ s.st.queue = [] ∧ crPrivileged 0x018 = false ∧ crReadOnly 0x018 = false ∧
      sup.st.level = .supervisor ∧ crPrivileged 0x204 = true ∧ ((4 : Word) &&& ~~~crField 0x018 = 0) ∧
      crIllegal 0x018 4 = false ∧ ((-1 : Word) &&& ~~~crField 0x018 ≠ 0) ∧ crReadOnly 0x006 = true ∧
      2048 < (2049 : Word).toNat ∧ 4 < (5 : Word).toNat ∧ 255 < (256 : Word).toNat ∧
      ((2 : Word).getLsbD 0 = false ∧ (2 : Word) ≠ 0) ∧ (7 : Word).extractLsb' 1 2 = 3 ∧
      ((1 : Word).getLsbD 0 = true ∧ (1 : Word).extractLsb' 3 5 = 0) ∧
      crIllegal 0x018 (4 ||| (1 &&& crField 0x018)) = true ∧ crIllegal 0x080 (9 &&& ~~~(8 &&& crField 0x080)) = true ∧
      (vadds.st.queue ≠ [] ∧ (0x018 : Nat) < 0x100) := by
  unfold State.usable; decide

theorem test_meets_ControlRegistersReadBack :
    crAssigned 0x209 = true ∧ crReadOnly 0x209 = false ∧ (0 : Word) &&& ~~~crField 0x209 = 0 ∧
      crAssigned 0x204 = true ∧ crReadOnly 0x204 = false ∧ crAssigned 0x000 = true ∧ (0x204 : Nat) ≠ 0x000 := by decide

/-- Fibres whose lengths stand at 0x2000, of at most 2,048 elements: none; two, 3 and 5, that a third of 2,041 does not join;
one of 2,049 that is split; the rest of a split one; and a length beyond the map. -/
theorem test_meets_SetVectorLength :
    let s := regs 0x2000 3
    let z := regs 0x2000 0
    let lengths := fun ls : List Nat => { s with mem := setCells 0 0x2000 (ls.flatMap (bytesOf 4)) s.mem }
    let q := lengths [3, 5, 2041]
    let big := lengths [2049]
    let rest := s.upd fun t => { t with vfrem := 88 }
    let reads := fun (s : State) (k : Nat) (L : Nat) =>
      s.check .read 4 4 (s.st.xget 3 + BitVec.ofNat 64 (4 * k)) = .ok (.mem (0x2000 + 4 * k)) false ∧
        s.poisonAt (s.st.xget 3 + BitVec.ofNat 64 (4 * k)) (.mem (0x2000 + 4 * k)) 4 = none ∧
        L = ofBytes (s.placeBytes (.mem (0x2000 + 4 * k)) 4)
    State.reset.st.vlFull = true ∧ State.reset.usable [3] [0] ∧
    (z.usable [3, 4] [5] ∧ z.st.queue = [] ∧ z.st.vlFull = true ∧ z.st.stores = [] ∧ z.st.xget 4 = 0) ∧
    loading.st.loads ≠ [] ∧ s.st.loads = [] ∧ vlmaxOf (8 * 2 ^ (0 : BitVec 2).toNat) = 2048 ∧
    (q.usable [3, 4] [5] ∧ q.st.stores = [] ∧ (q.st.xget 4).toNat = 3 ∧ q.st.vfrem = 0 ∧ reads q 0 3 ∧ reads q 1 5 ∧
      reads q 2 2041 ∧ [3, 5].sum ≤ 2048 ∧ 0 < [3, 5].sum ∧ 2048 < [3, 5].sum + 2041 ∧ [3, 5].length = 2) ∧
    (big.usable [3, 4] [5] ∧ reads big 0 2049) ∧ (rest.st.vfrem ≠ 0 ∧ rest.st.vfrem.toNat = 88) ∧
    (let f := regs 0x08000000 1
     f.usable [3, 4] [5] ∧ f.st.vfrem = 0 ∧ 0 < (f.st.xget 4).toNat ∧
      f.check .read 4 4 (f.st.xget 3 + BitVec.ofNat 64 (4 * 0)) = .bad 0x05 (2 ^ 27)) := by
  unfold State.usable; decide +kernel

theorem test_meets_TrapEntersHandler :
    sup.st.tvec ≠ 0 ∧ (sup.st.held = true → sup.st.level = .user) ∧
      (let s := runWith fun t => { t with tvec := 0x4000, held := true }
       s.st.tvec ≠ 0 ∧ (s.st.held = true → s.st.level = .user)) := by decide

/-- No handler; a root over a held image, and an iteration whose root is on strand 1; nothing older, an older entry, and an
older load. -/
theorem test_meets_TrapsEndStopOrWait :
    let s := sup.upd fun t => { t with held := true, image := vadds.st.queue }
    let r := { run.st with iter := { work := .root, id := 8 } }
    let o := { s.upd (fun t => { t with iter := { work := .launch, id := 7 } }) with others := [(1, r)] }
    ((0x01 : BitVec 8) ≠ 0x12 ∧ run.st.tvec = 0 ∧ (run.st.held = true → run.st.level = .user)) ∧
      (s.st.held = true ∧ s.st.level = .supervisor ∧ s.st.iter.work = .root) ∧
      (o.st.held = true ∧ o.st.level = .supervisor ∧ o.st.iter.work ≠ .root ∧ o.rootOf o.st.ctx = some r ∧
        o.findIter r.iter.id = some r ∧ r.iter.id ≠ o.st.iter.id ∧ o.isSaved r.iter.id = false ∧ r.claims = [] ∧
        r.events.length < 32) ∧
      (run.st.queue = [] ∧ run.st.loads = [] ∧ vadds.st.queue ≠ [] ∧ loading.st.loads ≠ []) := by decide +kernel

/-- A trap held at decode, at user level and over an older image. -/
theorem test_meets_TrapsEndStopOrWait_held :
    let s := runWith fun t => { t with tvec := 0x4000, held := true, hold := some ⟨0x10, 0, 0x1004⟩ }
    s.st.hold = some ⟨0x10, 0, 0x1004⟩ ∧ s.st.run = .running ∧ s.st.queue = [] ∧ s.st.loads = [] ∧ s.st.tvec ≠ 0 ∧
      (s.st.held = true → s.st.level = .user) ∧ sup.st.held = false := by decide

theorem test_meets_EretReturns :
    sup.st.level = .supervisor ∧ sup.st.queue = [] ∧
      (let s := sup.upd fun t => { t with held := true, skip := true, image := [entry (.vadd ⟨3, 4, 5, 2, false, 0, false, false⟩)] }
       s.st.level = .supervisor ∧ s.st.queue = [] ∧ s.st.held = true ∧ s.st.skip = true ∧
        ∀ e ∈ s.st.image.take 1, e.scalar = 0) ∧
      (vadds.upd fun t => { t with level := .supervisor }).st.queue ≠ [] := by decide

/-- The first and the last privileged index. -/
theorem test_meets_PrivilegeTraps :
    run.st.level = .user ∧ (0x200 ≤ (⟨3, 0x200⟩ : CrrOps).idx.toNat ∧ (⟨3, 0x200⟩ : CrrOps).idx.toNat ≤ 0x2FF) ∧
      (0x200 ≤ (⟨3, 4, 0x2FF⟩ : CrOps).idx.toNat ∧ (⟨3, 4, 0x2FF⟩ : CrOps).idx.toNat ≤ 0x2FF) ∧
      sup.st.tvec ≠ 0 ∧ sup.st.held = false ∧ sup.st.level = .supervisor ∧ sup.st.queue = [] := by decide

/-- The all-zero word, and a pc beyond the map. -/
theorem test_meets_UndecodedWordsTrap :
    run.fetchWord = some 0 ∧ decodeWord 0 = none ∧
      (runWith fun t => { t with pc := 0x08000000 }).fetchCheck = .bad 0x05 (2 ^ 27) ∧
      (∀ e ∈ run.st.queue, writesMem e.instr = false) ∧ writesMem (.vst ⟨3, 4, 2, false, 0⟩) = true ∧
      run.inputs = [] ∧ run.mgmt.trip = false ∧ run.mgmt.recovery = false ∧ run.mgmt.ready = true ∧
      run.st.decodes = true ∧ run.st.asyncReady = false := by decide +kernel

/-- A cancellation that a section defers, and a machine check behind it; the same with a load in flight that has its value,
with one of a poisoned line that the strand can go back to, and with one that it cannot; and over a stoppable head above
element 0. -/
theorem test_meets_AsynchronousTrapEntry :
    let p : Pending := { cause := 0x13, tval := 0, unit := 1 }
    let s := runWith fun t => { t with tvec := 0x4000, crit := true, pending := [{ cause := 0x17, tval := 0 }, p] }
    s.st.pending.find? s.st.canTake = some p ∧ s.st.run = .running ∧ s.st.iter.ending = false ∧
      s.st.iter.streaming = false ∧ s.st.restoring = false ∧ s.st.hold = none ∧ s.st.loads = [] ∧ s.st.tvec ≠ 0 ∧
      s.st.held = false ∧ p.cause = 0x13 ∧
      (let l := s.upd fun t => { t with loads := loading.st.loads }
       let u : Undo := ⟨some 0, false, [], [], true, 0, 0, 0, none, none⟩
       let b : State := { l.upd fun t => { t with undo := [u] } with poison := [0x80] }
       l.st.loads.map l.heldBack = [false] ∧ (b.st.loads.map b.heldBack = [true] ∧ b.st.canRewind 0 = true) ∧
        (b.poisonAt 0x2000 (.mem 0x2000) 8).isSome = true ∧ l.st.canRewind 0 = false ∧
        (l.st.loads.all fun x => x.seq == 0 && x.dest != 0) = true) ∧
      (let e := entry (.vadd ⟨3, 4, 5, 2, false, 0, false, false⟩)
       let h := s.upd fun t => { t with queue := [e], vstart := 2 }
       h.st.queue.head? = some e ∧ (formOf e).any (fun f => f.grain != 0) = true ∧ h.st.vstart ≠ 0) := by
  decide +kernel

/-- A queue of one record; 31 claims; 32 claims. -/
theorem test_meets_EventQueue :
    let e : EvRec := ⟨1, 2, 0, 0, 0x2000, 0⟩
    let s := runWith fun t => { t with events := [e] }
    let c := fun n => runWith fun t => { t with claims := List.replicate n 7 }
    (s.usable [] [3] ∧ s.st.claims = [] ∧ s.st.events = e :: []) ∧
      ((c 31).usable [] [3] ∧ (c 31).st.claims.length < 32 ∧ (c 31).st.claims ≠ []) ∧
      (run.st.claims.length < 32 ∧ run.st.events = []) ∧
      ((c 32).usable [] [0] ∧ (c 32).st.claims.length = 32) := by
  unfold State.usable; decide

theorem test_meets_CriticalSections :
    let s := sup.upd fun t => { t with level := .user, crit := true, critCount := 4096 }
    let u := sup.upd fun t => { t with crit := true, critDepth := 1, pending := [{ cause := 0x17, tval := 0 }] }
    run.st.crit = false ∧ (s.st.crit = true ∧ s.st.critSusp = false) ∧
      (u.st.crit = true ∧ u.st.critSusp = true ∧ (∀ p ∈ u.st.pending, p.cause = 0x17) ∧ u.st.tvec ≠ 0 ∧ u.st.held = false) ∧
      (s.upd fun t => { t with queue := vadds.st.queue }).st.queue ≠ [] ∧ s.st.loads = [] ∧
      Instr.yield ∈ [Instr.crit, .endit, .yield, .wait ⟨1, 6, 7, true, false, false⟩] ∧
      (4096 ≤ s.st.critCount ∧ s.st.queue = [] ∧ s.fetchWord = some 0 ∧ s.st.tvec ≠ 0 ∧ s.st.held = false) ∧
      run.st.inSection = false ∧ run.coreFull (coreOf run.cur) = false := by decide +kernel

/-- Nothing outstanding; each queue that a bit of the mask names, with something in it; reads and stores that a fence
orders; a class with nothing, and one with an entry. -/
theorem test_meets_DrainsAndFences :
    let st := runWith fun t => { t with stores := [storeEntry], claims := [6] }
    let cp := { vadds with posts := [⟨7, 0, 1, 0, ⟨0, 0, 0, 0, 0, 0⟩⟩] }
    let ld := runWith fun t => { t with queue := [entry (.vld ⟨3, 4, 2, false, 0⟩)] }
    (run.st.queue = [] ∧ run.st.stores = [] ∧ run.st.loads = [] ∧ run.st.claims = [] ∧ run.st.draining = false ∧
      run.commandsOf run.st.iter.id = [] ∧ run.itemsOf run.st.iter.id = [] ∧ run.posts = []) ∧
    ((31 : Reg).getLsbD 0 = true ∧ vadds.st.queue ≠ [] ∧ (31 : Reg).getLsbD 1 = true ∧ st.st.stores ≠ [] ∧
      (31 : Reg).getLsbD 2 = true ∧ (31 : Reg).getLsbD 3 = true ∧ (∃ p ∈ cp.posts, p.iter = cp.st.iter.id) ∧
      (31 : Reg).getLsbD 4 = true ∧ st.st.claims ≠ []) ∧
    ((5 : BitVec 3) ≠ 0 ∧ loading.st.loads ≠ [] ∧ (∃ e ∈ ld.st.queue, onLs e.instr = true) ∧
      run.classBusy 0 = false ∧ ld.classBusy 0 = true) := by decide +kernel

/-- `wait` on the word at 0x2000, which is 0, for each condition; a sleeper with and without a time-out; the barrier word
with no arrival, with the last one to come, with one too many, and a mark of the same and of another phase. -/
theorem test_meets_WaitsAndBarriers :
    let s := regs 0x2000 0
    let z := runWith fun t => { t with sleep := .word 0x2000, wto := 5 }
    s.st.inSection = false ∧ s.usable [3, 4] [] ∧ s.st.queue = [] ∧ s.st.stores = [] ∧ s.st.loads = [] ∧
      s.check .read 8 8 (s.st.xget 3) = .ok (.mem 0x2000) false ∧ s.poisonAt (s.st.xget 3) (.mem 0x2000) 8 = none ∧
      ofBytes (s.placeBytes (.mem 0x2000) 8) = (s.st.xget 4).toNat % 2 ^ 64 ∧
      (List.range 6).all (fun c => (Instr.wait ⟨BitVec.ofNat 5 c, 3, 4, true, false, false⟩).wf) = true ∧ s.st.wto = 0 ∧
      (z.st.sleep = .word 0x2000 ∧ z.st.wto ≠ 0 ∧ z.args.flag = false) ∧
      (let o := s.upd fun t => { t with wto := 5, timedOut := true }
       o.st.inSection = false ∧ o.usable [3, 4] [] ∧ o.st.wto ≠ 0 ∧ o.st.timedOut = true) := by
  unfold State.usable; decide +kernel

theorem test_meets_WaitsAndBarriers_bar :
    let s := regs 0x2000 1
    let w := fun n : Nat => { regs 0x2000 2 with mem := setCells 0 0x2000 (bytesOf 8 n) run.mem }
    let m := fun ph => (regs 0x2000 2).upd fun t => { t with mark := some (0x2000, ph), sleep := .barrier 0x2000 ph }
    (s.st.inSection = false ∧ s.usable [3, 4] [] ∧ s.st.queue = [] ∧ s.st.stores = [] ∧ s.classBusy 0 = false ∧
      s.barCheck 0x2000 = .ok (.mem 0x2000) false ∧ s.poisonAt 0x2000 (.mem 0x2000) 8 = none ∧ Memory.wf s.mem = true) ∧
    ((regs 0x2000 0).st.xget 4 = 0 ∧ 2 ^ 32 ≤ ((regs 0x2000 0x100000000).st.xget 4).toNat ∧
      (s.st.xget 4 ≠ 0 ∧ (s.st.xget 4).toNat < 2 ^ 32)) ∧
    s.st.mark = none ∧ 0 + 1 = (s.st.xget 4).toNat ∧
    ((w 2).st.xget 4).toNat ≤ ofBytes ((w 2).placeBytes (.mem 0x2000) 8) % 2 ^ 32 ∧
    ofBytes ((w 0).placeBytes (.mem 0x2000) 8) % 2 ^ 32 + 1 < ((w 0).st.xget 4).toNat ∧
    ((m 0).st.mark = some (0x2000, 0) ∧ (m 7).st.mark = some (0x2000, 7) ∧
      BitVec.ofNat 32 (ofBytes ((m 0).placeBytes (.mem 0x2000) 8) / 2 ^ 32) = 0 ∧
      (m 7).st.sleep = .barrier 0x2000 7 ∧ (m 7).barCheck 0x2000 = .ok (.mem 0x2000) false) := by
  unfold State.usable; decide +kernel

theorem test_meets_WaitsAndBarriers_undo : run.noUndo (.mem 0x2000) := by unfold State.noUndo; decide

/-- Select values 0, 1 and 2 of `tlbinv`, with a load of another strand through a page of 64 KiB that holds the address and
through one that does not; selectors of `rdst` with a reserved bit, die 5, class 7, a misaligned one, the selector 0, and one
of another word. -/
theorem test_meets_SupervisorReads :
    let s := (sup.setX 3 0x2000).setX 4 1
    s.st.level = .supervisor ∧ s.usable [3, 4] [] ∧ s.usable [3] [4] ∧ s.st.queue = [] ∧ (1 : Word).toNat ≤ 1 ∧
      1 < (2 : Word).toNat ∧ s.classBusy 0 = false ∧ s.classBusy 1 = false ∧
      (let l : LoadFlight := { seq := 0, dest := 6, addr := 0x2008, place := .mem 0x2008, size := 8, signed := true, page := 2 ^ 16 }
       let o := { s with others := [(1, { loading.st with ctx := 1, loads := [l] })] }
       o.st.level = .supervisor ∧ o.usable [3, 4] [] ∧ (l.page ≠ 0 ∧ l.addr.toNat % 2 ^ 56 / l.page = 0x2000 / l.page) ∧
        0x12008 % 2 ^ 56 / l.page ≠ 0x2000 / l.page ∧ ∃ t ∈ o.strandsOf o.st.ctx, l ∈ t.loads) ∧
      (∀ t ∈ s.strandsOf s.st.ctx, t.stores = [] ∧ t.loads = [] ∧ t.streams = []) ∧
      (BitVec.extractLsb' 48 16 (0x1000000000000 : Word) ≠ 0) ∧ 4 < (BitVec.extractLsb' 45 3 (0xA00000000000 : Word)).toNat ∧
      6 < (BitVec.extractLsb' 40 5 (0x70000000000 : Word)).toNat ∧ BitVec.extractLsb' 0 3 (1 : Word) ≠ 0 ∧
      BitVec.extractLsb' 48 16 (8 : Word) = 0 ∧ (BitVec.extractLsb' 45 3 (8 : Word)).toNat ≤ 4 ∧
      (BitVec.extractLsb' 40 5 (8 : Word)).toNat ≤ 6 ∧ (match s.stateWord s.st.ctx false 8 with | .word none w => w == 0 | _ => false) = true := by
  unfold State.usable; decide +kernel

theorem test_meets_CheckpointAndRollback :
    let r : UndoRec := ⟨0, 0x100, 0, 0x2000, 0x3000, false⟩
    let log := fun bad rs => { run.setContext 1 { run.context 1 with ulOn := true, ulBad := bad, ulLog := rs } with
      mem := setCells 0 0x2000 (bytesOf 8 0x4000) run.mem }
    let line := fun s : State => ofBytes (bytesAt (memGet s.mem) r.place 8) / 64 * 64
    populated (line (log false [r])) = true ∧ placeOfPhys r.skew (line (log false [r])) = .mem 0x4000 ∧
      Memory.wf (log false [r]).mem = true ∧ populated (6 * 2 ^ 49) = false ∧
      (∀ e ∈ run.st.queue, touchesMem e.instr = false) ∧ loading.st.loads ≠ [] ∧
    run.usable [] [3] ∧ run.st.stores = [] ∧ run.st.loads = [] ∧ run.st.queue = [] ∧ run.flights = [] ∧
      (runWith fun t => { t with stores := [storeEntry] }).st.stores ≠ [] ∧ Memory.wf run.mem = true ∧
      ((log true []).context (log true []).st.ctx).ulBad = true ∧
      (((log false []).context (log false []).st.ctx).ulBad = false ∧
        ((log false []).context (log false []).st.ctx).ulLog = []) ∧
      (((log false [r]).context (log false [r]).st.ctx).ulBad = false ∧
        ((log false [r]).context (log false [r]).st.ctx).ulLog = [r]) ∧
      (run.poison.contains (0x2000 / 64) = false ∧ run.poison.contains (0x3000 / 64) = false ∧
        ({ log false [r] with poison := [0x3000 / 64] } : State).poison.contains (r.data / 64) = true) := by
  unfold State.usable; decide +kernel

/-- A store to 0x3000 in an interval whose region lies at 0x2000: its first record is written; its line is logged already;
the region is full, and the strand itself started the interval. -/
theorem test_meets_CheckpointAndRollback_logged :
    let on := fun lim bad rs => ((run.setX 3 0x3000).setX 4 7).setContext 1 { run.context 1 with
      ulOn := true, ulbase := 0x2000, ullim := lim, ulBad := bad, ulLog := rs }
    let s := on 0x2100 false []
    let logged := on 0x2100 false [⟨0, 0xC0, 0, 0x2000, 0x2040, false⟩]
    let full := on 0x2000 false []
    s.usable [3, 4] [] ∧ s.pace = .lockstep ∧ s.st.queue = [] ∧ s.st.stores = [] ∧ s.st.loads = [] ∧ s.flights = [] ∧
      Memory.wf s.mem = true ∧ s.check .write 8 8 (s.st.xget 3) = .ok (.mem 0x3000) false ∧
      (s.context 1).ulOn = true ∧ 0x3000 % 64 + 8 ≤ 64 ∧ s.inUndoRegion 1 (s.st.xget 3) = false ∧
      s.skewAt 1 (s.st.xget 3) = 0 ∧ s.undoPlace 1 0 = some (0x2000, 0x2040) ∧
      (∃ r ∈ (logged.context 1).ulLog, r.line = 0x3000 / 64) ∧ full.undoPlace 1 0 = none ∧
      full.st.iter.work ≠ .none ∧ full.st.iter.id = (full.context 1).ulOwner ∧
      full.isSaved (full.context 1).ulOwner = false ∧ full.st.claims = [] ∧ full.st.events.length < 32 := by
  unfold State.usable; decide +kernel

/-- The pages of an area at `b` of the identity map. -/
def areaAt (b : Nat) : List AreaPage := (List.range areaPages).map fun i => ⟨.mem (b + 4096 * i), 0⟩

/-- A save area at 0x100000, and a misaligned one. The area is all zero, which R129 allows, and one with 65 image entries is
refused. A queue, a page beyond the map, and tiles that are granted. -/
theorem test_meets_SaveAndLoadContext :
    let s := sup.setX 3 0x100000
    let z := { s with mem := setCells 0 0x100010 [65] s.mem }
    let ps := areaAt 0x100000
    let busy := s.upd fun t => { t with queue := vadds.st.queue }
    let far := sup.setX 3 0x07FFF000
    let freed := s.upd fun t => { t with tonOwned := 0, vdirty := t.vdirty &&& 0xFFFFFFFF, tonPend := none }
    s.st.level = .supervisor ∧ s.usable [3] [] ∧ (canonical 0x100800 = true ∧ (0x100800 : Word).toNat % 4096 ≠ 0) ∧
      (s.st.xget 3).toNat % 4096 = 0 ∧ s.st.queue = [] ∧ s.st.stores = [] ∧ s.st.loads = [] ∧ s.st.draining = false ∧
      s.st.xpoison = 0 ∧ s.st.vpoison = [] ∧ (s.context s.st.ctx).ulOn = false ∧
      s.flights = [] ∧ Memory.wf s.mem = true ∧ busy.st.saveWaits = true ∧ busy.st.loadWaits = true ∧
      (s.upd fun t => { t with image := vadds.st.queue }).st.loadWaits = true ∧
      s.st.loadWaits = false ∧ s.st.tonPend = none ∧ (s.st.events = [] ∧ s.st.notices = []) ∧
      pagePlaces (fun x => far.check .read 1 4096 x) (far.skewSeen far.st.stores far.st.ctx) (far.st.xget 3) areaPages 0 =
        .error (0x05, 0x08000000) ∧
      pagePlaces (fun x => s.check .write 1 4096 x) (s.skewSeen s.st.stores s.st.ctx) (s.st.xget 3) areaPages 0 = .ok ps ∧
      pagePlaces (fun x => s.check .read 1 4096 x) (s.skewSeen s.st.stores s.st.ctx) (s.st.xget 3) areaPages 0 = .ok ps ∧
      freed.canGrant 4 s.stamp = true ∧
      s.areaPoison (s.st.xget 3) ps (s.areaReader ps) = none ∧ areaLegal (z.areaReader ps) = false ∧
      areaLegal (s.areaReader ps) = true ∧ (s.areaReader ps) 0x16 1 = 0 ∧
      (s.loadArea (s.areaReader ps) (some 3) none).toBool = true ∧
      (freed.loadArea (s.areaReader ps) (some 3) none).toBool = true := by
  unfold State.usable; decide +kernel

theorem areaAt_place (b i : Nat) : areaPlace (areaAt b) i = if i < 90112 then some (.mem (b + i)) else none := by
  unfold areaPlace areaAt
  by_cases h : i / 4096 < 22
  · have hi : i < 90112 := by omega
    simp only [List.getElem?_map, List.getElem?_range (show i / 4096 < areaPages from h), Option.map_some, Place.along,
      storageOf, beq_self_eq_true, Bool.true_or, if_true, hi]
    congr 2
    omega
  · have hi : ¬i < 90112 := by omega
    have hn : (List.range areaPages)[i / 4096]? = none := by
      rw [List.getElem?_eq_none]
      simpa [areaPages] using h
    simp only [List.getElem?_map, hn, Option.map_none, hi, if_false]

theorem areaAt_apart {b : Nat} (h : b % 64 = 0) : pagesApart (areaAt b) := by
  constructor
  · intro g hg p hp
    simp only [areaAt, List.mem_map, List.mem_range] at hg
    obtain ⟨i, -, rfl⟩ := hg
    simp only [Place.mem.injEq] at hp
    omega
  · intro i j g hi h1 h2
    rw [areaAt_place, if_pos hi] at h1
    rw [areaAt_place] at h2
    split at h2
    · simp only [Option.some.injEq] at h1 h2
      subst h1
      simp only [Place.mem.injEq] at h2
      omega
    · cases h2

theorem test_meets_SaveAndLoadContext_apart : pagesApart (areaAt 0x100000) := areaAt_apart (by decide)
/-- A strand with a vector length, x3 holding 0x2000. -/
def vec (vl : BitVec 12) : State := (run.setX 3 0x2000).upd fun t => { t with vl := vl }

/-- The same on a page with the D attribute, a block of format 4 at 0x2000 and one in v5. -/
def dvec (vl : BitVec 12) : State :=
  let s := (vec vl).upd fun t => t.vput 5 4
  { s with mem := setCells 0 0x2000 [4] (setCells 0 0x20000 (bytesOf 8 (3 + 31 * 2 ^ 55)) run.mem) }

/-- v7 of a strand. -/
def withV (s : State) (r : Reg) (x : VReg) : State := s.upd fun t => t.vput r x

/-- Three elements, with indices in v7 and a stride of 64. -/
def vec3 : State := (withV (vec 3) 7 (2 + 5 * 2 ^ 32)).upd fun t => { t with vs := 64 }

/-- The lengths 1 and 512 of 32-bit elements, and all 2,048 of 8 bits: also the hypotheses of the other vector results. -/
theorem test_meets_VectorIntegerResults :
    (vec 1).quiet ∧ (vec 512).quiet ∧ (vec 2048).quiet ∧ (vec 1).vlFits 64 ∧ (vec 512).vlFits 32 ∧
      (vec 2048).vlFits 8 ∧ ((5 : BitVec 3) = 0 ∨ (3 : Reg) ≠ 5) :=
  ⟨quiet_of (by decide), quiet_of (by decide), quiet_of (by decide), by unfold State.vlFits; decide,
    by unfold State.vlFits; decide, by unfold State.vlFits; decide, by decide⟩

theorem test_meets_VectorCompareResults : (vec 4).quiet ∧ (vec 4).vlFits (8 * 2 ^ (2 : BitVec 2).toNat) ∧
    (vec 4).vlFits (fmtOf 3).width :=
  ⟨quiet_of (by decide), by unfold State.vlFits; decide, by unfold State.vlFits; decide⟩

theorem test_meets_VectorFloatingResults : (vec 256).quiet ∧ (vec 256).vlFits (fmtOf 3).width ∧ (vec 256).st.frm ≠ 4 :=
  ⟨quiet_of (by decide), by unfold State.vlFits; decide, by decide⟩

/-- A conversion that widens, a block of format 4 to be widened, a hole, and three different registers. -/
theorem test_meets_VectorConversions :
    let s := withV (dvec 4) 6 0xFF
    s.quiet ∧ s.vlFits (max (fmtOf 0).width (fmtOf 3).width) ∧ ((fmtOf 0).width = (fmtOf 3).width ∨ (3 : Reg) ≠ 4) ∧
      s.st.frm ≠ 4 ∧ s.vlFits (fmtOf 2).width ∧ (3 : BitVec 3) ≠ 0 ∧
      (∀ j, j * (496 / 4) < s.st.vl.toNat → s.elem 5 512 j % 256 = 4 ∨ s.elem 5 512 j % 256 = 0xFF) ∧
      (∀ j, j * (496 / 4) < s.st.vl.toNat → s.elem 6 512 j % 256 = 4 ∨ s.elem 6 512 j % 256 = 0xFF) ∧
      s.vlFits 32 ∧ (3 : Reg) ≠ 4 ∧ (3 : Reg) ≠ 5 ∧ (4 : Reg) ≠ 5 := by
  have one : ∀ j, j * (496 / 4) < 4 → j = 0 := by omega
  refine ⟨quiet_of (by decide), by unfold State.vlFits; decide, by decide, by decide, by unfold State.vlFits; decide,
    by decide, ?_, ?_, by unfold State.vlFits; decide, by decide⟩ <;>
  · intro j h
    obtain rfl := one j h
    decide +kernel

theorem test_meets_ReductionsAndScans :
    let s := (vec 8).upd fun t => { t with vsg := 16 }
    s.quiet ∧ s.usable [] [3] ∧ s.usable [] [0] ∧ s.vlFits 32 ∧ s.vlFits (fmtOf 2).width ∧ s.st.frm ≠ 4 ∧ 8 ≤ 2048 ∧
      segmentsOf s.st.vsg s.st.vl.toNat = [(0, 4), (4, 4)] :=
  ⟨quiet_of (by decide), by unfold State.usable; decide, by unfold State.usable; decide, by unfold State.vlFits; decide,
    by unfold State.vlFits; decide, by decide, by decide, by decide +kernel⟩

theorem test_meets_PermutesMasksAndCounts : (vec 2048).quiet ∧ (vec 2048).vlFits 8 ∧ (3 : Reg) ≠ 4 ∧ (vec 8).usable [3] [] ∧
    (vec 8).usable [] [3] ∧ (vec 8).vlFits 64 ∧ ((0 : BitVec 3) = 0 ∨ (3 : Reg) ≠ 3) :=
  ⟨quiet_of (by decide), by unfold State.vlFits; decide, by decide, by unfold State.usable; decide,
    by unfold State.usable; decide, by unfold State.vlFits; decide, by decide⟩

/-- Three 32-bit elements from 0x2000 on, at unit distance, a stride of 64, and the indices of v7; one block with D; 2 bytes
of a whole register; the last places of the page are reached too. -/
theorem test_meets_VectorLoads :
    let s := vec3
    let base := s.st.xget 3 + (0 : BitVec 10).signExtend 64 * BitVec.ofNat 64 4
    s.quiet ∧ s.usable [3] [] ∧ 0 < s.st.vl.toNat ∧ s.st.vl.toNat ≤ 16384 / (8 * 4) ∧
      s.reaches .read true 4 (fun k => base + BitVec.ofNat 64 (k * 4)) (fun k => .mem (0x2000 + 4 * k)) (fun _ => false) ∧
      s.unpoisoned true 4 (fun k => base + BitVec.ofNat 64 (k * 4)) (fun k => .mem (0x2000 + 4 * k)) ∧
      s.reaches .read true 4 (fun k => base + BitVec.ofNat 64 k * s.st.vs) (fun k => .mem (0x2000 + 64 * k)) (fun _ => false) ∧
      s.reaches .read false 4 (fun k => s.st.xget 3 + BitVec.ofNat 64 (s.elem 7 32 (srcb 0 k) * 4))
        (fun k => .mem (0x2000 + 4 * s.elem 7 32 k)) (fun _ => false) ∧
      s.reaches .read false 1 (fun k => s.st.xget 3 + BitVec.ofNat 64 k) (fun k => .mem (0x2000 + k)) (fun _ => false) ∧
      (s.st.xget 3).toNat % 64 = 0 := by
  refine ⟨quiet_of (by decide), by unfold State.usable; decide, ?_⟩
  unfold State.reaches State.unpoisoned
  decide +kernel

theorem test_meets_VectorLoads_blocks :
    let s := dvec 1
    let addr := fun k => s.st.xget 3 + (0 : BitVec 10).signExtend 64 * 64 + BitVec.ofNat 64 (64 * k)
    s.reaches .read false 64 addr (fun k => .mem (0x2000 + 64 * k)) (fun _ => true) ∧
      s.unpoisoned false 64 addr (fun k => .mem (0x2000 + 64 * k)) ∧ (s.placeByte (.mem 0x2000)).toNat = 4 := by
  unfold State.reaches State.unpoisoned
  decide +kernel

/-- `vldz`: a length below 64, and one of 64 with the 8 bytes of a mask that lists nothing. -/
theorem test_meets_VectorLoads_vldz :
    let s := (vec 64).setX 4 8
    let p := fun i => Place.mem (0x2000 + i)
    s.quiet ∧ s.vlFits 8 ∧ s.usable [3, 4] [4] ∧ ((vec 63).st.vl.toNat < 64) ∧ 64 ≤ s.st.vl.toNat ∧
      s.st.vl.toNat < 128 ∧ (4 : Reg) ≠ 0 ∧
      (∀ i, i < 8 + 64 * 1 → s.check .read 1 1 (s.st.xget 3 + BitVec.ofNat 64 i) = .ok (p i) false ∧
        s.poisonAt (s.st.xget 3 + BitVec.ofNat 64 i) (p i) 1 = none) ∧
      8 + 1 * (List.range 64).countP (ofBytes ((List.range 8).map fun i => s.placeByte (p i))).testBit ≤ (s.st.xget 4).toNat := by
  refine ⟨quiet_of (by decide), by unfold State.vlFits; decide, by unfold State.usable; decide, ?_⟩
  decide +kernel

theorem test_meets_VectorStoresAndAtomics :
    let s := vec3
    let base := s.st.xget 3 + (0 : BitVec 10).signExtend 64 * BitVec.ofNat 64 4
    s.quiet ∧ s.usable [3] [] ∧ Memory.wf s.mem = true ∧ (s.context s.st.ctx).ulOn = false ∧ 0 < s.st.vl.toNat ∧
      s.reaches .write true 4 (fun k => base + BitVec.ofNat 64 (k * 4)) (fun k => .mem (0x2000 + 4 * k)) (fun _ => false) ∧
      s.reaches .write true 4 (fun k => base + BitVec.ofNat 64 k * s.st.vs) (fun k => .mem (0x2000 + 64 * k)) (fun _ => false) ∧
      s.reaches .write false 4 (fun k => s.st.xget 3 + BitVec.ofNat 64 (s.elem 7 32 (srcb 0 k) * 4))
        (fun k => .mem (0x2000 + 4 * s.elem 7 32 k)) (fun _ => false) ∧
      s.reaches .write false 1 (fun k => s.st.xget 3 + BitVec.ofNat 64 k) (fun k => .mem (0x2000 + k)) (fun _ => false) ∧
      (dvec 1).reaches .write false 64 (fun k => (dvec 1).st.xget 3 + 0 * 64 + BitVec.ofNat 64 (64 * k))
        (fun k => .mem (0x2000 + 64 * k)) (fun _ => true) ∧
      (2 ≤ (dvec 1).elem 5 512 0 % 256 ∧ (dvec 1).elem 5 512 0 % 256 ≤ 8) := by
  refine ⟨quiet_of (by decide), by unfold State.usable; decide, ?_⟩
  unfold State.reaches
  decide +kernel

/-- Words 2 and 5 do not meet. -/
theorem apart (f : Nat → Nat) (h0 : f 0 = 2) (h1 : f 1 = 5) (j k : Nat) (q : Place) (i i' : Nat) (hj : j < 2) (hk : k < 2)
    (hjk : j ≠ k) (hi : (Place.mem (0x2000 + 4 * f j)).offsetFrom q = some i)
    (hi' : (Place.mem (0x2000 + 4 * f k)).offsetFrom q = some i') : 4 ≤ i ∨ 4 ≤ i' := by
  cases q <;> simp only [Place.offsetFrom, reduceCtorEq, Option.ite_none_right_eq_some, Option.some.injEq] at hi hi'
  obtain rfl | rfl : j = 0 ∨ j = 1 := by omega
  all_goals obtain rfl | rfl : k = 0 ∨ k = 1 := by omega
  all_goals simp only [h0, h1] at hi hi'
  all_goals omega

/-- Two 32-bit atomics at the indices 2 and 5. -/
theorem test_meets_VectorStoresAndAtomics_atomics :
    let s := withV (vec 2) 7 (2 + 5 * 2 ^ 32)
    let p := fun k => Place.mem (0x2000 + 4 * s.elem 7 32 k)
    let addr := fun k => s.st.xget 3 + BitVec.ofNat 64 (s.elem 7 32 k * 4)
    s.quiet ∧ s.usable [3] [] ∧ s.st.vl.toNat = 2 ∧ s.reaches .atomic false 4 addr p (fun _ => false) ∧
      s.unpoisoned false 4 addr p ∧
      (∀ j k q i i', j < 2 → k < 2 → j ≠ k → s.st.on false j = true → s.st.on false k = true →
        (p j).offsetFrom q = some i → (p k).offsetFrom q = some i' → 4 ≤ i ∨ 4 ≤ i') := by
  refine ⟨quiet_of (by decide), by unfold State.usable; decide, by decide +kernel, ?_, ?_, ?_⟩
  · unfold State.reaches; decide +kernel
  · unfold State.unpoisoned; decide +kernel
  · exact fun j k q i i' hj hk hjk _ _ h1 h2 => apart _ (by decide +kernel) (by decide +kernel) j k q i i' hj hk hjk h1 h2

/-- With `frm` 4: forms that never round, and forms that may; and bf16 at the length that fills a register. -/
theorem test_meets_VectorConversions_mode4 :
    let s := (vec 4).upd fun t => { t with frm := 4 }
    s.quiet ∧ s.st.frm = 4 ∧ s.vlFits (max (fmtOf 0).width (fmtOf 3).width) ∧ widens 0 3 = true ∧ intExact 2 3 = true ∧
      widens 3 0 = false ∧ intExact 3 2 = false ∧ (0 : BitVec 3) = 0 ∧ (vec 1024).vlFits (fmtOf 0).width :=
  ⟨quiet_of (by decide), by decide, by unfold State.vlFits; decide, by decide, by decide, by decide, by decide, by decide,
    by unfold State.vlFits; decide⟩

/-- Three atomics with `.ord` on one place. -/
theorem test_meets_VectorStoresAndAtomics_one_place :
    let s := withV (vec 3) 7 (2 + 2 * 2 ^ 32 + 2 * 2 ^ 64)
    let p := fun k => Place.mem (0x2000 + 4 * s.elem 7 32 k)
    let addr := fun k => s.st.xget 3 + BitVec.ofNat 64 (s.elem 7 32 k * 4)
    s.quiet ∧ Memory.wf s.mem = true ∧ s.usable [3] [] ∧ s.reaches .atomic false 4 addr p (fun _ => false) ∧
      s.unpoisoned false 4 addr p ∧ (∀ k, k < s.st.vl.toNat → s.st.on false k = true → p k = .mem 0x2008) ∧
      ∃ k, k < s.st.vl.toNat ∧ s.st.on false k = true := by
  refine ⟨quiet_of (by decide), by decide +kernel, by unfold State.usable; decide, ?_, ?_, by decide +kernel, 0, by decide⟩
  · unfold State.reaches; decide +kernel
  · unfold State.unpoisoned; decide +kernel
/-- Bytes at an address of the identity map. -/
def put (s : State) (a : Nat) (bs : List Byte) : State := { s with mem := setCells 0 a bs s.mem }

/-- The stream descriptor of four words from 0x3000 on, an input in one strip. -/
def streamDesc : List Byte :=
  bytesOf 8 0x3000 ++ bytesOf 4 4 ++ bytesOf 4 1 ++ bytesOf 4 1 ++ bytesOf 4 1 ++ bytesOf 8 4 ++ bytesOf 24 0 ++
    [2, 0, 4, 0, 0, 0, 0, 0]

/-- The stream that it binds. -/
def stream4 (out : Bool) (buf : List Strip) : Stream :=
  { desc := 0x2000, base := 0x3000, counts := (4, 1, 1, 1), strides := (4, 0, 0, 0), width := 2, output := out
    codebook := false, slot := 0, strip := 4, pos := 0, buf := buf }

def bound (out : Bool) (buf : List Strip) : State :=
  { (vec 4).upd fun t => { t with streams := [(24, stream4 out buf)] } with args := { reg := 24 } }

theorem test_meets_Streams_bind :
    let s := put (vec 4) 0x2000 streamDesc
    let p := fun i => Place.mem (0x2000 + i)
    let f := fun off n => ofBytes ((List.range n).map fun i => s.placeByte (p (off + i)))
    s.quiet ∧ 24 ≤ (24 : Reg).toNat ∧ s.usable [3] [] ∧ (s.st.xget 3).toNat % 64 = 0 ∧
      (∀ i, i < 64 → s.check .read 1 1 (s.st.xget 3 + BitVec.ofNat 64 i) = .ok (p i) false ∧
        s.poisonAt (s.st.xget 3 + BitVec.ofNat 64 i) (p i) 1 = none) ∧
      (1 ≤ f 0x08 4 * f 0x0C 4 * f 0x10 4 * f 0x14 4 ∧ f 0x08 4 * f 0x0C 4 * f 0x10 4 * f 0x14 4 ≤ 2 ^ 32) ∧
      f 0x38 1 < 4 ∧ f 0x39 1 < 2 ∧ 1 ≤ f 0x3A 2 ∧ f 0x3A 2 ≤ vlmaxOf (8 * 2 ^ f 0x38 1) ∧ f 0x3C 4 = 0 ∧
      s.unitFree = true := by
  refine ⟨quiet_of (by decide +kernel), by decide, by unfold State.usable; decide, ?_⟩
  decide +kernel

theorem test_meets_Streams :
    let q : Strip := { data := 0, count := 4 }
    (bound false []).calm ∧ 24 ≤ (24 : Reg).toNat ∧ (bound false []).st.streams = [((24 : Reg).toNat, stream4 false [])] ∧
      (stream4 false []).buf = [] ∧ (bound false []).usable [] [3] ∧
      ((bound false [q]).calm ∧ (bound false [q]).vlFits 32 ∧ (3 : Reg) ≠ 24 ∧ (stream4 false [q]).width = 2 ∧
        (stream4 false [q]).pos < (stream4 false [q]).total ∧ q.bad = none ∧
        min (stream4 false [q]).strip ((stream4 false [q]).total - (stream4 false [q]).pos) ≤ q.count) :=
  ⟨calm_of (by decide), by decide, rfl, rfl, by unfold State.usable; decide, calm_of (by decide),
    by unfold State.vlFits; decide, by decide⟩

theorem test_meets_Streams_units :
    let s := bound false []
    let b := stream4 false []
    let p := fun j => Place.mem (0x3000 + 4 * j)
    s.st.streamOf s.args.reg = some b ∧ b.pos < b.total ∧ min b.strip (b.total - b.pos) ≤ vlmaxOf (8 * 2 ^ b.width.toNat) ∧
      (∀ j, j < min b.strip (b.total - b.pos) → s.check .read 4 4 (b.address (b.pos + j)) = .ok (p j) false ∧
        s.poisonAt (b.address (b.pos + j)) (p j) 4 = none) ∧
      (let q : Strip := { data := 7, count := 1, places := [(0x3000, .mem 0x3000, 2 ^ 27)] }
       let t := bound true [q]
       t.st.streamOf t.args.reg = some (stream4 true [q]) ∧ Memory.wf t.mem = true ∧
        (t.context t.st.ctx).ulOn = false) := by decide +kernel

theorem test_meets_Streams_places :
    ∀ x ∈ [((0x3000 : Word), Place.mem 0x3000, 2 ^ 27)], run.writable x.2.1 := by simp [State.writable]

/-- A codebook of two bytes with one-bit indices. -/
def book : Codebook := { addr := 0x2000, iw := 1, etype := 0, entries := [7, 9] }

theorem test_meets_CodebooksAndFlagWaits_book :
    let s := put (vec 4) 0x2000 [1, 0, 2, 0, 0, 0, 0, 0, 0, 0, 0, 0, 0, 0, 0, 0, 7, 9]
    let p := fun i => Place.mem (0x2000 + i)
    let f := fun off n => ofBytes ((List.range n).map fun i => s.placeByte (p (off + i)))
    let t := (vec 4).setCore 0 { CoreSt.reset with codebooks := CoreSt.reset.codebooks.set 0 (some book) }
    s.quiet ∧ t.quiet ∧ s.usable [3] [] ∧ (s.st.xget 3).toNat % 16 = 0 ∧ s.slotBusy ((3 : Reg).truncate 2) = false ∧
      (∀ i, i < 16 + f 2 2 * 2 ^ f 1 1 → s.check .read 1 1 (s.st.xget 3 + BitVec.ofNat 64 i) = .ok (p i) false ∧
        s.poisonAt (s.st.xget 3 + BitVec.ofNat 64 i) (p i) 1 = none) ∧
      1 ≤ f 0 1 ∧ f 0 1 ≤ 8 ∧ f 1 1 ≤ 2 ∧ 1 ≤ f 2 2 ∧ f 2 2 ≤ 2 ^ f 0 1 ∧ f 4 12 = 0 ∧
      t.codebook t.st.cbsel = some book ∧ t.vlFits 8 ∧
      (∀ k, k < t.st.vl.toNat → t.st.on false k = true → t.elem 4 book.iw k < book.entries.length) := by
  refine ⟨quiet_of (by decide +kernel), quiet_of (by decide +kernel), by unfold State.usable; decide, ?_⟩
  unfold State.vlFits
  decide +kernel

/-- One enabled flag at 0x2000, which is 0: equal to the wanted 0, and not greater than it; inside and outside a section. -/
theorem test_meets_CodebooksAndFlagWaits :
    let s := withV (vec 1) 4 0x2000
    s.quiet ∧ s.st.inSection = false ∧ (s.upd fun t => { t with crit := true }).st.inSection = true ∧
      s.vlFits 64 ∧ (4 : Reg).toNat < 31 ∧ s.usable [] [6] ∧ s.st.watchOut = false ∧
      s.reaches .read false 8 (fun k => BitVec.ofNat 64 (s.elem 4 64 k)) (fun _ => .mem 0x2000) (fun _ => false) ∧
      s.unpoisoned false 8 (fun k => BitVec.ofNat 64 (s.elem 4 64 k)) (fun _ => .mem 0x2000) ∧
      (∀ k, k < s.st.vl.toNat → s.st.on false k = true →
        ofBytes (s.placeBytes (.mem 0x2000) 8) = s.elem 5 64 k % 2 ^ 64) := by
  refine ⟨quiet_of (by decide), by decide, by decide, ?_⟩
  unfold State.vlFits State.usable State.reaches State.unpoisoned
  decide +kernel

/-! ### Multivectors -/

/-- v4 and v5 hold multivectors of f32 with these grades, of which `vl` count. -/
def multi (vl : BitVec 12) (ga gb : GMask) : State :=
  (vec vl).upd fun t => { ((t.setDtag 4 (mvTag 2 ga)).setDtag 5 (mvTag 2 gb)) with vgm := ga }

/-- A motor acts on points; and the even products. -/
theorem test_meets_MultivectorProducts :
    let s := multi 2 0b01000 0b10101
    s.quiet ∧ (2 : BitVec 2) ≠ 3 ∧ (0b01000 : GMask) ≠ 0 ∧ (0b10101 : GMask) ≠ 0 ∧ s.st.frm ≠ 4 ∧ 0 < s.st.vl.toNat ∧
      s.st.dtagOf 4 = mvTag 2 0b01000 ∧ s.st.dtagOf 5 = mvTag 2 0b10101 ∧
      [prodMask .gp 0b01000 0b10101, prodMask .wedge 0b01000 0b00001, prodMask .join 0b01000 0b01000,
        prodMask .dot 0b00010 0b01000, 0b01000 ||| 0b10101, 0b01000].all (fun g => g != 0 &&
          decide (s.st.vl.toNat ≤ min (vlmaxM 2 g) (min (vlmaxM 2 0b01000) (vlmaxM 2 0b10101)))) = true ∧
      (0b10101 : GMask).getLsbD 1 = false ∧ (0b10101 : GMask).getLsbD 3 = false :=
  ⟨quiet_of (by decide), by decide +kernel⟩

/-- Bivectors, with the tag that each result needs, and plain scale factors. -/
theorem test_meets_MultivectorUnaries :
    let s := (multi 2 0b00100 0).upd fun t => t.setDtag 5 0
    s.quiet ∧ (2 : BitVec 2) ≠ 3 ∧ (0b00100 : GMask) ≠ 0 ∧ s.st.frm ≠ 4 ∧ 0 < s.st.vl.toNat ∧
      s.st.dtagOf 4 = mvTag 2 0b00100 ∧ dualMask 0b00100 ≠ 0 ∧ (0b00100 : GMask) &&& 0b00100 ≠ 0 ∧
      s.st.vl.toNat ≤ min (vlmaxM 2 0b00100) (vlmaxM 2 0b00100) ∧ s.st.vl.toNat ≤ min 256 (vlmaxM 2 0b00100) ∧
      s.st.vl.toNat ≤ min (vlmaxM 2 0b10101) (vlmaxM 2 0b00100) ∧ s.st.dtagOf 5 = 0 ∧ s.st.vl.toNat ≤ vlmaxOf 32 ∧
      (0b00100 : GMask).getLsbD 1 = false ∧ (0b00100 : GMask).getLsbD 3 = false :=
  ⟨quiet_of (by decide), by decide +kernel⟩

/-- Two vectors of four components from 0x2000 on. -/
theorem test_meets_MultivectorUnaries_memory :
    let s := (multi 2 0b00010 0).upd fun t => t.setDtag 3 (mvTag 2 0b00010)
    let p := fun j => Place.mem (0x2000 + 4 * j)
    let addr := fun j => s.st.xget 3 + (0 : BitVec 10).signExtend 64 * BitVec.ofNat 64 4 + BitVec.ofNat 64 (j * 4)
    s.quiet ∧ s.usable [3] [] ∧ s.st.vgm ≠ 0 ∧ gradeCount s.st.vgm = 4 ∧ s.st.vl.toNat = 2 ∧
      s.st.vl.toNat ≤ vlmaxM 2 s.st.vgm ∧ s.st.dtagOf 3 = mvTag 2 s.st.vgm ∧ Memory.wf s.mem = true ∧
      (s.context s.st.ctx).ulOn = false ∧
      ∀ j, j / 4 < 2 → canonical (addr j) = true ∧ (addr j).toNat % 4 = 0 ∧
        s.check .read 1 4 (addr j) = .ok (p j) false ∧ s.check .write 1 4 (addr j) = .ok (p j) false ∧
        s.poisonAt (addr j) (p j) 4 = none := by
  refine ⟨quiet_of (by decide), by unfold State.usable; decide, by decide, by decide, by decide, by decide +kernel,
    by decide +kernel, by decide +kernel, by decide +kernel, ?_⟩
  intro j hj
  have h : j < 8 := by omega
  clear hj
  revert j
  decide +kernel

/-! ### Tiles, sparsity, rays -/

/-- A strand that owns two tiles. -/
def tiled (vl : BitVec 12) : State := (vec vl).upd fun t => { t with tonOwned := 2 }

/-- No tile owned: a request that is granted, one that waits because a sister holds all eight tiles, and a waiting one. -/
theorem test_meets_TileOwnership :
    let hog : State := { run with others := [(1, { Strand.reset with tonOwned := 4 }), (2, { Strand.reset with tonOwned := 4 })] }
    let w := runWith fun t => { t with tonPend := some ⟨4, 0, true, false⟩ }
    (run.st.tonOwned = 0 ∧ run.st.tonPend = none ∧ run.canGrant ((3 : BitVec 2).toNat + 1) run.stamp = true) ∧
      (hog.st.tonOwned = 0 ∧ hog.st.tonPend = none ∧ hog.canGrant ((0 : BitVec 2).toNat + 1) hog.stamp = false) ∧
      (w.st.tonOwned = 0 ∧ w.st.tonPend = some ⟨4, 0, true, false⟩ ∧ w.canGrant 4 0 = true) ∧
      ((runWith fun t => { t with tonPend := some ⟨2, 0, false, true⟩ }).canGrant 2 0 = true) ∧
      ((tiled 1).st.tonOwned ≠ 0 ∧ (tiled 1).st.held = false ∧ (tiled 1).st.busy = false) := by decide +kernel

/-- One-step and two-step products; `tspa` with the metadata of group 0 to 31 all well formed; a handle beyond the tiles. -/
theorem test_meets_TileInstructions :
    let o : TopaOps := ⟨0, 1, 2, 2, 1, false, false⟩
    let q : TspaOps := ⟨false, 1, 1, 8, 2, 0, false, false⟩
    let s := withV (tiled 32) 2 (BitVec.ofNat 16384 (4 * ((16 ^ 32 - 1) / 15)))
    (tiled 32).quiet ∧ s.quiet ∧ s.vlFits 8 ∧ (1 : Reg).toNat + 1 ≤ min s.st.tonOwned.toNat 4 ∧
      (Instr.topa o).wf = true ∧ s.vlFits (fmtOf o.ty).width ∧ o.h.toNat + (o.count.toNat + 1) ≤ min s.st.tonOwned.toNat 4 ∧
      o.b.toNat + (o.count.toNat + 1) ≤ 32 ∧ o.a.toNat < o.b.toNat ∧
      (Instr.tspa q).wf = true ∧ q.h.toNat + 1 ≤ min s.st.tonOwned.toNat 4 ∧ q.a.toNat + 2 ≤ 32 ∧ q.b.toNat + 4 ≤ 32 ∧
      q.a.toNat + 2 ≤ q.b.toNat ∧ 4 / 2 * (32 * q.sel.toNat + 32) ≤ 16384 / 32 ∧
      (∀ i, i < 32 → s.st.trp.getLsbD i = true →
        wellFormedGroup (s.st.vget (regAt q.a 1)) q.pat (32 * q.sel.toNat + i) = true) ∧
      s.st.tonOwned.toNat ≤ (2 : Reg).toNat ∧ run.st.tonOwned = 0 ∧
      (s.vlFits 16 ∧ s.usable [6] [] ∧ (3 : Reg).toNat + (32 * (32 / 8) + 2047) / 2048 ≤ 32 ∧
        (s.st.xget 6).toNat + (32 + 31) / 32 ≤ 32) := by
  refine ⟨quiet_of (by decide), quiet_of (by decide +kernel), ?_⟩
  unfold State.vlFits State.usable
  decide +kernel

/-- Groups of four and of eight; metadata that names the positions 0 and 1 of each group. -/
theorem test_meets_SparsityAndRays :
    let s := withV (vec 8) 5 (BitVec.ofNat 16384 0x44)
    let e := withV (vec 8) 5 (BitVec.ofNat 16384 1672)
    s.quiet ∧ e.quiet ∧ s.vlFits 32 ∧ s.st.vl.toNat % 4 = 0 ∧ s.st.vl.toNat % 8 = 0 ∧
      (6 : Reg).toNat + 2 ≤ 32 ∧ (4 : Reg).toNat < (6 : Reg).toNat ∧
      (∀ g, g < 2 → wellFormedGroup (s.st.vget (regAt 4 1)) false g = true) ∧
      wellFormedGroup (e.st.vget (regAt 4 1)) true 0 = true ∧ (24 : Reg).toNat + 8 ≤ 32 := by
  refine ⟨quiet_of (by decide +kernel), quiet_of (by decide +kernel), ?_⟩
  unfold State.vlFits
  decide +kernel

/-- The time-out of a sleeping `vwait` has passed, its flag unmet. -/
theorem test_meets_CodebooksAndFlagWaits_timeout :
    let w : QEntry := { entry (.vwait ⟨1, 4, 6, true, false, false⟩) with vl := 1, started := true }
    let s := (withV (vec 1) 4 0x2000).upd fun t => { t with queue := [w], watch := true, wto := 5, watchOut := true }
    s.st.queue = [w] ∧ w.vl = s.st.vl ∧ w.recheck = false ∧ w.scalar = 0 ∧ w.wtags = [] ∧ w.started = true ∧ s.st.run = .running ∧
      s.st.restoring = false ∧
      s.st.streams = [] ∧ s.st.stores = [] ∧ s.st.loads = [] ∧ s.st.vpoison = [] ∧ s.st.vfull = -1 ∧ s.st.vstart = 0 ∧
      s.st.wto ≠ 0 ∧ s.st.watchOut = true ∧ s.vlFits 64 ∧
      s.reaches .read false 8 (fun k => BitVec.ofNat 64 (s.elem 4 64 k)) (fun _ => .mem 0x2000) (fun _ => false) ∧
      s.unpoisoned false 8 (fun k => BitVec.ofNat 64 (s.elem 4 64 k)) (fun _ => .mem 0x2000) ∧
      (∃ k, k < s.st.vl.toNat ∧ s.st.on false k = true ∧
        ¬ofBytes (s.placeBytes (.mem 0x2000) 8) ≠ s.elem 5 64 k % 2 ^ 64) := by
  unfold State.vlFits State.reaches State.unpoisoned
  decide +kernel

/-! ### Traps, lengths and marks -/

/-- A form that its check refuses, and one that it admits over a held image; no tiles, and a tile beyond those owned; a plain
source of a product; a length above VLMAX; and `frm` 4. -/
theorem test_meets_VectorTrapsAndLengths_decode :
    let add : Instr := .vadd ⟨3, 4, 5, 2, false, 0, false, false⟩
    let form := fun (s : State) (i : Instr) => formOf { instr := i, pc := s.st.pc, vl := s.st.vl }
    let h := (vec 4).upd fun t => { t with held := true }
    let two := (vec 4).upd fun t => { t with tonOwned := 2 }
    let frm := (vec 4).upd fun t => { t with frm := 4 }
    ((form (vec 4) (.tzero 3)).any fun f => f.check (vec 4) == some 0x04) = true ∧
      ((form h add).any fun f => f.check h == none) = true ∧ h.st.held = true ∧ (vec 4).st.tonOwned = 0 ∧
      (two.st.tonOwned ≠ 0 ∧ two.st.tonOwned.toNat ≤ (2 : Reg).toNat) ∧ ((vec 4).st.dtagOf 4).getLsbD 0 = false ∧
      ((vec 513).st.vlFull = true ∧ 16384 / (8 * 2 ^ (2 : BitVec 2).toNat) < (vec 513).st.vl.toNat) ∧ frm.st.frm = 4 ∧
      widens 3 0 = false ∧ intExact 3 2 = false := by decide +kernel

/-- Loads and stores that end at the end of the map: with two elements before it; of a misaligned first element; and
in the scratch window, two elements before its end. -/
theorem test_meets_VectorTrapsAndLengths_faults :
    let at_ := fun a : Word => ((vec 4).setX 3 a).upd fun t => { t with tvec := 0x4000, scratchSize := 8 }
    let s := at_ 0x07FFFFF8
    let z := at_ 0x2001
    let w := at_ 0x7FFF0000000000
    let addr := fun (t : State) (e : Nat) => t.st.xget 3 + (0 : BitVec 10).signExtend 64 * BitVec.ofNat 64 4 + BitVec.ofNat 64 (e * 4)
    s.quiet ∧ w.quiet ∧ s.vlFits 32 ∧ s.usable [3] [] ∧ s.st.tvec ≠ 0 ∧ 2 < s.st.vl.toNat ∧ s.st.on false 2 = true ∧
      (s.context s.st.ctx).ulOn = false ∧ Memory.wf s.mem = true ∧
      (canonical (addr s 2) = true ∧ (addr s 2).toNat % 4 = 0 ∧ s.check .read 1 4 (addr s 2) = .bad 0x05 (2 ^ 27)) ∧
      (∀ e, e < 2 → canonical (addr s e) = true ∧ (addr s e).toNat % 4 = 0 ∧
        s.check .read 1 4 (addr s e) = .ok (.mem (0x07FFFFF8 + 4 * e)) false ∧
        s.poisonAt (addr s e) (.mem (0x07FFFFF8 + 4 * e)) 4 = none) ∧
      (canonical (addr z 0) = true ∧ (addr z 0).toNat % 4 ≠ 0) ∧
      (w.check .write 1 4 (addr w 2) = .bad 0x07 0 ∧ (∀ e, e < 2 → canonical (addr w e) = true ∧ (addr w e).toNat % 4 = 0 ∧
        w.check .write 1 4 (addr w e) = .ok (.scratch (4 * e)) false)) := by
  refine ⟨quiet_of (by decide), quiet_of (by decide), ?_⟩
  unfold State.vlFits State.usable
  decide +kernel

/-- A length of 0, for an instruction with and without an x destination. -/
theorem test_meets_VectorTrapsAndLengths_empty :
    let form := fun (i : Instr) => formOf { instr := i, pc := 0x1000, vl := 0 }
    (vec 0).calm ∧ (vec 0).st.vl = 0 ∧ (vec 0).usable [3, 4] [4] ∧ (vec 0).usable [] [3] ∧
      [Instr.vadd ⟨3, 4, 5, 2, false, 0, false, false⟩, .vmpopc 3].all (fun i =>
        (form i).any fun f => f.readsVl && (f.fault (vec 0)).isNone) = true :=
  ⟨calm_of (by decide), by decide, by unfold State.usable; decide, by unfold State.usable; decide, by decide +kernel⟩

/-- An enabled element, and none; a tile with rows and columns enabled, and with no rows. -/
theorem test_meets_VectorTrapsAndLengths_marks :
    let t := tiled 4
    let z := t.upd fun u => { u with trp := 0 }
    (vec 4).quiet ∧ t.quiet ∧ z.quiet ∧ (vec 4).vlFits 32 ∧ (vec 4).vlFits 8 ∧
      (∃ k, k < (vec 4).st.vl.toNat ∧ (vec 4).st.on false k = true) ∧
      (∀ k, k < (vec 4).st.vl.toNat → ((vec 4).upd fun t => { t with vm := 0 }).st.on true k = false) ∧
      ((1 : Reg).toNat < t.st.tonOwned.toNat ∧ t.st.vl.toNat ≤ 2048 ∧ t.st.vl ≠ 0 ∧ t.st.trp ≠ 0 ∧ t.st.tcp ≠ 0) ∧
      z.st.trp = 0 ∧ (t.st.tonOwned ≠ 0 ∧ t.st.held = false ∧ t.st.queue = []) := by
  refine ⟨quiet_of (by decide), quiet_of (by decide), quiet_of (by decide), by unfold State.vlFits; decide,
    by unfold State.vlFits; decide, ?_⟩
  decide +kernel

/-- A widening conversion of bf16 multivectors. -/
theorem test_meets_MultivectorUnaries_conversion :
    let s := (vec 2).upd fun t => t.setDtag 4 (mvTag 0 0b00100)
    s.quiet ∧ (0 : BitVec 2) ≠ 3 ∧ (0 : BitVec 2) ≠ 2 ∧ s.st.dtagOf 4 = mvTag 0 0b00100 ∧ widens 0 2 = true ∧
      s.st.vl.toNat ≤ min (vlmaxM 2 0b00100) (vlmaxM 0 0b00100) := ⟨quiet_of (by decide), by decide +kernel⟩
/-! ### Commands and records -/

/-- A record of `n` bytes with these fields: offset, size and value. -/
def record (n : Nat) (fields : List (Nat × Nat × Nat)) : List Byte :=
  bytesOf n ((fields.map fun f => f.2.2 * 256 ^ f.1).sum)

/-- A quiet strand with x3 = 0x2000 and a record there. -/
def cmdState (bs : List Byte) : State := put (vec 0) 0x2000 bs

/-- The bytes from `va` on are read at `p`. -/
def readsAt (s : State) (va : Word) (p : Nat → Place) (n : Nat) : Prop :=
  canonical va = true ∧ ∀ i, i < n → s.check .read 1 1 (va + BitVec.ofNat 64 i) = .ok (p i) false ∧
    s.poisonAt (va + BitVec.ofNat 64 i) (p i) 1 = none

/-- A copy by shape and a seal, with their shape record or loop nest at 0x3000; a load and a task. -/
theorem test_meets_CommandsQueueASnapshot :
    let s := cmdState (record 64 [(0x12, 1, 1), (0x20, 8, 0x3000), (0x28, 8, 0x3000)])
    let p := fun i => Place.mem (0x2000 + i)
    let bs := (List.range 64).map fun i => s.placeByte (p i)
    s.quiet ∧ s.usable [3] [] ∧ (s.st.xget 3).toNat % 128 = 0 ∧ readsAt s (s.st.xget 3) p 128 ∧
      readsAt s 0x3000 (fun i => .mem (0x3000 + i)) 128 ∧ fieldOf bs 0x12 1 = 1 ∧ wordOfField bs 0x28 = 0x3000 ∧
      wordOfField bs 0x20 = 0x3000 ∧ (0x3000 : Word).toNat % 128 = 0 ∧ (s.cluster (clusterOf s.cur)).items.length < 256 ∧ s.pcfgWaits 0 = false := by
  refine ⟨quiet_of (by decide +kernel), by unfold State.usable; decide, ?_⟩
  unfold readsAt
  decide +kernel

/-- A configuration block of `n` branches, with the map at `a` and the curve at 0x4000. -/
def cfgState (n : Nat) (a : Nat := 0x3000) : State :=
  put (put (cmdState (record 64 [(0, 8, a), (8, 8, 0x4000), (0x10, 1, n)])) 0x3000
    (record 24 [(0, 2, 1), (16, 2, 0), (18, 2, 5)])) 0x4000 (record 272 [(5, 1, 1)])

theorem test_meets_PontoonUnits_configuration :
    let s := cfgState 1
    let p := fun i => Place.mem (0x2000 + i)
    let pm := fun i => Place.mem (0x3000 + i)
    let pc := fun i => Place.mem (0x4000 + i)
    let f := fun (pl : Nat → Place) off n => ofBytes ((List.range n).map fun i => s.placeByte (pl (off + i)))
    (cfgState 0).quiet ∧ s.quiet ∧ s.usable [3] [6] ∧ (s.st.xget 3).toNat % 64 = 0 ∧ readsAt s (s.st.xget 3) p 64 ∧
      s.gateShut (0 : BitVec 2).toNat = false ∧ f p 0x10 1 = 1 ∧
      ofBytes ((List.range 1).map fun i => (cfgState 0).placeByte (p (0x10 + i))) = 0 ∧
      readsAt (cfgState 0) 0x3000 pm (16 + 8 * 1) ∧ (cfgState 1 0x3008).quiet ∧
      ofBytes ((List.range 8).map fun i => (cfgState 1 0x3008).placeByte (p (0 + i))) % 16 ≠ 0 ∧
      f p 0x11 47 = 0 ∧ f p 0 8 = 0x3000 ∧ f p 8 8 = 0x4000 ∧ readsAt s 0x3000 pm (16 + 8 * 1) ∧
      readsAt s 0x4000 pc (272 * 1) ∧ f pm 0 2 = 1 ∧ f pm 2 14 = 0 ∧
      (∀ j, j < 1 → 1 ≤ f pm (18 + 8 * j) 2 ∧ f pm (20 + 8 * j) 1 < 1 ∧ f pm (21 + 8 * j) 3 = 0) ∧
      (curveFrom ((List.range 272).map fun i => s.placeByte (pc (272 * 0 + i)))).isSome = true := by
  refine ⟨quiet_of (by decide +kernel), quiet_of (by decide +kernel), by unfold State.usable; decide, ?_⟩
  unfold readsAt
  refine ⟨by decide +kernel, by decide +kernel, by decide +kernel, by decide +kernel, by decide +kernel,
    by decide +kernel, quiet_of (by decide +kernel), ?_⟩
  decide +kernel

/-- An item of cluster 0: a load that names bank 2. -/
def loadItem (running cancelled : Bool) : Item :=
  { id := 9, load := true, recAddr := 0x2000, bytes := record 64 [(0x10, 2, 5), (0x13, 1, 2), (0x15, 1, 1), (0x1A, 2, 1), (0x20, 8, 0x3000), (0x28, 8, 256)]
    strand := 0, ctx := 1, iter := 0, launch := 4, running := running, cancelled := cancelled, again := false }

def itemState (is : List Item) : State :=
  { (vec 0).setCluster 0 (({ ClusterSt.reset with items := is } : ClusterSt).setBank 2
      { Bank.reset with reserved := some 4 }) with args := { k := 0, j := 9 } }

/-- The queries 0, 7, 8 and 9; nothing runs, and one load that names bank 2 does. -/
theorem test_meets_PontoonUnits_queries :
    (itemState []).quiet ∧ (itemState [loadItem true false]).quiet ∧ (itemState []).usable [] [6] ∧ (6 : Reg) ≠ 0 ∧
      ([0, 7, 8, 9] : List Nat).all (fun q => decide (q < 10)) = true ∧
      ((itemState [loadItem true false]).cluster 0).items.filter (fun i => i.running) = [loadItem true false] ∧
      (loadItem true false).bankMask.testBit 2 = true := by
  refine ⟨quiet_of (by decide +kernel), quiet_of (by decide +kernel), by unfold State.usable; decide, ?_⟩
  decide +kernel

theorem test_meets_PontoonUnits_dispatch :
    let i := loadItem false false
    let o : Item := { loadItem true false with id := 8, bytes := record 64 [(0x13, 1, 1), (0x15, 1, 1), (0x1A, 2, 1)] }
    let s := itemState [o, i]
    (s.cluster s.args.k).items = [o] ++ i :: [] ∧ (∀ x ∈ [o], x.running = true) ∧ i.running = false ∧
      i.cancelled = false ∧ ((s.cluster s.args.k).items.filter fun x => x.running).length < 8 ∧
      (∀ x ∈ (s.cluster s.args.k).items, x.running = true → i.bankMask &&& x.bankMask = 0) ∧ i.load = true := by
  decide +kernel

/-- A cancelled item that waits, and a running load of one block, which memory holds as a block of format 4. -/
theorem test_meets_PontoonUnits_completion :
    let c := itemState [loadItem false true]
    let i := loadItem true false
    let s := put (itemState [i]) 0x3000 [4]
    let s : State := { s with mem := setCells 0 0x20000 (bytesOf 8 (3 + 31 * 2 ^ 55)) s.mem }
    (((c.cluster 0).items.find? fun x => x.id == c.args.j) = some (loadItem false true) ∧ c.canPost 0 = true) ∧
      ((s.cluster 0).items.find? fun x => x.id == s.args.j) = some i ∧ s.canPost 0 = true ∧
      fieldOf i.bytes 0x12 1 = 0 ∧ loadLayout i.bytes = true ∧ canonical (wordOfField i.bytes 0x20) = true ∧
      canonical (wordOfField i.bytes 0x30) = true ∧ ((s.cluster 0).bank 2).reserved = some i.launch ∧
      (match s.engRead i.ctx .described (wordOfField i.bytes 0x20) 64 with
        | .bytes bs => legalFormat (blockFormat (ofBytes bs))
        | _ => false) = true := by
  decide +kernel

/-- A loop-nest record of two iterations whose entry is 0x1000, with other fields. -/
def nest (more : List (Nat × Nat × Nat)) : List Byte :=
  record 128 ([(0x18, 8, 0x1000), (0x20, 8, 77), (0x28, 1, 1), (0x38, 4, 2), (0x48, 4, 3)] ++ more)

/-- A graph of context 1 with one node, whose record stands at 0x6000. -/
def graphOf (nodes : List Node) (cancelled : Bool) : Graph :=
  { id := 3, ctx := 1, recAddr := 0x5000, bytes := record 64 [(0x20, 2, 1)], die := 0, prio := 0, nodes := nodes
    cancelled := cancelled, cause := 0 }

/-- A node at depth 1 with 4 berths, records of 16 bytes, and these records queued. -/
def nodeOf (queue : List (Nat × List Byte)) : Node :=
  { recAddr := 0x6000
    bytes := record 64 [(0x10, 8, 0x5000), (0x18, 8, 0x1000), (0x28, 4, 4), (0x2C, 2, 16), (0x2E, 1, 1), (0x30, 2, 2), (0x32, 2, 1)]
    queue := queue, passes := 0, promoted := none }

/-- Records for each answer of `launch`: one of three dimensions too few, an active one, a priority too high, a coresident
one too large, one without a parent, and one under a graph. -/
theorem test_meets_LaunchCancelEmit_launch :
    let s := cmdState (nest [])
    let p := fun i => Place.mem (0x2000 + i)
    let bytes := fun (t : State) => (List.range 128).map fun i => t.placeByte (p i)
    let prioState := cmdState (nest [(0x2F, 1, 2)])
    let big := cmdState (nest [(0x2A, 1, 2), (0x34, 2, 1), (0x3C, 0, 0), (0x38, 4, 97)])
    let child := { cmdState (nest [(0x10, 8, 0x5000)]) with graphs := [graphOf [] false] }
    s.quiet ∧ s.usable [3] [6] ∧ (s.st.xget 3).toNat % 128 = 0 ∧ readsAt s (s.st.xget 3) p 128 ∧
      nestLayout (bytes (cmdState (record 128 []))) = false ∧ nestLayout (bytes s) = true ∧
      fieldOf (bytes (cmdState (nest [(8, 4, 1)]))) 0x08 1 = 1 ∧
      (nestLayout (bytes prioState) = true ∧ fieldOf (bytes prioState) 0x2F 1 ≠ 0 ∧
        prioState.st.prio.toNat < fieldOf (bytes prioState) 0x2F 1 - 1) ∧
      (nestLayout (bytes big) = true ∧ (fieldOf (bytes big) 0x2A 1).testBit 1 = true ∧
        launchCapacity (bytes big) < totalOf (bytes big)) ∧
      ((s.launchAt s.st.ctx 0x2000).isSome = false ∧ fieldOf (bytes s) 0x08 1 = 0 ∧ wordOfField (bytes s) 0x10 = 0 ∧
        fieldOf (bytes s) 0x2F 1 = 0 ∧ (s.context s.st.ctx).ulOn = false ∧ Memory.wf s.mem = true ∧
        s.engPlace s.st.ctx .write .any 0x2000 = some (.mem 0x2000)) ∧
      child.graphAt child.st.ctx (wordOfField (bytes child) 0x10) = some (graphOf [] false) := by
  refine ⟨quiet_of (by decide +kernel), by unfold State.usable; decide, ?_⟩
  unfold readsAt
  decide +kernel

/-- A launch of context 1 whose record stands at 0x2000. -/
def launchOf (bs : List Byte) : Launch :=
  { id := 4, ctx := 1, recAddr := 0x2000, bytes := bs, die := 0, prio := 0, total := totalOf bs, next := 0, live := 0
    started := true, cancelled := false, strand := 0, clusters := [], cause := 0 }

/-- A misaligned record, an active launch with a running iteration on strand 1, a finished record, and a record of zeros. -/
theorem test_meets_LaunchCancelEmit_cancel :
    let l := launchOf (nest [])
    let it : Strand := { Strand.reset with run := .running, ctx := 1, iter := { work := .launch, launch := 4 } }
    let s := { cmdState (nest [(8, 4, 1)]) with launches := [l], others := [(1, it)] }
    let f := cmdState (nest [(8, 4, 2)])
    let active := fun (t : State) => t.recordActive t.st.ctx 0x2000 0
    s.quiet ∧ s.usable [3] [6] ∧ s.st.run = .running ∧ s.finishing = [] ∧ ((0x2040 : Word).toNat % 128 ≠ 0) ∧ (s.st.xget 3).toNat % 128 = 0 ∧ active s = true ∧
      (l.ctx == s.st.ctx && s.launchUnder l 0x2000 0) = true ∧ (1 ≠ s.cur ∧ s.strand 1 = it ∧ it.ctx = s.st.ctx ∧ it.iter.work = .launch ∧
        it.iter.launch = l.id ∧ it.iter.cancelled = false ∧ it.run = .running) ∧
      (active f = false ∧ (f.recordStatus f.st.ctx 0x2000).any finishedState = true) ∧
      (active (cmdState []) = false ∧ ((cmdState []).recordStatus 1 0x2000).any finishedState = false) := by
  refine ⟨quiet_of (by decide +kernel), by unfold State.usable; decide, ?_⟩
  decide +kernel

/-- A launch iteration under a graph: no such node; a node with free berths, and without one; a cancelled graph. A batch of
the node: with and without allowance, and one of a deeper node. -/
theorem test_meets_LaunchCancelEmit_emit :
    let it := fun (i : Iter) (g : Graph) => { (put (vec 0) 0x7000 [1, 2, 3]).upd (fun t => { t.xset 4 0x7000 with iter := i }) with graphs := [g] }
    let g := graphOf [nodeOf []] false
    let s := (it { work := .launch, graph := 0x5000 } g).setX 3 0x6000
    let full := (it { work := .launch, graph := 0x5000 } (graphOf [nodeOf (List.replicate 4 (0, []))] false)).setX 3 0x6000
    let b := fun own => (it { work := .batch, graph := 0x5000, node := 0, own := own } g).setX 3 0x6000
    s.quiet ∧ s.usable [3, 4] [6] ∧ s.nodeAt 0x6040 = none ∧ s.nodeAt 0x6000 = some (g, 0, nodeOf []) ∧
      s.freeBerths g 0 ≠ 0 ∧ (s.st.xget 4).toNat % 16 = 0 ∧ (s.context s.st.ctx).ulOn = false ∧
      (∀ j, j < (nodeOf []).rsize → s.check .read 1 1 (0x7000 + BitVec.ofNat 64 j) = .ok (.mem (0x7000 + j)) false ∧
        s.poisonAt (0x7000 + BitVec.ofNat 64 j) (.mem (0x7000 + j)) 1 = none) ∧
      full.freeBerths (graphOf [nodeOf (List.replicate 4 (0, []))] false) 0 = 0 ∧ (graphOf [nodeOf []] true).cancelled = true ∧
      (b 1).st.iter.own ≠ 0 ∧ (b 0).st.iter.own = 0 := by
  refine ⟨quiet_of (by decide +kernel), by unfold State.usable; decide, ?_⟩
  decide +kernel

/-- Records for the parents of `launch`: one misaligned, one that is finished, and a well-formed one with a node. -/
theorem test_meets_LaunchCancelEmit_parent :
    let graph := fun (st : Nat) => put (put (cmdState (nest [])) 0x5000 (record 64 [(8, 1, st), (0x18, 8, 0x6000), (0x20, 2, 1)]))
      0x6000 (nodeOf []).bytes
    let kind := fun (s : State) (a : Word) => match s.readParent 1 a with
      | .refused => 0
      | .starts _ => 1
      | _ => 2
    kind (graph 0) 0x5020 = 0 ∧ kind (graph 2) 0x5000 = 0 ∧ kind (graph 0) 0x5000 = 1 ∧
      (graph 0).launchAt 1 0x2000 = none ∧ canonical 0x2000 = true ∧ Memory.wf (graph 0).mem = true ∧
      ((graph 0).context 1).ulOn = false := by decide +kernel

/-- An active graph with a record queued, and a launch that is not under it. -/
theorem test_meets_LaunchCancelEmit_cancel_graph :
    let g := graphOf [nodeOf [(0, bytesOf 16 9)]] false
    let l := launchOf (nest [])
    let s := { (cmdState []).setX 3 0x5000 with graphs := [g], launches := [l] }
    s.quiet ∧ s.usable [3] [6] ∧ s.st.run = .running ∧ (s.st.xget 3).toNat % 64 = 0 ∧
      s.recordActive s.st.ctx 0x5000 1 = true ∧ s.finishing = [] ∧ (g.ctx == s.st.ctx && s.graphUnder g 0x5000 1) = true ∧
      (l.ctx == s.st.ctx && s.launchUnder l 0x5000 1) = false ∧ (∀ m ∈ s.launches, m.id = l.id → m = l) := by
  refine ⟨quiet_of (by decide +kernel), by unfold State.usable; decide, ?_⟩
  decide +kernel

/-- A node of a finished graph, whose records have 16 bytes; and a batch that names another node of its own depth. -/
theorem test_meets_LaunchCancelEmit_emit_ends :
    let it := fun (i : Iter) (gs : List Graph) (a : Word) =>
      { (put (put (vec 0) 0x5000 (record 64 [(8, 1, 2), (0x18, 8, 0x6000), (0x20, 2, 1)])) 0x6000 (nodeOf []).bytes).upd
          (fun t => (({ t with iter := i } : Strand).xset 4 0x7000).xset 3 a) with graphs := gs }
    let f := it { work := .launch, graph := 0x5000 } [] 0x6000
    let other : Node := { nodeOf [] with recAddr := 0x6040 }
    let g := graphOf [nodeOf [], other] false
    let b := it { work := .batch, graph := 0x5000, node := 0, own := 1 } [g] 0x6040
    (f.quiet ∧ f.usable [3, 4] [6] ∧ f.nodeAt 0x6000 = none ∧ f.finishedNode 0x6000 = some 16 ∧ f.finishedNode 0x6040 = none ∧
      canonical 0x7000 = true ∧ (0x7000 : Word).toNat % 16 = 0) ∧
      b.nodeAt 0x6040 = some (g, 1, other) ∧ (nodeOf []).depth = other.depth ∧ (1 : Nat) ≠ b.st.iter.node ∧
      b.st.iter.work = .batch := by
  refine ⟨⟨quiet_of (by decide +kernel), by unfold State.usable; decide, ?_⟩, ?_⟩ <;> decide +kernel

/-- A load that waits for the tide with all the time of a window before it, and a task of a bank that nothing has reserved,
without and with a dependence that is met. -/
theorem test_meets_PontoonUnits_tide :
    let l : Item := { loadItem false false with bytes := record 64 [(0x12, 1, 1), (0x15, 1, 1), (0x16, 1, 1), (0x1A, 2, 1)] }
    let d := itemState [l]
    let task := fun dep => record 128 [(0x13, 1, 1), (0x14, 1, 1), (0x18, 2, 1), (0x1A, 2, 1), (0x40, 8, dep), (0x48, 8, 3)]
    let s := put (itemState [{ loadItem false false with load := false, bytes := task 0x3000 }]) 0x3000 (bytesOf 8 3)
    (fieldOf l.bytes 0x12 1 = 1 ∧ (fieldOf l.bytes 0x16 1).testBit 0 = true ∧ (d.die 0).tideIn = false ∧
        fieldOf l.bytes 0x1A 2 * fieldOf l.bytes 0x15 1 ≤ (d.die 0).tideNext) ∧
      (taskCheck (task 0) = none ∧ taskCheck (task 0x3000) = none ∧ fieldOf (task 0) 0x40 8 = 0 ∧
        ((s.engRead 1 .any 0x3000 8).value.any fun x => decide (fieldOf (task 0x3000) 0x48 8 ≤ x)) = true ∧
        (fieldOf (task 0) 0x13 1).testBit 0 = true ∧ ((s.cluster 0).bank 0).reserved ≠ some 4) := by decide +kernel

/-- A task that a check refused when it was dispatched. -/
theorem test_meets_PontoonUnits_refused :
    let i : Item := { loadItem true false with load := false, verdict := 6 }
    let s := itemState [i]
    ((s.cluster 0).items.find? fun x => x.id == s.args.j) = some i ∧ i.running = true ∧ i.load = false ∧ i.verdict ≠ 0 ∧
      i.verdict ≠ 8 := by decide +kernel

/-- A curve whose edges are −1 and 1, and finite. -/
def curve1 : Curve := { x0 := 0xBF800000, wexp := 0xFC, segs := List.replicate 32 (0x3F800000, 0) }

theorem test_meets_PontoonUnits_curve :
    finiteF32 curve1.x0.toNat = true ∧ (unpack f32 0x7FC00000).isNan = true ∧ (unpack f32 0).isNan = false ∧
      cmpF (unpack f32 0xC0000000) (unpack f32 curve1.x0.toNat) < 0 ∧ 0 ≤ cmpF (unpack f32 0) (unpack f32 curve1.x0.toNat) := by
  decide +kernel

/-- A task of one row, one column and one slot of bank 0, plain, dendritic and with taps; A is a block of format 4 on a
page with D, and C, the weight and the taps lie on one without. -/
def taskItem (mode : Nat) : Item :=
  { loadItem true false with
    load := false
    bytes := record 128 [(0x12, 1, mode), (0x13, 1, 1), (0x14, 1, 1), (0x18, 2, 1), (0x1A, 2, 1), (0x20, 8, 0x08000000),
      (0x30, 8, 0x3000), (0x58, 8, 0x3100), (0x60, 8, 0x3200), (0x68, 8, 8)] }

def taskState (mode : Nat) : State :=
  let g : DendCfg := { ctx := 1, branches := 1, ranges := [(0, 124, 0)], curves := [curve1] }
  let s := put (put (itemState [taskItem mode]) 0x20008 (bytesOf 8 (3 + 31 * 2 ^ 55 + 2 ^ 27))) 0x08000000 (bytesOf 64 0x1234560404)
  s.setCluster 0 { (s.cluster 0).setBank 0 { Bank.reset with reserved := some 4, owner := some 1, blocks := [(0, 0x1234560404)] } with
    cfgs := (s.cluster 0).cfgs.set 0 (some g) }

theorem test_meets_PontoonUnits_sums :
    let t := taskOf (taskItem 0).bytes
    let s := taskState 10
    let s1 := s.engWrites 0 1 [⟨0x3200, .mem 0x3200, bytesOf 4 0x3F800000, false⟩]
    let s2 := s1.engWrites 0 1 [⟨0x3204, .mem 0x3204, bytesOf 4 0x3F800000, false⟩]
    let b := ((taskState 0).cluster 0).bank 0
    t.banks = [0] ∧ t.slots = 1 ∧ t.rows = 1 ∧ t.cols = 1 ∧ blockFormat (b.block 0) = 4 ∧ b.poisoned = [] ∧
      ((taskState 0).cluster 0).items.find? (fun x => x.id == (taskState 0).args.j) = some (taskItem 0) ∧
      (taskItem 0).verdict = 0 ∧
      (((taskState 0).engRead 1 .described t.abase 64).value.map blockFormat) = some 4 ∧
      (((taskState 4).engRead 1 .plain t.cbase 4).value = some 0) ∧ (taskOf (taskItem 4).bytes).mode.testBit 2 = true ∧
      (taskState 0).engPlace 1 .write .plain t.cbase = some (.mem 0x3000) ∧
      ((taskOf (taskItem 2).bytes).mode.testBit 1 = true ∧ (taskOf (taskItem 2).bytes).mode.testBit 3 = false ∧
        (((taskState 2).cluster 0).cfgs.getD 0 none).isSome = true ∧ (((taskState 2).engRead 1 .plain t.wbase 4).value = some 0)) ∧
      ((taskOf (taskItem 10).bytes).mode.testBit 3 = true ∧ s.engPlace 1 .write .plain t.tbase = some (.mem 0x3200) ∧
        s1.engPlace 1 .write .plain (t.tbase + 4) = some (.mem 0x3204) ∧ ((s2.engRead 1 .plain t.wbase 4).value = some 0) ∧
        s2.engPlace 1 .write .plain t.cbase = some (.mem 0x3000)) := by decide +kernel
/-! ### The queue and the engines -/

/-- An entry of the queue that a rechecking strand pushed; the free value says whether its copy differs. -/
def rechecked (again : Bool) : State :=
  sup.upd fun t => { t with level := .user, queue := [{ entry (.vadd ⟨3, 4, 5, 2, false, 0, false, false⟩) with started := true, recheck := true, mismatchReplay := again }] }

/-- A queue of 63 entries and of 64; an entry behind a started one, and one that needs its result; a head that retires; a
rechecked head, also with a load in flight; poison. -/
theorem test_meets_QueueRunsAhead :
    let e := { entry (.vadd ⟨3, 4, 5, 2, false, 0, false, false⟩) with srcs := [4, 5], dsts := [3], wtags := [(3, 0)] }
    let marked := { e with marked := [5] }
    let idle := { e with vl := 0 }
    let need := { entry (.vadd ⟨6, 3, 5, 2, false, 0, false, false⟩) with srcs := [3, 5], dsts := [6] }
    let s := fun n => ({ vec 4 with pace := .runAhead }).upd fun t => { t with queue := List.replicate n e }
    let q := fun x => (vec 0).upd fun t => { t with queue := [{ e with started := true }, x] }
    let h := (vec 0).upd fun t => { t with queue := [e] }
    let r := { e with started := true }
    let m := (rechecked true).upd fun t => { t with loads := loading.st.loads }
    let u : Undo := ⟨some 0, false, [], [], false, 0, 0, 0, none, none⟩
    let b : State := { m.upd fun t => { t with undo := [u] } with poison := [0x80] }
    let ready := fun (t : Strand) => e.srcs.all t.vFullNow
    let empty := h.upd fun t => { t with vfull := 0 }
    let p := sup.upd fun t => { t with level := .user, redecode := some 0x1000 }
    ((s 63).pace ≠ .lockstep ∧ (s 63).st.held = false ∧ (s 63).st.vlFull = true ∧ (s 63).st.vl.toNat ≤ vlmaxOf 8 ∧
        (s 63).st.vfull = -1 ∧ (s 63).usable [3] [] ∧ (s 63).usable [] [6] ∧ (s 63).st.queue.length < 64 ∧
        64 ≤ (s 64).st.queue.length) ∧
      (4 * (q e).args.k + (((q e).core (q e).args.k).lastStart + 1 + 0) % 4 = 0 ∧ (q e).strand 0 = (q e).st ∧
        e.started = false ∧ (q e).st.run = .running ∧ (q e).st.sleep = .awake ∧ (q e).st.watch = false ∧
        (q e).st.tonPend = none ∧ ready (q e).st = true ∧ e.needs [{ e with started := true }] = false ∧
        need.needs [e] = true) ∧
      (run.strand 3).issues = none ∧
      (e.vl ≠ 0 ∧ ready empty.st = false ∧ e.marked = [] ∧ (∃ r ∈ marked.marked, empty.st.vFullNow r = false) ∧
        (idle.lengthless = false ∧ idle.vl = 0)) ∧
      (r.started = true ∧ h.st.run = .running ∧ r.recheck = false ∧ r.scalar = 0 ∧ h.st.tonPend = none ∧ 0 < r.vl.toNat ∧
        r.vl.toNat ≤ vlmaxOf 32 ∧
        h.st.vstart = 0 ∧ h.st.vfull = -1 ∧ h.st.streams = [] ∧ h.st.vpoison = []) ∧
      ((rechecked false).st.queue.length = 1 ∧ (rechecked true).st.tvec ≠ 0 ∧ (rechecked true).st.held = false ∧
        (rechecked true).st.loads = [] ∧
        ((rechecked true).st.queue.all fun x => x.started && x.recheck && !x.rechecked && x.mismatchReplay) = true) ∧
      ((formOf r).any (fun f => f.grain != 0) = true ∧
        ((rechecked true).upd fun t => { t with vstart := 2 }).st.vstart ≠ 0) ∧
      (m.st.loads.map m.heldBack = [false] ∧ b.st.loads.map b.heldBack = [true] ∧ b.st.canRewind 0 = true ∧
        (b.st.loads.all fun l => l.seq == 0) = true) ∧
      (run.st.queue = [] ∧ run.st.redecode ≠ some run.st.pc ∧ p.st.redecode = some p.st.pc ∧ p.st.queue = [] ∧
        p.st.loads = [] ∧ p.st.tvec ≠ 0 ∧ p.st.held = false ∧
        ((p.upd fun t => { t with xpoison := 16 }).st.allReady [3, 4, 5] = true ∧
          (p.upd fun t => { t with xpoison := 16 }).st.anyPoison [3, 4] = true)) := by
  unfold State.usable
  decide +kernel

/-- A completion of the root's iteration, whose record stands at 0x100000. -/
def completion : Completion :=
  { id := 7, die := 0, ctx := 1, iter := 0, desc := 0x100000, pendBytes := 4, faultAt := 0x38, user := 5, tag := 6, source := 0, signal := 0
    status := 3, fault := 0x77 }

/-- The walk of an address below 128 MiB through the two tables of `run`, whatever else memory holds. -/
theorem walk_low {rd : Nat → Byte} {ok : Nat → Nat → Bool} {va : Nat} (hv : va < 2 ^ 27)
    (h0 : ofBytes (bytesAt rd 0x40000 8) = 0x20001) (h1 : ofBytes (bytesAt rd 0x20000 8) = 3 + 15 * 2 ^ 55)
    (hok : ∀ a n, ok a n = true) : walkFrom rd ok va 0 tableLevels 0x40000 = .leaf ⟨2 ^ 27, 3 + 15 * 2 ^ 55⟩ := by
  have e0 : va / 2 ^ 41 % 2 ^ 15 = 0 := by omega
  have e1 : va / 2 ^ 27 % 2 ^ 14 = 0 := by omega
  have p0 : populated 0x40000 = true := by decide
  have p1 : populated 0x20000 = true := by decide
  simp only [tableLevels, walkFrom, e0, e1, hok, Nat.mul_zero, Nat.add_zero, h0, p0, Bool.and_self, Bool.not_true]
  norm_num [p1, h1, Nat.testBit, walkFrom, Nat.shiftRight_eq_div_pow, hok]

theorem test_meets_EngineCompletions :
    completion.signal = 0 ∧ completion.pendBytes = 4 ∧ 12 ≤ completion.faultAt ∧ completion.faultAt + 8 ≤ 128 ∧
      (run.context completion.ctx).ulOn = false ∧ Memory.wf run.mem = true ∧
      run.findIter completion.iter = some run.st ∧ run.isSaved completion.iter = false ∧ run.st.events.length < 32 ∧
      run.st.iter.work ≠ .none ∧ run.st.iter.id = completion.iter ∧ run.st.claims = [] ∧ run.flights = [] ∧
      completion.die = (Place.mem 0x100000).home 0 ∧
      (runWith fun t => { t with claims := [6] }).st.claims = 6 :: [] ∧
      (let p : Post := ⟨7, 0, 1, 0, ⟨5, 6, 3, 0, 0x100000, 0⟩⟩
       let s := { run with posts := [p], args := { k := 7 } }
       let t := { run with posts := [p], args := { k := 0, j := 7 } }
       s.posts.find? (fun q => q.id == p.id) = some p ∧ s.canPost p.iter = true ∧ s.args.k = p.id ∧ s.cmd p.id = none ∧
        t.args.j = p.id ∧ (t.cluster t.args.k).items.find? (fun i => i.id == p.id) = none) := by decide +kernel

/-- `run` with other memory. -/
def runMem (m : List Host.Cell) : State := { run with mem := m }

/-- The record's place does not depend on its own bytes. -/
theorem test_meets_EngineCompletions_place :
    ∀ (m : List Host.Cell) (off : Nat), off ∈ [0, 8, completion.faultAt] →
      (∀ a, (a < 0x100000 ∨ 0x100000 + 128 ≤ a) → memGet m a = memGet run.mem a) →
      ({ run with mem := m } : State).engPlace completion.ctx .write .any (completion.desc + BitVec.ofNat 64 off) =
        some (.mem (0x100000 + off)) := by
  intro m off hoff hm
  change (runMem m).engPlace completion.ctx .write .any (completion.desc + BitVec.ofNat 64 off) = _
  have bytes : ∀ a n, a + n ≤ 0x100000 → bytesAt ((runMem m).physByte []) a n = bytesAt (memGet run.mem) a n := by
    intro a n
    induction n generalizing a with
    | zero => intro _; rfl
    | succ n ih =>
      intro h
      have hp : placeOfPhys 0 a = .mem a := by
        unfold placeOfPhys storageOf
        rw [if_neg (by rw [beq_iff_eq]; omega)]
        simp
      simp only [bytesAt, ih (a + 1) (by omega), State.physByte, hp, List.foldl_nil, State.placeByte]
      exact congrArg (· :: _) (hm a (by omega))
  have h0 := (congrArg ofBytes (bytes 0x40000 8 (by decide))).trans
    (show ofBytes (bytesAt (memGet run.mem) 0x40000 8) = 0x20001 by decide +kernel)
  have h1 := (congrArg ofBytes (bytes 0x20000 8 (by decide))).trans
    (show ofBytes (bytesAt (memGet run.mem) 0x20000 8) = 3 + 15 * 2 ^ 55 by decide +kernel)
  have hr : ((runMem m).context completion.ctx).root = 0x40000 := by
    show (run.context 1).root = 0x40000
    decide +kernel
  have hf : ∀ a n, (runMem m).inRanges ((runMem m).context completion.ctx).function a n = true := by
    intro a n
    have : ((runMem m).context completion.ctx).function = 0 := by
      show (run.context 1).function = 0
      decide +kernel
    simp [State.inRanges, this]
  have hw : ∀ va, va < 2 ^ 27 →
      (runMem m).translate [] completion.ctx va = .leaf ⟨2 ^ 27, 3 + 15 * 2 ^ 55⟩ := by
    intro va hva
    show walkFrom ((runMem m).physByte []) _ va 0 tableLevels ((runMem m).context completion.ctx).root = _
    rw [hr]
    exact walk_low hva h0 h1 hf
  have hc : ∀ a : Word, canonical a = true → untranslated (a.toNat % 2 ^ 56) = false → a.toNat % 2 ^ 56 < 2 ^ 27 →
      (runMem m).checkEngine completion.ctx .write 1 a =
        (runMem m).hostFault .write (pageCheck (.leaf ⟨2 ^ 27, 3 + 15 * 2 ^ 55⟩) .write true (a.toNat % 2 ^ 56)) := by
    intro a h1 h2 h3
    have h4 : (a.toNat % 1 != 0) = false := by simp [Nat.mod_one]
    simp only [State.checkEngine, State.checkFor, h1, h2, h4, hw _ h3, Bool.not_true, Bool.false_eq_true, if_false]
  simp only [List.mem_cons, List.not_mem_nil, or_false] at hoff
  obtain rfl | rfl | rfl := hoff <;>
  · unfold State.engPlace
    rw [hc _ (by decide) (by decide) (by decide)]
    rfl

/-- An engine's read gives these bytes. -/
def gives (r : EngRead) (bs : List Byte) : Bool :=
  match r with
  | .bytes b => b == bs
  | _ => false

theorem gives_iff {r : EngRead} {bs : List Byte} : gives r bs = true ↔ r = .bytes bs := by
  cases r <;> simp [gives]

/-- A command of the root in focus. -/
def command (e : Engine) (bs extra : List Byte) : Cmd :=
  { id := 7, engine := e, desc := 0x100000, bytes := bs, extra := extra, strand := 0, ctx := 1, iter := 0, die := 0
    started := true, cancelled := false, acks := [], status := 0, fault := 0 }

def engState (cs : List Cmd) : State := { run with cmds := cs, args := { k := 7 } }

/-- Copies: of a cancelled issuer, not started, started, linear within a line, and one f32 to bf16. -/
theorem test_meets_EngineCompletions_copies :
    let c := command .copy (record 64 [(0x18, 8, 0x2000), (0x20, 8, 0x303F), (0x28, 8, 1)]) []
    let d := command .copy (record 64 [(0x13, 1, 1), (0x14, 1, 3), (0x18, 8, 0x2000), (0x20, 8, 0x3000), (0x28, 8, 1)]) []
    let s := engState [c]
    let t := engState [d]
    let z := engState [{ c with started := false, cancelled := true }]
    (z.cmd z.args.k = some { c with started := false, cancelled := true } ∧ z.canPost 0 = true ∧ c.strand = z.cur) ∧
      (s.cmd s.args.k = some c ∧ c.strand = s.cur ∧ s.canPost c.iter = true ∧ copyLayout c.bytes = true ∧
        fieldOf c.bytes 0x12 1 = 0 ∧ canonical (wordOfField c.bytes 0x30) = true ∧
        s.engPlace c.ctx .write .any (wordOfField c.bytes 0x20) = some (.mem 0x303F) ∧ fieldOf c.bytes 0x13 1 = 0 ∧
        0 < fieldOf c.bytes 0x28 8 ∧ (wordOfField c.bytes 0x20).toNat % 64 + fieldOf c.bytes 0x28 8 ≤ 64 ∧
        gives (s.engBytes c.ctx .any (wordOfField c.bytes 0x18) 1) [0] = true) ∧
      (t.cmd t.args.k = some d ∧ copyLayout d.bytes = true ∧ fieldOf d.bytes 0x13 1 = 1 ∧ fieldOf d.bytes 0x28 8 = 1 ∧
        (wordOfField d.bytes 0x20).toNat % 2 = 0 ∧ gives (t.engBytes d.ctx .any (wordOfField d.bytes 0x18) 4) [0, 0, 0, 0] = true ∧
        (fieldOf d.bytes 0x14 1).testBit 3 = false ∧ fieldOf d.bytes 0x14 1 % 8 < 4 ∧
        t.engPlace d.ctx .write .any (wordOfField d.bytes 0x20) = some (.mem 0x3000) ∧
        (wordOfField d.bytes 0x18).toNat + 4 ≤ (wordOfField d.bytes 0x20).toNat) := by decide +kernel

/-- Wharf commands: a write of the last unit of region 0, a seal of region 0, and a write to a region of no context. -/
theorem test_meets_EngineCompletions_wharf :
    let c := command .wharf (record 64 [(0x18, 8, 0xFFFFC0), (0x20, 8, 0x2000), (0x28, 8, 64)]) []
    let d := command .wharf (record 64 [(0x12, 1, 1), (0x20, 8, 0x2000), (0x28, 8, 2 ^ 24)]) []
    let l := launchOf (nest [])
    let s := engState [c]
    let t := { engState [d] with launches := [l] }
    let z := engState [{ c with started := false }]
    (s.cmd s.args.k = some c ∧ c.seals = false ∧ c.wharfRange = (0xFFFFC0, 64) ∧ 0xFFFFC0 % 64 = 0 ∧
        gives (s.engRead c.ctx .any (wordOfField c.bytes 0x20) 64) (List.replicate 64 0) = true) ∧
      (t.cmd t.args.k = some d ∧ d.seals = true ∧ t.canPost d.iter = true ∧
        (∀ e ∈ t.cmds, e.wharfLive = true → e.seals = true ∨ d.sameRegions e = false) ∧
        (t.launches.find? fun m => m.ctx == d.ctx && m.recAddr == wordOfField d.bytes 0x20) = some l ∧
        (∀ r ∈ regionsOf d.wharfRange.1 d.wharfRange.2, ((t.die d.wharfDie).seals.filter fun p => p.1 == r).length < 255)) ∧
      (wharfLayout c.bytes = true ∧ canonical (wordOfField c.bytes 0x30) = true ∧ 0 < c.wharfRange.2 ∧
        (z.mgmt.wharfField c.wharfDie 0).testBit 15 = false) := by decide +kernel

/-- A primitive of one fragment at (64, 0), whose tile die 1 owns; one that all dies have applied. -/
theorem test_meets_EngineCompletions_pixels :
    let r := record 64 [(0, 8, 0x200000), (8, 4, 1024), (0xC, 2, 128), (0xE, 2, 64)]
    let c := command .pix (record 64 [(0x18, 8, 0x5000)]) (r ++ (bytesOf 2 64 ++ bytesOf 14 0 ++ [0]))
    let s := { engState [c] with args := { k := 7, j := 1 } }
    let d := { c with acks := [0, 1, 2, 3] }
    let t := engState [d]
    let g := fun next => { s with frames := [⟨1, 0x5000, 0, [0], #v[0, next, 0, 0]⟩] }
    ((g 0).frameOf c).map (fun f => (f.received.contains c.pixSeq, f.next.getD 1 0 == c.pixSeq)) = some (true, true) ∧
    ((g 5).frameOf c).map (fun f => (f.received.contains c.pixSeq, f.next.getD 1 0 == c.pixSeq)) = some (true, false) ∧
    s.cmd s.args.k = some c ∧ 1 ∉ c.acks ∧ c.acks.length < 3 ∧ (s.frameOf c).isNone = true ∧
      c.frags.map (fun g => (g.x, g.y, g.bad)) = [(64, 0, false)] ∧ (64 / 64 + 0 / 64) % 4 = 1 ∧
      (64 < fieldOf (c.extra.take 64) 0x0C 2 ∧ 0 < fieldOf (c.extra.take 64) 0x0E 2 ∧ fieldOf (c.extra.take 64) 0x10 1 < 2) ∧
      s.engPlace c.ctx .write .plain (wordOfField (c.extra.take 64) 0 + BitVec.ofNat 64 (0 * 1024) + BitVec.ofNat 64 (4 * 64)) =
        some (.mem 0x200100) ∧
      (t.cmd t.args.k = some d ∧ d.acks.length = 4 ∧ t.canPost d.iter = true ∧ d.status.toNat % 256 = 0) := by
  decide +kernel

/-- A train whose element arrives in the context of domain 5. -/
def trainState : State :=
  { run.setContext 1 ((run.context 1).setField 0x34 2 5) with
    args := { train := { domain := 5, op := 0, width := 2, elems := [⟨0, 0x2000, 9, false⟩], cmd := none } } }

theorem test_meets_EngineCompletions_trains :
    let s := trainState
    s.args.train.cmd = none ∧ s.args.train.elems = [⟨0, 0x2000, 9, false⟩] ∧ s.args.train.op = 0 ∧
      s.peerOf s.args.train.domain = some 1 ∧ s.checkEngine 1 .write 4 0x2000 = .ok (.mem 0x2000) false ∧
      (s.context 1).ulOn = false ∧ Memory.wf s.mem = true := by decide +kernel

/-- A write of one die that its clock lets apply, and one that waits for an earlier one. -/
theorem test_meets_EngineCompletions_clocks :
    let e : SEntry := { storeEntry with sent := true }
    let f : DieWrite := ⟨0, 0, 0, 1, #v[1, 0, 0, 0, 0]⟩
    let g : DieWrite := ⟨600, 0, 1, 1, #v[0, 0, 0, 0, 0]⟩
    let s := { (runWith fun t => { t with stores := [e] }) with flights := [f] }
    let before := fun (g : DieWrite) => g ≠ f ∧ g.dest = f.dest ∧ g.clock.getD g.source 0 ≤ f.clock.getD g.source 0 ∧
      ¬(g.source = f.source ∧ f.clock.getD f.source 0 ≤ g.clock.getD f.source 0)
    s.flights[s.args.k]? = some f ∧ f.strand = s.cur ∧ s.st.stores = e :: [] ∧ e.seq = f.seq ∧ e.sent = true ∧
      atomicOf e.instr = none ∧ (s.context s.st.ctx).ulOn = false ∧ Memory.wf s.mem = true ∧
      (∀ h ∈ s.flights, ¬before h) ∧ before g := by decide +kernel

/-- A train to package 6, over port 2, that is on its way, and answered; a collective of one rank. -/
theorem test_meets_EngineCompletions_fabric :
    let c := command .train (record 64 []) (bytesOf 2 6 ++ bytesOf 17 0)
    let m : Mgmt := (({ Mgmt.reset with pkno := 5, ready := true }).put 0xA0006 [2])
    let m : Mgmt := { m with ports := m.ports.set 2 ⟨true, false, 8⟩ }
    let s := { engState [c] with
      mgmt := m, args := { k := 0, j := 6, train := ⟨0, 0, 0, [], some 7⟩ }, ctxs := trainState.ctxs }
    let d := { c with replies := [⟨6, 0, 0, 0⟩] }
    let t := engState [d]
    let g := command .coll (record 64 [(4, 4, 1), (0x14, 1, 2), (0x18, 8, 0x2000), (0x20, 8, 0x3000)]) (record 64 [(0, 2, 1), (2, 2, 5)])
    let u := { engState [g] with mgmt := m }
    (s.cmd 7 = some c ∧ 6 ≠ s.mgmt.pkno.toNat ∧ c.replies = [] ∧ c.domainIn s ≠ 0 ∧ (s.mgmt.portTo 6).isSome = true) ∧
      (t.cmd t.args.k = some d ∧ t.canPost d.iter = true ∧ d.acks = [] ∧ (∀ r ∈ d.replies, r.status = 0)) ∧
      (u.cmd u.args.k = some g ∧ u.args.j = 0 ∧ (let x := collOf u.mgmt.pkno.toNat g.bytes g.extra
        x.op = 0 ∧ x.fmt = 2 ∧ x.count = 1 ∧ x.n = 1 ∧ x.rank = 0 ∧ x.ranks = [u.mgmt.pkno.toNat] ∧
          gives (u.engBytes g.ctx .any x.src 4) [0, 0, 0, 0] = true ∧ x.dst.toNat % 4 = 0 ∧
          u.engPlace g.ctx .write .any x.dst = some (.mem 0x3000))) ∧
      (unpack f32 0).isNan = false := by decide +kernel

/-- The packages of a train of one element, and of one that is answered. -/
theorem test_meets_EngineCompletions_packages :
    (command .train (record 64 []) (bytesOf 2 6 ++ bytesOf 17 0)).packages = [6] := by
  have h : ((command .train (record 64 []) (bytesOf 2 6 ++ bytesOf 17 0)).passengers.map Passenger.package).dedup = [6] := by
    decide +kernel
  rw [Cmd.packages, h]
  exact List.mergeSort_singleton 6

/-! ### Walker, ends, pre-emption, contexts, host, package -/

/-- A started launch of two iterations, number 4, whose record stands at 0x2000. -/
def walking (l : Launch) : State := { cmdState (nest [(0, 8, 2), (8, 4, 1)]) with launches := [l], args := { k := 4, word := 0x2000 } }

theorem test_meets_WalkersHandOutWork :
    let l := launchOf (nest [(0x38, 4, 6)])
    let s := walking l
    let a := fun st => put (walking { launchOf (nest [(0x58, 8, 0x7000)]) with started := false }) 0x7008 [st]
    let r := { run.setContext 2 ((CtxSt.reset.setField 0 1 2).setField 0x40 8 0x1000) with args := { k := 2 } }
    (nestLayout l.bytes = true ∧ 1 < totalOf l.bytes) ∧
      ((a 2).launches.find? fun x => x.id == (a 2).args.k).isSome = true ∧ wordOfField (nest [(0x58, 8, 0x7000)]) 0x58 ≠ 0 ∧
      wordOfField (nest [(0x58, 8, 0x7000)]) 0x60 = 0 ∧ (a 2).recordStatus 1 0x7000 = some 2 ∧
      (a 1).recordStatus 1 0x7000 = some 1 ∧ wordOfField l.bytes 0x58 = 0 ∧ wordOfField l.bytes 0x60 = 0 ∧
      ((s.launches.find? fun x => x.id == s.args.k) = some l ∧ (s.launches.filter fun x => x.die == l.die && x.ready) = [l] ∧
        s.graphs = [] ∧ l.prio < 4 ∧ l.coresident = false ∧ (∀ q, q < 4 → s.otherFits l.die q = false) ∧
        s.placeFor l.ask = some 1) ∧
      ((r.context 2).state = 2 ∧ (r.rootOf 2).isNone = true ∧ (r.context 2).rootEnded = false ∧
        r.higherFits (r.context 2).dieNo (r.context 2).prio = false ∧ r.placeFor (r.context 2).ask = some 1) := by
  decide +kernel

/-- A graph whose node holds three records; a landing whose blob of one line streams into buffer 0. -/
theorem test_meets_WalkersHandOutWork_batches :
    let n := nodeOf (List.replicate 3 (0, bytesOf 16 9))
    let g := graphOf [n] false
    let s := { run with graphs := [g], args := { k := 3 } }
    let b := { nodeOf [] with bytes := record 64 [(0x2F, 1, 1), (0x34, 4, 64), (0x38, 8, 0x2000)] }
    let t := { (runWith fun t => { t with iter := { t.iter with work := .batch, streaming := true, buffer := some 0, graph := 0x5000, node := 0 } }) with
      graphs := [graphOf [b] false] }
    (s.graphs.find? fun x => x.id == s.args.k) = some g ∧ s.launches = [] ∧
      (s.graphs.filter fun x => x.die == g.die && !x.cancelled && x.nodes.any fun y => !y.queue.isEmpty) = [g] ∧
      g.prio < 4 ∧ (List.range g.nodes.length).filter (s.eligible g) = [0] ∧ g.nodes[0]? = some n ∧ n.landing = false ∧
      s.batchPlace g n = some (1, none) ∧ s.batchSize g n = 2 ∧ (∀ q, q < 4 → s.otherFits g.die q = false) ∧
      (t.st.iter.streaming = true ∧ t.st.iter.buffer = some 0 ∧ t.graphAt t.st.ctx t.st.iter.graph = some (graphOf [b] false) ∧
        (graphOf [b] false).nodes[t.st.iter.node]? = some b ∧ (t.blobRead t.st.ctx (b.bsize / 64) 0 b.blob).toBool = true) := by
  decide +kernel

theorem test_meets_WalkersHandOutWork_chosen :
    ({ run with graphs := [graphOf [nodeOf (List.replicate 3 (0, bytesOf 16 9))] false] } : State).chosenNode
      (graphOf [nodeOf (List.replicate 3 (0, bytesOf 16 9))] false) = some 0 := by
  have h : (List.range (graphOf [nodeOf (List.replicate 3 (0, bytesOf 16 9))] false).nodes.length).filter
      (({ run with graphs := [graphOf [nodeOf (List.replicate 3 (0, bytesOf 16 9))] false] } : State).eligible
        (graphOf [nodeOf (List.replicate 3 (0, bytesOf 16 9))] false)) = [0] := by decide +kernel
  rw [State.chosenNode, h, List.mergeSort_singleton]
  rfl

/-- An ending root; a launch iteration after a machine check; one that ends with two left and as the last; the final
write of a finished and of a cancelled record; an iteration to be handed out again. -/
theorem test_meets_IterationsAndRecordsEnd :
    let l := launchOf (nest [])
    let ends := fun (i : Iter) (s : State) => s.upd fun t => { t with iter := { i with ending := true } }
    let r := ends run.st.iter run
    let it : Iter := { work := .launch, launch := 4, recAddr := 0x2000 }
    let mc := ends { it with cause := 0x13 } (walking l)
    let s := ends it (walking l)
    let one := put s 0x2000 [1]
    let f := { put (walking l) 0x2000 [1] with finishing := [⟨1, 0x2000, 0, 1⟩], args := { k := 1, word := 0x2000 } }
    let c := { f with cancelled := [⟨1, 0x2000, 0, 0x2000, 0⟩] }
    let u : Strand := { Strand.reset with ctx := 1, iter := it }
    let h := { walking l with rehand := [u], args := { k := 0 } }
    (r.st.iter.ending = true ∧ r.st.run = .running ∧ r.st.queue = [] ∧ r.st.stores = [] ∧ r.st.loads = [] ∧ r.st.streams = [] ∧
        r.st.claims = [] ∧ r.commandsDone r.st.iter.id = true ∧ r.st.iter.work = .root ∧ r.st.iter.cause = 0) ∧
      (mc.st.iter.work = .launch ∧ mc.st.iter.cause = 0x13 ∧ mc.st.iter.effects = false ∧ mc.st.iter.rehanded = false ∧
        mc.st.iter.cancelled = false ∧ mc.st.tvec = 0) ∧
      ((s.launches.any fun l => l.id == s.st.iter.launch) = true ∧ s.recordCount s.st.ctx 0x2000 = some 2 ∧
        one.recordCount one.st.ctx 0x2000 = some 1 ∧ s.engPlace s.st.ctx .write .any 0x2000 = some (.mem 0x2000) ∧
        s.isCancelled s.st.ctx 0x2000 0 = false ∧ (s.context s.st.ctx).ulOn = false ∧ s.flights = [] ∧ s.st.streams = [] ∧
        s.st.claims = [] ∧ s.commandsDone s.st.iter.id = true ∧ Memory.wf one.mem = true) ∧
      (f.launchAt 1 0x2000 = some l ∧ l.parent = 0 ∧ f.engPlace 1 .write .any 0x2000 = some (.mem 0x2000) ∧
        Memory.wf f.mem = true ∧ (f.context 1).ulOn = false ∧ f.flights = [] ∧
        (f.finishing.find? fun x => x.ctx == 1 && x.recAddr == 0x2000) = some ⟨1, 0x2000, 0, 1⟩ ∧ f.isCancelled 1 0x2000 0 = false ∧
        f.recordCount 1 0x2000 = some 1 ∧ c.cancelled = [⟨1, 0x2000, 0, 0x2000, 0⟩] ∧
        (∀ u ∈ (c.st :: c.others.map Prod.snd) ++ c.saved.map Saved.strand, u.iter.work = .launch → u.ctx = 1 →
          u.iter.recAddr ≠ 0x2000)) ∧
      (h.rehand[h.args.k]? = some u ∧ u.iter.work = .launch ∧ l.cancelled = false ∧ h.higherFits l.die u.iter.prio = false ∧
        (h.launches.find? fun x => x.id == u.iter.launch) = some l ∧
        ({ h with rehand := h.rehand.eraseIdx h.args.k } : State).placeFor { l.ask with coresident := false } = some 1) := by
  decide +kernel

/-- A save pool of one slot at 0x220000 on page 0x200000, with the area all zero. -/
def pooled : State := run.setContext 1 (((run.context 1).setField 0x28 8 0x200000).setField 0x30 4 1)

/-- The core of strand 0 is full: the others have stopped over a held image. Work of priority 3 waits in the pool. -/
def crowded : State :=
  let other : Strand := { Strand.reset with run := .stopped 1, iter := { work := .launch } }
  let up : Saved := { home := 0, area := 0, strand := { Strand.reset with iter := { work := .launch, prio := 3 } }, parked := false }
  { pooled with others := [(1, other), (2, other), (3, other)], saved := [up] }

theorem test_meets_PreemptionAndResume :
    let w := put (pooled.upd fun t => ({ t with sleep := .word 0x2000 }.xset 4 7).xset 5 0x2000) 0x1000
      (bytesOf 4 ((encode (.wait ⟨0, 5, 4, true, false, false⟩)).getD 0).toNat)
    let h := crowded.upd fun t => { t with queue := [entry (.vadd ⟨3, 4, 5, 2, false, 0, false, false⟩)] }
    let x := w.upd fun t => { t with
      level := .supervisor, held := true, image := [entry (.vadd ⟨3, 4, 5, 2, false, 0, false, false⟩)] }
    ((crowded.st.loads = [] ∧ crowded.st.draining = false ∧ crowded.st.stores = [] ∧ crowded.st.queue = [] ∧
        crowded.args.k ≤ crowded.st.vstart.toNat ∧ (h.st.queue.head?.bind formOf).any (fun f => f.grain != 0) = true ∧
        (h.st.queue.all fun e => e.scalar == 0) = true ∧ h.candidate h.st = true) ∧
      crowded.savePlaces crowded.st = some (0, 0x220000, (areaAt 0x220000)) ∧ (crowded.context crowded.st.ctx).ulOn = false ∧
      crowded.flights = [] ∧ crowded.st.tonPend = none ∧ Memory.wf crowded.mem = true ∧
      crowded.coreFull 0 = true ∧ (coreStrands 0).filter (fun n => crowded.candidate (crowded.strand n)) = [0] ∧
      crowded.st.deferred = false ∧ crowded.slotWanted 0 (fun p => decide (crowded.st.prio.toNat < p)) = true ∧
      crowded.onLanding crowded.st = false) ∧
    (w.st.sleep = .word 0x2000 ∧ w.watched = some ⟨w.st.iter.id, 0x2000, .mem 0x2000, 0, true, 7, false⟩ ∧
      w.candidate w.st = true ∧ w.st.iter.work = .root ∧ w.st.wto = 0 ∧
      w.savePlaces w.st = some (0, 0x220000, (areaAt 0x220000))) ∧
    (x.st.sleep = .word 0x2000 ∧ x.watched = w.watched ∧ x.candidate x.st = true ∧ x.st.loads = [] ∧ x.st.stores = [] ∧
      x.st.queue = [] ∧ x.savePlaces x.st = some (0, 0x220000, (areaAt 0x220000))) ∧
    run.coreFull (coreOf run.cur) = false := by decide +kernel

theorem test_meets_PreemptionAndResume_victim : crowded.victim 0 = some 0 := by
  have h : (coreStrands 0).filter (fun n => crowded.candidate (crowded.strand n)) = [0] := by decide +kernel
  rw [State.victim, h, List.mergeSort_singleton]
  rfl

/-- A saved iteration whose area holds zeros but for a number of tiles, and the machine that holds it with strand 0 free.
The other strands of its core own these tiles. A parked root's line has been written or not. -/
def waiting (work : Work) (parked : Bool) : Saved :=
  { home := 0, area := 0x220000, strand := { run.st with iter := { work := work, id := 9 } }, parked := parked }

def resumable (work : Work) (woken : Option Bool) (tiles : Nat) (own : List Nat) : State :=
  let s := put pooled 0x220016 [BitVec.ofNat 8 tiles]
  { s with
    st := Strand.reset
    saved := [waiting work woken.isSome]
    others := own.map fun n => (n, { Strand.reset with run := .running, tonOwned := 4, iter := { work := .launch } })
    monitors := (woken.map fun w => ⟨9, 0x2000, .mem 0x2000, 0, false, 0, w⟩).toList }

/-- The hypotheses of the last clause of `PreemptionAndResume`, with strand 0 to be taken, and whether the tiles are granted
at once. -/
def resumes (s : State) (v : Saved) (tiles : Nat) (granted : Bool) : Bool :=
  let s1 := ({ s with saved := s.saved.eraseIdx s.args.k } : State).focus 0
  let v1 : Strand := { v.strand with iter := { v.strand.iter with buffer := none } }
  let s2 := s1.upd fun _ => { v1 with
    stores := [], loads := [], undo := [], queue := [], image := [], held := false, streams := [], crit := false
    sleep := .awake, run := .running, tonOwned := 0, tonPend := none }
  let rd := s2.areaReader (areaAt 0x220000)
  s.saved[s.args.k]? == some v && (s.strand 0).vacant && !s.onLanding v.strand &&
    s1.coreRoom 0 { streams := v.strand.iter.streams, scratch := v.strand.scratchSize } &&
    (match pagePlaces (fun x => s2.checkDevice v.strand.ctx .read 1 x) (s2.skewAt v.strand.ctx) v.area areaPages 0 with
      | .ok ps => ps == (areaAt 0x220000)
      | .error _ => false) &&
    (s2.areaPoison v.area (areaAt 0x220000) rd).isNone && areaLegal rd && rd 0x16 1 == tiles &&
    (match s2.loadArea rd none (some v1) with
      | .ok u => (s2.upd fun _ => { ({ u with skip := false } : Strand).return_ with skip := u.skip }).canGrant tiles s.stamp == granted
      | .error _ => false)

theorem test_meets_PreemptionAndResume_resume :
    resumes (resumable .launch none 0 []) (waiting .launch false) 0 true = true ∧
      resumes (resumable .launch none 2 []) (waiting .launch false) 2 true = true ∧
      resumes (resumable .launch none 2 [1, 2]) (waiting .launch false) 2 false = true ∧
      resumes (resumable .root (some true) 0 []) (waiting .root true) 0 true = true := by decide +kernel

theorem test_meets_PreemptionAndResume_woken :
    let s := resumable .root (some true) 0 []
    let z := resumable .root (some false) 0 []
    s.wokenRoot (waiting .root true) = true ∧ s.wokenAbove (waiting .root true) = false ∧
      s.freeStrand (dieOf (waiting .root true).home) = some 0 ∧ z.saved[z.args.k]? = some (waiting .root true) ∧
      z.wokenRoot (waiting .root true) = false ∧ 0 = (resumable .launch none 0 []).cur ∧
      coreOf (waiting .launch false).home = coreOf 0 := by decide +kernel

theorem test_meets_PreemptionAndResume_apart : pagesApart (areaAt 0x220000) := areaAt_apart (by decide)

theorem test_meets_ContextStates :
    let with_ := fun (c : CtxSt) => { run.setContext 2 c with args := { k := 2 } }
    let ready := with_ ((CtxSt.reset.setField 0 1 1).setField 0x30 4 1)
    let flr := { with_ (CtxSt.reset.setField 0 1 3) with mgmt := { run.mgmt with flr := [0] }, args := { k := 0 } }
    let done := with_ { CtxSt.reset with doneHits := [3] }
    (2 < 4096 ∧ ready.mgmt.flr.contains ready.args.j = false ∧ ready.seesCtx ready.args.j 2 = true ∧
        (ready.context 2).state = 1 ∧ (ready.context 2).startable = true ∧ (ready.context 2).domain = 0) ∧
      ((with_ (CtxSt.reset.setField 0 1 2)).context 2).state = 2 ∧
      (((with_ (CtxSt.reset.setField 0 1 3)).context 2).state = 3 ∧
        (with_ (CtxSt.reset.setField 0 1 3)).mgmt.flr.contains 0 = false) ∧
      ((with_ CtxSt.reset).context 2).state = 0 ∧ run.mgmt.flr.contains 63 = false ∧ flr.mgmt.flr.contains 0 = true ∧
      ((flr.context 2).function = 0 ∧ (flr.context 2).state = 3 ∧ cellsWf 0 flr.mgmt.win = true) ∧
      ((run.context 1).state = 2 ∧ ([0] : List Byte) ≠ [] ∧ (run.context 1).sub + 8 < (run.context 1).sub + 15 + [(0 : Byte)].length) ∧ (done.context 2).doneHits = [3] ∧
      ((with_ CtxSt.reset).context 2).doneHits = [] := by decide +kernel

/-- Accesses at the last bytes of a die's memory; a completion; the selector of a word and of none; values at the ends of
their ranges; Wharf fields that are locked by a bad value and by a seal, and one that is not. -/
theorem test_meets_HostAccesses :
    let top := Config.dieCapacity
    let s := { run with args := { bytes := [1, 2], j := 2, target := .phys (top - 2) } }
    let c := { run with args := { k := 5, answer := .data (List.replicate 64 7) } }
    let w := { run with args := { k := 0 } }
    let bad := { w with mgmt := { w.mgmt with ssel := [(0, -1)] } }
    let sealed_ := { w.setDie 0 { DieSt.reset with seals := [(0, 4)] } with args := { k := 0 } }
    (s.args.bytes ≠ [] ∧ populated (top - 2) = true ∧ populated (top - 2 + 2 - 1) = true ∧ (top - 2) / 2 ^ 49 ≠ 4 ∧
        (top - 2 + 2 - 1) / 2 ^ 49 = (top - 2) / 2 ^ 49 ∧ Memory.wf s.mem = true ∧ s.poison = [] ∧ 0 < s.args.j ∧
        s.mgmt.flr.contains 0 = false) ∧
      (c.args.answer = .data (List.replicate 64 7)) ∧ (0 < 64 ∧ w.sdataWord 0 = some 0 ∧ bad.sdataWord 0 = none) ∧
      (run.mgmt.ready = true ∧ run.mgmt.trip = false ∧ run.flights = [] ∧ (run.context 1).state ≠ 0 ∧ 4096 / 4096 = 1 ∧
        4096 % 4096 + 4096 ≤ 4096 ∧ (run.context 2).state = 0 ∧ (run.die 3).tideLen < 65536 ∧ (run.die 3).tideNext < 2 ^ 31 ∧
        run.mgmt.pwrlim < 2 ^ 64 ∧ cellsWf 0 run.mgmt.win = true) ∧
      (let v := { run with mgmt := run.mgmt.put 0x100 [1, 0, 1, 0], args := { k := 1, j := 8, target := .submission 0 } }
       v.mgmt.vfbase 1 = 1 ∧ v.mgmt.vfcount 1 = 1 ∧ v.mgmt.flr.contains 1 = false ∧ ¬(1 < v.mgmt.vfcount 1) ∧ v.poison = []) ∧
      ((ofBytes (bytesOf 8 4095) < 4096 ∧ 4096 ≤ ofBytes (bytesOf 8 4096)) ∧ run.mgmt.recovery = false ∧
        (bytesOf 8 4095).length = 8 ∧ ofBytes (bytesOf 8 1200) = 1200 ∧ ofBytes (bytesOf 8 2400) = 2400 ∧
        ofBytes (bytesOf 8 1199) < 1200 ∧ 2400 < ofBytes (bytesOf 8 2401)) ∧
      (0x9001 / 4096 % 8 ≠ 0 ∧ 0x8001 / 4096 % 8 = 0 ∧ (w.mgmt.wharfField 0 0).testBit 15 = false ∧ (w.die 0).seals = [] ∧
        (∃ p ∈ (sealed_.die 0).seals, p.1 = 0) ∧
        (let busy := { w with cmds := [command .wharf (record 64 []) []] }
         0x8001 % 65536 / 4096 % 8 = 0 ∧ (0x8001 : Nat).testBit 15 = true ∧ busy.wharfBusy (0x8001 % 4096) = true ∧
          w.wharfBusy (0x8001 % 4096) = false)) := by decide +kernel

theorem test_meets_BootPowerAndErrors :
    let m := fun (x : Mgmt) => { run with mgmt := x, inputs := [] }
    let dev := fun (x : Mgmt) => { m x with inputs := [.dev .hostWrite 0 {}] }
    let t := { run.mgmt with trip := true }
    let r := { run.mgmt with ready := false, recovery := true }
    let asked := fun kind ctx => ((run.mgmt.put 0xA2000 (bytesOf 4 1)).put 0xA2008 (bytesOf 4 kind)).put 0xA200C (bytesOf 2 ctx)
    ((m t).mgmt.trip = true ∧ (m t).inputs = [] ∧ (m r).mgmt.recovery = true) ∧
      (dev t).inputs = .dev .hostWrite 0 {} :: [] ∧ Instr.hostWrite ≠ .packageBoot ∧
      Instr.hostWrite ∉ [Instr.pkstatWrite, .mgmtRegisterWrite, .attestationRequest, .attestationComplete] ∧
      (63 < 64 ∧ run.mgmt.flr.contains 63 = false ∧ cellsWf 0 run.mgmt.win = true ∧ run.mgmt.field 0xA2000 4 ≠ 1 ∧
        (asked 0 0).field 0xA2000 4 = 1) ∧
      ((asked 0 0).field 0xA2008 4 = 0 ∧ (asked 1 4095).field 0xA2008 4 = 1 ∧ (asked 1 4095).field 0xA200C 2 = 4095 ∧
        (m (asked 1 4095)).ownsCtx 0 4095 = true ∧ (m (asked 1 4095)).ownsCtx 1 4095 = false ∧
        (run.die 3).tideIn = false ∧ ((run.setDie 3 { DieSt.reset with tideIn := true }).die 3).tideIn = true ∧
        1 < (asked 2 0).field 0xA2008 4 ∧ cellsWf 0 (asked 1 4095).win = true) ∧
      (3 < 4 ∧ (15 : Fin 16).val = 15 ∧ 1 ≤ 8 ∧ populated (64 * 0) = true ∧ 64 * 0 / 2 ^ 49 ≠ 4 ∧ run.cur < 2048 ∧
        run.st.iter.work ≠ .none ∧ (31 : Reg) ≠ 0 ∧ 255 < 256) := by decide +kernel


/-! ### Single steps whose results the spec works out

Each value comes from the example or table of the rule that the docstring names. -/

/-- What a next state shows; false of a stop. -/
def shows (r : Result) (p : State → Bool) : Bool :=
  match r with
  | .next t => p t
  | _ => false

/-- R93: a table at 0x1_0002_3A40 takes `lih x10, 0x10002` and then `ori x10, x10, 0x3A40`. -/
theorem test_lih_ori :
    shows (exec (.lih ⟨10, 0x10002⟩) run) (fun t => t.st.xget 10 == 0x100020000) = true ∧
      shows (exec (.ori ⟨10, 10, 0x3A40⟩) (run.setX 10 0x100020000)) (fun t => t.st.xget 10 == 0x100023A40) = true := by
  decide +kernel

/-- R90: the borderline cases of division, x3 by x4. -/
theorem test_division_borders :
    let lo : Word := 0x8000000000000000
    let gives := fun (i : Instr) (a b x : Word) => shows (exec i (regs a b)) fun t => t.st.xget 6 == x
    (gives (.div ⟨6, 3, 4, false, false⟩) 5 0 (-1) && gives (.divn ⟨6, 3, 4, false, false⟩) 5 0 (-1) &&
      gives (.rem ⟨6, 3, 4, false, false⟩) 5 0 5 && gives (.remn ⟨6, 3, 4, false, false⟩) 5 0 5 &&
      gives (.div ⟨6, 3, 4, false, false⟩) lo (-1) lo && gives (.rem ⟨6, 3, 4, false, false⟩) lo (-1) 0 &&
      gives (.div ⟨6, 3, 4, false, false⟩) (-7) 2 (-3) && gives (.rem ⟨6, 3, 4, false, false⟩) (-7) 2 (-1)) = true := by
  decide +kernel

/-- R95: a target that is both non-canonical and misaligned takes 0x07; `jmpr` may write the register it reads. -/
theorem test_jmpr :
    let s := sup.setX 3 0x0100000000000001
    shows (exec (.jmpr ⟨3, 3, 0⟩) s) (fun t => t.st.tcause.toNat % 256 == 0x07 && t.st.tval == 0x0100000000000001 &&
        t.st.xget 3 == 0x0100000000000001 && t.st.pc == 0x4000) = true ∧
      shows (exec (.jmpr ⟨3, 3, -4⟩) (run.setX 3 0x2000)) (fun t => t.st.pc == 0x1FFC && t.st.xget 3 == 0x1004) = true := by
  decide +kernel

/-- R108: the first two calls of the example of `setvlf`, on n32 lengths 3, 5, 600 and 2 with `.i32`. -/
theorem test_setvlf :
    let m := fun (s : State) => { s with mem := setCells 0 0x2000 (bytesOf 4 3 ++ bytesOf 4 5 ++ bytesOf 4 600 ++ bytesOf 4 2) s.mem }
    shows (exec (.setvlf ⟨6, 3, 4, 2, false, false⟩) (m (regs 0x2000 4)))
        (fun t => t.st.vl == 8 && t.st.xget 6 == 2 && t.st.vsg.toNat == 2 ^ 3 && t.st.vfrem.toNat == 0) = true ∧
      shows (exec (.setvlf ⟨6, 3, 4, 2, false, false⟩) (m (regs 0x2008 2)))
        (fun t => t.st.vl == 512 && t.st.xget 6 == 0 && t.st.vfrem.toNat == 88) = true := by
  decide +kernel

/-- R80: 1 + 3 × 2^−9 narrows to 0x3F81 with the residual −2^−9, and NX is raised. -/
theorem test_vnef :
    shows (exec (.vnef ⟨3, 4, 5, false, 0, false⟩) (withV (vec 1) 4 0x3F80C000)) (fun t =>
      t.elem 3 16 0 == 0x3F81 && t.elem 5 32 0 == 0xBB000000 && t.st.fflags == flagNX) = true := by
  decide +kernel

/-- R86: the tree over 2^24, 1, 1 and 1 gives 0x4B80_0001 and raises NX at the first position. -/
theorem test_vrfsum :
    shows (exec (.vrfsum ⟨3, 4, false, false, 2, false, false⟩)
      (withV (vec 4) 4 (0x4B800000 + 0x3F800000 * (2 ^ 32 + 2 ^ 64 + 2 ^ 96)))) (fun t =>
        t.elem 3 32 0 == 0x4B800001 && t.st.fflags == flagNX && t.st.ffirst[4] == 0) = true := by
  decide +kernel

/-- R81, R82: the states of a converter seeded with 1. -/
theorem test_lfsr :
    lfsrStep 0x00000001 = 0x80200003 ∧ lfsrStep 0x80200003 = 0xC0300002 ∧ lfsrStep 0xC0300002 = 0x60180001 ∧
      lfsrStep 0x60180001 = 0xB02C0003 := by decide

/-- R117: a supervisor kind at user level takes trap 0x19; after a breakpoint, trap 0x11, the handler resumes behind it. -/
theorem test_traps_of_sys :
    let s := runWith fun t => { t with tvec := 0x4000 }
    let traps := fun (i : Instr) (cause : Nat) (epc : Nat) => shows (exec i s) fun t =>
      t.st.tcause.toNat % 256 == cause && t.st.pc == 0x4000 && t.st.level == .supervisor && t.st.tepc.toNat == epc
    (traps .eret 0x19 0x1000 && traps .dbrk 0x11 0x1004 && traps .scall 0x10 0x1004) = true := by
  decide +kernel

end Sys2Proof.Tests
end

/-! SUPPORT. The numbers of the model in the words of `BitVec`, and the scalar floating instructions (R101 to R104): what
their frame does, and the statement about them. -/

namespace Sys2Proof.Machine

/-! ## Integers in the low bits of a number (R61) -/

/-- A signed integer of `w` bits is the two's complement reading of them. -/
theorem readInt_signed (w x : Nat) : readInt w false x = (BitVec.ofNat w x).toInt := by
  have hmsb : (BitVec.ofNat w x).msb = (x % 2 ^ w).testBit (w - 1) := by
    rw [BitVec.msb_eq_getLsbD_last, BitVec.getLsbD_ofNat, Nat.testBit_mod_two_pow]
  simp only [readInt, Bool.not_false, Bool.true_and, BitVec.toInt_eq_msb_cond, hmsb, BitVec.toNat_ofNat]

/-- An unsigned one is its low bits. -/
theorem readInt_unsigned (w x : Nat) : readInt w true x = ((x % 2 ^ w : Nat) : Int) := by
  simp [readInt]

/-- Either reading, as conversions from integers name it (R70). -/
theorem readInt_eq (w : Nat) (uns : Bool) (x : Nat) :
    readInt w uns x = if uns then ((x % 2 ^ w : Nat) : Int) else (BitVec.ofNat w x).toInt := by
  cases uns
  · exact readInt_signed w x
  · exact readInt_unsigned w x

/-- The encoding of an integer is that of `BitVec.ofInt`. -/
theorem wrapInt_eq (w : Nat) (k : Int) : wrapInt w k = (BitVec.ofInt w k).toNat := by
  rw [wrapInt, BitVec.toNat_ofInt]

theorem intWidth_pos (ty : BitVec 2) : 0 < intWidth ty := Nat.mul_pos (by decide) (Nat.two_pow_pos _)

theorem fpWidth_pos (ty : BitVec 2) : 0 < fpWidth ty := by revert ty; decide

/-! ## The frame of the scalar floating instructions -/

@[simp] theorem State.raise0_pc (s : State) (f : FFlags) : (s.raise0 f).st.pc = s.st.pc := by
  unfold State.raise0
  split
  · rfl
  · split
    · simp only [Strand.raise0]; split <;> rfl
    · rfl

/-- A form that rounds takes trap 0x02 while `frm` is 4 (R67). -/
theorem State.floating_trap {s : State} (h : s.st.frm = 4) {i : Instr} {rounds : Bool} (hr : rounds = true)
    {srcs : List (Reg × Bool)} {d : Reg} {f : Strand → Word × FFlags} :
    s.floating i rounds srcs d f = s.decodeTrap i 0x02 := by
  simp [State.floating, h, hr]

/-- A form that does not round, or rounds in a legal mode, delivers its result and its flags (R101 to R104). -/
theorem State.floating_next {s : State} {i : Instr} {rounds : Bool} {srcs : List (Reg × Bool)} {d : Reg}
    (hr : s.st.frm ≠ 4 ∨ rounds = false) (h : s.usable (srcs.map Prod.fst) [d]) (f : Strand → Word × FFlags) :
    s.floating i rounds srcs d f = ((s.setX d (f s.st).1).raise0 (f s.st).2).advance := by
  have hgo : (rounds && s.st.frm == 4) = false := by
    rcases hr with hr | rfl
    · simpa using fun _ => hr
    · rfl
  simp only [State.floating, hgo, Bool.false_eq_true, if_false]
  exact State.gated_of_usable _ h

/-- Such a form moves past one word. -/
theorem State.floating_pc {s : State} {i : Instr} {rounds : Bool} (hr : rounds = false) {srcs : List (Reg × Bool)}
    {d : Reg} (h : s.usable (srcs.map Prod.fst) [d]) (f : Strand → Word × FFlags) :
    (s.floating i rounds srcs d f).st.pc = s.st.pc + 4 := by
  simp [State.floating_next (.inr hr) h]

/-- The fused forms read their destination too (R102). -/
theorem State.usable.withDest {s : State} {a b d : Reg} (h : s.usable [a, b] [d]) (hp : s.st.anyPoison [d] = false) :
    s.usable [a, b, d] [d] := by
  obtain ⟨h1, h2⟩ := h
  simp only [State.usable, Strand.allReady, Strand.anyPoison, List.cons_append, List.nil_append, List.all_cons,
    List.all_nil, List.any_cons, List.any_nil, Bool.or_false, Bool.and_true, Bool.and_eq_true, Bool.or_eq_false_iff] at *
  exact ⟨⟨h1.1, h1.2.1, h1.2.2, h1.2.2⟩, h2.1, h2.2, hp⟩

/-- The conversions between formats that are exact are those to a wider format (R67). -/
theorem widens_iff (src dst : BitVec 2) :
    widens src dst = true ↔ dst = 3 ∧ src ≠ 3 ∨ dst = 2 ∧ (src = 0 ∨ src = 1) := by
  revert src dst; decide

/-- The integer widths that a format holds exactly (R67). -/
theorem intExact_iff (w dst : BitVec 2) :
    intExact w dst = true ↔ w = 0 ∨ w = 1 ∧ (dst = 2 ∨ dst = 3) ∨ w = 2 ∧ dst = 3 := by
  revert w dst; decide

/-! ## The arithmetic, minimum, maximum and compares (R101, R102) -/

section
variable {s : State} {o : FOps}

theorem State.fbin_next (h : s.usable [o.a, o.b] [o.d]) (hf : s.st.frm ≠ 4) (i : Instr)
    (f : Fmt → RMode → Bool → FVal → FVal → Nat × FFlags) :
    s.fbin i o f =
      let r := f (fmtOf o.ty) s.st.frm s.st.fz (s.st.fread o.ty o.a) (s.st.fread o.ty o.b)
      ((s.setX o.d (BitVec.ofNat 64 r.1)).raise0 r.2).advance :=
  State.floating_next (srcs := [(o.a, o.fa), (o.b, o.fb)]) (.inl hf) h _

theorem State.ffused_next (h : s.usable [o.a, o.b] [o.d]) (hp : s.st.anyPoison [o.d] = false) (hf : s.st.frm ≠ 4)
    (i : Instr) (f : Fmt → RMode → Bool → FVal → FVal → FVal → Nat × FFlags) :
    s.ffused i o f =
      let r := f (fmtOf o.ty) s.st.frm s.st.fz (s.st.fread o.ty o.d) (s.st.fread o.ty o.a) (s.st.fread o.ty o.b)
      ((s.setX o.d (BitVec.ofNat 64 r.1)).raise0 r.2).advance :=
  State.floating_next (srcs := [(o.a, o.fa), (o.b, o.fb), (o.d, false)]) (.inl hf) (h.withDest hp) _

theorem State.fminmax_next (h : s.usable [o.a, o.b] [o.d]) (i : Instr) (wantMax : Bool) :
    s.fminmax i o wantMax =
      let r := minmaxF (fmtOf o.ty) s.st.fz wantMax (fpBits o.ty (s.st.xget o.a)) (fpBits o.ty (s.st.xget o.b))
      ((s.setX o.d (BitVec.ofNat 64 r.1)).raise0 r.2).advance :=
  State.floating_next (srcs := [(o.a, o.fa), (o.b, o.fb)]) (.inr rfl) h _

theorem State.fcompare_next (h : s.usable [o.a, o.b] [o.d]) (i : Instr) (cmp : FVal → FVal → Bool × FFlags) :
    s.fcompare i o cmp =
      let r := cmp (s.st.fread o.ty o.a) (s.st.fread o.ty o.b)
      ((s.setX o.d (if r.1 then 1 else 0)).raise0 r.2).advance :=
  State.floating_next (srcs := [(o.a, o.fa), (o.b, o.fb)]) (.inr rfl) h _

end

/-! ## The statement -/

/-- Settles O16: each form is its frame, and the frame delivers or traps by `State.floating_next` and
`State.floating_trap`. -/
theorem floatingResults : Obligations.FloatingResults := by
  unfold Obligations.FloatingResults
  refine ⟨⟨fun o s h => ?_, fun o s h => ?_, fun o s h hf => ?_, fun o s h hf => ?_⟩, fun s hf => ?_⟩
  case refine_1 =>
    intro F w rm fz bits A B D put test
    have next {u v : State} (e : u = v) : (Host.Outcome.next u : Result) = .next v := congrArg _ e
    exact ⟨fun hf => ⟨next (State.fbin_next h hf _ _), next (State.fbin_next h hf _ _), next (State.fbin_next h hf _ _),
        next (State.fbin_next h hf _ _), fun hp => ⟨next (State.ffused_next h hp hf _ _), next (State.ffused_next h hp hf _ _)⟩⟩,
      next (State.fminmax_next h _ _), next (State.fminmax_next h _ _), next (State.fcompare_next h _ _),
      next (State.fcompare_next h _ _), next (State.fcompare_next h _ _)⟩
  case refine_2 =>
    exact ⟨fun hf => congrArg Host.Outcome.next (State.floating_next (srcs := [(o.a, o.fa)]) (.inl hf) h _),
      congrArg Host.Outcome.next (State.floating_next (srcs := [(o.a, o.fa)]) (.inr rfl) h _)⟩
  case refine_3 =>
    exact congrArg Host.Outcome.next (State.floating_next (srcs := [(o.a, o.fa)]) (hf.imp_right (by simp [·])) h _)
  case refine_4 =>
    intro F x w
    refine ⟨?_, fun hf => congrArg Host.Outcome.next (State.floating_next (srcs := [(o.a, o.fa)]) (.inl hf) h _)⟩
    simp only [w, ← readInt_eq]
    exact congrArg Host.Outcome.next (State.floating_next (srcs := [(o.a, o.fa)]) (hf.imp_right (by simp [·])) h _)
  case refine_5 =>
    have trap {i rounds srcs d f} (hr : rounds = true) :
        (Host.Outcome.next (s.floating i rounds srcs d f) : Result) = .next (s.decodeTrap i 0x02) :=
      congrArg _ (State.floating_trap hf hr)
    have passes {i rounds srcs d f} (hr : rounds = false) (h : s.usable (srcs.map Prod.fst) [d]) :
        ∃ t, (Host.Outcome.next (s.floating i rounds srcs d f) : Result) = .next t ∧ t.st.pc = s.st.pc + 4 :=
      ⟨_, rfl, State.floating_pc hr h f⟩
    refine ⟨fun o i hi => ?_, fun o => trap rfl, fun o => trap rfl, fun o => ⟨fun hn => ?_, fun hy h => ?_⟩,
      fun o => ⟨fun hn => ?_, fun hy h => ?_⟩, fun o h => passes (srcs := [(o.a, o.fa)]) rfl h, fun o i hi h => ?_⟩
    · simp only [List.mem_cons, List.not_mem_nil, or_false] at hi
      rcases hi with rfl | rfl | rfl | rfl | rfl | rfl <;> exact trap rfl
    · exact trap (by rwa [Bool.not_eq_true', ← Bool.not_eq_true, widens_iff])
    · exact passes (srcs := [(o.a, o.fa)]) (by rwa [Bool.not_eq_false', widens_iff]) h
    · exact trap (by rwa [Bool.not_eq_true', ← Bool.not_eq_true, intExact_iff])
    · exact passes (srcs := [(o.a, o.fa)]) (by rwa [Bool.not_eq_false', intExact_iff]) h
    · simp only [List.mem_cons, List.not_mem_nil, or_false] at hi
      rcases hi with rfl | rfl | rfl | rfl | rfl <;> exact passes (srcs := [(o.a, o.fa), (o.b, o.fb)]) rfl h

end Sys2Proof.Machine

/-! SUPPORT. Vector forms with no x operand and plain tags: what decode lets through, and how the laws of the vector queue
read for them. The vector compares (R146), the element-wise floating forms (R148, R149). -/

namespace Sys2Proof.Machine

/-- A form that only its length and its register rules can stop at decode: no x operand, `vd` written with plain tags, at
most `n` elements. -/
structure VForm.plain (f : VForm) (vd : List Reg) (n : Nat) : Prop where
  check : f.check = fun _ => none
  legal : f.legal = true
  limit : f.limit = fun _ => some n
  xs : f.xs = []
  xd : f.xd = none
  emptiesVl : f.emptiesVl = false
  vd : f.vd = vd
  tags : f.tags = fun _ _ _ => none

/-- Decode lets such a form through in a legal rounding mode (R37, R67). -/
theorem VForm.plain.fault {f : VForm} {vd : List Reg} {n : Nat} (hp : f.plain vd n) {s : State} (h : s.quiet)
    (hn : s.st.vl.toNat ≤ n) (hr : f.rounds = true → s.st.frm ≠ 4) : f.fault s = none := by
  refine State.fault_none h (by rw [hp.check]) hp.legal hr fun m hm => ?_
  rw [hp.limit] at hm
  cases hm
  exact hn

/-- R140: the register rule of a replicated source. -/
theorem repLegal_of {d b : Reg} {rep : BitVec 3} (h : rep = 0 ∨ d ≠ b) : repLegal d b rep = true := by
  simpa [repLegal] using h

/-! ## What the bodies read -/

/-- A floating element of a pushed instruction is read under the `fz` of the strand (R69). -/
theorem State.pushed_felem (s : State) (i : Instr) (f : VForm) (ty : BitVec 2) (r : Reg) (k : Nat) :
    (s.pushed i f).felem (s.entryOf i f) ty r k = readF (fmtOf ty) s.st.fz (s.elem r (fpWidth ty) k) := by
  rw [State.felem, State.pushed_elem]
  rfl

theorem State.elem_lt (s : State) (r : Reg) (w k : Nat) : s.elem r w k < 2 ^ w := elemOf_lt _ _ _

/-! ## Element-wise results -/

/-- The instruction completes; each enabled element of `d` below `vl` receives what `g` gives, with its flags, and all
else is kept (R139, R145, R71 to R74). -/
def State.lanesGiven (s : State) (r : Result) (d : Reg) (w : Nat) (m : Bool) (g : Nat → Nat × FFlags) : Prop :=
  ∃ t, r = .next t ∧ s.lanesAre t d w m (fun k => (g k).1) ∧ s.flagsGain t m (fun k => (g k).2) ∧ t.st.tag d = 0 ∧
    s.vectorDone t [] [d] ∧ t.st.vm = s.st.vm

theorem State.lanesGiven_of {s : State} {i : Instr} {f : VForm} {d : Reg} {w n : Nat} {m : Bool}
    {g : Nat → Nat × FFlags} (hp : f.plain [d] n) (h : s.quiet) (hl : s.vlFits w) (hw : 0 < w) (hn : s.st.vl.toNat ≤ n)
    (hr : f.rounds = true → s.st.frm ≠ 4)
    (hb : f.body (s.entryOf i f) 0 s.st.vl.toNat (s.pushed i f) =
      (s.pushed i f).lanesTo d w 0 s.st.vl.toNat ((s.pushed i f).masked m g)) :
    s.lanesGiven (.next (s.vector i f)) d w m g := by
  obtain ⟨t, e, hdone, htag, hvm, hlanes, hflags, -⟩ :=
    State.vector_masked h (hp.fault h hn hr) hp.xs hl hw hp.xd hp.emptiesVl hp.vd hp.tags hb
  exact ⟨t, congrArg _ e, hlanes, hflags, htag, hdone, hvm⟩

/-- The forms of R148 with two sources. -/
theorem vfpForm_gives {s : State} {o : VOps} {rounds : Bool} (h : s.quiet) (hl : s.vlFits (fpWidth o.ty))
    (hrep : o.rep = 0 ∨ o.d ≠ o.b) (hr : rounds = true → s.st.frm ≠ 4) (i : Instr)
    {f : State → QEntry → Nat → Nat × FFlags} {g : Nat → Nat × FFlags}
    (hg : ∀ k, f (s.pushed i (vfpForm o rounds f)) (s.entryOf i (vfpForm o rounds f)) k = g k) :
    s.lanesGiven (.next (s.vector i (vfpForm o rounds f))) o.d (fpWidth o.ty) o.m g :=
  State.lanesGiven_of ⟨rfl, repLegal_of hrep, rfl, rfl, rfl, rfl, rfl, rfl⟩ h hl (fpWidth_pos _) hl.2 hr
    (by rw [← funext hg]; rfl)

/-- The arithmetic forms round once under `frm`. -/
theorem vfpBin_gives {s : State} {o : VOps} (h : s.quiet) (hl : s.vlFits (fpWidth o.ty)) (hrep : o.rep = 0 ∨ o.d ≠ o.b)
    (hr : s.st.frm ≠ 4) (i : Instr) (f : Fmt → RMode → Bool → FVal → FVal → Nat × FFlags) :
    s.lanesGiven (.next (s.vector i (vfpBin o f))) o.d (fpWidth o.ty) o.m fun k =>
      f (fmtOf o.ty) s.st.frm s.st.fz (readF (fmtOf o.ty) s.st.fz (s.elem o.a (fpWidth o.ty) k))
        (readF (fmtOf o.ty) s.st.fz (s.elem o.b (fpWidth o.ty) (srcb o.rep k))) :=
  vfpForm_gives h hl hrep (fun _ => hr) i fun k => by simp only [State.pushed_felem]; rfl

/-- The fused forms read their destination as well. -/
theorem vfpFused_gives {s : State} {o : VOps} (h : s.quiet) (hl : s.vlFits (fpWidth o.ty))
    (hrep : o.rep = 0 ∨ o.d ≠ o.b) (hr : s.st.frm ≠ 4) (i : Instr)
    (f : Fmt → RMode → Bool → FVal → FVal → FVal → Nat × FFlags) :
    s.lanesGiven (.next (s.vector i (vfpFused o f))) o.d (fpWidth o.ty) o.m fun k =>
      f (fmtOf o.ty) s.st.frm s.st.fz (readF (fmtOf o.ty) s.st.fz (s.elem o.d (fpWidth o.ty) k))
        (readF (fmtOf o.ty) s.st.fz (s.elem o.a (fpWidth o.ty) k))
        (readF (fmtOf o.ty) s.st.fz (s.elem o.b (fpWidth o.ty) (srcb o.rep k))) := by
  refine State.lanesGiven_of ⟨rfl, repLegal_of hrep, rfl, rfl, rfl, rfl, rfl, rfl⟩ h hl (fpWidth_pos _) hl.2
    (fun _ => hr) ?_
  simp only [vfpFused, vfpForm, State.pushed_felem]
  rfl

/-- Minimum and maximum (R70). -/
theorem vfpMinMax_gives {s : State} {o : VOps} (h : s.quiet) (hl : s.vlFits (fpWidth o.ty))
    (hrep : o.rep = 0 ∨ o.d ≠ o.b) (i : Instr) (wantMax : Bool) :
    s.lanesGiven (.next (s.vector i (vfpMinMax o wantMax))) o.d (fpWidth o.ty) o.m fun k =>
      minmaxF (fmtOf o.ty) s.st.fz wantMax (s.elem o.a (fpWidth o.ty) k) (s.elem o.b (fpWidth o.ty) (srcb o.rep k)) :=
  vfpForm_gives (rounds := false) h hl hrep nofun i fun k => by simp only [State.pushed_elem]; rfl

/-- The forms of R149 with one source. -/
theorem vfpUn_gives {s : State} {o : VUn} {rounds : Bool} (h : s.quiet) (hl : s.vlFits (fpWidth o.ty))
    (hr : rounds = true → s.st.frm ≠ 4) (i : Instr)
    {f : State → QEntry → Nat → Nat × FFlags} {g : Nat → Nat × FFlags}
    (hg : ∀ k, f (s.pushed i (vfpUn o rounds f)) (s.entryOf i (vfpUn o rounds f)) k = g k) :
    s.lanesGiven (.next (s.vector i (vfpUn o rounds f))) o.d (fpWidth o.ty) o.m g :=
  State.lanesGiven_of ⟨rfl, rfl, rfl, rfl, rfl, rfl, rfl, rfl⟩ h hl (fpWidth_pos _) hl.2 hr (by rw [← funext hg]; rfl)

/-- Settles O36: each form is one of the frames above. -/
theorem vectorFloatingResults : Obligations.VectorFloatingResults := by
  unfold Obligations.VectorFloatingResults
  constructor
  · intro o s F w rm fz h hl hrep a b A B D done
    exact ⟨fun hr => ⟨vfpBin_gives h hl hrep hr _ addF, vfpBin_gives h hl hrep hr _ subF, vfpBin_gives h hl hrep hr _ mulF,
        vfpBin_gives h hl hrep hr _ divF, vfpFused_gives h hl hrep hr _ fmaF, vfpFused_gives h hl hrep hr _ fnmaF⟩,
      vfpMinMax_gives h hl hrep _ false, vfpMinMax_gives h hl hrep _ true⟩
  · intro o s F w h hl a A done
    refine ⟨fun hr => ⟨vfpUn_gives h hl (fun _ => hr) _ fun k => ?_, vfpUn_gives h hl (fun _ => hr) _ fun k => ?_⟩,
      vfpUn_gives (rounds := false) h hl nofun _ fun k => ?_, vfpUn_gives (rounds := false) h hl nofun _ fun k => ?_,
      vfpUn_gives (rounds := false) h hl nofun _ fun k => ?_⟩
    · simp only [State.pushed_felem]; rfl
    · simp only [State.pushed_felem]; rfl
    · simp only [State.pushed_elem]; rfl
    · simp only [State.pushed_elem]; rfl
    · simp only [State.pushed_elem]; rfl


/-! ## Bits of `vm` -/

theorem State.bits_of {s : State} {i : Instr} {f : VForm} {n : Nat} {m : Bool} {g : Nat → Bool × FFlags}
    (hp : f.plain [] n) (h : s.quiet) (hl : 0 < s.st.vl.toNat) (hn : s.st.vl.toNat ≤ n) (hr : f.rounds = false)
    (hb : f.body (s.entryOf i f) 0 s.st.vl.toNat (s.pushed i f) =
      (s.pushed i f).maskTo 0 s.st.vl.toNat fun k => if (s.pushed i f).st.on m k then some (g k) else none) :
    ∃ t, s.vector i f = t ∧ s.vectorDone t [] [] ∧ s.maskIs t m (fun k => (g k).1) ∧
      s.flagsGain t m (fun k => (g k).2) ∧ ((∀ k, (g k).2 = 0) → s.keepsFlags t) :=
  State.vector_compared h (hp.fault h hn (by simp [hr])) hp.xs hl hp.xd hp.emptiesVl hp.vd hp.tags hb

/-- An integer compare writes the bits of `p` and raises nothing (R71, R146). -/
theorem vcmpForm_gives {s : State} {o : VCmpOps} (h : s.quiet) (hl : s.vlFits (intWidth o.ty)) (i : Instr)
    {f : Nat → Nat → Nat → Bool} {p : BitVec (intWidth o.ty) → BitVec (intWidth o.ty) → Bool}
    (hf : ∀ a b, f (intWidth o.ty) (BitVec.toNat a) (BitVec.toNat b) = p a b) :
    ∃ t, (.next (s.vector i (vcmpForm o f)) : Result) = .next t ∧
      s.maskIs t o.m (fun k => p (BitVec.ofNat _ (s.elem o.a (intWidth o.ty) k))
        (BitVec.ofNat _ (s.elem o.b (intWidth o.ty) (srcb o.rep k)))) ∧
      s.vectorDone t [] [] ∧ s.keepsFlags t := by
  have hbit : ∀ j k, f (intWidth o.ty) (s.elem o.a (intWidth o.ty) j) (s.elem o.b (intWidth o.ty) k) =
      p (BitVec.ofNat _ (s.elem o.a (intWidth o.ty) j)) (BitVec.ofNat _ (s.elem o.b (intWidth o.ty) k)) := by
    intro j k
    rw [← hf, BitVec.toNat_ofNat, BitVec.toNat_ofNat, Nat.mod_eq_of_lt (s.elem_lt ..), Nat.mod_eq_of_lt (s.elem_lt ..)]
  obtain ⟨t, e, hdone, hmask, -, hkeep⟩ := State.bits_of (i := i) (f := vcmpForm o f) (m := o.m)
    (g := fun k => (p (BitVec.ofNat _ (s.elem o.a (intWidth o.ty) k))
      (BitVec.ofNat _ (s.elem o.b (intWidth o.ty) (srcb o.rep k))), 0))
    ⟨rfl, rfl, rfl, rfl, rfl, rfl, rfl, rfl⟩ h hl.1 hl.2 rfl (by simp only [vcmpForm, State.pushed_elem, hbit]; rfl)
  exact ⟨t, congrArg _ e, hmask, hdone, hkeep fun _ => rfl⟩

/-- A floating compare reads its elements under `fz` and raises what `f` says (R71, R146). -/
theorem vfcmpForm_gives {s : State} {o : VCmpOps} (h : s.quiet) (hl : s.vlFits (fpWidth o.ty)) (i : Instr)
    (f : FVal → FVal → Bool × FFlags) :
    let g := fun k => f (readF (fmtOf o.ty) s.st.fz (s.elem o.a (fpWidth o.ty) k))
      (readF (fmtOf o.ty) s.st.fz (s.elem o.b (fpWidth o.ty) (srcb o.rep k)))
    ∃ t, (.next (s.vector i (vfcmpForm o f)) : Result) = .next t ∧ s.maskIs t o.m (fun k => (g k).1) ∧
      s.flagsGain t o.m (fun k => (g k).2) ∧ s.vectorDone t [] [] := by
  intro g
  obtain ⟨t, e, hdone, hmask, hflags, -⟩ := State.bits_of (i := i) (f := vfcmpForm o f) (m := o.m) (g := g)
    ⟨rfl, rfl, rfl, rfl, rfl, rfl, rfl, rfl⟩ h hl.1 hl.2 rfl (by simp only [vfcmpForm, State.pushed_felem]; rfl)
  exact ⟨t, congrArg _ e, hmask, hflags, hdone⟩

/-- The flags of two values read: NV where one of them signals (R65). -/
theorem signals_or (a b : FVal) : signals a ||| signals b = if a = .nan true ∨ b = .nan true then (1 : FFlags) else 0 := by
  have h : ∀ v : FVal, signals v = if v = .nan true then (1 : FFlags) else 0 := by
    intro v
    rcases v with s | s | ⟨s, m, e⟩
    · cases s <;> rfl
    · rfl
    · rfl
  rw [h, h]
  by_cases ha : a = .nan true <;> by_cases hb : b = .nan true <;> simp [ha, hb]

/-- Settles O35: the integer compares as tests of two bit vectors, the floating ones as the tests of R71. -/
theorem vectorCompareResults : Obligations.VectorCompareResults := by
  unfold Obligations.VectorCompareResults
  intro o s h
  constructor
  · intro w hl A B done
    have signed (q : Int → Int → Bool) (a b : BitVec w) : signedTest q w a.toNat b.toNat = q a.toInt b.toInt := by
      simp [signedTest, readInt_signed]
    refine ⟨vcmpForm_gives (p := fun a b => decide (a = b)) h hl _ fun a b => ?_,
      vcmpForm_gives (p := fun a b => decide (a ≠ b)) h hl _ fun a b => ?_,
      vcmpForm_gives (p := BitVec.slt) h hl _ (signed _),
      vcmpForm_gives (p := BitVec.ult) h hl _ fun a b => rfl,
      vcmpForm_gives (p := BitVec.sle) h hl _ (signed _),
      vcmpForm_gives (p := BitVec.ule) h hl _ fun a b => rfl⟩
    · exact decide_eq_decide.2 BitVec.toNat_inj
    · rw [Bool.eq_iff_iff, bne_iff_ne, decide_eq_true_iff, ne_eq, ne_eq, BitVec.toNat_inj]
  · intro F hl A B done
    refine ⟨vfcmpForm_gives h hl _ _, vfcmpForm_gives h hl _ _, vfcmpForm_gives h hl _ _, vfcmpForm_gives h hl _ _, ?_⟩
    simp only [done, ← signals_or]
    exact vfcmpForm_gives h hl _ _

end Sys2Proof.Machine

/-! SUPPORT. Rounding (R65 to R68): what the format represents is delivered as it is, and what a NaN gives. -/

namespace Sys2Proof.Machine

/-! ## The fields of an encoding (R64) -/

/-- The formats of R63: a sign bit, `eb` exponent bits whose all-ones value is `expMax`, and the fraction. -/
structure Fmt.shaped (F : Fmt) (eb : Nat) : Prop where
  width : F.width = 1 + eb + F.frac
  expMax : F.expMax + 1 = 2 ^ eb

theorem fmtOf_shaped (ty : BitVec 2) : ∃ eb, (fmtOf ty).shaped eb := by
  have hty : ty = 0 ∨ ty = 1 ∨ ty = 2 ∨ ty = 3 := by revert ty; decide
  rcases hty with rfl | rfl | rfl | rfl
  exacts [⟨8, rfl, rfl⟩, ⟨5, rfl, rfl⟩, ⟨8, rfl, rfl⟩, ⟨11, rfl, rfl⟩]

/-- An encoding is its sign, exponent and fraction put together. -/
theorem withSign_fields {F : Fmt} {eb : Nat} (hF : F.shaped eb) {x : Nat} (hx : x < 2 ^ F.width) :
    withSign F (signOf F x) (x / 2 ^ F.frac % 2 ^ eb * 2 ^ F.frac + x % 2 ^ F.frac) = x := by
  have hw : F.width - 1 = F.frac + eb := by have := hF.width; omega
  have hlow : x / 2 ^ F.frac % 2 ^ eb * 2 ^ F.frac + x % 2 ^ F.frac = x % 2 ^ (F.frac + eb) := by
    rw [pow_add, Nat.mod_mul, Nat.mul_comm, Nat.add_comm]
  have hhigh : x / 2 ^ (F.frac + eb) < 2 := by
    refine Nat.div_lt_of_lt_mul ?_
    rwa [← pow_succ, ← hw, Nat.sub_add_cancel (by have := hF.width; omega)]
  have hsum := Nat.div_add_mod x (2 ^ (F.frac + eb))
  rw [hlow, withSign, Fmt.signBit, signOf, hw, Nat.testBit_eq_decide_div_mod_eq, Nat.mod_eq_of_lt hhigh]
  rcases Nat.lt_succ_iff_lt_or_eq.1 hhigh with h0 | h1
  · rw [Nat.lt_one_iff.1 h0] at hsum ⊢
    simpa using hsum
  · rw [h1] at hsum ⊢
    simpa using hsum

/-! ## Exact values -/

theorem bitLen_le {m k : Nat} (h : m < 2 ^ k) : bitLen m ≤ k := by
  unfold bitLen
  split
  · exact Nat.zero_le k
  · rename_i hm
    exact (Nat.log2_lt (by simpa using hm)).2 h

theorem lt_bitLen {m k : Nat} (h : 2 ^ k ≤ m) : k < bitLen m := by
  have hm : m ≠ 0 := by have := Nat.two_pow_pos k; omega
  simpa [bitLen, hm, Nat.lt_succ_iff] using (Nat.le_log2 hm).2 h

/-- A multiple of 2^q is rounded to itself, in every mode (R66). -/
theorem roundAt_exact (rm : RMode) (neg : Bool) (m : Nat) {e q : Int} (h : q ≤ e) :
    roundAt rm neg m e q false = (m * 2 ^ (e - q).toNat, false) := by
  have hup : ∀ n, roundsUp rm neg n 0 = false := by
    intro n
    unfold roundsUp
    split <;> simp
  simp [roundAt, truncAt, h, hup]

/-- A magnitude that has its place among the numbers of the format, normal or subnormal, is delivered exactly (R68). -/
theorem roundMag_exact {F : Fmt} (rm : RMode) (neg : Bool) {m : Nat} {e : Int} (hm : bitLen m ≤ F.frac + 1)
    (he : F.minExp ≤ e) (hplace : bitLen m = F.frac + 1 ∨ e = F.minExp)
    (hfin : (e - F.minExp).toNat * 2 ^ F.frac + m < F.infinity) :
    roundMag F rm false neg m e false = (withSign F neg ((e - F.minExp).toNat * 2 ^ F.frac + m), 0) := by
  have hq : max ((bitLen m : Int) - 1 + e - F.frac) F.minExp = e := by
    rcases hplace with h | h <;> omega
  simp only [roundMag, hq, roundAt_exact rm neg m (Int.le_refl e), Bool.false_and, Bool.and_false, Bool.false_eq_true,
    if_false, Int.sub_self, Int.toNat_zero, pow_zero, Nat.mul_one, Nat.not_le.2 hfin, flagIf]
  rfl

/-- R66, R68: a nonzero value of the format is delivered as its own encoding and raises nothing. -/
theorem roundF_unpack {F : Fmt} {eb : Nat} (hF : F.shaped eb) (rm : RMode) {x : Nat} (hx : x < 2 ^ F.width) {neg : Bool}
    {m : Nat} {e : Int} (hu : unpack F x = .fin neg m e) (hm : m ≠ 0) :
    roundF F rm false (.fin neg m e) = (x, 0) := by
  have hfields := withSign_fields hF hx
  have hw : F.width - 1 - F.frac = eb := by have := hF.width; omega
  have hfr : x % 2 ^ F.frac < 2 ^ F.frac := Nat.mod_lt _ (Nat.two_pow_pos _)
  have hex : x / 2 ^ F.frac % 2 ^ eb ≤ F.expMax := by
    have := Nat.mod_lt (x / 2 ^ F.frac) (Nat.two_pow_pos eb)
    have := hF.expMax
    omega
  simp only [unpack, hw, beq_iff_eq] at hu
  generalize x / 2 ^ F.frac % 2 ^ eb = ex at *
  generalize x % 2 ^ F.frac = fr at *
  have hpow : 2 ^ (F.frac + 1) = 2 * 2 ^ F.frac := by rw [pow_succ, Nat.mul_comm]
  have hround : ∀ {neg m e}, m ≠ 0 → roundF F rm false (.fin neg m e) = roundMag F rm false neg m e false := by
    intro neg m e hm
    simp [roundF, hm]
  by_cases hinf : ex = F.expMax
  · rw [if_pos hinf] at hu
    split at hu <;> cases hu
  have hlt : ex * 2 ^ F.frac + fr < F.infinity := by
    have : (ex + 1) * 2 ^ F.frac ≤ F.expMax * 2 ^ F.frac := Nat.mul_le_mul_right _ (by omega)
    rw [Nat.add_mul] at this
    unfold Fmt.infinity
    omega
  rw [if_neg hinf] at hu
  by_cases hsub : ex = 0
  · subst hsub
    rw [if_pos rfl] at hu
    cases hu
    have hlen := bitLen_le hfr
    rw [hround hm, roundMag_exact rm _ (by omega) (Int.le_refl _) (.inr rfl) (by simpa using hlt)]
    simpa using hfields
  · rw [if_neg hsub] at hu
    cases hu
    have hlen : bitLen (2 ^ F.frac + fr) = F.frac + 1 :=
      Nat.le_antisymm (bitLen_le (by omega)) (lt_bitLen (Nat.le_add_right _ _))
    have hexp : ((ex : Int) - F.bias - F.frac - F.minExp).toNat = ex - 1 := by unfold Fmt.minExp; omega
    have hsum : (ex - 1) * 2 ^ F.frac + (2 ^ F.frac + fr) = ex * 2 ^ F.frac + fr := by
      obtain ⟨k, rfl⟩ := Nat.exists_eq_succ_of_ne_zero hsub
      rw [Nat.succ_sub_one, Nat.succ_mul, Nat.add_assoc]
    rw [hround hm, roundMag_exact rm _ hlen.le (by unfold Fmt.minExp; omega) (.inl hlen) (by rwa [hexp, hsum]), hexp, hsum,
      hfields]

/-! ## NaNs (R65, R66) -/

theorem addExact_nan (rm : RMode) {a b : FVal} (h : a.isNan = true ∨ b.isNan = true) :
    addExact rm a b = (.nan false, 0) := by
  cases a <;> cases b <;> simp_all [addExact, FVal.isNan]

theorem mulExact_nan {a b : FVal} (h : a.isNan = true ∨ b.isNan = true) : mulExact a b = (.nan false, 0) := by
  cases a <;> cases b <;> simp_all [mulExact, FVal.isNan]

@[simp] theorem FVal.isNan_neg (v : FVal) : v.neg.isNan = v.isNan := by cases v <;> rfl

@[simp] theorem signals_neg (v : FVal) : signals v.neg = signals v := by cases v <;> rfl

theorem addF_nan (F : Fmt) (rm : RMode) (fz : Bool) {a b : FVal} (h : a.isNan = true ∨ b.isNan = true) :
    addF F rm fz a b = (F.nan, signals a ||| signals b) := by
  simp [addF, addExact_nan rm h, roundF]

theorem subF_nan (F : Fmt) (rm : RMode) (fz : Bool) {a b : FVal} (h : a.isNan = true ∨ b.isNan = true) :
    subF F rm fz a b = (F.nan, signals a ||| signals b) := by
  rw [subF, addF_nan F rm fz (by simpa using h), signals_neg]

theorem mulF_nan (F : Fmt) (rm : RMode) (fz : Bool) {a b : FVal} (h : a.isNan = true ∨ b.isNan = true) :
    mulF F rm fz a b = (F.nan, signals a ||| signals b) := by
  simp [mulF, mulExact_nan h, roundF]

theorem divF_nan (F : Fmt) (rm : RMode) (fz : Bool) {a b : FVal} (h : a.isNan = true ∨ b.isNan = true) :
    divF F rm fz a b = (F.nan, signals a ||| signals b) := by
  cases a <;> cases b <;> simp_all [divF, FVal.isNan]

/-- A fused form with a NaN among its three values: one of the product is the product's, one of the addend the sum's. -/
theorem fmaF_nan (F : Fmt) (rm : RMode) (fz : Bool) {c a b : FVal} (h : c.isNan = true ∨ a.isNan = true ∨ b.isNan = true) :
    (fmaF F rm fz c a b).1 = F.nan := by
  have hsum : addExact rm c (mulExact a b).1 = (.nan false, 0) := by
    refine addExact_nan rm (h.imp_right fun hab => ?_)
    rw [mulExact_nan hab]
    rfl
  simp [fmaF, hsum, roundF]

/-- Settles O17: exact delivery by the fields of the encoding, the NaNs by the exact sum and product. -/
theorem floatRounding : Obligations.FloatRounding := by
  unfold Obligations.FloatRounding
  constructor
  · intro ty rm x neg m e hx hu hm
    obtain ⟨eb, hF⟩ := fmtOf_shaped ty
    exact roundF_unpack hF rm hx hu hm
  · intro ty rm fz a b c h F nv
    have hnv : ((signals a ||| signals b).getLsbD 0 = true) ↔ nv := by
      rw [signals_or]
      split <;> simp_all [nv]
    refine ⟨fun r hr => ?_, fmaF_nan F rm fz (.inr h), ?_, fmaF_nan F rm fz (h.imp_right .inl)⟩
    · simp only [addF_nan F rm fz h, subF_nan F rm fz h, mulF_nan F rm fz h, divF_nan F rm fz h, List.mem_cons,
        List.not_mem_nil, or_false, or_self] at hr
      subst hr
      exact ⟨rfl, hnv⟩
    · exact fmaF_nan F rm fz (.inr (by simpa using h))

end Sys2Proof.Machine

/-! SUPPORT. Vector forms whose body writes registers as a whole: the law of the vector queue for them, the conversions and
the blocks (R150 to R154). -/

namespace Sys2Proof.Machine

/-! ## Bodies that write v and x registers -/

/-- `u` is `p` but for the contents of v registers and x registers. -/
def State.onlyRegs (p u : State) : Prop :=
  u = { p with st := { p.st with
    v := u.st.v, vdirty := u.st.vdirty, x := u.st.x, xfull := u.st.xfull, xpend := u.st.xpend, xpoison := u.st.xpoison } }

/-- `u` is `p` but for the contents of v registers. -/
def State.onlyV (p u : State) : Prop := u = { p with st := { p.st with v := u.st.v, vdirty := u.st.vdirty } }

theorem State.onlyV.onlyRegs {p u : State} (h : p.onlyV u) : p.onlyRegs u := by
  unfold State.onlyRegs
  rw [h]

theorem State.onlyV.trans {p u v : State} (h : p.onlyV u) (h' : u.onlyV v) : p.onlyV v := by
  unfold State.onlyV at *
  rw [h', h]

theorem State.onlyV.vfull {p u : State} (h : p.onlyV u) : u.st.vfull = p.st.vfull := by rw [h]

/-- An instruction of a quiet strand whose body changes contents of v registers and x registers alone: it completes, and
`u` shows what the registers then hold (R118, R119, R71 to R74). -/
theorem State.vector_wrote {s u : State} {i : Instr} {f : VForm} {fs : Raised} {dx dv : List Reg} (h : s.quiet)
    (hf : f.fault s = none) (hx : s.usable (f.xs.map Prod.fst) f.xd.toList) (hl : 0 < s.st.vl.toNat)
    (hw : (s.entryOf i f).wtags = dv.map fun r => (r, (0 : Byte)))
    (hb : f.body (s.entryOf i f) 0 s.st.vl.toNat (s.pushed i f) = .done u fs) (hu : (s.pushed i f).onlyRegs u)
    (hd : ∀ r, r ∉ dv → u.st.vget r = s.st.vget r)
    (hX : ∀ r, r ∉ dx → u.st.xget r = s.st.xget r ∧ u.st.isFull r = s.st.isFull r) :
    ∃ t, s.vector i f = t ∧ s.vectorDone t dx dv ∧ (∀ r ∈ dv, t.st.tag r = 0) ∧ t.st.v = u.st.v ∧ t.st.vm = s.st.vm ∧
      t.st.x = u.st.x ∧ t.st.xfull = u.st.xfull ∧ t.st.fflags = s.st.fflags ||| allRaised fs ∧
      ∀ j : Fin 7, t.st.ffirst[j] = ffirstAfter fs 0 j s.st.ffirst[j] := by
  have hst : u = { s with st := u.st } := by rw [hu]; rfl
  have hregs : u.st = { (s.pushed i f).st with
      v := u.st.v, vdirty := u.st.vdirty, x := u.st.x, xfull := u.st.xfull, xpend := u.st.xpend
      xpoison := u.st.xpoison } := congrArg State.st hu
  have hq : u.st.queue = [s.entryOf i f] := by rw [hregs, State.pushed_st, h.queue]; rfl
  rw [hst] at hb
  have hvec := State.vector_next h hf hx (fun _ => hl) (by rw [hregs, State.pushed_st]; exact h.streams)
    (by rw [hregs, State.pushed_st]; exact h.vpoison) hb
  obtain ⟨hdone, htag⟩ := State.vectorDone_of (fs := fs) h hregs hw hd hX
  refine ⟨_, hvec, hdone.noteStart true, ?_⟩
  simp only [State.noteStart_st]
  have hret := Strand.retired_one fs hq (rfl : (s.entryOf i f).scalar = 0)
  refine ⟨htag, by rw [hret], ?_, by rw [hret], by rw [hret], ?_, fun j => ?_⟩
  · rw [hret, hregs, State.pushed_st]
  · rw [hret, hregs, State.pushed_st]
  · rw [Strand.retired_ffirst fs hq rfl, hregs, State.pushed_st]
    rfl

/-- The same of a plain form, which writes v registers alone. -/
theorem State.vector_puts {s u : State} {i : Instr} {f : VForm} {n : Nat} {fs : Raised} {dv : List Reg}
    (hp : f.plain dv n) (h : s.quiet) (hl : 0 < s.st.vl.toNat) (hn : s.st.vl.toNat ≤ n)
    (hr : f.rounds = true → s.st.frm ≠ 4)
    (hb : f.body (s.entryOf i f) 0 s.st.vl.toNat (s.pushed i f) = .done u fs) (hu : (s.pushed i f).onlyV u)
    (hd : ∀ r, r ∉ dv → u.st.vget r = s.st.vget r) :
    ∃ t, s.vector i f = t ∧ s.vectorDone t [] dv ∧ (∀ r ∈ dv, t.st.tag r = 0) ∧ t.st.v = u.st.v ∧ t.st.vm = s.st.vm ∧
      t.st.fflags = s.st.fflags ||| allRaised fs ∧
      ∀ j : Fin 7, t.st.ffirst[j] = ffirstAfter fs 0 j s.st.ffirst[j] := by
  have h0 : ¬s.st.vl = 0 := by rintro h0; rw [h0] at hl; exact absurd hl (by decide)
  obtain ⟨t, e, hdone, htag, hv, hvm, -, -, hfl, hff⟩ := State.vector_wrote (dx := []) h (hp.fault h hn hr)
    (by rw [hp.xs, hp.xd]; exact ⟨rfl, rfl⟩) hl (by rw [State.wtags_plain i h0 hp.tags, hp.vd]) hb hu.onlyRegs
    hd (by intro r _; rw [hu, State.pushed_st_plain h hp.xd hp.emptiesVl]; exact ⟨rfl, rfl⟩)
  exact ⟨t, e, hdone, htag, hv, hvm, hfl, hff⟩

/-! ## What `putV` writes -/

theorem State.putV_onlyV {s : State} (hv : s.st.vfull = -1) (r : Reg) (v : VReg) (wrote : Bool) :
    s.onlyV (s.putV r v wrote) := by
  unfold State.onlyV
  rw [State.putV_same _ _ _ _ hv]

theorem State.putV_vget (s : State) (r q : Reg) (v : VReg) (wrote : Bool) :
    (s.putV r v wrote).st.vget q = if wrote = true ∧ q = r then v else s.st.vget q := by
  cases wrote
  · simp [State.putV]
  · simp only [State.putV, if_true, true_and]
    exact Strand.vget_vput s.st r q v

theorem State.pushed_vget (s : State) (i : Instr) (f : VForm) (r : Reg) : (s.pushed i f).st.vget r = s.st.vget r := by
  rw [State.pushed_st]; rfl

theorem State.quiet.pushed_vfull {s : State} (h : s.quiet) (i : Instr) (f : VForm) : (s.pushed i f).st.vfull = -1 := by
  rw [State.pushed_st]; exact h.vfull

/-- Elements depend on the v registers alone. -/
theorem State.elem_congr {t u : State} (h : t.st.v = u.st.v) (r : Reg) (w k : Nat) :
    t.elem r w k = elemOf (u.st.vget r) w k := by
  simp only [State.elem, Strand.vget, h]

/-! ## Conversions (R150) -/

theorem vcvtForm_gives {s : State} {d a : Reg} {m fa : Bool} {ws wd : Nat} {rounds : Bool} (h : s.quiet)
    (hl : s.vlFits (max ws wd)) (hwd : 0 < wd) (hda : ws = wd ∨ d ≠ a) (hr : s.st.frm ≠ 4 ∨ rounds = false) (i : Instr)
    {f : QEntry → Nat → Nat × FFlags} {g : Nat → Nat × FFlags}
    (hg : ∀ k, f (s.entryOf i (vcvtForm d a m fa ws wd rounds f)) (s.elem a ws k) = g k) :
    s.lanesGiven (.next (s.vector i (vcvtForm d a m fa ws wd rounds f))) d wd m g := by
  have hle : s.st.vl.toNat ≤ vlmaxOf wd := Nat.le_trans hl.2 (Nat.div_le_div_left (Nat.le_max_right _ _) hwd)
  refine State.lanesGiven_of ⟨rfl, ?_, rfl, rfl, rfl, rfl, rfl, rfl⟩ h ⟨hl.1, hle⟩ hwd hl.2 (fun hy => ?_) ?_
  · simpa [vcvtForm] using hda
  · exact hr.resolve_right (by rw [show rounds = true from hy]; decide)
  · simp only [vcvtForm, State.pushed_elem]
    rw [← funext hg]
    rfl

/-! ## Blocks (R151 to R153) -/

theorem State.values_eq (s : State) (q : QEntry) (ty : BitVec 2) (a : Reg) (e n : Nat) :
    s.values q ty a e n = (List.range n).map fun i => s.felem q ty a (e + i) := by
  induction n generalizing e with
  | zero => rfl
  | succ n ih =>
    rw [State.values, ih, List.range_succ_eq_map, List.map_cons, List.map_map]
    simp only [Function.comp_def, Nat.add_zero, Nat.succ_eq_add_one]
    congr 2
    funext i
    rw [Nat.add_assoc, Nat.add_comm 1 i]

/-- The block that quantisation forms of the values from element `e` on (R79). -/
def State.blockFrom (s : State) (q : QEntry) (ty : BitVec 2) (a : Reg) (b vl e : Nat) : Nat :=
  (quantBlock b (s.values q ty a e (Nat.min (blockElems b) (vl - e))) []).1

/-- Quantisation writes one block for each group of E(b) elements below `vl`, and keeps the others (R152). -/
theorem elemOf_quantise (s : State) (q : QEntry) (ty : BitVec 2) (a : Reg) (b vl fuel j : Nat) (v : VReg) {k : Nat}
    (hk : k < 32) :
    elemOf (s.quantise q ty a b vl fuel j v).1 512 k =
      if j ≤ k ∧ k < j + fuel ∧ k * blockElems b < vl then s.blockFrom q ty a b vl (k * blockElems b) % 2 ^ 512
      else elemOf v 512 k := by
  induction fuel generalizing j v with
  | zero =>
    rw [if_neg (by omega)]
    rfl
  | succ fuel ih =>
    unfold State.quantise
    simp only
    split
    · rename_i hend
      have : ¬(j ≤ k ∧ k < j + (fuel + 1) ∧ k * blockElems b < vl) := by
        rintro ⟨hjk, -, hlt⟩
        have := Nat.mul_le_mul_right (blockElems b) hjk
        omega
      rw [if_neg this]
    · rename_i hgo
      simp only [ih]
      by_cases hjk : k = j
      · subst hjk
        rw [if_neg (by omega), if_pos ⟨Nat.le_refl k, by omega, by omega⟩, elemOf_setElem_self _ _ _ _ (by omega)]
        rfl
      · have hiff : (j + 1 ≤ k ∧ k < j + 1 + fuel ∧ k * blockElems b < vl) ↔
            (j ≤ k ∧ k < j + (fuel + 1) ∧ k * blockElems b < vl) := by omega
        simp only [hiff, elemOf_setElem_of_ne _ _ _ _ _ hjk (show 512 * k + 512 ≤ 16384 by omega)]

/-- The blocks that a pushed instruction forms are those of the values of the strand, read under its `fz`. -/
theorem State.pushed_quantise (s : State) (i : Instr) (f : VForm) (ty : BitVec 2) (a d : Reg) (b vl : Nat) {j : Nat}
    (hj : j < 32) :
    elemOf ((s.pushed i f).quantise (s.entryOf i f) ty a b vl 32 0 ((s.pushed i f).st.vget d)).1 512 j =
      if j * (496 / b) < vl then
        (quantBlock b ((List.range (min (496 / b) (vl - j * (496 / b)))).map fun i =>
          readF (fmtOf ty) s.st.fz (s.elem a (fpWidth ty) (j * (496 / b) + i))) []).1 % 2 ^ 512
      else s.elem d 512 j := by
  rw [elemOf_quantise _ _ _ _ _ _ _ _ _ hj, State.pushed_vget]
  simp only [State.blockFrom, State.values_eq, State.pushed_felem, Nat.zero_le, Nat.zero_add, hj, true_and]
  rfl

/-- The blocks of registers that hold the format bytes expected: none is bad (R153). -/
theorem State.badBlock_none {s : State} {a : Reg} {b j n : Nat}
    (h : ∀ i, j ≤ i → i < j + n → blockFormat (s.elem a 512 i) = b ∨ blockFormat (s.elem a 512 i) = 0xFF) :
    s.badBlock a b j n = none := by
  induction n generalizing j with
  | zero => rfl
  | succ n ih =>
    unfold State.badBlock
    rw [if_pos (by simpa using h j (by omega) (by omega))]
    exact ih fun i h1 h2 => h i (by omega) (by omega)

/-- A width that `rep` selects has blocks of at least one element (R151, R76). -/
theorem blockElems_pos (rep : BitVec 3) : 0 < blockElems (blockWidth rep) := by revert rep; decide

theorem lt_blockCount {n vl j : Nat} (hn : 0 < n) (hj : j < (vl + n - 1) / n) : j * n < vl := by
  have := (Nat.le_div_iff_mul_le hn).1 hj
  rw [Nat.succ_mul] at this
  omega

/-- `vwid` of legal blocks is element-wise (R153). -/
theorem vwid_gives {s : State} {o : VQOps} (h : s.quiet) (hl : s.vlFits (fpWidth o.ty)) (hr : s.st.frm ≠ 4)
    (hfmt : ∀ j, j * blockElems (blockWidth o.rep) < s.st.vl.toNat →
      s.elem o.a 512 j % 256 = blockWidth o.rep ∨ s.elem o.a 512 j % 256 = 0xFF) :
    s.lanesGiven (exec (.vwid o) s) o.d (fpWidth o.ty) false fun k =>
      roundF (fmtOf o.ty) s.st.frm s.st.fz (blockValue (s.elem o.a 512 (k / blockElems (blockWidth o.rep)))
        (k % blockElems (blockWidth o.rep))) := by
  refine State.lanesGiven_of ⟨rfl, rfl, rfl, rfl, rfl, rfl, rfl, rfl⟩ h hl (fpWidth_pos _) hl.2 (fun _ => hr) ?_
  have hnone : (s.pushed (.vwid o) (formVwid o)).badBlock o.a (blockWidth o.rep) 0
      ((s.st.vl.toNat + blockElems (blockWidth o.rep) - 1) / blockElems (blockWidth o.rep)) = none := by
    refine State.badBlock_none fun i _ hi => ?_
    simp only [State.pushed_elem]
    exact hfmt i (lt_blockCount (blockElems_pos _) (by omega))
  simp only [formVwid] at hnone ⊢
  simp only [hnone, State.pushed_elem]
  rfl

/-- `vqnt` puts the blocks of its values into vd (R152). -/
theorem vqnt_puts {s : State} {o : VQOps} (h : s.quiet) (hl : s.vlFits (fpWidth o.ty)) :
    ∃ t, exec (.vqnt o) s = .next t ∧
      (∀ j, t.elem o.d 512 j = elemOf ((s.pushed (.vqnt o) (formVqnt o)).quantise (s.entryOf (.vqnt o) (formVqnt o)) o.ty o.a
        (blockWidth o.rep) s.st.vl.toNat 32 0 ((s.pushed (.vqnt o) (formVqnt o)).st.vget o.d)).1 512 j) ∧
      t.st.tag o.d = 0 ∧ s.vectorDone t [] [o.d] ∧ t.st.vm = s.st.vm := by
  have hvf := h.pushed_vfull (.vqnt o) (formVqnt o)
  obtain ⟨t, e, hdone, htag, hv, hvm, -, -⟩ := State.vector_puts (i := .vqnt o) (f := formVqnt o) (dv := [o.d])
    ⟨rfl, rfl, rfl, rfl, rfl, rfl, rfl, rfl⟩ h hl.1 hl.2 nofun rfl (State.putV_onlyV hvf _ _ _) (fun r hr => by
      rw [State.putV_vget, if_neg (by simpa using hr), State.pushed_vget])
  refine ⟨t, congrArg _ e, fun j => ?_, htag _ (by simp), hdone, hvm⟩
  rw [State.elem_congr hv, State.putV_vget, if_pos ⟨rfl, rfl⟩]

/-! ## Error-feedback narrowing (R80, R154) -/

/-- The two registers of a form that puts `x` into d and `y` into ve. -/
theorem State.putV_two {p : State} (hvf : p.st.vfull = -1) {d ve : Reg} (hne : d ≠ ve) (x y : VReg) (wrote : Bool) :
    let u := (p.putV d x wrote).putV ve y wrote
    p.onlyV u ∧ u.st.vget d = (if wrote then x else p.st.vget d) ∧ u.st.vget ve = (if wrote then y else p.st.vget ve) ∧
      ∀ r, r ∉ [d, ve] → u.st.vget r = p.st.vget r := by
  have h1 := State.putV_onlyV hvf d x wrote
  refine ⟨h1.trans (State.putV_onlyV (by rw [h1.vfull, hvf]) ve y wrote), ?_, ?_, fun r hr => ?_⟩
  · simp [State.putV_vget, hne]
  · simp [State.putV_vget, hne.symm]
  · simp only [List.mem_cons, List.not_mem_nil, or_false, not_or] at hr
    simp [State.putV_vget, hr.1, hr.2]

/-- What a loop leaves of a register that is written only where the loop gives an element. -/
theorem lanes_if_any (w : Nat) (g g' : Nat → Option (Nat × FFlags)) (n e : Nat) (v : VReg)
    (h : ∀ k, (g k).isSome = (g' k).isSome) :
    (if anyLane g' n e then (lanes w g n e v).1 else v) = (lanes w g n e v).1 := by
  have hany : anyLane g n e = anyLane g' n e := by
    induction n generalizing e with
    | zero => rfl
    | succ n ih => simp only [anyLane, h, ih]
  cases ha : anyLane g' n e with
  | true => rfl
  | false =>
    rw [lanes_of_not_any w g n e v (hany.trans ha)]
    rfl

/-- The elements of a register that a loop under a mask has written are those that `lanesAre` says. -/
theorem State.lanesAre_of {s t : State} {d : Reg} {w : Nat} {m : Bool} (hw : 0 < w) {g : Nat → Nat × FFlags}
    (h : ∀ k, t.elem d w k = elemOf (lanes w (fun k => if s.st.on m k = true then some (g k) else none) s.st.vl.toNat 0
      (s.st.vget d)).1 w k) : s.lanesAre t d w m fun k => (g k).1 := by
  intro k hk
  have hfit : w * k + w ≤ 16384 := by
    have := (Nat.le_div_iff_mul_le hw).1 (show k + 1 ≤ 16384 / w from hk)
    rwa [Nat.mul_comm, Nat.mul_succ] at this
  rw [h, elemOf_lanes _ _ _ _ _ _ hfit]
  by_cases hvl : k < s.st.vl.toNat <;> by_cases hon : s.st.on m k = true <;> simp [hvl, hon, State.elem]

theorem State.pushed_masked (s : State) (i : Instr) (f : VForm) (m : Bool) (g : Nat → Nat × FFlags) :
    (s.pushed i f).masked m g = fun k => if s.st.on m k = true then some (g k) else none := by
  funext k
  simp only [State.masked, State.pushed_on]

/-- The body of the bf16 form. -/
theorem formVnef_body_narrow {o : VNefOps} (hrep : o.rep = 0) (q : QEntry) (n : Nat) (p : State) :
    let f := fun k => narrow16 q.frm q.fz (p.felem q 2 o.a k)
    let x := lanes 16 (p.masked o.m f) n 0 (p.st.vget o.d)
    let y := lanes 32 (p.masked o.m fun k => (residual q.frm (p.felem q 2 o.a k) (unpack bf16 (f k).1), 0)) n 0
      (p.st.vget o.ve)
    let wrote := anyLane (p.masked o.m f) n 0
    (formVnef o).body q 0 n p = .done ((p.putV o.d x.1 wrote).putV o.ve y.1 wrote) x.2 := by
  simp only [formVnef, if_pos hrep, Nat.sub_zero]

/-- The body of the block form. -/
theorem formVnef_body_blocks {o : VNefOps} (hrep : o.rep ≠ 0) (q : QEntry) (n : Nat) (p : State) :
    let b := blockWidth o.rep
    let x := p.quantise q 2 o.a b n 32 0 (p.st.vget o.d)
    let y := lanes 32 (fun k => some (blockResidual (p.felem q 2 o.a k)
      (blockValue (elemOf x.1 512 (k / blockElems b)) (k % blockElems b)), 0)) n 0 (p.st.vget o.ve)
    (formVnef o).body q 0 n p = .done ((p.putV o.d x.1 true).putV o.ve y.1 true) x.2 := by
  simp only [formVnef, if_neg hrep]

section
variable {s : State} {o : VNefOps} (h : s.quiet) (hl : s.vlFits 32) (hda : o.d ≠ o.a) (hdv : o.d ≠ o.ve) (hav : o.a ≠ o.ve)

include hda hdv hav in
theorem formVnef_plain : (formVnef o).plain [o.d, o.ve] (vlmaxOf 32) :=
  ⟨rfl, by simp [formVnef, hda, hdv, hav], rfl, rfl, rfl, rfl, rfl, rfl⟩

include h hl hda hdv hav

/-- The bf16 form narrows element by element and leaves the residuals in ve. -/
theorem vnef_narrows (hrep : o.rep = 0) (hr : s.st.frm ≠ 4) :
    let value := fun k => readF f32 s.st.fz (s.elem o.a 32 k)
    let f := fun k => narrow16 s.st.frm s.st.fz (value k)
    ∃ t, exec (.vnef o) s = .next t ∧ s.lanesAre t o.d 16 o.m (fun k => (f k).1) ∧
      s.lanesAre t o.ve 32 o.m (fun k => residual s.st.frm (value k) (unpack bf16 (f k).1)) ∧
      s.flagsGain t o.m (fun k => (f k).2) ∧ t.st.tag o.d = 0 ∧ t.st.tag o.ve = 0 ∧
      s.vectorDone t [] [o.d, o.ve] ∧ t.st.vm = s.st.vm := by
  intro value f
  have hread : ∀ k, (s.pushed (.vnef o) (formVnef o)).felem (s.entryOf (.vnef o) (formVnef o)) 2 o.a k = value k :=
    fun k => State.pushed_felem ..
  have hbody := formVnef_body_narrow hrep (s.entryOf (.vnef o) (formVnef o)) s.st.vl.toNat (s.pushed (.vnef o) (formVnef o))
  simp only [State.pushed_masked, State.pushed_vget, hread] at hbody
  obtain ⟨hu, hd, hve, hkeep⟩ := State.putV_two (h.pushed_vfull (.vnef o) (formVnef o)) hdv _ _ _
  obtain ⟨t, e, hdone, htag, hv, hvm, hfl, hff⟩ := State.vector_puts (formVnef_plain hda hdv hav) h hl.1 hl.2
    (fun _ => hr) hbody hu (fun r hr => by rw [hkeep r hr, State.pushed_vget])
  refine ⟨t, congrArg _ e, State.lanesAre_of (by decide) fun k => ?_,
    State.lanesAre_of (g := fun k => (residual s.st.frm (value k) (unpack bf16 (f k).1), 0)) (by decide) fun k => ?_, ?_,
    htag _ (by simp), htag _ (by simp), hdone, hvm⟩
  · rw [State.elem_congr hv, hd, State.pushed_vget, lanes_if_any _ _ _ _ _ _ fun _ => rfl]
    rfl
  · rw [State.elem_congr hv, hve, State.pushed_vget, lanes_if_any _ _ _ _ _ _ fun k => by split <;> rfl]
    rfl
  · refine State.flagsGain_of (w := 16) (v := s.st.vget o.d) (g := fun k => if s.st.on o.m k = true then some (f k) else none)
      (fun k => ⟨fun hk => ⟨_, if_pos hk⟩, fun hk => if_neg (by simp [hk])⟩) (fun j => ?_) hff
    rw [hfl, BitVec.getLsbD_or, Bool.or_eq_true, allRaised_lanes]
    simp only [Nat.zero_le, true_and, Nat.zero_add]
    rfl

/-- The block form puts the blocks of the values into vd and the residuals into ve. -/
theorem vnef_quantises (hrep : o.rep ≠ 0) :
    let n := blockElems (blockWidth o.rep)
    ∃ t, exec (.vnef o) s = .next t ∧
      (∀ j, t.elem o.d 512 j = elemOf ((s.pushed (.vnef o) (formVnef o)).quantise (s.entryOf (.vnef o) (formVnef o)) 2 o.a
        (blockWidth o.rep) s.st.vl.toNat 32 0 ((s.pushed (.vnef o) (formVnef o)).st.vget o.d)).1 512 j) ∧
      s.lanesAre t o.ve 32 false (fun k => blockResidual (readF f32 s.st.fz (s.elem o.a 32 k))
        (blockValue (t.elem o.d 512 (k / n)) (k % n))) ∧
      t.st.tag o.d = 0 ∧ t.st.tag o.ve = 0 ∧ s.vectorDone t [] [o.d, o.ve] ∧ t.st.vm = s.st.vm := by
  intro n
  have hbody := formVnef_body_blocks hrep (s.entryOf (.vnef o) (formVnef o)) s.st.vl.toNat (s.pushed (.vnef o) (formVnef o))
  obtain ⟨hu, hd, hve, hkeep⟩ := State.putV_two (h.pushed_vfull (.vnef o) (formVnef o)) hdv _ _ _
  obtain ⟨t, e, hdone, htag, hv, hvm, -, -⟩ := State.vector_puts (formVnef_plain hda hdv hav) h hl.1 hl.2
    (fun hy => absurd (of_decide_eq_true hy) hrep) hbody hu (fun r hr => by rw [hkeep r hr, State.pushed_vget])
  have hblock : ∀ j, t.elem o.d 512 j = _ := fun j => by rw [State.elem_congr hv, hd, if_pos rfl]
  refine ⟨t, congrArg _ e, hblock, ?_, htag _ (by simp), htag _ (by simp), hdone, hvm⟩
  refine State.lanesAre_of (g := fun k => (blockResidual (readF f32 s.st.fz (s.elem o.a 32 k))
    (blockValue (t.elem o.d 512 (k / n)) (k % n)), 0)) (by decide) fun k => ?_
  rw [State.elem_congr hv, hve, if_pos rfl]
  simp only [hblock, State.pushed_felem, State.pushed_vget]
  rfl

end

/-! ## The statement -/

/-- Settles O37: conversions and `vwid` are element-wise; the blocks are those of `State.quantise`. -/
theorem vectorConversions : Obligations.VectorConversions := by
  unfold Obligations.VectorConversions
  refine ⟨?_, ?_, ?_, ?_⟩
  · intro o s S F h hl hda hr f
    exact vcvtForm_gives h hl (fpWidth_pos _) hda (hr.imp_right (by simp [·])) _ fun k => rfl
  · intro o s F w h hl hda int into from_
    refine ⟨fun hr => vcvtForm_gives h (by rwa [max_comm] at hl) (fpWidth_pos _) (hda.imp_left Eq.symm)
      (hr.imp_right (by simp [·])) _ fun k => ?_, fun hr => vcvtForm_gives (g := fun k => ((BitVec.ofInt w (from_ k).1).toNat,
        (from_ k).2)) h hl (intWidth_pos _) hda (.inl hr) _ fun k => ?_⟩
    · have hint : readInt w o.uns (s.elem o.a w k) = int k := by
        rw [readInt_eq, Nat.mod_eq_of_lt (s.elem_lt ..)]
      exact congrArg (fromInt F s.st.frm false) hint
    · exact congrArg (·, (from_ k).2) (wrapInt_eq w _)
  · intro o s F b n vl h hl hrep value
    constructor
    · obtain ⟨t, e, hblock, hrest⟩ := vqnt_puts h hl
      exact ⟨t, e, fun j hj => (hblock j).trans (State.pushed_quantise _ _ _ _ _ _ _ _ hj), hrest⟩
    · intro hr hfmt f
      exact vwid_gives h hl hr hfmt
  · intro o s vl rm value h hl hda hdv hav
    constructor
    · intro hrep hr f
      exact vnef_narrows h hl hda hdv hav hrep hr
    · intro hrep b n
      obtain ⟨t, e, hblock, hrest⟩ := vnef_quantises h hl hda hdv hav hrep
      exact ⟨t, e, fun j hj => (hblock j).trans (State.pushed_quantise _ _ _ _ _ _ _ _ hj), hrest⟩

end Sys2Proof.Machine

/-! SUPPORT. Segments (R137): the list of starts and lengths, and what it says of `vsg`. -/

namespace Sys2Proof.Machine

/-! ## Lengths laid end to end -/

/-- Segments of these lengths, the first of which begins at `p`. -/
def startsFrom (p : Nat) : List Nat → List (Nat × Nat)
  | [] => []
  | n :: ns => (p, n) :: startsFrom (p + n) ns

/-- The segments of a strand are its segment lengths laid end to end from element 0. -/
theorem segmentsOf_eq (vsg : MaskReg) (vl : Nat) : segmentsOf vsg vl = startsFrom 0 (segLengths vsg vl 0 0) := by
  have h : ∀ (ls : List Nat) (acc : List (Nat × Nat)) (p : Nat),
      (ls.foldl (fun (acc : List (Nat × Nat) × Nat) n => ((acc.2, n) :: acc.1, acc.2 + n)) (acc, p)).1.reverse =
        acc.reverse ++ startsFrom p ls := by
    intro ls
    induction ls with
    | nil => intro acc p; simp [startsFrom]
    | cons n ns ih => intro acc p; simp [startsFrom, ih]
  exact h _ [] 0

theorem startsFrom_lengths (p : Nat) (ls : List Nat) : (startsFrom p ls).map Prod.snd = ls := by
  induction ls generalizing p with
  | nil => rfl
  | cons n ns ih => rw [startsFrom, List.map_cons, ih]

/-- No segment begins before the first one. -/
theorem le_of_mem_startsFrom {p a m : Nat} {ls : List Nat} (h : (a, m) ∈ startsFrom p ls) : p ≤ a := by
  induction ls generalizing p with
  | nil => cases h
  | cons n ns ih =>
    rcases List.mem_cons.1 h with h | h
    · cases h; exact Nat.le_refl _
    · exact Nat.le_trans (Nat.le_add_right p n) (ih h)

/-- Every element of the range that the lengths add up to lies in a segment. -/
theorem exists_segment {p k : Nat} {ls : List Nat} (h1 : p ≤ k) (h2 : k < p + ls.sum) :
    ∃ seg ∈ startsFrom p ls, seg.1 ≤ k ∧ k < seg.1 + seg.2 := by
  induction ls generalizing p with
  | nil => simp at h2; omega
  | cons n ns ih =>
    rw [List.sum_cons] at h2
    by_cases hk : k < p + n
    · exact ⟨(p, n), List.mem_cons_self, h1, hk⟩
    · obtain ⟨seg, hseg, h⟩ := ih (p := p + n) (by omega) (by omega)
      exact ⟨seg, List.mem_cons_of_mem _ hseg, h⟩

/-! ## The lengths that `vsg` gives -/

theorem segLengths_sum (vsg : MaskReg) (n e k : Nat) : (segLengths vsg n e k).sum = k + n := by
  induction n generalizing e k with
  | zero =>
    unfold segLengths
    split <;> simp_all
  | succ n ih =>
    unfold segLengths
    split
    · rw [List.sum_cons, ih]; omega
    · rw [ih]; omega

/-- What a segment is, seen from a segment begun at `p` with `k` elements counted and `n` still to come. -/
theorem mem_segLengths (vsg : MaskReg) {n p k a m : Nat} (hk : 0 < k)
    (h : (a, m) ∈ startsFrom p (segLengths vsg n (p + k) k)) :
    0 < m ∧ a + m ≤ p + k + n ∧ (a = p ∨ p + k ≤ a ∧ vsg.getLsbD a = true) ∧
      (∀ j, p + k ≤ j → a < j → j < a + m → vsg.getLsbD j = false) ∧ (a + m < p + k + n → vsg.getLsbD (a + m) = true) := by
  induction n generalizing p k with
  | zero =>
    rw [segLengths, if_neg (by simp; omega)] at h
    simp only [startsFrom, List.mem_singleton, Prod.mk.injEq] at h
    obtain ⟨rfl, rfl⟩ := h
    exact ⟨hk, by omega, .inl rfl, by omega, by omega⟩
  | succ n ih =>
    rw [segLengths] at h
    cases hbit : vsg.getLsbD (p + k) with
    | true =>
      rw [if_pos (by simp [hbit]; omega), startsFrom] at h
      rcases List.mem_cons.1 h with h | h
      · obtain ⟨rfl, rfl⟩ := Prod.mk.inj h
        exact ⟨hk, by omega, .inl rfl, by omega, fun _ => hbit⟩
      · obtain ⟨h1, h2, h3, h4, h5⟩ := ih (p := p + k) (k := 1) (by decide) h
        have ha : p + k ≤ a ∧ vsg.getLsbD a = true := by
          rcases h3 with rfl | ⟨h3, h6⟩
          · exact ⟨Nat.le_refl _, hbit⟩
          · exact ⟨by omega, h6⟩
        exact ⟨h1, by omega, .inr ha, fun j hj haj => h4 j (by omega) haj, fun h => h5 (by omega)⟩
    | false =>
      rw [if_neg (by simp [hbit])] at h
      obtain ⟨h1, h2, h3, h4, h5⟩ := ih (p := p) (k := k + 1) (by omega) (by rwa [Nat.add_assoc] at h)
      refine ⟨h1, by omega, h3.imp_right fun h => ⟨by omega, h.2⟩, fun j hj haj hjm => ?_, fun h => h5 (by omega)⟩
      rcases Nat.eq_or_lt_of_le hj with rfl | hj
      · exact hbit
      · exact h4 j (by omega) haj hjm

/-- The segment begun is in the list, and one begins at every later element that `vsg` marks. -/
theorem segLengths_complete (vsg : MaskReg) (n p k : Nat) (hk : 0 < k) :
    (∃ m, (p, m) ∈ startsFrom p (segLengths vsg n (p + k) k)) ∧
      ∀ a, p + k ≤ a → a < p + k + n → vsg.getLsbD a = true → ∃ m, (a, m) ∈ startsFrom p (segLengths vsg n (p + k) k) := by
  induction n generalizing p k with
  | zero =>
    rw [segLengths, if_neg (by simp; omega)]
    exact ⟨⟨k, by simp [startsFrom]⟩, by omega⟩
  | succ n ih =>
    rw [segLengths]
    cases hbit : vsg.getLsbD (p + k) with
    | true =>
      rw [if_pos (by simp; omega), startsFrom]
      obtain ⟨⟨m, hm⟩, hlater⟩ := ih (p + k) 1 (by decide)
      refine ⟨⟨k, List.mem_cons_self⟩, fun a h1 h2 h3 => ?_⟩
      rcases Nat.eq_or_lt_of_le h1 with rfl | h1
      · exact ⟨m, List.mem_cons_of_mem _ hm⟩
      · obtain ⟨m', hm'⟩ := hlater a (by omega) (by omega) h3
        exact ⟨m', List.mem_cons_of_mem _ hm'⟩
    | false =>
      rw [if_neg (by simp)]
      obtain ⟨hp, hlater⟩ := ih p (k + 1) (by omega)
      rw [← Nat.add_assoc] at hp hlater
      refine ⟨hp, fun a h1 h2 h3 => hlater a ?_ (by omega) h3⟩
      rcases Nat.eq_or_lt_of_le h1 with rfl | h1
      · rw [hbit] at h3; cases h3
      · omega

/-! ## The segments of a strand -/

/-- R137: a segment is not empty, ends by `vl`, holds no further mark, and ends at a mark or at `vl`. -/
theorem mem_segmentsOf {vsg : MaskReg} {vl a m : Nat} (h : (a, m) ∈ segmentsOf vsg vl) :
    0 < m ∧ a + m ≤ vl ∧ (a = 0 ∨ vsg.getLsbD a = true) ∧ (∀ j, a < j → j < a + m → vsg.getLsbD j = false) ∧
      (a + m < vl → vsg.getLsbD (a + m) = true) := by
  rw [segmentsOf_eq] at h
  cases vl with
  | zero => cases h
  | succ n =>
    obtain ⟨h1, h2, h3, h4, h5⟩ := mem_segLengths vsg (by decide) h
    exact ⟨h1, by omega, h3.imp_right And.right, fun j haj => h4 j (by omega) haj, fun h => h5 (by omega)⟩

/-- R137: a segment begins at element 0 and at each marked element. -/
theorem exists_mem_segmentsOf {vsg : MaskReg} {vl k : Nat} (hk : k < vl) (h : k = 0 ∨ vsg.getLsbD k = true) :
    ∃ m, (k, m) ∈ segmentsOf vsg vl := by
  rw [segmentsOf_eq]
  cases vl with
  | zero => cases hk
  | succ n =>
    obtain ⟨h0, hlater⟩ := segLengths_complete vsg n 0 1 (by decide)
    rcases Nat.eq_zero_or_pos k with rfl | hpos
    · exact h0
    · exact hlater k (by omega) (by omega) (h.resolve_left (by omega))

/-- With elements at all there is a first segment, and it alone begins at element 0. -/
theorem segmentsOf_eq_cons {vsg : MaskReg} {vl : Nat} (hvl : 0 < vl) :
    ∃ n rest, segmentsOf vsg vl = (0, n) :: rest ∧ ∀ m, (0, m) ∈ segmentsOf vsg vl → m = n := by
  obtain ⟨m0, hm0⟩ := exists_mem_segmentsOf (vsg := vsg) hvl (.inl rfl)
  cases hls : segLengths vsg vl 0 0 with
  | nil => rw [segmentsOf_eq, hls] at hm0; cases hm0
  | cons n ls =>
    have heq : segmentsOf vsg vl = (0, n) :: startsFrom (0 + n) ls := by rw [segmentsOf_eq, hls, startsFrom]
    refine ⟨n, _, heq, fun m hm => ?_⟩
    have hn : 0 < n := (mem_segmentsOf (show (0, n) ∈ segmentsOf vsg vl by rw [heq]; exact List.mem_cons_self)).1
    rw [heq] at hm
    rcases List.mem_cons.1 hm with hm | hm
    · exact (Prod.mk.inj hm).2
    · have := le_of_mem_startsFrom hm
      omega

theorem segLengths_pos {vsg : MaskReg} {vl n : Nat} (h : n ∈ segLengths vsg vl 0 0) : 0 < n := by
  rw [← startsFrom_lengths 0 (segLengths vsg vl 0 0), ← segmentsOf_eq, List.mem_map] at h
  obtain ⟨seg, hseg, rfl⟩ := h
  exact (mem_segmentsOf hseg).1

theorem segmentsOf_sum (vsg : MaskReg) (vl : Nat) : ((segmentsOf vsg vl).map Prod.snd).sum = vl := by
  rw [segmentsOf_eq, startsFrom_lengths, segLengths_sum, Nat.zero_add]

/-- Every element below `vl` lies in a segment. -/
theorem exists_segmentOf {vsg : MaskReg} {vl k : Nat} (hk : k < vl) :
    ∃ seg ∈ segmentsOf vsg vl, seg.1 ≤ k ∧ k < seg.1 + seg.2 := by
  rw [segmentsOf_eq]
  exact exists_segment (Nat.zero_le k) (by rwa [segLengths_sum, Nat.zero_add, Nat.zero_add])

end Sys2Proof.Machine

/-! SUPPORT. Reductions and scans (R86, R155, R156): the tree of an associative operation is its fold, what the loops over
segments leave of each element, and the flags they raise. -/

namespace Sys2Proof.Machine

/-! ## The tree of R86 and the fold -/

/-- The fold of a list in order, with no starting value; nothing of an empty list. -/
def foldOne (op : Nat → Nat → Nat) : List Nat → Option Nat
  | [] => none
  | x :: xs => some (xs.foldl op x)

section
variable {op : Nat → Nat → Nat} (hop : ∀ a b c, op (op a b) c = op a (op b c))
include hop

/-- The first value can be combined last. -/
theorem foldOne_cons (x : Nat) (l : List Nat) :
    foldOne op (x :: l) = some (match foldOne op l with | none => x | some y => op x y) := by
  cases l with
  | nil => rfl
  | cons y ys =>
    simp only [foldOne, List.foldl_cons]
    exact congrArg some (List.foldl_assoc (ha := ⟨hop⟩))

end

/-- One level of the tree keeps the fold of what is present. -/
theorem foldOne_pairUp {op : Nat → Nat → Nat} (hop : ∀ a b c, op (op a b) c = op a (op b c)) {c : Combine}
    (hc : ∀ a b, (c a b).1 = op a b) :
    ∀ l : List (Option Nat), foldOne op (pairUp c l).1.reduceOption = foldOne op l.reduceOption
  | [] => rfl
  | [_] => rfl
  | none :: none :: rest => foldOne_pairUp hop hc rest
  | none :: some b :: rest => by
    simp only [pairUp, List.reduceOption_cons_of_some, List.reduceOption_cons_of_none, foldOne_cons hop,
      foldOne_pairUp hop hc rest]
  | some a :: none :: rest => by
    simp only [pairUp, List.reduceOption_cons_of_some, List.reduceOption_cons_of_none, foldOne_cons hop,
      foldOne_pairUp hop hc rest]
  | some a :: some b :: rest => by
    simp only [pairUp, List.reduceOption_cons_of_some, foldOne_cons hop, foldOne_pairUp hop hc rest, hc]
    cases foldOne op rest.reduceOption <;> simp [hop]

theorem length_pairUp (c : Combine) : ∀ l : List (Option Nat), (pairUp c l).1.length = (l.length + 1) / 2
  | [] => rfl
  | [_] => by simp [pairUp]
  | x :: y :: rest => by
    have hlen : (pairUp c (x :: y :: rest)).1.length = (pairUp c rest).1.length + 1 := by
      cases x <;> cases y <;> rfl
    rw [hlen, length_pairUp c rest, List.length_cons, List.length_cons]
    omega

/-- With levels enough, the tree of an associative operation is the fold of what is present (R86). -/
theorem redTree_eq_foldOne {op : Nat → Nat → Nat} (hop : ∀ a b c, op (op a b) c = op a (op b c)) {c : Combine}
    (hc : ∀ a b, (c a b).1 = op a b) {n : Nat} {l : List (Option Nat)} (h : l.length ≤ 2 ^ n) :
    (redTree c n l).1 = foldOne op l.reduceOption := by
  induction n generalizing l with
  | zero =>
    match l, h with
    | [], _ => rfl
    | [none], _ => rfl
    | [some x], _ => rfl
  | succ n ih =>
    match l, h with
    | [], _ => rfl
    | [none], _ => rfl
    | [some x], _ => rfl
    | x :: y :: rest, h =>
      rw [redTree, ih, foldOne_pairUp hop hc]
      · rw [length_pairUp, Nat.div_le_iff_le_mul_add_pred (by decide)]
        rw [pow_succ] at h
        omega
      · simp
      · simp

theorem pairUp_flags {c : Combine} (hc : ∀ a b, (c a b).2 = 0) : ∀ l : List (Option Nat), (pairUp c l).2 = 0
  | [] => rfl
  | [_] => rfl
  | x :: y :: rest => by cases x <;> cases y <;> simp [pairUp, pairUp_flags hc rest, hc]

theorem redTree_flags {c : Combine} (hc : ∀ a b, (c a b).2 = 0) (n : Nat) (l : List (Option Nat)) :
    (redTree c n l).2 = 0 := by
  induction n generalizing l with
  | zero => rcases l with _ | ⟨x, _ | ⟨y, rest⟩⟩ <;> rfl
  | succ n ih =>
    rcases l with _ | ⟨x, _ | ⟨y, rest⟩⟩
    · rfl
    · rfl
    · simp [redTree, pairUp_flags hc, ih]

/-! ## The elements of a segment -/

theorem State.present_eq (s : State) (m : Bool) (a : Reg) (w e n : Nat) :
    s.present m a w e n = (List.range n).map fun j => if s.st.on m (e + j) then some (s.elem a w (e + j)) else none := by
  induction n generalizing e with
  | zero => rfl
  | succ n ih =>
    rw [State.present, ih, List.range_succ_eq_map, List.map_cons, List.map_map]
    simp only [Function.comp_def, Nat.add_zero, Nat.succ_eq_add_one, Nat.add_assoc, Nat.add_comm 1]

/-- The enabled elements `e` to `e + n − 1`, each as `inp` gives it. -/
def State.entered (s : State) (inp : Nat → Nat) (m : Bool) (a : Reg) (w e n : Nat) : List Nat :=
  (((List.range n).map (e + ·)).filter (s.st.on m)).map fun k => inp (s.elem a w k)

theorem State.entered_succ (s : State) (inp : Nat → Nat) (m : Bool) (a : Reg) (w e n : Nat) :
    s.entered inp m a w e (n + 1) =
      if s.st.on m e = true then inp (s.elem a w e) :: s.entered inp m a w (e + 1) n
      else s.entered inp m a w (e + 1) n := by
  have hr : (List.range (n + 1)).map (e + ·) = e :: (List.range n).map (e + 1 + ·) := by
    rw [List.range_succ_eq_map, List.map_cons, List.map_map]
    simp only [Function.comp_def, Nat.add_zero, Nat.succ_eq_add_one, Nat.add_assoc, Nat.add_comm 1]
  simp only [State.entered, hr, List.filter_cons]
  split <;> rfl

theorem State.present_entered (s : State) (inp : Nat → Nat) (m : Bool) (a : Reg) (w e n : Nat) :
    ((s.present m a w e n).map (Option.map inp)).reduceOption = s.entered inp m a w e n := by
  induction n generalizing e with
  | zero => rfl
  | succ n ih =>
    rw [State.present, State.entered_succ, List.map_cons, ← ih]
    cases s.st.on m e <;> rfl

/-- `State.foldOf` is the fold of the entered elements. -/
theorem State.foldOf_eq (s : State) (inp : Nat → Nat) (m : Bool) (a : Reg) (w : Nat) (op : Nat → Nat → Nat) (empty e n : Nat) :
    s.foldOf inp m a w op empty e n = (foldOne op (s.entered inp m a w e n)).getD empty := by
  unfold State.foldOf
  rw [← State.entered]
  cases s.entered inp m a w e n <;> rfl

/-- The result of a segment under an associative operation that raises nothing of its own: the fold (R86, R156). -/
theorem State.segment_fold {s : State} {op : Nat → Nat → Nat} (hop : ∀ a b c, op (op a b) c = op a (op b c)) {inp : Enter}
    {c : Combine} (hc : ∀ a b, (c a b).1 = op a b) (m : Bool) (a : Reg) (w empty e n : Nat) (hn : n ≤ 2 ^ 12) :
    (s.segment inp c m a w empty (e, n)).1 = s.foldOf (fun x => (inp x).1) m a w op empty e n := by
  rw [State.foldOf_eq, ← State.present_entered]
  simp only [State.segment]
  rw [redTree_eq_foldOne hop hc (by simpa [State.present_eq] using hn)]

/-- The result of a segment is the tree over its positions (R86). -/
theorem State.segment_tree (s : State) (inp : Enter) (c : Combine) (m : Bool) (a : Reg) (w empty e n : Nat) :
    (s.segment inp c m a w empty (e, n)).1 = (redTree c 12 ((List.range n).map fun j =>
      if s.st.on m (e + j) then some (inp (s.elem a w (e + j))).1 else none)).1.getD empty := by
  simp only [State.segment, State.present_eq, List.map_map, Function.comp_def]
  congr 3
  refine List.map_congr_left fun j _ => ?_
  split <;> rfl

theorem State.segment_congr {s t : State} {m : Bool} (hon : ∀ k, t.st.on m k = s.st.on m k) {a : Reg} {w : Nat}
    (helem : ∀ k, t.elem a w k = s.elem a w k) (inp : Enter) (c : Combine) (empty : Nat) (seg : Nat × Nat) :
    t.segment inp c m a w empty seg = s.segment inp c m a w empty seg := by
  simp only [State.segment, State.present_eq, hon, helem]

/-! ## The flags -/

theorem allRaised_append (x y : Raised) : allRaised (x ++ y) = allRaised x ||| allRaised y := by
  induction x with
  | nil => simp [allRaised]
  | cons p ps ih => simp only [List.cons_append, allRaised, ih, BitVec.or_assoc]

theorem allRaised_note (e : Nat) (f : FFlags) (fs : Raised) : allRaised (note e f fs) = f ||| allRaised fs := by
  unfold note
  split
  · rename_i h
    simp [beq_iff_eq.1 h]
  · rfl

/-- Reading the present elements raises the flags of each. -/
theorem enterFlags_of_mem {inp : Enter} {l : List (Option Nat)} {y : Nat} (h : some y ∈ l) {i : Nat}
    (hy : (inp y).2.getLsbD i = true) : (enterFlags inp l).getLsbD i = true := by
  have hacc : ∀ (l : List (Option Nat)) (acc : FFlags), acc.getLsbD i = true ∨ some y ∈ l →
      (l.foldl (fun acc x => match x with | some y => acc ||| (inp y).2 | none => acc) acc).getLsbD i = true := by
    intro l
    induction l with
    | nil => intro acc h; simpa using h
    | cons x xs ih =>
      intro acc h
      refine ih _ ?_
      cases x with
      | none => simpa using h
      | some z =>
        rcases h with h | h
        · left; simp [h]
        · rcases List.mem_cons.1 h with h | h
          · cases h; left; simp [hy]
          · exact .inr h
  exact hacc l 0 (.inr h)

theorem enterFlags_zero {inp : Enter} (hi : ∀ x, (inp x).2 = 0) (l : List (Option Nat)) : enterFlags inp l = 0 := by
  refine foldl_same _ _ _ fun x => ?_
  cases x <;> simp [hi]

section
variable {s : State} {inp : Enter} {c : Combine} {m : Bool} {a : Reg} {w empty : Nat}

/-- Operations that raise nothing leave no flag in any segment. -/
theorem State.segmentFlags_nil (hi : ∀ x, (inp x).2 = 0) (hc : ∀ a b, (c a b).2 = 0) (segs : List (Nat × Nat)) :
    s.segmentFlags inp c m a w empty segs = [] := by
  simp [State.segmentFlags, State.segment, redTree_flags hc, enterFlags_zero hi, note]

/-- A flag that reading an enabled element of a segment raises is among the flags of the segments (log 16). -/
theorem State.segmentFlags_of_mem {segs : List (Nat × Nat)} {seg : Nat × Nat} (hseg : seg ∈ segs) {k i : Nat}
    (h1 : seg.1 ≤ k) (h2 : k < seg.1 + seg.2) (hon : s.st.on m k = true) (hf : (inp (s.elem a w k)).2.getLsbD i = true) :
    (allRaised (s.segmentFlags inp c m a w empty segs)).getLsbD i = true := by
  have hmem : some (s.elem a w k) ∈ s.present m a w seg.1 seg.2 := by
    rw [State.present_eq, List.mem_map]
    exact ⟨k - seg.1, List.mem_range.2 (by omega), by rw [Nat.add_sub_cancel' h1, if_pos hon]⟩
  have hone : (allRaised (s.segment inp c m a w empty seg).2).getLsbD i = true := by
    simp only [State.segment, allRaised_note, BitVec.getLsbD_or, enterFlags_of_mem hmem hf, Bool.or_true, Bool.true_or]
  unfold State.segmentFlags
  induction segs with
  | nil => cases hseg
  | cons x xs ih =>
    rw [List.flatMap_cons, allRaised_append, BitVec.getLsbD_or, Bool.or_eq_true]
    rcases List.mem_cons.1 hseg with rfl | hseg
    · exact .inl hone
    · exact .inr (ih hseg)

/-! ## Reductions into a v register -/

/-- The flags of the reductions are those of the segments. -/
theorem State.reduceTo_flags (segs : List (Nat × Nat)) (v : VReg) :
    (s.reduceTo inp c m a w empty segs v).2 = s.segmentFlags inp c m a w empty segs := by
  induction segs generalizing v with
  | nil => rfl
  | cons seg rest ih =>
    simp only [State.reduceTo, ih]
    rfl

/-- An element at which no segment begins is kept (R156). -/
theorem State.elemOf_reduceTo_of_not_mem {segs : List (Nat × Nat)} (v : VReg) {k : Nat} (hk : w * k + w ≤ 16384)
    (h : ∀ n, (k, n) ∉ segs) : elemOf (s.reduceTo inp c m a w empty segs v).1 w k = elemOf v w k := by
  induction segs generalizing v with
  | nil => rfl
  | cons seg rest ih =>
    have hne : k ≠ seg.1 := by
      rintro rfl
      exact h seg.2 List.mem_cons_self
    simp only [State.reduceTo]
    rw [ih _ fun n hn => h n (List.mem_cons_of_mem _ hn), elemOf_setElem_of_ne _ _ _ _ _ hne hk]

/-- The first element of a segment receives its result (R156). -/
theorem State.elemOf_reduceTo_of_mem {ls : List Nat} {p : Nat} (hpos : ∀ n ∈ ls, 0 < n) (v : VReg) {e n : Nat}
    (he : w * e + w ≤ 16384) (h : (e, n) ∈ startsFrom p ls) :
    elemOf (s.reduceTo inp c m a w empty (startsFrom p ls) v).1 w e = (s.segment inp c m a w empty (e, n)).1 % 2 ^ w := by
  induction ls generalizing p v with
  | nil => cases h
  | cons l ls ih =>
    have hl : 0 < l := hpos l List.mem_cons_self
    simp only [startsFrom, State.reduceTo]
    rcases List.mem_cons.1 h with h | h
    · obtain ⟨rfl, rfl⟩ := Prod.mk.inj h
      rw [State.elemOf_reduceTo_of_not_mem _ he fun n' hn' => by have := le_of_mem_startsFrom hn'; omega,
        elemOf_setElem_self _ _ _ _ he]
    · exact ih (fun n hn => hpos n (List.mem_cons_of_mem _ hn)) _ h

/-! ## Scans -/

/-- A running result goes on with the values of a list. -/
def foldFrom (op : Nat → Nat → Nat) (acc : Option Nat) (l : List Nat) : Option Nat :=
  match acc with
  | none => foldOne op l
  | some y => some (l.foldl op y)

/-- Each enabled element receives the running result up to it; the others are kept (R156). -/
theorem State.elemOf_scanFrom (n e : Nat) (acc : Option Nat) (v : VReg) {k : Nat} (hk : w * k + w ≤ 16384) :
    elemOf (s.scanFrom inp c m a w n e acc v).1 w k =
      if e ≤ k ∧ k < e + n ∧ s.st.on m k = true then
        (foldFrom (fun x y => (c x y).1) acc (s.entered (fun x => (inp x).1) m a w e (k + 1 - e))).getD 0 % 2 ^ w
      else elemOf v w k := by
  induction n generalizing e acc v with
  | zero =>
    rw [if_neg (by omega)]
    rfl
  | succ n ih =>
    have hnext : ∀ h : e < k, k + 1 - e = (k + 1 - (e + 1)) + 1 := by intro h; omega
    have hiff : k ≠ e → ((e ≤ k ∧ k < e + (n + 1) ∧ s.st.on m k = true) ↔
        (e + 1 ≤ k ∧ k < e + 1 + n ∧ s.st.on m k = true)) := by
      intro h
      constructor <;> rintro ⟨h1, h2, h3⟩ <;> exact ⟨by omega, by omega, h3⟩
    unfold State.scanFrom
    split
    · rename_i hon
      simp only [ih]
      by_cases hke : k = e
      · subst hke
        rw [if_neg (by omega), if_pos ⟨Nat.le_refl k, by omega, hon⟩, elemOf_setElem_self _ _ _ _ hk,
          Nat.add_sub_cancel_left, State.entered_succ, if_pos hon]
        cases acc <;> rfl
      · rw [if_congr (hiff hke) rfl rfl, elemOf_setElem_of_ne _ _ _ _ _ hke hk]
        by_cases hin : e + 1 ≤ k ∧ k < e + 1 + n ∧ s.st.on m k = true
        · rw [if_pos hin, if_pos hin, hnext hin.1, State.entered_succ, if_pos hon]
          cases acc <;> rfl
        · rw [if_neg hin, if_neg hin]
    · rename_i hon
      rw [ih]
      by_cases hke : k = e
      · subst hke
        rw [if_neg (by omega), if_neg (by simp [hon])]
      · rw [if_congr (hiff hke) rfl rfl]
        by_cases hin : e + 1 ≤ k ∧ k < e + 1 + n ∧ s.st.on m k = true
        · rw [if_pos hin, if_pos hin, hnext hin.1, State.entered_succ, if_neg hon]
        · rw [if_neg hin, if_neg hin]

/-- An element that is masked off, or in no segment, is kept by the scans. -/
theorem State.elemOf_scanTo_of_not {segs : List (Nat × Nat)} (v : VReg) {k : Nat} (hk : w * k + w ≤ 16384)
    (h : s.st.on m k = false ∨ ∀ seg ∈ segs, ¬(seg.1 ≤ k ∧ k < seg.1 + seg.2)) :
    elemOf (s.scanTo inp c m a w segs v).1 w k = elemOf v w k := by
  induction segs generalizing v with
  | nil => rfl
  | cons seg rest ih =>
    simp only [State.scanTo]
    rw [ih _ (h.imp_right fun h x hx => h x (List.mem_cons_of_mem _ hx)), State.elemOf_scanFrom _ _ _ _ hk, if_neg]
    rintro ⟨h1, h2, h3⟩
    rcases h with h | h
    · rw [h] at h3; cases h3
    · exact h seg List.mem_cons_self ⟨h1, h2⟩

/-- An enabled element receives the running result of its segment (R156). -/
theorem State.elemOf_scanTo_of_mem {ls : List Nat} {p : Nat} (v : VReg) {e n k : Nat} (hk : w * k + w ≤ 16384)
    (h : (e, n) ∈ startsFrom p ls) (h1 : e ≤ k) (h2 : k < e + n) (hon : s.st.on m k = true) :
    elemOf (s.scanTo inp c m a w (startsFrom p ls) v).1 w k =
      s.foldOf (fun x => (inp x).1) m a w (fun x y => (c x y).1) 0 e (k + 1 - e) % 2 ^ w := by
  induction ls generalizing p v with
  | nil => cases h
  | cons l ls ih =>
    simp only [startsFrom, State.scanTo]
    rcases List.mem_cons.1 h with h | h
    · obtain ⟨rfl, rfl⟩ := Prod.mk.inj h
      rw [State.elemOf_scanTo_of_not _ hk (.inr fun seg hseg => by have := le_of_mem_startsFrom hseg; omega),
        State.elemOf_scanFrom _ _ _ _ hk, if_pos ⟨h1, h2, hon⟩, State.foldOf_eq]
      rfl
    · exact ih _ h

/-- Scans that raise nothing leave no flag. -/
theorem State.scanTo_flags_nil (hi : ∀ x, (inp x).2 = 0) (hc : ∀ a b, (c a b).2 = 0) (segs : List (Nat × Nat)) (v : VReg) :
    (s.scanTo inp c m a w segs v).2 = [] := by
  have hfrom : ∀ (n e : Nat) (acc : Option Nat) (v : VReg), (s.scanFrom inp c m a w n e acc v).2 = [] := by
    intro n
    induction n with
    | zero => intros; rfl
    | succ n ih =>
      intro e acc v
      unfold State.scanFrom
      split
      · cases acc <;> simp [ih, hi, hc, note]
      · exact ih _ _ _
  induction segs generalizing v with
  | nil => rfl
  | cons seg rest ih => simp [State.scanTo, hfrom, ih]

/-- A flag that reading an enabled element of a segment raises is among the flags of the scans. -/
theorem State.scanTo_flags_of_mem {segs : List (Nat × Nat)} {seg : Nat × Nat} (hseg : seg ∈ segs) (v : VReg) {k i : Nat}
    (h1 : seg.1 ≤ k) (h2 : k < seg.1 + seg.2) (hon : s.st.on m k = true) (hf : (inp (s.elem a w k)).2.getLsbD i = true) :
    (allRaised (s.scanTo inp c m a w segs v).2).getLsbD i = true := by
  have hfrom : ∀ (n e : Nat) (acc : Option Nat) (v : VReg), e ≤ k → k < e + n →
      (allRaised (s.scanFrom inp c m a w n e acc v).2).getLsbD i = true := by
    intro n
    induction n with
    | zero => intros; omega
    | succ n ih =>
      intro e acc v h1 h2
      unfold State.scanFrom
      by_cases hke : k = e
      · subst hke
        simp only [hon, if_true, allRaised_note, BitVec.getLsbD_or, hf, Bool.or_true, Bool.true_or]
      · split
        · simp only [allRaised_note, BitVec.getLsbD_or, ih _ _ _ (show e + 1 ≤ k by omega) (by omega), Bool.or_true]
        · exact ih _ _ _ (by omega) (by omega)
  induction segs generalizing v with
  | nil => cases hseg
  | cons x xs ih =>
    simp only [State.scanTo, allRaised_append, BitVec.getLsbD_or, Bool.or_eq_true]
    rcases List.mem_cons.1 hseg with rfl | hseg
    · exact .inl (hfrom _ _ _ _ h1 h2)
    · exact .inr (ih hseg _)

end

end Sys2Proof.Machine

/-! SUPPORT. The reductions and scans as instructions of the vector queue (R155, R156), and the statement about them. -/

namespace Sys2Proof.Machine

theorem State.setX_onlyRegs (s : State) (r : Reg) (v : Word) : s.onlyRegs (s.setX r v) := by
  unfold State.onlyRegs State.setX Strand.xset
  split <;> rfl

/-- A loop that gives nothing has no element to give. -/
theorem eq_none_of_not_anyLane {g : Nat → Option (Nat × FFlags)} {n e : Nat} (h : anyLane g n e = false) {k : Nat}
    (h1 : e ≤ k) (h2 : k < e + n) : g k = none := by
  induction n generalizing e with
  | zero => omega
  | succ n ih =>
    simp only [anyLane, Bool.or_eq_false_iff, Option.isSome_eq_false_iff, Option.isNone_iff_eq_none] at h
    rcases Nat.eq_or_lt_of_le h1 with rfl | h1
    · exact h.1
    · exact ih h.2 h1 (by omega)

theorem elem_fits {w k : Nat} (hw : 0 < w) (hk : k < vlmaxOf w) : w * k + w ≤ 16384 := by
  have := (Nat.le_div_iff_mul_le hw).1 (show k + 1 ≤ 16384 / w from hk)
  rwa [Nat.mul_comm, Nat.mul_succ] at this

/-- Elements of registers that are at least a byte wide number at most 2,048 (R107). -/
theorem vlmaxOf_le {w : Nat} (hw : 8 ≤ w) : vlmaxOf w ≤ 2048 := Nat.div_le_div_left (c := 8) hw (by decide)

/-! ## What the bodies read -/

theorem State.pushed_vsg (s : State) (i : Instr) (f : VForm) : (s.pushed i f).st.vsg = s.st.vsg := by
  rw [State.pushed_st]

theorem State.pushed_segment (s : State) (i : Instr) (f : VForm) (inp : Enter) (c : Combine) (m : Bool) (a : Reg)
    (w empty : Nat) (seg : Nat × Nat) : (s.pushed i f).segment inp c m a w empty seg = s.segment inp c m a w empty seg :=
  State.segment_congr (fun _ => State.pushed_on ..) (fun _ => State.pushed_elem ..) inp c empty seg

theorem State.pushed_segmentFlags (s : State) (i : Instr) (f : VForm) (inp : Enter) (c : Combine) (m : Bool) (a : Reg)
    (w empty : Nat) (segs : List (Nat × Nat)) :
    (s.pushed i f).segmentFlags inp c m a w empty segs = s.segmentFlags inp c m a w empty segs := by
  simp only [State.segmentFlags, State.pushed_segment]

theorem State.pushed_foldOf (s : State) (i : Instr) (f : VForm) (inp : Nat → Nat) (m : Bool) (a : Reg) (w : Nat)
    (op : Nat → Nat → Nat) (empty e n : Nat) :
    (s.pushed i f).foldOf inp m a w op empty e n = s.foldOf inp m a w op empty e n := by
  have hon : (s.pushed i f).st.on m = s.st.on m := funext fun k => State.pushed_on ..
  simp only [State.foldOf, State.pushed_elem, hon]

/-! ## What a reduction and a scan are said to do -/

/-- `fflags` and `ffirst` take what an instruction has raised (R71, R72). -/
def State.takesFlags (s : State) (fs : Raised) (t : State) : Prop :=
  t.st.fflags = s.st.fflags ||| allRaised fs ∧ ∀ j : Fin 7, t.st.ffirst[j] = ffirstAfter fs 0 j s.st.ffirst[j]

theorem State.takesFlags.nil {s t : State} (h : s.takesFlags [] t) : s.keepsFlags t := by
  obtain ⟨h1, h2⟩ := h
  refine ⟨by simpa [allRaised] using h1, Vector.ext fun j hj => ?_⟩
  simpa [ffirstAfter, lowestIndex] using h2 ⟨j, hj⟩

theorem State.takesFlags.of_mem {s t : State} {fs : Raised} (h : s.takesFlags fs t) {i : Nat}
    (hi : (allRaised fs).getLsbD i = true) : t.st.fflags.getLsbD i = true := by
  rw [h.1, BitVec.getLsbD_or, hi, Bool.or_true]

section
variable (s : State) (r : Result) (o : VRedOps)

/-- Each segment's result goes to its first element; all else but the flags is kept (R156). -/
def State.reducesTo (w : Nat) (result : Nat → Nat → Nat) (flags : State → Prop) : Prop :=
  ∃ t, r = .next t ∧
    (∀ e n, (e, n) ∈ segmentsOf s.st.vsg s.st.vl.toNat → t.elem o.d w e = result e n % 2 ^ w) ∧
    (∀ k, k < vlmaxOf w → (∀ n, (k, n) ∉ segmentsOf s.st.vsg s.st.vl.toNat) → t.elem o.d w k = s.elem o.d w k) ∧ flags t ∧
    t.st.tag o.d = 0 ∧ s.vectorDone t [] [o.d] ∧ t.st.vm = s.st.vm

/-- The first segment's result goes to xd; all else but the flags is kept (R156). -/
def State.delivers (result : Nat → Nat → Word) (flags : State → Prop) : Prop :=
  ∃ t, r = .next t ∧
    (∀ n, (0, n) ∈ segmentsOf s.st.vsg s.st.vl.toNat → t.st.xget o.d = if o.d = 0 then 0 else result 0 n) ∧
    t.st.isFull o.d = true ∧ flags t ∧ s.vectorDone t [o.d] [] ∧ t.st.vm = s.st.vm

/-- Each enabled element receives the running result of its segment; all else but the flags is kept (R156). -/
def State.scansTo (w : Nat) (inp : Nat → Nat) (op : Nat → Nat → Nat) (flags : State → Prop) : Prop :=
  ∃ t, r = .next t ∧
    (∀ e n k, (e, n) ∈ segmentsOf s.st.vsg s.st.vl.toNat → e ≤ k → k < e + n → s.st.on o.m k = true →
      t.elem o.d w k = s.foldOf inp o.m o.a w op 0 e (k + 1 - e) % 2 ^ w) ∧ flags t ∧
    (∀ k, k < vlmaxOf w → (s.st.on o.m k = false ∨ s.st.vl.toNat ≤ k) → t.elem o.d w k = s.elem o.d w k) ∧
    t.st.tag o.d = 0 ∧ s.vectorDone t [] [o.d] ∧ t.st.vm = s.st.vm

end

section
variable {s : State} {r : Result} {o : VRedOps} {w : Nat} {flags flags' : State → Prop} (hf : ∀ t, flags t → flags' t)
include hf

theorem State.reducesTo.imp {result result' : Nat → Nat → Nat} (h : s.reducesTo r o w result flags)
    (hr : ∀ e n, (e, n) ∈ segmentsOf s.st.vsg s.st.vl.toNat → result e n = result' e n) :
    s.reducesTo r o w result' flags' := by
  obtain ⟨t, e, hres, hkeep, hfl, hrest⟩ := h
  exact ⟨t, e, fun e n hseg => by rw [hres e n hseg, hr e n hseg], hkeep, hf t hfl, hrest⟩

theorem State.delivers.imp {result result' : Nat → Nat → Word} (h : s.delivers r o result flags)
    (hr : ∀ n, (0, n) ∈ segmentsOf s.st.vsg s.st.vl.toNat → result 0 n = result' 0 n) : s.delivers r o result' flags' := by
  obtain ⟨t, e, hres, hfull, hfl, hrest⟩ := h
  exact ⟨t, e, fun n hseg => by rw [hres n hseg, hr n hseg], hfull, hf t hfl, hrest⟩

theorem State.scansTo.imp {inp : Nat → Nat} {op op' : Nat → Nat → Nat} (h : s.scansTo r o w inp op flags) (hop : op = op') :
    s.scansTo r o w inp op' flags' := by
  obtain ⟨t, e, hres, hfl, hrest⟩ := h
  exact ⟨t, e, hop ▸ hres, hf t hfl, hrest⟩

end

/-! ## The forms of R155 -/

theorem Strand.xget_congr {t u : Strand} (h : t.x = u.x) (r : Reg) : t.xget r = u.xget r := by simp only [Strand.xget, h]

theorem Strand.isFull_congr {t u : Strand} (h : t.xfull = u.xfull) (r : Reg) : t.isFull r = u.isFull r := by
  simp only [Strand.isFull, h]

/-- A push with an x destination empties that register alone. -/
theorem State.pushed_x_of_ne {s : State} {i : Instr} {f : VForm} {d r : Reg} (hxd : f.xd = some d) (hne : r ≠ d) :
    (s.pushed i f).st.xget r = s.st.xget r ∧ (s.pushed i f).st.isFull r = s.st.isFull r := by
  rw [State.pushed_st, hxd]
  refine ⟨rfl, ?_⟩
  simp only [Strand.isFull, Strand.xempty]
  split
  · rfl
  · simp only [hasReg_setReg_of_ne _ _ _ _ hne]

section
variable {s : State} {o : VRedOps} {w empty : Nat} {rounds : Bool} {ext : Nat → Word} {inp : QEntry → Enter}
  {c : QEntry → Combine}

theorem vredForm_body_reduce (hx : o.xdst = false) (hs : o.scan = false) (q : QEntry) (n : Nat) (p : State) :
    (vredForm o w rounds empty ext inp c).body q 0 n p =
      .done (p.putV o.d (p.reduceTo (inp q) (c q) o.m o.a w empty (segmentsOf p.st.vsg n) (p.st.vget o.d)).1 true)
        (p.segmentFlags (inp q) (c q) o.m o.a w empty (segmentsOf p.st.vsg n)) := by
  simp [vredForm, hx, hs, State.reduceTo_flags]

theorem vredForm_body_deliver (hx : o.xdst = true) (q : QEntry) (n : Nat) (p : State) {seg : Nat × Nat}
    {rest : List (Nat × Nat)} (hsegs : segmentsOf p.st.vsg n = seg :: rest) :
    (vredForm o w rounds empty ext inp c).body q 0 n p =
      .done (p.setX o.d (ext (p.segment (inp q) (c q) o.m o.a w empty seg).1))
        (p.segmentFlags (inp q) (c q) o.m o.a w empty (segmentsOf p.st.vsg n)) := by
  simp [vredForm, hx, hsegs]

theorem vredForm_body_scan (hx : o.xdst = false) (hs : o.scan = true) (q : QEntry) (n : Nat) (p : State) :
    (vredForm o w rounds empty ext inp c).body q 0 n p =
      let r := p.scanTo (inp q) (c q) o.m o.a w (segmentsOf p.st.vsg n) (p.st.vget o.d)
      .done (p.putV o.d r.1 (anyLane (p.masked o.m fun _ => (0, 0)) n 0)) r.2 := by
  simp [vredForm, hx, hs]

theorem vredForm_plain (hx : o.xdst = false) : (vredForm o w rounds empty ext inp c).plain [o.d] (vlmaxOf w) :=
  ⟨rfl, rfl, rfl, rfl, by simp [vredForm, hx], rfl, by simp [vredForm, hx], rfl⟩

variable (h : s.quiet) (hl : s.vlFits w) (hw : 0 < w) (hr : rounds = true → s.st.frm ≠ 4) (i : Instr)
include h hl hr

include hw in
/-- A reduction into a v register. -/
theorem vredForm_reduces (hx : o.xdst = false) (hs : o.scan = false) :
    let f := vredForm o w rounds empty ext inp c
    let q := s.entryOf i f
    s.reducesTo (.next (s.vector i f)) o w (fun e n => (s.segment (inp q) (c q) o.m o.a w empty (e, n)).1)
      (s.takesFlags (s.segmentFlags (inp q) (c q) o.m o.a w empty (segmentsOf s.st.vsg s.st.vl.toNat))) := by
  intro f q
  have hbody : f.body q 0 s.st.vl.toNat (s.pushed i f) = _ := vredForm_body_reduce hx hs q s.st.vl.toNat (s.pushed i f)
  rw [State.pushed_vsg, State.pushed_vget, State.pushed_segmentFlags] at hbody
  obtain ⟨t, e, hdone, htag, hv, hvm, hflags⟩ := State.vector_puts (vredForm_plain hx) h hl.1 hl.2 hr hbody
    (State.putV_onlyV (h.pushed_vfull i f) _ _ _)
    (fun r hr => by rw [State.putV_vget, if_neg (by simpa using hr), State.pushed_vget])
  have helem : ∀ k, t.elem o.d w k = elemOf ((s.pushed i f).reduceTo (inp q) (c q) o.m o.a w empty
      (segmentsOf s.st.vsg s.st.vl.toNat) (s.st.vget o.d)).1 w k := by
    intro k
    rw [State.elem_congr hv, State.putV_vget, if_pos ⟨rfl, rfl⟩]
  refine ⟨t, congrArg _ e, fun k n hseg => ?_, fun k hk hno => ?_, hflags, htag _ (by simp), hdone, hvm⟩
  · obtain ⟨hn, hle, -⟩ := mem_segmentsOf hseg
    have hfit := elem_fits hw (Nat.lt_of_lt_of_le (show k < s.st.vl.toNat by omega) hl.2)
    rw [helem]
    simp only [segmentsOf_eq] at hseg ⊢
    rw [State.elemOf_reduceTo_of_mem (fun _ => segLengths_pos) _ hfit hseg, State.pushed_segment]
  · rw [helem, State.elemOf_reduceTo_of_not_mem _ (elem_fits hw hk) hno]
    rfl

/-- A reduction into an x register. -/
theorem vredForm_delivers (hx : o.xdst = true) (hu : s.usable [] [o.d]) :
    let f := vredForm o w rounds empty ext inp c
    let q := s.entryOf i f
    s.delivers (.next (s.vector i f)) o (fun e n => ext (s.segment (inp q) (c q) o.m o.a w empty (e, n)).1)
      (s.takesFlags (s.segmentFlags (inp q) (c q) o.m o.a w empty (segmentsOf s.st.vsg s.st.vl.toNat))) := by
  intro f q
  have hxd : f.xd = some o.d := by simp [f, vredForm, hx]
  have hfault : f.fault s = none := State.fault_none h rfl rfl hr fun n hn => by cases hn; exact hl.2
  obtain ⟨n, rest, hsegs, hfirst⟩ := segmentsOf_eq_cons (vsg := s.st.vsg) hl.1
  have hbody : f.body q 0 s.st.vl.toNat (s.pushed i f) = _ :=
    vredForm_body_deliver hx q s.st.vl.toNat (s.pushed i f) (by rw [State.pushed_vsg]; exact hsegs)
  rw [State.pushed_vsg, State.pushed_segment, State.pushed_segmentFlags] at hbody
  have hwt : (s.entryOf i f).wtags = ([] : List Reg).map fun r => (r, (0 : Byte)) := by
    rw [State.wtags_plain i hl.ne rfl]
    simp [f, vredForm, hx]
  obtain ⟨t, e, hdone, -, -, hvm, htx, htf, hflags⟩ := State.vector_wrote (dx := [o.d]) (dv := []) h hfault
    (by rw [hxd]; exact hu) hl.1 hwt hbody (State.setX_onlyRegs ..)
    (fun r _ => by rw [State.setX_st, Strand.vget, Strand.xset_v]; exact State.pushed_vget ..)
    (fun r hr => by
      have hne : r ≠ o.d := by simpa using hr
      rw [State.setX_st, Strand.xget_xset_of_ne _ _ _ _ hne, Strand.isFull_xset_of_ne _ _ _ _ hne]
      exact State.pushed_x_of_ne hxd hne)
  refine ⟨t, congrArg _ e, fun m hm => ?_, ?_, hflags, hdone, hvm⟩
  · rw [Strand.xget_congr htx, hfirst m hm]
    split
    · rename_i h0
      rw [h0]
      rfl
    · rename_i h0
      exact Strand.xget_xset_self _ _ _ h0
  · rw [Strand.isFull_congr htf]
    exact Strand.isFull_xset_self ..

include hw in
/-- A scan. -/
theorem vredForm_scans (hx : o.xdst = false) (hs : o.scan = true) :
    let f := vredForm o w rounds empty ext inp c
    let q := s.entryOf i f
    s.scansTo (.next (s.vector i f)) o w (fun x => (inp q x).1) (fun x y => (c q x y).1)
      (s.takesFlags ((s.pushed i f).scanTo (inp q) (c q) o.m o.a w (segmentsOf s.st.vsg s.st.vl.toNat)
        (s.st.vget o.d)).2) := by
  intro f q
  have hbody : f.body q 0 s.st.vl.toNat (s.pushed i f) = _ := vredForm_body_scan hx hs q s.st.vl.toNat (s.pushed i f)
  simp only [State.pushed_vsg, State.pushed_vget] at hbody
  obtain ⟨t, e, hdone, htag, hv, hvm, hflags⟩ := State.vector_puts (vredForm_plain hx) h hl.1 hl.2 hr hbody
    (State.putV_onlyV (h.pushed_vfull i f) _ _ _)
    (fun r hr => by rw [State.putV_vget, if_neg (fun hd => hr (by simp [hd.2])), State.pushed_vget])
  have helem : ∀ k, t.elem o.d w k =
      if anyLane ((s.pushed i f).masked o.m fun _ => (0, 0)) s.st.vl.toNat 0 = true then
        elemOf ((s.pushed i f).scanTo (inp q) (c q) o.m o.a w (segmentsOf s.st.vsg s.st.vl.toNat) (s.st.vget o.d)).1 w k
      else s.elem o.d w k := by
    intro k
    rw [State.elem_congr hv, State.putV_vget, State.pushed_vget]
    simp only [and_true]
    split <;> rfl
  refine ⟨t, congrArg _ e, fun e n k hseg h1 h2 hon => ?_, hflags, fun k hk hoff => ?_, htag _ (by simp), hdone, hvm⟩
  · have hkvl : k < s.st.vl.toNat := by obtain ⟨-, hle, -⟩ := mem_segmentsOf hseg; omega
    rw [helem, if_pos]
    · simp only [segmentsOf_eq] at hseg ⊢
      rw [State.elemOf_scanTo_of_mem _ (elem_fits hw (Nat.lt_of_lt_of_le hkvl hl.2)) hseg h1 h2
        (by rw [State.pushed_on]; exact hon), State.pushed_foldOf]
    · by_contra hno
      have hnone := eq_none_of_not_anyLane (by simpa using hno) (Nat.zero_le k) (by omega)
      simp [State.masked, State.pushed_on, hon] at hnone
  · rw [helem]
    split
    · refine State.elemOf_scanTo_of_not _ (elem_fits hw hk) ?_
      rw [State.pushed_on]
      refine hoff.imp_right fun hvl seg hseg => ?_
      obtain ⟨-, hle, -⟩ := mem_segmentsOf hseg
      omega
    · rfl

end

/-! ## Integer reductions -/

theorem maskAdd_assoc (w a b c : Nat) : maskW w (maskW w (a + b) + c) = maskW w (a + maskW w (b + c)) := by
  simp only [maskW, Nat.mod_add_mod, Nat.add_mod_mod, Nat.add_assoc]

theorem smaxW_assoc (w a b c : Nat) : smaxW w (smaxW w a b) c = smaxW w a (smaxW w b c) := by
  unfold smaxW
  split_ifs <;> omega

theorem sminW_assoc (w a b c : Nat) : sminW w (sminW w a b) c = sminW w a (sminW w b c) := by
  unfold sminW
  split_ifs <;> omega

theorem smaxW_eq (w a b : Nat) :
    smaxW w a b = if (BitVec.ofNat w a).toInt ≤ (BitVec.ofNat w b).toInt then b else a := by
  rw [smaxW, readInt_signed, readInt_signed]

theorem sminW_eq (w a b : Nat) :
    sminW w a b = if (BitVec.ofNat w a).toInt ≤ (BitVec.ofNat w b).toInt then a else b := by
  rw [sminW, readInt_signed, readInt_signed]

/-- An extended result: by its sign, or with zeros (R12). -/
theorem extendBits_signed (w x : Nat) : extendBits w true x = (BitVec.ofNat w x).signExtend 64 := by
  rw [extendBits, Bool.not_true, readInt_signed]
  rfl

theorem extendBits_unsigned (w x : Nat) : extendBits w false x = BitVec.ofNat 64 (x % 2 ^ w) := by
  rw [extendBits, Bool.not_false, readInt_unsigned, BitVec.ofInt_natCast]

section
variable {s : State} {o : VRedOps} (h : s.quiet) (hl : s.vlFits (intWidth o.ty)) (i : Instr) {empty : Nat → Nat}
  {signed : Bool} {f : Nat → Nat → Nat → Nat}
  (hop : ∀ a b c, f (intWidth o.ty) (f (intWidth o.ty) a b) c = f (intWidth o.ty) a (f (intWidth o.ty) b c))
include hl hop

/-- The result of a segment is the fold of its enabled elements. -/
theorem vredInt_segment {e n : Nat} (hseg : (e, n) ∈ segmentsOf s.st.vsg s.st.vl.toNat) :
    (s.segment (fun x => (x, 0)) (fun a b => (f (intWidth o.ty) a b, 0)) o.m o.a (intWidth o.ty) (empty (intWidth o.ty)) (e, n)).1 =
      s.foldOf id o.m o.a (intWidth o.ty) (f (intWidth o.ty)) (empty (intWidth o.ty)) e n := by
  have hn : n ≤ 2 ^ 12 := by
    have hw : 8 ≤ intWidth o.ty := Nat.le_mul_of_pos_right 8 (Nat.two_pow_pos _)
    obtain ⟨-, hle, -⟩ := mem_segmentsOf hseg
    have := Nat.le_trans hl.2 (vlmaxOf_le hw)
    omega
  exact State.segment_fold hop (fun _ _ => rfl) _ _ _ _ _ _ hn

include h in
/-- The three uses of an integer reduction: folds, and no flag (R71, R155, R156). -/
theorem vredInt_gives :
    let w := intWidth o.ty
    let fold := fun e n => s.foldOf id o.m o.a w (f w) (empty w) e n
    let r : Result := .next (s.vector i (vredInt o empty signed f))
    (o.xdst = false → o.scan = false → s.reducesTo r o w fold s.keepsFlags) ∧
      (o.xdst = true → s.usable [] [o.d] → s.delivers r o (fun e n => extendBits w signed (fold e n)) s.keepsFlags) ∧
      (o.xdst = false → o.scan = true → s.scansTo r o w id (f w) s.keepsFlags) := by
  have hform : vredInt o empty signed f = vredForm o (intWidth o.ty) false (empty (intWidth o.ty))
    (extendBits (intWidth o.ty) signed) (fun _ x => (x, 0)) (fun _ a b => (f (intWidth o.ty) a b, 0)) := rfl
  have hr : false = true → s.st.frm ≠ 4 := nofun
  have hnil : ∀ segs t, s.takesFlags (s.segmentFlags (fun x => (x, 0)) (fun a b => (f (intWidth o.ty) a b, 0)) o.m o.a
      (intWidth o.ty) (empty (intWidth o.ty)) segs) t → s.keepsFlags t := by
    intro segs t ht
    rw [State.segmentFlags_nil (fun _ => rfl) (fun _ _ => rfl)] at ht
    exact ht.nil
  rw [hform]
  refine ⟨fun hx hs => ?_, fun hx hu => ?_, fun hx hs => ?_⟩
  · exact State.reducesTo.imp (hnil _) (vredForm_reduces h hl (intWidth_pos _) hr i hx hs)
      fun e n hseg => vredInt_segment hl hop hseg
  · exact State.delivers.imp (hnil _) (vredForm_delivers h hl hr i hx hu)
      fun n hseg => congrArg (extendBits (intWidth o.ty) signed) (vredInt_segment hl hop hseg)
  · refine State.scansTo.imp (fun t ht => ?_) (vredForm_scans h hl (intWidth_pos _) hr i hx hs) rfl
    rw [State.scanTo_flags_nil (fun _ => rfl) (fun _ _ => rfl)] at ht
    exact ht.nil

end

/-! ## Floating reductions -/

section
variable {s : State} {o : VRedOps} (h : s.quiet) (hl : s.vlFits (fpWidth o.ty)) (i : Instr) {rounds : Bool}
  {empty : Fmt → Nat} {f : QEntry → Fmt → Combine} (hr : rounds = true → s.st.frm ≠ 4)
include h hl hr

/-- The three uses of a floating reduction: the tree of R86, and NV for every signalling NaN below `vl` (R65, R71; log
16). -/
theorem vredFp_gives {c : Combine} (hc : f (s.entryOf i (vredFp o rounds empty f)) (fmtOf o.ty) = c) :
    let F := fmtOf o.ty
    let w := fpWidth o.ty
    let inp := fun x => if (readF F s.st.fz x).isNan then F.nan else flushed F s.st.fz x
    let tree := fun e n => (redTree c 12 ((List.range n).map fun j =>
      if s.st.on o.m (e + j) then some (inp (s.elem o.a w (e + j))) else none)).1.getD (empty F)
    let nv := fun t : State => ∀ k, k < s.st.vl.toNat → s.st.on o.m k = true →
      readF F s.st.fz (s.elem o.a w k) = .nan true → t.st.fflags.getLsbD 0 = true
    let r : Result := .next (s.vector i (vredFp o rounds empty f))
    (o.xdst = false → o.scan = false → s.reducesTo r o w tree nv) ∧
      (o.xdst = true → s.usable [] [o.d] → s.delivers r o (fun e n => BitVec.ofNat 64 (tree e n)) nv) ∧
      (o.xdst = false → o.scan = true → s.scansTo r o w inp (fun a b => (c a b).1) nv) := by
  intro F w inp tree nv r
  have hnv : ∀ k, readF F s.st.fz (s.elem o.a w k) = .nan true →
      (enterF F s.st.fz (s.elem o.a w k)).2.getLsbD 0 = true := by
    intro k hk
    simp only [enterF, hk]
    rfl
  subst hc
  refine ⟨fun hx hs => ?_, fun hx hu => ?_, fun hx hs => ?_⟩
  · refine (vredForm_reduces h hl (fpWidth_pos _) hr i hx hs).imp (fun t ht k hk hon hnan => ?_)
      fun e n _ => State.segment_tree ..
    obtain ⟨seg, hseg, h1, h2⟩ := exists_segmentOf (vsg := s.st.vsg) hk
    exact ht.of_mem (State.segmentFlags_of_mem hseg h1 h2 hon (hnv k hnan))
  · refine (vredForm_delivers h hl hr i hx hu).imp (fun t ht k hk hon hnan => ?_)
      fun n _ => congrArg (BitVec.ofNat 64) (State.segment_tree ..)
    obtain ⟨seg, hseg, h1, h2⟩ := exists_segmentOf (vsg := s.st.vsg) hk
    exact ht.of_mem (State.segmentFlags_of_mem hseg h1 h2 hon (hnv k hnan))
  · refine (vredForm_scans h hl (fpWidth_pos _) hr i hx hs).imp (fun t ht k hk hon hnan => ?_) rfl
    obtain ⟨seg, hseg, h1, h2⟩ := exists_segmentOf (vsg := s.st.vsg) hk
    refine ht.of_mem (State.scanTo_flags_of_mem hseg _ h1 h2 (by rw [State.pushed_on]; exact hon) ?_)
    rw [State.pushed_elem]
    exact hnv k hnan

end

/-! ## The statement -/

/-- Settles O38: integer reductions as folds, floating ones as trees, and the segments. -/
theorem reductionsAndScans : Obligations.ReductionsAndScans := by
  unfold Obligations.ReductionsAndScans
  refine ⟨?_, fun vsg vl _ => ⟨segmentsOf_sum vsg vl, fun k hk => ⟨?_, exists_mem_segmentsOf hk⟩, fun k n hseg => ?_⟩⟩
  · intro o s h segs vector scalar scan
    constructor
    · intro w hl toS toU S all
      have hsigned : extendBits w true = toS := funext fun x => extendBits_signed w x
      have hunsigned : extendBits w false = toU := funext fun x => extendBits_unsigned w x
      have hmax : smaxW w = fun a b => if S a ≤ S b then b else a := funext₂ (smaxW_eq w)
      have hmin : sminW w = fun a b => if S a ≤ S b then a else b := funext₂ (sminW_eq w)
      rw [← hsigned, ← hunsigned, ← hmax, ← hmin]
      exact ⟨vredInt_gives h hl _ (maskAdd_assoc w), vredInt_gives h hl _ (smaxW_assoc w), vredInt_gives h hl _ (sminW_assoc w),
        vredInt_gives (f := fun _ a b => Nat.max a b) h hl _ Nat.max_assoc,
        vredInt_gives (f := fun _ a b => Nat.min a b) h hl _ Nat.min_assoc⟩
    · intro F w hl fz all
      refine ⟨fun hr => ?_, ?_, ?_⟩
      · exact vredFp_gives h hl _ (fun _ => hr) rfl
      · exact vredFp_gives (rounds := false) h hl _ nofun rfl
      · exact vredFp_gives (rounds := false) h hl _ nofun rfl
  · rintro ⟨n, hseg⟩
    obtain ⟨-, -, hbegin, -⟩ := mem_segmentsOf hseg
    exact hbegin
  · obtain ⟨h1, h2, -, h3, h4⟩ := mem_segmentsOf hseg
    exact ⟨h1, h2, h3, h4⟩

end Sys2Proof.Machine

/-! SUPPORT. Division, branches and jumps (R89, R90, R94, R95): each operation in the words of `BitVec`, and the frames of
the branches. -/

namespace Sys2Proof.Machine

/-! ## Division (R89, R90) -/

/-- The quotient is that of two's complement division but for a divisor of 0, the overflow included (R90). -/
theorem quotient_eq (a b : Word) : quotient a b = if b = 0 then -1 else a.sdiv b := by
  unfold quotient
  split
  · rfl
  · apply BitVec.eq_of_toInt_eq
    rw [BitVec.toInt_ofInt, BitVec.toInt_sdiv]

theorem quotientU_eq (a b : Word) : quotientU a b = if b = 0 then -1 else a / b := by
  unfold quotientU
  split
  · rfl
  · rw [← BitVec.toNat_udiv, BitVec.ofNat_toNat, BitVec.setWidth_eq]

theorem remainder_eq (a b : Word) : remainder a b = if b = 0 then a else a.srem b := by
  unfold remainder
  split
  · rfl
  · rw [← BitVec.toInt_srem, BitVec.ofInt_toInt]

theorem remainderU_eq (a b : Word) : remainderU a b = if b = 0 then a else a % b := by
  unfold remainderU
  split
  · rfl
  · rw [← BitVec.toNat_umod, BitVec.ofNat_toNat, BitVec.setWidth_eq]

/-- The one overflow of signed division (R90). -/
theorem sdiv_overflow : (BitVec.intMin 64).sdiv (-1) = BitVec.intMin 64 := by decide

theorem srem_overflow : (BitVec.intMin 64).srem (-1) = 0 := by decide

/-- Settles O5: the four instructions are `binary`, and their operations are those of `BitVec`. -/
theorem divisionNeverTraps : Obligations.DivisionNeverTraps := by
  unfold Obligations.DivisionNeverTraps
  intro o s h A B put
  have hput : ∀ f, (Host.Outcome.next (s.binary o f) : Result) = put (f A B) := fun f =>
    congrArg _ (State.binary_of_usable f h)
  refine ⟨fun v => by simp, (hput quotient).trans ?_, (hput quotientU).trans ?_, (hput remainder).trans ?_,
    (hput remainderU).trans ?_⟩
  · rw [quotient_eq]
    by_cases hov : A = BitVec.intMin 64 ∧ B = -1
    · rw [hov.1, hov.2, sdiv_overflow]; simp
    · rw [if_neg hov]
  · rw [quotientU_eq]
  · rw [remainder_eq]
    by_cases hov : A = BitVec.intMin 64 ∧ B = -1
    · rw [hov.1, hov.2, srem_overflow]; simp
    · rw [if_neg hov]
  · rw [remainderU_eq]

/-! ## Branches and jumps (R94, R95) -/

/-- An offset counts instruction words (R30). -/
theorem targetOf_eq {n : Nat} (pc : Word) (off : BitVec n) : targetOf pc off = pc + 4 * off.signExtend 64 := by
  unfold targetOf sext
  rw [BitVec.shiftLeft_eq_mul_twoPow, BitVec.mul_comm]
  rfl

/-- Where a branch goes whose registers can be used. -/
theorem State.branch_next {s : State} {o : BrOps} (h : s.usable [o.a, o.b] []) (p : Word → Word → Bool) :
    s.branch o p = s.upd fun t => { t.next with
      pc := if p (s.st.xget o.a) (s.st.xget o.b) then t.pc + 4 * o.off.signExtend 64 else t.pc + 4 } := by
  rw [State.branch_of_usable p h]
  split
  · simp only [Strand.goto, targetOf_eq]
  · rfl

/-- `brf` and `bre` test the bit as it stands and wait for nothing. -/
theorem State.branchFull_next (s : State) (o : BrfOps) (want : Bool) :
    s.branchFull o want = s.upd fun t => { t.next with
      pc := if s.st.isFull o.a = want then t.pc + 4 * o.off.signExtend 64 else t.pc + 4 } := by
  unfold State.branchFull
  by_cases h : s.st.isFull o.a = want
  · simp only [h, beq_self_eq_true, if_true, Strand.goto, targetOf_eq]
  · simp only [beq_eq_false_iff_ne.2 h, h, Bool.false_eq_true, if_false]; rfl

/-- The low two bits of an address are zero where it is a multiple of 4. -/
theorem low2_eq_zero_iff (a : Word) : a.extractLsb' 0 2 = 0 ↔ a.toNat % 4 = 0 := by
  rw [← BitVec.toNat_inj]
  simp

/-- Settles O9: each branch is `State.branch_next` or `State.branchFull_next`, and `jmpr` checks its target in order. -/
theorem branchAndJumpTargets : Obligations.BranchAndJumpTargets := by
  unfold Obligations.BranchAndJumpTargets
  refine ⟨⟨?_, ?_⟩, ?_, ?_⟩
  · intro o s h A B go
    have hgo : ∀ (p : Word → Word → Bool) (c : Bool), p A B = c →
        (Host.Outcome.next (s.branch o p) : Result) = go c := by
      rintro p _ rfl
      exact congrArg _ (State.branch_next h p)
    refine ⟨hgo _ _ rfl, hgo _ _ rfl, hgo _ _ rfl, hgo _ _ ?_, hgo _ _ rfl, hgo _ _ ?_⟩
    · simp [BitVec.slt, ← decide_not]
    · simp [BitVec.ult, ← decide_not]
  · intro o s go
    constructor
    · exact congrArg _ (State.branchFull_next s o true)
    · refine congrArg _ ((State.branchFull_next s o false).trans ?_)
      simp
  · intro o s h
    refine congrArg _ ((State.gated_of_usable (srcs := []) _ h).trans ?_)
    simp only [targetOf_eq, State.upd, State.setX_st, Strand.xset_pc]
    rfl
  · intro o s h T
    have hg : exec (.jmpr o) s = .next (if !canonical T then s.trap 0x07 T
        else if T.extractLsb' 0 2 ≠ 0 then s.trap 0x08 T
        else (s.setX o.d (s.st.pc + 4)).upd fun u => u.goto T) :=
      congrArg _ (State.gated_of_usable (srcs := [(o.a, false)]) _ h)
    simp only [hg, ne_eq, low2_eq_zero_iff]
    refine ⟨fun hc ha => ?_, fun hc ha => ?_, fun hc => ?_⟩
    · simp [hc, ha]; rfl
    · simp [hc, ha]
    · simp [hc]

end Sys2Proof.Machine

/-! SUPPORT. The scalar accesses (R88, R96 to R100): the one frame that loads, stores and atomics share. -/

namespace Sys2Proof.Machine

/-! ## The checks of a scalar access (R88) -/

/-- The frame of every scalar access: it waits for an older atomic that its walk may see, then takes the trap of the
first check that fails, and else goes on at the place of the check. -/
def State.checked (s : State) (acc : Acc) (n : Nat) (a : Word) (go : Place → State) : State :=
  if s.walkBlocked a then s.stall
  else
    match s.check acc n n a with
    | .bad c _ => s.trapAccess c a
    | .ok p _ => go p

theorem State.checked_blocked {s : State} {a : Word} (h : s.walkBlocked a = true) (acc : Acc) (n : Nat) (go : Place → State) :
    s.checked acc n a go = s.stall := by
  simp [State.checked, h]

theorem State.checked_bad {s : State} {acc : Acc} {n : Nat} {a : Word} {c : BitVec 8} {span : Nat}
    (hw : s.walkBlocked a = false) (h : s.check acc n n a = .bad c span) (go : Place → State) :
    s.checked acc n a go = s.trapAccess c a := by
  simp [State.checked, hw, h]

theorem State.checked_ok {s : State} {acc : Acc} {n : Nat} {a : Word} {p : Place} {d : Bool}
    (hw : s.walkBlocked a = false) (h : s.check acc n n a = .ok p d) (go : Place → State) :
    s.checked acc n a go = go p := by
  simp [State.checked, hw, h]

/-- With no store in the queue, no atomic is in the way of a walk. -/
theorem State.walkBlocked_of_nil {s : State} (h : s.st.stores = []) (a : Word) : s.walkBlocked a = false := by
  simp [State.walkBlocked, h]

/-- The trap of a failed check waits for an older vector instruction that writes memory (R97, R293). -/
theorem State.trapAccess_eq (s : State) (c : BitVec 8) (a : Word) :
    s.trapAccess c a = if ∃ e ∈ s.st.queue, writesMem e.instr = true then s.stall else s.trap c a := by
  simp only [State.trapAccess, Strand.writesQueued, List.any_eq_true]

theorem State.check_noncanonical {a : Word} (h : canonical a = false) (s : State) (acc : Acc) (al n : Nat) :
    s.check acc al n a = .bad 0x07 0 := by
  simp [State.check, h]

theorem State.check_misaligned {a : Word} {al : Nat} (h : canonical a = true) (ha : a.toNat % al ≠ 0) (s : State)
    (acc : Acc) (n : Nat) : s.check acc al n a = .bad 0x08 0 := by
  simp [State.check, h, ha]

/-- Steps 3 and 4 come from the walk, for an address that is translated. -/
theorem State.check_translated {a : Word} {al : Nat} (h : canonical a = true) (ha : a.toNat % al = 0)
    (hu : untranslated (a.toNat % 2 ^ 56) = false) (s : State) (acc : Acc) (n : Nat) :
    s.check acc al n a = s.hostFault acc
      (pageCheck (s.translate s.st.stores s.st.ctx (a.toNat % 2 ^ 56)) acc (s.st.level == .user) (a.toNat % 2 ^ 56)) := by
  simp only [State.check, h, ha, hu]
  rfl

theorem missingCause_eq {acc : Acc} (h : acc ≠ .fetch) : missingCause acc = if acc = .read then 0x05 else 0x06 := by
  cases acc with
  | fetch => exact absurd rfl h
  | _ => rfl

theorem pageCheck_forbidden {acc : Acc} {user : Bool} {l : Leaf} (h : permits acc user l.entry = false) (a : Nat) :
    pageCheck (.leaf l) acc user a = .bad 0x07 0 := by
  simp [pageCheck, h]

/-- What the frame does where a check fails, in the order of R88. -/
theorem State.checked_order {s : State} {acc : Acc} (hacc : acc ≠ .fetch) {n : Nat} {a : Word} (hw : s.walkBlocked a = false)
    (go : Place → State) :
    (canonical a = false → s.checked acc n a go = s.trapAccess 0x07 a) ∧
    (canonical a = true → a.toNat % n ≠ 0 → s.checked acc n a go = s.trapAccess 0x08 a) ∧
    (canonical a = true → a.toNat % n = 0 → untranslated (a.toNat % 2 ^ 56) = false →
      (∀ span, s.translate s.st.stores s.st.ctx (a.toNat % 2 ^ 56) = .missing span →
        s.checked acc n a go = s.trapAccess (if acc = .read then 0x05 else 0x06) a) ∧
      (∀ l, s.translate s.st.stores s.st.ctx (a.toNat % 2 ^ 56) = .leaf l →
        permits acc (s.st.level == .user) l.entry = false → s.checked acc n a go = s.trapAccess 0x07 a)) := by
  refine ⟨fun hc => ?_, fun hc ha => ?_, fun hc ha hu => ⟨fun span ht => ?_, fun l ht hp => ?_⟩⟩
  · exact State.checked_bad hw (State.check_noncanonical hc ..) go
  · exact State.checked_bad hw (State.check_misaligned hc ha ..) go
  · rw [← missingCause_eq hacc]
    refine State.checked_bad (span := span) hw ?_ go
    rw [State.check_translated hc ha hu, ht]
    rfl
  · refine State.checked_bad (span := 0) hw ?_ go
    rw [State.check_translated hc ha hu, ht, pageCheck_forbidden hp]
    rfl

/-! ## The three kinds of scalar access (R96 to R100) -/

/-- A load whose checks have passed. -/
def State.loadAt (s : State) (o : MemOps) (signed : Bool) (n : Nat) (a : Word) (p : Place) : State :=
  if s.st.loadBlocked p n then s.stall
  else
    match s.poisonAt a p n with
    | some line => s.consume line
    | none =>
      let s := s.upd fun t => { t.pend o.d with
        loads := t.loads ++ [{ seq := t.seq, dest := o.d, addr := a, place := p, size := n, signed, after := t.lastTouch
                               pc := t.pc, again := t.redecode == some t.pc, page := s.pageBytes a }]
        seq := t.seq + 1 }
      (if s.pace == .lockstep && s.st.loads.length == 1 then s.returnLoad else s).advance

/-- A store whose checks have passed: it waits for a free entry of the store queue. -/
def State.storeTo (s : State) (i : Instr) (o : MemOps) (n : Nat) (a : Word) (p : Place) : State :=
  if 16 ≤ s.st.stores.length then s.stall
  else s.enqueueStore i a p n (s.st.xget o.d &&& BitVec.ofNat 64 (2 ^ (8 * n) - 1)) 0 none

/-- An atomic whose checks have passed. -/
def State.atomicAt (s : State) (i : Instr) (o : AtOps) (cas : Bool) (n : Nat) (p : Place) : State :=
  match s.poisonAt (s.st.xget o.a) p n with
  | some line => s.consume line
  | none =>
    if 16 ≤ s.st.stores.length then s.stall
    else s.enqueueStore i (s.st.xget o.a) p n (s.st.xget o.b) (if cas then s.st.xget o.d else 0) (some o.d)

section
variable {s : State}

theorem State.load_eq {o : MemOps} (h : s.usable [o.a] [o.d]) (signed : Bool) :
    let n := 2 ^ o.ty.toNat
    let a := s.st.xget o.a + o.disp.signExtend 64 * BitVec.ofNat 64 n
    s.load o signed = s.checked .read n a (s.loadAt o signed n a) :=
  State.gated_of_usable (srcs := [(o.a, false)]) _ h

theorem State.store_eq {o : MemOps} (h : s.usable [o.a, o.d] []) (i : Instr) :
    let n := 2 ^ o.ty.toNat
    let a := s.st.xget o.a + o.disp.signExtend 64 * BitVec.ofNat 64 n
    s.store i o = s.checked .write n a (s.storeTo i o n a) :=
  State.gated_of_usable (srcs := [(o.a, false), (o.d, false)]) _ h

theorem State.atomic_eq {o : AtOps} {cas : Bool} (h : s.usable ([o.a, o.b] ++ if cas then [o.d] else []) [o.d]) (i : Instr) :
    let n := if o.wide then 8 else 4
    s.atomic i o cas = s.checked .atomic n (s.st.xget o.a) (s.atomicAt i o cas n) := by
  refine State.gated_of_usable _ ?_
  cases cas <;> exact h

end

/-- The atomics, of which only `atcas` reads its destination. -/
theorem exec_atomic {o : AtOps} {i : Instr} (h : i ∈ [Instr.atadd o, .atfadd o, .atand o, .ator o, .atxor o, .atmin o,
    .atmax o, .atminn o, .atmaxn o, .atswap o, .atcas o]) (s : State) :
    exec i s = .next (s.atomic i o (decide (i = .atcas o))) := by
  simp only [List.mem_cons, List.not_mem_nil, or_false] at h
  rcases h with rfl | rfl | rfl | rfl | rfl | rfl | rfl | rfl | rfl | rfl | rfl <;>
    simp only [reduceCtorEq, decide_true, decide_false] <;> rfl

/-- Settles O10: each kind of access is `State.checked`, whose checks come in the order of R88. -/
theorem accessChecksInOrder : Obligations.AccessChecksInOrder := by
  unfold Obligations.AccessChecksInOrder
  intro s i acc n a srcs dsts hi hu va user fails
  obtain ⟨hacc, go, hgo⟩ : acc ≠ .fetch ∧ ∃ go, exec i s = .next (s.checked acc n a go) := by
    rcases hi with ⟨o, hi, rfl, rfl, rfl, rfl, rfl⟩ | ⟨o, rfl, rfl, rfl, rfl, rfl, rfl⟩ | ⟨o, hi, rfl, rfl, rfl, rfl, rfl⟩
    · refine ⟨nofun, ?_⟩
      rcases hi with rfl | rfl
      · exact ⟨_, congrArg _ (State.load_eq hu true)⟩
      · exact ⟨_, congrArg _ (State.load_eq hu false)⟩
    · exact ⟨nofun, _, congrArg _ (State.store_eq hu _)⟩
    · refine ⟨nofun, _, (exec_atomic hi s).trans (congrArg _ (State.atomic_eq ?_ _))⟩
      simpa only [decide_eq_true_eq] using hu
  have hfails : ∀ c, s.checked acc n a go = s.trapAccess c a → fails c := fun c hc => by
    rw [hc, State.trapAccess_eq] at hgo
    exact hgo
  refine ⟨fun hw => hgo.trans (congrArg _ (State.checked_blocked hw ..)), fun hw => ?_⟩
  obtain ⟨h1, h2, h3⟩ := State.checked_order hacc (n := n) hw go
  refine ⟨fun hc => hfails _ (h1 hc), fun hc ha => hfails _ (h2 hc ha), fun hc ha ht => ?_⟩
  obtain ⟨h4, h5⟩ := h3 hc ha ht
  exact ⟨fun span hm => hfails _ (h4 span hm), fun l hl hp => hfails _ (h5 l hl hp)⟩

end Sys2Proof.Machine

/-! SUPPORT. Frames: the registers that `keepsStrand` and `keepsRest` speak of, gathered in one value, so that what an
operation keeps is one equation. -/

namespace Sys2Proof.Machine

/-- Everything of a strand that `State.keepsStrand` speaks of but the x registers. -/
def Strand.frame (t : Strand) :=
  ((t.v, t.vfull, t.gtag, t.vm), (t.fflags, t.ffirst),
    (t.level, t.tvec, t.tcause, t.tval, t.tepc, t.ppl, t.held, t.skip, t.tscratch),
    (t.vl, t.vs, t.vgm, t.vsg, t.vfrem, t.frm, t.fz, t.trp, t.tcp, t.wto, t.cbsel, t.xresume, t.prio, t.rchk),
    (t.tiles, t.tonOwned))

@[simp] theorem Strand.frame_next (t : Strand) : t.next.frame = t.frame := rfl

@[simp] theorem Strand.frame_xset (t : Strand) (r : Reg) (v : Word) : (t.xset r v).frame = t.frame := by
  unfold Strand.xset; split <;> rfl

@[simp] theorem Strand.frame_xempty (t : Strand) (r : Reg) : (t.xempty r).frame = t.frame := by
  unfold Strand.xempty; split <;> rfl

@[simp] theorem Strand.frame_pend (t : Strand) (r : Reg) : (t.pend r).frame = t.frame := by
  unfold Strand.pend; split <;> rfl

section
variable {s t : State} {dx dv : List Reg}

/-- A strand with the same frame keeps everything but the x registers that it writes. -/
theorem State.keepsStrand_of (h : t.st.frame = s.st.frame) (hx : s.keepsX t dx) : s.keepsStrand t dx dv := by
  simp only [Strand.frame, Prod.mk.injEq] at h
  obtain ⟨⟨hv, hvfull, hgtag, hvm⟩, hflags, htrap, hmodes, htiles⟩ := h
  refine ⟨hx, fun r _ => ?_, hvm, hflags, htrap, hmodes, htiles⟩
  simp only [Strand.vget, Strand.tag, hv, hvfull, hgtag, and_self]

theorem State.keepsMemory_of (hm : t.mem = s.mem) (hh : t.hostMem = s.hostMem) : s.keepsMemory t := by
  simp only [State.keepsMemory, hm, hh, implies_true, and_self]

theorem State.keepsRest_of (h : t.st.frame = s.st.frame) (hx : s.keepsX t dx) (hm : t.mem = s.mem)
    (hh : t.hostMem = s.hostMem) : s.keepsRest t dx dv :=
  ⟨State.keepsStrand_of h hx, State.keepsMemory_of hm hh⟩

theorem State.keepsX_of (hx : t.st.x = s.st.x) (hf : t.st.xfull = s.st.xfull) : s.keepsX t dx := fun r _ =>
  ⟨Strand.xget_congr hx r, Strand.isFull_congr hf r⟩

/-- One register is written, and the others are those of `s`. -/
theorem State.keepsX_xset {u : Strand} {d : Reg} {v : Word} (h : t.st.x = (u.xset d v).x) (h' : t.st.xfull = (u.xset d v).xfull)
    (hx : u.x = s.st.x) (hf : u.xfull = s.st.xfull) : s.keepsX t [d] := fun r hr => by
  have hne : r ≠ d := by simpa using hr
  rw [Strand.xget_congr h, Strand.isFull_congr h', Strand.xget_xset_of_ne u d r v hne, Strand.isFull_xset_of_ne u d r v hne]
  exact ⟨Strand.xget_congr hx r, Strand.isFull_congr hf r⟩

end

/-- What x0 and the others read after a write (R12). -/
theorem Strand.xget_xset (t : Strand) (r : Reg) (v : Word) : (t.xset r v).xget r = if r = 0 then 0 else v := by
  by_cases h : r = 0
  · subst h; rfl
  · rw [if_neg h, Strand.xget_xset_self t r v h]

@[simp] theorem Strand.pend_x (t : Strand) (r : Reg) : (t.pend r).x = t.x := by unfold Strand.pend; split <;> rfl
@[simp] theorem Strand.pend_xfull (t : Strand) (r : Reg) : (t.pend r).xfull = t.xfull := by unfold Strand.pend; split <;> rfl
@[simp] theorem Strand.pend_pc (t : Strand) (r : Reg) : (t.pend r).pc = t.pc := by unfold Strand.pend; split <;> rfl
@[simp] theorem Strand.pend_stores (t : Strand) (r : Reg) : (t.pend r).stores = t.stores := by
  unfold Strand.pend; split <;> rfl
@[simp] theorem Strand.pend_loads (t : Strand) (r : Reg) : (t.pend r).loads = t.loads := by
  unfold Strand.pend; split <;> rfl

end Sys2Proof.Machine

/-! SUPPORT. What writes to memory do to the machine beside their bytes (R296, R323, R349): a write may apply others that are
in flight, log lines and post notices. Every such change is one of the primitive effects below. -/

namespace Sys2Proof.Machine

/-- What a posted record may change of a strand: its registers, its event queue and its slot of the save pool. -/
structure Strand.Posted (t u : Strand) : Prop where
  pc : u.pc = t.pc
  ctx : u.ctx = t.ctx
  tvec : u.tvec = t.tvec
  streams : u.streams = t.streams
  stores : t.stores = [] → u.stores = []
  iter : u.iter = { t.iter with effects := u.iter.effects, slot := u.iter.slot }

theorem Strand.Posted.refl (t : Strand) : t.Posted t := ⟨rfl, rfl, rfl, rfl, fun h => h, rfl⟩

theorem Strand.Posted.trans {t u v : Strand} (h : t.Posted u) (h' : u.Posted v) : t.Posted v where
  pc := h'.pc.trans h.pc
  ctx := h'.ctx.trans h.ctx
  tvec := h'.tvec.trans h.tvec
  streams := h'.streams.trans h.streams
  stores := h'.stores ∘ h.stores
  iter := by rw [h'.iter, h.iter]

theorem Strand.post_posted (t : Strand) (e : EvRec) : t.Posted (t.post e) := by
  unfold Strand.post
  split
  · exact ⟨by simp, by simp, by simp, by simp, by simp, by simp⟩
  · exact ⟨rfl, rfl, rfl, rfl, fun h => h, rfl⟩

/-- One change that a write brings with it. -/
inductive State.Effect : State → State → Prop
  | die (s : State) (k : Nat) (d : DieSt) : Effect s (s.setDie k d)
  | context (s : State) (k : BitVec 12) (c : CtxSt) : Effect s (s.setContext k c)
  | flights (s : State) (fs : List DieWrite) : Effect s { s with flights := fs }
  | raw (s : State) (device : Bool) (a : Nat) (bs : List Byte) : Effect s (s.rawWrite device a bs)
  | host (s : State) (a : Nat) (bs : List Byte) : Effect s (s.hostWrite a bs)
  /-- the oldest store of strand `n` has landed -/
  | landed (s : State) (n : Nat) (e : SEntry) (rest : List SEntry) (h : (s.strand n).stores = e :: rest) :
    Effect s (s.setStrand n
      { s.strand n with stores := rest, iter := { (s.strand n).iter with effects := true } })
  | posted (s : State) (id : Nat) (f : Strand → Strand) (h : ∀ t : Strand, t.Posted (f t)) : Effect s (s.updIter id f)

/-- Any number of them. -/
def State.Effects : State → State → Prop := Relation.ReflTransGen State.Effect

namespace State.Effects

theorem refl (s : State) : s.Effects s := Relation.ReflTransGen.refl

theorem trans {s t u : State} (h : s.Effects t) (h' : t.Effects u) : s.Effects u := Relation.ReflTransGen.trans h h'

theorem one {s t : State} (h : s.Effect t) : s.Effects t := Relation.ReflTransGen.single h

theorem tail {s t u : State} (h : s.Effects t) (h' : t.Effect u) : s.Effects u := Relation.ReflTransGen.tail h h'

/-- What every single effect keeps, any number of them keep. -/
theorem keep {α : Type} (f : State → α) (h : ∀ s t : State, s.Effect t → f t = f s) {s t : State} (hst : s.Effects t) :
    f t = f s := by
  induction hst with
  | refl => rfl
  | tail _ hu ih => exact (h _ _ hu).trans ih

end State.Effects

/-! ## The operations that write -/

/-- Posting a record (R301), where its spill is written by `wr`. -/
theorem State.postBy_effects {wr : State → BitVec 12 → Word → Place → List Byte → State}
    (hw : ∀ (s : State) ctx va p bs, s.Effects (wr s ctx va p bs)) (s : State) (id : Nat) (e : EvRec) :
    s.Effects (s.postBy wr id e) := by
  unfold State.postBy
  split
  · exact .refl s
  · split
    · exact .one (.posted s id _ fun t => t.post_posted e)
    · split
      · exact .one (.posted s id _ fun t => ⟨rfl, rfl, rfl, rfl, fun h => h, rfl⟩)
      · refine State.Effects.tail ?_ (.posted _ id _ fun t => ?_)
        · split
          · exact hw ..
          · exact (hw ..).tail (.context ..)
        · have h := t.post_posted e
          exact ⟨h.pc, h.ctx, h.tvec, h.streams, h.stores, rfl⟩

theorem State.putAt_effects (s : State) (p : Place) (bs : List Byte) : s.Effects (s.putAt p bs) := by
  cases p with
  | mem a => exact .one (.raw s true a bs)
  | host a => exact .one (.host s a bs)
  | _ => exact .refl s

section
variable {cross : Cross} (hc : ∀ (s : State) (k : Nat) (p : Place), s.Effects (cross s k p))
include hc

theorem State.logFull_effects (s : State) (ctx : BitVec 12) (line : Nat) : s.Effects (s.logFull cross ctx line) := by
  have hpost : ∀ (t : State) (id : Nat) (e : EvRec),
      t.Effects (t.postBy (fun s _ _ p bs => (cross s (lineDie line) p).putAt p bs) id e) := fun t id e =>
    State.postBy_effects (fun s _ _ p bs => (hc s _ p).trans (State.putAt_effects ..)) t id e
  unfold State.logFull
  dsimp only
  split
  · exact (State.Effects.one (.context ..)).trans (hpost ..)
  · split
    · exact (State.Effects.one (.context ..)).trans (hpost ..)
    · exact .one (.context ..)

omit hc in
theorem State.putUndo_effects (s : State) (ctx : BitVec 12) (va : Word) (line p q : Nat) :
    s.Effects (s.putUndo ctx va line p q) :=
  ((State.Effects.one (.raw s true p _)).tail (.raw _ true q _)).tail (.context ..)

theorem State.logLine_effects (s : State) (ctx : BitVec 12) (va : Word) (line : Nat) :
    s.Effects (s.logLine cross ctx va line) := by
  unfold State.logLine
  split
  · exact .refl s
  · split
    · exact State.logFull_effects hc ..
    · next p q _ =>
      have h2 := (hc s (lineDie line) (.mem p)).trans (hc _ (lineDie line) (.mem q))
      dsimp only
      split
      · exact h2
      · split
        · exact h2.trans (State.logFull_effects hc ..)
        · exact h2.trans (State.putUndo_effects ..)

theorem State.logLines_effects (s : State) (ctx : BitVec 12) (va : Word) (line n : Nat) :
    s.Effects (s.logLines cross ctx va line n) := by
  induction n generalizing s line with
  | zero => exact .refl s
  | succ n ih => exact (State.logLine_effects hc ..).trans (ih ..)

theorem State.logFor_effects (s : State) (ctx : BitVec 12) (va : Word) (a n : Nat) :
    s.Effects (s.logFor cross ctx va a n) := by
  unfold State.logFor
  split
  · exact .refl s
  · exact State.logLines_effects hc ..

theorem State.landBy_effects (s : State) (ctx : BitVec 12) (va : Word) (p : Place) (bs : List Byte) :
    s.Effects (s.landBy cross ctx va p bs) := by
  cases p with
  | mem a => exact (State.logFor_effects hc ..).tail (.raw ..)
  | host a => exact .one (.host s a bs)
  | _ => exact .refl s

theorem State.landFlightBy_effects (s : State) (f : DieWrite) : s.Effects (s.landFlightBy cross f) := by
  unfold State.landFlightBy
  have h0 : s.Effects { s.setDie f.dest { s.die f.dest with clock := laterClock (s.die f.dest).clock f.clock } with
      flights := s.flights.erase f } := (State.Effects.one (.die ..)).tail (.flights ..)
  dsimp only
  split
  · exact h0
  · next e rest he =>
    split
    · exact (h0.tail (.landed _ f.strand e rest he)).trans (State.landBy_effects hc ..)
    · exact h0

theorem State.deliverNamed_effects (k d n : Nat) (s : State) : s.Effects (State.deliverNamed cross k d n s) := by
  induction n generalizing s with
  | zero => exact .refl s
  | succ n ih =>
    unfold State.deliverNamed
    dsimp only
    split
    · exact .refl s
    · exact (State.landFlightBy_effects hc ..).trans (ih _)

end

/-- A write that crosses, by induction on the bound of its depth. -/
theorem State.crossBy_effects (n : Nat) (s : State) (k : Nat) (p : Place) : s.Effects (State.crossBy n s k p) := by
  induction n generalizing s k p with
  | zero => exact .refl s
  | succ n ih =>
    unfold State.crossBy
    dsimp only
    split
    · exact .refl s
    · exact ((State.deliverNamed_effects ih ..).tail (.die ..)).tail (.die ..)

theorem State.crossed_effects (s : State) (k : Nat) (p : Place) : s.Effects (s.crossed k p) := State.crossBy_effects ..

theorem State.land_effects (s : State) (ctx : BitVec 12) (va : Word) (p : Place) (bs : List Byte) :
    s.Effects (s.land ctx va p bs) := State.landBy_effects State.crossed_effects ..

theorem State.writeFrom_effects (s : State) (k : Nat) (ctx : BitVec 12) (va : Word) (p : Place) (bs : List Byte) :
    s.Effects (s.writeFrom k ctx va p bs) := (State.crossed_effects ..).trans (State.land_effects ..)

theorem State.logAhead_effects (s : State) (ctx : BitVec 12) (va : Word) (p : Place) (n : Nat) :
    s.Effects (s.logAhead ctx va p n) := by
  cases p with
  | mem a => exact State.logFor_effects State.crossed_effects ..
  | _ => exact .refl s

theorem State.postEvent_effects (s : State) (k id : Nat) (e : EvRec) : s.Effects (s.postEvent k id e) :=
  State.postBy_effects (fun _ _ _ _ _ => State.writeFrom_effects ..) ..

/-! ## What they keep -/

section
variable {s t : State}

theorem State.setStrand_cur (s : State) (n : Nat) (u : Strand) : (s.setStrand n u).cur = s.cur := by
  unfold State.setStrand; split <;> rfl

theorem State.Effects.cur (h : s.Effects t) : t.cur = s.cur :=
  h.keep State.cur fun s t h => by
    cases h with
    | landed => exact State.setStrand_cur ..
    | _ => rfl

theorem State.Effects.launches (h : s.Effects t) : t.launches = s.launches :=
  h.keep State.launches fun s t h => by
    cases h with
    | landed => unfold State.setStrand; split <;> rfl
    | _ => rfl

theorem State.Effects.graphs (h : s.Effects t) : t.graphs = s.graphs :=
  h.keep State.graphs fun s t h => by
    cases h with
    | landed => unfold State.setStrand; split <;> rfl
    | _ => rfl

theorem State.Effects.rehand (h : s.Effects t) : t.rehand = s.rehand :=
  h.keep State.rehand fun s t h => by
    cases h with
    | landed => unfold State.setStrand; split <;> rfl
    | _ => rfl

theorem State.Effects.finishing (h : s.Effects t) : t.finishing = s.finishing :=
  h.keep State.finishing fun s t h => by
    cases h with
    | landed => unfold State.setStrand; split <;> rfl
    | _ => rfl

theorem State.Effects.cancelled (h : s.Effects t) : t.cancelled = s.cancelled :=
  h.keep State.cancelled fun s t h => by
    cases h with
    | landed => unfold State.setStrand; split <;> rfl
    | _ => rfl

/-- Memory stays in its canonical form. -/
theorem State.Effects.wf (h : s.Effects t) (hm : Memory.wf s.mem = true) : Memory.wf t.mem = true := by
  induction h with
  | refl => exact hm
  | tail _ hu ih =>
    cases hu with
    | raw device a bs => exact State.rawWrite_wf _ device a bs ih
    | landed n e rest he => unfold State.setStrand; split <;> exact ih
    | _ => exact ih

/-- The strand in focus keeps what a posted record keeps. -/
theorem State.Effects.posted (h : s.Effects t) : s.st.Posted t.st := by
  induction h with
  | refl => exact .refl _
  | @tail u v _ hu ih =>
    refine ih.trans ?_
    cases hu with
    | landed n e rest he =>
      unfold State.setStrand
      split
      · next hn =>
        simp only [State.strand, hn, if_true] at he ⊢
        exact ⟨rfl, rfl, rfl, rfl, fun h0 => absurd (h0.symm.trans he) nofun, rfl⟩
      · exact .refl _
    | posted id f hf =>
      unfold State.updIter
      dsimp only
      split
      · exact hf _
      · exact .refl _
    | _ => exact .refl _

/-- A free strand keeps everything: nothing of it is in flight, and nothing is posted to it. -/
theorem State.Effects.free (h : s.Effects t) (hw : s.st.iter.work = .none) (hs : s.st.stores = []) : t.st = s.st := by
  induction h with
  | refl => rfl
  | @tail u v _ hu ih =>
    refine Eq.trans ?_ ih
    cases hu with
    | landed n e rest he =>
      unfold State.setStrand
      split
      · next hn =>
        simp only [State.strand, hn, if_true, ih, hs] at he
        cases he
      · rfl
    | posted id f hf =>
      unfold State.updIter
      simp [ih, hw]
    | _ => rfl

end

end Sys2Proof.Machine

/-! SUPPORT. Scalar loads, stores and atomics (R96 to R100, R297): what each access does to memory, to its register and to
the rest of the strand, in lockstep and behind a queue. -/

namespace Sys2Proof.Machine

/-! ## A write at its home -/

/-- What a write at its home leaves of the strand: everything but the contents of its own windows, where no undo record is
written. -/
theorem State.storeAt_st {s : State} {p : Place} (hu : s.noUndo p) (va : Word) (bs : List Byte) :
    (s.storeAt va p bs).st = { s.st with
      scratch := (s.storeAt va p bs).st.scratch, scratchBad := (s.storeAt va p bs).st.scratchBad
      batch := (s.storeAt va p bs).st.batch, batchBad := (s.storeAt va p bs).st.batchBad } := by
  cases p with
  | mem a =>
    have h : s.storeAt va (.mem a) bs = s.rawWrite true a bs := State.land_mem _ _ _ _ _ hu
    rw [h]; rfl
  | _ => rfl

/-- Whether writes are in flight, and what the clocks say, is nothing to a write at its home. -/
theorem State.storeAt_placeByte {s : State} {p : Place} (hu : s.noUndo p) (ds : List (Nat × DieSt)) (va : Word)
    (bs : List Byte) (q : Place) :
    (({ s with flights := [], dies := ds } : State).storeAt va p bs).placeByte q = (s.storeAt va p bs).placeByte q := by
  cases p with
  | mem a =>
    have h : s.storeAt va (.mem a) bs = s.rawWrite true a bs := State.land_mem _ _ _ _ _ hu
    have h' : ({ s with flights := [], dies := ds } : State).storeAt va (.mem a) bs =
      ({ s with flights := [], dies := ds } : State).rawWrite true a bs := State.land_mem _ _ _ _ _ hu
    rw [h, h']; rfl
  | _ => rfl

/-- A write at its home changes exactly the bytes there. -/
theorem State.storeAt_stores {s : State} {p : Place} (hm : Memory.wf s.mem = true) (hu : s.noUndo p) (hw : s.writable p)
    (va : Word) (bs : List Byte) : s.storesBytes (s.storeAt va p bs) p bs := by
  intro q
  have hu' : State.noUndo { s with flights := [] } p := by cases p <;> exact hu
  have hw' : State.writable { s with flights := [] } p := by cases p <;> exact hw
  have hst := State.writePlace_stores { s with flights := [] } va p bs hm rfl hu' hw' q
  obtain ⟨ds, hds⟩ := State.crossed_dies { s with flights := [] } (dieOf s.cur) p rfl
  have hwr : State.writePlace { s with flights := [] } va p bs =
      ({ s with flights := [], dies := ds } : State).storeAt va p bs := congrArg (State.storeAt · va p bs) hds
  rw [hwr, State.storeAt_placeByte hu] at hst
  exact hst

theorem State.storeAt_effects (s : State) (va : Word) {p : Place} (hp : (∃ a, p = .mem a) ∨ ∃ a, p = .host a) (bs : List Byte) :
    s.Effects (s.storeAt va p bs) := by
  rcases hp with ⟨a, rfl⟩ | ⟨a, rfl⟩ <;> exact State.land_effects ..

/-- What any write at its home keeps of the strand, undo records or not. -/
theorem State.storeAt_posted (s : State) (va : Word) (p : Place) (bs : List Byte) : s.st.Posted (s.storeAt va p bs).st := by
  cases p with
  | mem a => exact (State.storeAt_effects s va (.inl ⟨a, rfl⟩) bs).posted
  | host a => exact (State.storeAt_effects s va (.inr ⟨a, rfl⟩) bs).posted
  | _ => exact ⟨rfl, rfl, rfl, rfl, fun h => h, rfl⟩

theorem State.storeAt_wf {s : State} (hm : Memory.wf s.mem = true) (va : Word) (p : Place) (bs : List Byte) :
    Memory.wf (s.storeAt va p bs).mem = true := by
  cases p with
  | mem a => exact (State.storeAt_effects s va (.inl ⟨a, rfl⟩) bs).wf hm
  | host a => exact (State.storeAt_effects s va (.inr ⟨a, rfl⟩) bs).wf hm
  | _ => exact hm

theorem State.writePlace_posted (s : State) (va : Word) (p : Place) (bs : List Byte) :
    s.st.Posted (s.writePlace va p bs).st :=
  (s.crossed_effects (dieOf s.cur) p).posted.trans (State.storeAt_posted ..)

/-! ## The head of the store queue -/

/-- The head has left the store queue, which now holds `rest`. -/
def Strand.popStore (rest : List SEntry) (t : Strand) : Strand :=
  { t with stores := rest, iter := { t.iter with effects := true } }

/-- An atomic that meets no poison: its lines are logged, its value is written, and its register is filled. -/
theorem State.applyAtomic_clean {s : State} {e : SEntry} (h : s.poisonAt e.addr e.place e.size = none) (rest : List SEntry)
    (op : AtOp) (r : Reg) (hr : e.dest = some r) :
    s.applyAtomic e rest op =
      let u := s.logAhead s.st.ctx e.addr e.place e.size
      let w := 8 * e.size
      let old := ofBytes (u.placeBytes e.place e.size)
      ((u.upd (Strand.popStore rest)).storeAt e.addr e.place
        (bytesOf e.size (atNew op w old (e.data.toNat % 2 ^ w) (e.cmp.toNat % 2 ^ w)))).setX r (atOld op w old) := by
  simp only [State.applyAtomic, h, hr]
  rfl

theorem State.applyAtomic_pc {s : State} {e : SEntry} (h : s.poisonAt e.addr e.place e.size = none) (rest : List SEntry)
    (op : AtOp) (r : Reg) (hr : e.dest = some r) :
    (s.applyAtomic e rest op).st.pc = s.st.pc ∧ (rest = [] → (s.applyAtomic e rest op).st.stores = []) := by
  rw [State.applyAtomic_clean h rest op r hr]
  have hlog := (State.logAhead_effects s s.st.ctx e.addr e.place e.size).posted
  simp only [State.setX_st, Strand.xset_pc, Strand.xset_stores]
  exact ⟨(State.storeAt_posted ..).pc.trans hlog.pc, fun h0 => (State.storeAt_posted ..).stores h0⟩

/-- A store leaves the head of the queue as it is written. -/
theorem State.performHead_store {s : State} {e : SEntry} {rest : List SEntry} (h : s.st.stores = e :: rest)
    (he : atomicOf e.instr = none) :
    s.performHead = (s.upd (Strand.popStore rest)).writePlace e.addr
      e.place (bytesOf e.size e.data.toNat) := by
  simp only [State.performHead, h, he]
  rfl

theorem State.performHead_atomic {s : State} {e : SEntry} {rest : List SEntry} {op : AtOp} {acq : Bool}
    (h : s.st.stores = e :: rest) (he : atomicOf e.instr = some (op, acq)) :
    s.performHead = (s.crossed (dieOf s.cur) e.place).applyAtomic e rest op := by
  simp only [State.performHead, h, he]

/-- With no write in flight, what poison an access meets is the same once it has come to its home. -/
theorem State.crossed_poisonAt {s : State} (hf : s.flights = []) (k : Nat) (a : Word) (p : Place) (n : Nat) :
    (s.crossed k p).poisonAt a p n = s.poisonAt a p n := by
  obtain ⟨ds, hds⟩ := s.crossed_dies k p hf
  rw [hds]
  exact State.poisonAt_congr rfl rfl rfl rfl rfl rfl

/-- The only entry of the store queue leaves the pc alone as it is performed, and the queue empty. -/
theorem State.performHead_one {s : State} {e : SEntry} (h : s.st.stores = [e])
    (he : atomicOf e.instr = none ∨ s.flights = [] ∧ s.poisonAt e.addr e.place e.size = none ∧ e.dest ≠ none) :
    s.performHead.st.pc = s.st.pc ∧ s.performHead.st.stores = [] := by
  cases hop : atomicOf e.instr with
  | none =>
    rw [State.performHead_store h hop]
    have hw := State.writePlace_posted (s.upd (Strand.popStore []))
      e.addr e.place (bytesOf e.size e.data.toNat)
    exact ⟨hw.pc, hw.stores rfl⟩
  | some x =>
    obtain ⟨hf, hp, hd⟩ := he.resolve_left (by simp [hop])
    obtain ⟨r, hr⟩ := Option.ne_none_iff_exists'.1 hd
    rw [State.performHead_atomic h hop]
    obtain ⟨hpc, hst⟩ := State.applyAtomic_pc ((State.crossed_poisonAt hf ..).trans hp) [] x.1 r hr
    exact ⟨hpc.trans (s.crossed_effects ..).posted.pc, hst rfl⟩

/-! ## Entering the queue -/

/-- The entry of a store or an atomic. -/
def State.storeEntry (s : State) (i : Instr) (a : Word) (p : Place) (n : Nat) (data cmp : Word) (dest : Option Reg) : SEntry :=
  { seq := s.st.seq, after := s.st.lastTouch, instr := i, addr := a, place := p, size := n, data, cmp, dest, pc := s.st.pc
    again := s.st.redecode == some s.st.pc, page := s.pageBytes a }

/-- The strand once it stands in the queue. -/
def State.withStore (s : State) (e : SEntry) : State :=
  s.upd fun t => { (match e.dest with | none => t | some r => t.pend r) with stores := t.stores ++ [e], seq := t.seq + 1 }

theorem State.enqueueStore_eq (s : State) (i : Instr) (a : Word) (p : Place) (n : Nat) (data cmp : Word) (dest : Option Reg) :
    s.enqueueStore i a p n data cmp dest = (s.withStore (s.storeEntry i a p n data cmp dest)).settleStores.advance := rfl

@[simp] theorem State.withStore_pc (s : State) (e : SEntry) : (s.withStore e).st.pc = s.st.pc := by
  unfold State.withStore; cases e.dest <;> simp

theorem State.withStore_stores (s : State) (e : SEntry) : (s.withStore e).st.stores = s.st.stores ++ [e] := rfl

theorem State.withStore_poisonAt (s : State) (e : SEntry) (a : Word) (p : Place) (n : Nat) :
    (s.withStore e).poisonAt a p n = s.poisonAt a p n := by
  have hst : (s.withStore e).st.scratchBad = s.st.scratchBad ∧ (s.withStore e).st.batchBad = s.st.batchBad ∧
      (s.withStore e).st.iter = s.st.iter := by
    unfold State.withStore
    cases e.dest with
    | none => exact ⟨rfl, rfl, rfl⟩
    | some r => simp only [State.upd, Strand.pend]; split <;> exact ⟨rfl, rfl, rfl⟩
  obtain ⟨hsc, hba, hit⟩ := hst
  refine State.poisonAt_congr rfl rfl hsc hba ?_ ?_
  · simp only [State.cRange, hit]; rfl
  · simp only [State.blobBad, hit]; rfl

/-- In lockstep an entry that is alone is performed at once where it can be; either way the pc moves past one word. -/
theorem State.enqueueStore_pc {s : State} {i : Instr} {p : Place} {n : Nat} {a : Word} {dest : Option Reg}
    (h : s.st.stores = []) (hi : atomicOf i = none ∨ s.flights = [] ∧ s.poisonAt a p n = none ∧ dest ≠ none)
    (data cmp : Word) : (s.enqueueStore i a p n data cmp dest).st.pc = s.st.pc + 4 := by
  rw [State.enqueueStore_eq]
  obtain ⟨e, he⟩ : ∃ e, s.storeEntry i a p n data cmp dest = e := ⟨_, rfl⟩
  obtain ⟨hpc, hst⟩ := State.performHead_one (s := s.withStore e) (e := e) (by rw [State.withStore_stores, h]; rfl) (by
    rw [State.withStore_poisonAt, ← he]; exact hi)
  rw [he, State.advance_st, Strand.next_pc, State.settleStores]
  split
  · unfold State.flush
    split
    · rw [State.flush_empty _ _ _ hst, hpc, State.withStore_pc]
    · rw [State.withStore_pc]
  · rw [State.withStore_pc]

/-! ## Loads (R96, R97) -/

theorem ofBytes_lt (bs : List Byte) : ofBytes bs < 2 ^ (8 * bs.length) := by
  induction bs with
  | nil => simp [ofBytes]
  | cons b bs ih =>
    have hb := b.isLt
    have h8 : 2 ^ (8 * (bs.length + 1)) = 256 * 2 ^ (8 * bs.length) := by rw [Nat.mul_succ, Nat.pow_add, Nat.mul_comm]
    simp only [ofBytes, List.length_cons, h8]
    omega

theorem length_bytesAt (f : Nat → Byte) (a n : Nat) : (bytesAt f a n).length = n := by
  induction n generalizing a with
  | zero => rfl
  | succ n ih => simp [bytesAt, ih]

/-- The value of the bytes at a place fits their number. -/
theorem State.placeBytes_lt (s : State) (p : Place) (n : Nat) : ofBytes (s.placeBytes p n) < 2 ^ (8 * n) := by
  have h := ofBytes_lt (s.placeBytes p n)
  rwa [State.placeBytes, length_bytesAt] at h

/-- The oldest load delivers what its place holds, where no store of its strand is queued and nothing holds it back. -/
theorem State.returnLoad_of {s : State} {l : LoadFlight} {rest : List LoadFlight} (hl : s.st.loads = l :: rest)
    (ha : l.after = none) (hs : s.st.stores = []) (hp : s.poisonAt l.addr l.place l.size = none) :
    s.returnLoad = s.upd fun t => { t with loads := rest }.xset l.dest
      (extendBits (8 * l.size) l.signed (ofBytes (s.placeBytes l.place l.size))) := by
  have hb : ∀ p, s.loadByte l.seq p = s.placeByte p := fun p => by simp [State.loadByte, hs]
  simp only [State.returnLoad, hl, ha, hp, hb, Option.isSome_none, Bool.false_eq_true, if_false]
  rfl

theorem Strand.loadBlocked_of_nil {t : Strand} (hq : t.queue = []) (hs : t.stores = []) (p : Place) (n : Nat) :
    t.loadBlocked p n = false := by
  simp [Strand.loadBlocked, Strand.writesQueued, hq, hs]

/-- A load that meets nothing in flight delivers its value in its own step. -/
theorem State.loadAt_now {s : State} {o : MemOps} {n : Nat} {a : Word} {p : Place} (hpace : s.pace = .lockstep)
    (hq : s.st.queue = []) (hs : s.st.stores = []) (hl : s.st.loads = []) (hp : s.poisonAt a p n = none) (signed : Bool) :
    s.loadAt o signed n a p = (s.upd fun t => { t.pend o.d with loads := [], seq := t.seq + 1 }.xset o.d
      (extendBits (8 * n) signed (ofBytes (s.placeBytes p n)))).advance := by
  unfold State.loadAt
  rw [Strand.loadBlocked_of_nil hq hs, hp]
  simp only [Bool.false_eq_true, if_false, State.upd, hl, List.nil_append, hpace, beq_self_eq_true, List.length_singleton,
    Bool.and_self, if_true]
  congr 1
  have hlt : s.st.lastTouch = none := by simp [Strand.lastTouch, hq]
  refine (State.returnLoad_of rfl hlt (by simp [hs]) ?_).trans ?_
  · rw [← hp]
    refine State.poisonAt_congr rfl rfl ?_ ?_ ?_ ?_ <;> (unfold Strand.pend; split <;> rfl)
  · unfold Strand.pend; split <;> rfl

/-- What a load in lockstep leaves, for either extension. -/
theorem State.loadAt_delivers {s : State} {o : MemOps} {n : Nat} {a : Word} {p : Place} (hpace : s.pace = .lockstep)
    (hq : s.st.queue = []) (hs : s.st.stores = []) (hl : s.st.loads = []) (hp : s.poisonAt a p n = none) (signed : Bool) :
    let t := s.loadAt o signed n a p
    t.st.xget o.d = (if o.d = 0 then 0 else extendBits (8 * n) signed (ofBytes (s.placeBytes p n))) ∧
      t.st.pc = s.st.pc + 4 ∧ s.keepsRest t [o.d] [] ∧ t.st.stores = [] ∧ t.st.loads = [] := by
  intro t
  have ht : t = _ := State.loadAt_now hpace hq hs hl hp signed
  rw [ht]
  refine ⟨?_, by simp, State.keepsRest_of ?_ (State.keepsX_xset (v := _) (u := _) rfl rfl ?_ ?_) rfl rfl, by simp [hs], by simp⟩
  · simp only [State.advance_st, Strand.next_xget, State.upd_st, Strand.xget_xset]
  · simp only [State.advance_st, Strand.frame_next, State.upd_st, Strand.frame_xset]
    exact Strand.frame_pend ..
  · simp
  · simp

/-! ## Stores in lockstep (R96 to R98) -/

/-- The data register's low bytes, as the entry holds them. -/
theorem lowBytes_toNat {n : Nat} (hn : n ≤ 8) (v : Word) : (v &&& BitVec.ofNat 64 (2 ^ (8 * n) - 1)).toNat = v.toNat % 2 ^ (8 * n) := by
  have hle : 2 ^ (8 * n) ≤ 2 ^ 64 := Nat.pow_le_pow_right (by decide) (by omega)
  have hpos := Nat.two_pow_pos (8 * n)
  rw [BitVec.toNat_and, BitVec.toNat_ofNat, Nat.mod_eq_of_lt (by omega), Nat.and_two_pow_sub_one_eq_mod]

theorem memBytes_le (ty : BitVec 2) : 2 ^ ty.toNat ≤ 8 := by revert ty; decide

/-- What a strand keeps through a store or an atomic that is performed at once: its frame, but for its destination. -/
theorem State.keepsStrand_written {s u : State} {p : Place} (va : Word) (bs : List Byte) (hf : u.flights = []) (hu : u.noUndo p)
    (hfr : u.st.frame = s.st.frame) (hx : u.st.x = s.st.x) (hxf : u.st.xfull = s.st.xfull) :
    s.keepsStrand (u.writePlace va p bs) [] [] := by
  have h := State.writePlace_st u va p bs hf hu
  refine State.keepsStrand_of ?_ (State.keepsX_of ?_ ?_) <;> rw [h]
  · exact hfr
  · exact hx
  · exact hxf

end Sys2Proof.Machine

/-! SUPPORT. The statements about scalar loads, stores and atomics. -/

namespace Sys2Proof.Machine

/-! ## Stores (R96 to R98) -/

theorem State.storeTo_room {s : State} (h : s.st.stores = []) (i : Instr) (o : MemOps) (n : Nat) (a : Word) (p : Place) :
    s.storeTo i o n a p = s.enqueueStore i a p n (s.st.xget o.d &&& BitVec.ofNat 64 (2 ^ (8 * n) - 1)) 0 none := by
  unfold State.storeTo
  rw [h]
  rfl

/-- A scalar store with nothing of its strand in flight. -/
theorem State.store_performed {s : State} {o : MemOps} {p : Place} {d : Bool} (i : Instr) (hi : atomicOf i = none)
    (hu : s.usable [o.a, o.d] []) (hpace : s.pace = .lockstep) (hq : s.st.queue = []) (hs : s.st.stores = [])
    (hl : s.st.loads = []) :
    let n := 2 ^ o.ty.toNat
    let a := s.st.xget o.a + o.disp.signExtend 64 * BitVec.ofNat 64 n
    s.check .write n n a = .ok p d →
    let t := s.store i o
    t.st.pc = s.st.pc + 4 ∧ (s.flights = [] → Memory.wf s.mem = true → s.noUndo p →
      s.storesBytes t p (bytesOf n (s.st.xget o.d).toNat) ∧ s.keepsStrand t [] [] ∧ t.st.stores = [] ∧
        Memory.wf t.mem = true) := by
  intro n a hc t
  have ht : t = s.enqueueStore i a p n (s.st.xget o.d &&& BitVec.ofNat 64 (2 ^ (8 * n) - 1)) 0 none :=
    (State.store_eq hu i).trans ((State.checked_ok (State.walkBlocked_of_nil hs a) hc _).trans (State.storeTo_room hs ..))
  refine ⟨by rw [ht]; exact State.enqueueStore_pc hs (.inl hi) _ _, fun hf hm hn => ?_⟩
  have hbytes : bytesOf n (s.st.xget o.d &&& BitVec.ofNat 64 (2 ^ (8 * n) - 1)).toNat = bytesOf n (s.st.xget o.d).toNat := by
    rw [lowBytes_toNat (memBytes_le o.ty), bytesOf_mod]
  rw [State.enqueueStore_now ⟨hpace, hq, hs, hl, hf⟩ i hi a p hn, hbytes] at ht
  have hn' : (s.upd Strand.sentOne).noUndo p := by cases p <;> exact hn
  have hw' : (s.upd Strand.sentOne).writable p := by
    have := State.check_writable (by decide) hc
    cases p <;> exact this
  have hst := State.writePlace_st (s.upd Strand.sentOne) a p (bytesOf n (s.st.xget o.d).toNat) hf hn'
  rw [ht]
  refine ⟨State.writePlace_stores (s.upd Strand.sentOne) a p _ hm hf hn' hw', ?_, ?_, ?_⟩
  · obtain ⟨hx, hv, hvm, hfl, htr, hmo, hti⟩ := State.keepsStrand_written (s := s) (u := s.upd Strand.sentOne) a
      (bytesOf n (s.st.xget o.d).toNat) hf hn' rfl rfl rfl
    exact ⟨hx, hv, hvm, hfl, htr, hmo, hti⟩
  · rw [State.advance_st, Strand.next_stores, hst]; rfl
  · exact State.writePlace_wf (s.upd Strand.sentOne) a p _ hf hn' hm

/-- Undo logging that is off for the context writes no record. -/
theorem State.noUndo_of {s : State} (h : (s.context s.st.ctx).ulOn = false) (p : Place) : s.noUndo p := by
  cases p with
  | mem => exact h
  | _ => trivial

/-- Settles O11: a load is `State.loadAt_delivers`, a store `State.store_performed`. -/
theorem scalarLoadsAndStores : Obligations.ScalarLoadsAndStores := by
  unfold Obligations.ScalarLoadsAndStores
  constructor
  · intro o s p d n a hu hpace hq hs hl hc hp v
    have hload : ∀ signed, s.load o signed = s.loadAt o signed n a p := fun signed =>
      (State.load_eq hu signed).trans (State.checked_ok (State.walkBlocked_of_nil hs a) hc _)
    have hd := State.loadAt_delivers (o := o) hpace hq hs hl hp
    refine ⟨⟨_, congrArg Host.Outcome.next (hload true), ?_⟩, ⟨_, congrArg Host.Outcome.next (hload false), ?_⟩⟩
    · obtain ⟨hx, hrest⟩ := hd true
      rw [extendBits_signed] at hx
      exact ⟨hx, hrest⟩
    · obtain ⟨hx, hrest⟩ := hd false
      rw [extendBits_unsigned, Nat.mod_eq_of_lt (State.placeBytes_lt s p n)] at hx
      exact ⟨hx, hrest⟩
  · intro o s p d n a hu hpace hq hs hl hc
    obtain ⟨hpc, hrest⟩ := State.store_performed (.st o) rfl hu hpace hq hs hl hc
    exact ⟨_, rfl, hpc, fun hf hm hul => hrest hf hm (State.noUndo_of hul p)⟩

/-! ## Atomics (R99, R100) -/

@[simp] theorem State.advance_placeByte (s : State) (q : Place) : s.advance.placeByte q = s.placeByte q := rfl

/-- A write to a register is no write to memory. -/
@[simp] theorem State.setX_placeByte (s : State) (r : Reg) (v : Word) (q : Place) :
    (s.setX r v).placeByte q = s.placeByte q := by
  unfold State.setX Strand.xset
  split <;> rfl

theorem State.atomicAt_room {s : State} {o : AtOps} {n : Nat} {p : Place} (h : s.st.stores = [])
    (hp : s.poisonAt (s.st.xget o.a) p n = none) (i : Instr) (cas : Bool) :
    s.atomicAt i o cas n p =
      s.enqueueStore i (s.st.xget o.a) p n (s.st.xget o.b) (if cas then s.st.xget o.d else 0) (some o.d) := by
  unfold State.atomicAt
  rw [hp, h]
  rfl

theorem Strand.sentAtomic_eq (t : Strand) (d : Reg) : t.sentAtomic d =
    { t with xpend := (t.pend d).xpend, stores := [], seq := t.seq + 1, iter := { t.iter with effects := true } } := by
  unfold Strand.sentAtomic Strand.pend
  split <;> rfl

/-- A scalar atomic with nothing of its strand in flight. -/
theorem State.atomic_applied {s : State} {o : AtOps} {cas : Bool} {p : Place} {d : Bool} {i : Instr} {op : AtOp} {acq : Bool}
    (hi : atomicOf i = some (op, acq)) (hu : s.usable ([o.a, o.b] ++ if cas then [o.d] else []) [o.d])
    (hpace : s.pace = .lockstep) (hq : s.st.queue = []) (hs : s.st.stores = []) (hl : s.st.loads = []) :
    let n := if o.wide then 8 else 4
    let a := s.st.xget o.a
    s.check .atomic n n a = .ok p d → s.poisonAt a p n = none →
    let w := 8 * n
    let old := ofBytes (s.placeBytes p n)
    let t := s.atomic i o cas
    s.flights = [] → t.st.pc = s.st.pc + 4 ∧ (Memory.wf s.mem = true → s.noUndo p →
      s.storesBytes t p (bytesOf n (atNew op w old ((s.st.xget o.b).toNat % 2 ^ w)
        ((if cas then s.st.xget o.d else 0).toNat % 2 ^ w))) ∧
      t.st.xget o.d = (if o.d = 0 then 0 else atOld op w old) ∧ s.keepsStrand t [o.d] [] ∧ Memory.wf t.mem = true) := by
  intro n a hc hp w old t hf
  have ht : t = s.enqueueStore i a p n (s.st.xget o.b) (if cas then s.st.xget o.d else 0) (some o.d) :=
    (State.atomic_eq hu i).trans ((State.checked_ok (State.walkBlocked_of_nil hs a) hc _).trans
      (State.atomicAt_room hs hp i cas))
  refine ⟨by rw [ht]; exact State.enqueueStore_pc hs (.inr ⟨hf, hp, Option.some_ne_none _⟩) _ _, fun hm hn => ?_⟩
  rw [State.enqueueAtomic_now ⟨hpace, hq, hs, hl, hf⟩ i op acq hi a p hn n hp] at ht
  obtain ⟨u, hu'⟩ : ∃ u : State, (s.upd fun t => t.sentAtomic o.d) = u := ⟨_, rfl⟩
  rw [hu'] at ht
  simp only [State.upd, Strand.sentAtomic_eq] at hu'
  have hbyte : ∀ q, u.placeByte q = s.placeByte q := by rw [← hu']; exact fun _ => rfl
  have hbytes : ofBytes (u.placeBytes p n) = old := by simp only [State.placeBytes, hbyte]; rfl
  have hnu : u.noUndo p := by rw [← hu']; cases p <;> exact hn
  have hwu : u.writable p := by
    have := State.check_writable (by decide) hc
    rw [← hu']
    cases p <;> exact this
  have hfu : u.flights = [] := by rw [← hu']; exact hf
  have hmu : Memory.wf u.mem = true := by rw [← hu']; exact hm
  have hst := fun bs : List Byte => State.writePlace_st u a p bs hfu hnu
  simp only [hbytes] at ht
  rw [ht]
  refine ⟨fun q => ?_, ?_, ?_, State.writePlace_wf u a p _ hfu hnu hmu⟩
  · rw [← hbyte q, State.advance_placeByte, State.setX_placeByte]
    exact State.writePlace_stores u a p _ hmu hfu hnu hwu q
  · simp only [State.advance_st, Strand.next_xget, State.setX_st, Strand.xget_xset]; rfl
  · refine State.keepsStrand_of ?_ (State.keepsX_xset (v := _) (u := _) rfl rfl ?_ ?_)
    · simp only [State.advance_st, Strand.frame_next, State.setX_st, Strand.frame_xset]
      rw [hst, ← hu']; rfl
    · rw [hst, ← hu']
    · rw [hst, ← hu']

theorem atOld_signed {op : AtOp} (h : op ∉ [AtOp.fadd, .minn, .maxn]) (w old : Nat) :
    atOld op w old = (BitVec.ofNat w old).signExtend 64 := by
  rw [← extendBits_signed]
  cases op with
  | fadd | minn | maxn => exact absurd (by decide) h
  | _ => rfl

/-- Settles O12: each operation is `State.atomic_applied`, with its value of `atNew` and `atOld`. -/
theorem atomicReadModifyWrite : Obligations.AtomicReadModifyWrite := by
  unfold Obligations.AtomicReadModifyWrite
  intro o s p d n w a hu hpace hq hs hl hc hp old b c signed done
  have happ : ∀ (i : Instr) (op : AtOp) (acq : Bool) (new : Nat) (isSigned : Bool), i ≠ .atcas o →
      i ∈ [Instr.atadd o, .atfadd o, .atand o, .ator o, .atxor o, .atmin o, .atmax o, .atminn o, .atmaxn o, .atswap o,
        .atcas o] → atomicOf i = some (op, acq) → (∀ x, atNew op w old b x = new) →
      atOld op w old = (if isSigned then (BitVec.ofNat w old).signExtend 64 else BitVec.ofNat 64 old) →
      done i new isSigned := by
    intro i op acq new isSigned hne hi hop hnew hold
    have hx := exec_atomic hi s
    rw [decide_eq_false hne] at hx
    refine ⟨_, hx, fun hf => ?_⟩
    obtain ⟨hpc, hrest⟩ := State.atomic_applied (cas := false) hop hu hpace hq hs hl hc hp hf
    refine ⟨hpc, fun hm hul => ?_⟩
    obtain ⟨hst, hxd, hrest⟩ := hrest hm (State.noUndo_of hul p)
    rw [hnew] at hst
    rw [hold] at hxd
    exact ⟨hst, hxd, hrest⟩
  have hsigned : ∀ op : AtOp, op ∉ [AtOp.fadd, .minn, .maxn] →
      atOld op w old = (if true then (BitVec.ofNat w old).signExtend 64 else BitVec.ofNat 64 old) := fun op h =>
    atOld_signed h w old
  have hfmt : atFmt w = if o.wide then f64 else f32 := by
    cases hw : o.wide <;> simp only [w, n, hw] <;> rfl
  refine ⟨happ _ .add o.acq _ _ nofun (by simp) rfl (fun _ => rfl) (hsigned _ (by decide)),
    happ _ .fadd o.acq _ _ nofun (by simp) rfl (fun _ => by simp only [atNew, hfmt]) rfl,
    happ _ .and o.acq _ _ nofun (by simp) rfl (fun _ => rfl) (hsigned _ (by decide)),
    happ _ .or o.acq _ _ nofun (by simp) rfl (fun _ => rfl) (hsigned _ (by decide)),
    happ _ .xor o.acq _ _ nofun (by simp) rfl (fun _ => rfl) (hsigned _ (by decide)),
    happ _ .min o.acq _ _ nofun (by simp) rfl (fun _ => sminW_eq w old b) (hsigned _ (by decide)),
    happ _ .max o.acq _ _ nofun (by simp) rfl (fun _ => smaxW_eq w old b) (hsigned _ (by decide)),
    happ _ .minn o.acq _ _ nofun (by simp) rfl (fun _ => rfl) rfl,
    happ _ .maxn o.acq _ _ nofun (by simp) rfl (fun _ => rfl) rfl,
    happ _ .swap o.acq _ _ nofun (by simp) rfl (fun _ => rfl) (hsigned _ (by decide)), fun hpd => ?_⟩
  refine ⟨s.atomic (.atcas o) o true, rfl, fun hf => ?_⟩
  obtain ⟨hpc, hrest⟩ := State.atomic_applied (cas := true) (i := .atcas o) rfl (hu.withDest hpd) hpace hq hs hl hc hp hf
  refine ⟨hpc, fun hm hul => ?_⟩
  obtain ⟨hst, hxd, hrest⟩ := hrest hm (State.noUndo_of hul p)
  rw [hsigned _ (by decide)] at hxd
  have hnew : atNew .cas w old b c = if old = c then b else old := by simp only [atNew, beq_iff_eq]
  exact ⟨hnew ▸ hst, hxd, hrest⟩

end Sys2Proof.Machine

/-! SUPPORT. The statement about the store queue, which fails where a store logs a line whose undo record crosses to
another die. -/

namespace Sys2Proof.Machine

/-- The store at the head of the queue of `crossedUndo`. -/
def crossedUndoHead : SEntry :=
  { seq := 0, after := none, instr := .st ⟨4, 5, 2, 0⟩, addr := 0x2000, place := .mem 0x2000, size := 4, data := 7, cmp := 0
    dest := none }

/-- A younger store of the same strand, on its way to die 1. -/
def crossedUndoSent : SEntry := { crossedUndoHead with seq := 1, sent := true }

/-- A strand of die 0 in an interval whose undo region lies on die 1. Its oldest store has its home on die 0, and its second
one is in flight to die 1. -/
def State.crossedUndo : State :=
  let s := State.reset.loaded
  { s with
    cur := 0
    st := { s.st with stores := [crossedUndoHead, crossedUndoSent] }
    flights := [⟨0, 1, 0, 1, Vector.replicate 5 0⟩]
    mem := setCells 0 0x20008 (bytesOf 8 (2 ^ 49 + 3 + 15 * 2 ^ 55)) s.mem
    ctxs := [(1, { s.context 1 with ulOn := true, ulBad := false, ulLog := [], ulbase := 0x8000000, ullim := 0x8001000 })] }

/-- The line of the store is logged, its record crosses to die 1, and the store in flight is applied there first (R323,
R349): both entries leave the queue. -/
theorem State.crossedUndo_storeStep : State.crossedUndo.storeStep.st.stores.length = 0 := by decide +kernel

/-- Refutes O13: in `State.crossedUndo` the undo record of the oldest store brings the next one home too, so that
STORE_PERFORM leaves an empty queue where one entry should stay. -/
theorem not_storeQueueInOrder : ¬ Obligations.StoreQueueInOrder := by
  unfold Obligations.StoreQueueInOrder
  rintro ⟨⟨_, hperform⟩, _⟩
  obtain ⟨t, ht, _, hhome⟩ :=
    hperform State.crossedUndo crossedUndoHead [crossedUndoSent] rfl (by decide) rfl
  obtain ⟨hstores, _⟩ := hhome (by decide)
  have hstep : t = State.crossedUndo.storeStep := (Host.Outcome.next.inj ht).symm
  have hlen := State.crossedUndo_storeStep
  rw [← hstep, hstores] at hlen
  exact absurd hlen (by decide)

end Sys2Proof.Machine

/-! SUPPORT. The statements about the event queue, drains and fences. -/

namespace Sys2Proof.Machine

/-! ## Events (R109, R110) -/

@[simp] theorem Strand.takeNotices_claims (t : Strand) : t.takeNotices.claims = t.claims := rfl
@[simp] theorem Strand.takeNotices_pc (t : Strand) : t.takeNotices.pc = t.pc := rfl
@[simp] theorem Strand.takeNotices_x (t : Strand) : t.takeNotices.x = t.x := rfl
@[simp] theorem Strand.takeNotices_xfull (t : Strand) : t.takeNotices.xfull = t.xfull := rfl
@[simp] theorem Strand.takeNotices_frame (t : Strand) : t.takeNotices.frame = t.frame := rfl

@[simp] theorem Strand.xempty_x (t : Strand) (r : Reg) : (t.xempty r).x = t.x := by unfold Strand.xempty; split <;> rfl

@[simp] theorem Strand.xempty_pc (t : Strand) (r : Reg) : (t.xempty r).pc = t.pc := by unfold Strand.xempty; split <;> rfl
@[simp] theorem Strand.xempty_events (t : Strand) (r : Reg) : (t.xempty r).events = t.events := by
  unfold Strand.xempty; split <;> rfl

theorem Strand.isFull_xempty_of_ne (t : Strand) {r q : Reg} (h : q ≠ r) : (t.xempty r).isFull q = t.isFull q := by
  unfold Strand.xempty
  split
  · rfl
  · simp [Strand.isFull, hasReg_setReg_of_ne _ _ _ _ h]

theorem Strand.isFull_xempty_self (t : Strand) {r : Reg} (h : r ≠ 0) : (t.xempty r).isFull r = false := by
  rw [Strand.xempty, if_neg h, Strand.isFull, hasReg_setReg_self]
  simpa using h

/-- Settles O27: each case is one branch of `execEvpop`, and `evn` is its own equation. -/
theorem eventQueue : Obligations.EventQueue := by
  unfold Obligations.EventQueue
  refine ⟨fun d s e rest hu hc he => ?_, fun d s hu hlt hcase => ?_, fun d s hu hlen => ?_, fun d s hu => ?_⟩
  · have hx : exec (.evpop d) s =
        .next ((s.upd fun t => { t with events := rest }.takeNotices).setX d e.word).advance := by
      refine congrArg Host.Outcome.next ((State.gated_of_usable (srcs := []) _ hu).trans ?_)
      simp only [hc, he, List.length_nil]
      rfl
    refine ⟨_, hx, ?_, ?_, ?_, ?_, ?_, ?_⟩
    · simp [Strand.xget_xset]
    · simp
    · simp
      rfl
    · simp [hc]
    · simp
    · exact State.keepsRest_of (by simp; rfl) (State.keepsX_xset rfl rfl rfl rfl) rfl rfl
  · have hx : exec (.evpop d) s = .next (s.upd fun t => { t.xempty d with claims := t.claims ++ [d] }).advance := by
      refine congrArg Host.Outcome.next ((State.gated_of_usable (srcs := []) _ hu).trans ?_)
      rw [if_neg (by omega)]
      split
      · next h h' => simp [h, h'] at hcase
      · rfl
    have hfull : ∀ q, (s.upd fun t => { t.xempty d with claims := t.claims ++ [d] }).advance.st.isFull q =
        (s.st.xempty d).isFull q := Strand.isFull_congr rfl
    refine ⟨_, hx, rfl, ?_, fun hd => ?_, ?_, State.keepsRest_of ?_ (fun q hq => ⟨?_, ?_⟩) rfl rfl⟩
    · simp
    · rw [hfull, Strand.isFull_xempty_self _ hd]
    · simp
    · simp only [State.advance_st, Strand.frame_next]
      exact Strand.frame_xempty ..
    · exact Strand.xget_congr (by simp) q
    · rw [hfull, Strand.isFull_xempty_of_ne _ (by simpa using hq)]
  · refine congrArg Host.Outcome.next ((State.gated_of_usable (srcs := []) _ hu).trans ?_)
    rw [if_pos (by omega)]
  · exact congrArg Host.Outcome.next (State.gated_of_usable (srcs := []) _ hu)

/-! ## Drains and fences (R114, R115, R322) -/

theorem pathOf_le {i : Instr} {k : Nat} (h : pathOf i = some k) : k ≤ 5 := by
  unfold pathOf at h
  split at h <;> simp only [Option.some.injEq, reduceCtorEq] at h <;> omega

theorem Strand.queued_iff (t : Strand) (k : Nat) : t.queued k = true ↔ ∃ e ∈ t.queue, pathOf e.instr = some k := by
  simp [Strand.queued]

theorem Strand.readsBusy_iff (t : Strand) : t.readsBusy = true ↔ (∃ e ∈ t.queue, onLs e.instr = true) ∨
    (∃ l ∈ t.loads, l.place.isHost = false) ∨ ∃ e ∈ t.stores, e.dest ≠ none := by
  simp [Strand.readsBusy, Strand.queuedLs, Option.isSome_iff_ne_none, or_assoc]

theorem Strand.lsBusy_iff (t : Strand) : t.lsBusy = true ↔ (∃ e ∈ t.queue, onLs e.instr = true) ∨
    (∃ e ∈ t.stores, e.place.isHost = false) ∨ ∃ l ∈ t.loads, l.place.isHost = false := by
  simp [Strand.lsBusy, Strand.queuedLs, or_assoc]

/-- A command class is open while a command, an item or a posted event of the iteration belongs to it (R336). -/
theorem State.classOpen_iff (s : State) (k : Nat) : s.classOpen k = true ↔
    (∃ c ∈ s.commandsOf s.st.iter.id, c.engine.path = k) ∨ (k = 2 ∧ s.itemsOf s.st.iter.id ≠ []) ∨
      ∃ p ∈ s.posts, p.iter = s.st.iter.id ∧ eventPath p.event.source = k := by
  simp only [State.classOpen, Bool.or_eq_true, List.any_eq_true, Bool.and_eq_true, beq_iff_eq, Bool.not_eq_true',
    List.isEmpty_eq_false_iff, or_assoc, ne_eq]

/-- Engine commands in the queue, at an engine or on their way back (R113, R114). -/
theorem State.enginesBusy_eq_false (s : State) : s.enginesBusy = false ↔
    s.commandsOf s.st.iter.id = [] ∧ s.itemsOf s.st.iter.id = [] ∧ (∀ p ∈ s.posts, p.iter ≠ s.st.iter.id) ∧
      ∀ e ∈ s.st.queue, ∀ k, pathOf e.instr = some k → k < 2 := by
  have hqueue : (∀ e ∈ s.st.queue, ∀ k, pathOf e.instr = some k → k < 2) ↔
      ∀ k, 2 ≤ k → k ≤ 5 → s.st.queued k = false := by
    simp only [← Bool.not_eq_true, Strand.queued_iff, not_exists, not_and]
    refine ⟨fun h k hk _ e he hp => absurd (h e he k hp) (by omega), fun h e he k hp => ?_⟩
    by_contra hk
    exact h k (by omega) (pathOf_le hp) e he hp
  have hfour : (∀ k, 2 ≤ k → k ≤ 5 → s.st.queued k = false) ↔
      s.st.queued 2 = false ∧ s.st.queued 3 = false ∧ s.st.queued 4 = false ∧ s.st.queued 5 = false := by
    refine ⟨fun h => ⟨h 2 (by decide) (by decide), h 3 (by decide) (by decide), h 4 (by decide) (by decide),
      h 5 (by decide) (by decide)⟩, fun ⟨h2, h3, h4, h5⟩ k hk hk' => ?_⟩
    interval_cases k <;> assumption
  rw [hqueue, hfour]
  simp only [State.enginesBusy, State.commandsDone, Bool.or_eq_false_iff, Bool.not_eq_false', Bool.and_eq_true,
    List.isEmpty_iff, Bool.not_eq_true', List.any_eq_false, beq_iff_eq, ne_eq]
  tauto

/-- A condition that holds an instruction back, and else it only advances. -/
theorem stallIf_iff {s : State} {waits : Bool} {i : Instr} (h : exec i s = .next (if waits then s.stall else s.advance)) :
    (waits = true → exec i s = .next s.stall) ∧ (waits = false → exec i s = .next s.advance) :=
  ⟨fun hw => by rw [h, hw]; rfl, fun hw => by rw [h, hw]; rfl⟩

/-- A fence at scope `.st` waits for nothing. -/
theorem fence_iff {s : State} {busy : Bool} {i : Instr} {scope : BitVec 3}
    (h : exec i s = .next (if scope ≠ 0 ∧ busy then s.stall else s.advance)) :
    (scope = 0 ∨ ¬busy = true → exec i s = .next s.advance) ∧ (scope ≠ 0 → busy = true → exec i s = .next s.stall) := by
  refine ⟨fun hf => ?_, fun hs hb => ?_⟩
  · rw [h, if_neg (by tauto)]
  · rw [h, if_pos ⟨hs, hb⟩]

/-- Settles O29: `drain` and each fence by the condition it waits for, and each class by its own clause of `classBusy`. -/
theorem drainsAndFences : Obligations.DrainsAndFences := by
  unfold Obligations.DrainsAndFences
  refine ⟨fun s mask => ?_, ⟨fun s scope => ?_, fun s o => ?_, fun s => ?_⟩⟩
  · intro sq ec
    have hsq : (!s.st.stores.isEmpty || s.st.queue.any fun e => writesMem e.instr) = false ↔ sq := by simp [sq]
    have hec : s.enginesBusy = false ↔ ec := s.enginesBusy_eq_false
    have hbusy : s.st.busy = false ↔ s.st.queue = [] := by simp [Strand.busy]
    have hclaims : (!s.st.claims.isEmpty) = false ↔ s.st.claims = [] := by simp
    obtain ⟨hstall, hadv⟩ := stallIf_iff (s := s) (i := .drain mask) rfl
    simp only [Bool.or_eq_false_iff, Bool.and_eq_false_imp] at hadv
    simp only [Bool.or_eq_true, Bool.and_eq_true] at hstall
    refine ⟨fun h0 h1 h2 h3 h4 => hadv ?_, fun m h => hstall ?_, fun m h => hstall ?_, fun m h => hstall ?_,
      fun m h => hstall ?_, fun m h => hstall ?_⟩
    · exact ⟨⟨⟨⟨fun m => hbusy.2 (h0 m), fun m => Bool.or_eq_false_iff.1 (hsq.2 (h1 m))⟩, h2⟩, fun m => hec.2 (h3 m)⟩,
        fun m => hclaims.2 (h4 m)⟩
    · exact .inl (.inl (.inl (.inl ⟨m, Bool.of_not_eq_false (h ∘ hbusy.1)⟩)))
    · exact .inl (.inl (.inl (.inr ⟨m, Bool.or_eq_true_iff.1 (Bool.of_not_eq_false (h ∘ hsq.1))⟩)))
    · exact .inl (.inl (.inr ⟨m, h⟩))
    · exact .inl (.inr ⟨m, Bool.of_not_eq_false (h ∘ hec.1)⟩)
    · exact .inr ⟨m, Bool.of_not_eq_false (h ∘ hclaims.1)⟩
  · intro queued loads reads any
    have hreads : s.st.readsBusy = true ↔ reads := s.st.readsBusy_iff
    have hany : s.classBusy 0 = true ↔ any := s.st.lsBusy_iff.trans (or_congr_right or_comm)
    have hacq := fence_iff (s := s) (i := .fenceAcq scope) (scope := scope) rfl
    have hrel := fence_iff (s := s) (i := .fenceRel scope) (scope := scope) rfl
    have hfull := fence_iff (s := s) (i := .fenceFull scope) (scope := scope) rfl
    rw [hreads] at hacq
    rw [hany] at hrel hfull
    exact ⟨hacq.1, hacq.2, fun h => ⟨hrel.1 h, hfull.1 h⟩, fun h h' => ⟨hrel.2 h h', hfull.2 h h'⟩⟩
  · have h := fence_iff (s := s) (i := .fencex o) (scope := o.scope) rfl
    rwa [Bool.not_eq_true] at h
  · intro queued open_ at_ strips
    have hopen : ∀ k, k ≠ 2 → (s.classOpen k = true ↔ open_ k) := fun k hk =>
      (s.classOpen_iff k).trans (or_congr_right (or_iff_right fun h => hk h.1))
    have hclass : ∀ k, s.classBusy k = (s.st.queued k || s.classOpen k) → (s.classBusy k = true ↔ queued k ∨ s.classOpen k = true) :=
      fun k h => by rw [h, Bool.or_eq_true, Strand.queued_iff]
    refine ⟨?_, s.st.queued_iff 1, ?_, ?_, ?_, ?_, ?_, ?_⟩
    · refine s.st.lsBusy_iff.trans (or_comm.trans (or_congr_left ?_))
      exact Iff.rfl
    · rw [hclass 2 rfl, s.classOpen_iff 2, or_left_comm (b := 2 = 2 ∧ _), eq_self_iff_true, true_and]
    · rw [hclass 3 rfl, hopen 3 (by decide)]
    · rw [hclass 4 rfl, hopen 4 (by decide)]
    · rw [hclass 5 rfl, hopen 5 (by decide)]
    · have hs : strips false = s.st.drainingAt fun p => !p.isHost := congrArg s.st.drainingAt (by funext p; simp)
      rw [hs, ← Bool.or_eq_true_iff]
      exact Iff.rfl
    · have hs : strips true = s.st.drainingAt Place.isHost := congrArg s.st.drainingAt (by funext p; simp)
      have hbusy : s.classBusy 6 = s.hostBusy := rfl
      rw [hbusy, hs]
      simp only [State.hostBusy, Bool.or_eq_true, List.any_eq_true, Bool.and_eq_true, beq_iff_eq, at_]
      exact Iff.of_eq (by ac_rfl)

end Sys2Proof.Machine

/-! SUPPORT. Traps by the branch that they take, and the statement about critical sections. -/

namespace Sys2Proof.Machine

/-! ## Taking a trap (R122 to R124) -/

section
variable {s : State} {side : Side} {cause : BitVec 8} {tval tepc : Word}

/-- With a handler, and no image that would be lost, the handler is entered (R123). -/
theorem State.takeTrap_enter (hh : s.st.held = true → s.st.level = .user) (ht : s.st.tvec ≠ 0) :
    s.takeTrap side cause tval tepc = s.upd fun t => t.enter side cause tval tepc := by
  rw [State.takeTrap, if_neg, if_neg ht]
  simp only [Bool.and_eq_true, beq_iff_eq, not_and]
  exact fun h hl => absurd ((hh h).symm.trans hl) nofun

/-- A trap at supervisor level over a held image stops the strand (R124). -/
theorem State.takeTrap_stop (hh : s.st.held = true) (hl : s.st.level = .supervisor) :
    s.takeTrap side cause tval tepc = (s.noticeStopped side cause tval).upd fun t => t.stopHeld cause := by
  rw [State.takeTrap, hh, hl]; rfl

/-- Without a handler the iteration ends as a cancelled one (R123). -/
theorem State.takeTrap_end (hh : s.st.held = true → s.st.level = .user) (ht : s.st.tvec = 0) :
    s.takeTrap side cause tval tepc = (s.cancelWork s.st.iter.id).upd fun t => t.endByTrap cause := by
  rw [State.takeTrap, if_neg, if_pos ht]
  simp only [Bool.and_eq_true, beq_iff_eq, not_and]
  exact fun h hl => absurd ((hh h).symm.trans hl) nofun

/-- With nothing older outstanding a scalar trap is taken at once (R122). -/
theorem State.scalarTrapAt_now (h : s.st.settled = true) :
    s.scalarTrapAt cause tval tepc = s.takeTrap .scalar cause tval tepc := if_pos h

/-- A trap of the instruction at pc that enters the handler at once. -/
theorem State.trap_enter (h : s.st.settled = true) (hh : s.st.held = true → s.st.level = .user) (ht : s.st.tvec ≠ 0) :
    s.trap cause tval = s.upd fun t => t.enter .scalar cause tval s.st.pc :=
  (State.scalarTrapAt_now h).trans (State.takeTrap_enter hh ht)

theorem Strand.settled_iff {t : Strand} : t.settled = true ↔ t.queue = [] ∧ t.loads = [] := by
  simp [Strand.settled]

end

/-! ## Critical sections (R111) -/

theorem Strand.inSection_of {t : Strand} (h : t.crit = true) (h' : t.critSusp = false) : t.inSection = true := by
  rw [Strand.inSection, h, h']; rfl

/-- Within a section a forbidden instruction takes trap 0x02. -/
theorem exec_forbidden {s : State} (h : s.st.crit = true) (h' : s.st.critSusp = false) {i : Instr} {o : WaitOps}
    (hi : i ∈ [Instr.crit, .endit, .yield, .wait o]) : exec i s = .next (s.decodeTrap i 0x02) := by
  have hin := Strand.inSection_of h h'
  simp only [List.mem_cons, List.not_mem_nil, or_false] at hi
  rcases hi with rfl | rfl | rfl | rfl
  · exact congrArg Host.Outcome.next (if_pos h)
  · exact congrArg Host.Outcome.next (if_pos hin)
  · exact congrArg Host.Outcome.next (if_pos hin)
  · exact congrArg Host.Outcome.next (if_pos hin)

/-- A check that fails stops a vector instruction at decode, before anything else of it (R37). -/
theorem State.vector_check {s : State} {i : Instr} {f : VForm} {c : BitVec 8} (h : f.check s = some c) :
    s.vector i f = s.decodeTrap i c := by
  have hf : f.fault s = some c := by simp only [VForm.fault, h]
  simp only [State.vector, State.beforePush, hf]

/-- A cancellation, which a section defers, is no reason to stop decoding (R111). -/
theorem Strand.asyncReady_deferred {t : Strand} (h : t.crit = true) (hp : ∀ p ∈ t.pending, p.cause = 0x17) :
    t.asyncReady = false := by
  refine List.any_eq_false.2 fun p hmem => ?_
  simp [Strand.canTake, hp p hmem, h]

/-- The section has ended. -/
def Strand.leaveSection (t : Strand) : Strand := { t with crit := false, critCount := 0 }

/-- The section whose 4,097th instruction is decoded ends, and its trap is raised. -/
theorem exec_critOverrun {s : State} {w : IWord} (h : s.st.crit = true) (h' : s.st.critSusp = false)
    (hc : 4096 ≤ s.st.critCount) (hw : s.fetchWord = some w) :
    exec .critOverrun s = .next (if !s.st.settled then s.stall
      else (s.upd Strand.leaveSection).trap 0x0E (w.zeroExtend 64)) := by
  refine congrArg Host.Outcome.next ?_
  rw [Strand.inSection_of h h', decide_eq_true hc, hw]
  rfl

/-- Settles O28: each instruction by its branch; a trap inside a section is `Strand.enter`. -/
theorem criticalSections : Obligations.CriticalSections := by
  unfold Obligations.CriticalSections
  refine ⟨⟨fun s h => ?_, fun s h h' => ?_, fun s o i h h' hi => exec_forbidden h h' hi, fun s o h h' => ?_, fun s h h' => ?_,
    fun s h => ?_, fun s side cause tval tepc h ht hh => ?_, fun s h hp => Strand.asyncReady_deferred h hp,
    fun s w h h' hc hw => ?_⟩, fun s h hf => ?_, fun s h => ?_⟩
  · refine ⟨_, congrArg Host.Outcome.next (if_neg (by simp [h])), rfl, rfl, rfl, ?_⟩
    exact State.keepsRest_of rfl (State.keepsX_of rfl rfl) rfl rfl
  · refine ⟨_, congrArg Host.Outcome.next (if_neg (by simp [Strand.inSection_of h h'])), rfl, rfl, ?_⟩
    exact State.keepsRest_of rfl (State.keepsX_of rfl rfl) rfl rfl
  · exact congrArg Host.Outcome.next (State.vector_check (if_pos (Strand.inSection_of h h')))
  · have hout : (!s.st.inSection) = true := by simp [Strand.inSection, h']
    exact ⟨congrArg Host.Outcome.next (if_pos h), congrArg Host.Outcome.next (if_pos hout)⟩
  · exact congrArg Host.Outcome.next (if_pos (by simp [Strand.inSection, h]))
  · rw [State.takeTrap_enter (by simp [hh]) ht]
    refine ⟨h, ?_, rfl⟩
    simp [Strand.enter, Strand.critSusp, State.upd, h]
  · rw [exec_critOverrun h h' hc hw]
    refine ⟨fun hbusy => ?_, fun hq hl ht hh => ⟨_, rfl, ?_⟩⟩
    · rw [if_pos]
      simpa [Strand.settled, or_iff_not_imp_left] using hbusy
    · have hset : s.st.settled = true := Strand.settled_iff.2 ⟨hq, hl⟩
      rw [hset, Bool.not_true, if_neg (by decide), State.trap_enter (s := s.upd Strand.leaveSection) hset (by simp [State.upd, Strand.leaveSection, hh]) ht]
      exact ⟨rfl, rfl, rfl, rfl, rfl, State.keepsX_of rfl rfl, State.keepsMemory_of rfl rfl⟩
  · exact congrArg Host.Outcome.next ((if_neg (by simp [h])).trans (if_neg (by simp [hf])))
  · refine ⟨_, congrArg Host.Outcome.next (if_neg (by simp [h])), rfl, ?_, rfl, rfl, rfl, ?_⟩
    · simp [Strand.decodes]
    · exact State.keepsRest_of rfl (State.keepsX_of rfl rfl) rfl rfl

end Sys2Proof.Machine

/-! SUPPORT. The statement about traps without a handler and over a held image, and about how a trap waits. -/

namespace Sys2Proof.Machine

/-! ## Fields of a context record (R354) -/

/-- What a field holds once it is written. -/
theorem CtxSt.field_setField (c : CtxSt) {off size : Nat} (h : 8 * off + 8 * size ≤ 1024) (v : Nat) :
    (c.setField off size v).field off size = BitVec.ofNat (8 * size) v := by
  refine BitVec.eq_of_getLsbD_eq fun i hi => ?_
  have h1024 : 8 * off + i < 1024 := by omega
  have hi' : i < 1024 := by omega
  simp [CtxSt.field, CtxSt.setField, hi, h1024, hi', -BitVec.getLsbD_eq_getElem, BitVec.getLsbD_ofNat,
    Nat.testBit_two_pow_sub_one, Nat.testBit_mod_two_pow]

@[simp] theorem State.context_setContext (s : State) (k : BitVec 12) (c : CtxSt) : (s.setContext k c).context k = c :=
  tabGet_tabSet_self ..

/-! ## Strands by their iteration (R301) -/

/-- Every strand of the machine: the one in focus, the others, and those that are saved. -/
def State.strands (s : State) : List Strand := (s.st :: s.others.map Prod.snd) ++ s.saved.map Saved.strand

/-- The strand holds an iteration of this stamp. -/
def Strand.holds (id : Nat) (t : Strand) : Bool := t.iter.work != .none && t.iter.id == id

theorem State.rootOf_eq (s : State) (ctx : BitVec 12) :
    s.rootOf ctx = s.strands.find? fun t => t.iter.work == .root && t.ctx == ctx := rfl

theorem State.updIter_strands (s : State) (id : Nat) (f : Strand → Strand) :
    (s.updIter id f).strands = s.strands.map fun t => if t.holds id then f t else t := by
  simp only [State.strands, State.updIter, List.map_append, List.map_cons, List.map_map]
  congr 1
  refine List.map_congr_left fun v _ => ?_
  exact apply_ite Saved.strand _ _ _

theorem State.updIter_st (s : State) {id : Nat} (h : s.st.iter.id ≠ id) (f : Strand → Strand) : (s.updIter id f).st = s.st := by
  simp [State.updIter, h]

/-- A change of the strand in focus is nothing to the root, where that is another strand. -/
theorem State.rootOf_upd (s : State) {f : Strand → Strand} (h : s.st.iter.work ≠ .root) (hf : (f s.st).iter = s.st.iter)
    (ctx : BitVec 12) : (s.upd f).rootOf ctx = s.rootOf ctx := by
  simp [State.rootOf, State.upd, hf, h]

/-- The root changes as its iteration does. -/
theorem State.rootOf_updIter (s : State) {f : Strand → Strand} (hf : ∀ t, (f t).iter = t.iter ∧ (f t).ctx = t.ctx)
    {ctx : BitVec 12} {r : Strand} (hr : s.rootOf ctx = some r) (id : Nat) :
    (s.updIter id f).rootOf ctx = some (if r.holds id then f r else r) := by
  have hkeep : ∀ t : Strand, (if t.holds id then f t else t).iter = t.iter ∧ (if t.holds id then f t else t).ctx = t.ctx := by
    intro t; split
    · exact hf t
    · exact ⟨rfl, rfl⟩
  rw [State.rootOf_eq, State.updIter_strands, List.find?_map]
  have hcomp : ((fun t : Strand => t.iter.work == .root && t.ctx == ctx) ∘ fun t => if t.holds id then f t else t) =
      fun t => t.iter.work == .root && t.ctx == ctx := by
    funext t
    simp only [Function.comp_apply, (hkeep t).1, (hkeep t).2]
  rw [hcomp, ← State.rootOf_eq, hr]
  rfl

/-- A record joins the event queue of an iteration that is not saved and has room. -/
theorem State.postEvent_direct {s : State} {id : Nat} {t : Strand} (ht : s.findIter id = some t) (hs : s.isSaved id = false)
    (hroom : t.events.length < 32) (k : Nat) (e : EvRec) : s.postEvent k id e = s.updIter id fun t => t.post e := by
  have hd : s.postsDirect id t = true := by simp [State.postsDirect, hs, hroom]
  rw [State.postEvent, State.postBy, ht]
  exact if_pos hd

theorem Strand.post_keeps (t : Strand) (e : EvRec) : (t.post e).iter = t.iter ∧ (t.post e).ctx = t.ctx := by
  unfold Strand.post
  split
  · simp
  · exact ⟨rfl, rfl⟩

theorem Strand.post_unclaimed {t : Strand} (h : t.claims = []) (e : EvRec) : t.post e = { t with events := t.events ++ [e] } := by
  rw [Strand.post, h]

theorem Strand.holds_of_root {t : Strand} (h : t.iter.work = .root) : t.holds t.iter.id = true := by
  simp [Strand.holds, h]

/-! ## A strand that stops (R124) -/

/-- What a strand keeps that stops, once its notice is on its way. -/
theorem State.stopHeld_keeps {s u : State} {cause : BitVec 8} (hst : u.st = s.st) (hm : u.mem = s.mem)
    (hh : u.hostMem = s.hostMem) : let t := u.upd fun t => t.stopHeld cause
    t.st.run = .stopped cause ∧ t.st.decodes = false ∧ s.keepsTrap t ∧ t.st.image = s.st.image ∧
       t.st.stores = s.st.stores ∧ s.keepsX t [] ∧ s.keepsV t [] ∧ s.keepsMemory t := by
  intro t
  have ht : t.st = s.st.stopHeld cause := congrArg (Strand.stopHeld · cause) hst
  obtain ⟨hx, hv, -, -, htrap, -⟩ := State.keepsStrand_of (s := s) (t := t) (dx := []) (dv := []) (by rw [ht]; rfl)
    (State.keepsX_of (by rw [ht]; rfl) (by rw [ht]; rfl))
  rw [ht]
  exact ⟨rfl, rfl, htrap, rfl, rfl, hx, hv, State.keepsMemory_of hm hh⟩

/-- With nothing older outstanding a trap is taken at once, else decoding stops for it (R122). -/
theorem State.scalarTrapAt_held {s : State} {cause : BitVec 8} {tval tepc : Word} (h : s.st.queue ≠ [] ∨ s.st.loads ≠ []) :
    s.scalarTrapAt cause tval tepc = s.upd fun t => { t with hold := some ⟨cause, tval, tepc⟩, waiting := true } :=
  if_neg (by simpa [Strand.settled, ← not_and_or] using h)

theorem State.scalarTrapAt_holds {s : State} {cause : BitVec 8} {tval tepc : Word} (h : s.st.queue ≠ [] ∨ s.st.loads ≠ []) :
    let t := s.scalarTrapAt cause tval tepc
    t.st.hold = some ⟨cause, tval, tepc⟩ ∧ t.st.decodes = false ∧ t.st.queue = s.st.queue ∧ t.st.loads = s.st.loads ∧
      s.keepsRest t [] [] := by
  intro t
  have ht : t = _ := State.scalarTrapAt_held h
  rw [ht]
  refine ⟨rfl, ?_, rfl, rfl, State.keepsRest_of rfl (State.keepsX_of rfl rfl) rfl rfl⟩
  simp [Strand.decodes]

theorem tcauseOf_scalar (cause : BitVec 8) : tcauseOf .scalar cause = cause.zeroExtend 10 := by revert cause; decide

theorem tcauseOf_vector (cause : BitVec 8) : tcauseOf .vector cause = 0x100 + cause.zeroExtend 10 := by
  revert cause; decide

/-- A system call or a breakpoint counts in its section as its trap is taken (R111). -/
def Strand.countHeld (h : Held) (t : Strand) : Strand := if h.cause == 0x10 || h.cause == 0x11 then t.countOne else t

theorem Strand.countHeld_eq (h : Held) (t : Strand) : ∃ n, t.countHeld h = { t with critCount := n } := by
  unfold Strand.countHeld Strand.countOne
  split
  · split <;> exact ⟨_, rfl⟩
  · exact ⟨_, rfl⟩

theorem State.takeHeld_eq (s : State) (h : Held) :
    s.takeHeld h = (s.upd (Strand.countHeld h)).takeTrap .scalar h.cause h.tval h.tepc := by
  unfold State.takeHeld Strand.countHeld
  split <;> rfl

/-- Settles O22: each case of `State.takeTrap` by its own lemma; the held trap is taken by `State.takeHeld`. -/
theorem trapsEndStopOrWait : Obligations.TrapsEndStopOrWait := by
  unfold Obligations.TrapsEndStopOrWait
  refine ⟨fun s side cause tval tepc _ ht hh => ?_, fun s side cause tval tepc hh hl => ⟨fun hw => ?_, ?_⟩, fun s => ⟨fun hq hl => ?_, fun h => ?_⟩,
    fun s cause tval i => ⟨rfl, fun hq hl => ?_, fun h => State.scalarTrapAt_holds h⟩, fun s h hhold hrun hq hl ht hh => ?_,
    fun s cause tval k ht hh => ?_⟩
  · have hend := State.takeTrap_end (side := side) (cause := cause) (tval := tval) (tepc := tepc) (s := s) hh ht
    rw [hend]
    refine ⟨rfl, rfl, rfl, rfl, ?_, fun e => ?_, State.keepsMemory_of rfl rfl, fun c hc hid => ?_⟩
    · simp [Strand.decodes, Strand.endByTrap]
    · simp [Strand.endByTrap, State.upd, State.cancelWork]
    · obtain ⟨c0, -, rfl⟩ := List.mem_map.1 hc
      by_cases h0 : c0.iter = s.st.iter.id
      · simp [h0]
      · simp [h0] at hid
  · have hstop := State.takeTrap_stop (side := side) (cause := cause) (tval := tval) (tepc := tepc) hh hl
    have hnotice : s.noticeStopped side cause tval =
        s.setContext s.st.ctx ((s.context s.st.ctx).setField 0x05 1 cause.toNat) := if_pos (by simp [hw])
    rw [hstop, hnotice]
    refine ⟨State.stopHeld_keeps rfl rfl rfl, ?_⟩
    have hctx : ∀ u : State, (u.upd fun t => t.stopHeld cause).context s.st.ctx = u.context s.st.ctx := fun _ => rfl
    rw [hctx, State.context_setContext, CtxSt.field_setField _ (by decide)]
    simp
  · intro r hw hr hfind hne hsaved hclaims hroom
    have hstop := State.takeTrap_stop (side := side) (cause := cause) (tval := tval) (tepc := tepc) hh hl
    have hroot : r.iter.work = .root ∧ r.ctx = s.st.ctx := by
      have := List.find?_some hr
      simpa using this
    have hwork : (s.st.iter.work == .root) = false := by simpa using hw
    have hnotice : s.noticeStopped side cause tval = s.updIter r.iter.id fun t => t.post
        ⟨BitVec.ofNat 32 s.cur, 1, cause, 7, if side = .async then 0 else s.st.pc, tval⟩ := by
      rw [State.noticeStopped, hwork, if_neg (by decide), hr]
      simp only [beq_iff_eq]
      exact State.postEvent_direct hfind hsaved hroom ..
    rw [hstop, hnotice]
    refine ⟨State.stopHeld_keeps (State.updIter_st s (Ne.symm hne) _) rfl rfl, ?_⟩
    rw [State.rootOf_upd _ ?_ rfl, State.rootOf_updIter s (Strand.post_keeps · _) hr, Strand.holds_of_root hroot.1,
      if_pos rfl, Strand.post_unclaimed hclaims]
    rwa [State.updIter_st s (Ne.symm hne)]
  · have hset : s.st.settled = true := Strand.settled_iff.2 ⟨hq, hl⟩
    exact ⟨congrArg Host.Outcome.next (State.scalarTrapAt_now hset), congrArg Host.Outcome.next (State.scalarTrapAt_now hset)⟩
  · obtain ⟨hhold, hdec, hqueue, -, hkeep⟩ := State.scalarTrapAt_holds (cause := 0x10) (tval := 0) (tepc := s.st.pc + 4) h
    obtain ⟨hhold', hdec', hqueue', -, hkeep'⟩ := State.scalarTrapAt_holds (cause := 0x11) (tval := 0) (tepc := s.st.pc + 4) h
    exact ⟨_, _, rfl, rfl, hhold, hhold', hdec, hdec', hkeep, hkeep', hqueue, hqueue'⟩
  · exact State.scalarTrapAt_now (Strand.settled_iff.2 ⟨hq, hl⟩)
  · have hready : s.st.holdReady = true := by simp [Strand.holdReady, hrun, hhold, Strand.settled, hq, hl]
    have hstep : exec .trapEntry s = .next (s.takeHeld h) := by
      refine congrArg Host.Outcome.next ?_
      rw [if_pos hready, hhold]
    obtain ⟨n, hn⟩ := Strand.countHeld_eq h s.st
    have henter := State.takeTrap_enter (s := s.upd (Strand.countHeld h)) (side := .scalar) (cause := h.cause) (tval := h.tval)
      (tepc := h.tepc) (by simp only [State.upd, hn]; exact hh) (by simp only [State.upd, hn]; exact ht)
    refine ⟨_, hstep, ?_⟩
    rw [State.takeHeld_eq, henter]
    simp only [State.upd]
    rw [hn]
    refine ⟨rfl, rfl, rfl, tcauseOf_scalar h.cause, rfl, rfl, rfl, ?_, State.keepsX_of rfl rfl, ?_, State.keepsMemory_of rfl rfl⟩
    · simp [Strand.enter, hq]
    · exact fun r _ => ⟨rfl, rfl, rfl⟩
  · rw [State.vectorTrap, State.takeTrap_enter (s := s.upd fun t => { t with vstart := BitVec.ofNat 12 k }) (by simp [State.upd, hh]) ht]
    exact ⟨rfl, rfl, rfl, tcauseOf_vector cause, rfl⟩

end Sys2Proof.Machine

/-! SUPPORT. The statement about waits and barriers. -/

namespace Sys2Proof.Machine

/-! ## Waiting on a word (R116) -/

/-- The six conditions of `wait` and `vwait`. -/
theorem condHolds_iff {cond : BitVec 5} (h : cond.toNat < 6) (w v b : Nat) : condHolds cond w v b = true ↔
    (cond = 0 ∧ v = b) ∨ (cond = 1 ∧ v ≠ b) ∨ (cond = 2 ∧ v < b) ∨ (cond = 3 ∧ b ≤ v) ∨
      (cond = 4 ∧ (BitVec.ofNat w v).toInt < (BitVec.ofNat w b).toInt) ∨
      (cond = 5 ∧ (BitVec.ofNat w b).toInt ≤ (BitVec.ofNat w v).toInt) := by
  obtain ⟨k, rfl⟩ : ∃ k : Fin 32, cond = BitVec.ofFin k := ⟨cond.toFin, rfl⟩
  have hk : k.val < 6 := h
  obtain ⟨k, hk32⟩ := k
  simp only at hk
  interval_cases k <;> simp [condHolds, readInt_signed]

/-- What the strand reads with no store of its own. -/
theorem State.seenBytes_of_nil {s : State} (h : s.st.stores = []) (p : Place) (n : Nat) : s.seenBytes p n = s.placeBytes p n := by
  simp only [State.seenBytes, State.placeBytes, State.seenByte, h, List.foldl_nil]


/-- A `wait` with every older access performed reads its word. -/
theorem exec_wait {s : State} {o : WaitOps} {p : Place} {dAttr : Bool} (hin : s.st.inSection = false)
    (hu : s.usable [o.a, o.b] []) (hto : s.st.wto = 0 ∨ s.st.timedOut = false) (hq : s.st.queue = []) (hs : s.st.stores = [])
    (hl : s.st.loads = []) :
    let n := if o.wide then 8 else 4
    let a := s.st.xget o.a
    s.check .read n n a = .ok p dAttr → s.poisonAt a p n = none →
    exec (.wait o) s = .next (
      if condHolds o.cond (8 * n) (ofBytes (s.placeBytes p n)) ((s.st.xget o.b).toNat % 2 ^ (8 * n)) then s.advance
      else s.upd fun t => { t with sleep := .word a }) := by
  intro n a hc hp
  refine congrArg Host.Outcome.next ?_
  rw [if_neg (by simp [hin]), State.gated_of_usable _ hu]
  have hto' : (s.st.wto != 0 && s.st.timedOut) = false := by rcases hto with h | h <;> simp [h]
  have hlt : s.st.lastTouch = none := by simp [Strand.lastTouch, hq]
  have hc' : s.check .read (if o.wide then 8 else 4) (if o.wide then 8 else 4) (s.st.xget o.a) = .ok p dAttr := hc
  have hp' : s.poisonAt (s.st.xget o.a) p (if o.wide then 8 else 4) = none := hp
  simp only [hto', Bool.false_eq_true, if_false, State.walkBlocked_of_nil hs, hc', Strand.loadBlocked_of_nil hq hs, hl,
    List.isEmpty_nil, Bool.not_true, hlt, Option.isSome_none, Bool.or_self, hp', State.seenBytes_of_nil hs]
  rfl

/-! ## Barriers (R279, R280) -/

/-- Taking a trap keeps memory in its canonical form: a notice may be written to the save pool. -/
theorem State.takeTrap_wf {s : State} (hm : Memory.wf s.mem = true) (side : Side) (cause : BitVec 8) (tval tepc : Word) :
    Memory.wf (s.takeTrap side cause tval tepc).mem = true := by
  unfold State.takeTrap
  split
  · have hn : Memory.wf (s.noticeStopped side cause tval).mem = true := by
      unfold State.noticeStopped
      split
      · exact hm
      · split
        · exact hm
        · exact (State.postEvent_effects ..).wf hm
    exact hn
  · split <;> exact hm

theorem State.trap_wf {s : State} (hm : Memory.wf s.mem = true) (cause : BitVec 8) (tval : Word) :
    Memory.wf (s.trap cause tval).mem = true := by
  unfold State.trap State.scalarTrapAt
  split
  · exact State.takeTrap_wf hm ..
  · exact hm

theorem State.logAhead_wf {s : State} (hm : Memory.wf s.mem = true) (ctx : BitVec 12) (va : Word) (p : Place) (n : Nat) :
    Memory.wf (s.logAhead ctx va p n).mem = true := (State.logAhead_effects ..).wf hm

/-- The mark of the barrier is cleared before an arrival. -/
def Strand.unmark (t : Strand) : Strand := { t with mark := none }

/-- An arrival that its word has room for, at the word's home: the line is logged, and the word written. -/
def State.barArrive (s : State) (a b : Word) (p : Place) : State :=
  let w := ofBytes (s.placeBytes p 8)
  let u := s.upd fun t => { t with iter := { t.iter with effects := true } }
  if w % 2 ^ 32 + 1 = b.toNat then (u.storeAt a p (bytesOf 8 ((w / 2 ^ 32 + 1) % 2 ^ 32 * 2 ^ 32))).advance
  else (u.storeAt a p (bytesOf 8 (w + 1))).upd fun t =>
    { t with mark := some (a, BitVec.ofNat 32 (w / 2 ^ 32)), sleep := .barrier a (BitVec.ofNat 32 (w / 2 ^ 32)) }

theorem State.barArrive_wf {s : State} (hm : Memory.wf s.mem = true) (a b : Word) (p : Place) :
    Memory.wf (s.barArrive a b p).mem = true := by
  have hs : ∀ bs, Memory.wf ((s.upd fun t => { t with iter := { t.iter with effects := true } }).storeAt a p bs).mem = true :=
    fun bs => State.storeAt_wf (s := s.upd _) hm a p bs
  unfold State.barArrive
  dsimp only
  split <;> exact hs _

/-- More strands have arrived than take part. -/
def State.overrun (s : State) (b : Word) (p : Place) : Bool := decide (b.toNat ≤ ofBytes (s.placeBytes p 8) % 2 ^ 32)

theorem filter_unmarked {m : Option (Word × BitVec 32)} {a : Word} (h : ∀ ph, m ≠ some (a, ph)) :
    m.filter (fun x => x.1 == a) = none := by
  refine Option.filter_eq_none_iff.2 fun x hx hxa => ?_
  exact h x.2 (by rw [hx, ← beq_iff_eq.1 hxa])

/-- A `bar` of a strand that does not wait at it is an arrival at the word's home (R279, R315). -/
theorem State.barAt_unmarked {s : State} {a : Word} (h : ∀ ph, s.st.mark ≠ some (a, ph)) (b : Word) (p : Place) :
    s.barAt a b p =
      let u := (s.upd Strand.unmark).crossed (dieOf s.cur) p
      let v := if u.overrun b p then u else u.logAhead u.st.ctx a p 8
      if v.overrun b p then v.trap 0x0B a else v.barArrive a b p := by
  unfold State.barAt
  simp only [filter_unmarked h]
  rfl

/-- A `bar` of a strand that waits at it goes on once the phase differs (R280). -/
theorem State.barAt_marked {s : State} {a : Word} {ph : BitVec 32} (h : s.st.mark = some (a, ph)) (b : Word) (p : Place) :
    s.barAt a b p = if BitVec.ofNat 32 (ofBytes (s.placeBytes p 8) / 2 ^ 32) ≠ ph then (s.upd Strand.unmark).advance
      else s.upd fun t => { t with sleep := .barrier a ph } := by
  unfold State.barAt
  simp only [h, Option.filter_some, beq_self_eq_true, if_true]
  rfl

/-- Whatever an arrival does, memory stays in its canonical form. -/
theorem State.barAt_wf {s : State} (hm : Memory.wf s.mem = true) (a b : Word) (p : Place) :
    Memory.wf (s.barAt a b p).mem = true := by
  by_cases h : ∀ ph, s.st.mark ≠ some (a, ph)
  · have hu : Memory.wf ((s.upd Strand.unmark).crossed (dieOf s.cur) p).mem = true := (State.crossed_effects ..).wf hm
    obtain ⟨v, hv, hwf⟩ : ∃ v : State, s.barAt a b p = (if v.overrun b p then v.trap 0x0B a else v.barArrive a b p) ∧
        Memory.wf v.mem = true := by
      refine ⟨_, State.barAt_unmarked h b p, ?_⟩
      split
      · exact hu
      · exact State.logAhead_wf hu ..
    rw [hv]
    split
    · exact State.trap_wf hwf ..
    · exact State.barArrive_wf hwf ..
  · simp only [not_forall, not_not] at h
    obtain ⟨ph, h⟩ := h
    rw [State.barAt_marked h]
    split <;> exact hm

/-- An access whose home is its own die, or that meets no write in flight, moves clocks at most (R323). -/
theorem State.crossed_clocks {s : State} {p : Place} (h : s.flights = [] ∨ p.home (dieOf s.cur) = dieOf s.cur) :
    ∃ ds, s.crossed (dieOf s.cur) p = { s with dies := ds } := by
  rcases h with h | h
  · exact s.crossed_dies _ p h
  · exact ⟨s.dies, s.crossed_own _ p h⟩

/-- What an arrival that its word has room for comes to, where no undo record is written. -/
theorem State.barAt_arrives {s : State} {a b : Word} {p : Place} (h : ∀ ph, s.st.mark ≠ some (a, ph)) (hu : s.noUndo p)
    (hf : s.flights = [] ∨ p.home (dieOf s.cur) = dieOf s.cur) (hroom : s.overrun b p = false) :
    ∃ ds, s.barAt a b p = State.barArrive { s.upd Strand.unmark with dies := ds } a b p := by
  obtain ⟨ds, hds⟩ := State.crossed_clocks (s := s.upd Strand.unmark) hf
  refine ⟨ds, (State.barAt_unmarked h b p).trans ?_⟩
  have hcross : (s.upd Strand.unmark).crossed (dieOf s.cur) p = { s.upd Strand.unmark with dies := ds } := hds
  obtain ⟨v, hv⟩ : ∃ v : State, { s.upd Strand.unmark with dies := ds } = v := ⟨_, rfl⟩
  have hu' : v.noUndo p := by rw [← hv]; cases p <;> exact hu
  have hroom' : v.overrun b p = false := by rw [← hv]; exact hroom
  simp only [hcross, hv, hroom', Bool.false_eq_true, if_false, State.logAhead_noUndo hu']

/-- The arrival completes the barrier, or it is counted and the strand sleeps (R279). -/
theorem State.barArrive_cases {s : State} {a b : Word} {p : Place} (hm : Memory.wf s.mem = true) (hu : s.noUndo p)
    (ds : List (Nat × DieSt)) :
    let w := ofBytes (s.placeBytes p 8)
    let phase := BitVec.ofNat 32 (w / 2 ^ 32)
    let t := State.barArrive { s.upd Strand.unmark with dies := ds } a b p
    let wrote := fun x : Nat => s.writable p → s.storesBytes t p (bytesOf 8 x) ∧ s.keepsStrand t [] []
    (w % 2 ^ 32 + 1 = b.toNat → t.st.mark = none ∧ t.st.pc = s.st.pc + 4 ∧ wrote ((w / 2 ^ 32 + 1) % 2 ^ 32 * 2 ^ 32)) ∧
    (w % 2 ^ 32 + 1 ≠ b.toNat → t.st.mark = some (a, phase) ∧ t.st.sleep = .barrier a phase ∧ t.st.pc = s.st.pc ∧
      wrote (w + 1)) := by
  intro w phase t wrote
  obtain ⟨u, hu'⟩ : ∃ u : State, ({ s.upd Strand.unmark with dies := ds } : State).upd
    (fun t => { t with iter := { t.iter with effects := true } }) = u := ⟨_, rfl⟩
  have huu : u.noUndo p := by rw [← hu']; cases p <;> exact hu
  have hst : ∀ bs, (u.storeAt a p bs).st.mark = none ∧ (u.storeAt a p bs).st.pc = s.st.pc := fun bs => by
    rw [State.storeAt_st huu, ← hu']
    exact ⟨rfl, rfl⟩
  have hwrote : ∀ bs, s.writable p → s.storesBytes (u.storeAt a p bs) p bs := fun bs hw => by
    have hb := State.storeAt_stores (s := u) (p := p) (by rw [← hu']; exact hm) huu (by rw [← hu']; cases p <;> exact hw) a bs
    rw [← hu'] at hb ⊢
    exact hb
  have hfr : ∀ bs, (u.storeAt a p bs).st.frame = s.st.frame ∧ (u.storeAt a p bs).st.x = s.st.x ∧
      (u.storeAt a p bs).st.xfull = s.st.xfull := fun bs => by
    rw [State.storeAt_st huu, ← hu']
    exact ⟨rfl, rfl, rfl⟩
  have ht : t = if w % 2 ^ 32 + 1 = b.toNat then (u.storeAt a p (bytesOf 8 ((w / 2 ^ 32 + 1) % 2 ^ 32 * 2 ^ 32))).advance
      else (u.storeAt a p (bytesOf 8 (w + 1))).upd fun t => { t with mark := some (a, phase), sleep := .barrier a phase } := by
    rw [← hu']; rfl
  refine ⟨fun hw => ?_, fun hw => ?_⟩
  · obtain ⟨hfr, hx, hxf⟩ := hfr (bytesOf 8 ((w / 2 ^ 32 + 1) % 2 ^ 32 * 2 ^ 32))
    simp only [wrote]
    rw [ht, if_pos hw]
    exact ⟨(hst _).1, congrArg (· + 4) (hst _).2, fun hp => ⟨hwrote _ hp, State.keepsStrand_of hfr (State.keepsX_of hx hxf)⟩⟩
  · obtain ⟨hfr, hx, hxf⟩ := hfr (bytesOf 8 (w + 1))
    simp only [wrote]
    rw [ht, if_neg hw]
    exact ⟨rfl, rfl, (hst _).2, fun hp => ⟨hwrote _ hp, State.keepsStrand_of hfr (State.keepsX_of hx hxf)⟩⟩

/-- `bar` with nothing of its strand in flight, over a word that it may write. -/
theorem exec_bar {s : State} {o : BarOps} {p : Place} {dA : Bool} (hin : s.st.inSection = false) (hu : s.usable [o.a, o.b] [])
    (hq : s.st.queue = []) (hls : s.classBusy 0 = false) (hc : s.barCheck (s.st.xget o.a) = .ok p dA)
    (hp : s.poisonAt (s.st.xget o.a) p 8 = none) :
    let a := s.st.xget o.a
    let b := s.st.xget o.b
    exec (.bar o) s = .next (if b = 0 ∨ 2 ^ 32 ≤ b.toNat then s.trap 0x0B a else s.barAt a b p) := by
  intro a b
  refine congrArg Host.Outcome.next ?_
  have hls' : s.st.lsBusy = false := hls
  have hbusy : s.st.busy = false := by simp [Strand.busy, hq]
  rw [if_neg (by simp [hin]), State.gated_of_usable _ hu]
  simp only [hbusy, Bool.false_eq_true, if_false, hc, hls', hp]
  rfl

/-- The strand that sleeps on a barrier wakes where its phase differs (R280). -/
theorem exec_barWake {s : State} {a : Word} {ph : BitVec 32} {p : Place} {dA : Bool} (hs : s.st.sleep = .barrier a ph)
    (hc : s.barCheck a = .ok p dA) : exec .barWake s = .next (
      if BitVec.ofNat 32 (ofBytes (s.placeBytes p 8) / 2 ^ 32) ≠ ph then s.upd fun t => { t with sleep := .awake } else s) := by
  refine congrArg Host.Outcome.next ?_
  simp only [hs, hc]

/-- Settles O30: `wait` by `exec_wait`, an arrival by `State.barAt_arrives` and `State.barArrive_cases`. -/
theorem waitsAndBarriers : Obligations.WaitsAndBarriers := by
  unfold Obligations.WaitsAndBarriers
  refine ⟨⟨fun o s hin hu hto hout => ?_, ?_,
    fun s a hsleep => ⟨?_, fun hto hflag => ?_, fun hto => ?_⟩⟩, ?_, fun s a ph p dA hs hc => ?_⟩
  · refine congrArg Host.Outcome.next ?_
    rw [if_neg (by simp [hin]), State.gated_of_usable _ hu]
    exact if_pos (Bool.and_eq_true_iff.2 ⟨bne_iff_ne.2 hto, hout⟩)
  · intro o s p dAttr n a hin hu hto hq hs hl hc hp v b V B holds hwf
    have hcond : o.cond.toNat < 6 := of_decide_eq_true hwf
    have hx := exec_wait hin hu hto hq hs hl hc hp
    have hiff : condHolds o.cond (8 * n) v b = true ↔ holds := condHolds_iff hcond (8 * n) v b
    refine ⟨fun h => hx.trans (congrArg _ (if_pos (hiff.2 h))), fun h =>
      ⟨_, hx.trans (congrArg _ (if_neg fun h' => h (hiff.1 h'))), rfl, ?_, rfl, ?_⟩⟩
    · simp [Strand.decodes, State.upd]
    · exact State.keepsRest_of rfl (State.keepsX_of rfl rfl) rfl rfl
  · refine ⟨_, rfl, ?_, rfl, State.keepsRest_of rfl (State.keepsX_of rfl rfl) rfl rfl⟩
    simp [State.upd, hsleep]
  · have hx : exec .wtoExpiry s = .next (s.upd fun t => { t with sleep := .awake, timedOut := true }) := by
      refine congrArg Host.Outcome.next ?_
      rw [if_neg (hto ∘ beq_iff_eq.1), hflag, if_neg (by decide), hsleep]
    exact ⟨_, hx, rfl, rfl, rfl, State.keepsRest_of rfl (State.keepsX_of rfl rfl) rfl rfl⟩
  · exact congrArg Host.Outcome.next (if_pos (beq_iff_eq.2 hto))
  · intro o s p dA a b w n phase arrives hin hu hq hs hls hc hp hm hf
    have hx := exec_bar hin hu hq hls hc hp
    refine ⟨fun h => hx.trans (congrArg _ (if_pos h)), fun hb hb' => ?_⟩
    have hat : exec (.bar o) s = .next (s.barAt a b p) := hx.trans (congrArg _ (if_neg (by
      rw [not_or, Nat.not_le]; exact ⟨hb, hb'⟩)))
    refine ⟨fun hmark => ⟨fun hfull => ?_, fun hroom => ?_, fun hlast => ?_⟩, fun ph hmark => ⟨fun hph => ?_, fun hph => ?_⟩⟩
    · obtain ⟨ds, hds⟩ := State.crossed_clocks (s := s.upd Strand.unmark) hf
      have hover : ((s.upd Strand.unmark).crossed (dieOf s.cur) p).overrun b p = true :=
        (congrArg (State.overrun · b p) hds).trans (decide_eq_true hfull)
      refine hat.trans (congrArg _ ((State.barAt_unmarked hmark b p).trans ?_))
      simp only [hover, if_true]
      rfl
    · refine ⟨_, hat, State.barAt_wf hm a b p, fun hnu => ?_⟩
      obtain ⟨ds, hds⟩ := State.barAt_arrives hmark hnu hf (b := b) (decide_eq_false (by omega))
      obtain ⟨hmk, hsl, hpc, hwrote⟩ := (State.barArrive_cases (a := a) (b := b) hm hnu ds).2 (by omega)
      rw [hds]
      exact ⟨⟨hmk, hsl, hpc⟩, hwrote⟩
    · refine ⟨_, hat, State.barAt_wf hm a b p, fun hnu => ?_⟩
      obtain ⟨ds, hds⟩ := State.barAt_arrives hmark hnu hf (b := b) (decide_eq_false (by omega))
      obtain ⟨hmk, hpc, hwrote⟩ := (State.barArrive_cases (a := a) (b := b) hm hnu ds).1 (by omega)
      rw [hds]
      exact ⟨⟨hmk, hpc⟩, hwrote⟩
    · refine ⟨_, hat.trans (congrArg _ ((State.barAt_marked hmark b p).trans (if_pos hph))), rfl, rfl, ?_⟩
      exact State.keepsRest_of rfl (State.keepsX_of rfl rfl) rfl rfl
    · refine ⟨_, hat.trans (congrArg _ ((State.barAt_marked hmark b p).trans (if_neg (not_not.2 hph)))), rfl, rfl, ?_⟩
      exact State.keepsRest_of rfl (State.keepsX_of rfl rfl) rfl rfl
  · refine ⟨_, exec_barWake hs hc, ?_⟩
    split
    · next h => exact ⟨iff_of_true rfl h, rfl, State.keepsRest_of rfl (State.keepsX_of rfl rfl) rfl rfl⟩
    · next h => exact ⟨iff_of_false (by rw [hs]; nofun) h, rfl, State.keepsRest_of rfl (State.keepsX_of rfl rfl) rfl rfl⟩

end Sys2Proof.Machine

/-! SUPPORT. The statement about `setvl` and `setvlf`. -/

namespace Sys2Proof.Machine

/-! ## One length of `setvlf` (R108) -/

/-- The next fibre is the rest of one that was split. -/
def Fibres.resumed (f : Fibres) : Bool := f.n == 0 && f.vfrem != 0

/-- The boundary bits once the next fibre begins: the rest of a split one sets `cont`. -/
def Fibres.marked (f : Fibres) : MaskReg := if f.resumed then setBit f.vsg 0 true else f.vsg

/-- A whole fibre of `L` elements is packed. -/
def Fibres.pack (f : Fibres) (L : Nat) : Fibres :=
  { used := f.used + L, n := f.n + 1, vsg := if 0 < f.used ∧ 0 < L then setBit f.marked f.used true else f.marked
    vfrem := if f.resumed then 0 else f.vfrem }

/-- `L` is the next length that the loop consumes after `f`: the rest of a split fibre, or one read from memory. -/
def State.nextLength (s : State) (a : Word) (f : Fibres) (L : Nat) : Prop :=
  (f.resumed = true ∧ L = f.vfrem.toNat) ∨ (f.resumed = false ∧ ∃ p dAttr,
    s.check .read 4 4 (a + BitVec.ofNat 64 (4 * f.n)) = .ok p dAttr ∧
    s.poisonAt (a + BitVec.ofNat 64 (4 * f.n)) p 4 = none ∧ L = ofBytes (s.placeBytes p 4))

section
variable {s : State} {top left : Nat} {a : Word} {f : Fibres}

/-- With no fibre left, or as many as the strip may hold, the loop ends. -/
theorem State.fibres_end (h : f.n = left ∨ f.n = top) (fuel : Nat) : s.fibres top a left (fuel + 1) f = .done f := by
  rw [State.fibres, if_pos (by omega)]

theorem State.fibres_next (hq : s.st.queue = []) (hs : s.st.stores = []) (hleft : f.n < left) (htop : f.n < top) {L : Nat}
    (h : s.nextLength a f L) (fuel : Nat) : s.fibres top a left (fuel + 1) f =
      if f.used + L ≤ top then s.fibres top a left fuel (f.pack L)
      else if f.used = 0 then .done { f with used := top, vsg := f.marked, vfrem := BitVec.ofNat 32 (L - top) }
      else .done { f with vsg := f.marked } := by
  rw [State.fibres, if_neg (by omega)]
  rcases h with ⟨hr, rfl⟩ | ⟨hr, p, dAttr, hc, hp, rfl⟩
  · have hr' : (f.n == 0 && f.vfrem != 0) = true := hr
    simp only [hr', if_true, Fibres.pack, Fibres.marked, hr, beq_iff_eq]
  · have hr' : (f.n == 0 && f.vfrem != 0) = false := hr
    simp only [hr', hc, hp, Strand.loadBlocked_of_nil hq hs, State.seenBytes_of_nil hs, Bool.false_eq_true, if_false,
      Fibres.pack, Fibres.marked, hr, beq_iff_eq]

theorem State.fibres_bad (hleft : f.n < left) (htop : f.n < top) (hr : f.resumed = false) {c : BitVec 8} {span : Nat}
    (h : s.check .read 4 4 (a + BitVec.ofNat 64 (4 * f.n)) = .bad c span) (fuel : Nat) :
    s.fibres top a left (fuel + 1) f = .bad c (a + BitVec.ofNat 64 (4 * f.n)) := by
  have hr' : (f.n == 0 && f.vfrem != 0) = false := hr
  rw [State.fibres, if_neg (by omega)]
  simp only [hr', h, Bool.false_eq_true, if_false]

end

/-! ## A list of lengths -/

/-- What whole fibres of these lengths fill, where `rest` elements of a split fibre are left (R108). -/
def packed (rest : BitVec 32) (lens : List Nat) : Fibres := lens.foldl Fibres.pack ⟨0, 0, 0, rest⟩

section
variable (rest : BitVec 32) (lens : List Nat) (L : Nat)

@[simp] theorem packed_nil : packed rest [] = ⟨0, 0, 0, rest⟩ := rfl

theorem packed_append : packed rest (lens ++ [L]) = (packed rest lens).pack L := List.foldl_concat ..

@[simp] theorem packed_n : (packed rest lens).n = lens.length := by
  induction lens using List.reverseRecOn with
  | nil => rfl
  | append_singleton lens L ih => rw [packed_append, Fibres.pack, ih, List.length_append]; rfl

@[simp] theorem packed_used : (packed rest lens).used = lens.sum := by
  induction lens using List.reverseRecOn with
  | nil => rfl
  | append_singleton lens L ih => rw [packed_append, Fibres.pack, ih, List.sum_append]; simp

theorem packed_vfrem : (packed rest lens).vfrem = if lens = [] then rest else 0 := by
  induction lens using List.reverseRecOn with
  | nil => rfl
  | append_singleton lens L ih =>
    rw [packed_append, if_neg (by simp)]
    simp only [Fibres.pack, Fibres.resumed, packed_n, ih]
    by_cases hl : lens = []
    · subst hl
      simp
    · simp [hl]

theorem packed_resumed : (packed rest lens).resumed = true ↔ lens = [] ∧ rest ≠ 0 := by
  simp only [Fibres.resumed, packed_n, packed_vfrem, Bool.and_eq_true, beq_iff_eq, List.length_eq_zero_iff, bne_iff_ne]
  exact and_congr_right fun h => by rw [if_pos h]

/-- A fibre that is not empty begins at element `e`, behind another. -/
def fibreBegins (lens : List Nat) (e : Nat) : Prop := ∃ j L, lens[j]? = some L ∧ 0 < L ∧ 0 < e ∧ e = (lens.take j).sum

theorem fibreBegins_append (lens : List Nat) (L e : Nat) :
    fibreBegins (lens ++ [L]) e ↔ fibreBegins lens e ∨ (0 < L ∧ 0 < e ∧ e = lens.sum) := by
  constructor
  · rintro ⟨j, M, hj, hM, he, hsum⟩
    have hle : j < (lens ++ [L]).length := (List.getElem?_eq_some_iff.1 hj).1
    rw [List.length_append, List.length_singleton] at hle
    rcases Nat.lt_succ_iff_lt_or_eq.1 hle with hlt | rfl
    · rw [List.getElem?_append_left hlt] at hj
      rw [List.take_append_of_le_length hlt.le] at hsum
      exact .inl ⟨j, M, hj, hM, he, hsum⟩
    · rw [List.getElem?_concat_length, Option.some.injEq] at hj
      rw [List.take_left] at hsum
      exact .inr ⟨hj ▸ hM, he, hsum⟩
  · rintro (⟨j, M, hj, hM, he, hsum⟩ | ⟨hL, he, hsum⟩)
    · have hlt : j < lens.length := (List.getElem?_eq_some_iff.1 hj).1
      exact ⟨j, M, by rw [List.getElem?_append_left hlt, hj], hM, he, by rw [List.take_append_of_le_length hlt.le, hsum]⟩
    · exact ⟨lens.length, L, List.getElem?_concat_length .., hL, he, by rw [List.take_left, hsum]⟩

theorem fibreBegins.pos {lens : List Nat} {e : Nat} (h : fibreBegins lens e) : 0 < e := by
  obtain ⟨_, _, -, -, he, -⟩ := h
  exact he

theorem fibreBegins.le_sum {lens : List Nat} {e : Nat} (h : fibreBegins lens e) : e ≤ lens.sum := by
  obtain ⟨j, _, -, -, -, he⟩ := h
  have := lens.sum_take_add_sum_drop j
  omega

theorem Fibres.marked_getLsbD (f : Fibres) {e : Nat} (he : e < 2048) :
    f.marked.getLsbD e = true ↔ (e = 0 ∧ f.resumed = true) ∨ f.vsg.getLsbD e = true := by
  unfold Fibres.marked
  split
  · next h =>
    rw [setBit_getLsbD _ _ _ _ he]
    by_cases h0 : e = 0 <;> simp [h0, h]
  · next h => simp [h]

theorem Fibres.pack_getLsbD (f : Fibres) (L : Nat) {e : Nat} (he : e < 2048) :
    (f.pack L).vsg.getLsbD e = true ↔ f.marked.getLsbD e = true ∨ (0 < L ∧ 0 < e ∧ e = f.used) := by
  unfold Fibres.pack
  dsimp only
  split
  · next h =>
    rw [setBit_getLsbD _ _ _ _ he]
    by_cases h0 : e = f.used
    · simp [h0, h]
    · simp [h0]
  · next h =>
    refine (or_iff_left ?_).symm
    omega

/-- Where a whole fibre begins, and whether the first is a rest (R108). -/
theorem packed_vsg {e : Nat} (he : e < 2048) :
    (packed rest lens).vsg.getLsbD e = true ↔ (e = 0 ∧ rest ≠ 0 ∧ lens ≠ []) ∨ fibreBegins lens e := by
  induction lens using List.reverseRecOn with
  | nil => simp [fibreBegins]
  | append_singleton lens L ih =>
    rw [packed_append, Fibres.pack_getLsbD _ _ he, Fibres.marked_getLsbD _ he, packed_resumed, packed_used,
      ih, fibreBegins_append]
    by_cases hl : lens = [] <;> simp [hl] <;> tauto

end

theorem State.fibres_packed {s : State} {top left : Nat} {a : Word} (hq : s.st.queue = []) (hs : s.st.stores = [])
    (rest : BitVec 32) (lens : List Nat) (hleft : lens.length ≤ left) (htop : lens.length ≤ top) (hsum : lens.sum ≤ top)
    (h : ∀ k L, lens[k]? = some L → s.nextLength a (packed rest (lens.take k)) L) :
    s.fibres top a left (top + 1) ⟨0, 0, 0, rest⟩ = s.fibres top a left (top - lens.length + 1) (packed rest lens) := by
  induction lens using List.reverseRecOn with
  | nil => rfl
  | append_singleton lens L ih =>
    simp only [List.length_append, List.length_singleton, List.sum_append, List.sum_singleton] at hleft htop hsum
    have hlen : lens.length < top := by omega
    have hL : s.nextLength a (packed rest lens) L := by
      have := h lens.length L (List.getElem?_concat_length ..)
      rwa [List.take_left] at this
    have hfuel : top - lens.length = top - (lens ++ [L]).length + 1 := by
      rw [List.length_append, List.length_singleton]; omega
    rw [ih (by omega) (by omega) (by omega), State.fibres_next hq hs (by rw [packed_n]; omega) (by rw [packed_n]; omega) hL,
      if_pos (by rw [packed_used]; omega), hfuel, packed_append]
    intro k M hk
    have hlt : k < lens.length := (List.getElem?_eq_some_iff.1 hk).1
    have := h k M (by rw [List.getElem?_append_left hlt, hk])
    rwa [List.take_append_of_le_length hlt.le] at this

/-- What `setvlf` writes once its lengths are read. -/
def State.setFibres (s : State) (o : FOps) : FibreRead → State
  | .wait => s.stall
  | .bad c a => s.trap c a
  | .poisoned line => s.consume line
  | .done f => ((s.upd fun t => { t with vl := BitVec.ofNat 12 f.used, vsg := f.vsg, vfrem := f.vfrem }).setX o.d
      (BitVec.ofNat 64 f.n)).advance

theorem exec_setvlf {s : State} {o : FOps} (hu : s.usable [o.a, o.b] [o.d]) (hq : s.st.queue = [])
    (hvl : s.st.vlFull = true) (hl : s.st.loads = []) : exec (.setvlf o) s = .next (s.setFibres o
      (s.fibres (vlmaxOf (8 * 2 ^ o.ty.toNat)) (s.st.xget o.a) (s.st.xget o.b).toNat
        (vlmaxOf (8 * 2 ^ o.ty.toNat) + 1) ⟨0, 0, 0, s.st.vfrem⟩)) := by
  refine congrArg Host.Outcome.next ?_
  rw [if_neg (by simp [Strand.busy, hq, hvl, hl]), State.gated_of_usable _ hu]
  dsimp only [intWidth]
  split <;> next h => simp only [h, State.setFibres]

theorem nextLength_packed {s : State} {a : Word} {rest : BitVec 32} {lens : List Nat} {k L : Nat} (hk : lens.length = k) :
    s.nextLength a (packed rest lens) L ↔ (k = 0 ∧ rest ≠ 0 ∧ L = rest.toNat) ∨ (¬(k = 0 ∧ rest ≠ 0) ∧ ∃ p dAttr,
      s.check .read 4 4 (a + BitVec.ofNat 64 (4 * k)) = .ok p dAttr ∧
      s.poisonAt (a + BitVec.ofNat 64 (4 * k)) p 4 = none ∧ L = ofBytes (s.placeBytes p 4)) := by
  subst hk
  have hr : (packed rest lens).resumed = true ↔ lens.length = 0 ∧ rest ≠ 0 := by
    rw [packed_resumed, List.length_eq_zero_iff]
  rw [State.nextLength, ← Bool.not_eq_true, hr, packed_n, packed_vfrem, and_assoc]
  refine or_congr_left (and_congr_right fun h => and_congr_right fun _ => ?_)
  rw [if_pos (List.length_eq_zero_iff.1 h)]

/-- What the strand keeps through a length that is set: everything but the destination and the modes. -/
theorem State.setX_advance_keeps (u : State) (d : Reg) (v : Word) : u.keepsStrand (u.setX d v).advance [d] [] :=
  State.keepsStrand_of (by simp) (State.keepsX_xset rfl rfl rfl rfl)

/-- Settles O20: `setvl` by its branch; `setvlf` by the loop over its lengths, `State.fibres_packed`, and the step that
ends it. -/
theorem setVectorLength : Obligations.SetVectorLength := by
  unfold Obligations.SetVectorLength
  refine ⟨fun o s hvl hu => ?_, fun o s hbusy => ?_, fun o s hu hq hvl hs hl => ?_⟩
  · intro top n
    have hx : exec (.setvl o) s = .next ((s.upd fun t => { t with
        vl := BitVec.ofNat 12 n, vgm := if o.mv then o.gm else t.vgm }).setX o.d (BitVec.ofNat 64 n)).advance := by
      refine congrArg Host.Outcome.next ?_
      rw [if_neg (by simp [hvl])]
      exact State.gated_of_usable (srcs := [(o.a, false)]) _ hu
    obtain ⟨hkx, hkv, hvm, hflags, htrap, -, htiles⟩ := State.setX_advance_keeps (s.upd fun t => { t with
        vl := BitVec.ofNat 12 n, vgm := if o.mv then o.gm else t.vgm }) o.d (BitVec.ofNat 64 n)
    refine ⟨_, hx, ?_, ?_, ?_, ?_, ?_, hkx, hkv, hflags, htrap, htiles, State.keepsMemory_of rfl rfl, hvm, ?_, ?_⟩
    · simp
    · simp [hvl]
    · simp [Strand.xget_xset]
    · simp
    · simp
    · simp
    · simp
  · refine congrArg Host.Outcome.next (if_pos ?_)
    rcases hbusy with h | h <;> simp [Strand.busy, h]
  · intro top left split addr has gives
    have hx := exec_setvlf hu hq hvl hl
    have htop : top ≤ 2048 := vlmaxOf_le (by have := Nat.two_pow_pos o.ty.toNat; omega)
    have hdone : ∀ {f : Fibres} {used n : Nat} {rest : BitVec 32} {bit : Nat → Prop},
        s.fibres top (s.st.xget o.a) left (top + 1) ⟨0, 0, 0, s.st.vfrem⟩ = .done f → f.used = used → f.n = n →
        f.vfrem = rest → (∀ e, e < 2048 → (f.vsg.getLsbD e = true ↔ bit e)) → gives used n rest bit := by
      rintro f _ _ _ bit hf rfl rfl rfl hbit
      obtain ⟨hkx, hkv, hvm, hflags, -⟩ := State.setX_advance_keeps (s.upd fun t => { t with
        vl := BitVec.ofNat 12 f.used, vsg := f.vsg, vfrem := f.vfrem }) o.d (BitVec.ofNat 64 f.n)
      refine ⟨_, hx.trans (congrArg _ (congrArg (s.setFibres o) hf)), ?_, ?_, ?_, ?_, ?_, ?_, hkx, hkv, hvm, hflags,
        State.keepsMemory_of rfl rfl⟩
      · simp [State.setFibres]
      · simp [State.setFibres, hvl]
      · simp [State.setFibres, Strand.xget_xset]
      · simp [State.setFibres]
      · simpa [State.setFibres] using hbit
      · simp [State.setFibres]
    refine ⟨fun h0 => ?_, fun lens hlens hsum => ?_⟩
    · exact hdone (State.fibres_end (.inl h0.symm) _) rfl rfl rfl (by simp)
    have hnext : ∀ k, k ≤ lens.length → ∀ L, has k L ↔ s.nextLength (s.st.xget o.a) (packed s.st.vfrem (lens.take k)) L := by
      intro k hk L
      rw [nextLength_packed (k := k) (by rw [List.length_take]; omega)]
    have hpacked := fun hleft htop' => State.fibres_packed (a := s.st.xget o.a) hq hs s.st.vfrem lens (top := top) (left := left) hleft htop' hsum
      fun k L hk => (hnext k (List.getElem?_eq_some_iff.1 hk).1.le L).1 (hlens k L hk)
    have hlast : ∀ L, has lens.length L → s.nextLength (s.st.xget o.a) (packed s.st.vfrem lens) L := fun L hL => by
      have := (hnext lens.length le_rfl L).1 hL
      rwa [List.take_length] at this
    refine ⟨fun hne hleft htop' hend => ?_, fun L hleft htop' hsum0 hL hlong => ?_, fun c span hleft htop' hsplit hc => ?_⟩
    · have hstop : s.fibres top (s.st.xget o.a) left (top - lens.length + 1) (packed s.st.vfrem lens) =
          .done (packed s.st.vfrem lens) := by
        by_cases hfull : lens.length = left ∨ lens.length = top
        · exact State.fibres_end (by rwa [packed_n]) _
        · obtain ⟨hpos, L, hL, hlong⟩ := (or_assoc.2 hend).resolve_left hfull
          have hr : (packed s.st.vfrem lens).resumed = false := by
            rw [← Bool.not_eq_true, packed_resumed]; exact fun h => hne h.1
          rw [State.fibres_next hq hs (by rw [packed_n]; omega) (by rw [packed_n]; omega) (hlast L hL), packed_used,
            if_neg (by omega), if_neg (by omega), Fibres.marked, hr, if_neg (by decide), ← packed_used s.st.vfrem lens]
      refine hdone ((hpacked hleft htop').trans hstop) (packed_used ..) (packed_n ..) ?_ fun e he => ?_
      · rw [packed_vfrem, if_neg hne]
      · rw [packed_vsg _ _ he]
        exact or_congr_left (and_congr_right fun _ => and_iff_left hne)
    · have hlast' := hlast L hL
      have hstop := State.fibres_next hq hs (top := top) (left := left) (f := packed s.st.vfrem lens) (by rwa [packed_n])
        (by rwa [packed_n]) hlast' (top - lens.length)
      rw [packed_used, hsum0, if_neg (by omega), if_pos rfl] at hstop
      refine hdone ((hpacked hleft.le htop'.le).trans hstop) rfl (packed_n ..) rfl fun e he => ?_
      have hnone : ¬fibreBegins lens e := fun h => by have := h.le_sum; have := h.pos; omega
      have hfirst : s.st.vfrem ≠ 0 → lens = [] := fun h => by
        cases lens with
        | nil => rfl
        | cons M rest =>
          obtain ⟨-, -, hM⟩ := (hlens 0 M rfl).resolve_right fun hread => hread.1 ⟨rfl, h⟩
          rw [List.sum_cons] at hsum0
          exact absurd (BitVec.eq_of_toNat_eq (y := 0) (by rw [← hM]; simp; omega)) h
      rw [Fibres.marked_getLsbD _ he, packed_resumed, packed_vsg _ _ he]
      simp only [split]
      tauto
    · have hr : (packed s.st.vfrem lens).resumed = false := by
        rw [← Bool.not_eq_true, packed_resumed]; exact hsplit
      have hbad := State.fibres_bad (top := top) (left := left) (f := packed s.st.vfrem lens) (by rwa [packed_n])
        (by rwa [packed_n]) hr (by rw [packed_n]; exact hc) (top - lens.length)
      rw [packed_n] at hbad
      exact hx.trans (congrArg _ (congrArg (s.setFibres o) ((hpacked hleft.le htop'.le).trans hbad)))

end Sys2Proof.Machine

/-! SUPPORT. The statement about the ends of iterations and records, which fails where a store in flight reaches the counter
of a record before its final write. -/

namespace Sys2Proof.Machine

/-- A launch of one iteration, with the record at 0x3000 and kept by the walker of die 1. -/
def racedLaunch : Launch :=
  { id := 1, ctx := 1, recAddr := 0x3000, bytes := List.replicate 128 0, die := 1, prio := 0, total := 1, next := 1, live := 0
    started := true, cancelled := false, strand := 0, clusters := [], cause := 0 }

/-- A store of 5 to the counter of that record. -/
def racedStore : SEntry :=
  { seq := 0, after := none, instr := .st ⟨4, 5, 3, 0⟩, addr := 0x3000, place := .mem 0x3000, size := 8, data := 5, cmp := 0
    dest := none, sent := true }

/-- The record counts 1 and its decrement waits for the final write, while a store of strand 512, of die 1, to the counter is
in flight to die 0. -/
def State.racedRecord : State :=
  let s := State.reset.loaded
  let clock : Vector Nat 5 := #v[0, 1, 0, 0, 0]
  { s with
    cur := 0
    args := { k := 1, word := 0x3000 }
    mem := setCells 0 0x3000 (bytesOf 8 1) s.mem
    others := [(512, { Strand.reset with ctx := 1, stores := [racedStore] })]
    dies := [(1, { s.die 1 with clock := clock })]
    flights := [⟨512, 0, 1, 0, clock⟩]
    launches := [racedLaunch]
    finishing := [⟨1, 0x3000, 0, 1⟩]
    cancelled := [] }

theorem State.racedRecord_count : State.racedRecord.recordCount 1 0x3000 = some 1 := by decide +kernel

/-- The store is applied at the home of the record before the decrement, which then leaves 4 and no final write. -/
theorem State.racedRecord_complete :
    ((State.racedRecord.completeRecord 1 0x3000).getD State.racedRecord).launches.length = 1 := by decide +kernel

/-- Refutes O56: in `State.racedRecord` the counter changes as the decrement comes to its home (R323), so that
RECORD_COMPLETE leaves the launch with the walker. -/
theorem not_iterationsAndRecordsEnd : ¬ Obligations.IterationsAndRecordsEnd := by
  unfold Obligations.IterationsAndRecordsEnd
  rintro ⟨_, hrecord, _⟩
  obtain ⟨hcomplete, _⟩ := hrecord State.racedRecord racedLaunch rfl (by decide)
  obtain ⟨t, ht, ⟨hlaunches, _⟩, _⟩ := hcomplete 1 rfl rfl State.racedRecord_count
  have hstep : t = (State.racedRecord.completeRecord 1 0x3000).getD State.racedRecord := (Host.Outcome.next.inj ht).symm
  have hlen := State.racedRecord_complete
  rw [← hstep, hlaunches] at hlen
  exact absurd hlen (by decide)

end Sys2Proof.Machine

/-! SUPPORT. How the body of a vector instruction reads memory, and how it runs at the head of the queue. -/

namespace Sys2Proof.Machine

/-! ## The head of the queue (R119) -/

section
variable {u : State} {f : VForm} {e : QEntry}

/-- The oldest entry, with no stream bound, no store queued and every source full, comes to what its body says. -/
theorem State.runHead_quiet (hq : u.st.queue = [e]) (hvl : f.readsVl = true → 0 < e.vl.toNat) (hr : e.recheck = false)
    (hs : u.st.streams = []) (hst : u.st.stores = []) (hf : u.st.vfull = -1) (hv : u.st.vstart = 0)
    (hp : u.st.vpoison = []) :
    (∀ v, f.body e 0 e.vl.toNat u = .wait v → u.runHead f = v) ∧
    (∀ v fs, f.body e 0 e.vl.toNat u = .done v fs → v.st.vpoison = [] → v.st.streams = [] →
      u.runHead f = v.upd fun t => t.retired e fs) := by
  have h0 : (f.readsVl && e.vl == 0) = false := by
    cases hr : f.readsVl with
    | false => rfl
    | true =>
      have hpos := hvl hr
      have hne : e.vl ≠ 0 := fun h0 => by rw [h0] at hpos; exact absurd hpos (by decide)
      simpa using hne
  have h1 : (f.grain != 0 && f.readsVl && decide (e.vl.toNat ≤ u.st.vstart.toNat)) = false := by
    cases hr : f.readsVl with
    | false => simp
    | true =>
      have hpos := hvl hr
      rw [hv]
      simp
      omega
  have h2 : u.vPoisoned f e = false := by simp [State.vPoisoned, hp]
  have h3 : (e.recheck && !e.rechecked) = false := by rw [hr]; rfl
  have h4 : (u.before e).outputs f = [] := State.outputs_of_nil (by exact hs) f
  have hrun : u.runHead f = match f.body e 0 e.vl.toNat u with
      | .done s' fs => (s'.healV u f e).retireWith f e fs []
      | .trap s' fs c v k => u.onceLoaded (s'.stopWith f e fs c v k)
      | .wait s' => s'
      | .poison line => u.replayPoison f e line := by
    unfold State.runHead
    rw [hq]
    simp only [h0, h1, h2, h3, h4, Bool.false_eq_true, if_false, State.attempt_quiet f e _ hs hst hf hv, List.map_nil]
      <;> rfl
  refine ⟨fun v hb => by rw [hrun, hb], fun v fs hb hp' hs' => ?_⟩
  rw [hrun, hb]
  simp only [State.healV_of_nil hp', State.retireWith_quiet _ _ _ hs']

end

theorem State.pushed_queue {s : State} (h : s.quiet) (i : Instr) (f : VForm) : (s.pushed i f).st.queue = [s.entryOf i f] := by
  rw [State.pushed_st, h.queue]; rfl

/-- A vector instruction of a quiet strand is pushed and runs at once (R118, R119). -/
theorem State.vector_runs {s : State} {i : Instr} {f : VForm} (h : s.quiet) (hf : f.fault s = none)
    (hx : s.usable (f.xs.map Prod.fst) f.xd.toList) : s.vector i f = ((s.pushed i f).runHead f).noteStart true := by
  have hst := h.entryOf_started i f
  unfold State.vector
  rw [h.beforePush i f hf hx]
  dsimp only
  rw [if_pos (by simp [State.advance, State.enqueue, State.upd, h.lockstep, QEntry.underWay, hst]), hst]
  rfl

/-- The same, where its body waits. -/
theorem State.vector_waits {s v : State} {i : Instr} {f : VForm} (h : s.quiet) (hf : f.fault s = none)
    (hx : s.usable (f.xs.map Prod.fst) f.xd.toList) (hl : f.readsVl = true → 0 < s.st.vl.toNat)
    (hb : f.body (s.entryOf i f) 0 s.st.vl.toNat (s.pushed i f) = .wait v) : s.vector i f = v.noteStart true := by
  have hrc : (s.entryOf i f).recheck = false := by simp [State.entryOf, State.captures, VForm.mark, h.rchk]
  rw [State.vector_runs h hf hx]
  refine congrArg (State.noteStart · true) ((State.runHead_quiet (State.pushed_queue h i f) hl hrc ?_ ?_ ?_ ?_ ?_).1 v hb) <;>
    rw [State.pushed_st]
  · exact h.streams
  · exact h.stores
  · exact h.vfull
  · exact h.vstart
  · exact h.vpoison

/-! ## What a pushed instruction reads (R88, R97) -/

section
variable (s : State) (i : Instr) (f : VForm)

theorem State.pushed_check (acc : Acc) (align n : Nat) (a : Word) : (s.pushed i f).check acc align n a = s.check acc align n a := by
  rw [State.pushed_rest, State.pushed_st]; rfl

theorem State.pushed_poisonAt (a : Word) (p : Place) (n : Nat) : (s.pushed i f).poisonAt a p n = s.poisonAt a p n := by
  rw [State.pushed_rest, State.pushed_st]; rfl

theorem State.pushed_placeByte (p : Place) : (s.pushed i f).placeByte p = s.placeByte p := by
  rw [State.pushed_rest, State.pushed_st]; rfl

end

/-- With no store or load in flight an entry follows nothing. -/
theorem State.afterOlder_of_nil {s : State} (hs : s.st.stores = []) (hl : s.st.loads = []) (q : QEntry) :
    s.afterOlder q = some s := by
  simp [State.afterOlder, State.flush_empty _ _ _ hs, hs, hl]

theorem State.loadByte_of_nil {s : State} (hs : s.st.stores = []) (k : Nat) (p : Place) : s.loadByte k p = s.placeByte p := by
  simp [State.loadByte, hs]

/-! ## Reading byte by byte -/

section
variable {s : State} {a : Word} {p : Nat → Place} {dA : Nat → Bool} {n : Nat}

theorem State.chkBytes_of (h : ∀ i, i < n → s.check .read 1 1 (a + BitVec.ofNat 64 i) = .ok (p i) (dA i)) :
    s.chkBytes a n = ((List.range n).map fun i => ⟨0, a + BitVec.ofNat 64 i, p i⟩, none) := by
  induction n generalizing a p dA with
  | zero => rfl
  | succ n ih =>
    have hshift : ∀ i, a + 1 + BitVec.ofNat 64 i = a + BitVec.ofNat 64 (i + 1) := fun i => by
      rw [BitVec.add_assoc, Nat.add_comm i 1, BitVec.ofNat_add]; rfl
    have h0 : s.check .read 1 1 a = .ok (p 0) (dA 0) := by simpa using h 0 (by omega)
    have hrest := ih (a := a + 1) (p := fun i => p (i + 1)) (dA := fun i => dA (i + 1)) fun i hi => by
      rw [hshift]; exact h (i + 1) (by omega)
    simp only [hshift] at hrest
    rw [State.chkBytes, h0, hrest, List.range_succ_eq_map, List.map_cons, List.map_map]
    simp [Function.comp_def]

/-- Bytes that their checks allow and that are not poisoned are read as their places hold them. -/
theorem State.readBytes_of (hs : s.st.stores = []) (h : ∀ i, i < n → s.check .read 1 1 (a + BitVec.ofNat 64 i) = .ok (p i) (dA i) ∧
      s.poisonAt (a + BitVec.ofNat 64 i) (p i) 1 = none) (q : QEntry) :
    s.readBytes q a n = .bytes ((List.range n).map fun i => s.placeByte (p i)) := by
  have hpoison : s.poisonIn 1 ((List.range n).map fun i => ⟨0, a + BitVec.ofNat 64 i, p i⟩) = none := by
    simp only [State.poisonIn, List.findSome?_eq_none_iff, List.mem_map, List.mem_range]
    rintro _ ⟨i, hi, rfl⟩
    exact (h i hi).2
  rw [State.readBytes, State.chkBytes_of fun i hi => (h i hi).1]
  simp only [hpoison, List.map_map, Function.comp_def, State.loadByte_of_nil hs]

end

/-- A field of bytes that a function gives. -/
theorem fieldOf_map_range (g : Nat → Byte) {n off k : Nat} (h : off + k ≤ n) :
    fieldOf ((List.range n).map g) off k = ofBytes ((List.range k).map fun i => g (off + i)) := by
  refine congrArg ofBytes (List.ext_getElem ?_ fun i h1 h2 => ?_)
  · simp; omega
  · simp

end Sys2Proof.Machine

/-! SUPPORT. What `cbload` and `vxf` do. -/

namespace Sys2Proof.Machine

/-! ## Codebooks (R180, R181) -/

theorem length_entriesOf (size n : Nat) (bs : List Byte) : (entriesOf size n bs).length = n := by
  induction n generalizing bs with
  | zero => rfl
  | succ n ih => rw [entriesOf, List.length_cons, ih]

/-- An entry is its bytes in the packed list. -/
theorem entriesOf_getElem? {size n i : Nat} (hi : i < n) (bs : List Byte) :
    (entriesOf size n bs)[i]? = some (fieldOf bs (i * size) size) := by
  induction n generalizing bs i with
  | zero => omega
  | succ n ih =>
    rw [entriesOf]
    cases i with
    | zero => simp [fieldOf]
    | succ i =>
      rw [List.getElem?_cons_succ, ih (by omega), fieldOf, fieldOf, List.drop_drop]
      congr 4
      rw [Nat.succ_mul, Nat.add_comm]

/-- A head that keeps to the layout of R180. -/
theorem codebookHead_of {bs : List Byte} (h1 : 1 ≤ fieldOf bs 0 1) (h2 : fieldOf bs 0 1 ≤ 8) (h3 : fieldOf bs 1 1 ≤ 2)
    (h4 : 1 ≤ fieldOf bs 2 2) (h5 : fieldOf bs 2 2 ≤ 2 ^ fieldOf bs 0 1) (h6 : fieldOf bs 4 12 = 0) :
    codebookHead bs = some (fieldOf bs 0 1, BitVec.ofNat 2 (fieldOf bs 1 1), fieldOf bs 2 2) :=
  if_pos ⟨h1, h2, h3, h4, h5, h6⟩

@[simp] theorem State.core_setCore (s : State) (k : Nat) (c : CoreSt) : (s.setCore k c).core k = c := tabGet_tabSet_self ..

theorem State.noteStart_codebooks (s : State) (b : Bool) :
    ((s.noteStart b).core (coreOf s.cur)).codebooks = (s.core (coreOf s.cur)).codebooks := by
  cases b
  · rfl
  · rw [State.noteStart, if_pos rfl, State.core_setCore]

/-- Only the strand and the memories are spoken of. -/
theorem State.vectorDone.congr {s t t' : State} {dx dv : List Reg} (h : s.vectorDone t dx dv) (hst : t'.st = t.st)
    (hm : t'.mem = t.mem) (hh : t'.hostMem = t.hostMem) : s.vectorDone t' dx dv := by
  obtain ⟨⟨h1, h2, h3, h4, h5, h6, h7, h8⟩, h9, h10⟩ := h
  refine ⟨⟨?_, ?_, ?_, ?_, ?_, ?_, ?_, ?_⟩, ?_, ?_⟩ <;>
    simp only [State.keepsX, State.keepsV, State.keepsTrap, State.keepsModes, State.keepsTiles, State.keepsMemory,
      hst, hm, hh] <;> assumption

/-- The codebook that 16 bytes and the entries behind them describe. -/
def bookOf (a : Word) (g : Nat → Byte) : Codebook :=
  let f := fun off n => ofBytes ((List.range n).map fun i => g (off + i))
  let size := 2 ^ f 1 1
  ⟨a, f 0 1, BitVec.ofNat 2 (f 1 1), entriesOf size (f 2 2) ((List.range (f 2 2 * size)).map fun i => g (16 + i))⟩

/-- The core with a codebook in one of its slots. -/
def CoreSt.withBook (c : CoreSt) (k : Fin 4) (b : Codebook) : CoreSt := { c with codebooks := c.codebooks.set k (some b) }

theorem formCbload_body {u : State} {o : XUn} {q : QEntry} {p : Nat → Place} {dA : Nat → Bool} {lo hi : Nat}
    (hs : u.st.stores = []) (hl : u.st.loads = []) (hbusy : u.slotBusy (o.d.truncate 2) = false)
    (halign : q.a.toNat % 16 = 0) :
    let f := fun off n => ofBytes ((List.range n).map fun i => u.placeByte (p (off + i)))
    (∀ i, i < 16 + f 2 2 * 2 ^ f 1 1 → u.check .read 1 1 (q.a + BitVec.ofNat 64 i) = .ok (p i) (dA i) ∧
      u.poisonAt (q.a + BitVec.ofNat 64 i) (p i) 1 = none) →
    1 ≤ f 0 1 → f 0 1 ≤ 8 → f 1 1 ≤ 2 → 1 ≤ f 2 2 → f 2 2 ≤ 2 ^ f 0 1 → f 4 12 = 0 →
    (formCbload o).body q lo hi u = .done (u.setCore (coreOf u.cur) ((u.core (coreOf u.cur)).withBook
      ⟨o.d.toNat % 4, by omega⟩ (bookOf q.a fun i => u.placeByte (p i)))) [] := by
  intro f hread h1 h2 h3 h4 h5 h6
  have hf : ∀ off k, off + k ≤ 16 → fieldOf ((List.range 16).map fun i => u.placeByte (p i)) off k = f off k :=
    fun off k h => fieldOf_map_range _ h
  have hhead : codebookHead ((List.range 16).map fun i => u.placeByte (p i)) = some (f 0 1, BitVec.ofNat 2 (f 1 1), f 2 2) := by
    rw [codebookHead_of] <;> simp only [hf _ _ (show 0 + 1 ≤ 16 by decide), hf _ _ (show 1 + 1 ≤ 16 by decide), hf _ _ (show 2 + 2 ≤ 16 by decide),
      hf _ _ (show 4 + 12 ≤ 16 by decide)] <;> assumption
  have hsize : intBytes (BitVec.ofNat 2 (f 1 1)) = 2 ^ f 1 1 := by
    rw [intBytes, BitVec.toNat_ofNat, Nat.mod_eq_of_lt (by omega)]
  have hfirst := State.readBytes_of (n := 16) hs (fun i hi => hread i (by omega)) q
  have hrest := State.readBytes_of (a := q.a + 16) (p := fun i => p (16 + i)) (dA := fun i => dA (16 + i))
    (n := f 2 2 * 2 ^ f 1 1) hs (fun i hi => by
      have h16 : q.a + 16 + BitVec.ofNat 64 i = q.a + BitVec.ofNat 64 (16 + i) := by
        rw [BitVec.add_assoc, BitVec.ofNat_add]; rfl
      rw [h16]
      exact hread (16 + i) (by omega)) q
  simp only [formCbload, hbusy, Bool.false_eq_true, if_false, State.afterOlder_of_nil hs hl, halign, bne_self_eq_false,
    Bool.false_and, hfirst, hhead, hsize, hrest]
  rfl

theorem CoreSt.withBook_same (c : CoreSt) (k : Fin 4) (b : Codebook) : (c.withBook k b).codebooks[k.val]! = some b := by
  rw [getElem!_pos (c.withBook k b).codebooks k.val k.isLt, CoreSt.withBook, Vector.getElem_set_self]

theorem CoreSt.withBook_of_ne (c : CoreSt) {k : Fin 4} (b : Codebook) {j : Nat} (hj : j < 4) (hne : j ≠ k) :
    (c.withBook k b).codebooks[j]! = c.codebooks[j]! := by
  rw [getElem!_pos (c.withBook k b).codebooks j hj, getElem!_pos c.codebooks j hj, CoreSt.withBook, Vector.getElem_set_ne _ _ (Ne.symm hne)]

/-- A push is nothing to the other strands of the core. -/
theorem State.pushed_slotBusy (s : State) (i : Instr) (f : VForm) (k : BitVec 2) : (s.pushed i f).slotBusy k = s.slotBusy k := by
  refine List.any_congr rfl fun j => ?_
  change (4 * coreOf s.cur + j != s.cur && _ && _) = (4 * coreOf s.cur + j != s.cur && _ && _)
  by_cases h : 4 * coreOf s.cur + j = s.cur
  · simp only [h, bne_self_eq_false, Bool.false_and]
  · have hother : (s.pushed i f).strand (4 * coreOf s.cur + j) = s.strand (4 * coreOf s.cur + j) := by
      simp only [State.strand, beq_iff_eq]
      rw [if_neg h]
      exact if_neg h
    have hcur : (s.pushed i f).cur = s.cur := rfl
    rw [hcur, hother]

/-- `cbload` of a quiet strand fills its slot and nothing else. -/
theorem exec_cbload {s : State} {o : XUn} {p : Nat → Place} {dA : Nat → Bool} (h : s.quiet) (hu : s.usable [o.a] [])
    (halign : (s.st.xget o.a).toNat % 16 = 0) (hbusy : s.slotBusy (o.d.truncate 2) = false) :
    let a := s.st.xget o.a
    let f := fun off n => ofBytes ((List.range n).map fun i => s.placeByte (p (off + i)))
    (∀ i, i < 16 + f 2 2 * 2 ^ f 1 1 → s.check .read 1 1 (a + BitVec.ofNat 64 i) = .ok (p i) (dA i) ∧
      s.poisonAt (a + BitVec.ofNat 64 i) (p i) 1 = none) →
    1 ≤ f 0 1 → f 0 1 ≤ 8 → f 1 1 ≤ 2 → 1 ≤ f 2 2 → f 2 2 ≤ 2 ^ f 0 1 → f 4 12 = 0 →
    ∃ t, exec (.cbload o) s = .next t ∧ (t.core (coreOf s.cur)).codebooks = ((s.core (coreOf s.cur)).withBook
      ⟨o.d.toNat % 4, by omega⟩ (bookOf a fun i => s.placeByte (p i))).codebooks ∧
      s.vectorDone t [] [] ∧ t.st.vm = s.st.vm ∧ s.keepsFlags t := by
  intro a f hread h1 h2 h3 h4 h5 h6
  have hpst := State.pushed_st s (.cbload o) (formCbload o)
  have hb := formCbload_body (u := s.pushed (.cbload o) (formCbload o)) (o := o) (q := s.entryOf (.cbload o) (formCbload o))
    (p := p) (dA := dA) (lo := 0) (hi := s.st.vl.toNat) (by rw [hpst]; exact h.stores) (by rw [hpst]; exact h.loads)
    ((State.pushed_slotBusy ..).trans hbusy) halign
  simp only [State.pushed_check, State.pushed_poisonAt, State.pushed_placeByte] at hb
  have hvec := State.vector_done (f := formCbload o) h (State.fault_none h rfl rfl (fun hr => absurd hr Bool.false_ne_true)
      fun n hn => absurd (show none = some n from hn) nofun) hu (fun hr => absurd hr Bool.false_ne_true)
    (by exact (congrArg Strand.vpoison hpst).trans h.vpoison) (hb hread h1 h2 h3 h4 h5 h6)
  rw [State.retireWith_quiet _ _ _ (by exact (congrArg Strand.streams hpst).trans h.streams)] at hvec
  have hqueue := State.pushed_queue h (.cbload o) (formCbload o)
  have hdone := (State.vectorDone_of (fs := []) (dx := []) (dv := []) h (u := (s.pushed (.cbload o) (formCbload o)).st)
    (i := .cbload o) (f := formCbload o) rfl rfl (fun r _ => by rw [hpst]; rfl) (fun r _ => by rw [hpst]; exact ⟨rfl, rfl⟩)).1
  refine ⟨_, congrArg Host.Outcome.next hvec, ?_, State.vectorDone.noteStart ?_ true, ?_, ?_⟩
  · exact (State.noteStart_codebooks _ true).trans (congrArg CoreSt.codebooks (State.core_setCore ..))
  · exact hdone.congr rfl rfl rfl
  · rw [State.noteStart_st]
    have hvm : (s.pushed (.cbload o) (formCbload o)).st.vm = s.st.vm := by rw [hpst]
    exact (congrArg Strand.vm (Strand.retired_one [] hqueue rfl)).trans hvm
  · have hkeep := Strand.retired_nil (s := s) hqueue rfl (by rw [hpst]; exact ⟨rfl, rfl⟩)
    simp only [State.keepsFlags, State.noteStart_st]
    exact hkeep

/-- Indices that the codebook answers stop nothing. -/
theorem State.badIndex_of {s : State} {o : VUn} {iw n e : Nat} {look : Nat → Option Nat}
    (h : ∀ k, e ≤ k → k < e + n → s.st.on o.m k = true → (look (s.elem o.a iw k)).isSome = true) :
    s.badIndex o iw look n e = none := by
  induction n generalizing e with
  | zero => rfl
  | succ n ih =>
    rw [State.badIndex, if_neg, ih fun k hk hk' => h k (by omega) (by omega)]
    cases hon : s.st.on o.m e with
    | false => simp
    | true => simp [← Option.not_isSome, h e le_rfl (by omega) hon]

/-- `vxf` over indices that its codebook answers is element-wise (R181). -/
theorem formVxf_body {u : State} {o : VUn} {c : Codebook} {q : QEntry} {hi : Nat} (hc : u.codebook u.st.cbsel = some c)
    (hty : c.etype = o.ty) (hall : ∀ k, k < hi → u.st.on o.m k = true → u.elem o.a c.iw k < c.entries.length) :
    (formVxf o).body q 0 hi u = u.lanesTo o.d (intWidth o.ty) 0 hi
      (u.masked o.m fun k => (c.entries.getD (u.elem o.a c.iw k) 0, 0)) := by
  have hbad : u.badIndex o c.iw c.entry hi 0 = none := State.badIndex_of fun k _ hk hon => by
    simpa [Codebook.entry] using hall k (by omega) hon
  simp only [formVxf, hc, hty, beq_self_eq_true, if_true, Nat.sub_zero, hbad]
  rfl

theorem exec_vxf {s : State} {o : VUn} {c : Codebook} (h : s.quiet) (hl : s.vlFits (8 * 2 ^ o.ty.toNat))
    (hc : s.codebook s.st.cbsel = some c) (hty : c.etype = o.ty)
    (hall : ∀ k, k < s.st.vl.toNat → s.st.on o.m k = true → s.elem o.a c.iw k < c.entries.length) :
    ∃ t, exec (.vxf o) s = .next t ∧
      s.lanesAre t o.d (8 * 2 ^ o.ty.toNat) o.m (fun k => c.entries.getD (s.elem o.a c.iw k) 0) ∧
      t.st.tag o.d = 0 ∧ s.vectorDone t [] [o.d] ∧ t.st.vm = s.st.vm ∧ s.keepsFlags t := by
  have hcb : (s.pushed (.vxf o) (formVxf o)).codebook (s.pushed (.vxf o) (formVxf o)).st.cbsel = some c := by
    rw [State.pushed_st]; exact hc
  have hb := formVxf_body (q := s.entryOf (.vxf o) (formVxf o)) (hi := s.st.vl.toNat) hcb hty fun k hk hon => by
    rw [State.pushed_elem]; exact hall k hk (by rwa [State.pushed_on] at hon)
  simp only [State.pushed_elem] at hb
  have hfault : (formVxf o).fault s = none := State.fault_none h rfl rfl (fun hr => absurd hr Bool.false_ne_true)
    fun n hn => by
      have hn' : vlmaxOf (8 * 2 ^ o.ty.toNat) = n := Option.some.inj hn
      exact hn' ▸ hl.2
  obtain ⟨t, ht, hdone, htag, hvm, hlanes, -, hflags⟩ := State.vector_masked h hfault rfl hl (by have := Nat.two_pow_pos o.ty.toNat; omega)
    rfl rfl rfl rfl hb
  exact ⟨t, congrArg Host.Outcome.next ht, hlanes, htag, hdone, hvm, hflags fun _ => rfl⟩

end Sys2Proof.Machine

/-! SUPPORT. What the body of `vwait` reads and leaves (R182, R183). -/

namespace Sys2Proof.Machine

/-! ## The flags that are read -/

section
variable {s : State} {x : VAccess} {addr : Nat → Word} {p : Nat → Place} {dA : Nat → Bool}

/-- One part of each enabled element, where every one of them passes its checks. -/
theorem State.gather_of (hparts : ∀ k, x.parts k = [(k, addr k)]) {n e : Nat}
    (h : ∀ k, e ≤ k → k < e + n → s.st.on x.m k = true → s.chkPart x (addr k) = .ok (p k) (dA k)) :
    s.gather x n e = (((List.range' e n).filter (s.st.on x.m)).map fun k => ⟨k, addr k, p k⟩, none) := by
  induction n generalizing e with
  | zero => rfl
  | succ n ih =>
    have hrest := ih (e := e + 1) fun k hk hk' => h k (by omega) (by omega)
    rw [State.gather, List.range'_succ, hrest]
    cases hon : s.st.on x.m e with
    | false => rw [if_neg (by decide), List.filter_cons_of_neg (by simp [hon])]
    | true =>
      rw [if_pos rfl, List.filter_cons_of_pos hon, hparts, State.chkElem, h e le_rfl (by omega) hon]
      rfl

end

/-- The bits below `n` become what `f` says. -/
theorem getLsbD_foldl_setBit (f : Nat → Bool) (n : Nat) (v : MaskReg) {k : Nat} (hk : k < 2048) :
    ((List.range n).foldl (fun v e => setBit v e (f e)) v).getLsbD k = if k < n then f k else v.getLsbD k := by
  induction n with
  | zero => rfl
  | succ n ih =>
    rw [List.range_succ, List.foldl_append, List.foldl_cons, List.foldl_nil, setBit_getLsbD _ _ _ _ hk, ih]
    by_cases h : k = n
    · simp [h]
    · have : k < n + 1 ↔ k < n := by omega
      simp [h, this]

/-! ## The body of `vwait` -/

section
variable (s : State) (o : VWaitOps) (p : Nat → Place)

/-- Bytes of a flag. -/
def flagBytes (o : VWaitOps) : Nat := if o.wide then 8 else 4

/-- The flag of element `k` holds its condition. -/
def State.flagMet (k : Nat) : Bool :=
  condHolds o.cond (8 * flagBytes o) (ofBytes (s.placeBytes (p k) (flagBytes o))) (s.elem (regAt o.a 1) 64 k % 2 ^ (8 * flagBytes o))

/-- The enabled elements below `vl` whose flags do not hold. -/
def State.unmet : List Nat := ((List.range s.st.vl.toNat).filter (s.st.on o.m)).filter fun k => !s.flagMet o p k

/-- `vwait` has retired: the unmet flags stand in `vm`, their number in xd (R183). -/
def State.flagsSeen : State :=
  (s.upd fun t => { t with vm :=
    (List.range s.st.vl.toNat).foldl (fun v e => setBit v e (decide (e ∈ s.unmet o p))) s.st.vm }).setX o.b
      (BitVec.ofNat 64 (s.unmet o p).length)

variable {s o p}

theorem State.mem_unmet {k : Nat} : k ∈ s.unmet o p ↔ (k < s.st.vl.toNat ∧ s.st.on o.m k = true) ∧ s.flagMet o p k = false := by
  simp only [State.unmet, List.mem_filter, List.mem_range, Bool.not_eq_true']

/-- The part of element `k`. -/
def State.flagPart (s : State) (o : VWaitOps) (p : Nat → Place) (k : Nat) : Part :=
  ⟨k, BitVec.ofNat 64 (s.elem o.a 64 k), p k⟩

section
variable {dA : Nat → Bool}
  (hreach : s.reaches .read o.m (flagBytes o) (fun k => BitVec.ofNat 64 (s.elem o.a 64 k)) p dA)
include hreach

theorem State.gather_flags : s.gather (flagAccess s o) s.st.vl.toNat 0 =
    (((List.range s.st.vl.toNat).filter (s.st.on o.m)).map (s.flagPart o p), none) := by
  have h := State.gather_of (s := s) (x := flagAccess s o) (addr := fun k => BitVec.ofNat 64 (s.elem o.a 64 k)) (p := p)
    (dA := dA) (fun _ => rfl) (n := s.st.vl.toNat) (e := 0) fun k _ hk hon => by
      obtain ⟨hcan, hal, hchk⟩ := hreach k (by omega) hon
      have hmis : (flagAccess s o).mis (BitVec.ofNat 64 (s.elem o.a 64 k)) = false :=
        decide_eq_false (not_not.2 hal)
      have hchk' : s.check (flagAccess s o).acc 1 (flagAccess s o).size (BitVec.ofNat 64 (s.elem o.a 64 k))
          (flagAccess s o).sorted = .ok (p k) (dA k) := hchk
      rw [State.chkPart, hcan, hmis, hchk']
      rfl
  rw [h, List.range_eq_range']
  rfl

end

theorem State.flags_unpoisoned (h : s.unpoisoned o.m (flagBytes o) (fun k => BitVec.ofNat 64 (s.elem o.a 64 k)) p) :
    s.poisonIn (flagBytes o) (((List.range s.st.vl.toNat).filter (s.st.on o.m)).map (s.flagPart o p)) = none := by
  simp only [State.poisonIn, List.findSome?_eq_none_iff, List.mem_map, List.mem_filter, List.mem_range]
  rintro _ ⟨k, ⟨hk, hon⟩, rfl⟩
  exact h k hk hon

/-- The parts that do not hold are those of the unmet elements. -/
theorem State.unmet_parts (hs : s.st.stores = []) (q : QEntry) :
    (((List.range s.st.vl.toNat).filter (s.st.on o.m)).map (s.flagPart o p)).filter (fun x =>
      !condHolds o.cond (8 * flagBytes o) (s.partValue q (flagBytes o) x)
        (s.elem (regAt o.a 1) 64 x.slot % 2 ^ (8 * flagBytes o))) = (s.unmet o p).map (s.flagPart o p) := by
  rw [List.filter_map]
  refine congrArg (List.map _) (List.filter_congr fun k _ => ?_)
  simp only [Function.comp_apply, State.partValue, State.loadByte_of_nil hs]
  rfl

theorem formVwait_body {dA : Nat → Bool} (hs : s.st.stores = []) (hl : s.st.loads = [])
    (hreach : s.reaches .read o.m (flagBytes o) (fun k => BitVec.ofNat 64 (s.elem o.a 64 k)) p dA)
    (hpoison : s.unpoisoned o.m (flagBytes o) (fun k => BitVec.ofNat 64 (s.elem o.a 64 k)) p) (q : QEntry) (lo : Nat) :
    (formVwait o).body q lo s.st.vl.toNat s = if s.unmet o p = [] ∨ (s.st.wto ≠ 0 ∧ s.st.watchOut = true) then
      .done (s.flagsSeen o p) [] else .wait (s.upd fun t => { t with watch := true }) := by
  have hp : s.poisonIn (flagAccess s o).size (((List.range s.st.vl.toNat).filter (s.st.on o.m)).map (s.flagPart o p)) = none :=
    State.flags_unpoisoned hpoison
  have hu : (((List.range s.st.vl.toNat).filter (s.st.on o.m)).map (s.flagPart o p)).filter (fun x =>
      !condHolds o.cond (8 * (flagAccess s o).size) (s.partValue q (flagAccess s o).size x)
        (s.elem (regAt o.a 1) 64 x.slot % 2 ^ (8 * (flagAccess s o).size))) = (s.unmet o p).map (s.flagPart o p) :=
    State.unmet_parts hs q
  have hany : ∀ e, (((s.unmet o p).map (s.flagPart o p)).any fun x => x.slot == e) = decide (e ∈ s.unmet o p) := fun e => by
    rw [List.any_map, Bool.eq_iff_iff, decide_eq_true_iff, List.any_eq_true]
    simp [State.flagPart]
  have hif : ((s.unmet o p).isEmpty || (s.st.wto != 0 && s.st.watchOut)) = true ↔
      s.unmet o p = [] ∨ (s.st.wto ≠ 0 ∧ s.st.watchOut = true) := by
    rw [Bool.or_eq_true, List.isEmpty_iff, Bool.and_eq_true, bne_iff_ne]
  simp only [formVwait, State.afterOlder_of_nil hs hl, State.gather_flags hreach, hp, hu, List.isEmpty_map, hany,
    List.length_map, hif]
  rfl

end

end Sys2Proof.Machine

/-! SUPPORT. How `vwait` retires, and how it runs in a quiet strand. -/

namespace Sys2Proof.Machine

/-! ## What a pushed `vwait` sees -/

section
variable (s : State) (i : Instr) (f : VForm) (o : VWaitOps) (p : Nat → Place)

theorem State.pushed_unmet : (s.pushed i f).unmet o p = s.unmet o p := by
  have hvl : (s.pushed i f).st.vl = s.st.vl := by rw [State.pushed_st]
  have hon : (s.pushed i f).st.on o.m = s.st.on o.m := funext fun k => State.pushed_on ..
  have hmet : (s.pushed i f).flagMet o p = s.flagMet o p := funext fun k => by
    simp only [State.flagMet, State.pushed_elem, State.placeBytes, State.pushed_placeByte]
  simp only [State.unmet, hvl, hon, hmet]

variable {s o p}

theorem State.reaches.pushed {acc : Acc} {m : Bool} {n : Nat} {addr : Nat → Word} {dA : Nat → Bool}
    (h : s.reaches acc m n addr p dA) : (s.pushed i f).reaches acc m n addr p dA := fun k hk hon => by
  have hvl : (s.pushed i f).st.vl = s.st.vl := by rw [State.pushed_st]
  rw [State.pushed_on] at hon
  rw [State.pushed_check]
  exact h k (hvl ▸ hk) hon

theorem State.unpoisoned.pushed {m : Bool} {n : Nat} {addr : Nat → Word} (h : s.unpoisoned m n addr p) :
    (s.pushed i f).unpoisoned m n addr p := fun k hk hon => by
  have hvl : (s.pushed i f).st.vl = s.st.vl := by rw [State.pushed_st]
  rw [State.pushed_on] at hon
  rw [State.pushed_poisonAt]
  exact h k (hvl ▸ hk) hon

end

/-! ## What `vwait` leaves -/

section
variable {s : State} {o : VWaitOps} {p : Nat → Place}

theorem State.flagsSeen_vm {k : Nat} (hk : k < 2048) : (s.flagsSeen o p).st.vm.getLsbD k =
    if k < s.st.vl.toNat then decide (k ∈ s.unmet o p) else s.st.vm.getLsbD k := by
  rw [State.flagsSeen, State.setX_st, Strand.xset_vm]
  exact getLsbD_foldl_setBit _ _ _ hk

/-- It writes `vm` and one x register. -/
theorem State.flagsSeen_st : (s.flagsSeen o p).st = { s.st with
    vm := (s.flagsSeen o p).st.vm, x := (s.flagsSeen o p).st.x, xfull := (s.flagsSeen o p).st.xfull
    xpend := (s.flagsSeen o p).st.xpend, xpoison := (s.flagsSeen o p).st.xpoison } := by
  rw [State.flagsSeen, State.setX_st]
  unfold Strand.xset
  split <;> rfl

/-- As many flags are unmet as `vm` marks. -/
theorem State.length_unmet {v : MaskReg} (h : ∀ k, k < s.st.vl.toNat → v.getLsbD k = decide (k ∈ s.unmet o p)) :
    (s.unmet o p).length = (List.range s.st.vl.toNat).countP (v.getLsbD ·) := by
  rw [State.unmet, List.filter_filter, ← List.countP_eq_length_filter]
  refine List.countP_congr fun k hk => ?_
  rw [List.mem_range] at hk
  rw [h k hk, decide_eq_true_iff, State.mem_unmet]
  simp only [Bool.and_eq_true, Bool.not_eq_true', hk, true_and, and_comm]

theorem formVwait_fault (h : s.quiet) (hin : s.st.inSection = false) (ha : o.a.toNat < 31) (hl : s.vlFits 64) :
    (formVwait o).fault s = none := by
  refine State.fault_none h ?_ ?_ (fun hr => absurd hr Bool.false_ne_true) fun n hn => ?_
  · simp [formVwait, hin]
  · exact decide_eq_true (by omega)
  · have hn' : 256 = n := Option.some.inj hn
    exact hn' ▸ hl.2

theorem State.flagsSeen_x (r : Reg) : (s.flagsSeen o p).st.isFull o.b = true ∧
    (s.flagsSeen o p).st.xget o.b = (if o.b = 0 then 0 else BitVec.ofNat 64 (s.unmet o p).length) ∧
    (r ≠ o.b → (s.flagsSeen o p).st.xget r = s.st.xget r ∧ (s.flagsSeen o p).st.isFull r = s.st.isFull r) := by
  rw [State.flagsSeen, State.setX_st]
  exact ⟨Strand.isFull_xset_self .., Strand.xget_xset .., fun hr => ⟨Strand.xget_xset_of_ne _ _ _ _ hr, Strand.isFull_xset_of_ne _ _ _ _ hr⟩⟩

/-- A sleeping `vwait` whose time-out has passed retires with what it has seen (R183). -/
theorem exec_retire_vwait {e : QEntry} (hq : s.st.queue = [e]) (hi : e.instr = .vwait o) (hvl : e.vl = s.st.vl)
    (hl : 0 < s.st.vl.toNat) (hr : e.recheck = false) (hstart : e.started = true) (hrun : s.st.run = .running)
    (hrest : s.st.restoring = false) (hs : s.st.streams = []) (hst : s.st.stores = []) (hf : s.st.vfull = -1)
    (hv : s.st.vstart = 0) (hp : s.st.vpoison = [])
    (hb : (formVwait o).body e 0 s.st.vl.toNat s = .done (s.flagsSeen o p) []) :
    exec .vectorEntryRetire s = .next ((s.flagsSeen o p).upd fun t => t.retired e []) := by
  have hunder : e.underWay = true := by rw [QEntry.underWay, hstart]; rfl
  have hhead : s.st.startedHead = some e := by
    rw [Strand.startedHead, hrun, hrest, hq]
    exact Option.filter_some_pos hunder
  have hretire : s.retireStep = s.runHead (formVwait o) := by
    rw [State.retireStep, hhead, Option.bind_some, formOf, hi]
  rw [← hvl] at hb hl
  refine (congrArg Host.Outcome.next (hretire.trans
    ((State.runHead_quiet hq (fun _ => hl) hr hs hst hf hv hp).2 _ _ hb ?_ ?_)))
  · rw [State.flagsSeen_st]; exact hp
  · rw [State.flagsSeen_st]; exact hs

end

/-! ## A `vwait` of a quiet strand -/

section
variable {s : State} {o : VWaitOps} {p : Nat → Place} {dA : Nat → Bool} (h : s.quiet) (hin : s.st.inSection = false)
  (ha : o.a.toNat < 31) (hl : s.vlFits 64) (hu : s.usable [] [o.b])
  (hreach : s.reaches .read o.m (flagBytes o) (fun k => BitVec.ofNat 64 (s.elem o.a 64 k)) p dA)
  (hpoison : s.unpoisoned o.m (flagBytes o) (fun k => BitVec.ofNat 64 (s.elem o.a 64 k)) p)
include h

section
include hreach hpoison

/-- What it comes to as it runs at the head of the queue. -/
theorem pushed_vwait_body :
    (formVwait o).body (s.entryOf (.vwait o) (formVwait o)) 0 s.st.vl.toNat (s.pushed (.vwait o) (formVwait o)) =
      if s.unmet o p = [] ∨ (s.st.wto ≠ 0 ∧ s.st.watchOut = true) then
        .done ((s.pushed (.vwait o) (formVwait o)).flagsSeen o p) []
      else .wait ((s.pushed (.vwait o) (formVwait o)).upd fun t => { t with watch := true }) := by
  obtain ⟨u, hu⟩ : ∃ u, u = s.pushed (.vwait o) (formVwait o) := ⟨_, rfl⟩
  have hpst := State.pushed_st s (.vwait o) (formVwait o)
  rw [← hu] at hpst ⊢
  have hvl : u.st.vl = s.st.vl := by rw [hpst]
  have hwto : u.st.wto = s.st.wto := by rw [hpst]
  have hout : u.st.watchOut = s.st.watchOut := by rw [hpst]
  have haddr : (fun k => BitVec.ofNat 64 (u.elem o.a 64 k)) = fun k => BitVec.ofNat 64 (s.elem o.a 64 k) :=
    funext fun k => by rw [hu, State.pushed_elem]
  have hb := formVwait_body (s := u) (o := o) (p := p) (dA := dA) (by rw [hpst]; exact h.stores)
    (by rw [hpst]; exact h.loads) (by rw [haddr, hu]; exact hreach.pushed _ _) (by rw [haddr, hu]; exact hpoison.pushed _ _)
    (s.entryOf (.vwait o) (formVwait o)) 0
  have hunmet : u.unmet o p = s.unmet o p := by rw [hu, State.pushed_unmet]
  rwa [hvl, hwto, hout, hunmet] at hb

end

include hin ha hl hu hreach hpoison

/-- Where every flag holds, it retires at once (R182). -/
theorem exec_vwait_met (hmet : s.unmet o p = []) :
    ∃ t, exec (.vwait o) s = .next t ∧ s.maskIs t false (fun _ => false) ∧ t.st.xget o.b = 0 ∧
      t.st.isFull o.b = true ∧ s.vectorDone t [o.b] [] ∧ s.keepsFlags t := by
  have hpst := State.pushed_st s (.vwait o) (formVwait o)
  have hb := pushed_vwait_body h hreach hpoison
  rw [if_pos (.inl hmet)] at hb
  have hseen := State.flagsSeen_st (s := s.pushed (.vwait o) (formVwait o)) (o := o) (p := p)
  have hx := State.flagsSeen_x (s := s.pushed (.vwait o) (formVwait o)) (o := o) (p := p)
  have hvm : ∀ k, k < 2048 → ((s.pushed (.vwait o) (formVwait o)).flagsSeen o p).st.vm.getLsbD k =
      if k < s.st.vl.toNat then false else s.st.vm.getLsbD k := fun k hk => by
    rw [State.flagsSeen_vm hk, State.pushed_unmet, hmet, hpst]
    simp
  obtain ⟨u, hu'⟩ : ∃ u, u = ((s.pushed (.vwait o) (formVwait o)).flagsSeen o p).st := ⟨_, rfl⟩
  have hstate : (s.pushed (.vwait o) (formVwait o)).flagsSeen o p = { s with st := u } := by rw [hu']; rfl
  rw [hstate] at hb
  rw [← hu'] at hseen hx hvm
  have hqueue : u.queue = [s.entryOf (.vwait o) (formVwait o)] := by rw [hseen, hpst, h.queue]; rfl
  have hvec := State.vector_next h (formVwait_fault h hin ha hl) hu (fun _ => hl.1) (by rw [hseen, hpst]; exact h.streams)
    (by rw [hseen, hpst]; exact h.vpoison) hb
  have hdone := (State.vectorDone_of (fs := []) (dx := [o.b]) (dv := []) h hseen
    (State.wtags_plain _ (fun h0 => absurd hl.1 (by rw [h0]; decide)) rfl) (fun r _ => by rw [hseen, hpst]; rfl) (fun r hr => by
      have hne : r ≠ o.b := by simpa using hr
      obtain ⟨h1, h2⟩ := (hx r).2.2 hne
      obtain ⟨h3, h4⟩ := State.pushed_x_of_ne (s := s) (i := .vwait o) (f := formVwait o) rfl hne
      exact ⟨h1.trans h3, h2.trans h4⟩)).1
  refine ⟨_, congrArg Host.Outcome.next hvec, fun k hk => ?_, ?_, ?_, hdone.noteStart true, ?_⟩
  · rw [State.noteStart_st, Strand.retired_one [] hqueue rfl]
    simpa [Strand.on] using hvm k hk
  · rw [State.noteStart_st, Strand.retired_one [] hqueue rfl]
    refine (hx o.b).2.1.trans ?_
    rw [State.pushed_unmet, hmet, List.length_nil]
    exact ite_self _
  · rw [State.noteStart_st, Strand.retired_one [] hqueue rfl]
    exact (hx o.b).1
  · have hkeep := Strand.retired_nil (s := s) hqueue rfl (by rw [hseen, hpst]; exact ⟨rfl, rfl⟩)
    simp only [State.keepsFlags, State.noteStart_st]
    exact hkeep

/-- With an unmet flag it sleeps at the head of the queue (R183). -/
theorem exec_vwait_unmet (hmet : s.unmet o p ≠ []) (hout : s.st.watchOut = false) :
    ∃ t, exec (.vwait o) s = .next t ∧ t.st.watch = true ∧ t.st.queue.map QEntry.instr = [.vwait o] ∧
      (o.b ≠ 0 → t.st.isFull o.b = false) ∧ t.st.vm = s.st.vm ∧ t.st.pc = s.st.pc + 4 ∧ s.keepsRest t [o.b] [] := by
  have hpst := State.pushed_st s (.vwait o) (formVwait o)
  have hb := pushed_vwait_body h hreach hpoison
  rw [if_neg (by simp [hmet, hout])] at hb
  have hvec := State.vector_waits h (formVwait_fault h hin ha hl) hu (fun _ => hl.1) hb
  refine ⟨_, congrArg Host.Outcome.next hvec, ?_, ?_, fun hne => ?_, ?_, ?_, State.keepsRest_of ?_ (fun r hr => ?_) rfl rfl⟩ <;>
    simp only [State.noteStart_st, State.upd_st]
  · rw [State.pushed_queue h]; rfl
  · exact (congrArg (fun t => Strand.isFull t o.b) hpst).trans (Strand.isFull_xempty_self s.st hne)
  · rw [hpst]
  · rw [hpst]
  · rw [hpst]; rfl
  · exact State.pushed_x_of_ne (f := formVwait o) rfl (by simpa using hr)

end

end Sys2Proof.Machine

/-! SUPPORT. The statement about codebooks and flag waits. -/

namespace Sys2Proof.Machine

theorem bookOf_entries {a : Word} {g : Nat → Byte} {i : Nat} :
    let f := fun off n => ofBytes ((List.range n).map fun i => g (off + i))
    i < f 2 2 → (bookOf a g).entries[i]? = some (f (16 + i * 2 ^ f 1 1) (2 ^ f 1 1)) := by
  intro f hi
  refine (entriesOf_getElem? hi _).trans (congrArg some ((fieldOf_map_range _ ?_).trans ?_))
  · calc i * 2 ^ f 1 1 + 2 ^ f 1 1 = (i + 1) * 2 ^ f 1 1 := (Nat.succ_mul ..).symm
      _ ≤ f 2 2 * 2 ^ f 1 1 := Nat.mul_le_mul_right _ hi
  · simp only [f, Nat.add_assoc]

/-- Settles O43: each instruction of a quiet strand runs as its body reads memory; the flags that do not hold are those
that `vwait` marks, and it sleeps while there is one and its time-out has not passed. -/
theorem codebooksAndFlagWaits : Obligations.CodebooksAndFlagWaits := by
  unfold Obligations.CodebooksAndFlagWaits
  refine ⟨⟨fun o s p dA => ?cbload, fun o s c => ?vxf⟩, fun o s hin => ?inside, fun o s p dA => ?vwait⟩
  case cbload =>
    intro a f iw etype count n h hd hu halign hbusy hread h1 h2 h3 h4 h5 h6
    obtain ⟨t, ht, hbooks, hdone, hvm, hflags⟩ := exec_cbload h hu halign hbusy hread h1 h2 h3 h4 h5 h6
    have hslot : o.d.toNat % 4 = o.d.toNat := Nat.mod_eq_of_lt hd
    refine ⟨t, bookOf a fun i => s.placeByte (p i), ht, ?_, rfl, rfl, length_entriesOf .., fun i hi => bookOf_entries hi,
      fun j hj hne => ?_, hdone, hvm, hflags⟩
    · rw [hbooks]
      exact CoreSt.withBook_same _ ⟨o.d.toNat % 4, by omega⟩ _
    · rw [hbooks]
      exact CoreSt.withBook_of_ne _ _ hj (by simpa only [hslot] using hne)
  case vxf =>
    intro w h hl hc hty hall
    exact exec_vxf h hl hc hty hall
  case inside => exact congrArg _ (State.vector_check (if_pos hin))
  case vwait =>
    intro n w addr flag want int met hl ha hcond hreach hpoison
    have hmet : ∀ k, met k ↔ s.flagMet o p k = true := fun k => (condHolds_iff hcond w (flag k) (want k)).symm
    have hunmet : ∀ k, k ∈ s.unmet o p ↔ (k < s.st.vl.toNat ∧ s.st.on o.m k = true) ∧ ¬met k := fun k => by
      rw [State.mem_unmet, hmet, Bool.not_eq_true]
    refine ⟨fun e hq hi hvl hr hsc htags hstart hrun hrest hs hst hloads hp hf hv hwto hout => ?retire,
      fun h hin hu hall => ?met, fun h hin hu hex hout => ?unmet⟩
    case retire =>
      have hb := (formVwait_body hst hloads hreach hpoison e 0).trans (if_pos (.inr ⟨hwto, hout⟩))
      have hseen := State.flagsSeen_st (s := s) (o := o) (p := p)
      have hx := State.flagsSeen_x (s := s) (o := o) (p := p)
      have hvm : ∀ k, k < 2048 → (s.flagsSeen o p).st.vm.getLsbD k = _ := fun k hk => State.flagsSeen_vm hk
      have hlen := State.length_unmet (s := s) (o := o) (p := p) (v := (s.flagsSeen o p).st.vm) fun k hk => by
        rw [hvm k (by have := hl.2; simp [vlmaxOf] at this; omega), if_pos hk]
      have hexec := exec_retire_vwait hq hi hvl hl.1 hr hstart hrun hrest hs hst hf hv hp hb
      have hqueue : (s.flagsSeen o p).st.queue = [e] := by rw [hseen]; exact hq
      have hret := Strand.retired_one [] hqueue hsc
      have htag : ∀ r, ((s.flagsSeen o p).st.retired e []).tag r = s.st.tag r := fun r => by
        rw [hret]
        exact (Strand.commitTags_tag (dv := []) htags _ r).trans (by rw [hseen]; rfl)
      refine ⟨_, hexec, ?queue, ?out, ?pc, fun k hk => ?marked, fun k hk hle => ?above, ?count, ?full, fun r hr => ?x,
        fun r _ => ?v, Strand.retired_nil (s := s) hqueue hsc (by rw [hseen]; exact ⟨rfl, rfl⟩), State.keepsMemory_of rfl rfl⟩
      case v =>
        refine ⟨?_, ?_, htag r⟩
        · rw [State.upd_st, hret, hseen]; rfl
        · rw [State.upd_st, hret, hseen]
      all_goals rw [State.upd_st, hret]
      case pc => rw [hseen]
      case marked =>
        have hk' : k < 2048 := hk.trans_le (hl.2.trans (by decide))
        refine (iff_of_eq (congrArg (· = true) ((hvm k hk').trans (if_pos hk)))).trans ?_
        rw [decide_eq_true_iff, hunmet]
        exact ⟨fun h => ⟨h.1.2, h.2⟩, fun h => ⟨⟨hk, h.1⟩, h.2⟩⟩
      case above => exact (hvm k hk).trans (if_neg (by omega))
      case count => exact (hx o.b).2.1.trans (by rw [hlen])
      case full => exact (hx o.b).1
      case x => exact (hx r).2.2 (by simpa using hr)
    case met =>
      exact exec_vwait_met h hin ha hl hu hreach hpoison (List.eq_nil_iff_forall_not_mem.2 fun k hk =>
        ((hunmet k).1 hk).2 (hall k ((hunmet k).1 hk).1.1 ((hunmet k).1 hk).1.2))
    case unmet =>
      obtain ⟨k, hk, hon, hnot⟩ := hex
      exact exec_vwait_unmet h hin ha hl hu hreach hpoison (List.ne_nil_of_mem ((hunmet k).2 ⟨⟨hk, hon⟩, hnot⟩)) hout

end Sys2Proof.Machine

/-! SUPPORT. Entering a handler, returning from it, and the run-ahead point at which an asynchronous trap is taken (R118,
R121 to R126, R344). -/

namespace Sys2Proof.Machine

/-! ## Entering a handler (R121 to R123, R126) -/

/-- `tcause` holds the code, and the side in its two upper bits (R126). -/
theorem tcauseOf_fields (side : Side) (cause : BitVec 8) :
    (tcauseOf side cause).extractLsb' 0 8 = cause ∧ (tcauseOf side cause).getLsbD 8 = (side == .vector) ∧
      (tcauseOf side cause).getLsbD 9 = (side == .async) := by
  revert cause
  cases side <;> decide

/-- Settles O21: with a handler set the trap is `Strand.enter`. -/
theorem trapEntersHandler : Obligations.TrapEntersHandler := by
  unfold Obligations.TrapEntersHandler
  intro s side cause tval tepc ht hh
  obtain ⟨hcode, hvector, hasync⟩ := tcauseOf_fields side cause
  rw [State.takeTrap_enter hh ht]
  exact ⟨rfl, rfl, rfl, rfl, hcode, hvector, hasync, rfl, rfl, rfl, rfl, rfl, rfl, rfl, rfl, State.keepsX_of rfl rfl,
    fun r _ => ⟨rfl, rfl, rfl⟩, rfl, ⟨rfl, rfl⟩, ⟨rfl, rfl, rfl, rfl, rfl, rfl, rfl, rfl, rfl, rfl, rfl, rfl, rfl, rfl⟩,
    ⟨rfl, rfl⟩, State.keepsMemory_of rfl rfl⟩

/-! ## Flags of scalar instructions behind an entry (R73) -/

theorem Strand.raise0_same (t : Strand) (f : FFlags) :
    t.raise0 f = { t with fflags := (t.raise0 f).fflags, ffirst := (t.raise0 f).ffirst } := by
  unfold Strand.raise0; split <;> rfl

/-- The flags that enter as entries leave change the flags alone. -/
theorem Strand.mergeScalar_same (t : Strand) (es : List QEntry) :
    t.mergeScalar es = { t with fflags := (t.mergeScalar es).fflags, ffirst := (t.mergeScalar es).ffirst } := by
  unfold Strand.mergeScalar
  induction es generalizing t with
  | nil => rfl
  | cons e es ih => rw [List.foldl_cons, ih, Strand.raise0_same]

/-- No scalar instruction has raised a flag behind any of the entries: nothing enters. -/
theorem Strand.mergeScalar_of_zero (t : Strand) {es : List QEntry} (h : ∀ e ∈ es, e.scalar = 0) : t.mergeScalar es = t := by
  unfold Strand.mergeScalar
  induction es with
  | nil => rfl
  | cons e es ih =>
    rw [List.foldl_cons, h e (by simp), show t.raise0 0 = t from if_pos rfl]
    exact ih fun x hx => h x (by simp [hx])

/-! ## Tags (R187) -/

theorem Strand.retag_same (t : Strand) (es : List QEntry) : t.retag es = { t with dtag := (t.retag es).dtag } := by
  unfold Strand.retag
  suffices h : ∀ u : Strand, es.foldl (fun t e => t.copyTags e.wtags) u =
      { u with dtag := (es.foldl (fun t e => t.copyTags e.wtags) u).dtag } from h _
  intro u
  induction es generalizing u with
  | nil => rfl
  | cons e es ih => rw [List.foldl_cons, ih, Strand.copyTags_same]

theorem Strand.retag_pending (t : Strand) (es : List QEntry) : (t.retag es).pending = t.pending := by rw [Strand.retag_same]

/-! ## Returning (R125) -/

/-- What of a held image goes back into the queue. -/
def Strand.backQueue (t : Strand) : List QEntry := if t.held then (if t.skip then t.image.drop 1 else t.image) else []

/-- What of it is skipped. -/
def Strand.skipped (t : Strand) : List QEntry := if t.held && t.skip then t.image.take 1 else []

/-- An entry that goes back has not started. -/
def QEntry.fresh (e : QEntry) : QEntry := { e with started := false, rechecked := false }

/-- The entries that go back, the head of which has run before unless one was skipped. -/
def Strand.reissue (t : Strand) : List QEntry → List QEntry
  | [] => []
  | e :: es => (if t.held && !t.skip then { e.fresh with reissued := true } else e.fresh) :: es.map QEntry.fresh

/-- Going back keeps what of an entry is its own. -/
theorem Strand.reissue_map {α : Type} (f : QEntry → α)
    (hf : ∀ (e : QEntry) a b c, f { e with started := a, rechecked := b, reissued := c } = f e) (t : Strand) (es : List QEntry) :
    (t.reissue es).map f = es.map f := by
  cases es with
  | nil => rfl
  | cons e es =>
    have hfresh : ∀ x : QEntry, f x.fresh = f x := fun x => hf x false false x.reissued
    simp only [Strand.reissue, List.map_cons, List.map_map]
    refine congrArg₂ _ ?_ (List.map_congr_left fun x _ => hfresh x)
    split
    · exact hf e false false true
    · exact hfresh e

/-- The strand before its queue is restored: the tags as the entries will leave them, and the flags of skipped ones. -/
def Strand.returning (t : Strand) : Strand :=
  (if t.held then t.retag (t.reissue t.backQueue) else t).mergeScalar t.skipped

/-- Tags and flags are all that changes before the queue is restored. -/
theorem Strand.returning_same (t : Strand) : t.returning =
    { t with dtag := t.returning.dtag, fflags := t.returning.fflags, ffirst := t.returning.ffirst } := by
  unfold Strand.returning
  rw [Strand.mergeScalar_same]
  split
  · rw [Strand.retag_same]
  · rfl

theorem Strand.returning_flags {t : Strand} (h : ∀ e ∈ t.skipped, e.scalar = 0) :
    t.returning.fflags = t.fflags ∧ t.returning.ffirst = t.ffirst := by
  rw [Strand.returning, Strand.mergeScalar_of_zero _ h]
  split
  · rw [Strand.retag_same]; exact ⟨rfl, rfl⟩
  · exact ⟨rfl, rfl⟩

/-- What a return leaves of the strand: everything but tags, flags, stores and the fields that it sets. -/
theorem Strand.return_same (t : Strand) : t.return_ = { t with
    dtag := t.return_.dtag, fflags := t.return_.fflags, ffirst := t.return_.ffirst, stores := t.return_.stores
    queue := t.reissue t.backQueue, image := [], vstart := if t.held && t.skip then 0 else t.vstart, held := false
    level := t.ppl, pc := t.tepc.signExtend 64, critDepth := if t.ppl == .user then 0 else t.critDepth - 1
    waiting := false, redecode := none, undo := [], timedOut := false, watch := false, watchOut := false } := by
  have h : t.return_ = { t.returning with
      dtag := t.return_.dtag, fflags := t.return_.fflags, ffirst := t.return_.ffirst, stores := t.return_.stores
      queue := t.reissue t.backQueue, image := []
      vstart := if t.returning.held && t.returning.skip then 0 else t.returning.vstart, held := false
      level := t.returning.ppl, pc := t.returning.tepc.signExtend 64
      critDepth := if t.returning.ppl == .user then 0 else t.returning.critDepth - 1, waiting := false, redecode := none
      undo := [], timedOut := false, watch := false, watchOut := false } := rfl
  rw [Strand.returning_same] at h
  exact h

/-- The flags of a skipped head are all that enters as the strand returns. -/
theorem Strand.return_flags {t : Strand} (h : ∀ e ∈ t.skipped, e.scalar = 0) :
    t.return_.fflags = t.fflags ∧ t.return_.ffirst = t.ffirst := Strand.returning_flags h

theorem exec_eret {s : State} (h : s.st.level = .supervisor) :
    exec .eret s = .next (if s.st.busy then s.stall else s.upd Strand.return_) := by
  refine congrArg Host.Outcome.next (if_neg ?_)
  rw [h]; decide

/-- Settles O23: what returns is `Strand.return_`, which changes tags, flags of a skipped head and the fields it names. -/
theorem eretReturns : Obligations.EretReturns := by
  unfold Obligations.EretReturns
  intro s hl
  refine ⟨fun hq => ?waits, fun hq => ?returns⟩
  case waits =>
    rw [exec_eret hl, if_pos (by simpa [Strand.busy] using hq)]
  case returns =>
    have hqueue : ∀ {α : Type} (f : QEntry → α),
        (∀ (e : QEntry) a b c, f { e with started := a, rechecked := b, reissued := c } = f e) →
        s.st.return_.queue.map f = if s.st.held then (if s.st.skip then s.st.image.drop 1 else s.st.image).map f else [] :=
      fun f hf => by
        rw [Strand.return_same, Strand.reissue_map f hf, Strand.backQueue]
        split <;> rfl
    have hskip : ∀ e ∈ s.st.skipped, s.st.held = true ∧ s.st.skip = true ∧ e ∈ s.st.image.take 1 := fun e he => by
      unfold Strand.skipped at he
      split at he
      · next h => exact ⟨(Bool.and_eq_true _ _ ▸ h).1, (Bool.and_eq_true _ _ ▸ h).2, he⟩
      · cases he
    have hst : (s.upd Strand.return_).st = _ := s.st.return_same
    refine ⟨s.upd Strand.return_, by rw [exec_eret hl, if_neg (by simp [Strand.busy, hq])], by rw [hst], by rw [hst], by rw [hst], by rw [hst],
      hqueue _ fun _ _ _ _ => rfl, hqueue _ fun _ _ _ _ => rfl, by rw [hst]; simp only [Bool.and_eq_true], by rw [hst],
      by rw [hst], by rw [hst], by rw [hst], State.keepsX_of (by rw [hst]) (by rw [hst]), fun r _ => ?v, by rw [hst], ?modes,
      ?tiles, State.keepsMemory_of rfl rfl, fun h => ?flags⟩
    case v => rw [hst]; exact ⟨rfl, rfl, rfl⟩
    case modes => simp only [State.keepsModes, hst, and_self]
    case tiles => simp only [State.keepsTiles, hst, and_self]
    case flags => exact Strand.return_flags fun e he => h (hskip e he).1 (hskip e he).2.1 e (hskip e he).2.2

/-! ## Going back to a load (R122, R344) -/

/-- What every step of a fold keeps, the fold keeps. -/
theorem foldl_keep {α β γ : Type} (g : β → γ) (f : β → α → β) (h : ∀ b a, g (f b a) = g b) (l : List α) (b : β) :
    g (l.foldl f b) = g b := by
  induction l generalizing b with
  | nil => rfl
  | cons a l ih => exact (ih _).trans (h b a)

/-- A write to a control register leaves everything of the strand that is none. -/
theorem Strand.crPut_same (t : Strand) (i : Nat) (v : Word) : t.crPut i v = { t with
    vm := (t.crPut i v).vm, vsg := (t.crPut i v).vsg, gtag := (t.crPut i v).gtag, dtag := (t.crPut i v).dtag
    ffirst := (t.crPut i v).ffirst, vl := (t.crPut i v).vl, vlFull := (t.crPut i v).vlFull, vs := (t.crPut i v).vs
    vgm := (t.crPut i v).vgm, vstart := (t.crPut i v).vstart, vdirty := (t.crPut i v).vdirty
    vfrem := (t.crPut i v).vfrem, fflags := (t.crPut i v).fflags, frm := (t.crPut i v).frm, fz := (t.crPut i v).fz
    trp := (t.crPut i v).trp, tcp := (t.crPut i v).tcp, xresume := (t.crPut i v).xresume, wto := (t.crPut i v).wto
    cbsel := (t.crPut i v).cbsel, tvec := (t.crPut i v).tvec, tcause := (t.crPut i v).tcause, tval := (t.crPut i v).tval
    tepc := (t.crPut i v).tepc, ppl := (t.crPut i v).ppl, skip := (t.crPut i v).skip
    tscratch := (t.crPut i v).tscratch, rchk := (t.crPut i v).rchk } := by
  unfold Strand.crPut
  split
  · rfl
  split
  · rfl
  split
  · rfl
  split
  · rfl
  split <;> rfl

theorem Strand.crPut_pending (t : Strand) (i : Nat) (v : Word) : (t.crPut i v).pending = t.pending := by
  rw [Strand.crPut_same]

theorem Strand.xback_pending (t : Strand) (p : Reg × Word × Bool) : (t.xback p).pending = t.pending :=
  Strand.xset_pending ..

/-- Asynchronous traps stay pending as an instruction is taken back. -/
theorem Strand.takeBack_pending (t : Strand) (u : Undo) : (t.takeBack u).pending = t.pending :=
  (foldl_keep Strand.pending _ Strand.xback_pending _ _).trans
    (foldl_keep Strand.pending _ (fun t _ => Strand.crPut_pending t _ _) _ _)

/-- The strand stands at the access that it goes back to, with the older loads alone, and keeps its pending traps. -/
theorem Strand.rewind_keeps (t : Strand) (seq : Nat) (pc : Word) :
    (t.rewind seq pc).pc = pc ∧ (t.rewind seq pc).pending = t.pending ∧ ∀ x ∈ (t.rewind seq pc).loads, x.seq < seq := by
  refine ⟨rfl, ?_, fun x hx => of_decide_eq_true (List.mem_filter.1 hx).2⟩
  refine Eq.trans ?_ (foldl_keep Strand.pending _ Strand.takeBack_pending ((sinceAccess seq t.undo).getD []) t)
  exact Strand.retag_pending _ _

section
variable {s : State} {l : LoadFlight} {rest : List LoadFlight} (hl : s.st.loads = l :: rest)
include hl

/-- A load that nothing holds back delivers its value. -/
theorem State.deliverLoad_now (h : s.heldBack l = false) : s.deliverLoad = s.returnLoad := by
  obtain ⟨hafter, hpoison⟩ : l.after = none ∧ s.poisonAt l.addr l.place l.size = none := by
    simpa [State.heldBack] using h
  have hsame : s.upd (fun t => { t with loads := { l with after := none } :: rest }) = s := by
    rw [← hafter, ← hl]; rfl
  simp only [State.deliverLoad, hl, h, hpoison, Bool.false_and, Bool.false_eq_true, if_false, Option.isSome_none, hsame]

/-- One that has no value yet is decoded again, where the strand can go back to it. -/
theorem State.deliverLoad_rewind (h : s.heldBack l = true) (hc : s.st.canRewind l.seq = true) :
    s.deliverLoad = s.upd fun t => { t.rewind l.seq l.pc with redecode := if l.again then some l.pc else none } := by
  simp only [State.deliverLoad, hl, h, hc, Bool.and_self, if_true]

/-- Where it cannot, a load of a poisoned line leaves its register poisoned. -/
theorem State.deliverLoad_spoil {line : Word} (h : s.poisonAt l.addr l.place l.size = some line)
    (hc : s.st.canRewind l.seq = false) : s.deliverLoad = s.upd fun t => { t with loads := rest }.xspoil l.dest := by
  simp only [State.deliverLoad, hl, h, hc, Bool.and_false, Bool.false_eq_true, if_false, Option.isSome_some, if_true]

end

/-- A spoiled register holds poison, and loads and pending traps are as they were (R342). -/
theorem Strand.xspoil_keeps (t : Strand) {r : Reg} (h : r ≠ 0) :
    (t.xspoil r).loads = t.loads ∧ hasReg (t.xspoil r).xpoison r = true ∧ (t.xspoil r).pending = t.pending := by
  rw [Strand.xspoil, if_neg h]
  exact ⟨rfl, hasReg_setReg_self .., rfl⟩

/-! ## The run-ahead point (R121 to R123, R200) -/

/-- A head that stops where it stands changes the tags alone, and those where `vstart` is not 0. -/
theorem VForm.stand_same (f : VForm) (e : QEntry) (t : Strand) : f.stand e t = { t with gtag := (f.stand e t).gtag } := by
  unfold VForm.stand
  split
  · rfl
  · exact Strand.commitTags_same ..

theorem Strand.standHead_same (t : Strand) : t.standHead = { t with gtag := t.standHead.gtag } := by
  unfold Strand.standHead
  split
  · rfl
  split
  · rfl
  · exact VForm.stand_same ..

theorem Strand.standHead_of {t : Strand} {e : QEntry} {f : VForm} (he : t.queue.head? = some e) (hf : formOf e = some f) :
    t.standHead = f.stand e t := by
  simp only [Strand.standHead, he, hf]

theorem VForm.stand_zero {t : Strand} (f : VForm) (e : QEntry) (h : t.vstart = 0) : f.stand e t = t := if_pos (by simp [h])

theorem VForm.stand_above {t : Strand} {f : VForm} (e : QEntry) (hf : f.grain ≠ 0) (h : t.vstart ≠ 0) :
    f.stand e t = t.commitTags e :=
  if_neg (by simpa [hf] using h)

theorem Strand.standHead_zero {t : Strand} (h : t.vstart = 0) : t.standHead = t := by
  unfold Strand.standHead
  split
  · rfl
  split
  · rfl
  · exact VForm.stand_zero _ _ h

/-- What the machine-check log of the die holds once it has taken up an entry (R346, R351). -/
theorem State.logCheck_mclog (s : State) (cause : BitVec 8) (tval tepc : Word) (unit : Nat) :
    ((s.logCheck cause tval tepc unit).die (dieOf s.cur)).mclog =
      (⟨cause, s.cur, tval, tepc, unit⟩ :: (s.die (dieOf s.cur)).mclog).take 16 :=
  congrArg DieSt.mclog (tabGet_tabSet_self ..)

/-- The machine once the machine-check log holds what an asynchronous trap enters in it. -/
def State.logAsync (s : State) (p : Pending) : State := if p.cause == 0x13 then s.logCheck 0x13 p.tval s.st.pc p.unit else s

/-- The strand as an asynchronous trap finds it: the trap is no longer pending, and the head has stopped. -/
def Strand.stopFor (t : Strand) (p : Pending) : Strand := ({ t with pending := t.pending.erase p } : Strand).standHead

theorem Strand.stopFor_same (t : Strand) (p : Pending) :
    t.stopFor p = { t with pending := t.pending.erase p, gtag := (t.stopFor p).gtag } := Strand.standHead_same _

theorem Strand.commitTags_gtag (t : Strand) (e : QEntry) :
    (t.commitTags e).gtag = e.wtags.foldl (fun g p => g.set p.1.toNat p.2 p.1.isLt) t.gtag :=
  (List.foldl_hom Strand.gtag fun _ _ => rfl).symm

/-- The tags after an entry's are written follow from the tags before. -/
theorem Strand.commitTags_tag_congr {t u : Strand} (e : QEntry) (h : t.gtag = u.gtag) (r : Reg) :
    (t.commitTags e).tag r = (u.commitTags e).tag r := by
  simp only [Strand.tag, Strand.commitTags_gtag, h]

/-- Its tags are those of the strand, where `vstart` is 0. -/
theorem Strand.stopFor_tag_zero {t : Strand} (p : Pending) (h : t.vstart = 0) (r : Reg) : (t.stopFor p).tag r = t.tag r := by
  rw [Strand.stopFor, Strand.standHead_zero (by exact h)]
  rfl

/-- The tags of a stoppable head are written, where `vstart` is not 0. -/
theorem Strand.stopFor_tag_above {t : Strand} {e : QEntry} {f : VForm} (p : Pending) (he : t.queue.head? = some e)
    (hf : formOf e = some f) (hg : f.grain ≠ 0) (h : t.vstart ≠ 0) (r : Reg) :
    (t.stopFor p).tag r = (t.commitTags e).tag r := by
  rw [Strand.stopFor, Strand.standHead_of (by exact he) hf, VForm.stand_above e hg (by exact h)]
  exact Strand.commitTags_tag_congr (t := { t with pending := t.pending.erase p }) (u := t) e rfl r

theorem State.takeAsync_eq (s : State) (p : Pending) : s.takeAsync p =
    ({ s with st := s.st.stopFor p, dies := (s.logAsync p).dies } : State).takeTrap .async p.cause p.tval s.st.pc := by
  unfold State.takeAsync State.logAsync
  split <;> rfl

/-- With a handler, and no image held, an asynchronous trap enters it. -/
theorem State.takeAsync_enter {s : State} {p : Pending} (ht : s.st.tvec ≠ 0) (hh : s.st.held = false) : s.takeAsync p =
    { s with st := (s.st.stopFor p).enter .async p.cause p.tval s.st.pc, dies := (s.logAsync p).dies } := by
  rw [State.takeAsync_eq, State.takeTrap_enter]
  · rfl
  · rw [Strand.stopFor_same]; exact fun h => absurd (hh.symm.trans h) nofun
  · rw [Strand.stopFor_same]; exact ht

/-- The strand takes the trap, once its loads have delivered their values. -/
theorem exec_trapEntry_async {s : State} {p : Pending} (hp : s.st.pending.find? s.st.canTake = some p)
    (hrun : s.st.run = .running) (hend : s.st.iter.ending = false) (hstream : s.st.iter.streaming = false)
    (hrest : s.st.restoring = false) (hhold : s.st.hold = none) :
    exec .trapEntry s = .next (if s.st.loads.isEmpty then s.takeAsync p else s.deliverLoad) := by
  have hready : s.st.holdReady = false := by simp [Strand.holdReady, hhold]
  have hint : s.st.interruptible = true := by simp [Strand.interruptible, hrun, hend, hstream, hrest]
  refine congrArg Host.Outcome.next ?_
  simp only [hready, hint, hp, Bool.false_eq_true, if_false, Bool.not_true]

/-- Settles O26: the oldest load by the three cases of `State.deliverLoad`, and with none the entry into the handler. -/
theorem asynchronousTrapEntry : Obligations.AsynchronousTrapEntry := by
  unfold Obligations.AsynchronousTrapEntry
  intro s p hp hrun hend hstream hrest hhold
  have hexec := exec_trapEntry_async hp hrun hend hstream hrest hhold
  have hload : s.st.loads ≠ [] → exec .trapEntry s = .next s.deliverLoad := fun h =>
    hexec.trans (congrArg _ (if_neg (by simpa using h)))
  refine ⟨fun l rest hl hb => ?value, fun l rest hl hb hc => ?again, fun l rest line hl hpo hc hd => ?spoilt,
    fun hl ht hh => ?enter⟩
  case value => rw [hload (by simp [hl]), State.deliverLoad_now hl hb]
  case again =>
    refine ⟨_, hload (by simp [hl]), ?_⟩
    rw [State.deliverLoad_rewind hl hb hc]
    exact s.st.rewind_keeps l.seq l.pc
  case spoilt =>
    refine ⟨_, hload (by simp [hl]), ?_⟩
    rw [State.deliverLoad_spoil hl hpo hc]
    exact Strand.xspoil_keeps { s.st with loads := rest } hd
  case enter =>
    obtain ⟨hcode, -, hasync⟩ := tcauseOf_fields .async p.cause
    have hst : (s.takeAsync p).st = { (s.st.stopFor p).enter .async p.cause p.tval s.st.pc with gtag := (s.st.stopFor p).gtag } :=
      congrArg State.st (State.takeAsync_enter ht hh)
    have htag : ∀ r, (s.takeAsync p).st.tag r = (s.st.stopFor p).tag r := fun r => by rw [hst]; rfl
    have hdies : (s.takeAsync p).dies = (s.logAsync p).dies := by rw [State.takeAsync_enter ht hh]
    have hmem : s.keepsMemory (s.takeAsync p) := by rw [State.takeAsync_enter ht hh]; exact State.keepsMemory_of rfl rfl
    rw [Strand.stopFor_same] at hst
    refine ⟨s.takeAsync p, hexec.trans (congrArg _ (if_pos (by simp [hl]))), by rw [hst]; rfl, by rw [hst]; rfl, by rw [hst]; rfl,
      by rw [hst]; exact hcode, by rw [hst]; exact hasync, by rw [hst]; rfl, by rw [hst]; rfl, by rw [hst]; rfl,
      by rw [hst]; rfl, State.keepsX_of (by rw [hst]; rfl) (by rw [hst]; rfl), fun r => by rw [hst]; rfl, hmem,
      by rw [hst]; rfl, fun hv r _ => ⟨by rw [hst]; rfl, by rw [hst]; rfl, (htag r).trans (Strand.stopFor_tag_zero p hv r)⟩,
      fun e f he hf hg hv r => (htag r).trans (Strand.stopFor_tag_above p he hf hg hv r), fun hc => ?_⟩
    have hlog : s.logAsync p = s.logCheck 0x13 p.tval s.st.pc p.unit := if_pos (by rw [hc]; rfl)
    have hmclog := s.logCheck_mclog 0x13 p.tval s.st.pc p.unit
    rw [← hlog] at hmclog
    simp only [State.die, hdies]
    exact hmclog

end Sys2Proof.Machine

/-! SUPPORT. The save area as bytes: where its lines lie, what writing its pieces leaves, and how its fields read back
(R128, R129, R289). -/

namespace Sys2Proof.Machine

/-! ## Where a line lies (R289) -/

/-- A line stays together under every skew. -/
theorem storageOf_line (skew : Nat) {pa i : Nat} (hpa : pa % 64 = 0) (hi : i < 64) :
    storageOf skew (pa + i) = storageOf skew pa + i := by
  have hblock : (pa + i) / 2 ^ 30 = pa / 2 ^ 30 := by omega
  have hregion : (pa + i) / 2 ^ 49 = pa / 2 ^ 49 := by omega
  have hline : (pa + i) / 64 = pa / 64 := by omega
  have hin : (pa + i) % 64 = i := by omega
  simp only [storageOf, hblock, hregion, hline, hin, hpa]
  split
  · rfl
  · omega

theorem storageOf_aligned (skew : Nat) {pa : Nat} (hpa : pa % 64 = 0) : storageOf skew pa % 64 = 0 := by
  simp only [storageOf]
  split
  · exact hpa
  · omega

theorem Place.add_add (p : Place) (i j : Nat) : (p.add i).add j = p.add (i + j) := by
  cases p <;> simp [Place.add, Nat.add_assoc]

/-- The bytes of a line of a page follow each other. -/
theorem Place.along_line (skew : Nat) {p : Place} (hp : ∀ a, p = .mem a → a % 64 = 0) {off i : Nat} (hoff : off % 64 = 0)
    (hi : i < 64) : p.along skew (off + i) = (p.along skew off).add i := by
  cases p with
  | mem a =>
    have ha := storageOf_aligned skew (hp a rfl)
    simp only [Place.along, Place.add, Place.mem.injEq]
    rw [← Nat.add_assoc, storageOf_line skew (by omega) hi]
  | host a => exact (Place.add_add (.host a) off i).symm
  | scratch a => exact (Place.add_add (.scratch a) off i).symm
  | cscratch a => exact (Place.add_add (.cscratch a) off i).symm
  | batch a => exact (Place.add_add (.batch a) off i).symm
  | blob a => exact (Place.add_add (.blob a) off i).symm

theorem Place.offsetFrom_add (p : Place) (i : Nat) : p.offsetFrom (p.add i) = some i := by
  cases p <;> simp [Place.offsetFrom, Place.add]

theorem Place.add_of_offsetFrom {p q : Place} {i : Nat} (h : p.offsetFrom q = some i) : q = p.add i := by
  unfold Place.offsetFrom at h
  split at h
  case h_7 => cases h
  all_goals
    split at h
    · simp only [Option.some.injEq] at h
      simp only [Place.add]
      congr 1
      omega
    · cases h

/-! ## The bytes of an area -/

section
variable {ps : List AreaPage}

theorem areaPlace_of_lt (hlen : ps.length = areaPages) {off : Nat} (h : off < 90112) : ∃ p, areaPlace ps off = some p := by
  have hpage : off / 4096 < ps.length := by rw [hlen]; simp only [areaPages]; omega
  exact ⟨_, by rw [areaPlace, List.getElem?_eq_getElem hpage]; rfl⟩

/-- The bytes of a line of the area follow each other. -/
theorem areaPlace_line (ha : pagesApart ps) {off i : Nat} (hoff : off % 64 = 0) (hi : i < 64) {p : Place}
    (hp : areaPlace ps off = some p) : areaPlace ps (off + i) = some (p.add i) := by
  have hpage : (off + i) / 4096 = off / 4096 := by omega
  have hin : (off + i) % 4096 = off % 4096 + i := by omega
  unfold areaPlace at hp ⊢
  rw [hpage, hin]
  cases hg : ps[off / 4096]? with
  | none => simp [hg] at hp
  | some g =>
    simp only [hg, Option.map_some, Option.some.injEq] at hp ⊢
    rw [← hp]
    exact Place.along_line _ (ha.1 g (List.mem_of_getElem? hg)) (by omega) hi

/-- Byte `j` of the area, as the storage holds it. -/
def State.areaByte (s : State) (ps : List AreaPage) (j : Nat) : Byte := ((areaPlace ps j).map s.placeByte).getD 0

/-- Byte `j` of a piece of the area, where the piece holds it. -/
def pieceByte (p : Nat × List Byte) (j : Nat) : Option Byte := if p.1 ≤ j then p.2[j - p.1]? else none

/-- A write of a line changes the bytes of that line, and no other byte of the area. -/
theorem State.storesBytes.areaByte {s t : State} {p : Place} {bs : List Byte} (hw : s.storesBytes t p bs)
    (ha : pagesApart ps) (hlen : ps.length = areaPages) {off : Nat} (hoff : off % 64 = 0) (hend : off + 64 ≤ 90112)
    (hbs : bs.length ≤ 64) (hp : areaPlace ps off = some p) {j : Nat} (hj : j < 90112) :
    t.areaByte ps j = (pieceByte (off, bs) j).getD (s.areaByte ps j) := by
  obtain ⟨q, hq⟩ := areaPlace_of_lt hlen hj
  have hbyte : ∀ u : State, u.areaByte ps j = u.placeByte q := fun u => by rw [State.areaByte, hq]; rfl
  rw [hbyte, hbyte, hw q]
  by_cases hin : off ≤ j ∧ j < off + 64
  · have hline := areaPlace_line ha hoff (i := j - off) (by omega) hp
    rw [show off + (j - off) = j by omega, hq, Option.some.injEq] at hline
    rw [hline, Place.offsetFrom_add, pieceByte, if_pos hin.1]
    exact List.getD_eq_getElem?_getD ..
  · have hnone : pieceByte (off, bs) j = none := by
      unfold pieceByte
      split
      · next hle => exact List.getElem?_eq_none (by simp only at hle ⊢; omega)
      · rfl
    rw [hnone, Option.getD_none]
    cases hi : p.offsetFrom q with
    | none => rfl
    | some i =>
      have hlong : bs.length ≤ i := by
        by_contra hlt
        have hline := areaPlace_line ha hoff (i := i) (by omega) hp
        rw [← Place.add_of_offsetFrom hi] at hline
        have := ha.2 (off + i) j q (by omega) hline hq
        omega
      exact List.getD_eq_default _ _ hlong

/-! ## Writing lines and pieces -/

/-- A way to write a line of the area that keeps `I`: in every state of `I` it changes exactly the bytes of the line. -/
def writesArea (ps : List AreaPage) (write : State → Word → Place → List Byte → State) (I : State → Prop) : Prop :=
  ∀ s, I s → ∀ va off p bs, areaPlace ps off = some p → I (write s va p bs) ∧ s.storesBytes (write s va p bs) p bs

/-- A line of the area: it begins with one, and holds no more. -/
def isLine (l : Nat × List Byte) : Prop := l.1 % 64 = 0 ∧ l.1 + 64 ≤ 90112 ∧ l.2.length ≤ 64

variable {write : State → Word → Place → List Byte → State} {I : State → Prop}

/-- Byte `j` is `b` once lines are written that agree on it, where one of them holds it or it was `b` before. -/
theorem State.writeLines_byte (hw : writesArea ps write I) (ha : pagesApart ps) (hlen : ps.length = areaPages) (a : Word)
    {ls : List (Nat × List Byte)} (hls : ∀ l ∈ ls, isLine l) {s : State} (hs : I s) :
    I (State.writeLines write a ps ls s) ∧ ∀ j b, j < 90112 → (∀ l ∈ ls, ∀ x, pieceByte l j = some x → x = b) →
      (s.areaByte ps j = b ∨ ∃ l ∈ ls, (pieceByte l j).isSome = true) →
      (State.writeLines write a ps ls s).areaByte ps j = b := by
  induction ls generalizing s with
  | nil =>
    refine ⟨hs, fun j b _ _ h => ?_⟩
    rcases h with h | ⟨l, hl, -⟩
    · exact h
    · cases hl
  | cons l ls ih =>
    obtain ⟨off, bs⟩ := l
    obtain ⟨hoff, hend, hbs⟩ := hls (off, bs) (by simp)
    obtain ⟨p, hp⟩ := areaPlace_of_lt hlen (off := off) (by omega)
    obtain ⟨hI, hst⟩ := hw s hs (a + BitVec.ofNat 64 off) off p bs hp
    obtain ⟨hI', hrest⟩ := ih (fun l hl => hls l (by simp [hl])) hI
    have hstep : State.writeLines write a ps ((off, bs) :: ls) s =
        State.writeLines write a ps ls (write s (a + BitVec.ofNat 64 off) p bs) := by
      rw [State.writeLines, hp]
    rw [hstep]
    refine ⟨hI', fun j b hj hall hsome => hrest j b hj (fun l hl => hall l (by simp [hl])) ?_⟩
    have hbyte := hst.areaByte ha hlen hoff hend hbs hp hj
    cases hx : pieceByte (off, bs) j with
    | some x =>
      rw [hx, Option.getD_some] at hbyte
      exact .inl (hbyte.trans (hall _ (by simp) x hx))
    | none =>
      rw [hx, Option.getD_none] at hbyte
      rcases hsome with h | ⟨l, hl, h⟩
      · exact .inl (hbyte.trans h)
      · rcases List.mem_cons.1 hl with rfl | hl
        · rw [hx] at h; cases h
        · exact .inr ⟨l, hl, h⟩

/-- A piece of the area: it begins with a line, and ends within the area. -/
def isPiece (p : Nat × List Byte) : Prop := p.1 % 64 = 0 ∧ p.1 + p.2.length ≤ 90112

theorem isLine_of_mem_linesOf {p l : Nat × List Byte} (h : isPiece p) (hl : l ∈ linesOf p.1 p.2) : isLine l := by
  obtain ⟨hoff, hend⟩ := h
  simp only [linesOf, List.mem_map, List.mem_range] at hl
  obtain ⟨k, hk, rfl⟩ := hl
  refine ⟨by simp only; omega, by simp only; omega, by simp⟩

/-- The lines of a piece hold its bytes. -/
theorem pieceByte_of_mem_linesOf {p l : Nat × List Byte} (hl : l ∈ linesOf p.1 p.2) {j : Nat} {x : Byte}
    (h : pieceByte l j = some x) : pieceByte p j = some x := by
  simp only [linesOf, List.mem_map, List.mem_range] at hl
  obtain ⟨k, hk, rfl⟩ := hl
  simp only [pieceByte] at h ⊢
  split at h
  · next hle =>
    rw [if_pos (by omega)]
    rw [List.getElem?_take] at h
    split at h
    · rw [List.getElem?_drop] at h
      rw [← h]
      congr 1
      omega
    · cases h
  · cases h

theorem exists_mem_linesOf {p : Nat × List Byte} {j : Nat} (h : (pieceByte p j).isSome = true) :
    ∃ l ∈ linesOf p.1 p.2, (pieceByte l j).isSome = true := by
  simp only [pieceByte] at h
  split at h
  · next hle =>
    have hlt : j - p.1 < p.2.length := by
      by_contra hn
      rw [List.getElem?_eq_none (by omega)] at h
      cases h
    refine ⟨(p.1 + 64 * ((j - p.1) / 64), (p.2.drop (64 * ((j - p.1) / 64))).take 64), ?_, ?_⟩
    · simp only [linesOf, List.mem_map, List.mem_range]
      exact ⟨(j - p.1) / 64, by omega, rfl⟩
    · simp only [pieceByte]
      rw [if_pos (by omega), isSome_getElem?, List.length_take, List.length_drop]
      omega
  · cases h

/-- Byte `j` is `b` once pieces are written that agree on it, where one of them holds it or it was `b` before. -/
theorem State.writePieces_byte (hw : writesArea ps write I) (ha : pagesApart ps) (hlen : ps.length = areaPages) (a : Word)
    {pieces : List (Nat × List Byte)} (hpieces : ∀ p ∈ pieces, isPiece p) {s : State} (hs : I s) :
    I (State.writePieces write a ps pieces s) ∧ ∀ j b, j < 90112 → (∀ p ∈ pieces, ∀ x, pieceByte p j = some x → x = b) →
      (s.areaByte ps j = b ∨ ∃ p ∈ pieces, (pieceByte p j).isSome = true) →
      (State.writePieces write a ps pieces s).areaByte ps j = b := by
  have hmem : ∀ {l}, l ∈ pieces.flatMap (fun p => linesOf p.1 p.2) → ∃ p ∈ pieces, l ∈ linesOf p.1 p.2 := fun h =>
    List.mem_flatMap.1 h
  obtain ⟨hI, hbyte⟩ := State.writeLines_byte hw ha hlen a (ls := pieces.flatMap fun p => linesOf p.1 p.2) (fun l hl => by
    obtain ⟨p, hp, hl⟩ := hmem hl
    exact isLine_of_mem_linesOf (hpieces p hp) hl) hs
  refine ⟨hI, fun j b hj hall hsome => hbyte j b hj (fun l hl x hx => ?_) (hsome.imp_right fun ⟨p, hp, h⟩ => ?_)⟩
  · obtain ⟨p, hp, hl⟩ := hmem hl
    exact hall p hp x (pieceByte_of_mem_linesOf hl hx)
  · obtain ⟨l, hl, h⟩ := exists_mem_linesOf h
    exact ⟨l, List.mem_flatMap.2 ⟨p, hp, hl⟩, h⟩

end

/-! ## Pieces in rising order -/

/-- Each piece ends before the next begins. -/
def risingPieces (pieces : List (Nat × List Byte)) : Prop := pieces.Pairwise fun p q => p.1 + p.2.length ≤ q.1

theorem lt_of_pieceByte {p : Nat × List Byte} {j : Nat} {x : Byte} (h : pieceByte p j = some x) :
    p.1 ≤ j ∧ j < p.1 + p.2.length := by
  unfold pieceByte at h
  split at h
  · next hle =>
    obtain ⟨hlt, -⟩ := List.getElem?_eq_some_iff.1 h
    omega
  · cases h

/-- No two pieces hold the same byte. -/
theorem pieceByte_unique {pieces : List (Nat × List Byte)} (hr : risingPieces pieces) {p q : Nat × List Byte}
    (hp : p ∈ pieces) (hq : q ∈ pieces) {j : Nat} {x y : Byte} (hx : pieceByte p j = some x) (hy : pieceByte q j = some y) :
    x = y := by
  have hpj := lt_of_pieceByte hx
  have hqj := lt_of_pieceByte hy
  induction pieces with
  | nil => cases hp
  | cons r rest ih =>
    obtain ⟨hfirst, hrest⟩ := List.pairwise_cons.1 hr
    rcases List.mem_cons.1 hp with rfl | hp'
    · rcases List.mem_cons.1 hq with rfl | hq'
      · exact Option.some.inj (hx.symm.trans hy)
      · have := hfirst q hq'
        omega
    · rcases List.mem_cons.1 hq with rfl | hq'
      · have := hfirst p hp'
        omega
      · exact ih hrest hp' hq'

/-- A written piece reads back. -/
theorem State.writePieces_piece {ps : List AreaPage} {write : State → Word → Place → List Byte → State} {I : State → Prop}
    (hw : writesArea ps write I) (ha : pagesApart ps) (hlen : ps.length = areaPages) (a : Word)
      {pieces : List (Nat × List Byte)}
    (hpieces : ∀ p ∈ pieces, isPiece p) (hr : risingPieces pieces) {s : State} (hs : I s) {p : Nat × List Byte}
      (hp : p ∈ pieces)
    {o : Nat} (ho : o < p.2.length) : (State.writePieces write a ps pieces s).areaByte ps (p.1 + o) = p.2[o] := by
  have hbyte : pieceByte p (p.1 + o) = some p.2[o] := by
    rw [pieceByte, if_pos (Nat.le_add_right ..), Nat.add_sub_cancel_left, List.getElem?_eq_getElem ho]
  have hend := (hpieces p hp).2
  exact (State.writePieces_byte hw ha hlen a hpieces hs).2 _ _ (by omega)
    (fun q hq x hx => pieceByte_unique hr hq hp hx hbyte) (.inr ⟨p, hp, by rw [hbyte]; rfl⟩)

/-- A byte that no piece holds is kept. -/
theorem State.writePieces_kept {ps : List AreaPage} {write : State → Word → Place → List Byte → State} {I : State → Prop}
    (hw : writesArea ps write I) (ha : pagesApart ps) (hlen : ps.length = areaPages) (a : Word)
      {pieces : List (Nat × List Byte)}
    (hpieces : ∀ p ∈ pieces, isPiece p) {s : State} (hs : I s) {j : Nat} (hj : j < 90112)
    (hout : ∀ p ∈ pieces, pieceByte p j = none) : (State.writePieces write a ps pieces s).areaByte ps j = s.areaByte ps j :=
  (State.writePieces_byte hw ha hlen a hpieces hs).2 j _ hj (fun p hp x hx => by rw [hout p hp] at hx; cases hx) (.inl rfl)

/-! ## Fields of bytes (R6) -/

theorem length_flatMap_of {α : Type} {g : α → List Byte} {m : Nat} (hg : ∀ x, (g x).length = m) (l : List α) :
    (l.flatMap g).length = m * l.length := by
  induction l with
  | nil => simp
  | cons x l ih => rw [List.flatMap_cons, List.length_append, hg, ih, List.length_cons]; ring

section
variable {A B : List Byte} {o n : Nat}

theorem fieldOf_append_left (h : o + n ≤ A.length) : fieldOf (A ++ B) o n = fieldOf A o n := by
  unfold fieldOf
  rw [List.drop_append_of_le_length (by omega), List.take_append_of_le_length (by rw [List.length_drop]; omega)]

theorem fieldOf_append_right (h : A.length ≤ o) : fieldOf (A ++ B) o n = fieldOf B (o - A.length) n := by
  unfold fieldOf
  rw [List.drop_append, List.drop_eq_nil_of_le h, List.nil_append]

theorem fieldOf_take {k : Nat} (h : o + n ≤ k) : fieldOf (A.take k) o n = fieldOf A o n := by
  unfold fieldOf
  rw [List.drop_take, List.take_take, Nat.min_eq_left (by omega)]

end

theorem fieldOf_bytesOf (n x : Nat) : fieldOf (bytesOf n x) 0 n = x % 256 ^ n := by
  unfold fieldOf
  rw [List.drop_zero, List.take_of_length_le (by simp), ofBytes_bytesOf]

/-- A field of an entry of a table. -/
theorem fieldOf_flatMap {α : Type} {g : α → List Byte} {m : Nat} (hg : ∀ x, (g x).length = m) {l : List α} {i : Nat} {x : α}
    (hi : l[i]? = some x) {o n : Nat} (h : o + n ≤ m) : fieldOf (l.flatMap g) (m * i + o) n = fieldOf (g x) o n := by
  induction l generalizing i with
  | nil => cases hi
  | cons y l ih =>
    rw [List.flatMap_cons]
    cases i with
    | zero =>
      obtain rfl : y = x := by simpa using hi
      rw [Nat.mul_zero, Nat.zero_add, fieldOf_append_left (by rw [hg]; exact h)]
    | succ i =>
      rw [fieldOf_append_right (by rw [hg, Nat.mul_succ]; omega), hg, ← ih (by simpa using hi)]
      congr 1
      rw [Nat.mul_succ]; omega

/-- Bytes of a function that hold a list spell its field. -/
theorem ofBytes_bytesAt {f : Nat → Byte} {bs : List Byte} {a o n : Nat} (h : o + n ≤ bs.length)
    (hf : ∀ i (hi : o + i < bs.length), f (a + i) = bs[o + i]) : ofBytes (bytesAt f a n) = fieldOf bs o n := by
  unfold fieldOf
  congr 1
  induction n generalizing a o with
  | zero => rfl
  | succ n ih =>
    have hlt : o < bs.length := by omega
    rw [bytesAt, List.drop_eq_getElem_cons hlt, List.take_succ_cons, ← ih (a := a + 1) (by omega) fun i hi => ?_]
    · exact congrArg (· :: _) (hf 0 hlt)
    · have := hf (i + 1) (by omega)
      simpa only [Nat.add_assoc, Nat.add_comm 1, Nat.add_left_comm 1] using this

end Sys2Proof.Machine

namespace Sys2Proof.Machine

/-! ## The pieces of an area (R128) -/

/-- Offset and length of a piece. -/
def pieceSize (p : Nat × List Byte) : Nat × Nat := (p.1, p.2.length)

/-- Offset and length of every piece that an area may have. -/
def areaSizes : List (Nat × Nat) :=
  [(0, 256), (0x100, 256), (0x200, 1280), (0x700, 256), (0x800, 512), (0xA00, 1536), (0x1000, 4096)] ++
    (List.range 4).map (fun h => (0x2000 + 0x1000 * h, 4096)) ++ (List.range 32).map fun i => (0x6000 + 0x800 * i, 2048)

theorem areaSizes_rising : areaSizes.Pairwise fun p q => p.1 + p.2 ≤ q.1 := by decide +kernel

theorem areaSizes_within : ∀ p ∈ areaSizes, p.1 % 64 = 0 ∧ p.1 + p.2 ≤ 90112 := by decide +kernel

/-- The x registers and v registers by number. -/
def allRegs : List Reg := (List.range 32).map fun i => BitVec.ofNat 5 i

section
variable (t : Strand) (k : SaveKind)

/-- The first 8 KiB. -/
def Strand.frontPieces : List (Nat × List Byte) :=
  [(0, t.saveHead k (t.imageStores k.image) ++ bytesOf 160 0),
    (0x100, allRegs.flatMap fun r => bytesOf 8 (t.saveX k r).toNat),
    (0x200, (List.range 0xA0).flatMap fun i => bytesOf 8 (t.saveCr k i).toNat),
    (0x700, (allRegs.drop 24).flatMap t.saveStream),
    (0x800, (((t.imageStores k.image).flatMap SEntry.bytes) ++ bytesOf 512 0).take 512),
    (0xA00, bytesOf 1536 0),
    (0x1000, ((k.image.flatMap QEntry.bytes) ++ bytesOf 4096 0).take 4096)]

/-- The tiles that are dirty. -/
def Strand.tilePieces : List (Nat × List Byte) :=
  ((List.range 4).filter fun h => k.all || t.vdirty.getLsbD (32 + h)).map fun h =>
    (0x2000 + 0x1000 * h, bytesOf 4096 (t.tile h).toNat)

/-- The v registers that are dirty and not bound. -/
def Strand.vregPieces : List (Nat × List Byte) :=
  (allRegs.filter fun r => (k.all || t.vdirty.getLsbD r.toNat) && (t.streamOf r).isNone).map fun r =>
    (0x6000 + 0x800 * r.toNat, bytesOf 2048 (t.vget r).toNat)

theorem Strand.savePieces_eq : t.savePieces k = t.frontPieces k ++ t.tilePieces k ++ t.vregPieces k := rfl

theorem length_saveHead (stores : List SEntry) : (t.saveHead k stores).length = 96 := by simp [Strand.saveHead]

theorem length_saveStream (r : Reg) : (t.saveStream r).length = 32 := by unfold Strand.saveStream; split <;> simp

theorem SEntry.length_bytes (e : SEntry) : e.bytes.length = 32 := by simp [SEntry.bytes]

theorem QEntry.length_bytes (e : QEntry) : e.bytes.length = 64 := by simp [QEntry.bytes]

theorem Strand.frontPieces_sizes : (t.frontPieces k).map pieceSize =
    [(0, 256), (0x100, 256), (0x200, 1280), (0x700, 256), (0x800, 512), (0xA00, 1536), (0x1000, 4096)] := by
  have h8 : ∀ {α : Type} (l : List α) (g : α → Nat), (l.flatMap fun x => bytesOf 8 (g x)).length = 8 * l.length :=
    fun l g => length_flatMap_of (fun x => bytesOf_length ..) l
  simp only [Strand.frontPieces, List.map_cons, List.map_nil, pieceSize, List.length_append, length_saveHead,
    bytesOf_length,
    h8, length_flatMap_of (length_saveStream t), List.length_take, List.length_drop, allRegs, List.length_map,
      List.length_range]
  norm_num

theorem Strand.tilePieces_sizes :
    ((t.tilePieces k).map pieceSize).Sublist ((List.range 4).map fun h => (0x2000 + 0x1000 * h, 4096)) := by
  rw [Strand.tilePieces, List.map_map]
  have h : (pieceSize ∘ fun h => (0x2000 + 0x1000 * h, bytesOf 4096 (t.tile h).toNat)) =
    fun h => (0x2000 + 0x1000 * h, 4096) := by
    funext h; simp only [Function.comp_apply, pieceSize, bytesOf_length]
  rw [h]
  exact List.filter_sublist.map _

theorem Strand.vregPieces_sizes :
    ((t.vregPieces k).map pieceSize).Sublist ((List.range 32).map fun i => (0x6000 + 0x800 * i, 2048)) := by
  rw [Strand.vregPieces, List.map_map]
  have h : (pieceSize ∘ fun r : Reg => (0x6000 + 0x800 * r.toNat, bytesOf 2048 (t.vget r).toNat)) =
      fun r : Reg => (0x6000 + 0x800 * r.toNat, 2048) := by
    funext r; simp only [Function.comp_apply, pieceSize, bytesOf_length]
  have hall : (List.range 32).map (fun i => (0x6000 + 0x800 * i, 2048)) =
      allRegs.map fun r : Reg => (0x6000 + 0x800 * r.toNat, 2048) := by
    decide +kernel
  rw [h, hall]
  exact List.filter_sublist.map _

theorem Strand.savePieces_sizes : ((t.savePieces k).map pieceSize).Sublist areaSizes := by
  rw [Strand.savePieces_eq, List.map_append, List.map_append, Strand.frontPieces_sizes]
  exact ((List.Sublist.refl _).append (t.tilePieces_sizes k)).append (t.vregPieces_sizes k)

theorem Strand.savePieces_rising : risingPieces (t.savePieces k) :=
  List.pairwise_map.1 (areaSizes_rising.sublist (t.savePieces_sizes k))

theorem Strand.isPiece_of_mem {p : Nat × List Byte} (h : p ∈ t.savePieces k) : isPiece p :=
  areaSizes_within (pieceSize p) ((t.savePieces_sizes k).subset (List.mem_map_of_mem h))

end

/-! ## Reading an area back -/

/-- A reader that shows the pieces of a strand. -/
def showsPieces (rd : AreaRead) (pieces : List (Nat × List Byte)) : Prop :=
  ∀ p ∈ pieces, ∀ o n, o + n ≤ p.2.length → rd (p.1 + o) n = fieldOf p.2 o n

theorem State.areaReader_eq {s : State} (h : s.st.stores = []) (ps : List AreaPage) (off n : Nat) :
    s.areaReader ps off n = ofBytes (bytesAt (s.areaByte ps) off n) := by
  have hseen : s.seenByte = s.placeByte := funext fun p => by rw [State.seenByte, h]; rfl
  rw [State.areaReader, hseen]
  rfl

/-- A strand with no store of its own reads the pieces of an area that holds them. -/
theorem State.areaReader_shows {s : State} (h : s.st.stores = []) {ps : List AreaPage} {pieces : List (Nat × List Byte)}
    (hp : ∀ p ∈ pieces, ∀ o (ho : o < p.2.length), s.areaByte ps (p.1 + o) = p.2[o]) :
    showsPieces (s.areaReader ps) pieces := fun p hmem o n hn => by
  rw [State.areaReader_eq h]
  exact ofBytes_bytesAt hn fun i hi => by rw [Nat.add_assoc]; exact hp p hmem _ hi

/-! ## The fields of the pieces -/

/-- A field of bytes begins after a first number. -/
theorem fieldOf_skip {m x : Nat} {B : List Byte} {o n : Nat} (h : m ≤ o) :
    fieldOf (bytesOf m x ++ B) o n = fieldOf B (o - m) n := by
  rw [fieldOf_append_right (by rw [bytesOf_length]; exact h), bytesOf_length]

/-- It is that number. -/
theorem fieldOf_first (n x : Nat) (B : List Byte) : fieldOf (bytesOf n x ++ B) 0 n = x % 256 ^ n := by
  rw [fieldOf_append_left (by rw [bytesOf_length, Nat.zero_add]), fieldOf_bytesOf]

/-- A number fits the bytes of its width. -/
theorem toNat_mod_bytes {w n : Nat} (x : BitVec w) (h : w ≤ 8 * n) : x.toNat % 256 ^ n = x.toNat := by
  refine Nat.mod_eq_of_lt (x.isLt.trans_le ?_)
  rw [show 256 = 2 ^ 8 from rfl, ← Nat.pow_mul]
  exact Nat.pow_le_pow_right (by decide) h

end Sys2Proof.Machine

namespace Sys2Proof.Machine

theorem fieldOf_byte {bs : List Byte} {i : Nat} {b : Byte} (h : bs[i]? = some b) : fieldOf bs i 1 = b.toNat := by
  obtain ⟨hi, rfl⟩ := List.getElem?_eq_some_iff.1 h
  rw [fieldOf, List.drop_eq_getElem_cons hi, List.take_succ_cons, List.take_zero]
  rfl

theorem toNat_zeroExtend_of_le {w v : Nat} (x : BitVec w) (h : w ≤ v) : (x.zeroExtend v).toNat = x.toNat :=
  BitVec.toNat_setWidth_of_le h

/-- The flags of byte 0x13. -/
theorem flagByte (a b c d : Bool) : let n := bit a + 2 * bit b + 4 * bit c + 8 * bit d
    n < 256 ∧ n % 2 = (if a then 1 else 0) ∧ n.testBit 1 = b ∧ n.testBit 2 = c ∧ n.testBit 3 = d := by
  revert a b c d; decide

section
variable {rd : AreaRead} {t : Strand} {k : SaveKind} (hrd : showsPieces rd (t.savePieces k))
include hrd

theorem front_read {off : Nat} {bs : List Byte} (hp : (off, bs) ∈ t.frontPieces k) {o n : Nat} (h : o + n ≤ bs.length) :
    rd (off + o) n = fieldOf bs o n :=
  hrd (off, bs) (by rw [Strand.savePieces_eq]; exact List.mem_append_left _ (List.mem_append_left _ hp)) o n h

/-- The first 96 bytes read as they were saved. -/
theorem head_read {o n : Nat} (h : o + n ≤ 96) : rd o n = fieldOf (t.saveHead k (t.imageStores k.image)) o n := by
  have hlen := length_saveHead t k (t.imageStores k.image)
  rw [← fieldOf_append_left (B := bytesOf 160 0) (by rw [hlen]; exact h)]
  have := front_read hrd (off := 0) (bs := t.saveHead k (t.imageStores k.image) ++ bytesOf 160 0) (o := o) (n := n)
    List.mem_cons_self (by simp only [List.length_append, hlen, bytesOf_length]; omega)
  rwa [Nat.zero_add] at this

/-- The fields of the head (R128). -/
theorem head_fields (hstores : t.imageStores k.image = t.stores) :
    rd 0x00 8 = k.resume.toNat ∧ rd 0x08 8 = k.vcp.toNat ∧ rd 0x10 1 = k.image.length % 256 ∧
    rd 0x11 1 = t.stores.length % 256 ∧ rd 0x12 1 = t.claims.length % 256 ∧
    rd 0x13 1 = (bit k.supervisor + 2 * bit t.crit + 4 * bit t.vlFull + 8 * bit t.mark.isSome) ∧
    rd 0x14 2 = t.critCount % 65536 ∧ rd 0x16 1 = t.tonOwned.toNat ∧ rd 0x17 1 = k.cause % 256 ∧
    rd 0x18 4 = t.xfull.toNat ∧ rd 0x1C 4 = t.vfull.toNat ∧ rd 0x20 8 = t.tscratch.toNat ∧
    rd 0x28 8 = (t.mark.getD (0, 0)).1.toNat ∧ rd 0x30 4 = (t.mark.getD (0, 0)).2.toNat := by
  refine ⟨?_, ?_, ?_, ?_, ?_, ?_, ?_, ?_, ?_, ?_, ?_, ?_, ?_, ?_⟩ <;> rw [head_read hrd (by decide), hstores]
  all_goals
    simp only [Strand.saveHead, List.append_assoc, fieldOf_skip, fieldOf_first, Nat.reduceLeDiff, Nat.reduceSub,
      Nat.le_refl]
  case refine_6 => exact Nat.mod_eq_of_lt (flagByte ..).1
  case refine_3 | refine_4 | refine_5 | refine_7 | refine_9 => rfl
  all_goals exact toNat_mod_bytes _ (by decide)

/-- The claims of the head. -/
theorem head_claim {i : Nat} (hi : i < 32) {r : Reg} (hr : t.claims[i]? = some r) : rd (0x40 + i) 1 = r.toNat := by
  have hlen : ∀ {A B : List Byte}, A.length = 64 → fieldOf (A ++ B) (0x40 + i) 1 = fieldOf B i 1 := fun h => by
    rw [fieldOf_append_right (by omega), h, Nat.add_sub_cancel_left]
  have hclaim : ((List.range 32).map fun i => ((t.claims[i]?).map fun r => r.zeroExtend 8).getD 0)[i]? =
    some (r.zeroExtend 8) := by
    rw [List.getElem?_map, List.getElem?_range hi, Option.map_some, hr]; rfl
  rw [head_read hrd (by omega), Strand.saveHead, hlen (by simp), fieldOf_byte hclaim]
  exact toNat_zeroExtend_of_le r (by decide)

/-- Word `i` of a table of words, for a piece that is one. -/
theorem table_read {α : Type} {off : Nat} {l : List α} {g : α → Nat}
    (hp : (off, l.flatMap fun x => bytesOf 8 (g x)) ∈ t.frontPieces k)
    {i : Nat} {x : α} (hi : l[i]? = some x) : rd (off + 8 * i) 8 = g x % 256 ^ 8 := by
  have hlen : ∀ x, (bytesOf 8 (g x)).length = 8 := fun x => bytesOf_length ..
  have hlt : i < l.length := (List.getElem?_eq_some_iff.1 hi).1
  have := front_read hrd hp (o := 8 * i) (n := 8) (by rw [length_flatMap_of hlen]; omega)
  rw [this, ← Nat.add_zero (8 * i), fieldOf_flatMap hlen hi (by decide), fieldOf_bytesOf]

/-- The slot of an x register. -/
theorem xslot_read (r : Reg) : rd (0x100 + 8 * r.toNat) 8 = (t.saveX k r).toNat := by
  have hreg : allRegs[r.toNat]? = some r := by revert r; decide +kernel
  rw [table_read hrd (g := fun r => (t.saveX k r).toNat) (by simp [Strand.frontPieces]) hreg]
  exact toNat_mod_bytes _ (by decide)

/-- The slot of a control register. -/
theorem crslot_read {i : Nat} (hi : i < 0xA0) : rd (0x200 + 8 * i) 8 = (t.saveCr k i).toNat := by
  have hreg : (List.range 0xA0)[i]? = some i := by rw [List.getElem?_range hi]
  rw [table_read hrd (g := fun i => (t.saveCr k i).toNat) (by simp [Strand.frontPieces]) hreg]
  exact toNat_mod_bytes _ (by decide)

/-- A field of a queue-image entry. -/
theorem image_read {j : Nat} {e : QEntry} (hj : j < 64) (he : k.image[j]? = some e) {o n : Nat} (h : o + n ≤ 64) :
    rd (0x1000 + o + 64 * j) n = fieldOf e.bytes o n := by
  have hp := front_read hrd (off := 0x1000) (bs := ((k.image.flatMap QEntry.bytes) ++ bytesOf 4096 0).take 4096)
    (o := 64 * j + o) (n := n)
    (by simp [Strand.frontPieces]) (by simp only [List.length_take, List.length_append, bytesOf_length]; omega)
  have hlt : j < k.image.length := (List.getElem?_eq_some_iff.1 he).1
  rw [show 0x1000 + o + 64 * j = 0x1000 + (64 * j + o) by omega, hp, fieldOf_take (by omega), fieldOf_append_left (by
    rw [length_flatMap_of QEntry.length_bytes]; omega), fieldOf_flatMap QEntry.length_bytes he h]

/-- The fields of a queue-image entry (R129). -/
theorem image_fields {j : Nat} {e : QEntry} (hj : j < 64) (he : k.image[j]? = some e) :
    rd (0x1000 + 64 * j) 4 = ((encode e.instr).getD 0).toNat ∧ rd (0x1004 + 64 * j) 4 = e.raised.toNat ∧
    rd (0x1008 + 64 * j) 8 = e.pc.toNat ∧ rd (0x1010 + 64 * j) 8 = e.a.toNat ∧ rd (0x1018 + 64 * j) 8 = e.b.toNat ∧
    rd (0x1020 + 64 * j) 8 = e.d.toNat ∧ rd (0x1028 + 64 * j) 8 = e.vs.toNat ∧ rd (0x1030 + 64 * j) 2 = e.vl.toNat ∧
    rd (0x1032 + 64 * j) 1 = e.vgm.toNat ∧ rd (0x1033 + 64 * j) 1 = e.frm.toNat + (if e.fz then 8 else 0) := by
  have hread : ∀ o n, o + n ≤ 64 → rd (0x1000 + o + 64 * j) n = fieldOf e.bytes o n := fun o n h => image_read hrd hj he h
  refine ⟨(hread 0 4 (by decide)).trans ?_, (hread 4 4 (by decide)).trans ?_, (hread 8 8 (by decide)).trans ?_,
    (hread 16 8 (by decide)).trans ?_, (hread 24 8 (by decide)).trans ?_, (hread 32 8 (by decide)).trans ?_,
    (hread 40 8 (by decide)).trans ?_, (hread 48 2 (by decide)).trans ?_, (hread 50 1 (by decide)).trans ?_,
    (hread 51 1 (by decide)).trans ?_⟩
  all_goals
    simp only [QEntry.bytes, List.append_assoc, fieldOf_skip, fieldOf_first, Nat.reduceLeDiff, Nat.reduceSub, Nat.le_refl]
  case refine_1 =>
    rw [wordOf, toNat_zeroExtend_of_le _ (by decide)]
    exact toNat_mod_bytes _ (by decide)
  case refine_10 =>
    have := e.frm.isLt
    split <;> omega
  all_goals exact toNat_mod_bytes _ (by decide)

/-- A dirty v register that no stream binds. -/
theorem vreg_read {r : Reg} (hd : t.vdirty.getLsbD r.toNat = true) (hs : t.streamOf r = none) :
    rd (0x6000 + 0x800 * r.toNat) 2048 = (t.vget r).toNat := by
  have hmem : (0x6000 + 0x800 * r.toNat, bytesOf 2048 (t.vget r).toNat) ∈ t.savePieces k := by
    rw [Strand.savePieces_eq]
    refine List.mem_append_right _ (List.mem_map.2 ⟨r, List.mem_filter.2 ⟨?_, ?_⟩, rfl⟩)
    · clear hd hs hrd; revert r; decide +kernel
    · rw [hd, hs, Bool.or_true]; rfl
  have := hrd _ hmem 0 2048 (by simp)
  rw [Nat.add_zero, fieldOf_bytesOf] at this
  rw [this]
  exact toNat_mod_bytes _ (by decide)

/-- A dirty tile. -/
theorem tile_read (h : Fin 4) (hd : t.vdirty.getLsbD (32 + h.val) = true) :
    rd (0x2000 + 0x1000 * h.val) 4096 = t.tiles[h].toNat := by
  have hmem : (0x2000 + 0x1000 * h.val, bytesOf 4096 (t.tile h).toNat) ∈ t.savePieces k := by
    rw [Strand.savePieces_eq]
    refine List.mem_append_left _ (List.mem_append_right _ (List.mem_map.2 ⟨h.val, List.mem_filter.2 ⟨?_, ?_⟩, rfl⟩))
    · exact List.mem_range.2 h.isLt
    · rw [hd, Bool.or_true]
  have := hrd _ hmem 0 4096 (by simp)
  rw [Nat.add_zero, fieldOf_bytesOf] at this
  have hlt : h.val < t.tiles.toArray.size := by rw [Vector.size_toArray]; exact h.isLt
  rw [this, toNat_mod_bytes _ (by decide), Strand.tile, Vector.getD, Array.getD, dif_pos hlt]
  rfl

/-- A reader that shows the pieces of a strand shows the strand. -/
theorem areaShows_of (hstores : t.imageStores k.image = t.stores) (hvcp : ∀ e, k.image.head? = some e → k.vcp = e.pc) :
    areaShows rd t k := by
  obtain ⟨hresume, hrvcp, hq, hn, hc, hflags, hcount, hton, hcause, hxfull, hvfull, htscr, hmark, hphase⟩ :=
    head_fields hrd hstores
  obtain ⟨-, hsup, hcrit, hvl, hhas⟩ := flagByte k.supervisor t.crit t.vlFull t.mark.isSome
  refine ⟨hresume, fun e he => ?vcp, hq, hn, hc, ?sup, ?crit, ?vl, ?mark, hcount, hton, hcause, hxfull, hvfull, htscr,
    fun m hm => ?phase, fun i r hi hr => head_claim hrd hi hr, fun r => ?x, fun i hi h6 => ?cr,
      fun j e hj he => image_fields hrd hj he,
    fun r hd hs => vreg_read hrd hd hs, fun h hd => tile_read hrd h hd⟩
  case vcp => rw [hrvcp, hvcp e he]
  case sup => rw [hflags, hsup]
  case crit => rw [hflags, hcrit]
  case vl => rw [hflags, hvl]
  case mark => rw [hflags, hhas]
  case phase => rw [hmark, hphase, hm]; exact ⟨rfl, rfl⟩
  case x =>
    rw [xslot_read hrd, Strand.saveX]
    by_cases h0 : r = 0
    · subst h0; simp [Strand.xget]
    · rw [if_neg h0]
      simp only [ne_eq, h0, not_false_iff, decide_true, Bool.and_true, beq_iff_eq]
      exact apply_ite BitVec.toNat ..
  case cr => rw [crslot_read hrd hi, Strand.saveCr, if_neg h6]

end

end Sys2Proof.Machine

namespace Sys2Proof.Machine

/-! ## The pages of an area -/

/-- The pages that checks allow are as many as were asked for, and each is the place of a check. -/
theorem pagePlaces_ok {chk : Word → Chk} {skew : Word → Nat} {a : Word} {n k : Nat} {ps : List AreaPage}
    (h : pagePlaces chk skew a n k = .ok ps) : ps.length = n ∧ ∀ g ∈ ps, ∃ va d, chk va = .ok g.place d := by
  induction n generalizing k ps with
  | zero => cases h; exact ⟨rfl, nofun⟩
  | succ n ih =>
    simp only [pagePlaces] at h
    split at h
    · cases h
    · next p d hp =>
      split at h
      · cases h
      · next qs hqs =>
        cases h
        obtain ⟨hlen, hall⟩ := ih hqs
        refine ⟨by rw [List.length_cons, hlen], fun g hg => ?_⟩
        rcases List.mem_cons.1 hg with rfl | hg
        · exact ⟨_, d, hp⟩
        · exact hall g hg

/-- The place of a page check that passes lies in device memory or in host memory. -/
theorem State.checkFor_place {s : State} {user : Bool} {ctx : BitVec 12} {acc : Acc} {align : Nat} {a : Word}
    {p : Place} {d : Bool}
    (h : s.checkFor user ctx acc align a = .ok p d) : (∃ m, p = .mem m) ∨ ∃ m, p = .host m := by
  have hphys : ∀ skew pa, (∃ m, placeOfPhys skew pa = .mem m) ∨ ∃ m, placeOfPhys skew pa = .host m := fun skew pa => by
    unfold placeOfPhys; split
    · exact .inr ⟨_, rfl⟩
    · exact .inl ⟨_, rfl⟩
  have hpage : ∀ {w user a}, pageCheck w acc user a = .ok p d → (∃ m, p = .mem m) ∨ ∃ m, p = .host m := by
    intro w user a h
    unfold pageCheck at h
    split at h
    · cases h
    · cases h
    · dsimp only at h
      repeat' split at h
      all_goals cases h
      exact hphys ..
  unfold State.checkFor at h
  split at h
  · cases h
  · split at h
    · cases h
    · dsimp only at h
      split at h
      · cases h
      · unfold State.hostFault at h
        split at h
        · split at h
          · cases h
          · exact hpage h
        · exact hpage h

theorem State.writable_of_page {s : State} {p : Place} (h : (∃ m, p = .mem m) ∨ ∃ m, p = .host m) : s.writable p := by
  rcases h with ⟨m, rfl⟩ | ⟨m, rfl⟩ <;> trivial

/-- A place further in a page can be written where the page can. -/
theorem State.writable_along {s : State} (skew : Nat) {p : Place} (h : s.writable p) (i : Nat) :
    s.writable (p.along skew i) := by
  cases p <;> exact h

/-- A place of a page in memory lies in memory. -/
theorem Place.along_page (skew : Nat) {p : Place} (h : (∃ m, p = .mem m) ∨ ∃ m, p = .host m) (i : Nat) :
    (∃ m, p.along skew i = .mem m) ∨ ∃ m, p.along skew i = .host m := by
  rcases h with ⟨m, rfl⟩ | ⟨m, rfl⟩
  · exact .inl ⟨_, rfl⟩
  · exact .inr ⟨_, rfl⟩

theorem exists_page {ps : List AreaPage} {off : Nat} {p : Place} (h : areaPlace ps off = some p) :
    ∃ g ∈ ps, p = g.place.along g.skew (off % 4096) := by
  unfold areaPlace at h
  obtain ⟨g, hg, rfl⟩ := Option.map_eq_some_iff.1 h
  exact ⟨g, List.mem_of_getElem? hg, rfl⟩

/-! ## Writes of an area where nothing is logged -/

/-- What every entry of a table keeps under a map, its lookup keeps. -/
theorem tabGet_map {α β : Type} (d : α) {f : α → α} {g : α → β} (h : ∀ c, g (f c) = g c) (l : List (Nat × α)) (n : Nat) :
    g (tabGet d (l.map fun p => (p.1, f p.2)) n) = g (tabGet d l n) := by
  induction l with
  | nil => rfl
  | cons p l ih =>
    obtain ⟨k, c⟩ := p
    simp only [List.map_cons, tabGet]
    split
    · exact h c
    · exact ih

/-- A raw write switches no undo log. -/
theorem State.rawWrite_ulOn (s : State) (device : Bool) (a : Nat) (bs : List Byte) (ctx : BitVec 12) :
    ((s.rawWrite device a bs).context ctx).ulOn = (s.context ctx).ulOn :=
  tabGet_map CtxSt.reset (g := CtxSt.ulOn) (f := noteHit device (setCells 0 a bs s.mem) a bs.length) (fun _ => rfl) s.ctxs _

/-- A write to the cluster-scratch window keeps its range. -/
theorem State.storeAt_cRange (s : State) (va : Word) (a : Nat) (bs : List Byte) :
    (s.storeAt va (.cscratch a) bs).cRange.isSome = s.cRange.isSome := by
  have hcl : (s.storeAt va (.cscratch a) bs).cRange =
      ((s.cluster (clusterOf s.cur)).ranges.map fun r =>
        if r.launch == s.st.iter.launch then { r with cells := keepCells a bs r.cells, bad := healLines a bs.length r.bad }
        else r).find? fun r => r.launch == s.st.iter.launch && s.st.iter.work == .launch := by
    simp only [State.cRange, State.storeAt, State.setCluster, State.cluster, tabGet_tabSet_self]
  rw [hcl, List.find?_map, Option.isSome_map, State.cRange]
  congr 2
  funext r
  simp only [Function.comp_apply]
  split <;> rfl

/-- The machine `t` after writes to an area of machine `s`: storage, the marks of its lines, and clocks have changed, and
the pages can still be written. -/
structure State.areaWritten (s : State) (ps : List AreaPage) (t : State) : Prop where
  flights : t.flights = []
  log : (t.context s.st.ctx).ulOn = false
  wf : Memory.wf t.mem = true
  st : t.st = { s.st with
    scratch := t.st.scratch, scratchBad := t.st.scratchBad, batch := t.st.batch
    batchBad := t.st.batchBad }
  rest : t = { s with
    st := t.st, mem := t.mem, poison := t.poison, monitors := t.monitors, ctxs := t.ctxs, dies := t.dies
    hostMem := t.hostMem, hostPoison := t.hostPoison, clusters := t.clusters }
  writable : ∀ off p, areaPlace ps off = some p → t.writable p

/-- Nothing has been written yet. -/
theorem State.areaWritten_refl {s : State} {ps : List AreaPage} (hf : s.flights = [])
    (hu : (s.context s.st.ctx).ulOn = false)
    (hm : Memory.wf s.mem = true) (hw : ∀ g ∈ ps, s.writable g.place) : s.areaWritten ps s where
  flights := hf
  log := hu
  wf := hm
  st := rfl
  rest := rfl
  writable := fun off p hp => by
    obtain ⟨g, hg, rfl⟩ := exists_page hp
    exact State.writable_along _ (hw g hg) _

section
variable {s : State} {ps : List AreaPage}

theorem State.areaWritten.noUndo {t : State} (h : s.areaWritten ps t) (p : Place) : t.noUndo p := by
  have hctx : t.st.ctx = s.st.ctx := by rw [h.st]
  cases p with
  | mem a => exact (congrArg (fun c => (t.context c).ulOn) hctx).trans h.log
  | _ => trivial

/-- A write at a place of the area is one more. -/
theorem State.areaWritten.write {t : State} (h : s.areaWritten ps t) {p : Place} (hp : t.writable p) (va : Word)
    (bs : List Byte) :
    s.areaWritten ps (t.writePlace va p bs) := by
  have hwf := State.writePlace_wf t va p bs h.flights (h.noUndo p) h.wf
  have hst := State.writePlace_st t va p bs h.flights (h.noUndo p)
  have hst' : (t.writePlace va p bs).st = { s.st with
      scratch := (t.writePlace va p bs).st.scratch, scratchBad := (t.writePlace va p bs).st.scratchBad
      batch := (t.writePlace va p bs).st.batch, batchBad := (t.writePlace va p bs).st.batchBad } := by
    rw [h.st] at hst
    exact hst
  have hrest := h.rest
  cases p with
  | blob a => exact absurd hp id
  | mem a =>
    obtain ⟨ds, hd⟩ := t.writePlace_mem va a bs h.flights (h.noUndo (.mem a))
    refine ⟨?_, ?_, hwf, hst', ?_, fun off q hq => ?_⟩
    · rw [hd]; exact h.flights
    · rw [hd]; exact (State.rawWrite_ulOn ..).trans h.log
    · rw [hd, hrest]; rfl
    · rw [hd]; exact h.writable off q hq
  | host a =>
    obtain ⟨ds, hd⟩ := t.writePlace_host va a bs h.flights
    refine ⟨?_, ?_, hwf, hst', ?_, fun off q hq => ?_⟩
    · rw [hd]; exact h.flights
    · rw [hd]; exact h.log
    · rw [hd, hrest]; rfl
    · rw [hd]; exact h.writable off q hq
  | cscratch a =>
    rw [State.writePlace_own _ _ _ _ rfl] at *
    refine ⟨h.flights, h.log, hwf, hst', ?_, fun off q hq => ?_⟩
    · rw [hrest]; rfl
    · have hq := h.writable off q hq
      cases q with
      | cscratch b => exact (State.storeAt_cRange ..).trans hq
      | _ => exact hq
  | _ =>
    rw [State.writePlace_own _ _ _ _ rfl] at *
    refine ⟨h.flights, h.log, hwf, hst', ?_, h.writable⟩
    rw [hrest]; rfl

end

end Sys2Proof.Machine

namespace Sys2Proof.Machine

/-! ## What every write keeps of the strand in focus

A write may apply others that are in flight, log lines and post notices (R296, R323, R349). Of a strand these do four
things. -/

/-- A relation of a strand before and after, which holds over each thing that a write does to a strand. -/
structure Strand.OverWrites (R : Strand → Strand → Prop) : Prop where
  refl : ∀ t, R t t
  trans : ∀ {t u v}, R t u → R u v → R t v
  /-- the oldest store has landed -/
  landed : ∀ (t : Strand) (e : SEntry) (rest : List SEntry), t.stores = e :: rest →
    R t { t with stores := rest, iter := { t.iter with effects := true } }
  posted : ∀ (t : Strand) (e : EvRec), R t (t.post e)
  noticed : ∀ (t : Strand) (e : EvRec), R t { t with notices := t.notices ++ [e] }
  spilled : ∀ (t : Strand) (e : EvRec) (n k : Nat),
    R t { t.post e with spills := n, iter := { t.iter with slot := some k } }

theorem Strand.OverWrites.same {R : Strand → Strand → Prop} (hR : Strand.OverWrites R) {s t : State} (h : t.st = s.st) :
    R s.st t.st := h ▸ hR.refl _

section
variable {R : Strand → Strand → Prop} (hR : Strand.OverWrites R)
include hR

theorem State.updIter_over (s : State) (id : Nat) {f : Strand → Strand} (hf : ∀ t, R t (f t)) :
    R s.st (s.updIter id f).st := by
  unfold State.updIter
  dsimp only
  split
  · exact hf _
  · exact hR.refl _

theorem State.postBy_over {wr : State → BitVec 12 → Word → Place → List Byte → State}
    (hw : ∀ (s : State) ctx va p bs, R s.st (wr s ctx va p bs).st) (s : State) (id : Nat) (e : EvRec) :
    R s.st (s.postBy wr id e).st := by
  unfold State.postBy
  split
  · exact hR.refl _
  · split
    · exact State.updIter_over hR s id (hR.posted · e)
    · split
      · exact State.updIter_over hR s id (hR.noticed · e)
      · refine hR.trans (?_ : R s.st _) (State.updIter_over hR _ id fun t => hR.spilled t e _ _)
        split <;> exact hw ..

theorem State.putAt_over (s : State) (p : Place) (bs : List Byte) : R s.st (s.putAt p bs).st := by
  cases p <;> exact hR.refl _

omit hR in
theorem State.putUndo_st (s : State) (ctx : BitVec 12) (va : Word) (line p q : Nat) :
    (s.putUndo ctx va line p q).st = s.st := by
  unfold State.putUndo State.setContext
  dsimp only [State.rawWrite]

section
variable {cross : Cross} (hc : ∀ (s : State) (k : Nat) (p : Place), R s.st (cross s k p).st)
include hc

theorem State.logFull_over (s : State) (ctx : BitVec 12) (line : Nat) : R s.st (s.logFull cross ctx line).st := by
  have hpost : ∀ (t : State) (id : Nat) (e : EvRec),
      R t.st (t.postBy (fun s _ _ p bs => (cross s (lineDie line) p).putAt p bs) id e).st := fun t id e =>
    State.postBy_over hR (fun s _ _ p bs => hR.trans (hc s _ p) (State.putAt_over hR _ p bs)) t id e
  unfold State.logFull
  dsimp only
  split
  · exact hpost (s.setContext ctx _) _ _
  · split
    · exact hpost (s.setContext ctx _) _ _
    · exact hR.refl _

theorem State.logLine_over (s : State) (ctx : BitVec 12) (va : Word) (line : Nat) :
    R s.st (s.logLine cross ctx va line).st := by
  unfold State.logLine
  split
  · exact hR.refl _
  · split
    · exact State.logFull_over hR hc ..
    · next p q _ =>
      have h2 := hR.trans (hc s (lineDie line) (.mem p)) (hc _ (lineDie line) (.mem q))
      dsimp only
      split
      · exact h2
      · split
        · exact hR.trans h2 (State.logFull_over hR hc ..)
        · rw [State.putUndo_st]; exact h2

theorem State.logLines_over (s : State) (ctx : BitVec 12) (va : Word) (line n : Nat) :
    R s.st (s.logLines cross ctx va line n).st := by
  induction n generalizing s line with
  | zero => exact hR.refl _
  | succ n ih => exact hR.trans (State.logLine_over hR hc ..) (ih ..)

theorem State.landBy_over (s : State) (ctx : BitVec 12) (va : Word) (p : Place) (bs : List Byte) :
    R s.st (s.landBy cross ctx va p bs).st := by
  cases p with
  | mem a =>
    show R s.st (s.logFor cross ctx va a bs.length).st
    unfold State.logFor
    split
    · exact hR.refl _
    · exact State.logLines_over hR hc ..
  | _ => exact hR.refl _

theorem State.landFlightBy_over (s : State) (f : DieWrite) : R s.st (s.landFlightBy cross f).st := by
  have hland : ∀ (u : State) (n : Nat) (e : SEntry) (rest : List SEntry), (u.strand n).stores = e :: rest →
      R u.st (u.setStrand n
        { u.strand n with stores := rest, iter := { (u.strand n).iter with effects := true } }).st :=
          fun u n e rest he => by
    unfold State.setStrand
    split
    · next hn =>
      simp only [State.strand, hn, if_true] at he ⊢
      exact hR.landed _ e rest he
    · exact hR.refl _
  unfold State.landFlightBy
  dsimp only
  have h0 : R s.st ({ s.setDie f.dest { s.die f.dest with clock := laterClock (s.die f.dest).clock f.clock } with
      flights := s.flights.erase f } : State).st := hR.refl _
  generalize ({ s.setDie f.dest { s.die f.dest with clock := laterClock (s.die f.dest).clock f.clock } with
      flights := s.flights.erase f } : State) = u at h0 ⊢
  split
  · exact h0
  · next e rest he =>
    split
    · exact hR.trans h0 (hR.trans (hland u f.strand e rest he) (State.landBy_over hR hc ..))
    · exact h0

theorem State.deliverNamed_over (k d n : Nat) (s : State) : R s.st (State.deliverNamed cross k d n s).st := by
  induction n generalizing s with
  | zero => exact hR.refl _
  | succ n ih =>
    unfold State.deliverNamed
    dsimp only
    split
    · exact hR.refl _
    · exact hR.trans (State.landFlightBy_over hR hc ..) (ih _)

end

theorem State.crossBy_over (n : Nat) (s : State) (k : Nat) (p : Place) : R s.st (State.crossBy n s k p).st := by
  induction n generalizing s k p with
  | zero => exact hR.refl _
  | succ n ih =>
    unfold State.crossBy
    dsimp only
    split
    · exact hR.refl _
    · exact State.deliverNamed_over hR ih ..

theorem State.land_over (s : State) (ctx : BitVec 12) (va : Word) (p : Place) (bs : List Byte) :
    R s.st (s.land ctx va p bs).st :=
  State.landBy_over hR (fun s _ _ => State.crossBy_over hR (s.flights.length + 1) s _ _) ..

/-- A write at a place of memory or in a window, where the windows' contents do not matter. -/
theorem State.writePlace_over (hwin : ∀ (t : Strand) a b c d,
      R t { t with scratch := a, scratchBad := b, batch := c, batchBad := d })
    (s : State) (va : Word) (p : Place) (bs : List Byte) : R s.st (s.writePlace va p bs).st := by
  have hcross : R s.st (s.crossed (dieOf s.cur) p).st := State.crossBy_over hR (s.flights.length + 1) s (dieOf s.cur) p
  refine hR.trans hcross ?_
  unfold State.writePlace
  cases p with
  | mem a => exact State.land_over hR ..
  | host a => exact State.land_over hR ..
  | scratch a => exact hwin _ _ _ _ _
  | batch a => exact hwin _ _ _ _ _
  | cscratch a => exact hR.same rfl
  | blob a => exact hR.refl _

end

/-- Lines that are written one after another keep what one write keeps. -/
theorem State.writeLines_over {R : State → State → Prop} (hrefl : ∀ s, R s s) (htrans : ∀ {s t u}, R s t → R t u → R s u)
    {write : State → Word → Place → List Byte → State} (hw : ∀ s va p bs, R s (write s va p bs)) (a : Word)
    (ps : List AreaPage) (ls : List (Nat × List Byte)) (s : State) : R s (State.writeLines write a ps ls s) := by
  induction ls generalizing s with
  | nil => exact hrefl s
  | cons l ls ih =>
    obtain ⟨off, bs⟩ := l
    unfold State.writeLines
    split
    · exact hrefl s
    · exact htrans (hw ..) (ih _)

end Sys2Proof.Machine

namespace Sys2Proof.Machine

/-! ## A strand as `ctxsv` shows it (R73, R128) -/

theorem flagsTaken_seqs (es : List QEntry) : (flagsTaken es).1.map QEntry.seq = es.map QEntry.seq := by
  induction es with
  | nil => rfl
  | cons e es ih => simp only [flagsTaken, List.map_cons, ih]

theorem flagsTaken_of_zero {es : List QEntry} (h : ∀ e ∈ es, e.scalar = 0) : flagsTaken es = (es, 0) := by
  induction es with
  | nil => rfl
  | cons e es ih =>
    have he : e.scalar = 0 := h e (by simp)
    have hor : ∀ f : FFlags, f ||| 0 = f := fun _ => BitVec.or_zero
    have hself : ({ e with raised := e.raised ||| 0, scalar := 0 } : QEntry) = e := by rw [hor, ← he]
    simp only [flagsTaken, ih fun x hx => h x (by simp [hx]), he, hor 0, hself]

theorem Strand.shown_same (t : Strand) : t.shown =
    { t with fflags := t.shown.fflags, ffirst := t.shown.ffirst, image := (flagsTaken t.image).1 } := by
  conv_lhs => rw [Strand.shown, Strand.takeFlags, Strand.mergeScalar_same]
  rfl

theorem Strand.shown_of_zero {t : Strand} (h : ∀ e ∈ t.image, e.scalar = 0) : t.shown = t := by
  rw [Strand.shown, Strand.takeFlags, Strand.mergeScalar_of_zero t h, flagsTaken_of_zero h]

/-- The stores of the image leave the strand, so where every store is one of them none is left. -/
theorem Strand.afterSave_stores {t : Strand} (h : ∀ e ∈ t.stores, ∃ k ∈ t.image.map QEntry.seq, e.after = some k) :
    t.afterSave.stores = [] := by
  refine List.filter_eq_nil_iff.2 fun e he => ?_
  obtain ⟨k, hk, hafter⟩ := h e he
  simpa [hafter] using hk

theorem Strand.imageStores_all {t : Strand} {es : List QEntry}
    (h : ∀ e ∈ t.stores, ∃ k ∈ es.map QEntry.seq, e.after = some k) : t.imageStores es = t.stores := by
  refine List.filter_eq_self.2 fun e he => ?_
  obtain ⟨k, hk, hafter⟩ := h e he
  simpa [hafter] using hk

/-! ## What the writes of an area leave of the strand -/

/-- The strand stands where it did, with its image and no store that it did not have. -/
structure Strand.Stands (t u : Strand) : Prop where
  pc : u.pc = t.pc
  level : u.level = t.level
  image : u.image = t.image
  stores : ∀ e ∈ u.stores, e ∈ t.stores

theorem Strand.post_stands (t : Strand) (e : EvRec) : t.Stands (t.post e) := by
  unfold Strand.post
  split
  · exact ⟨by simp, by simp, by simp, by simp⟩
  · exact ⟨rfl, rfl, rfl, fun _ h => h⟩

theorem Strand.Stands.overWrites : Strand.OverWrites Strand.Stands where
  refl _ := ⟨rfl, rfl, rfl, fun _ h => h⟩
  trans h h' := ⟨h'.pc.trans h.pc, h'.level.trans h.level, h'.image.trans h.image, fun e he => h.stores e (h'.stores e he)⟩
  landed t e rest h := ⟨rfl, rfl, rfl, fun x hx => by rw [h]; exact List.mem_cons_of_mem _ hx⟩
  posted := Strand.post_stands
  noticed _ _ := ⟨rfl, rfl, rfl, fun _ h => h⟩
  spilled t e n k := ⟨(t.post_stands e).pc, (t.post_stands e).level, (t.post_stands e).image, (t.post_stands e).stores⟩

theorem State.writePieces_stands (a : Word) (ps : List AreaPage) (pieces : List (Nat × List Byte)) (s : State) :
    s.st.Stands (State.writePieces State.writePlace a ps pieces s).st := by
  have hR := Strand.Stands.overWrites
  exact State.writeLines_over (R := fun s t : State => s.st.Stands t.st) (fun s => hR.refl s.st) hR.trans
    (State.writePlace_over hR fun _ _ _ _ _ => ⟨rfl, rfl, rfl, fun _ h => h⟩) ..

/-! ## `ctxsv` -/

/-- The strand once `ctxsv` has saved it. -/
def Strand.leaveArea (t : Strand) : Strand := { t.shown.afterSave with iter := { t.iter with effects := true } }

theorem Strand.leaveArea_of {t : Strand} (h : t.shown = t) :
    t.leaveArea = { t.afterSave with iter := { t.iter with effects := true } } := by
  rw [Strand.leaveArea, h]

/-- The machine once `ctxsv` has saved. -/
def State.savedAt (s : State) (a : Reg) (ps : List AreaPage) : State :=
  ((State.writePieces State.writePlace (s.st.xget a) ps
    (s.st.shown.savePieces (s.st.shown.svKind true (some a) false)) s).upd Strand.leaveArea).advance

/-- `ctxsv` with its operand, once it is checked. -/
theorem exec_ctxsv {s : State} {a : Reg} (hl : s.st.level = .supervisor) (hu : s.usable [a] []) :
    exec (.ctxsv a) s = .next (
      if areaMisaligned (s.st.xget a) then s.trap 0x08 (s.st.xget a)
      else if s.st.saveWaits then s.stall
      else if s.st.xpoison ≠ 0 ∨ s.st.vpoison ≠ [] then s.machineCheck 0 0
      else
        match pagePlaces (fun x => s.check .write 1 4096 x) (s.skewSeen s.st.stores s.st.ctx) (s.st.xget a) areaPages 0 with
        | .error (c, x) =>
          (State.writePieces State.writePlace (s.st.xget a)
            (goodPlaces (fun x => s.check .write 1 4096 x) (s.skewSeen s.st.stores s.st.ctx) (s.st.xget a) areaPages 0)
            (s.st.shown.savePieces (s.st.shown.svKind true (some a) false)) s).trap c x
        | .ok ps => s.savedAt a ps) := by
  show execCtxsv a s = _
  unfold execCtxsv State.supervisor
  rw [if_neg (by rw [hl]; decide)]
  dsimp only
  rw [State.gated_of_usable _ hu]
  rfl

theorem areaMisaligned_of_aligned {va : Word} (h : va.toNat % 4096 = 0) : areaMisaligned va = false := by
  simp [areaMisaligned, h]

section
variable {s : State} {a : Reg} {ps : List AreaPage}

/-- What the save leaves, whatever the writes bring with them. -/
theorem State.savedAt_leaves (hl : s.st.level = .supervisor)
    (hst : ∀ e ∈ s.st.stores, ∃ k ∈ s.st.image.map QEntry.seq, e.after = some k) :
    let t := s.savedAt a ps
    t.st.pc = s.st.pc + 4 ∧ t.st.image = [] ∧ t.st.stores = [] ∧ t.st.held = false ∧ t.st.claims = [] ∧
      t.st.level = .supervisor := by
  have h := State.writePieces_stands (s.st.xget a) ps (s.st.shown.savePieces (s.st.shown.svKind true (some a) false)) s
  unfold State.savedAt
  generalize State.writePieces State.writePlace (s.st.xget a) ps _ s = u at h ⊢
  have hstores : u.st.shown.afterSave.stores = [] := Strand.afterSave_stores fun e he => by
    rw [Strand.shown_same] at he ⊢
    rw [flagsTaken_seqs, h.image]
    exact hst e (h.stores e he)
  refine ⟨?_, rfl, hstores, rfl, rfl, ?_⟩
  · show u.st.shown.pc + 4 = s.st.pc + 4
    rw [Strand.shown_same]; exact congrArg (· + 4) h.pc
  · show u.st.shown.level = .supervisor
    rw [Strand.shown_same]; exact h.level.trans hl

/-! ## The area that `ctxsv` writes -/

theorem State.areaWritten_writes : writesArea ps State.writePlace (s.areaWritten ps) := fun _ h va off p bs hp =>
  ⟨h.write (h.writable off p hp) va bs,
    State.writePlace_stores _ va p bs h.wf h.flights (h.noUndo p) (h.writable off p hp)⟩

/-- The pages of `ctxsv` are a whole area, and each can be written. -/
theorem State.pages_writable {skew : Word → Nat} {va : Word}
    (hp : pagePlaces (fun x => s.check .write 1 4096 x) skew va areaPages 0 = .ok ps) :
    ps.length = areaPages ∧ ∀ g ∈ ps, s.writable g.place := by
  obtain ⟨hlen, hall⟩ := pagePlaces_ok hp
  refine ⟨hlen, fun g hg => ?_⟩
  obtain ⟨x, d, hx⟩ := hall g hg
  exact State.check_writable (by decide) hx

/-- The vector unit's point of a nonempty image is its head. -/
theorem Strand.vcp_of_head {t : Strand} (hq : t.queue = []) {e : QEntry} (he : t.image.head? = some e) (executing : Bool) :
    t.vcp executing = e.pc := by
  obtain ⟨es, hes⟩ := List.head?_eq_some_iff.1 he
  rw [Strand.vcp, hq, hes]
  rfl

/-- Offset and length of the pieces below the v registers. -/
def lowSizes : List (Nat × Nat) :=
  [(0, 256), (0x100, 256), (0x200, 1280), (0x700, 256), (0x800, 512), (0xA00, 1536), (0x1000, 4096)] ++
    (List.range 4).map fun h => (0x2000 + 0x1000 * h, 4096)

theorem lowSizes_within : ∀ p ∈ lowSizes, p.1 + p.2 ≤ 0x6000 := by decide +kernel

/-- A v register that is not dirty has no piece. -/
theorem Strand.savePieces_clean {t : Strand} {k : SaveKind} (hall : k.all = false) {r : Reg}
    (hr : t.vdirty.getLsbD r.toNat = false)
    {i : Nat} (hi : i < 2048) : ∀ p ∈ t.savePieces k, pieceByte p (0x6000 + 0x800 * r.toNat + i) = none := by
  intro p hp
  cases hx : pieceByte p (0x6000 + 0x800 * r.toNat + i) with
  | none => rfl
  | some x =>
    obtain ⟨hlo, hhi⟩ := lt_of_pieceByte hx
    rw [Strand.savePieces_eq] at hp
    rcases List.mem_append.1 hp with hp | hp
    · have hend : p.1 + p.2.length ≤ 0x6000 := by
        have hsize : pieceSize p ∈ lowSizes := by
          have hsub := (List.Sublist.refl ((t.frontPieces k).map pieceSize)).append (t.tilePieces_sizes k)
          rw [← List.map_append, Strand.frontPieces_sizes] at hsub
          exact hsub.subset (List.mem_map_of_mem hp)
        exact lowSizes_within _ hsize
      omega
    · obtain ⟨q, hq, rfl⟩ := List.mem_map.1 hp
      obtain ⟨-, hq⟩ := List.mem_filter.1 hq
      have hdirty : t.vdirty.getLsbD q.toNat = true := by
        rw [hall, Bool.false_or] at hq
        exact (Bool.and_eq_true_iff.1 hq).1
      have hne : q.toNat ≠ r.toNat := fun h => by rw [h, hr] at hdirty; cases hdirty
      rw [bytesOf_length] at hhi
      omega

/-- The machine of a save whose writes log nothing and apply no other write, and whose image no scalar flag stands
behind. -/
theorem State.savedAt_kept (hl : s.st.level = .supervisor)
    (hp : pagePlaces (fun x => s.check .write 1 4096 x) (s.skewSeen s.st.stores s.st.ctx)
      (s.st.xget a) areaPages 0 = .ok ps)
    (hst : ∀ e ∈ s.st.stores, ∃ k ∈ s.st.image.map QEntry.seq, e.after = some k) (hq : s.st.queue = [])
    (hu : (s.context s.st.ctx).ulOn = false) (hf : s.flights = []) (hm : Memory.wf s.mem = true)
    (hsc : ∀ e ∈ s.st.image, e.scalar = 0) (ha : pagesApart ps) :
    let t := s.savedAt a ps
    s.keepsX t [] ∧ s.keepsV t [] ∧ t.st.vm = s.st.vm ∧ s.keepsFlags t ∧ s.keepsModes t ∧ s.keepsTiles t ∧
    areaShows (t.areaReader ps) s.st (s.st.svKind true (some a) false) ∧
    ∀ (r : Reg) i, s.st.vdirty.getLsbD r.toNat = false → i < 2048 →
      t.areaReader ps (0x6000 + 0x800 * r.toNat + i) 1 = (s.areaByte ps (0x6000 + 0x800 * r.toNat + i)).toNat := by
  intro t
  have hempty : t.st.stores = [] := (State.savedAt_leaves hl hst).2.2.1
  obtain ⟨hlen, hw⟩ := State.pages_writable hp
  have hI := State.areaWritten_refl hf hu hm hw
  have hwr := State.areaWritten_writes (s := s) (ps := ps)
  have hpieces := fun p => s.st.isPiece_of_mem (s.st.svKind true (some a) false) (p := p)
  have hshown := Strand.shown_of_zero hsc
  obtain ⟨u, hu⟩ : ∃ u, u = State.writePieces State.writePlace (s.st.xget a) ps
      (s.st.savePieces (s.st.svKind true (some a) false)) s := ⟨_, rfl⟩
  have hI' : s.areaWritten ps u := hu ▸ (State.writePieces_byte hwr ha hlen (s.st.xget a) hpieces hI).1
  have hus : u.st.shown = u.st := Strand.shown_of_zero (by rw [hI'.st]; exact hsc)
  have ht : t = { u with st := ({ u.st.afterSave with iter := { u.st.iter with effects := true } } : Strand).next } := by
    show s.savedAt a ps = _
    rw [State.savedAt, hshown, ← hu, State.upd, Strand.leaveArea_of hus]
    rfl
  have hbyte : ∀ j, t.areaByte ps j = u.areaByte ps j := fun j => by
    have : t.placeByte = u.placeByte := by rw [ht]; funext p; cases p <;> rfl
    rw [State.areaByte, this]
    rfl
  have hst := congrArg State.st ht
  rw [hI'.st] at hst
  refine ⟨fun r _ => ?x, fun r _ => ?v, ?vm, ?flags, ?modes, ?tiles, ?shows, fun r i hr hi => ?was⟩
  case x => rw [hst]; exact ⟨rfl, rfl⟩
  case v => rw [hst]; exact ⟨rfl, rfl, rfl⟩
  case vm => rw [hst]; rfl
  case flags => rw [State.keepsFlags, hst]; exact ⟨rfl, rfl⟩
  case modes => rw [State.keepsModes, hst]; exact ⟨rfl, rfl, rfl, rfl, rfl, rfl, rfl, rfl, rfl, rfl, rfl, rfl, rfl, rfl⟩
  case tiles => rw [State.keepsTiles, hst]; exact ⟨rfl, rfl⟩
  case shows =>
    refine areaShows_of (State.areaReader_shows hempty fun p hmem o ho => ?_)
      (Strand.imageStores_all ‹_›) fun e he => Strand.vcp_of_head hq he true
    rw [hbyte, hu]
    exact State.writePieces_piece hwr ha hlen _ hpieces (s.st.savePieces_rising _) hI hmem ho
  case was =>
    rw [State.areaReader_eq hempty]
    show ofBytes [t.areaByte ps _] = _
    have := r.isLt
    rw [hbyte, hu, State.writePieces_kept hwr ha hlen _ hpieces hI (by omega) (Strand.savePieces_clean rfl hr hi)]
    simp [ofBytes]

end

end Sys2Proof.Machine

/-! SUPPORT. Loading a strand from an area (R128, R129): each field comes from its place. -/

namespace Sys2Proof.Machine

/-! ## Tables that a loop over the registers fills -/

/-- What one step of a loop writes, and no other step touches, reads so after the loop. -/
theorem foldl_range_reads {β γ : Type} (f : β → Nat → β) (g : β → γ) {n i : Nat} (hi : i < n) {v : γ}
    (hself : ∀ b, g (f b i) = v) (hother : ∀ b j, j < n → j ≠ i → g (f b j) = g b) (b : β) :
    g ((List.range n).foldl f b) = v := by
  induction n with
  | zero => omega
  | succ n ih =>
    rw [List.range_succ, List.foldl_append, List.foldl_cons, List.foldl_nil]
    by_cases hn : i = n
    · subst hn; exact hself _
    · rw [hother _ n (by omega) (Ne.symm hn)]
      exact ih (by omega) fun b j hj hne => hother b j (by omega) hne

theorem foldl_range_keep {β γ : Type} (f : β → Nat → β) (g : β → γ) {n : Nat} (h : ∀ b j, j < n → g (f b j) = g b) (b : β) :
    g ((List.range n).foldl f b) = g b := by
  induction n with
  | zero => rfl
  | succ n ih =>
    rw [List.range_succ, List.foldl_append, List.foldl_cons, List.foldl_nil, h _ n (by omega)]
    exact ih fun b j hj => h b j (by omega)

theorem ofNat_ne_of_lt {i : Nat} {r : Reg} (hi : i < 32) (h : i ≠ r.toNat) : BitVec.ofNat 5 i ≠ r := by
  rintro rfl
  exact h (by rw [BitVec.toNat_ofNat, Nat.mod_eq_of_lt hi])

theorem ofNat_toNat_reg (r : Reg) : BitVec.ofNat 5 r.toNat = r := by simp

theorem getLsbD_ofNat_reg {w : Nat} (hw : 32 ≤ w) (n : Nat) (r : Reg) :
    (BitVec.ofNat w n).getLsbD r.toNat = n.testBit r.toNat := by
  have := r.isLt
  rw [BitVec.getLsbD_ofNat, decide_eq_true (by omega), Bool.true_and]

/-! ## The x registers of an area -/

/-- What `loadX` writes for slot `i`. -/
def Strand.loadXSlot (rd : AreaRead) (xa : Option Reg) (t : Strand) (i : Nat) : Strand :=
  let r : Reg := BitVec.ofNat 5 i
  if i = 0 ∨ xa = some r then t
  else
    { t.xset r (BitVec.ofNat 64 (rd (0x100 + 8 * i) 8)) with
      xfull := setReg t.xfull r ((BitVec.ofNat 32 (rd 0x18 4)).getLsbD i) }

theorem Strand.loadX_eq (t : Strand) (rd : AreaRead) (xa : Option Reg) : t.loadX rd xa =
    { (List.range 32).foldl (Strand.loadXSlot rd xa) t with
      tscratch := match xa with
        | some r => BitVec.ofNat 64 (rd (0x100 + 8 * r.toNat) 8)
        | none => BitVec.ofNat 64 (rd 0x20 8) } := rfl

theorem Strand.xset_same (t : Strand) (r : Reg) (v : Word) : t.xset r v =
    { t with
      x := (t.xset r v).x, xfull := (t.xset r v).xfull, xpend := (t.xset r v).xpend
      xpoison := (t.xset r v).xpoison } := by
  unfold Strand.xset; split <;> rfl

section
variable (rd : AreaRead) (xa : Option Reg)

theorem Strand.loadXSlot_same (t : Strand) (i : Nat) : t.loadXSlot rd xa i = { t with
    x := (t.loadXSlot rd xa i).x, xfull := (t.loadXSlot rd xa i).xfull, xpend := (t.loadXSlot rd xa i).xpend
    xpoison := (t.loadXSlot rd xa i).xpoison } := by
  unfold Strand.loadXSlot
  dsimp only
  split
  · rfl
  · conv_lhs => rw [Strand.xset_same]

theorem Strand.loadXSlot_other (t : Strand) {i : Nat} (hi : i < 32) {r : Reg} (h : i ≠ r.toNat ∨ xa = some r) :
    (t.loadXSlot rd xa i).xget r = t.xget r ∧ (t.loadXSlot rd xa i).isFull r = t.isFull r := by
  unfold Strand.loadXSlot
  dsimp only
  split
  · exact ⟨rfl, rfl⟩
  · next hn =>
    have hne : r ≠ BitVec.ofNat 5 i := by
      rcases h with h | h
      · exact (ofNat_ne_of_lt hi h).symm
      · rintro rfl; exact hn (.inr h)
    exact ⟨(Strand.xget_xset_of_ne t _ r _ hne), congrArg (decide (r = 0) || ·) (hasReg_setReg_of_ne t.xfull _ r _ hne)⟩

theorem Strand.loadXSlot_self (t : Strand) {r : Reg} (h0 : r ≠ 0) (hr : xa ≠ some r) :
    (t.loadXSlot rd xa r.toNat).xget r = BitVec.ofNat 64 (rd (0x100 + 8 * r.toNat) 8) ∧
    (t.loadXSlot rd xa r.toNat).isFull r = (rd 0x18 4).testBit r.toNat := by
  have hr0 : ¬r.toNat = 0 := fun h => h0 (BitVec.eq_of_toNat_eq h)
  unfold Strand.loadXSlot
  rw [ofNat_toNat_reg]
  dsimp only
  rw [if_neg (by rintro (h | h); exacts [hr0 h, hr h])]
  refine ⟨Strand.xget_xset_self t r _ h0, ?_⟩
  show (decide (r = 0) || hasReg (setReg t.xfull r _) r) = _
  rw [hasReg_setReg_self, decide_eq_false h0, Bool.false_or, getLsbD_ofNat_reg (le_refl _)]

/-- A slot that is not the operand's goes to its register. -/
theorem Strand.loadX_slot (t : Strand) {r : Reg} (h0 : r ≠ 0) (hr : xa ≠ some r) :
    (t.loadX rd xa).xget r = BitVec.ofNat 64 (rd (0x100 + 8 * r.toNat) 8) ∧
    (t.loadX rd xa).isFull r = (rd 0x18 4).testBit r.toNat := by
  have hother : ∀ (b : Strand) j, j < 32 → j ≠ r.toNat → (b.loadXSlot rd xa j).xget r = b.xget r ∧
    (b.loadXSlot rd xa j).isFull r = b.isFull r :=
    fun b j hj hne => b.loadXSlot_other rd xa hj (.inl hne)
  rw [Strand.loadX_eq]
  exact ⟨foldl_range_reads _ (Strand.xget · r) r.isLt (fun b => (b.loadXSlot_self rd xa h0 hr).1)
    (fun b j hj hne => (hother b j hj hne).1) t,
    foldl_range_reads _ (Strand.isFull · r) r.isLt (fun b => (b.loadXSlot_self rd xa h0 hr).2)
      (fun b j hj hne => (hother b j hj hne).2) t⟩

/-- The operand keeps its value. -/
theorem Strand.loadX_operand (t : Strand) {r : Reg} (hr : xa = some r) : (t.loadX rd xa).xget r = t.xget r := by
  rw [Strand.loadX_eq]
  exact foldl_range_keep _ (Strand.xget · r) (fun b j hj => (b.loadXSlot_other rd xa hj (.inr hr)).1) t

theorem Strand.loadX_same (t : Strand) : t.loadX rd xa = { t with
    x := (t.loadX rd xa).x, xfull := (t.loadX rd xa).xfull, xpend := (t.loadX rd xa).xpend
    xpoison := (t.loadX rd xa).xpoison, tscratch := (t.loadX rd xa).tscratch } := by
  have h := foldl_keep (fun u : Strand => ({ u with
      x := t.x, xfull := t.xfull, xpend := t.xpend, xpoison := t.xpoison } : Strand))
    (Strand.loadXSlot rd xa) (fun b i => by rw [Strand.loadXSlot_same]) (List.range 32) t
  have h' := congrArg (fun u : Strand => ({ u with
    x := (t.loadX rd xa).x, xfull := (t.loadX rd xa).xfull, xpend := (t.loadX rd xa).xpend
    xpoison := (t.loadX rd xa).xpoison, tscratch := (t.loadX rd xa).tscratch } : Strand)) h
  exact h'

end

end Sys2Proof.Machine

namespace Sys2Proof.Machine

/-! ## The control registers of an area -/

section
variable (t : Strand) {i j : Nat} (v : Word)

/-- A number of a control register of one field. -/
def oneField (i : Nat) : Prop := i < 0x11 ∨ 0x18 ≤ i ∧ i < 0x40 ∨ 0xA0 ≤ i

theorem Strand.crLow_vm (h : 0x40 ≤ i ∧ i < 0x60) : t.crLow i = maskWord t.vm (i - 0x40) := if_pos h

theorem Strand.crLow_vsg (h : 0x60 ≤ i ∧ i < 0x80) : t.crLow i = maskWord t.vsg (i - 0x60) := by
  unfold Strand.crLow; rw [if_neg (by omega), if_pos h]

theorem Strand.crLow_ffirst (h : 0x11 ≤ i ∧ i < 0x18) : t.crLow i = zext (t.ffirst[i - 0x11]'(by omega)) := by
  unfold Strand.crLow; rw [if_neg (by omega), if_neg (by omega), if_neg (by omega), dif_pos h]

theorem Strand.crPut_vm (h : 0x40 ≤ i ∧ i < 0x60) : t.crPut i v = { t with vm := setMaskWord t.vm (i - 0x40) v } := if_pos h

theorem Strand.crPut_vsg (h : 0x60 ≤ i ∧ i < 0x80) : t.crPut i v = { t with vsg := setMaskWord t.vsg (i - 0x60) v } := by
  unfold Strand.crPut; rw [if_neg (by omega), if_pos h]

theorem Strand.crPut_tag (h : 0x80 ≤ i ∧ i < 0xA0) :
    t.crPut i v = (t.setTag (BitVec.ofNat 5 (i - 0x80)) (v.truncate 8)).setDtag (BitVec.ofNat 5 (i - 0x80))
      (v.truncate 8) := by
  unfold Strand.crPut; rw [if_neg (by omega), if_neg (by omega), if_pos h]

theorem Strand.crPut_ffirst (h : 0x11 ≤ i ∧ i < 0x18) :
    t.crPut i v = { t with ffirst := t.ffirst.set (i - 0x11) (v.truncate 16) (by omega) } := by
  unfold Strand.crPut; rw [if_neg (by omega), if_neg (by omega), if_neg (by omega), dif_pos h]

/-- A register of one field leaves the tables alone. -/
theorem Strand.crPut_tables (h : oneField i) :
    (t.crPut i v).vm = t.vm ∧ (t.crPut i v).vsg = t.vsg ∧ (t.crPut i v).ffirst = t.ffirst := by
  unfold oneField at h
  unfold Strand.crPut
  rw [if_neg (by omega), if_neg (by omega), if_neg (by omega), dif_neg (by omega)]
  split <;> exact ⟨rfl, rfl, rfl⟩

/-- A register of one field reads only its field. -/
theorem Strand.crLow_crPut_field (hi : oneField i) (hj : oneField j) (h : j ≠ i) : (t.crPut j v).crLow i = t.crLow i := by
  unfold oneField at hi hj
  unfold Strand.crLow
  rw [if_neg (by omega), if_neg (by omega), if_neg (by omega), dif_neg (by omega), if_neg (by omega),
    if_neg (by omega), if_neg (by omega), dif_neg (by omega)]
  unfold Strand.crPut
  rw [if_neg (by omega), if_neg (by omega), if_neg (by omega), dif_neg (by omega)]
  split
  case h_18 => rfl
  all_goals split
  all_goals try contradiction
  all_goals rfl

/-- A value within the field of a register reads back. -/
theorem zext_truncate_of_field {w : Nat} {v m : Word} (hm : m = BitVec.ofNat 64 (2 ^ w - 1)) (h : v &&& ~~~m = 0) :
    zext (v.truncate w) = v := by
  subst hm
  refine BitVec.eq_of_getLsbD_eq fun k hk => ?_
  have hbit := congrArg (BitVec.getLsbD · k) h
  simp only [BitVec.getLsbD_and, BitVec.getLsbD_not, BitVec.getLsbD_ofNat, Nat.testBit_two_pow_sub_one, hk, decide_true,
    Bool.true_and] at hbit
  simp only [zext, BitVec.truncate_eq_setWidth, BitVec.getLsbD_setWidth, hk, decide_true, Bool.true_and]
  by_cases hkw : k < w
  · simp [hkw]
  · simpa [hkw] using hbit

theorem maskWord_eq_elemOf (m : MaskReg) (k : Nat) : maskWord m k = BitVec.ofNat 64 (elemOf m 64 k) := by
  rw [maskWord, elemOf, BitVec.ofNat_toNat, BitVec.setWidth_eq]

theorem maskWord_setMaskWord_self (m : MaskReg) {k : Nat} (hk : k < 32) : maskWord (setMaskWord m k v) k = v := by
  rw [maskWord_eq_elemOf, setMaskWord, elemOf_setElem_self _ _ _ _ (by omega), Nat.mod_eq_of_lt v.isLt,
    BitVec.ofNat_toNat, BitVec.setWidth_eq]

theorem maskWord_setMaskWord_of_ne (m : MaskReg) {k : Nat} (hk : k < 32) (h : k ≠ j) :
    maskWord (setMaskWord m j v) k = maskWord m k := by
  rw [maskWord_eq_elemOf, setMaskWord, elemOf_setElem_of_ne _ _ _ _ _ h (by omega), maskWord_eq_elemOf]

theorem Strand.crLow_crPut_of_ne (hi : i < 0x80) (h : j ≠ i) : (t.crPut j v).crLow i = t.crLow i := by
  by_cases hj1 : 0x40 ≤ j ∧ j < 0x60
  · rw [Strand.crPut_vm t v hj1]
    by_cases hi1 : 0x40 ≤ i ∧ i < 0x60
    · rw [Strand.crLow_vm _ hi1, Strand.crLow_vm _ hi1]
      exact maskWord_setMaskWord_of_ne v t.vm (by omega) (by omega)
    · unfold Strand.crLow; rw [if_neg hi1, if_neg hi1]; rfl
  by_cases hj2 : 0x60 ≤ j ∧ j < 0x80
  · rw [Strand.crPut_vsg t v hj2]
    by_cases hi2 : 0x60 ≤ i ∧ i < 0x80
    · rw [Strand.crLow_vsg _ hi2, Strand.crLow_vsg _ hi2]
      exact maskWord_setMaskWord_of_ne v t.vsg (by omega) (by omega)
    · unfold Strand.crLow; rw [if_neg hi2, if_neg hi2]; rfl
  by_cases hj3 : 0x80 ≤ j ∧ j < 0xA0
  · rw [Strand.crPut_tag t v hj3]
    have hi3 : ¬(0x80 ≤ i ∧ i < 0xA0) := by omega
    unfold Strand.crLow; rw [if_neg hi3, if_neg hi3]; rfl
  by_cases hj4 : 0x11 ≤ j ∧ j < 0x18
  · rw [Strand.crPut_ffirst t v hj4]
    by_cases hi4 : 0x11 ≤ i ∧ i < 0x18
    · rw [Strand.crLow_ffirst _ hi4, Strand.crLow_ffirst _ hi4]
      exact congrArg zext (Vector.getElem_set_ne (by omega) (by omega) (by omega))
    · unfold Strand.crLow; rw [dif_neg hi4, dif_neg hi4]; rfl
  have hj : oneField j := by unfold oneField; omega
  obtain ⟨hvm, hvsg, hff⟩ := Strand.crPut_tables t v hj
  by_cases hi1 : 0x40 ≤ i ∧ i < 0x60
  · rw [Strand.crLow_vm _ hi1, Strand.crLow_vm _ hi1, hvm]
  by_cases hi2 : 0x60 ≤ i ∧ i < 0x80
  · rw [Strand.crLow_vsg _ hi2, Strand.crLow_vsg _ hi2, hvsg]
  by_cases hi4 : 0x11 ≤ i ∧ i < 0x18
  · rw [Strand.crLow_ffirst _ hi4, Strand.crLow_ffirst _ hi4, hff]
  exact Strand.crLow_crPut_field t v (by unfold oneField; omega) hj h

/-- The numbers below 0x40 of the registers of one field that an area gives (R105). -/
def fieldNumbers : List Nat := [0, 2, 3, 4, 5, 8, 0x10, 0x18, 0x19, 0x1A, 0x1B, 0x20, 0x21, 0x22]

theorem field_of_unassigned : ∀ i < 0x40, ¬(0x11 ≤ i ∧ i < 0x18) → i ∉ 6 :: 7 :: 0x1C :: fieldNumbers → crField i = 0 := by
  decide

omit v in
/-- A number without a register reads zero. -/
theorem Strand.crLow_unassigned (hi : i < 0x40) (h4 : ¬(0x11 ≤ i ∧ i < 0x18)) (ha : i ∉ 6 :: 7 :: 0x1C :: fieldNumbers) :
    t.crLow i = 0 := by
  unfold Strand.crLow
  rw [if_neg (by omega), if_neg (by omega), if_neg (by omega), dif_neg h4]
  split
  case h_18 => rfl
  all_goals exact absurd (by decide) ha

theorem ofFlag_of_field {v : Word} (hv : v &&& ~~~crField 0x19 = 0) : ofFlag (v.getLsbD 0) = v := by
  have h := zext_truncate_of_field (w := 1) (m := crField 0x19) (by decide) hv
  have hbit : zext (v.truncate 1) = ofFlag (v.getLsbD 0) := by
    refine BitVec.eq_of_getLsbD_eq fun k hk => ?_
    unfold ofFlag
    cases k with
    | zero => cases hb : v.getLsbD 0 <;> simpa [zext] using hb
    | succ k => cases v.getLsbD 0 <;> simp [zext]
  exact hbit.symm.trans h

/-- A register of one field keeps the low bits of what is written. -/
theorem Strand.crPut_reads (w : Nat) (h : (t.crPut i v).crLow i = zext (v.truncate w))
    (hm : crField i = BitVec.ofNat 64 (2 ^ w - 1))
    (hv : v &&& ~~~crField i = 0) : (t.crPut i v).crLow i = v := h.trans (zext_truncate_of_field hm hv)

theorem Strand.crLow_crPut_self (hi : i < 0x80) (h6 : i ≠ 6) (h7 : i ≠ 7) (h1C : i ≠ 0x1C) (hv : v &&& ~~~crField i = 0) :
    (t.crPut i v).crLow i = v := by
  by_cases hi1 : 0x40 ≤ i ∧ i < 0x60
  · rw [Strand.crPut_vm t v hi1, Strand.crLow_vm _ hi1]
    exact maskWord_setMaskWord_self v t.vm (by omega)
  by_cases hi2 : 0x60 ≤ i ∧ i < 0x80
  · rw [Strand.crPut_vsg t v hi2, Strand.crLow_vsg _ hi2]
    exact maskWord_setMaskWord_self v t.vsg (by omega)
  by_cases hi4 : 0x11 ≤ i ∧ i < 0x18
  · have hfield : crField i = 0xFFFF := by
      unfold crField; rw [if_neg (by omega), if_neg (by omega), if_pos hi4]
    rw [Strand.crPut_ffirst t v hi4, Strand.crLow_ffirst _ hi4, Vector.getElem_set_self]
    exact zext_truncate_of_field (w := 16) hfield hv
  by_cases ha : i ∈ fieldNumbers
  · simp only [fieldNumbers, List.mem_cons, List.not_mem_nil, or_false] at ha
    rcases ha with rfl | rfl | rfl | rfl | rfl | rfl | rfl | rfl | rfl | rfl | rfl | rfl | rfl | rfl
    · exact t.crPut_reads v 12 rfl (by decide) hv
    · rfl
    · exact t.crPut_reads v 5 rfl (by decide) hv
    · exact t.crPut_reads v 12 rfl (by decide) hv
    · exact t.crPut_reads v 36 rfl (by decide) hv
    · exact t.crPut_reads v 32 rfl (by decide) hv
    · exact t.crPut_reads v 7 rfl (by decide) hv
    · exact t.crPut_reads v 3 rfl (by decide) hv
    · exact ofFlag_of_field hv
    · exact t.crPut_reads v 32 rfl (by decide) hv
    · exact t.crPut_reads v 32 rfl (by decide) hv
    · exact t.crPut_reads v 32 rfl (by decide) hv
    · exact t.crPut_reads v 32 rfl (by decide) hv
    · exact t.crPut_reads v 2 rfl (by decide) hv
  · have hall : i ∉ 6 :: 7 :: 0x1C :: fieldNumbers := by simp [h6, h7, h1C, ha]
    rw [field_of_unassigned i (by omega) hi4 hall] at hv
    rw [Strand.crLow_unassigned _ (by omega) hi4 hall]
    exact (BitVec.and_allOnes (x := v)).symm.trans hv |>.symm

/-- What the control registers of an area, its vector registers and its tags leave alone. -/
def Strand.aside (t : Strand) :=
  ((t.x, t.xfull, t.tscratch), (t.level, t.skip, t.pc, t.ctx), (t.tonOwned, t.events, t.notices, t.iter))

theorem Strand.crPut_aside (hi : i < 0x200) : (t.crPut i v).aside = t.aside := by
  unfold Strand.crPut
  split
  · rfl
  split
  · rfl
  split
  · rfl
  split
  · rfl
  split
  all_goals try omega
  all_goals rfl

end

section
variable (rd : AreaRead)

/-- What `loadCr` writes for slot `i`. -/
def Strand.loadCrSlot (t : Strand) (i : Nat) : Strand :=
  if i == 0x006 || i == 0x007 || i == 0x01C then t else t.crPut i (crSlot rd i)

theorem Strand.loadCr_eq (t : Strand) : t.loadCr rd = (List.range 0xA0).foldl (Strand.loadCrSlot rd) t := rfl

/-- A slot of a legal area goes to its register. -/
theorem Strand.loadCr_slot (t : Strand) (hl : ∀ i, i < 0xA0 → crSlotBad rd i = false) {i : Nat} (hi : i < 0x80) (h6 : i ≠ 6)
    (h7 : i ≠ 7) (h1C : i ≠ 0x1C) : (t.loadCr rd).crLow i = crSlot rd i := by
  have hv : crSlot rd i &&& ~~~crField i = 0 := by
    have h := hl i (by omega)
    rw [crSlotBad, if_neg (by simp [h6, h7, h1C]), Bool.or_eq_false_iff] at h
    simpa using h.1
  have hn : i < 0xA0 := by omega
  rw [Strand.loadCr_eq]
  refine foldl_range_reads _ (Strand.crLow · i) hn (fun b => ?_) (fun b j hj hne => ?_) t
  · show (b.loadCrSlot rd i).crLow i = _
    rw [Strand.loadCrSlot, if_neg (by simp [h6, h7, h1C])]
    exact b.crLow_crPut_self _ hi h6 h7 h1C hv
  · show (b.loadCrSlot rd j).crLow i = b.crLow i
    unfold Strand.loadCrSlot
    split
    · rfl
    · exact b.crLow_crPut_of_ne _ hi hne

theorem Strand.loadCr_aside (t : Strand) : (t.loadCr rd).aside = t.aside := by
  rw [Strand.loadCr_eq]
  refine foldl_range_keep _ Strand.aside (fun b j hj => ?_) t
  unfold Strand.loadCrSlot
  split
  · rfl
  · exact b.crPut_aside _ (by omega)

end

/-- The fields behind the control registers below 0x80 that an area gives. -/
def Strand.crs (t : Strand) :=
  ((t.vm, t.vsg, t.ffirst), (t.vl, t.vs, t.vgm, t.vstart, t.vdirty), (t.vfrem, t.fflags, t.frm, t.fz),
    (t.trp, t.tcp, t.xresume, t.wto, t.cbsel))

theorem Strand.crLow_congr {t u : Strand} (h : u.crs = t.crs) {i : Nat} (hi : i < 0x80) (h6 : i ≠ 6) (h7 : i ≠ 7)
    (h1C : i ≠ 0x1C) : u.crLow i = t.crLow i := by
  simp only [Strand.crs, Prod.mk.injEq] at h
  obtain ⟨⟨hvm, hvsg, hff⟩, ⟨hvl, hvs, hvgm, hvstart, hvdirty⟩, ⟨hvfrem, hfflags, hfrm, hfz⟩, htrp, htcp, hxr, hwto,
    hcb⟩ := h
  unfold Strand.crLow
  rw [hvm, hvsg, hff, hvl, hvs, hvgm, hvstart, hvdirty, hvfrem, hfflags, hfrm, hfz, htrp, htcp, hxr, hwto, hcb,
    if_neg (show ¬(0x80 ≤ i ∧ i < 0xA0) by omega), if_neg (show ¬(0x80 ≤ i ∧ i < 0xA0) by omega)]
  by_cases hi1 : 0x40 ≤ i ∧ i < 0x60
  · rw [if_pos hi1, if_pos hi1]
  by_cases hi2 : 0x60 ≤ i ∧ i < 0x80
  · rw [if_neg hi1, if_neg hi1, if_pos hi2, if_pos hi2]
  rw [if_neg hi1, if_neg hi1, if_neg hi2, if_neg hi2]
  split
  · rfl
  · split
    case h_6 => exact absurd rfl h6
    case h_7 => exact absurd rfl h7
    case h_14 => exact absurd rfl h1C
    all_goals rfl

end Sys2Proof.Machine

namespace Sys2Proof.Machine

/-! ## The v registers of an area -/

section
variable (rd : AreaRead) (dirty : BitVec 36) (bound : Nat → Bool)

theorem Strand.loadV_aside (t : Strand) (i : Nat) : (t.loadV rd dirty bound i).aside = t.aside ∧
    (t.loadV rd dirty bound i).crs = t.crs := by
  unfold Strand.loadV
  dsimp only
  split <;> exact ⟨rfl, rfl⟩

theorem Strand.loadV_other (t : Strand) {i : Nat} (hi : i < 32) {r : Reg} (h : i ≠ r.toNat) :
    (t.loadV rd dirty bound i).vget r = t.vget r ∧ hasReg (t.loadV rd dirty bound i).vfull r = hasReg t.vfull r := by
  have hne : r ≠ BitVec.ofNat 5 i := (ofNat_ne_of_lt hi h).symm
  have hv : ∀ v, (t.vput (BitVec.ofNat 5 i) v).vget r = t.vget r := fun v => by rw [Strand.vget_vput, if_neg hne]
  unfold Strand.loadV
  dsimp only
  split
  · exact ⟨hv _, hasReg_setReg_of_ne _ _ _ _ hne⟩
  · exact ⟨hv _, hasReg_setReg_of_ne _ _ _ _ hne⟩

theorem Strand.loadV_self (t : Strand) {r : Reg} (hb : bound r.toNat = false) :
    (t.loadV rd dirty bound r.toNat).vget r =
      (if dirty.getLsbD r.toNat then BitVec.ofNat 16384 (rd (0x6000 + 0x800 * r.toNat) 2048) else 0) ∧
    hasReg (t.loadV rd dirty bound r.toNat).vfull r =
      (if dirty.getLsbD r.toNat then (rd 0x1C 4).testBit r.toNat else true) := by
  have hv : ∀ v, (t.vput r v).vget r = v := fun v => by rw [Strand.vget_vput, if_pos rfl]
  unfold Strand.loadV
  rw [ofNat_toNat_reg, hb]
  dsimp only
  cases dirty.getLsbD r.toNat with
  | true => exact ⟨hv _, (hasReg_setReg_self ..).trans (getLsbD_ofNat_reg (le_refl _) ..)⟩
  | false => exact ⟨hv _, hasReg_setReg_self ..⟩

/-- The v registers of an area, one after another. -/
def Strand.loadVs (t : Strand) : Strand := (List.range 32).foldl (fun t i => t.loadV rd dirty bound i) t

theorem Strand.loadVs_aside (t : Strand) : (t.loadVs rd dirty bound).aside = t.aside :=
  foldl_keep Strand.aside _ (fun b i => (b.loadV_aside rd dirty bound i).1) _ t

theorem Strand.loadVs_crs (t : Strand) : (t.loadVs rd dirty bound).crs = t.crs :=
  foldl_keep Strand.crs _ (fun b i => (b.loadV_aside rd dirty bound i).2) _ t

theorem Strand.loadVs_vget (t : Strand) {r : Reg} (hb : bound r.toNat = false) : (t.loadVs rd dirty bound).vget r =
    if dirty.getLsbD r.toNat then BitVec.ofNat 16384 (rd (0x6000 + 0x800 * r.toNat) 2048) else 0 := by
  have hr : r.toNat < 32 := r.isLt
  unfold Strand.loadVs
  exact foldl_range_reads _ (Strand.vget · r) hr (fun b => (b.loadV_self rd dirty bound hb).1)
    (fun b _ hj hne => (b.loadV_other rd dirty bound hj hne).1) t

theorem Strand.loadVs_vfull (t : Strand) {r : Reg} (hb : bound r.toNat = false) : hasReg (t.loadVs rd dirty bound).vfull r =
    if dirty.getLsbD r.toNat then (rd 0x1C 4).testBit r.toNat else true := by
  have hr : r.toNat < 32 := r.isLt
  unfold Strand.loadVs
  exact foldl_range_reads _ (fun t => hasReg (Strand.vfull t) r) hr (fun b => (b.loadV_self rd dirty bound hb).2)
    (fun b _ hj hne => (b.loadV_other rd dirty bound hj hne).2) t

end

/-- The registers of the streams that an area binds are v24 and above. -/
theorem State.loadStreams_keys {s : State} {rd : AreaRead} {n k : Nat} {l : List (Nat × Stream)}
    (h : s.loadStreams rd n k = .ok l) : ∀ p ∈ l, 24 ≤ p.1 := by
  induction n generalizing k l with
  | zero => cases h; exact nofun
  | succ n ih =>
    unfold State.loadStreams at h
    dsimp only at h
    split at h
    · exact ih h
    split at h
    · cases h
    split at h
    · cases h
    split at h
    · cases h
    split at h
    · cases h
    · next rest hrest =>
      cases h
      intro p hp
      rcases List.mem_cons.1 hp with rfl | hp
      · exact Nat.le_add_right ..
      · exact ih hrest p hp

/-! ## The queue image of an area -/

/-- Whether an instruction is one of the queue does not depend on the entry's operands. -/
theorem formOf_isSome (e : QEntry) : (formOf e).isSome = (formOf { instr := e.instr, pc := 0 }).isSome := by
  unfold formOf
  dsimp only
  generalize e.instr = i
  cases i <;> rfl

/-- The entry that the area lays down at `k`. -/
def areaEntry (rd : AreaRead) (k : Nat) (e : QEntry) : Prop :=
  decodeWord (BitVec.ofNat 32 (rd (0x1000 + 64 * k) 4)) = some e.instr ∧
    e.pc = BitVec.ofNat 64 (rd (0x1008 + 64 * k) 8) ∧ e.a = BitVec.ofNat 64 (rd (0x1010 + 64 * k) 8) ∧
    e.b = BitVec.ofNat 64 (rd (0x1018 + 64 * k) 8) ∧ e.d = BitVec.ofNat 64 (rd (0x1020 + 64 * k) 8) ∧
    e.vs = BitVec.ofNat 64 (rd (0x1028 + 64 * k) 8) ∧ e.vl = BitVec.ofNat 12 (rd (0x1030 + 64 * k) 2)

theorem imageInstr_some {rd : AreaRead} {k : Nat} (h : (imageInstr rd k).isSome = true) :
    ∃ i, imageInstr rd k = some i ∧ decodeWord (BitVec.ofNat 32 (rd (0x1000 + 64 * k) 4)) = some i ∧
      (formOf { instr := i, pc := 0 }).isSome = true := by
  obtain ⟨i, hi⟩ := Option.isSome_iff_exists.1 h
  refine ⟨i, hi, ?_⟩
  unfold imageInstr at hi
  split at hi
  · cases hi
  · next j hj =>
    split at hi
    · next f hf =>
      split at hi
      · cases hi; exact ⟨hj, by rw [hf]; rfl⟩
      · cases hi
    · cases hi

/-- The words of an entry of the area. -/
def areaRaw (rd : AreaRead) (base k : Nat) (i : Instr) : QEntry :=
  let at_ := 0x1000 + 64 * k
  let w (off : Nat) : Word := BitVec.ofNat 64 (rd (at_ + off) 8)
  { instr := i, pc := w 0x08, a := w 0x10, b := w 0x18, d := w 0x20, vs := w 0x28
    vl := BitVec.ofNat 12 (rd (at_ + 0x30) 2), vgm := BitVec.ofNat 5 (rd (at_ + 0x32) 1)
    frm := BitVec.ofNat 3 (rd (at_ + 0x33) 1), fz := (rd (at_ + 0x33) 1).testBit 3
    raised := BitVec.ofNat 7 (rd (at_ + 0x04) 4), seq := base + 32 * k, reissued := k == 0 }

theorem loadImage_succ {rd : AreaRead} {recheck : Bool} {base n k : Nat} {t : Strand} {i : Instr} {f : VForm}
    (hi : imageInstr rd k = some i) (hf : formOf (areaRaw rd base k i) = some f) :
    ∃ ta tb ws rc, loadImage rd recheck base (n + 1) k t =
      let e := { f.mark (areaRaw rd base k i) with ta := ta, tb := tb, wtags := ws, recheck := rc }
      (e :: (loadImage rd recheck base n (k + 1) (t.copyTags ws)).1,
        (loadImage rd recheck base n (k + 1) (t.copyTags ws)).2) := by
  unfold areaRaw at hf
  conv in loadImage _ _ _ (n + 1) _ _ => unfold loadImage
  simp only [hi, hf]
  exact ⟨_, _, _, _, rfl⟩

/-- The image has an entry for each that the area holds, as the area lays it down. -/
theorem loadImage_entries (rd : AreaRead) (recheck : Bool) (base n k : Nat) (t : Strand)
    (h : ∀ j, j < n → (imageInstr rd (k + j)).isSome = true) :
    (loadImage rd recheck base n k t).1.length = n ∧
    ∀ (j : Nat) e, (loadImage rd recheck base n k t).1[j]? = some e → areaEntry rd (k + j) e := by
  induction n generalizing k t with
  | zero => exact ⟨rfl, fun j e he => by simp [loadImage] at he⟩
  | succ n ih =>
    obtain ⟨i, hi, hword, hform⟩ := imageInstr_some (h 0 (by omega))
    have hsome : (formOf (areaRaw rd base k i)).isSome = true := (formOf_isSome _).trans hform
    obtain ⟨f, hf⟩ := Option.isSome_iff_exists.1 hsome
    obtain ⟨ta, tb, ws, rc, heq⟩ := loadImage_succ (recheck := recheck) (n := n) (k := k) (t := t) hi hf
    obtain ⟨hlen, hall⟩ := ih (k + 1) (t.copyTags ws) fun j hj => by
      rw [Nat.add_assoc, Nat.add_comm 1]; exact h (j + 1) (by omega)
    rw [heq]
    refine ⟨congrArg (· + 1) hlen, fun j e he => ?_⟩
    cases j with
    | zero =>
      obtain rfl := Option.some.inj he
      have hoff : ∀ o, 0x1000 + 64 * k + o = 0x1000 + o + 64 * k := fun o => Nat.add_right_comm ..
      have hw : ∀ o, BitVec.ofNat 64 (rd (0x1000 + 64 * k + o) 8) = BitVec.ofNat 64 (rd (0x1000 + o + 64 * k) 8) :=
        fun o => by rw [hoff]
      have hvl : BitVec.ofNat 12 (rd (0x1000 + 64 * k + 0x30) 2) = BitVec.ofNat 12 (rd (0x1030 + 64 * k) 2) := by
        rw [hoff]
      exact ⟨hword, hw 0x08, hw 0x10, hw 0x18, hw 0x20, hw 0x28, hvl⟩
    | succ j =>
      have := hall j e he
      rwa [Nat.add_assoc, Nat.add_comm 1] at this

end Sys2Proof.Machine

namespace Sys2Proof.Machine

/-! ## Claims that an area brings back (R109, R128) -/

theorem Strand.fillClaims_same (n : Nat) (t : Strand) : t.fillClaims n = { t with
    x := (t.fillClaims n).x, xfull := (t.fillClaims n).xfull, xpend := (t.fillClaims n).xpend
    xpoison := (t.fillClaims n).xpoison, claims := (t.fillClaims n).claims, events := (t.fillClaims n).events } := by
  induction n generalizing t with
  | zero => rfl
  | succ n ih =>
    unfold Strand.fillClaims
    dsimp only
    split
    · next r rs e es _ _ =>
      obtain ⟨x, full, pend, bad, hx⟩ : ∃ x full pend bad, t.xset r e.word =
          { t with x := x, xfull := full, xpend := pend, xpoison := bad } := ⟨_, _, _, _, t.xset_same r e.word⟩
      rw [hx]
      exact ih _
    · rfl

theorem Strand.fillClaims_other (n : Nat) (t : Strand) {r : Reg} (h : r ∉ t.claims) :
    (t.fillClaims n).xget r = t.xget r ∧ (t.fillClaims n).isFull r = t.isFull r := by
  induction n generalizing t with
  | zero => exact ⟨rfl, rfl⟩
  | succ n ih =>
    unfold Strand.fillClaims
    dsimp only
    split
    · next q rs e es hc _ =>
      rw [hc, List.mem_cons, not_or] at h
      obtain ⟨hx, hfull⟩ := ih { t.xset q e.word with claims := rs, events := es } h.2
      exact ⟨hx.trans (Strand.xget_xset_of_ne t q r _ h.1), hfull.trans (Strand.isFull_xset_of_ne t q r _ h.1)⟩
    · exact ⟨rfl, rfl⟩

theorem Strand.fillClaims_none (n : Nat) {t : Strand} (h : t.events = []) : t.fillClaims n = t := by
  cases n with
  | zero => rfl
  | succ n =>
    unfold Strand.fillClaims
    rw [h]
    split
    · next he => cases he
    · rfl

/-- The registers that the atomics of the area will fill wait for them. -/
def Strand.pendStores (t : Strand) (stores : List SEntry) : Strand :=
  stores.foldl (fun t e => match e.dest with | some r => t.pend r | none => t) t

theorem Strand.pendStores_same (t : Strand) (stores : List SEntry) : t.pendStores stores =
    { t with xpend := (t.pendStores stores).xpend } := by
  unfold Strand.pendStores
  induction stores generalizing t with
  | nil => rfl
  | cons e es ih =>
    rw [List.foldl_cons, ih]
    split
    · unfold Strand.pend; split <;> rfl
    · rfl

/-- The strand of an area, once its claims are filled. -/
def Strand.afterLoad (t : Strand) (stores : List SEntry) : Strand := ((t.pendStores stores).fillClaims 32).takeNotices

section
variable (t : Strand) (stores : List SEntry)

theorem Strand.afterLoad_same : ∃ x full pend bad claims events notices, t.afterLoad stores =
    { t with
      x := x, xfull := full, xpend := pend, xpoison := bad, claims := claims, events := events
      notices := notices } := by
  obtain ⟨pend, hp⟩ : ∃ pend, t.pendStores stores = { t with xpend := pend } := ⟨_, t.pendStores_same stores⟩
  obtain ⟨x, full, pend', bad, claims, events, h⟩ : ∃ x full pend' bad claims events,
      Strand.fillClaims 32 { t with xpend := pend } =
        { t with x := x, xfull := full, xpend := pend', xpoison := bad, claims := claims, events := events } :=
    ⟨_, _, _, _, _, _, Strand.fillClaims_same 32 { t with xpend := pend }⟩
  rw [Strand.afterLoad, hp, h]
  exact ⟨_, _, _, _, _, _, _, rfl⟩

theorem Strand.afterLoad_other {r : Reg} (h : r ∉ t.claims) :
    (t.afterLoad stores).xget r = t.xget r ∧ (t.afterLoad stores).isFull r = t.isFull r := by
  have hp := t.pendStores_same stores
  obtain ⟨hx, hfull⟩ := (t.pendStores stores).fillClaims_other 32 (r := r) (by rw [hp]; exact h)
  refine ⟨hx.trans ?_, hfull.trans ?_⟩
  · rw [hp]; rfl
  · rw [hp]; rfl

theorem Strand.afterLoad_claims (h : t.events = []) : (t.afterLoad stores).claims = t.claims := by
  have hp := t.pendStores_same stores
  have he : (t.pendStores stores).events = [] := by rw [hp]; exact h
  show ((t.pendStores stores).fillClaims 32).claims = _
  rw [Strand.fillClaims_none _ he, hp]

end

end Sys2Proof.Machine

namespace Sys2Proof.Machine

/-! ## The strand that an area gives (R128, R129) -/

/-- The dirty bits of an area. -/
def areaDirty (rd : AreaRead) : BitVec 36 := BitVec.ofNat 36 (rd 0x228 8)

/-- Whether a stream is bound to a v register. -/
def boundBy (streams : List (Nat × Stream)) (i : Nat) : Bool := streams.any fun p => p.1 == i

/-- The registers of the area on top of a strand. -/
def Strand.loadRegs (t : Strand) (rd : AreaRead) (xa : Option Reg) (streams : List (Nat × Stream)) : Strand :=
  ((t.loadX rd xa).loadCr rd).loadVs rd (areaDirty rd) (boundBy streams)

/-- The fields of the area on top of a strand with its registers; the other arguments are what the area does not hold. -/
def Strand.loadFields (t : Strand) (rd : AreaRead) (image : List QEntry) (stores : List SEntry)
    (streams : List (Nat × Stream)) (dtag : Vector Byte 32)
    (xpoison : BitVec 32) (vpoison : List Nat) (depth : Nat) (tiles : Vector TileReg 4) (seq : Nat) : Strand :=
  let flags := rd 0x13 1
  { t with
    dtag, image, queue := [], stores, streams, xpend := 0, xpoison, vpoison
    claims := (List.range (rd 0x12 1)).map fun i => BitVec.ofNat 5 (rd (0x40 + i) 1)
    crit := flags.testBit 1, critDepth := depth, critCount := rd 0x14 2, vlFull := flags.testBit 2
    mark := if flags.testBit 3 then some (BitVec.ofNat 64 (rd 0x28 8), BitVec.ofNat 32 (rd 0x30 4)) else none
    tiles, tepc := BitVec.ofNat 56 (rd 0 8), ppl := if flags.testBit 0 then .supervisor else .user
    held := decide (0 < rd 0x10 1), tonPend := none, seq }

theorem State.loadArea_ok {s : State} {rd : AreaRead} {xa : Option Reg} {hint : Option Strand} {u : Strand}
    (h : s.loadArea rd xa hint = .ok u) : ∃ streams stores rc t' own dtag xp vp depth tiles seq, (∀ p ∈ streams, 24 ≤ p.1) ∧
      u = ((s.st.loadRegs rd xa streams).loadFields rd (loadImage rd rc s.st.seq (rd 0x10 1) 0 t').1 own streams
        dtag xp vp depth tiles seq).afterLoad stores := by
  unfold State.loadArea at h
  dsimp only at h
  split at h
  · cases h
  · cases h
  · next streams stores hstreams hstores =>
    exact ⟨streams, stores, _, _, _, _, _, _, _, _, _, State.loadStreams_keys hstreams, (Except.ok.inj h).symm⟩

/-- What R129 asks of an area, for the loads that rest on it. -/
theorem areaLegal_facts {rd : AreaRead} (h : areaLegal rd = true) :
    (∀ i, i < rd 0x12 1 → rd (0x40 + i) 1 < 32) ∧ (∀ i, i < 0xA0 → crSlotBad rd i = false) ∧
    ∀ k, k < rd 0x10 1 → (imageInstr rd k).isSome = true := by
  simp only [areaLegal, Bool.and_eq_true, List.all_eq_true, List.mem_range, decide_eq_true_eq, Bool.not_eq_true'] at h
  obtain ⟨⟨⟨⟨⟨⟨⟨⟨⟨⟨⟨⟨⟨⟨⟨⟨-, -⟩, hc⟩, -⟩, -⟩, -⟩, -⟩, -⟩, -⟩, -⟩, -⟩, -⟩, hclaims⟩, hcr⟩, -⟩, -⟩, himage⟩ := h
  refine ⟨fun i hi => ?_, hcr, fun k hk => (himage k hk).1.1.1⟩
  have := hclaims i (by omega)
  rw [if_pos hi, Bool.and_eq_true, decide_eq_true_eq, decide_eq_true_eq] at this
  exact this.2

/-- What the strand `u` of a legal area holds, loaded on top of the strand `t`. -/
structure Strand.LoadedFrom (t : Strand) (rd : AreaRead) (xa : Option Reg) (u : Strand) : Prop where
  level : u.level = t.level
  skip : u.skip = t.skip
  pc : u.pc = t.pc
  ctx : u.ctx = t.ctx
  iter : u.iter = t.iter
  tonOwned : u.tonOwned = t.tonOwned
  tepc : u.tepc = BitVec.ofNat 56 (rd 0 8)
  ppl : u.ppl = if (rd 0x13 1).testBit 0 then .supervisor else .user
  held : u.held = decide (0 < rd 0x10 1)
  length : u.image.length = rd 0x10 1
  image : ∀ (k : Nat) e, u.image[k]? = some e → areaEntry rd k e
  crit : u.crit = (rd 0x13 1).testBit 1
  vlFull : u.vlFull = (rd 0x13 1).testBit 2
  critCount : u.critCount = rd 0x14 2
  mark : u.mark = if (rd 0x13 1).testBit 3 then some (BitVec.ofNat 64 (rd 0x28 8), BitVec.ofNat 32 (rd 0x30 4)) else none
  tscratch : ∀ a, xa = some a → u.tscratch = BitVec.ofNat 64 (rd (0x100 + 8 * a.toNat) 8)
  operand : ∀ r, (∀ i, i < rd 0x12 1 → rd (0x40 + i) 1 ≠ r.toNat) → xa = some r → u.xget r = t.xget r
  x : ∀ r, r ≠ 0 → (∀ i, i < rd 0x12 1 → rd (0x40 + i) 1 ≠ r.toNat) → xa ≠ some r →
    u.xget r = BitVec.ofNat 64 (rd (0x100 + 8 * r.toNat) 8) ∧ u.isFull r = (rd 0x18 4).testBit r.toNat
  cr : ∀ i, i < 0x80 → i ≠ 0x006 → i ≠ 0x007 → i ≠ 0x01C → u.crLow i = BitVec.ofNat 64 (rd (0x200 + 8 * i) 8)
  v : ∀ r : Reg, r.toNat < 24 →
    u.vget r = (if (rd 0x228 8).testBit r.toNat then BitVec.ofNat 16384 (rd (0x6000 + 0x800 * r.toNat) 2048) else 0) ∧
    hasReg u.vfull r = (if (rd 0x228 8).testBit r.toNat then (rd 0x1C 4).testBit r.toNat else true)
  claims : t.events = [] → u.claims.map BitVec.toNat = (List.range (rd 0x12 1)).map fun i => rd (0x40 + i) 1

section
variable (t : Strand) (rd : AreaRead) (xa : Option Reg) (streams : List (Nat × Stream))

theorem Strand.loadX_aside : ∃ x full scratch,
    (t.loadX rd xa).aside = ((x, full, scratch), (t.level, t.skip, t.pc, t.ctx),
      (t.tonOwned, t.events, t.notices, t.iter)) := by
  rw [Strand.loadX_same]
  exact ⟨_, _, _, rfl⟩

theorem Strand.loadRegs_aside : (t.loadRegs rd xa streams).aside = (t.loadX rd xa).aside :=
  (Strand.loadVs_aside ..).trans (Strand.loadCr_aside ..)

/-- The registers of the area leave the rest of the strand alone. -/
theorem Strand.loadRegs_rest : let u := t.loadRegs rd xa streams
    u.level = t.level ∧ u.skip = t.skip ∧ u.pc = t.pc ∧ u.ctx = t.ctx ∧ u.tonOwned = t.tonOwned ∧ u.events = t.events ∧
      u.iter = t.iter := by
  obtain ⟨x, full, scratch, h⟩ := t.loadX_aside rd xa
  have h := (t.loadRegs_aside rd xa streams).trans h
  simp only [Strand.aside, Prod.mk.injEq] at h
  obtain ⟨-, ⟨hlevel, hskip, hpc, hctx⟩, hton, hevents, -, hiter⟩ := h
  exact ⟨hlevel, hskip, hpc, hctx, hton, hevents, hiter⟩

/-- The x registers and `tscratch` are those that `loadX` gives. -/
theorem Strand.loadRegs_x : let u := t.loadRegs rd xa streams
    (∀ r, u.xget r = (t.loadX rd xa).xget r ∧ u.isFull r = (t.loadX rd xa).isFull r) ∧
      u.tscratch = (t.loadX rd xa).tscratch := by
  have h := t.loadRegs_aside rd xa streams
  simp only [Strand.aside, Prod.mk.injEq] at h
  obtain ⟨⟨hx, hfull, hscratch⟩, -⟩ := h
  exact ⟨fun r => ⟨Strand.xget_congr hx r, Strand.isFull_congr hfull r⟩, hscratch⟩

end

section
variable {s : State} {rd : AreaRead} {xa : Option Reg} {hint : Option Strand} {u : Strand}

theorem State.loadArea_loaded (hlegal : areaLegal rd = true) (h : s.loadArea rd xa hint = .ok u) :
    s.st.LoadedFrom rd xa u := by
  obtain ⟨hclaims, hcr, himage⟩ := areaLegal_facts hlegal
  obtain ⟨streams, stores, rc, t', own, dtag, xp, vp, depth, tiles, seq, hkeys, rfl⟩ := State.loadArea_ok h
  obtain ⟨himg, hentries⟩ :=
    loadImage_entries rd rc s.st.seq (rd 0x10 1) 0 t' fun j hj => (Nat.zero_add j).symm ▸ himage j hj
  generalize (loadImage rd rc s.st.seq (rd 0x10 1) 0 t').1 = image at himg hentries ⊢
  obtain ⟨hlevel, hskip, hpc, hctx, hton, hevents, hiter⟩ := s.st.loadRegs_rest rd xa streams
  obtain ⟨hx, hscratch⟩ := s.st.loadRegs_x rd xa streams
  have hcrs : (s.st.loadRegs rd xa streams).crs = ((s.st.loadX rd xa).loadCr rd).crs := Strand.loadVs_crs ..
  have hv : ∀ r : Reg, r.toNat < 24 → boundBy streams r.toNat = false := fun r hr => by
    refine List.any_eq_false.2 fun p hp => ?_
    have := hkeys p hp
    simp only [beq_iff_eq]
    omega
  have hvget := fun (r : Reg) (hr : r.toNat < 24) =>
    ((s.st.loadX rd xa).loadCr rd).loadVs_vget rd (areaDirty rd) (boundBy streams) (hv r hr)
  have hvfull := fun (r : Reg) (hr : r.toNat < 24) =>
    ((s.st.loadX rd xa).loadCr rd).loadVs_vfull rd (areaDirty rd) (boundBy streams) (hv r hr)
  have hdirty : ∀ r : Reg, (areaDirty rd).getLsbD r.toNat = (rd 0x228 8).testBit r.toNat :=
    fun r => getLsbD_ofNat_reg (by decide) _ r
  change ∀ r : Reg, r.toNat < 24 → (s.st.loadRegs rd xa streams).vget r = _ at hvget
  change ∀ r : Reg, r.toNat < 24 → hasReg (s.st.loadRegs rd xa streams).vfull r = _ at hvfull
  generalize s.st.loadRegs rd xa streams = w at *
  have hother := fun (r : Reg) =>
    (w.loadFields rd image own streams dtag xp vp depth tiles seq).afterLoad_other stores (r := r)
  have hcl := (w.loadFields rd image own streams dtag xp vp depth tiles seq).afterLoad_claims stores
  obtain ⟨x, full, pend, bad, claims, events, notices, hsame⟩ :=
    (w.loadFields rd image own streams dtag xp vp depth tiles seq).afterLoad_same stores
  have hclaim : ∀ r : Reg, (∀ i, i < rd 0x12 1 → rd (0x40 + i) 1 ≠ r.toNat) →
      r ∉ (List.range (rd 0x12 1)).map fun i => (BitVec.ofNat 5 (rd (0x40 + i) 1) : Reg) := fun r hr hmem => by
    obtain ⟨i, hi, rfl⟩ := List.mem_map.1 hmem
    have hi := List.mem_range.1 hi
    exact hr i hi (by rw [BitVec.toNat_ofNat, Nat.mod_eq_of_lt (hclaims i hi)])
  constructor
  case level => rw [hsame]; exact hlevel
  case skip => rw [hsame]; exact hskip
  case pc => rw [hsame]; exact hpc
  case ctx => rw [hsame]; exact hctx
  case iter => rw [hsame]; exact hiter
  case tonOwned => rw [hsame]; exact hton
  case tepc => rw [hsame]; rfl
  case ppl => rw [hsame]; rfl
  case held => rw [hsame]; rfl
  case length => rw [hsame]; exact himg
  case image => rw [hsame]; exact fun k e he => by simpa using hentries k e he
  case crit => rw [hsame]; rfl
  case vlFull => rw [hsame]; rfl
  case critCount => rw [hsame]; rfl
  case mark => rw [hsame]; rfl
  case tscratch => rintro a rfl; rw [hsame]; exact hscratch
  case operand =>
    intro r hr hxa
    exact (hother r (hclaim r hr)).1.trans ((hx r).1.trans (Strand.loadX_operand rd xa s.st hxa))
  case x =>
    intro r h0 hr hxa
    obtain ⟨hslot, hfull⟩ := Strand.loadX_slot rd xa s.st h0 hxa
    obtain ⟨hxo, hfo⟩ := hother r (hclaim r hr)
    exact ⟨hxo.trans ((hx r).1.trans hslot), hfo.trans ((hx r).2.trans hfull)⟩
  case cr =>
    intro i hi h6 h7 h1C
    rw [hsame]
    refine (Strand.crLow_congr (t := (s.st.loadX rd xa).loadCr rd) ?_ hi h6 h7 h1C).trans
      (Strand.loadCr_slot rd _ hcr hi h6 h7 h1C)
    exact hcrs
  case v =>
    intro r hr
    rw [hsame, ← hdirty]
    exact ⟨hvget r hr, hvfull r hr⟩
  case claims =>
    intro he
    rw [hcl (hevents.trans he)]
    show ((List.range (rd 0x12 1)).map fun i => (BitVec.ofNat 5 (rd (0x40 + i) 1) : Reg)).map BitVec.toNat = _
    rw [List.map_map]
    refine List.map_congr_left fun i hi => ?_
    rw [Function.comp_apply, BitVec.toNat_ofNat, Nat.mod_eq_of_lt (hclaims i (List.mem_range.1 hi))]

end

end Sys2Proof.Machine

namespace Sys2Proof.Machine

/-! ## An area does not depend on the strand's tiles -/

/-- The strand with other tiles. -/
def Strand.retiled (owned : BitVec 3) (dirty : BitVec 36) (pend : Option TonReq) (tiles : Vector TileReg 4)
    (bad : List Nat) (n : Nat)
    (t : Strand) : Strand :=
  { t with tonOwned := owned, vdirty := dirty, tonPend := pend, tiles, vpoison := bad, iter := { t.iter with tiles := n } }

section
variable (s : State) (owned : BitVec 3) (dirty : BitVec 36) (pend : Option TonReq) (tiles : Vector TileReg 4)
  (bad : List Nat) (n : Nat)

theorem State.check_retiled (acc : Acc) (al size : Nat) (a : Word) :
    (s.upd (Strand.retiled owned dirty pend tiles bad n)).check acc al size a = s.check acc al size a := rfl

theorem State.seenBytes_retiled (p : Place) (k : Nat) :
    (s.upd (Strand.retiled owned dirty pend tiles bad n)).seenBytes p k = s.seenBytes p k := by
  have hbyte : (s.upd (Strand.retiled owned dirty pend tiles bad n)).seenByte = s.seenByte := by
    funext q; cases q <;> rfl
  unfold State.seenBytes
  rw [hbyte]

theorem State.streamFrom_retiled (desc : Word) (bs : List Byte) :
    (s.upd (Strand.retiled owned dirty pend tiles bad n)).streamFrom desc bs = s.streamFrom desc bs := rfl

theorem State.pageBytes_retiled (a : Word) :
    (s.upd (Strand.retiled owned dirty pend tiles bad n)).pageBytes a = s.pageBytes a := rfl

theorem State.loadStreams_retiled (rd : AreaRead) (m k : Nat) :
    (s.upd (Strand.retiled owned dirty pend tiles bad n)).loadStreams rd m k = s.loadStreams rd m k := by
  induction m generalizing k with
  | zero => rfl
  | succ m ih => simp only [State.loadStreams, ih, State.check_retiled, State.seenBytes_retiled, State.streamFrom_retiled]

theorem State.loadStores_retiled (rd : AreaRead) (q base : Nat) (hint : Option Strand) (m k prev : Nat) :
    (s.upd (Strand.retiled owned dirty pend tiles bad n)).loadStores rd q base hint m k prev =
      s.loadStores rd q base hint m k prev := by
  induction m generalizing k prev with
  | zero => rfl
  | succ m ih =>
    have hfree : (s.upd (Strand.retiled owned dirty pend tiles bad n)).freeCount = s.freeCount := rfl
    simp only [State.loadStores, ih, State.check_retiled, State.pageBytes_retiled, hfree]

/-- The strand as the area's checks see it. -/
def Strand.viewed (rd : AreaRead) (t : Strand) : Strand :=
  { t with
    level := if (rd 0x13 1).testBit 0 then .supervisor else .user
    stores := t.stores.filter fun e => e.after.isNone }

/-- An area is loaded where its streams and its stores are. -/
theorem State.loadArea_isOk (rd : AreaRead) (xa : Option Reg) (hint : Option Strand) :
    (∃ u, s.loadArea rd xa hint = .ok u) ↔
      (∃ l, (s.upd (Strand.viewed rd)).loadStreams rd 8 0 = .ok l) ∧
      ∃ l, (s.upd (Strand.viewed rd)).loadStores rd (rd 0x10 1) s.st.seq hint (rd 0x11 1) 0 0 = .ok l := by
  have hview : (s.upd (Strand.viewed rd)) = s.upd fun t => { t with
    level := if (rd 0x13 1).testBit 0 then .supervisor else .user, stores :=
      s.st.stores.filter fun e => e.after.isNone } := rfl
  rw [hview]
  unfold State.loadArea
  dsimp only
  constructor
  · rintro ⟨u, h⟩
    split at h
    · cases h
    · cases h
    · next l1 l2 h1 h2 => exact ⟨⟨l1, h1⟩, l2, h2⟩
  · rintro ⟨⟨l1, h1⟩, l2, h2⟩
    rw [h1, h2]
    exact ⟨_, rfl⟩

theorem State.loadArea_retiled {rd : AreaRead} {xa : Option Reg} {hint : Option Strand} {u : Strand}
    (h : s.loadArea rd xa hint = .ok u) :
    ∃ u', (s.upd (Strand.retiled owned dirty pend tiles bad n)).loadArea rd xa hint = .ok u' := by
  obtain ⟨⟨l1, h1⟩, l2, h2⟩ := (State.loadArea_isOk ..).1 ⟨u, h⟩
  have hview : (s.upd (Strand.retiled owned dirty pend tiles bad n)).upd (Strand.viewed rd) =
      (s.upd (Strand.viewed rd)).upd (Strand.retiled owned dirty pend tiles bad n) := rfl
  refine (State.loadArea_isOk ..).2 ?_
  rw [hview, State.loadStreams_retiled, State.loadStores_retiled]
  exact ⟨⟨l1, h1⟩, l2, h2⟩

end

/-- The tiles of a `ctxld` are granted: none are wanted, or the pool has them. -/
theorem State.restoreTiles_granted {s : State} {n : Nat} (hp : s.st.tonPend = none)
    (hn : n ≠ 0 → s.canGrant n s.stamp = true) : ∃ tiles bad k,
    s.restoreTiles n = some (s.upd (Strand.retiled (BitVec.ofNat 3 n) s.st.vdirty none tiles bad k)) := by
  unfold State.restoreTiles
  split
  · next h => subst h; exact ⟨_, _, _, rfl⟩
  · next h =>
    rw [hp]
    dsimp only [Option.getD_none]
    rw [if_pos (hn h)]
    exact ⟨_, _, _, rfl⟩

/-! ## `ctxld` -/

/-- A strand that has released its tiles (R128). -/
def Strand.freed (t : Strand) : Strand := { t with tonOwned := 0, vdirty := t.vdirty &&& 0xFFFFFFFF }

section
variable {s : State} {a : Reg} {ps : List AreaPage}

/-- The checks of `ctxld` on its operand. -/
theorem exec_ctxld (hl : s.st.level = .supervisor) (hu : s.usable [a] []) : exec (.ctxld a) s = .next (
    if areaMisaligned (s.st.xget a) then s.trap 0x08 (s.st.xget a)
    else if s.st.loadWaits then s.stall
    else
      match pagePlaces (fun x => s.check .read 1 4096 x) (s.skewSeen s.st.stores s.st.ctx) (s.st.xget a) areaPages 0 with
      | .error (c, x) => s.trap c x
      | .ok ps =>
        let rd := s.areaReader ps
        match s.areaPoison (s.st.xget a) ps rd with
        | some line => s.consume line
        | none =>
          if !areaLegal rd then s.decodeTrap (.ctxld a) 0x02
          else if decide (16 < (s.st.stores.filter fun e => e.after.isNone).length + rd 0x11 1) then s.stall
          else
            match s.loadArea rd (some a) none with
            | .error (c, x) => s.trap c x
            | .ok _ =>
              let n := rd 0x16 1
              let freed := s.upd Strand.freed
              match freed.restoreTiles n with
              | none =>
                State.stall (if s.st.tonPend.isSome then freed
                  else
                    let req : TonReq := { tiles := n, stamp := s.stamp, decode := false }
                    { freed.upd fun t => { t with tonPend := some req } with stamp := s.stamp + 1 })
              | some s' =>
                match s'.loadArea rd (some a) none with
                | .error (c, x) => s.trap c x
                | .ok t => (s'.upd fun _ => t).advance) := by
  show execCtxld a s = _
  unfold execCtxld State.supervisor
  rw [if_neg (by rw [hl]; decide)]
  dsimp only
  rw [State.gated_of_usable _ hu] <;> rfl

end

end Sys2Proof.Machine

namespace Sys2Proof.Machine

section
variable {s : State} {a : Reg} {ps : List AreaPage}

theorem areaMisaligned_of_unaligned {va : Word} (hc : canonical va = true) (h : va.toNat % 4096 ≠ 0) :
    areaMisaligned va = true := by
  simp [areaMisaligned, hc, h]

/-- A strand whose older entries, loads and streams are done and whose stores are all of the image can be saved. -/
theorem Strand.saveWaits_of_done {t : Strand} (hq : t.queue = []) (hl : t.loads = []) (hd : t.draining = false)
    (hst : ∀ e ∈ t.stores, ∃ k ∈ t.image.map QEntry.seq, e.after = some k) : t.saveWaits = false := by
  have hstores : (t.stores.any fun e => e.after.isNone) = false := List.any_eq_false.2 fun e he => by
    obtain ⟨k, -, hk⟩ := hst e he
    simp [hk]
  simp [Strand.saveWaits, Strand.busy, hq, hl, hd, hstores]

/-- `ctxld` of a legal area that is granted its tiles. -/
theorem exec_ctxld_loads (hl : s.st.level = .supervisor) (hu : s.usable [a] []) (ha : (s.st.xget a).toNat % 4096 = 0)
    (hw : s.st.loadWaits = false)
    (hp : pagePlaces (fun x => s.check .read 1 4096 x) (s.skewSeen s.st.stores s.st.ctx) (s.st.xget a) areaPages 0 = .ok ps)
    (hpoison : s.areaPoison (s.st.xget a) ps (s.areaReader ps) = none) (hlegal : areaLegal (s.areaReader ps) = true)
    {u : Strand} (hload : s.loadArea (s.areaReader ps) (some a) none = .ok u)
    (hroom : (s.st.stores.filter fun e => e.after.isNone).length + s.areaReader ps 0x11 1 ≤ 16)
      (hpend : s.st.tonPend = none)
    (hgrant : s.areaReader ps 0x16 1 ≠ 0 → (s.upd Strand.freed).canGrant
      (s.areaReader ps 0x16 1) s.stamp = true) :
    ∃ tiles bad k v, let t0 := s.upd (Strand.retiled (BitVec.ofNat 3 (s.areaReader ps 0x16 1))
      (s.st.vdirty &&& 0xFFFFFFFF) none tiles bad k)
      t0.loadArea (s.areaReader ps) (some a) none = .ok v ∧ exec (.ctxld a) s = .next (t0.upd fun _ => v).advance := by
  obtain ⟨tiles, bad, k, hgr⟩ := State.restoreTiles_granted (s := s.upd Strand.freed)
    (n := s.areaReader ps 0x16 1) hpend hgrant
  have hgr : (s.upd Strand.freed).restoreTiles (s.areaReader ps 0x16 1) =
      some (s.upd (Strand.retiled (BitVec.ofNat 3 (s.areaReader ps 0x16 1))
        (s.st.vdirty &&& 0xFFFFFFFF) none tiles bad k)) := hgr
  obtain ⟨v, hv⟩ := State.loadArea_retiled s (BitVec.ofNat 3 (s.areaReader ps 0x16 1))
    (s.st.vdirty &&& 0xFFFFFFFF) none tiles bad k hload
  refine ⟨tiles, bad, k, v, hv, ?_⟩
  rw [exec_ctxld hl hu, if_neg (by rw [areaMisaligned_of_aligned ha]; decide), if_neg (by rw [hw]; decide), hp]
  dsimp only
  rw [hpoison]
  dsimp only
  rw [if_neg (by rw [hlegal]; decide), if_neg (by rw [decide_eq_true_eq]; omega), hload]
  dsimp only
  rw [hgr]
  dsimp only
  rw [hv]

end

/-- Settles O33: `ctxsv` writes the pieces of the area, which read back as the strand, and `ctxld` takes each field from its
place in the area. -/
theorem saveAndLoadContext : Obligations.SaveAndLoadContext := by
  unfold Obligations.SaveAndLoadContext
  refine ⟨fun a s hl hu => ?save, fun a s hl hu => ?load⟩
  case save =>
    refine ⟨fun hc ha => ?_, fun ha hw => ?_, fun ps ha hq hloads hd hst hxp hvp hp => ?_⟩
    · rw [exec_ctxsv hl hu, if_pos (areaMisaligned_of_unaligned hc ha)]
    · rw [exec_ctxsv hl hu, if_neg (by rw [areaMisaligned_of_aligned ha]; decide), if_pos hw]
    · have hnw := Strand.saveWaits_of_done hq hloads hd hst
      refine ⟨s.savedAt a ps, ?_, ?_⟩
      · rw [exec_ctxsv hl hu, if_neg (by rw [areaMisaligned_of_aligned ha]; decide), if_neg (by rw [hnw]; decide),
          if_neg (by rw [hxp, hvp]; simp), hp]
      · obtain ⟨hpc, himage, hstores, hheld, hclaims, hlevel⟩ := State.savedAt_leaves (a := a) (ps := ps) hl hst
        exact ⟨hpc, himage, hstores, hheld, hclaims, hlevel,
          fun hul hf hm hsc hap => State.savedAt_kept hl hp hst hq hul hf hm hsc hap⟩
  case load =>
    refine ⟨fun hc ha => ?_, fun ha hw => ?_, fun c x ha hw hp => ?_, fun ps ha hw hp hpoison => ⟨fun hill => ?_,
      fun u hlegal hload hroom hpend hgrant => ?_⟩⟩
    · rw [exec_ctxld hl hu, if_pos (areaMisaligned_of_unaligned hc ha)]
    · rw [exec_ctxld hl hu, if_neg (by rw [areaMisaligned_of_aligned ha]; decide), if_pos hw]
    · rw [exec_ctxld hl hu, if_neg (by rw [areaMisaligned_of_aligned ha]; decide), if_neg (by rw [hw]; decide), hp]
    · rw [exec_ctxld hl hu, if_neg (by rw [areaMisaligned_of_aligned ha]; decide), if_neg (by rw [hw]; decide), hp]
      dsimp only
      rw [hpoison]
      dsimp only
      rw [if_pos (by rw [hill]; decide)]
    · obtain ⟨tiles, bad, k, v, hv, hexec⟩ := exec_ctxld_loads hl hu ha hw hp hpoison hlegal hload hroom hpend hgrant
      have h := State.loadArea_loaded hlegal hv
      refine ⟨_, hexec, congrArg (· + 4) h.pc, h.level.trans hl, h.skip, ⟨fun _ => rfl, fun _ => rfl⟩, h.tepc, ?_,
        h.held, h.length,
        h.crit, h.vlFull, h.critCount, h.tonOwned, h.mark, h.tscratch a rfl, fun r h0 hr => ⟨?_, fun hne => ?_⟩,
        fun i hi h6 h7 h1C => (Strand.crLow_congr (t := v) (u := v.next) rfl hi h6 h7 h1C).trans (h.cr i hi h6 h7 h1C),
          h.image, h.v, fun he _ => h.claims he⟩
      · show v.ppl = .supervisor ↔ _
        rw [h.ppl]
        split <;> simp_all
      · rintro rfl; exact h.operand r hr rfl
      · exact h.x r h0 hr fun e => hne (Option.some.inj e).symm

end Sys2Proof.Machine

/-! SUPPORT. Pre-emption, parking and resuming (R130 to R133, R202, R275). -/

namespace Sys2Proof.Machine

/-! ## A strand with nothing outstanding -/

section
variable {s : State}

theorem State.drainStrip_done (h : s.st.draining = false) (r : Reg) : s.drainStrip r = s := by
  unfold State.drainStrip
  split
  · rfl
  · next b hb =>
    obtain ⟨p, hp, rfl⟩ := Option.map_eq_some_iff.1 hb
    have hnot := List.any_eq_false.1 h p (List.mem_of_find?_eq_some hp)
    dsimp only
    split
    · next q qs hout hbuf => exact absurd (by simp [hout, hbuf]) hnot
    · rfl

theorem State.drainAll_done (h : s.st.draining = false) : s.drainAll = s := by
  have hstrips : ∀ n r, State.drainStrips n r s = s := fun n r => by
    induction n with
    | zero => rfl
    | succ n ih => rw [State.drainStrips, State.drainStrip_done h, ih]
  unfold State.drainAll
  induction s.st.streams with
  | nil => rfl
  | cons p ps ih => rw [List.foldl_cons, hstrips, ih]

/-- Where every store waits on an entry of the image, none is ready. -/
theorem Strand.headReady_of_waiting {t : Strand} (h : ∀ e ∈ t.stores, e.after.isNone = false) : t.headReady = false := by
  unfold Strand.headReady
  split
  · rfl
  · next e es he => rw [h e (by rw [he]; exact List.mem_cons_self ..)]; rfl

theorem State.flush_waiting (h : s.st.headReady = false) (n b : Nat) : State.flush n b s = s := by
  cases n with
  | zero => rfl
  | succ n => rw [State.flush, h]; rfl

theorem State.withdrawAtomic_waiting (h : s.st.headReady = false) : s.withdrawAtomic = s := by
  unfold State.withdrawAtomic
  split
  · rfl
  · rw [h]; rfl

/-- A strand whose loads and strips are done and whose stores all wait is quiet already. -/
theorem State.quiesce_done (hl : s.st.loads = []) (hd : s.st.draining = false)
    (hst : ∀ e ∈ s.st.stores, e.after.isNone = false) :
    s.quiesce = s := by
  have hr := Strand.headReady_of_waiting hst
  unfold State.quiesce
  rw [hl]
  show ((s.flush s.st.stores.length s.st.seq).withdrawAtomic).drainAll = s
  rw [State.flush_waiting hr, State.withdrawAtomic_waiting hr, State.drainAll_done hd]

/-- A head at or above its stop point stops where it stands. -/
theorem State.stopHead_stands {k : Nat} (hh : ∀ e, s.st.queue.head? = some e → ∃ f, formOf e = some f ∧ f.grain ≠ 0)
    (hk : k ≤ s.st.vstart.toNat) : s.stopHead k = some (s.upd Strand.standHead) := by
  unfold State.stopHead
  split
  · next hq =>
    have : s.st.standHead = s.st := by unfold Strand.standHead; rw [hq]; rfl
    rw [State.upd, this]
  · next e es hq =>
    have he : s.st.queue.head? = some e := by rw [hq]; rfl
    obtain ⟨f, hf, hg⟩ := hh e he
    have hstand : s.upd Strand.standHead = s.upd (f.stand e) := by simp only [State.upd, Strand.standHead_of he hf]
    rw [hstand, hf]
    dsimp only
    split
    · rw [if_neg (by simp [hg])]
    · rfl

end

/-- The strand as its head stands. -/
theorem Strand.standHead_eq {t : Strand} (hh : ∀ e, t.queue.head? = some e → ∃ f, formOf e = some f ∧ f.grain ≠ 0) :
    t.standHead = if t.vstart = 0 then t else t.queue.head?.elim t t.commitTags := by
  split
  · next h => exact Strand.standHead_zero h
  · next h =>
    cases he : t.queue.head? with
    | none => unfold Strand.standHead; rw [he]; rfl
    | some e =>
      obtain ⟨f, hf, hg⟩ := hh e he
      rw [Strand.standHead_of he hf, VForm.stand_above e hg h]
      rfl

/-! ## The strand that is saved -/

/-- What the save of the device takes of the strand's fields. -/
theorem Strand.toSave_same (t : Strand) : t.toSave = { t with
    fflags := t.toSave.fflags, ffirst := t.toSave.ffirst, queue := t.toSave.queue, image := [], held := false
    tonOwned := t.toSave.tonOwned } := by
  conv_lhs => rw [Strand.toSave, Strand.takeFlags, Strand.mergeScalar_same]
  rfl

theorem Strand.toSave_of_zero {t : Strand} (h : ∀ e ∈ t.queue ++ t.image, e.scalar = 0) (hp : t.tonPend = none) :
    t.toSave = { t with queue := t.queue ++ t.image, image := [], held := false } := by
  rw [Strand.toSave, Strand.takeFlags, Strand.mergeScalar_of_zero t h, flagsTaken_of_zero h, hp]

/-- The strand in focus as it is saved. -/
def Strand.saving (t : Strand) : Strand := t.standHead.toSave

theorem Strand.saving_same (t : Strand) : ∃ gtag fflags ffirst queue owned, t.saving =
    { t with
      gtag := gtag, fflags := fflags, ffirst := ffirst, queue := queue, image := [], held := false
      tonOwned := owned } := by
  obtain ⟨gtag, hg⟩ : ∃ gtag, t.standHead = { t with gtag := gtag } := ⟨_, t.standHead_same⟩
  rw [Strand.saving, hg]
  exact ⟨gtag, _, _, _, _, Strand.toSave_same _⟩

theorem State.savePlaces_saving (s : State) : (s.upd Strand.saving).savePlaces s.st.saving = s.savePlaces s.st := by
  obtain ⟨gtag, fflags, ffirst, queue, owned, h⟩ := s.st.saving_same
  rw [State.upd, h]
  rfl

end Sys2Proof.Machine

namespace Sys2Proof.Machine

/-! ## The area that the device writes -/

section
variable {s : State} {ps : List AreaPage}

/-- At a place of memory a write of the device is one of the strand's own context. -/
theorem State.writeFrom_eq_writePlace {u : State} (hf : u.flights = []) {p : Place}
    (hp : (∃ m, p = .mem m) ∨ ∃ m, p = .host m)
    (va : Word) (bs : List Byte) : u.writeFrom (dieOf u.cur) u.st.ctx va p bs = u.writePlace va p bs := by
  obtain ⟨ds, hds⟩ := u.crossed_dies (dieOf u.cur) p hf
  rw [State.writeFrom, State.writePlace, hds]
  rcases hp with ⟨m, rfl⟩ | ⟨m, rfl⟩ <;> rfl

/-- How the device writes a line of an area, for the strand in focus. -/
def State.deviceWrite (ctx : BitVec 12) (s : State) (va : Word) (p : Place) (bs : List Byte) : State :=
  s.writeFrom (dieOf s.cur) ctx va p bs

theorem State.deviceWrite_writes (hmem : ∀ off p, areaPlace ps off = some p → (∃ m, p = .mem m) ∨ ∃ m, p = .host m) :
    writesArea ps (State.deviceWrite s.st.ctx) (s.areaWritten ps) := fun u hu va off p bs hp => by
  have hctx : u.st.ctx = s.st.ctx := by rw [hu.st]
  rw [State.deviceWrite, ← hctx, State.writeFrom_eq_writePlace hu.flights (hmem off p hp)]
  exact State.areaWritten_writes u hu va off p bs hp

/-- The pages of an area that the device checks lie in memory. -/
theorem State.devicePages {ctx : BitVec 12} {acc : Acc} {skew : Word → Nat} {a : Word}
    (h : pagePlaces (fun x => s.checkDevice ctx acc 1 x) skew a areaPages 0 = .ok ps) :
    ps.length = areaPages ∧ ∀ g ∈ ps, (∃ m, g.place = .mem m) ∨ ∃ m, g.place = .host m := by
  obtain ⟨hlen, hall⟩ := pagePlaces_ok h
  refine ⟨hlen, fun g hg => ?_⟩
  obtain ⟨x, d, hx⟩ := hall g hg
  exact State.checkFor_place hx

theorem areaPlace_memory (h : ∀ g ∈ ps, (∃ m, g.place = .mem m) ∨ ∃ m, g.place = .host m) (off : Nat) (p : Place)
    (hp : areaPlace ps off = some p) : (∃ m, p = .mem m) ∨ ∃ m, p = .host m := by
  obtain ⟨g, hg, rfl⟩ := exists_page hp
  exact Place.along_page _ (h g hg) _

/-- Bytes of an area in memory are what memory holds. -/
theorem State.areaByte_congr {t : State} (hp : ∀ off p, areaPlace ps off = some p → (∃ m, p = .mem m) ∨ ∃ m, p = .host m)
    (hm : t.mem = s.mem) (hh : t.hostMem = s.hostMem) (j : Nat) : t.areaByte ps j = s.areaByte ps j := by
  unfold State.areaByte
  cases h : areaPlace ps j with
  | none => rfl
  | some p =>
    rcases hp j p h with ⟨m, rfl⟩ | ⟨m, rfl⟩
    · exact congrArg (memGet · m) hm
    · exact congrArg (hostGet · m) hh

theorem State.savePlaces_pages {t : Strand} {slot : Nat} {a : Word} (h : s.savePlaces t = some (slot, a, ps)) :
    pagePlaces (fun x => s.checkDevice t.ctx .write 1 x) (s.skewAt t.ctx) a areaPages 0 = .ok ps := by
  unfold State.savePlaces at h
  dsimp only at h
  split at h
  · cases h
  split at h
  · cases h
  · next hp =>
    simp only [Option.some.injEq, Prod.mk.injEq] at h
    obtain ⟨-, rfl, rfl⟩ := h
    exact hp

/-! ## Saving the strand in focus -/

/-- The pieces of the area are written. -/
def State.devicePieces (s : State) (a : Word) (ps : List AreaPage) : State :=
  State.writePieces (State.deviceWrite s.st.ctx) a ps (s.st.savePieces s.st.deviceKind) s

theorem State.writeArea_eq (s : State) (slot : Nat) (a : Word) (ps : List AreaPage) : ∃ cs, s.writeArea slot a ps =
    { s.devicePieces a ps with ctxs := cs } := by
  show ∃ cs, (if ((s.devicePieces a ps).context s.st.ctx).slots.contains slot then s.devicePieces a ps
    else (s.devicePieces a ps).setContext s.st.ctx { (s.devicePieces a ps).context s.st.ctx with
      slots := ((s.devicePieces a ps).context s.st.ctx).slots ++ [slot] }) = _
  split
  · exact ⟨_, rfl⟩
  · exact ⟨_, rfl⟩

theorem State.devicePieces_effects (s : State) (a : Word) (ps : List AreaPage) : s.Effects (s.devicePieces a ps) :=
  State.writeLines_over State.Effects.refl State.Effects.trans (fun _ _ _ _ => State.writeFrom_effects ..) ..

/-- What the device keeps of the strand in focus. -/
def State.kept (t : State) (slot : Nat) (a : Word) (parked : Bool) : Saved := ⟨t.cur, a, t.st.afterDeviceSave slot, parked⟩

/-- The save of the strand in focus, once its area is written. -/
theorem State.saveFocus_eq {slot : Nat} {a : Word} {k : Nat} (parked : Bool) (hl : s.st.loads = [])
    (hd : s.st.draining = false)
    (hst : ∀ e ∈ s.st.stores, e.after.isNone = false)
    (hh : ∀ e, s.st.queue.head? = some e → ∃ f, formOf e = some f ∧ f.grain ≠ 0) (hk : k ≤ s.st.vstart.toNat)
    (hp : s.savePlaces s.st = some (slot, a, ps)) : ∃ cs, s.saveFocus k parked =
      let t := (s.upd Strand.saving).devicePieces a ps
      some (({ t with ctxs := cs, saved := t.saved ++ [t.kept slot a parked] } : State).upd Strand.leave) := by
  obtain ⟨cs, hcs⟩ := (s.upd Strand.saving).writeArea_eq slot a ps
  refine ⟨cs, ?_⟩
  have hsaving : (s.upd Strand.standHead).upd Strand.toSave = s.upd Strand.saving := rfl
  have hstand := s.st.standHead_same
  have hsameLoads : s.st.standHead.loads = s.st.loads := by rw [hstand]
  have hsameStores : s.st.standHead.stores = s.st.stores := by rw [hstand]
  have hloads : (s.upd Strand.standHead).st.loads = [] := hsameLoads.trans hl
  have hnone : ((s.upd Strand.standHead).st.stores.any fun e => e.after.isNone) = false := by
    rw [show (s.upd Strand.standHead).st.stores = s.st.stores from hsameStores]
    exact List.any_eq_false.2 fun e he => by rw [hst e he]; decide
  unfold State.saveFocus
  rw [State.quiesce_done hl hd hst, State.stopHead_stands hh hk]
  dsimp only
  rw [if_neg (by rw [hloads, hnone]; decide)]
  rw [hsaving]
  have hpl : (s.upd Strand.saving).savePlaces (s.upd Strand.saving).st = some (slot, a, ps) := s.savePlaces_saving.trans hp
  rw [hpl]
  dsimp only
  rw [hcs]
  rfl

end

end Sys2Proof.Machine

namespace Sys2Proof.Machine

/-- The strand of the area, with its head where it stands and one queue. -/
def Strand.resting (t : Strand) : Strand :=
  let u := if t.vstart = 0 then t else t.queue.head?.elim t t.commitTags
  { u with queue := t.queue ++ t.image, image := [], held := false }

theorem Strand.saving_of_zero {t : Strand} (hh : ∀ e, t.queue.head? = some e → ∃ f, formOf e = some f ∧ f.grain ≠ 0)
    (hz : ∀ e ∈ t.queue ++ t.image, e.scalar = 0) (hp : t.tonPend = none) : t.saving = t.resting := by
  have hsame := t.standHead_same
  have hq : t.standHead.queue ++ t.standHead.image = t.queue ++ t.image := by rw [hsame]
  rw [Strand.saving, Strand.toSave_of_zero (by rw [hq]; exact hz) (by rw [hsame]; exact hp), hq, Strand.resting,
    ← Strand.standHead_eq hh]

theorem Strand.resting_same (t : Strand) (hh : ∀ e, t.queue.head? = some e → ∃ f, formOf e = some f ∧ f.grain ≠ 0) : ∃ gtag,
    t.resting = { t with gtag := gtag, queue := t.queue ++ t.image, image := [], held := false } := by
  obtain ⟨gtag, hg⟩ : ∃ gtag, t.standHead = { t with gtag := gtag } := ⟨_, t.standHead_same⟩
  rw [Strand.resting, ← Strand.standHead_eq hh, hg]
  exact ⟨gtag, rfl⟩

section
variable {s : State} {ps : List AreaPage} {slot : Nat} {a : Word}

/-- The strand that the device keeps goes back to the one that it saved. -/
theorem State.devicePieces_kept (parked : Bool) :
    let v := ((s.upd Strand.saving).devicePieces a ps).kept slot a parked
    v.home = s.cur ∧ v.area = a ∧ v.parked = parked ∧ v.strand.iter.slot = some slot ∧ v.strand.iter.id = s.st.iter.id ∧
      v.strand.claims = [] ∧ v.strand.tonOwned = 0 ∧ v.strand.ctx = s.st.ctx := by
  have heff := (s.upd Strand.saving).devicePieces_effects a ps
  have hpost := heff.posted
  obtain ⟨gtag, fflags, ffirst, queue, owned, hsame⟩ := s.st.saving_same
  have hid : ((s.upd Strand.saving).devicePieces a ps).st.iter.id = s.st.iter.id := by
    rw [hpost.iter]
    show s.st.saving.iter.id = _
    rw [hsame]
  have hctx : ((s.upd Strand.saving).devicePieces a ps).st.ctx = s.st.ctx := hpost.ctx.trans (by
    show s.st.saving.ctx = _
    rw [hsame])
  exact ⟨heff.cur, rfl, rfl, rfl, hid, rfl, rfl, hctx⟩

/-- The area shows the strand as it rests, where nothing is logged and no write is in flight. -/
theorem State.devicePieces_shows (hp : s.savePlaces s.st = some (slot, a, ps))
    (hh : ∀ e, s.st.queue.head? = some e → ∃ f, formOf e = some f ∧ f.grain ≠ 0)
    (hst : ∀ e ∈ s.st.stores, ∃ k ∈ (s.st.queue ++ s.st.image).map QEntry.seq, e.after = some k)
    (hu : (s.context s.st.ctx).ulOn = false) (hf : s.flights = []) (hm : Memory.wf s.mem = true)
    (hz : ∀ e ∈ s.st.queue ++ s.st.image, e.scalar = 0) (hton : s.st.tonPend = none) (hap : pagesApart ps) :
    let t := (s.upd Strand.saving).devicePieces a ps
    t.saved = s.saved ∧ t.st.events = s.st.events ∧ ∀ u : State, u.st.stores = [] → u.mem = t.mem → u.hostMem = t.hostMem →
      areaShows (u.areaReader ps) s.st.resting s.st.resting.deviceKind := by
  have hsaving := Strand.saving_of_zero hh hz hton
  obtain ⟨gtag, hrest⟩ := s.st.resting_same hh
  obtain ⟨hlen, hmem⟩ := State.devicePages (State.savePlaces_pages hp)
  have hplace := areaPlace_memory hmem
  obtain ⟨s', hs'⟩ : ∃ s', s' = s.upd Strand.saving := ⟨_, rfl⟩
  have hs'st : s'.st = s.st.resting := by rw [hs', ← hsaving]; rfl
  have hctx : s'.st.ctx = s.st.ctx := by rw [hs'st, hrest]
  have hI : s'.areaWritten ps s' := State.areaWritten_refl (by rw [hs']; exact hf) (by rw [hctx, hs']; exact hu)
    (by rw [hs']; exact hm) fun g hg => State.writable_of_page (hmem g hg)
  have hwr := State.deviceWrite_writes (s := s') hplace
  have hpieces := fun p => s'.st.isPiece_of_mem s'.st.deviceKind (p := p)
  rw [← hs']
  have hI' : s'.areaWritten ps (s'.devicePieces a ps) := (State.writePieces_byte hwr hap hlen a hpieces hI).1
  refine ⟨?_, ?_, fun u hempty hum huh => ?_⟩
  · rw [hI'.rest, hs']; rfl
  · rw [hI'.st, hs'st, hrest]
  · rw [← hs'st]
    refine areaShows_of (State.areaReader_shows hempty fun p hpm o ho => ?_) (Strand.imageStores_all ?_) fun e he => ?_
    · rw [State.areaByte_congr hplace hum huh]
      exact State.writePieces_piece hwr hap hlen a hpieces (s'.st.savePieces_rising _) hI hpm ho
    · show ∀ e ∈ s'.st.stores, ∃ k ∈ s'.st.queue.map QEntry.seq, e.after = some k
      rw [hs'st, hrest]; exact hst
    · have he : s'.st.queue.head? = some e := he
      obtain ⟨es, hes⟩ := List.head?_eq_some_iff.1 he
      show s'.st.vcp false = e.pc
      rw [Strand.vcp, hes]
      rfl

end

end Sys2Proof.Machine

namespace Sys2Proof.Machine

/-! ## The strand that comes into focus -/

theorem tabGet_tabSet_of_ne {α : Type} (d : α) {n j : Nat} (v : α) (h : j ≠ n) (l : List (Nat × α)) :
    tabGet d (tabSet n v l) j = tabGet d l j := by
  induction l with
  | nil => simp [tabSet, tabGet, h]
  | cons c l ih =>
    obtain ⟨k, w⟩ := c
    unfold tabSet
    split
    · next hk => subst hk; simp [tabGet, h]
    · simp only [tabGet, ih]

theorem tabGet_filter_of_ne {α : Type} (d : α) {n j : Nat} (h : j ≠ n) (l : List (Nat × α)) :
    tabGet d (l.filter fun p => p.1 != n) j = tabGet d l j := by
  induction l with
  | nil => rfl
  | cons c l ih =>
    obtain ⟨k, w⟩ := c
    by_cases hk : k = n
    · subst hk; simp [tabGet, h, ih]
    · simp only [List.filter_cons, bne_iff_ne, ne_eq, hk, not_false_iff, if_true, tabGet, ih]

section
variable (s : State) (n : Nat)

theorem State.focus_cur : (s.focus n).cur = n := by
  unfold State.focus
  split
  · next h => exact h.symm
  · rfl

theorem State.focus_st : (s.focus n).st = s.strand n := by
  unfold State.focus State.strand
  split
  · next h => rw [if_pos (by simp [h])]
  · next h => rw [if_neg (by simp [h])]

/-- Which strand is in focus is nothing to the strands. -/
theorem State.focus_strand (j : Nat) : (s.focus n).strand j = s.strand j := by
  by_cases hj : j = n
  · subst hj
    rw [← State.focus_st s j, State.strand, if_pos (by simp [State.focus_cur])]
  · unfold State.focus
    split
    · rfl
    · next h =>
      simp only [State.strand, beq_iff_eq, hj, if_false]
      by_cases hc : j = s.cur
      · rw [if_pos hc, hc, tabGet_tabSet_self]
      · rw [if_neg hc, tabGet_tabSet_of_ne _ _ hc, tabGet_filter_of_ne _ hj]

/-- Nor to the rest of the machine. -/
theorem State.focus_rest : ∃ others, s.focus n = { s with st := s.strand n, cur := n, others := others } := by
  have hst := s.focus_st n
  unfold State.focus at hst ⊢
  split
  · next h => subst h; rw [if_pos rfl] at hst; exact ⟨s.others, by rw [← hst]⟩
  · next h => rw [if_neg h] at hst; rw [← hst]; exact ⟨_, rfl⟩

/-- A change of the strand in focus changes no other. -/
theorem State.upd_strand_of_ne (f : Strand → Strand) {j : Nat} (h : j ≠ s.cur) : (s.upd f).strand j = s.strand j := by
  unfold State.strand
  rw [if_neg (show ¬(j == (s.upd f).cur) = true by simpa [State.upd] using h), if_neg (by simpa using h)]
  rfl

theorem State.strand_cur : s.strand s.cur = s.st := by rw [State.strand, if_pos (by simp)]

/-- Whether a batch is a landing batch depends on its iteration and on the graphs. -/
theorem State.onLanding_congr {s t : State} (hg : t.graphs = s.graphs) {u v : Strand} (hw : u.iter.work = v.iter.work)
    (hgr : u.iter.graph = v.iter.graph) (hn : u.iter.node = v.iter.node) (hc : u.ctx = v.ctx) :
      t.onLanding u = s.onLanding v := by
  simp only [State.onLanding, State.graphAt, hg, hw, hgr, hn, hc]

end

/-! ## A saved iteration comes back (R131, R202, R275) -/

/-- A strand as a resume finds it: what its area holds is still to be loaded. -/
def Strand.blank (t : Strand) : Strand :=
  { t with
    stores := [], loads := [], undo := [], queue := [], image := [], held := false
    streams := [], crit := false, sleep := .awake, run := .running, tonOwned := 0, tonPend := none }

/-- The strand that a loaded area gives back: it returns as by `eret`, which skips no entry. -/
def Strand.takenUp (u : Strand) : Strand := { ({ u with skip := false } : Strand).return_ with skip := u.skip }

/-- It with its tiles, or waiting for them with a request of this stamp. -/
def State.withTiles (s : State) (stamp n : Nat) (r : Strand) : Strand :=
  if n = 0 then r
  else if (s.upd fun _ => r).canGrant n stamp then r.grantBack n
  else { r with tonPend := some { tiles := n, stamp := stamp, decode := false, resume := true } }

theorem State.resumeTiles_eq (s : State) (r : Strand) (n : Nat) : ∃ stamp, (s.upd fun _ => r).resumeTiles n =
    { s with st := s.withTiles s.stamp n r, stamp := stamp } := by
  unfold State.resumeTiles State.withTiles
  have hstamp : (s.upd fun _ => r).stamp = s.stamp := rfl
  rw [hstamp]
  split
  · exact ⟨_, rfl⟩
  split
  · exact ⟨_, rfl⟩
  · exact ⟨_, rfl⟩

theorem Strand.takenUp_same (u : Strand) : u.takenUp.iter = u.iter ∧ u.takenUp.ctx = u.ctx := by
  rw [Strand.takenUp, Strand.return_same]
  exact ⟨rfl, rfl⟩

/-- Tiles change nothing of what tells a landing batch. -/
theorem State.withTiles_same (s : State) (stamp n : Nat) (r : Strand) : let t := s.withTiles stamp n r
    t.iter.work = r.iter.work ∧ t.iter.graph = r.iter.graph ∧ t.iter.node = r.iter.node ∧ t.ctx = r.ctx := by
  unfold State.withTiles
  split
  · exact ⟨rfl, rfl, rfl, rfl⟩
  split
  · exact ⟨rfl, rfl, rfl, rfl⟩
  · exact ⟨rfl, rfl, rfl, rfl⟩

end Sys2Proof.Machine

namespace Sys2Proof.Machine

section
variable {s : State} {v : Saved} {n : Nat} {ps : List AreaPage} {u : Strand}

/-- The area of the saved iteration is legal and loads as `u`. -/
structure State.Restores (s : State) (v : Saved) (ps : List AreaPage) (u : Strand) : Prop where
  pages : pagePlaces (fun x => s.checkDevice v.strand.ctx .read 1 x) (s.skewAt v.strand.ctx) v.area areaPages 0 = .ok ps
  clean : s.areaPoison v.area ps (s.areaReader ps) = none
  legal : areaLegal (s.areaReader ps) = true
  loads : s.loadArea (s.areaReader ps) none (some v.strand) = .ok u

/-- A restored iteration is the strand that its area describes, with its tiles or waiting for them. -/
theorem State.restore_eq (h : (s.upd fun _ => v.strand.blank).Restores v ps u) : ∃ stamp,
    s.restore v = { s with
      st := (s.upd fun _ => v.strand.blank).withTiles s.stamp ((s.upd fun _ => v.strand.blank).areaReader ps 0x16 1)
        u.takenUp
      stamp := stamp } := by
  obtain ⟨hpages, hclean, hlegal, hloads⟩ := h
  obtain ⟨stamp, hst⟩ := State.resumeTiles_eq (s.upd fun _ => v.strand.blank) u.takenUp
    ((s.upd fun _ => v.strand.blank).areaReader ps 0x16 1)
  refine ⟨stamp, Eq.trans ?_ hst⟩
  unfold Strand.blank at *
  unfold State.restore
  dsimp only [State.upd] at *
  rw [hpages]
  dsimp only
  rw [hclean]
  dsimp only
  rw [if_neg (by rw [hlegal]; decide), hloads]
  rfl

/-- The saved iteration without its blob buffer. -/
def Saved.unbuffered (v : Saved) : Saved :=
    { v with strand := { v.strand with iter := { v.strand.iter with buffer := none } } }

/-- Strand `n` in focus, and the `k`-th saved iteration no longer saved. -/
def State.takeSaved (s : State) (k n : Nat) : State := ({ s with saved := s.saved.eraseIdx k } : State).focus n

/-- The strand that it then is. -/
def State.restored (s : State) (k n : Nat) (v : Saved) (ps : List AreaPage) (u : Strand) : Strand :=
  let s2 := (s.takeSaved k n).upd fun _ => v.unbuffered.strand.blank
  s2.withTiles s.stamp (s2.areaReader ps 0x16 1) u.takenUp

/-- A saved iteration comes back on a free strand of a core with room for it. -/
theorem State.resumeAt_eq {k : Nat} (hv : s.saved[k]? = some v) (hvac : (s.strand n).vacant = true)
    (hland : s.onLanding v.strand = false)
    (hroom : (s.takeSaved k n).coreRoom (coreOf n)
      { streams := v.strand.iter.streams, scratch := v.strand.scratchSize } = true)
    (h : ((s.takeSaved k n).upd fun _ => v.unbuffered.strand.blank).Restores v.unbuffered ps u) :
    ∃ t, s.resumeAt k n = some t ∧ t.strand n = s.restored k n v ps u ∧
      t.saved = s.saved.eraseIdx k ∧ t.monitors = s.monitors ∧ (∀ j, j ≠ n → t.strand j = s.strand j) ∧
        s.keepsMemory t := by
  obtain ⟨others, hfocus⟩ := ({ s with saved := s.saved.eraseIdx k } : State).focus_rest n
  have hstamp : (s.takeSaved k n).stamp = s.stamp := by rw [State.takeSaved, hfocus]
  obtain ⟨stamp, hrestore⟩ : ∃ stamp, (s.takeSaved k n).restore v.unbuffered =
      { s.takeSaved k n with st := s.restored k n v ps u, stamp := stamp } := by
    rw [State.restored, ← hstamp]
    exact State.restore_eq h
  have hloaded := State.loadArea_loaded h.legal h.loads
  have hsame : let r := s.restored k n v ps u
      r.iter.work = u.takenUp.iter.work ∧ r.iter.graph = u.takenUp.iter.graph ∧ r.iter.node = u.takenUp.iter.node ∧
        r.ctx = u.takenUp.ctx :=
    State.withTiles_same ..
  obtain ⟨hwork, hgraph, hnode, hctx⟩ := hsame
  obtain ⟨hiter, hctx'⟩ := u.takenUp_same
  have hiter : u.takenUp.iter = { v.strand.iter with buffer := none } := hiter.trans hloaded.iter
  generalize s.restored k n v ps u = r at *
  obtain ⟨z, hz⟩ : ∃ z, z = (s.takeSaved k n).restore v.unbuffered := ⟨_, rfl⟩
  have hzeq : z = { s.takeSaved k n with st := r, stamp := stamp } := hz.trans hrestore
  have hshow : z.reshow = some z := by
    have hl : z.onLanding z.st = false := by
      rw [← hland]
      refine State.onLanding_congr (s := s) (by rw [hzeq, State.takeSaved, hfocus]) ?_ ?_ ?_ ?_
      · rw [hzeq, hwork, hiter]
      · rw [hzeq, hgraph, hiter]
      · rw [hzeq, hnode, hiter]
      · rw [hzeq]; exact hctx.trans (hctx'.trans hloaded.ctx)
    unfold State.reshow
    dsimp only
    rw [hl]
    rfl
  have hcur : z.cur = n := by rw [hzeq, State.takeSaved, hfocus]
  have hst : z.st = r := by rw [hzeq]
  obtain ⟨others', hback⟩ := z.focus_rest s.cur
  refine ⟨z.focus s.cur, ?_, ?_, ?_, ?_, fun j hj => ?_, ?_⟩
  · have hvac' : (s.takeSaved k n).st.vacant = true := by
      rw [State.takeSaved, State.focus_st]; exact hvac
    unfold State.resumeAt
    rw [hv]
    dsimp only
    rw [if_neg]
    · exact (congrArg (Option.map fun t : State => t.focus s.cur) (hz ▸ hshow)).trans (by rw [hz]; rfl)
    · show ¬((!(s.takeSaved k n).st.vacant || !(s.takeSaved k n).coreRoom (coreOf n) _) = true)
      rw [hvac', hroom]; decide
  · rw [State.focus_strand, ← hcur, State.strand_cur, hst]
  · rw [hback, hzeq, State.takeSaved, hfocus]
  · rw [hback, hzeq, State.takeSaved, hfocus]
  · rw [State.focus_strand]
    have hj' : j ≠ (s.takeSaved k n).cur := by rw [State.takeSaved, State.focus_cur]; exact hj
    have hz' : z.strand j = ((s.takeSaved k n).upd fun _ => r).strand j := by rw [hzeq]; rfl
    rw [hz', State.upd_strand_of_ne _ _ hj', State.takeSaved, State.focus_strand]
    rfl
  · refine ⟨fun b => ?_, fun b => ?_⟩
    · rw [hback, hzeq, State.takeSaved, hfocus]
    · rw [hback, hzeq, State.takeSaved, hfocus]

end

end Sys2Proof.Machine

namespace Sys2Proof.Machine

/-! ## Pre-emption and parking -/

section
variable {s : State} {ps : List AreaPage} {slot : Nat} {a : Word}

/-- A pre-emption whose conditions do not hold does nothing (log 52). -/
theorem State.preempt_not {k : Nat} {landing : Bool}
    (h : s.coreFull (coreOf s.cur) = false ∨ s.victim (coreOf s.cur) ≠ some s.cur ∨ s.st.crit = true ∨
      s.st.level = .supervisor ∨
      s.slotWanted (coreOf s.cur) (fun p => decide (s.st.prio.toNat < p)) = false) : s.preempt k landing = none := by
  have hdef : s.st.crit = true ∨ s.st.level = .supervisor → s.st.deferred = true := by
    rintro (h | h) <;> simp [Strand.deferred, h]
  refine if_neg ?_
  simp only [Bool.and_eq_true, beq_iff_eq, Bool.not_eq_true']
  rintro ⟨⟨⟨⟨hfull, hvictim⟩, hnot⟩, -⟩, hwant⟩
  rcases h with h | h | h | h | h
  · rw [h] at hfull; cases hfull
  · exact h hvictim
  · rw [hdef (.inl h)] at hnot; cases hnot
  · rw [hdef (.inr h)] at hnot; cases hnot
  · rw [h] at hwant; cases hwant

/-- The victim of a full core for which higher work waits is saved. -/
theorem State.preempt_saves {k : Nat} {landing : Bool} (hfull : s.coreFull (coreOf s.cur) = true)
    (hv : s.victim (coreOf s.cur) = some s.cur) (hd : s.st.deferred = false) (hl : s.onLanding s.st = landing)
    (hw : s.slotWanted (coreOf s.cur) (fun p => decide (s.st.prio.toNat < p)) = true) :
      s.preempt k landing = s.saveFocus k false :=
  if_pos (by simp [hfull, hv, hd, hl, hw])

/-- A root that sleeps in a `wait` without time-out is saved, and the monitor watches its word. -/
theorem State.park_saves {k : Nat} {w : Word} {m : Monitor} (hs : s.st.sleep = .word w) (hm : s.watched = some m)
    (hc : s.candidate s.st = true) (hr : s.st.iter.work = .root) (ht : s.st.wto = 0) :
    s.park k = (s.saveFocus k true).map fun t => { t with monitors := t.monitors ++ [m] } := by
  unfold State.park
  rw [hs, hm]
  exact if_pos (by simp [hc, hr, ht])

/-- What a save leaves, of a strand with nothing outstanding: it is free, and saved with its area. -/
theorem State.saveFocus_leaves {k : Nat} (parked : Bool) (hl : s.st.loads = []) (hd : s.st.draining = false)
    (hst : ∀ e ∈ s.st.stores, ∃ k ∈ (s.st.queue ++ s.st.image).map QEntry.seq, e.after = some k)
    (hh : ∀ e, s.st.queue.head? = some e → ∃ f, formOf e = some f ∧ f.grain ≠ 0) (hk : k ≤ s.st.vstart.toNat)
    (hp : s.savePlaces s.st = some (slot, a, ps)) : ∃ t v, s.saveFocus k parked = some t ∧ t.st.vacant = true ∧
      v ∈ t.saved ∧ v.home = s.cur ∧ v.area = a ∧ v.parked = parked ∧ v.strand.iter.slot = some slot ∧
      v.strand.iter.id = s.st.iter.id ∧ v.strand.claims = [] ∧ v.strand.tonOwned = 0 ∧ v.strand.ctx = s.st.ctx ∧
      ∀ ms, (s.context s.st.ctx).ulOn = false → s.flights = [] → Memory.wf s.mem = true →
        (∀ e ∈ s.st.queue ++ s.st.image, e.scalar = 0) → s.st.tonPend = none → pagesApart ps →
        t.saved = s.saved ++ [v] ∧ v.strand.events = s.st.events ∧
          areaShows (({ t with monitors := ms } : State).areaReader ps) s.st.resting s.st.resting.deviceKind := by
  have hwait : ∀ e ∈ s.st.stores, e.after.isNone = false := fun e he => by
    obtain ⟨k, -, hk⟩ := hst e he
    rw [hk]; rfl
  obtain ⟨cs, hsave⟩ := State.saveFocus_eq parked hl hd hwait hh hk hp
  obtain ⟨hhome, harea, hparked, hslot, hid, hclaims, hton, hctx⟩ := State.devicePieces_kept (s := s) (ps := ps)
    (slot := slot) (a := a) parked
  have hshows := State.devicePieces_shows (s := s) hp hh hst
  dsimp only at hsave
  generalize (s.upd Strand.saving).devicePieces a ps = t at *
  refine ⟨_, t.kept slot a parked, hsave, rfl, List.mem_append_right _ (List.mem_singleton_self _), hhome, harea, hparked,
    hslot, hid, hclaims, hton, hctx, fun ms hu hf hm hz hpend hap => ?_⟩
  obtain ⟨hsaved, hevents, hshow⟩ := hshows hu hf hm hz hpend hap
  exact ⟨congrArg (· ++ [t.kept slot a parked]) hsaved, hevents, hshow _ rfl rfl rfl⟩

end

/-- Settles O57: a save of the device writes the pieces of the area, which read back as the strand, and a restore loads
them on top of what the device kept. -/
theorem preemptionAndResume : Obligations.PreemptionAndResume := by
  unfold Obligations.PreemptionAndResume
  refine ⟨fun s slot a ps hl hd hst hh hk hp => ⟨fun hfull hv hdef hw => ?preempt, fun w m hs hm hc hr ht => ?park⟩,
    fun s h => ?notPreempted, fun s v hv hw => ?notWoken,
      fun s v n ps u hv hvac hland hroom hpages hclean hlegal hload => ?resume⟩
  case preempt =>
    obtain ⟨t, v, hsave, hvac, hmem, hhome, harea, hparked, hslot, hid, hclaims, hton, hctx, hcond⟩ :=
      State.saveFocus_leaves false hl hd hst hh hk hp
    have hexec : ∀ landing, s.onLanding s.st = landing → (s.preempt s.args.k landing).getD s = t := fun landing hland => by
      rw [State.preempt_saves hfull hv hdef hland hw, hsave]; rfl
    have hcond := hcond t.monitors
    refine ⟨fun hland => ⟨t, v, congrArg Host.Outcome.next (hexec false hland), ?_⟩,
      fun hland => ⟨t, v, congrArg Host.Outcome.next (hexec true hland), ?_⟩⟩
    · exact ⟨hvac, hmem, hhome, harea, hparked, hslot, hid, hclaims, hton, hctx, trivial, hcond⟩
    · exact ⟨hvac, hmem, hhome, harea, hparked, hslot, hid, hclaims, hton, hctx, trivial, hcond⟩
  case park =>
    obtain ⟨t, v, hsave, hvac, hmem, hhome, harea, hparked, hslot, hid, hclaims, hton, hctx, hcond⟩ :=
      State.saveFocus_leaves true hl hd hst hh hk hp
    have hexec : (s.park s.args.k).getD s = { t with monitors := t.monitors ++ [m] } := by
      rw [State.park_saves hs hm hc hr ht, hsave]; rfl
    exact ⟨_, v, congrArg Host.Outcome.next hexec, hvac, hmem, hhome, harea, hparked, hslot, hid, hclaims, hton, hctx,
      List.mem_append_right _ (List.mem_singleton_self _), hcond _⟩
  case notPreempted =>
    have hexec : ∀ landing, (s.preempt s.args.k landing).getD s = s := fun landing => by rw [State.preempt_not h]; rfl
    exact ⟨congrArg Host.Outcome.next (hexec false), congrArg Host.Outcome.next (hexec true)⟩
  case notWoken =>
    have hwake : (s.wake s.args.k).getD s = s := by
      unfold State.wake
      rw [hv]
      dsimp only
      rw [if_pos (by rw [hw]; rfl)]
      rfl
    exact congrArg Host.Outcome.next hwake
  case resume =>
    obtain ⟨t, hres, hstrand, hsaved, hmon, hothers, hmem⟩ :=
      State.resumeAt_eq hv hvac hland hroom ⟨hpages, hclean, hlegal, hload⟩
    refine ⟨fun hparked hn hcore => ⟨t, ?_, hstrand, hsaved, hmon, hothers, hmem⟩, fun hparked hw habove hfree => ?_⟩
    · have hexec : ((s.saved[s.args.k]?).bind fun v =>
          if !v.parked && coreOf v.home == coreOf s.cur then s.resumeAt s.args.k s.cur else none) = some t := by
        rw [hv, Option.bind_some, hparked, hcore, hn, if_pos (by simp), ← hn, hres]
      exact congrArg (fun o : Option State => Host.Outcome.next (o.getD s)) hexec
    · have hexec : s.wake s.args.k = some { t with monitors := t.monitors.filter fun m => m.iter != v.strand.iter.id } := by
        unfold State.wake
        rw [hv]
        dsimp only
        rw [if_neg (by rw [hw, habove]; decide), hfree, Option.bind_some, hres]
        rfl
      refine ⟨_, congrArg (fun o : Option State => Host.Outcome.next (o.getD s)) hexec, ?_, hsaved, ?_, ?_, hmem⟩
      · exact hstrand
      · exact congrArg (List.filter _) hmon
      · exact hothers

end Sys2Proof.Machine
